-- ==== Sys2Proof/Word.lean ====
section
/-!
DEFINITION. The words of the machine (R58, R192): 64-bit registers and instruction words, 32-bit strip slots, bytes,
and the numbers by which an instruction names a register (R69).
-/

namespace Sys2Proof

/-- A 64-bit scalar register or instruction word (R58, R144). -/
abbrev Word := BitVec 64
/-- A 32-bit slot of a strip or an anchored register (R192, R194). -/
abbrev Slot := BitVec 32
/-- A byte of memory. -/
abbrev Byte := BitVec 8
/-- g0 to g63 (R144). -/
abbrev GReg := BitVec 6
/-- v0 to v31 (R192). -/
abbrev VReg := BitVec 5
/-- m0 to m7 (R193). -/
abbrev MReg := BitVec 3
/-- a0 to a7 (R194). -/
abbrev AReg := BitVec 3
/-- t0 to t7 (R275). -/
abbrev TReg := BitVec 3

end Sys2Proof
end

