-- ==== Sys2Proof/Syntax.lean ====
section
/-!
DEFINITION. The instructions of the TL460 and TL430 (R83) and the events of the machine that the opcode table lists
beside them, as one inductive type: one constructor for each row of spec/opcode_table.json. Operand types take only
values the field can name; which combinations are legal is WellFormed's. Events carry what the agent that causes them
chooses (a hart, a page, a host's value).
-/

namespace Sys2Proof

/-- The element formats, in the order of their codes 0 to 15 (R29). -/
inductive Fmt where
  | i8 | i16 | i32 | i64 | n8 | n16 | n32 | t2 | i4 | e2m1 | e4m3 | e5m2 | f16 | bf16 | f32 | e8m0
  deriving DecidableEq, Repr

/-- The scalar float formats, codes 0 to 3 (R63). -/
inductive SFmt where
  | f32 | f64 | bf16 | f16
  deriving DecidableEq, Repr

/-- The second kind of fcvt, codes 0 to 7 (R154). -/
inductive CvtKind where
  | f32 | f64 | bf16 | f16 | i64 | n64 | i32 | n32
  deriving DecidableEq, Repr

/-- Cache policies, codes 0 to 4 (R72). -/
inductive Policy where
  | normal | stream | keep | nordc | nol1
  deriving DecidableEq, Repr

/-- Scopes, codes 0 to 6 (R71). -/
inductive Scope where
  | hart | core | die | package | fabric | host | system
  deriving DecidableEq, Repr

/-- Sizes of atomics: `.w` code 2, `.d` code 3 (R265). -/
inductive ASize where
  | w | d
  deriving DecidableEq, Repr

/-- Conditions of wait, codes 0 to 7 (R269). -/
inductive WCond where
  | eq | ne | lt | ge | ltn | gen | any | none
  deriving DecidableEq, Repr

/-- Access paths, codes 0 to 5 (R260). -/
inductive Path where
  | h | a | c | t | g | x
  deriving DecidableEq, Repr

/-- The source of a reduction: a strip register, or an anchored register when imm12[0] is 1 (R210). -/
inductive RSrc where
  | strip (v : VReg)
  | anch (a : AReg)
  deriving DecidableEq, Repr

/-- The restricted two-register scalar ops, codes 0 to 8 (R75). -/
inductive PAlu where
  | add | sub | and | or | xor | sll | srl | sra | mov
  deriving DecidableEq, Repr

/-- The restricted vector ops, codes 15 to 19 (R75). -/
inductive PVec where
  | addF | subF | mulF | mv | addI
  deriving DecidableEq, Repr

/-- One restricted slot of a pair word (R74, R75). -/
inductive PSlot where
  | alu (op : PAlu) (d s : GReg)
  | addi (d s : GReg) (imm : BitVec 12)
  | ldi (d : GReg) (imm : BitVec 12)
  | slli (d s : GReg) (sh : BitVec 6)
  | srli (d s : GReg) (sh : BitVec 6)
  | ld (d s : GReg) (imm : BitVec 12)
  | st (d s : GReg) (imm : BitVec 12)
  | vec (op : PVec) (d s : VReg)
  | nop
  deriving DecidableEq, Repr

/-- What the memory-manager firmware does with a page fault (R472): it makes the page present by writing the leaf
entry, or converts the fault to the permission trap. -/
inductive FaultAct where
  | present (pte : BitVec 64)
  | convert
  deriving DecidableEq, Repr

/-- What the power controller measured of one hart over a period (R167): its energy per element-cycle, as the mW that
an element draws. -/
structure HartMeasure where
  hid : Nat
  cost : Nat
  deriving DecidableEq, Repr

/-- What the power controller measured on one die over the period that ends (R165, R167): the draw that no lane makes, in mW,
and its harts. -/
structure DieMeasure where
  die : Nat
  nonlane : Nat
  harts : List HartMeasure
  deriving DecidableEq, Repr

/-- A gossip message on a port (R415): its region, page, sequence number, round tag, weight and words. -/
structure GMsg where
  region : Nat
  page : Nat
  seq : Nat
  round : Option Nat
  words : List (BitVec 64)
  deriving DecidableEq, Repr

/-- A request of a peer package (R451). -/
inductive PeerReq where
  | copyWrite (seq va : Nat) (bytes : List (BitVec 8))
  | copyRead (seq va n : Nat)
  | amo (seq : Nat) (op : Nat) (size va : Nat) (x e : BitVec 64)
  | wait (seq : Nat) (cond size va : Nat) (x : BitVec 64)
  deriving DecidableEq, Repr

/-- A debugger's change of a stopped hart (R381). -/
inductive RegEdit where
  | g (i : GReg) (val : BitVec 64)
  | nr (val : BitVec 4)
  | vtype (val : BitVec 12)
  | frm (val : BitVec 3)
  deriving DecidableEq, Repr

/-- How system software starts recording or replay of a launch (R458). -/
structure RecSetup where
  replay : Bool
  base : Nat
  bytes : Nat
  deriving DecidableEq, Repr

/-- Where a check of stored data found an error (R27, R28, R396): a line that became uncorrectable; a corrected error of a
line, in the home L2 or the remote-data cache (`cache`) or in the stack array; or a slot that failed parity, of a hart's
strip state or tile store, by file (1 vector register, 2 mask, 3 scale companion, 4 partial plane and 5 accumulator plane of
a tile), register, row and position. -/
inductive DataErr where
  | line (pa : Nat)
  | corrected (cache : Bool) (pa : Nat)
  | slot (h file reg row j : Nat)
  deriving DecidableEq, Repr

/-- What system software gives a partition (R435, R449 to R451): its translation root, its host windows as base and size,
the source partitions bound to it as 4 × package + partition, and its error log: the physical address of the ring and the
records that it has room for. -/
structure PartSetup where
  part : Nat
  root : Nat
  windows : List (Nat × Nat)
  peers : List Nat
  elogAt : Nat
  elog : Nat
  deriving DecidableEq, Repr

/-- Where a read through a host window goes (R435, R450): memory, or a queue's register block, whose registers are 0 qbase,
1 qcfg, 2 qtail, 3 qhead, 4 qstat. -/
inductive HostPlace where
  | memory (va : Nat)
  | register (q reg : Nat)
  deriving DecidableEq, Repr

/-- Whose data a link carries in a transfer that fails its CRC (R27, R28): no task's, a hart's read, a copy channel's or a
queue's copy, or a gossip receipt's. -/
inductive LinkUse where
  | none
  | hart (h : Nat)
  | copy (h ch id : Nat)
  | packet (p q : Nat)
  | receipt (port : Nat) (msg : GMsg)
  deriving DecidableEq, Repr

/-- Which group of a launch is saved lazily, and the save area it goes to (R278). -/
structure SaveArea where
  grp : Nat
  area : Nat
  deriving DecidableEq, Repr

/-- The page of a shootdown: a virtual address in it, and the level of its leaf (R225). -/
structure Shot where
  va : Nat
  level : Nat
  deriving DecidableEq, Repr

/-- A message that is sent again, and the interval to the following retransmission, in ns (R416). -/
structure Resend where
  seq : Nat
  next : Nat
  deriving DecidableEq, Repr

/-- Whether this package is fenced, and the packages that no route reaches any more and that are (R417, R452). -/
structure Fencing where
  self : Bool
  gone : List Nat
  deriving DecidableEq, Repr

/-- The port by which a request of another package comes, and the port of that package that numbers it (R452). -/
structure PeerWay where
  port : Nat
  num : Nat
  deriving DecidableEq, Repr

/-- A sealed message: the digest of the identity it is for, its associated data and its ciphertext (R468). -/
structure Sealing where
  ident : List (BitVec 8)
  ad : List (BitVec 8)
  text : List (BitVec 8)
  deriving DecidableEq, Repr

/-- A cycle of a core's sequencer: the harts whose oldest instruction is not eligible in it (R130). -/
structure ServeCycle where
  core : Nat
  idle : List Nat
  deriving DecidableEq, Repr

/-- Every row of the opcode table: the instructions of R83 and the events of the machine. -/
inductive Instr where
  /-- `ADD` (R150). -/
  | add (d a b : GReg)
  /-- `SUB` (R150). -/
  | sub (d a b : GReg)
  /-- `MUL` (R150). -/
  | mul (d a b : GReg)
  /-- `MULH` (R150). -/
  | mulh (d a b : GReg)
  /-- `MULHN` (R150). -/
  | mulhn (d a b : GReg)
  /-- `DIV` (R151). -/
  | div (d a b : GReg)
  /-- `DIVN` (R151). -/
  | divn (d a b : GReg)
  /-- `REM` (R151). -/
  | rem (d a b : GReg)
  /-- `REMN` (R151). -/
  | remn (d a b : GReg)
  /-- `AND` (R150). -/
  | and (d a b : GReg)
  /-- `OR` (R150). -/
  | or (d a b : GReg)
  /-- `XOR` (R150). -/
  | xor (d a b : GReg)
  /-- `SLL` (R150). -/
  | sll (d a b : GReg)
  /-- `SRL` (R150). -/
  | srl (d a b : GReg)
  /-- `SRA` (R150). -/
  | sra (d a b : GReg)
  /-- `SLT` (R150). -/
  | slt (d a b : GReg)
  /-- `SLTN` (R150). -/
  | sltn (d a b : GReg)
  /-- `MIN` (R150). -/
  | min (d a b : GReg)
  /-- `MAX` (R150). -/
  | max (d a b : GReg)
  /-- `MINN` (R150). -/
  | minn (d a b : GReg)
  /-- `MAXN` (R150). -/
  | maxn (d a b : GReg)
  /-- `CLZ` (R150). -/
  | clz (d a : GReg)
  /-- `CTZ` (R150). -/
  | ctz (d a : GReg)
  /-- `POPC` (R150). -/
  | popc (d a : GReg)
  /-- `SEXT` (R150). -/
  | sext (d a : GReg) (n1 : BitVec 6)
  /-- `ZEXT` (R150). -/
  | zext (d a : GReg) (n1 : BitVec 6)
  /-- `CMOV` (R150). -/
  | cmov (d a b c : GReg)
  /-- `ADDS` (R150). -/
  | adds (d a b : GReg)
  /-- `SUBS` (R150). -/
  | subs (d a b : GReg)
  /-- `ADDI` (R152). -/
  | addi (d a : GReg) (imm : BitVec 32)
  /-- `ANDI` (R152). -/
  | andi (d a : GReg) (imm : BitVec 32)
  /-- `ORI` (R152). -/
  | ori (d a : GReg) (imm : BitVec 32)
  /-- `XORI` (R152). -/
  | xori (d a : GReg) (imm : BitVec 32)
  /-- `SLLI` (R152). -/
  | slli (d a : GReg) (sh : BitVec 6)
  /-- `SRLI` (R152). -/
  | srli (d a : GReg) (sh : BitVec 6)
  /-- `SRAI` (R152). -/
  | srai (d a : GReg) (sh : BitVec 6)
  /-- `SLTI` (R152). -/
  | slti (d a : GReg) (imm : BitVec 32)
  /-- `LDI` (R152). -/
  | ldi (d : GReg) (imm : BitVec 32)
  /-- `LDIH` (R152). -/
  | ldih (d : GReg) (imm : BitVec 32)
  /-- `PCADD` (R152). -/
  | pcadd (d : GReg) (imm : BitVec 32)
  /-- `FADD` (R153). -/
  | fadd (d a b : GReg) (f : SFmt)
  /-- `FSUB` (R153). -/
  | fsub (d a b : GReg) (f : SFmt)
  /-- `FMUL` (R153). -/
  | fmul (d a b : GReg) (f : SFmt)
  /-- `FDIV` (R153). -/
  | fdiv (d a b : GReg) (f : SFmt)
  /-- `FFMA` (R153). -/
  | ffma (d a b c : GReg) (f : SFmt)
  /-- `FMIN` (R153). -/
  | fmin (d a b : GReg) (f : SFmt)
  /-- `FMAX` (R153). -/
  | fmax (d a b : GReg) (f : SFmt)
  /-- `FSQRT` (R153). -/
  | fsqrt (d a : GReg) (f : SFmt)
  /-- `FCMPEQ` (R153). -/
  | fcmpeq (d a b : GReg) (f : SFmt)
  /-- `FCMPLT` (R153). -/
  | fcmplt (d a b : GReg) (f : SFmt)
  /-- `FCMPLE` (R153). -/
  | fcmple (d a b : GReg) (f : SFmt)
  /-- `FCVT` (R154). -/
  | fcvt (d a : GReg) (f : SFmt) (k : CvtKind) (dir : Bool)
  /-- `FCLASS` (R153). -/
  | fclass (d a : GReg) (f : SFmt)
  /-- `BEQ` (R155). -/
  | beq (a b : GReg) (off : BitVec 32)
  /-- `BNE` (R155). -/
  | bne (a b : GReg) (off : BitVec 32)
  /-- `BLT` (R155). -/
  | blt (a b : GReg) (off : BitVec 32)
  /-- `BGE` (R155). -/
  | bge (a b : GReg) (off : BitVec 32)
  /-- `BLTN` (R155). -/
  | bltn (a b : GReg) (off : BitVec 32)
  /-- `BGEN` (R155). -/
  | bgen (a b : GReg) (off : BitVec 32)
  /-- `BZ` (R155). -/
  | bz (a : GReg) (off : BitVec 32)
  /-- `BNZ` (R155). -/
  | bnz (a : GReg) (off : BitVec 32)
  /-- `JAL` (R156). -/
  | jal (d : GReg) (off : BitVec 32)
  /-- `JALR` (R156). -/
  | jalr (d a : GReg) (imm : BitVec 32)
  /-- `DBNZ` (R157). -/
  | dbnz (a : GReg) (off : BitVec 32)
  /-- `CRD` (R147). -/
  | crd (d : GReg) (cr : BitVec 12)
  /-- `CWR` (R147). -/
  | cwr (a : GReg) (cr : BitVec 12)
  /-- `CSET` (R147). -/
  | cset (d a : GReg) (cr : BitVec 12)
  /-- `CCLR` (R147). -/
  | cclr (d a : GReg) (cr : BitVec 12)
  /-- `SYS` (R160). -/
  | sys (n : BitVec 24)
  /-- `BRK` (R161). -/
  | brk (n : BitVec 24)
  /-- `RDTIME` (R162). -/
  | rdtime (d : GReg)
  /-- `TMARK` (R163). -/
  | tmark (a : GReg) (n : BitVec 24)
  /-- `DYN` (R164). -/
  | dyn (d a : GReg)
  /-- `ARG` (R135). -/
  | arg (d : GReg) (i : BitVec 6)
  /-- `WFLD` (R136). -/
  | wfld (d : GReg) (k : BitVec 3)
  /-- `PRIO` (R137). -/
  | prio (d a : GReg)
  /-- `BAR` (R140). -/
  | bar (n : BitVec 2)
  /-- `BAR_PH` (R140). -/
  | barPh (d : GReg) (n : BitVec 2)
  /-- `SLEEP` (R142). -/
  | sleep (a : GReg)
  /-- `LNCH` (R143). -/
  | lnch (d a : GReg) (q : BitVec 6)
  /-- `TRAP` (R394). -/
  | trap (n : BitVec 24)
  /-- `CTXSV` (R401). -/
  | ctxsv (d a : GReg)
  /-- `CTXLD` (R401). -/
  | ctxld (d a : GReg)
  /-- `SFQ` (R403). -/
  | sfq (d : GReg) (k : BitVec 3)
  /-- `SFQ_POP` (R403). -/
  | sfqPop (d : GReg) (k : BitVec 3)
  /-- `QPUT` (R447). -/
  | qput (d a : GReg) (q : BitVec 6)
  /-- `SINV_PAGE` (R382). -/
  | sinvPage (d a : GReg)
  /-- `SINV_ALL` (R382). -/
  | sinvAll (d : GReg)
  /-- `SINV_REPORT` (R383). -/
  | sinvReport (d : GReg)
  /-- `VGR` (R187). -/
  | vgr (d a : GReg)
  /-- `VGQ` (R188). -/
  | vgq (d a : GReg)
  /-- `VREL` (R189). -/
  | vrel (d : GReg)
  /-- `VROWS` (R190). -/
  | vrows (d : GReg) (n : BitVec 4)
  /-- `VTYPE` (R191). -/
  | vtype (d : GReg) (f : Fmt) (blk : BitVec 2) (n : BitVec 4)
  /-- `VADD_FLOAT` (R204). -/
  | vaddFloat (f : Fmt) (d a b : VReg) (x e : Option MReg)
  /-- `VSUB_FLOAT` (R204). -/
  | vsubFloat (f : Fmt) (d a b : VReg) (x e : Option MReg)
  /-- `VMUL_FLOAT` (R204). -/
  | vmulFloat (f : Fmt) (d a b : VReg) (x e : Option MReg)
  /-- `VFMA` (R204). -/
  | vfma (f : Fmt) (d a b c : VReg) (x e : Option MReg)
  /-- `VFMS` (R204). -/
  | vfms (f : Fmt) (d a b c : VReg) (x e : Option MReg)
  /-- `VDIV` (R204). -/
  | vdiv (f : Fmt) (d a b : VReg) (x e : Option MReg)
  /-- `VSQRT` (R204). -/
  | vsqrt (f : Fmt) (d a : VReg) (x e : Option MReg)
  /-- `VMIN_FLOAT` (R204). -/
  | vminFloat (f : Fmt) (d a b : VReg) (x e : Option MReg)
  /-- `VMAX_FLOAT` (R204). -/
  | vmaxFloat (f : Fmt) (d a b : VReg) (x e : Option MReg)
  /-- `VABS_FLOAT` (R204). -/
  | vabsFloat (f : Fmt) (d a : VReg) (x e : Option MReg)
  /-- `VNEG` (R204). -/
  | vneg (f : Fmt) (d a : VReg) (x e : Option MReg)
  /-- `VRCP` (R204). -/
  | vrcp (f : Fmt) (d a : VReg) (x e : Option MReg)
  /-- `VRSQRT` (R204). -/
  | vrsqrt (f : Fmt) (d a : VReg) (x e : Option MReg)
  /-- `VEXP2` (R204). -/
  | vexp2 (f : Fmt) (d a : VReg) (x e : Option MReg)
  /-- `VLOG2` (R204). -/
  | vlog2 (f : Fmt) (d a : VReg) (x e : Option MReg)
  /-- `VCMPEQ_FLOAT` (R204). -/
  | vcmpeqFloat (f : Fmt) (d : MReg) (a b : VReg) (x e : Option MReg)
  /-- `VCMPLT_FLOAT` (R204). -/
  | vcmpltFloat (f : Fmt) (d : MReg) (a b : VReg) (x e : Option MReg)
  /-- `VCMPLE` (R204). -/
  | vcmple (f : Fmt) (d : MReg) (a b : VReg) (x e : Option MReg)
  /-- `VCMPUN` (R204). -/
  | vcmpun (f : Fmt) (d : MReg) (a b : VReg) (x e : Option MReg)
  /-- `VADD_INT` (R205). -/
  | vaddInt (f : Fmt) (d a b : VReg) (x e : Option MReg)
  /-- `VSUB_INT` (R205). -/
  | vsubInt (f : Fmt) (d a b : VReg) (x e : Option MReg)
  /-- `VMUL_INT` (R205). -/
  | vmulInt (f : Fmt) (d a b : VReg) (x e : Option MReg)
  /-- `VMULH` (R205). -/
  | vmulh (f : Fmt) (d a b : VReg) (x e : Option MReg)
  /-- `VADDS` (R205). -/
  | vadds (f : Fmt) (d a b : VReg) (x e : Option MReg)
  /-- `VSUBS` (R205). -/
  | vsubs (f : Fmt) (d a b : VReg) (x e : Option MReg)
  /-- `VAND` (R205). -/
  | vand (f : Fmt) (d a b : VReg) (x e : Option MReg)
  /-- `VOR` (R205). -/
  | vor (f : Fmt) (d a b : VReg) (x e : Option MReg)
  /-- `VXOR` (R205). -/
  | vxor (f : Fmt) (d a b : VReg) (x e : Option MReg)
  /-- `VSLL` (R205). -/
  | vsll (f : Fmt) (d a b : VReg) (x e : Option MReg)
  /-- `VSRL` (R205). -/
  | vsrl (f : Fmt) (d a b : VReg) (x e : Option MReg)
  /-- `VSRA` (R205). -/
  | vsra (f : Fmt) (d a b : VReg) (x e : Option MReg)
  /-- `VMIN_INT` (R205). -/
  | vminInt (f : Fmt) (d a b : VReg) (x e : Option MReg)
  /-- `VMAX_INT` (R205). -/
  | vmaxInt (f : Fmt) (d a b : VReg) (x e : Option MReg)
  /-- `VCMPEQ_INT` (R205). -/
  | vcmpeqInt (f : Fmt) (d : MReg) (a b : VReg) (x e : Option MReg)
  /-- `VCMPLT_INT` (R205). -/
  | vcmpltInt (f : Fmt) (d : MReg) (a b : VReg) (x e : Option MReg)
  /-- `VCMPLTN` (R205). -/
  | vcmpltn (f : Fmt) (d : MReg) (a b : VReg) (x e : Option MReg)
  /-- `VABS_INT` (R205). -/
  | vabsInt (f : Fmt) (d a : VReg) (x e : Option MReg)
  /-- `VCVT` (R206). -/
  | vcvt (f : Fmt) (d a : VReg) (src : Fmt) (x e : Option MReg)
  /-- `VQ` (R51). -/
  | vq (d a : VReg) (x e : Option MReg)
  /-- `VDQ` (R52). -/
  | vdq (f : Fmt) (d a : VReg) (x e : Option MReg)
  /-- `VSCL` (R207). -/
  | vscl (d a : VReg)
  /-- `VSCW` (R207). -/
  | vscw (d a : VReg)
  /-- `VMV` (R208). -/
  | vmv (d a : VReg) (e : Option MReg)
  /-- `VBC` (R208). -/
  | vbc (f : Fmt) (d : VReg) (b : GReg) (e : Option MReg)
  /-- `VID` (R208). -/
  | vid (f : Fmt) (d : VReg) (b : GReg) (e : Option MReg)
  /-- `VSEL` (R208). -/
  | vsel (d a b : VReg) (c : MReg) (e : Option MReg)
  /-- `VSLU` (R208). -/
  | vslu (d a : VReg) (b : GReg) (e : Option MReg)
  /-- `VSLD` (R208). -/
  | vsld (d a : VReg) (b : GReg) (e : Option MReg)
  /-- `VPERM` (R208). -/
  | vperm (d a b : VReg) (e : Option MReg)
  /-- `VROW` (R208). -/
  | vrow (d a : VReg) (k : BitVec 3) (e : Option MReg)
  /-- `VXS` (R209). -/
  | vxs (f : Fmt) (d : GReg) (a : VReg) (b : GReg)
  /-- `VINS` (R209). -/
  | vins (f : Fmt) (d : VReg) (a b : GReg)
  /-- `VAMV` (R209). -/
  | vamv (d : AReg) (a : VReg) (b : GReg) (e : Option MReg)
  /-- `VMVA` (R208). -/
  | vmva (d : VReg) (a : AReg) (b : GReg) (e : Option MReg)
  /-- `VRED_ADD` (R210). -/
  | vredAdd (f : Fmt) (d : GReg) (a : RSrc) (e : Option MReg)
  /-- `VRED_MAX` (R210). -/
  | vredMax (f : Fmt) (d : GReg) (a : RSrc) (e : Option MReg)
  /-- `VRED_MIN` (R210). -/
  | vredMin (f : Fmt) (d : GReg) (a : RSrc) (e : Option MReg)
  /-- `VCADD` (R211). -/
  | vcadd (f : Fmt) (d : AReg) (a : VReg) (b : GReg) (e : Option MReg)
  /-- `VCMAX` (R211). -/
  | vcmax (f : Fmt) (d : AReg) (a : VReg) (b : GReg) (e : Option MReg)
  /-- `VSPARSE` (R212). -/
  | vsparse (f : Fmt) (d a : VReg) (c : MReg) (n : BitVec 5)
  /-- `VSPARSE_P` (R212). -/
  | vsparseP (f : Fmt) (d a : VReg) (c : MReg) (n : BitVec 5)
  /-- `VEXPAND` (R213). -/
  | vexpand (d a : VReg) (c : MReg)
  /-- `MAND` (R214). -/
  | mand (d a b : MReg) (e : Option MReg)
  /-- `MOR` (R214). -/
  | mor (d a b : MReg) (e : Option MReg)
  /-- `MXOR` (R214). -/
  | mxor (d a b : MReg) (e : Option MReg)
  /-- `MNOT` (R214). -/
  | mnot (d a : MReg) (e : Option MReg)
  /-- `MPOP` (R214). -/
  | mpop (d : GReg) (a : MReg) (e : Option MReg)
  /-- `MFIRST` (R214). -/
  | mfirst (d : GReg) (a : MReg) (e : Option MReg)
  /-- `MSET` (R214). -/
  | mset (d : MReg) (b : GReg) (e : Option MReg)
  /-- `LD_B` (R232). -/
  | ldB (d base ix : GReg) (scale : BitVec 2) (pol : Policy) (off : BitVec 18)
  /-- `LD_H` (R232). -/
  | ldH (d base ix : GReg) (scale : BitVec 2) (pol : Policy) (off : BitVec 18)
  /-- `LD_W` (R232). -/
  | ldW (d base ix : GReg) (scale : BitVec 2) (pol : Policy) (off : BitVec 18)
  /-- `LD_D` (R232). -/
  | ldD (d base ix : GReg) (scale : BitVec 2) (pol : Policy) (off : BitVec 18)
  /-- `LD_BN` (R232). -/
  | ldBn (d base ix : GReg) (scale : BitVec 2) (pol : Policy) (off : BitVec 18)
  /-- `LD_HN` (R232). -/
  | ldHn (d base ix : GReg) (scale : BitVec 2) (pol : Policy) (off : BitVec 18)
  /-- `LD_WN` (R232). -/
  | ldWn (d base ix : GReg) (scale : BitVec 2) (pol : Policy) (off : BitVec 18)
  /-- `ST_B` (R233). -/
  | stB (d base ix : GReg) (scale : BitVec 2) (pol : Policy) (off : BitVec 18)
  /-- `ST_H` (R233). -/
  | stH (d base ix : GReg) (scale : BitVec 2) (pol : Policy) (off : BitVec 18)
  /-- `ST_W` (R233). -/
  | stW (d base ix : GReg) (scale : BitVec 2) (pol : Policy) (off : BitVec 18)
  /-- `ST_D` (R233). -/
  | stD (d base ix : GReg) (scale : BitVec 2) (pol : Policy) (off : BitVec 18)
  /-- `PF` (R234). -/
  | pf (base ix : GReg) (scale : BitVec 2) (pol : Policy) (off : BitVec 18)
  /-- `VLD` (R237). -/
  | vld (f : Fmt) (d : VReg) (base ix : GReg) (scale : BitVec 2) (pol : Policy) (off : BitVec 14) (e : Option MReg)
  /-- `VLDS` (R237). -/
  | vlds (f : Fmt) (d : VReg) (base ix : GReg) (scale : BitVec 2) (pol : Policy) (off : BitVec 14) (e : Option MReg)
  /-- `VLDX` (R237). -/
  | vldx (f : Fmt) (d : VReg) (base : GReg) (ix : VReg) (scale : BitVec 2) (pol : Policy) (off : BitVec 14) (e : Option MReg)
  /-- `VST` (R237). -/
  | vst (f : Fmt) (d : VReg) (base ix : GReg) (scale : BitVec 2) (pol : Policy) (off : BitVec 14) (e : Option MReg)
  /-- `VSTS` (R237). -/
  | vsts (f : Fmt) (d : VReg) (base ix : GReg) (scale : BitVec 2) (pol : Policy) (off : BitVec 14) (e : Option MReg)
  /-- `VSTX` (R237). -/
  | vstx (f : Fmt) (d : VReg) (base : GReg) (ix : VReg) (scale : BitVec 2) (pol : Policy) (off : BitVec 14) (e : Option MReg)
  /-- `VSADD` (R241). -/
  | vsadd (f : Fmt) (d : VReg) (base : GReg) (ix : VReg) (scale : BitVec 2) (sc : Scope) (off : BitVec 14) (e : Option MReg)
  /-- `VLD_T` (R242). -/
  | vldT (d : VReg) (base ix : GReg) (pol : Policy) (tid : BitVec 8) (e : Option MReg)
  /-- `VST_T` (R242). -/
  | vstT (d : VReg) (base ix : GReg) (pol : Policy) (tid : BitVec 8) (e : Option MReg)
  /-- `AMO_ADD` (R266). -/
  | amoAdd (d base ix : GReg) (sz : ASize) (sc : Scope) (off : BitVec 18)
  /-- `AMO_AND` (R266). -/
  | amoAnd (d base ix : GReg) (sz : ASize) (sc : Scope) (off : BitVec 18)
  /-- `AMO_OR` (R266). -/
  | amoOr (d base ix : GReg) (sz : ASize) (sc : Scope) (off : BitVec 18)
  /-- `AMO_XOR` (R266). -/
  | amoXor (d base ix : GReg) (sz : ASize) (sc : Scope) (off : BitVec 18)
  /-- `AMO_MIN` (R266). -/
  | amoMin (d base ix : GReg) (sz : ASize) (sc : Scope) (off : BitVec 18)
  /-- `AMO_MAX` (R266). -/
  | amoMax (d base ix : GReg) (sz : ASize) (sc : Scope) (off : BitVec 18)
  /-- `AMO_MINN` (R266). -/
  | amoMinn (d base ix : GReg) (sz : ASize) (sc : Scope) (off : BitVec 18)
  /-- `AMO_MAXN` (R266). -/
  | amoMaxn (d base ix : GReg) (sz : ASize) (sc : Scope) (off : BitVec 18)
  /-- `AMO_SWAP` (R266). -/
  | amoSwap (d base ix : GReg) (sz : ASize) (sc : Scope) (off : BitVec 18)
  /-- `AMO_CAS` (R266). -/
  | amoCas (d base ix : GReg) (sz : ASize) (sc : Scope) (off : BitVec 18)
  /-- `AMO_FADD` (R266). -/
  | amoFadd (d base ix : GReg) (sc : Scope) (off : BitVec 18)
  /-- `AMO_LD` (R266). -/
  | amoLd (d base : GReg) (sz : ASize) (sc : Scope) (off : BitVec 18)
  /-- `AMO_ST` (R266). -/
  | amoSt (base ix : GReg) (sz : ASize) (sc : Scope) (off : BitVec 18)
  /-- `WAIT` (R269). -/
  | wait (d base ix : GReg) (sz : ASize) (sc : Scope) (off : BitVec 14) (cond : WCond)
  /-- `PH` (R261). -/
  | ph (d : GReg)
  /-- `PH_TIMESTAMP` (R261). -/
  | phTimestamp (d a : GReg)
  /-- `PH_A` (R262). -/
  | phA (d : GReg)
  /-- `FX` (R263). -/
  | fx (dst frm : Path)
  /-- `OPA` (R287). -/
  | opa (f : Fmt) (d : TReg) (a : AReg) (b : VReg) (c : GReg) (c16 : Bool)
  /-- `TFOLD` (R288). -/
  | tfold (d : TReg) (a : AReg) (b : VReg) (c : GReg) (ka kv : BitVec 3)
  /-- `TCLR` (R289). -/
  | tclr (d : GReg) (a : TReg) (mask : BitVec 3)
  /-- `TLD` (R290). -/
  | tld (f : Fmt) (d : TReg) (a b c : GReg) (row0 : BitVec 6)
  /-- `TST` (R290). -/
  | tst (f : Fmt) (d : TReg) (a b c : GReg) (row0 : BitVec 6)
  /-- `TMV` (R291). -/
  | tmv (f : Fmt) (d : VReg) (a : TReg) (c : GReg) (row0 : BitVec 6) (e : Option MReg)
  /-- `TADD` (R292). -/
  | tadd (f : Fmt) (d : TReg) (b : VReg) (c : GReg) (row0 : BitVec 6) (e : Option MReg)
  /-- `CPW` (R304). -/
  | cpw (flg src dst len : GReg) (ch : BitVec 2)
  /-- `CPGO` (R305). -/
  | cpgo (d : GReg) (ch : BitVec 2)
  /-- `CWAIT` (R306). -/
  | cwait (d a : GReg) (ch : BitVec 2)
  /-- `CPST` (R307). -/
  | cpst (d a : GReg) (ch : BitVec 2)
  /-- `TDEF` (R309). -/
  | tdef (d : GReg) (a : VReg) (b c : GReg) (tid : BitVec 8)
  /-- `TDROP` (R310). -/
  | tdrop (tid : BitVec 8)
  /-- `TGET` (R312). -/
  | tget (d : GReg) (tid : BitVec 8) (k : BitVec 5)
  /-- `RINIT` (R316). -/
  | rinit (d a b c : GReg) (n : BitVec 4)
  /-- `RGET` (R317). -/
  | rget (d : GReg) (n : BitVec 4)
  /-- `RGET_NW` (R317). -/
  | rgetNw (d : GReg) (n : BitVec 4)
  /-- `RREL` (R318). -/
  | rrel (n : BitVec 4)
  /-- `XINS` (R329). -/
  | xins (f : Fmt) (d : GReg) (a b : VReg) (c : MReg) (e : Option MReg)
  /-- `XACC` (R329). -/
  | xacc (f : Fmt) (d : GReg) (a b : VReg) (c : MReg) (e : Option MReg)
  /-- `XLOOK` (R330). -/
  | xlook (f : Fmt) (d a : VReg) (c : MReg) (e : Option MReg)
  /-- `XDEL` (R331). -/
  | xdel (d : GReg) (a : VReg) (c : MReg) (e : Option MReg)
  /-- `XDRAIN` (R332). -/
  | xdrain (f : Fmt) (d : GReg) (a b : VReg)
  /-- `XCNT` (R333). -/
  | xcnt (d : GReg) (sel : Bool)
  /-- `XCLR` (R333). -/
  | xclr (d : GReg)
  /-- `KXDEF` (R354). -/
  | kxdef (d a : GReg) (kx : BitVec 8)
  /-- `KXPRJ` (R355). -/
  | kxprj (d b c : GReg) (kx : BitVec 8)
  /-- `KST` (R356). -/
  | kst (d : AReg) (a : VReg) (b c : GReg) (kx : BitVec 8)
  /-- `KSIG` (R356). -/
  | ksig (d : AReg) (a : VReg) (c : GReg) (kx : BitVec 8)
  /-- `KGA` (R357). -/
  | kga (d : VReg) (a : AReg) (b c : GReg) (kx : BitVec 8) (k : BitVec 3)
  /-- `KGA_U` (R350). -/
  | kgaU (d : VReg) (a : AReg) (b c : GReg) (kx : BitVec 8) (k : BitVec 3)
  /-- `KXST` (R358). -/
  | kxst (d : GReg) (kx : BitVec 8) (sel : BitVec 3)
  /-- `KXST_CLR` (R358). -/
  | kxstClr (d : GReg) (kx : BitVec 8) (sel : BitVec 3)
  /-- `KXCLR` (R359). -/
  | kxclr (d : GReg) (kx : BitVec 8)
  /-- `GADD` (R426). -/
  | gadd (d a b : GReg)
  /-- `VGADD` (R427). -/
  | vgadd (f : Fmt) (d a : GReg) (b c : VReg) (e : Option MReg)
  /-- `GLD` (R428). -/
  | gld (d : VReg) (a : GReg) (b : VReg) (e : Option MReg)
  /-- `GEST` (R428). -/
  | gest (d : VReg) (a : GReg) (b : VReg) (e : Option MReg)
  /-- `GW` (R429). -/
  | gw (d a : GReg)
  /-- `GSPR` (R429). -/
  | gspr (d : GReg) (n : BitVec 4)
  /-- `GSTEP` (R430). -/
  | gstep (d a : GReg) (n : BitVec 4)
  /-- `PAIR_WORD` (R76). -/
  | pairWord (b0 : Bool) (s0 : PSlot) (b1 : Bool) (s1 : PSlot)
  /-- `GQUIET` (R431). -/
  | gquiet (n : BitVec 4)
  /-- `GCTL_DEFINE` (R432). -/
  | gctlDefine (d a : GReg) (n : BitVec 4)
  /-- `GCTL_UNDEFINE` (R432). -/
  | gctlUndefine (d a : GReg) (n : BitVec 4)
  /-- `GCTL_STATUS` (R432). -/
  | gctlStatus (d a : GReg) (n : BitVec 4)
  /-- `GCTL_STATUS_CLEAR` (R432). -/
  | gctlStatusClear (d a : GReg) (n : BitVec 4)
  /-- `YIELD` (R138). -/
  | yield
  /-- `EXIT` (R139). -/
  | exit
  /-- `TRET_GROUP` (R393). -/
  | tretGroup
  /-- `TRET_LAUNCH` (R393). -/
  | tretLaunch
  /-- `TRET_RESTART` (R393). -/
  | tretRestart
  /-- `TRET_RESUME` (R393). -/
  | tretResume
  /-- `SDRAIN` (R243). -/
  | sdrain
  /-- `FENCE` (R264). -/
  | fence
  /-- `SLEEP_DEADLINE` (R142). -/
  | sleepDeadline (h : Nat)
  /-- `STORE_FAULT_REPORT` (R244). -/
  | storeFaultReport (h : Nat)
  /-- `WAIT_SATISFIED` (R269). -/
  | waitSatisfied (h : Nat)
  /-- `ORDERED_COMMIT_TURN` (R272). -/
  | orderedCommitTurn (h : Nat)
  /-- `FIRMWARE_COMMIT` (R473). -/
  | firmwareCommit (h : Nat)
  /-- `COPY_TRANSFER_COMPLETE` (R296). -/
  | copyTransferComplete (h ch id : Nat)
  /-- `COPY_ERROR_COMPLETION` (R300). -/
  | copyErrorCompletion (h ch id kind : Nat)
  /-- `RING_SLOT_FILL` (R315). -/
  | ringSlotFill (core ring : Nat)
  /-- `POWER_PERIOD_BOUNDARY` (R165). -/
  | powerPeriodBoundary (ms : List DieMeasure)
  /-- `LANE_HOLD_LIMIT_EXPIRY` (R174). -/
  | laneHoldLimitExpiry (h : Nat)
  /-- `CURRENT_ALARM` (R177). -/
  | currentAlarm (die : Nat)
  /-- `THERMAL_STEP_TICK` (R178). -/
  | thermalStepTick (die reading : Nat)
  /-- `ENVELOPE_SET` (R166): the envelope in W, and the die budgets in mW. -/
  | envelopeSet (watts : Nat) (div : List Nat)
  /-- `PACKET_LAUNCH` (R114). -/
  | packetLaunch (p q : Nat)
  /-- `GROUP_PLACEMENT` (R118). -/
  | groupPlacement (lid core : Nat) (tfbs : List Nat)
  /-- `DRESSER_EVALUATION` (R365). -/
  | dresserEvaluation (lid die : Nat)
  /-- `LAUNCH_RETIREMENT` (R122). -/
  | launchRetirement (lid : Nat)
  /-- `DIGEST_REGISTER` (R464). -/
  | digestRegister (lid : Nat) (ranges : List (Nat × Nat)) (addr : Nat)
  /-- `EVICTION` (R125). -/
  | eviction (lid : Nat)
  /-- `GROUP_REPLACEMENT` (R126). -/
  | groupReplacement (lid grp core : Nat)
  /-- `PREEMPTION` (R397). -/
  | preemption (h : Nat)
  /-- `CONTEXT_RESUME` (R399). -/
  | contextResume (h core : Nat)
  /-- `TILE_LAZY_SAVE` (R278). -/
  | tileLazySave (lid : Nat) (at_ : SaveArea)
  /-- `TILE_RELOAD` (R278). -/
  | tileReload (h t : Nat)
  /-- `PAGE_FAULT_SERVICE` (R472). -/
  | pageFaultService (p va : Nat) (act : FaultAct)
  /-- `SHOOTDOWN` (R225). -/
  | shootdown (p : Nat) (page : Shot)
  /-- `PAGE_MIGRATION` (R226). -/
  | pageMigration (p va ppn : Nat)
  /-- `MIGRATION_COMPLETE` (R226). -/
  | migrationComplete (p va : Nat)
  /-- `LINK_CRC_REPLAY` (R27). -/
  | linkCrcReplay (link fails : Nat) (who : LinkUse) (va : Nat)
  /-- `SCRUB_READ` (R21). -/
  | scrubRead (stack : Nat) (lines : List Nat)
  /-- `DOORBELL_WRITE` (R436). -/
  | doorbellWrite (p q : Nat) (tail : BitVec 32)
  /-- `DOORBELL_ENTRY_PROCESS` (R436). -/
  | doorbellEntryProcess (p : Nat)
  /-- `QCFG_WRITE` (R439). -/
  | qcfgWrite (p q : Nat) (val : BitVec 64)
  /-- `HOST_REGISTER_WRITE` (R435). -/
  | hostRegisterWrite (p q reg : Nat) (val : BitVec 64)
  /-- `PACKET_NOP` (R440). -/
  | packetNop (p q : Nat)
  /-- `PACKET_WAIT_VALUE` (R442). -/
  | packetWaitValue (p q : Nat)
  /-- `WAIT_VALUE_COMPLETE` (R442). -/
  | waitValueComplete (p q : Nat)
  /-- `PACKET_WRITE_VALUE` (R442). -/
  | packetWriteValue (p q : Nat)
  /-- `PACKET_COND` (R443). -/
  | packetCond (p q : Nat)
  /-- `PACKET_LOOP` (R444). -/
  | packetLoop (p q : Nat)
  /-- `PACKET_INDIRECT` (R445). -/
  | packetIndirect (p q : Nat)
  /-- `INDIRECT_FETCH_AHEAD` (R445). -/
  | indirectFetchAhead (p q : Nat)
  /-- `PACKET_FETCH_FENCE` (R441). -/
  | packetFetchFence (p q : Nat)
  /-- `PACKET_COPY` (R446). -/
  | packetCopy (p q : Nat)
  /-- `PACKET_TIMESTAMP` (R442). -/
  | packetTimestamp (p q : Nat)
  /-- `HOST_READ` (R450). -/
  | hostRead (p : Nat) (at_ : HostPlace) (n : Nat)
  /-- `HOST_WRITE` (R450). -/
  | hostWrite (p va : Nat) (bytes : List (BitVec 8))
  /-- `GOSSIP_EXCHANGE` (R414). -/
  | gossipExchange (reg page slot : Nat)
  /-- `GOSSIP_RECEIPT` (R415). -/
  | gossipReceipt (port : Nat) (msg : GMsg)
  /-- `GOSSIP_ACK` (R416). -/
  | gossipAck (reg port seq : Nat)
  /-- `GOSSIP_REFUSAL_NOTICE` (R416). -/
  | gossipRefusalNotice (reg port seq : Nat)
  /-- `GOSSIP_RETRANSMIT` (R416). -/
  | gossipRetransmit (reg port : Nat) (msg : Resend)
  /-- `GOSSIP_ADD_BACK_RETRY` (R416). -/
  | gossipAddBackRetry (reg port seq : Nat)
  /-- `PORT_LOST` (R417). -/
  | portLost (port : Nat) (got : Option (List (Nat × Nat))) (told : List (Nat × Nat)) (cut : Fencing)
  /-- `PEER_REQUEST` (R451). -/
  | peerRequest (p : Nat) (way : PeerWay) (req : PeerReq)
  /-- `BREAKPOINT_STOP` (R379). -/
  | breakpointStop (h : Nat)
  /-- `SINGLE_STEP` (R404). -/
  | singleStep (h : Nat) (issue : Bool)
  /-- `DEBUGGER_RESUME` (R381). -/
  | debuggerResume (h : Nat) (edits : List RegEdit)
  /-- `MGMT_CORE_RESTART` (R448). -/
  | mgmtCoreRestart (c : Nat)
  /-- `MAILBOX_MESSAGE` (R448). -/
  | mailboxMessage (src dst : Nat) (msg : List Nat)
  /-- `RECORD_START` (R458). -/
  | recordStart (lid : Nat) (setup : RecSetup)
  /-- `LOG_DRAIN` (R460). -/
  | logDrain (lid stream upto : Nat)
  /-- `CERR_CLEAR` (R295). -/
  | cerrClear (h ch : Nat)
  /-- `SEALED_MESSAGE` (R468). -/
  | sealedMessage (p : Nat) (pages : List Nat) (msg : Sealing)
  /-- `ATTESTATION_REPORT` (R470). -/
  | attestationReport (r : Nat) (nonce : List (BitVec 8))
  /-- `SEALED_REGION_RELEASE` (R471). -/
  | sealedRegionRelease (r : Nat)
  /-- `PACKAGE_RESET` (R471). -/
  | packageReset
  /-- `LIFE_CYCLE_CHANGE` (R471). -/
  | lifeCycleChange (st : Nat)
  /-- `ELEMENT_GROUP_ADVANCE` (R130). -/
  | elementGroupAdvance (cycle : ServeCycle)
  /-- `STORE_PERFORMED` (R233). -/
  | storePerformed (h : Nat)
  /-- `HOST_LINK_LOST` (R300). -/
  | hostLinkLost
  /-- `CXL_LINK_DOWN` (R453). -/
  | cxlLinkDown (port : Nat) (lines : List Nat)
  /-- `STORED_DATA_ERROR` (R28). -/
  | storedDataError (at_ : DataErr)
  /-- `BREAKPOINT_SET` (R379). -/
  | breakpointSet (p : Nat) (pc : BitVec 64) (add : Bool)
  /-- `DEBUGGER_INTERRUPT` (R404). -/
  | debuggerInterrupt (h : Nat)
  /-- `TRACE_ENABLE` (R466). -/
  | traceEnable (die base size : Nat) (en : Bool)
  /-- `BUDGET_SET` (R21). -/
  | budgetSet (cls unit val : Nat)
  /-- `POWER_FIRMWARE_LIMITS_SET` (R174). -/
  | powerFirmwareLimitsSet (what unit val : Nat)
  /-- `PARTITION_SETUP` (R435). -/
  | partitionSetup (setup : PartSetup)
  deriving DecidableEq, Repr

end Sys2Proof
end

