-- ==== Sys2Proof/WellFormed.lean ====
section
/-!
DEFINITION. Which operand combinations are legal at decode (R69 to R80, R190, R191, R208, R210, R212, R213, R215, R235,
R240, R263, R265, R293, R320, R328, R358, R403, R425), and which instructions may carry the binding-time mark (R80).
A tile number outside the hart's allotment is checked at issue instead (R69, R88).
-/

namespace Sys2Proof

/-- The vector float formats (R204). -/
def Fmt.isVFloat : Fmt → Bool
  | .f16 | .bf16 | .f32 => true
  | _ => false
/-- The vector integer formats (R205). -/
def Fmt.isVInt : Fmt → Bool
  | .i8 | .i16 | .i32 | .n8 | .n16 | .n32 | .i4 => true
  | _ => false
/-- The formats that go with a nonzero block length (R49). -/
def Fmt.isBlock : Fmt → Bool
  | .t2 | .i4 | .i8 | .e2m1 | .e4m3 | .e5m2 => true
  | _ => false
/-- The formats of 8, 16 or 32 bits in memory (R235). -/
def Fmt.isWhole : Fmt → Bool
  | .i8 | .n8 | .e4m3 | .e5m2 | .i16 | .n16 | .f16 | .bf16 | .i32 | .n32 | .f32 => true
  | _ => false
/-- The formats of vld and vst (R235). -/
def Fmt.isMem : Fmt → Bool
  | .t2 | .i4 | .e2m1 => true
  | f => f.isWhole
/-- The value formats of the scratchpad and of vgadd (R327, R425). -/
def Fmt.isEntry : Fmt → Bool
  | .i32 | .i64 | .f32 => true
  | _ => false
/-- An even register (R32). -/
def evenReg (v : VReg) : Bool := v.toNat % 2 == 0
/-- A value register of a format: even for i64 (R32). -/
def pairOk (f : Fmt) (v : VReg) : Bool := f != .i64 || evenReg v

/-- The registers of a g file above g31 form bank 1 (R144). -/
def bank1 (g : GReg) : Bool := 32 ≤ g.toNat

/-- A register that a slot writes: its file (g or v) and number; writes to g0 count as none (R77). -/
def PSlot.dest : PSlot → Option (Bool × Nat)
  | .alu _ d _ | .addi d _ _ | .ldi d _ | .slli d _ _ | .srli d _ _ | .ld d _ _ =>
    if d = 0 then none else some (false, d.toNat)
  | .vec _ d _ => some (true, d.toNat)
  | .st _ _ _ | .nop => none

/-- The register that a slot names in its s field as a source. -/
def PSlot.src : PSlot → Option (Bool × Nat)
  | .alu _ _ s | .addi _ s _ | .slli _ s _ | .srli _ s _ | .ld _ s _ | .st _ s _ => some (false, s.toNat)
  | .vec _ _ s => some (true, s.toNat)
  | .ldi _ _ | .nop => none

/-- The register that a slot reads through its d field other than as store data (R75). -/
def PSlot.dsrc : PSlot → Option (Bool × Nat)
  | .alu .mov _ _ => none
  | .alu _ d _ => some (false, d.toNat)
  | .vec .mv _ _ => none
  | .vec _ d _ => some (true, d.toNat)
  | _ => none

/-- Codes 13 and 14 are memory ops (R77). -/
def PSlot.isMem : PSlot → Bool
  | .ld .. | .st .. => true
  | _ => false
/-- Codes 15 to 19 are vector slots (R75). -/
def PSlot.isVec : PSlot → Bool
  | .vec .. => true
  | _ => false
/-- Codes 0 to 14 are scalar slots (R75). -/
def PSlot.isScalar : PSlot → Bool
  | .vec .. | .nop => false
  | _ => true
/-- A scalar slot that reads a register from g32 to g63 (R77). -/
def PSlot.readsBank1 : PSlot → Bool
  | .alu .mov _ s | .addi _ s _ | .slli _ s _ | .srli _ s _ | .ld _ s _ => bank1 s
  | .alu _ d s | .st d s _ => bank1 d || bank1 s
  | .ldi .. | .vec .. | .nop => false
/-- The slots whose B bit may be 1 (R77, R80). -/
def PSlot.markable : PSlot → Bool
  | .ld .. | .st .. | .vec .. => false
  | _ => true

/-- Destination parity of two vector slots: one even, one odd (R77). -/
def banksDiffer (s0 s1 : PSlot) : Bool :=
  match s0, s1 with
  | .vec _ d0 _, .vec _ d1 _ => d0.toNat % 2 != d1.toNat % 2
  | _, _ => true

/-- The pairing rules (R77). -/
def pairLegal (b0 : Bool) (s0 : PSlot) (b1 : Bool) (s1 : PSlot) : Bool :=
  !(s0.isMem && s1.isMem)
    && (s0.dest.isNone || s0.dest != s1.dest)
    && (s0.dest.isNone || s0.dest != s1.src)
    && (s0.dest.isNone || s0.dest != s1.dsrc)
    && banksDiffer s0 s1
    && !(s0.readsBank1 && s1.readsBank1)
    && (!b0 || s0.markable) && (!b1 || s1.markable)

/-- The pairs of paths that fx takes (R263). -/
def fxLegal : Path → Path → Bool
  | .a, .h | .a, .c | .a, .t | .c, .h | .c, .t | .t, .h | .t, .c | .g, .h | .x, .h | .x, .c | .x, .t => true
  | _, _ => false

/-- A number of a shape constant, which no instruction writes (R18, R68). -/
def isShape (cr : BitVec 12) : Bool := cr.extractLsb' 8 4 == 6

/-- Legal at decode, given operands that the fields can name. A word of vtype whose format has no block form is legal with
block length 0, whatever its format (R191 lists no other illegal word; DESIGN CHOICE, log 80). -/
def Instr.wf : Instr → Bool
  | .vtype _ f blk n => 1 ≤ n.toNat && n.toNat ≤ 8 && blk != 3 && (blk == 0 || f.isBlock)
  | .vrows _ n => 1 ≤ n.toNat && n.toNat ≤ 8
  | .wfld _ k => k.toNat ≤ 6
  | .cwr _ cr | .cset _ _ cr | .cclr _ _ cr => !isShape cr
  | .sfq _ k => k.toNat ≤ 4
  | .sfqPop _ k => k.toNat ≤ 3
  | .vaddFloat f .. | .vsubFloat f .. | .vmulFloat f .. | .vfma f .. | .vfms f .. | .vdiv f .. | .vsqrt f ..
  | .vminFloat f .. | .vmaxFloat f .. | .vabsFloat f .. | .vneg f .. | .vrcp f .. | .vrsqrt f .. | .vexp2 f ..
  | .vlog2 f .. | .vcmpeqFloat f .. | .vcmpltFloat f .. | .vcmple f .. | .vcmpun f .. => f.isVFloat
  | .vaddInt f .. | .vsubInt f .. | .vmulInt f .. | .vmulh f .. | .vadds f .. | .vsubs f .. | .vand f .. | .vor f ..
  | .vxor f .. | .vsll f .. | .vsrl f .. | .vsra f .. | .vminInt f .. | .vmaxInt f .. | .vcmpeqInt f ..
  | .vcmpltInt f .. | .vcmpltn f .. | .vabsInt f .. => f.isVInt
  | .vcvt f _ _ src _ _ => f != .i64 && src != .i64
  | .vdq f .. => f.isVFloat
  | .vbc f .. | .vxs f .. | .vins f .. => f != .i64
  | .vid f .. => f.isVInt
  | .vslu d a _ _ | .vsld d a _ _ | .vrow d a _ _ => d != a
  | .vperm d a b _ => d != a && d != b
  | .vredAdd f _ a _ | .vredMax f _ a _ | .vredMin f _ a _ =>
    match a with
    | .strip _ => f.isVFloat || f.isVInt
    | .anch _ => f == .f32 || f == .i32
  | .vcadd f .. | .vcmax f .. => f == .f32 || f == .i32
  | .vsparse f d a _ n | .vsparseP f d a _ n => f != .i64 && f != .e8m0 && n != 0 && d != a
  | .vexpand d a _ => d != a
  | .vld f .. | .vst f .. => f.isMem
  | .vlds f .. | .vsts f .. | .vstx f .. => f.isWhole
  | .vldx f d _ ix .. => f.isWhole && d != ix
  | .vsadd f .. => f == .i32 || f == .n32 || f == .f32
  | .fx dst frm => fxLegal frm dst
  | .opa f .. => f == .t2 || f == .i4 || f == .i8 || f == .i16
  | .tld f .. | .tst f .. | .tadd f .. => f == .bf16 || f == .f32
  | .tmv f .. => f == .i32 || f == .bf16 || f == .f32
  | .tget _ _ k =>
    k.toNat ≤ 2 || (8 ≤ k.toNat && k.toNat ≤ 13) || (16 ≤ k.toNat && k.toNat ≤ 21)
  | .xins f _ a b .. | .xacc f _ a b .. => f.isEntry && evenReg a && pairOk f b
  | .xlook f d a .. => f.isEntry && evenReg a && pairOk f d
  | .xdel _ a .. => evenReg a
  | .xdrain f _ a b =>
    f.isEntry && evenReg a && pairOk f b && b != a && b.toNat != a.toNat + 1
  | .kxstClr _ _ sel => sel == 3
  | .vgadd f _ _ _ c _ => f.isEntry && pairOk f c
  | .gld d .. => evenReg d
  | .pairWord b0 s0 b1 s1 => pairLegal b0 s0 b1 s1
  | _ => true

/-- The instructions that may carry the binding-time mark (R80); a pair carries its marks in its slots. -/
def Instr.markable : Instr → Bool
  | .add .. | .sub .. | .mul .. | .mulh .. | .mulhn .. | .div .. | .divn .. | .rem .. | .remn .. | .and .. | .or ..
  | .xor .. | .sll .. | .srl .. | .sra .. | .slt .. | .sltn .. | .min .. | .max .. | .minn .. | .maxn .. | .clz ..
  | .ctz .. | .popc .. | .sext .. | .zext .. | .cmov .. | .adds .. | .subs .. => true
  | .addi .. | .andi .. | .ori .. | .xori .. | .slli .. | .srli .. | .srai .. | .slti .. | .ldi .. | .ldih ..
  | .pcadd .. => true
  | .fadd .. | .fsub .. | .fmul .. | .fdiv .. | .ffma .. | .fmin .. | .fmax .. | .fsqrt .. | .fcmpeq .. | .fcmplt ..
  | .fcmple .. | .fcvt .. | .fclass .. => true
  | .beq .. | .bne .. | .blt .. | .bge .. | .bltn .. | .bgen .. | .bz .. | .bnz .. | .jal .. | .jalr .. | .dbnz .. =>
    true
  | .arg .. | .vrows .. | .vtype .. => true
  | .crd _ cr => isShape cr
  | _ => false

end Sys2Proof
end

