-- ==== Sys2Proof/Decode.lean ====
section
/-!
DEFINITION. Decoding a 64-bit word (R58 to R88) and encoding an instruction into one. `decode` is total: an illegal word
and a word of an absent unit are named outcomes. `candidate` reads the operands and refuses fixed fields that are not
zero (R73); `Instr.wf` then refuses illegal combinations. `encode` writes the same tables the other way.

Five constructors of `Instr` (gquiet and the forms of gctl) lie beyond the constructor numbers that Lean's compiled runtime can
build, so the definitions that build them are marked noncomputable; the kernel evaluates them like any other.
-/

namespace Sys2Proof

/-! Codes of the fields. -/

/-- The code of an element format (R29). -/
def Fmt.code : Fmt → BitVec 4
  | .i8 => 0 | .i16 => 1 | .i32 => 2 | .i64 => 3 | .n8 => 4 | .n16 => 5 | .n32 => 6 | .t2 => 7
  | .i4 => 8 | .e2m1 => 9 | .e4m3 => 10 | .e5m2 => 11 | .f16 => 12 | .bf16 => 13 | .f32 => 14 | .e8m0 => 15

/-- The element format of a code (R29). -/
def Fmt.ofCode (c : BitVec 4) : Fmt :=
  match c.toNat with
  | 0 => .i8 | 1 => .i16 | 2 => .i32 | 3 => .i64 | 4 => .n8 | 5 => .n16 | 6 => .n32 | 7 => .t2
  | 8 => .i4 | 9 => .e2m1 | 10 => .e4m3 | 11 => .e5m2 | 12 => .f16 | 13 => .bf16 | 14 => .f32 | _ => .e8m0

/-- The code of a scalar float format (R63). -/
def SFmt.code : SFmt → BitVec 4
  | .f32 => 0 | .f64 => 1 | .bf16 => 2 | .f16 => 3

/-- The scalar float format of a code (R63). -/
def SFmt.ofCode (c : BitVec 4) : Option SFmt :=
  match c.toNat with
  | 0 => some .f32 | 1 => some .f64 | 2 => some .bf16 | 3 => some .f16 | _ => none

/-- The code of fcvt's second kind (R154). -/
def CvtKind.code : CvtKind → BitVec 4
  | .f32 => 0 | .f64 => 1 | .bf16 => 2 | .f16 => 3 | .i64 => 4 | .n64 => 5 | .i32 => 6 | .n32 => 7

/-- fcvt's second kind of a code (R154). -/
def CvtKind.ofCode (c : BitVec 4) : Option CvtKind :=
  match c.toNat with
  | 0 => some .f32 | 1 => some .f64 | 2 => some .bf16 | 3 => some .f16
  | 4 => some .i64 | 5 => some .n64 | 6 => some .i32 | 7 => some .n32 | _ => none

/-- The code of a cache policy (R72). -/
def Policy.code : Policy → BitVec 3
  | .normal => 0 | .stream => 1 | .keep => 2 | .nordc => 3 | .nol1 => 4

/-- The cache policy of a code (R72). -/
def Policy.ofCode (c : BitVec 3) : Option Policy :=
  match c.toNat with
  | 0 => some .normal | 1 => some .stream | 2 => some .keep | 3 => some .nordc | 4 => some .nol1 | _ => none

/-- The code of a scope (R71). -/
def Scope.code : Scope → BitVec 3
  | .hart => 0 | .core => 1 | .die => 2 | .package => 3 | .fabric => 4 | .host => 5 | .system => 6

/-- The scope of a code (R71). -/
def Scope.ofCode (c : BitVec 3) : Option Scope :=
  match c.toNat with
  | 0 => some .hart | 1 => some .core | 2 => some .die | 3 => some .package | 4 => some .fabric
  | 5 => some .host | 6 => some .system | _ => none

/-- The scale code of an atomic's size (R265). -/
def ASize.code : ASize → BitVec 2
  | .w => 2 | .d => 3

/-- The size of an atomic by its scale code (R265). -/
def ASize.ofCode (c : BitVec 2) : Option ASize :=
  match c.toNat with
  | 2 => some .w | 3 => some .d | _ => none

/-- The code of a wait condition (R269). -/
def WCond.code : WCond → BitVec 4
  | .eq => 0 | .ne => 1 | .lt => 2 | .ge => 3 | .ltn => 4 | .gen => 5 | .any => 6 | .none => 7

/-- The wait condition of a code (R269). -/
def WCond.ofCode (c : BitVec 4) : Option WCond :=
  match c.toNat with
  | 0 => some .eq | 1 => some .ne | 2 => some .lt | 3 => some .ge | 4 => some .ltn | 5 => some .gen
  | 6 => some .any | 7 => some .none | _ => Option.none

/-- The code of an access path (R260). -/
def Path.code : Path → BitVec 3
  | .h => 0 | .a => 1 | .c => 2 | .t => 3 | .g => 4 | .x => 5

/-- The access path of a code (R260). -/
def Path.ofCode (c : BitVec 3) : Option Path :=
  match c.toNat with
  | 0 => some .h | 1 => some .a | 2 => some .c | 3 => some .t | 4 => some .g | 5 => some .x | _ => none

/-- The field of a register numbered from 0 to 31. -/
def vf (v : BitVec 5) : BitVec 6 := 0#1 ++ v
/-- The field of a register numbered from 0 to 7. -/
def mf (m : BitVec 3) : BitVec 6 := 0#3 ++ m
/-- A field that must name a register from 0 to 31 (R69). -/
def vr (x : BitVec 6) : Option (BitVec 5) :=
  if x.extractLsb' 5 1 = 0 then some (x.extractLsb' 0 5) else none
/-- A field that must name a register from 0 to 7 (R69). -/
def mr (x : BitVec 6) : Option (BitVec 3) :=
  if x.extractLsb' 3 3 = 0 then some (x.extractLsb' 0 3) else none
/-- The presence bit of a mask operand (R70). -/
def flag (m : Option MReg) : BitVec 1 := if m.isSome then 1 else 0
/-- The number of a mask operand, zero where it is absent (R70). -/
def num (m : Option MReg) : BitVec 3 := m.getD 0
/-- A mask operand from its presence bit and number (R70). -/
def opt (p : BitVec 1) (m : BitVec 3) : Option (Option MReg) :=
  if p = 1 then some (some m) else if m = 0 then some none else none

/-- The register field of a reduction's source (R210). -/
def RSrc.field : RSrc → BitVec 6
  | .strip v => vf v
  | .anch a => mf a
/-- imm12[0] of a reduction (R210). -/
def RSrc.flag : RSrc → BitVec 1
  | .strip _ => 0
  | .anch _ => 1
/-- A reduction's source from its field and imm12[0] (R210). -/
def RSrc.ofField (x : BitVec 6) (sel : BitVec 1) : Option RSrc :=
  if sel = 1 then (mr x).map .anch else (vr x).map .strip

/-! The raw formats. -/

/-- The fields of formats A and V below the header (R63, R66). -/
structure RawA where
  minor : BitVec 6
  d : BitVec 6 := 0
  a : BitVec 6 := 0
  b : BitVec 6 := 0
  c : BitVec 6 := 0
  x : BitVec 1 := 0
  xm : BitVec 3 := 0
  e : BitVec 1 := 0
  pm : BitVec 3 := 0
  imm : BitVec 16 := 0
  deriving DecidableEq, Repr

/-- The format code of format V (R66). -/
def RawA.fmt (f : RawA) : BitVec 4 := f.imm.extractLsb' 12 4
/-- imm12 of format V (R66). -/
def RawA.imm12 (f : RawA) : BitVec 12 := f.imm.extractLsb' 0 12

/-- The fields of format I below the header (R64). -/
structure RawI where
  minor : BitVec 6
  d : BitVec 6 := 0
  a : BitVec 6 := 0
  z : BitVec 4 := 0
  imm : BitVec 32 := 0
  deriving DecidableEq, Repr

/-- The fields of format B below the header (R65). -/
structure RawB where
  cond : BitVec 4
  z2 : BitVec 2 := 0
  a : BitVec 6 := 0
  b : BitVec 6 := 0
  z4 : BitVec 4 := 0
  off : BitVec 32 := 0
  deriving DecidableEq, Repr

/-- The fields of format M below the header (R67). -/
structure RawM where
  minor : BitVec 6
  d : BitVec 6 := 0
  base : BitVec 6 := 0
  index : BitVec 6 := 0
  scale : BitVec 2 := 0
  scope : BitVec 3 := 0
  pol : BitVec 3 := 0
  e : BitVec 1 := 0
  pm : BitVec 3 := 0
  off : BitVec 18 := 0
  deriving DecidableEq, Repr

/-- The fields of format S below the header (R68). -/
structure RawS where
  minor : BitVec 6
  d : BitVec 6 := 0
  a : BitVec 6 := 0
  num : BitVec 12 := 0
  imm : BitVec 24 := 0
  deriving DecidableEq, Repr

/-- The header of a full word: P = 0, the mark B, the major opcode (R62). -/
def header (bm : Bool) (maj : BitVec 8) : BitVec 10 := 0#1 ++ BitVec.ofBool bm ++ maj

/-- A word of format A or V (R63, R66). -/
def packA (bm : Bool) (maj : BitVec 8) (f : RawA) : Word :=
  header bm maj ++ f.minor ++ f.d ++ f.a ++ f.b ++ f.c ++ f.x ++ f.xm ++ f.e ++ f.pm ++ f.imm
/-- The fields of a word of format A or V (R63, R66). -/
def unpackA (w : Word) : RawA :=
  { minor := w.extractLsb' 48 6, d := w.extractLsb' 42 6, a := w.extractLsb' 36 6, b := w.extractLsb' 30 6,
    c := w.extractLsb' 24 6, x := w.extractLsb' 23 1, xm := w.extractLsb' 20 3, e := w.extractLsb' 19 1,
    pm := w.extractLsb' 16 3, imm := w.extractLsb' 0 16 }
/-- A word of format I (R64). -/
def packI (bm : Bool) (maj : BitVec 8) (f : RawI) : Word :=
  header bm maj ++ f.minor ++ f.d ++ f.a ++ f.z ++ f.imm
/-- The fields of a word of format I (R64). -/
def unpackI (w : Word) : RawI :=
  { minor := w.extractLsb' 48 6, d := w.extractLsb' 42 6, a := w.extractLsb' 36 6, z := w.extractLsb' 32 4,
    imm := w.extractLsb' 0 32 }
/-- A word of format B (R65). -/
def packB (bm : Bool) (maj : BitVec 8) (f : RawB) : Word :=
  header bm maj ++ f.cond ++ f.z2 ++ f.a ++ f.b ++ f.z4 ++ f.off
/-- The fields of a word of format B (R65). -/
def unpackB (w : Word) : RawB :=
  { cond := w.extractLsb' 50 4, z2 := w.extractLsb' 48 2, a := w.extractLsb' 42 6, b := w.extractLsb' 36 6,
    z4 := w.extractLsb' 32 4, off := w.extractLsb' 0 32 }
/-- A word of format M (R67). -/
def packM (bm : Bool) (maj : BitVec 8) (f : RawM) : Word :=
  header bm maj ++ f.minor ++ f.d ++ f.base ++ f.index ++ f.scale ++ f.scope ++ f.pol ++ f.e ++ f.pm ++ f.off
/-- The fields of a word of format M (R67). -/
def unpackM (w : Word) : RawM :=
  { minor := w.extractLsb' 48 6, d := w.extractLsb' 42 6, base := w.extractLsb' 36 6, index := w.extractLsb' 30 6,
    scale := w.extractLsb' 28 2, scope := w.extractLsb' 25 3, pol := w.extractLsb' 22 3, e := w.extractLsb' 21 1,
    pm := w.extractLsb' 18 3, off := w.extractLsb' 0 18 }
/-- A word of format S (R68). -/
def packS (bm : Bool) (maj : BitVec 8) (f : RawS) : Word :=
  header bm maj ++ f.minor ++ f.d ++ f.a ++ f.num ++ f.imm
/-- The fields of a word of format S (R68). -/
def unpackS (w : Word) : RawS :=
  { minor := w.extractLsb' 48 6, d := w.extractLsb' 42 6, a := w.extractLsb' 36 6, num := w.extractLsb' 24 12,
    imm := w.extractLsb' 0 24 }

/-! Full instructions by major opcode. -/

/-- Major 0x10, scalar integer (R83). -/
def cand10 (r : RawA) : Option Instr :=
  match r.minor.toNat with
  | 0 => if r.c = 0 ∧ r.x = 0 ∧ r.xm = 0 ∧ r.e = 0 ∧ r.pm = 0 ∧ r.imm = 0 then some (.add r.d r.a r.b) else none
  | 1 => if r.c = 0 ∧ r.x = 0 ∧ r.xm = 0 ∧ r.e = 0 ∧ r.pm = 0 ∧ r.imm = 0 then some (.sub r.d r.a r.b) else none
  | 2 => if r.c = 0 ∧ r.x = 0 ∧ r.xm = 0 ∧ r.e = 0 ∧ r.pm = 0 ∧ r.imm = 0 then some (.mul r.d r.a r.b) else none
  | 3 => if r.c = 0 ∧ r.x = 0 ∧ r.xm = 0 ∧ r.e = 0 ∧ r.pm = 0 ∧ r.imm = 0 then some (.mulh r.d r.a r.b) else none
  | 4 => if r.c = 0 ∧ r.x = 0 ∧ r.xm = 0 ∧ r.e = 0 ∧ r.pm = 0 ∧ r.imm = 0 then some (.mulhn r.d r.a r.b) else none
  | 5 => if r.c = 0 ∧ r.x = 0 ∧ r.xm = 0 ∧ r.e = 0 ∧ r.pm = 0 ∧ r.imm = 0 then some (.div r.d r.a r.b) else none
  | 6 => if r.c = 0 ∧ r.x = 0 ∧ r.xm = 0 ∧ r.e = 0 ∧ r.pm = 0 ∧ r.imm = 0 then some (.divn r.d r.a r.b) else none
  | 7 => if r.c = 0 ∧ r.x = 0 ∧ r.xm = 0 ∧ r.e = 0 ∧ r.pm = 0 ∧ r.imm = 0 then some (.rem r.d r.a r.b) else none
  | 8 => if r.c = 0 ∧ r.x = 0 ∧ r.xm = 0 ∧ r.e = 0 ∧ r.pm = 0 ∧ r.imm = 0 then some (.remn r.d r.a r.b) else none
  | 9 => if r.c = 0 ∧ r.x = 0 ∧ r.xm = 0 ∧ r.e = 0 ∧ r.pm = 0 ∧ r.imm = 0 then some (.and r.d r.a r.b) else none
  | 10 => if r.c = 0 ∧ r.x = 0 ∧ r.xm = 0 ∧ r.e = 0 ∧ r.pm = 0 ∧ r.imm = 0 then some (.or r.d r.a r.b) else none
  | 11 => if r.c = 0 ∧ r.x = 0 ∧ r.xm = 0 ∧ r.e = 0 ∧ r.pm = 0 ∧ r.imm = 0 then some (.xor r.d r.a r.b) else none
  | 12 => if r.c = 0 ∧ r.x = 0 ∧ r.xm = 0 ∧ r.e = 0 ∧ r.pm = 0 ∧ r.imm = 0 then some (.sll r.d r.a r.b) else none
  | 13 => if r.c = 0 ∧ r.x = 0 ∧ r.xm = 0 ∧ r.e = 0 ∧ r.pm = 0 ∧ r.imm = 0 then some (.srl r.d r.a r.b) else none
  | 14 => if r.c = 0 ∧ r.x = 0 ∧ r.xm = 0 ∧ r.e = 0 ∧ r.pm = 0 ∧ r.imm = 0 then some (.sra r.d r.a r.b) else none
  | 15 => if r.c = 0 ∧ r.x = 0 ∧ r.xm = 0 ∧ r.e = 0 ∧ r.pm = 0 ∧ r.imm = 0 then some (.slt r.d r.a r.b) else none
  | 16 => if r.c = 0 ∧ r.x = 0 ∧ r.xm = 0 ∧ r.e = 0 ∧ r.pm = 0 ∧ r.imm = 0 then some (.sltn r.d r.a r.b) else none
  | 17 => if r.c = 0 ∧ r.x = 0 ∧ r.xm = 0 ∧ r.e = 0 ∧ r.pm = 0 ∧ r.imm = 0 then some (.min r.d r.a r.b) else none
  | 18 => if r.c = 0 ∧ r.x = 0 ∧ r.xm = 0 ∧ r.e = 0 ∧ r.pm = 0 ∧ r.imm = 0 then some (.max r.d r.a r.b) else none
  | 19 => if r.c = 0 ∧ r.x = 0 ∧ r.xm = 0 ∧ r.e = 0 ∧ r.pm = 0 ∧ r.imm = 0 then some (.minn r.d r.a r.b) else none
  | 20 => if r.c = 0 ∧ r.x = 0 ∧ r.xm = 0 ∧ r.e = 0 ∧ r.pm = 0 ∧ r.imm = 0 then some (.maxn r.d r.a r.b) else none
  | 21 => if r.b = 0 ∧ r.c = 0 ∧ r.x = 0 ∧ r.xm = 0 ∧ r.e = 0 ∧ r.pm = 0 ∧ r.imm = 0 then some (.clz r.d r.a) else none
  | 22 => if r.b = 0 ∧ r.c = 0 ∧ r.x = 0 ∧ r.xm = 0 ∧ r.e = 0 ∧ r.pm = 0 ∧ r.imm = 0 then some (.ctz r.d r.a) else none
  | 23 => if r.b = 0 ∧ r.c = 0 ∧ r.x = 0 ∧ r.xm = 0 ∧ r.e = 0 ∧ r.pm = 0 ∧ r.imm = 0 then some (.popc r.d r.a) else none
  | 24 => if r.b = 0 ∧ r.c = 0 ∧ r.x = 0 ∧ r.xm = 0 ∧ r.e = 0 ∧ r.pm = 0 ∧ r.imm.extractLsb' 6 10 = 0 then some (.sext r.d r.a (r.imm.extractLsb' 0 6)) else none
  | 25 => if r.b = 0 ∧ r.c = 0 ∧ r.x = 0 ∧ r.xm = 0 ∧ r.e = 0 ∧ r.pm = 0 ∧ r.imm.extractLsb' 6 10 = 0 then some (.zext r.d r.a (r.imm.extractLsb' 0 6)) else none
  | 26 => if r.x = 0 ∧ r.xm = 0 ∧ r.e = 0 ∧ r.pm = 0 ∧ r.imm = 0 then some (.cmov r.d r.a r.b r.c) else none
  | 27 => if r.c = 0 ∧ r.x = 0 ∧ r.xm = 0 ∧ r.e = 0 ∧ r.pm = 0 ∧ r.imm = 0 then some (.adds r.d r.a r.b) else none
  | 28 => if r.c = 0 ∧ r.x = 0 ∧ r.xm = 0 ∧ r.e = 0 ∧ r.pm = 0 ∧ r.imm = 0 then some (.subs r.d r.a r.b) else none
  | _ => none

/-- Major 0x11, scalar immediate (R83). -/
def cand11 (r : RawI) : Option Instr :=
  match r.minor.toNat with
  | 0 => if r.z = 0 then some (.addi r.d r.a r.imm) else none
  | 1 => if r.z = 0 then some (.andi r.d r.a r.imm) else none
  | 2 => if r.z = 0 then some (.ori r.d r.a r.imm) else none
  | 3 => if r.z = 0 then some (.xori r.d r.a r.imm) else none
  | 4 => if r.z = 0 ∧ r.imm.extractLsb' 6 26 = 0 then some (.slli r.d r.a (r.imm.extractLsb' 0 6)) else none
  | 5 => if r.z = 0 ∧ r.imm.extractLsb' 6 26 = 0 then some (.srli r.d r.a (r.imm.extractLsb' 0 6)) else none
  | 6 => if r.z = 0 ∧ r.imm.extractLsb' 6 26 = 0 then some (.srai r.d r.a (r.imm.extractLsb' 0 6)) else none
  | 7 => if r.z = 0 then some (.slti r.d r.a r.imm) else none
  | 8 => if r.a = 0 ∧ r.z = 0 then some (.ldi r.d r.imm) else none
  | 9 => if r.a = 0 ∧ r.z = 0 then some (.ldih r.d r.imm) else none
  | 10 => if r.a = 0 ∧ r.z = 0 then some (.pcadd r.d r.imm) else none
  | _ => none

/-- Major 0x12, scalar float (R83). -/
def cand12 (r : RawA) : Option Instr :=
  match r.minor.toNat with
  | 0 => if r.c = 0 ∧ r.x = 0 ∧ r.xm = 0 ∧ r.e = 0 ∧ r.pm = 0 ∧ r.imm.extractLsb' 4 12 = 0 then (SFmt.ofCode (r.imm.extractLsb' 0 4)).bind fun f => some (.fadd r.d r.a r.b f) else none
  | 1 => if r.c = 0 ∧ r.x = 0 ∧ r.xm = 0 ∧ r.e = 0 ∧ r.pm = 0 ∧ r.imm.extractLsb' 4 12 = 0 then (SFmt.ofCode (r.imm.extractLsb' 0 4)).bind fun f => some (.fsub r.d r.a r.b f) else none
  | 2 => if r.c = 0 ∧ r.x = 0 ∧ r.xm = 0 ∧ r.e = 0 ∧ r.pm = 0 ∧ r.imm.extractLsb' 4 12 = 0 then (SFmt.ofCode (r.imm.extractLsb' 0 4)).bind fun f => some (.fmul r.d r.a r.b f) else none
  | 3 => if r.c = 0 ∧ r.x = 0 ∧ r.xm = 0 ∧ r.e = 0 ∧ r.pm = 0 ∧ r.imm.extractLsb' 4 12 = 0 then (SFmt.ofCode (r.imm.extractLsb' 0 4)).bind fun f => some (.fdiv r.d r.a r.b f) else none
  | 4 => if r.x = 0 ∧ r.xm = 0 ∧ r.e = 0 ∧ r.pm = 0 ∧ r.imm.extractLsb' 4 12 = 0 then (SFmt.ofCode (r.imm.extractLsb' 0 4)).bind fun f => some (.ffma r.d r.a r.b r.c f) else none
  | 5 => if r.c = 0 ∧ r.x = 0 ∧ r.xm = 0 ∧ r.e = 0 ∧ r.pm = 0 ∧ r.imm.extractLsb' 4 12 = 0 then (SFmt.ofCode (r.imm.extractLsb' 0 4)).bind fun f => some (.fmin r.d r.a r.b f) else none
  | 6 => if r.c = 0 ∧ r.x = 0 ∧ r.xm = 0 ∧ r.e = 0 ∧ r.pm = 0 ∧ r.imm.extractLsb' 4 12 = 0 then (SFmt.ofCode (r.imm.extractLsb' 0 4)).bind fun f => some (.fmax r.d r.a r.b f) else none
  | 7 => if r.b = 0 ∧ r.c = 0 ∧ r.x = 0 ∧ r.xm = 0 ∧ r.e = 0 ∧ r.pm = 0 ∧ r.imm.extractLsb' 4 12 = 0 then (SFmt.ofCode (r.imm.extractLsb' 0 4)).bind fun f => some (.fsqrt r.d r.a f) else none
  | 8 => if r.c = 0 ∧ r.x = 0 ∧ r.xm = 0 ∧ r.e = 0 ∧ r.pm = 0 ∧ r.imm.extractLsb' 4 12 = 0 then (SFmt.ofCode (r.imm.extractLsb' 0 4)).bind fun f => some (.fcmpeq r.d r.a r.b f) else none
  | 9 => if r.c = 0 ∧ r.x = 0 ∧ r.xm = 0 ∧ r.e = 0 ∧ r.pm = 0 ∧ r.imm.extractLsb' 4 12 = 0 then (SFmt.ofCode (r.imm.extractLsb' 0 4)).bind fun f => some (.fcmplt r.d r.a r.b f) else none
  | 10 => if r.c = 0 ∧ r.x = 0 ∧ r.xm = 0 ∧ r.e = 0 ∧ r.pm = 0 ∧ r.imm.extractLsb' 4 12 = 0 then (SFmt.ofCode (r.imm.extractLsb' 0 4)).bind fun f => some (.fcmple r.d r.a r.b f) else none
  | 11 => if r.b = 0 ∧ r.c = 0 ∧ r.x = 0 ∧ r.xm = 0 ∧ r.e = 0 ∧ r.pm = 0 ∧ r.imm.extractLsb' 9 7 = 0 then (SFmt.ofCode (r.imm.extractLsb' 0 4)).bind fun f => (CvtKind.ofCode (r.imm.extractLsb' 4 4)).bind fun k => some (.fcvt r.d r.a f k (r.imm.extractLsb' 8 1 == 1)) else none
  | 12 => if r.b = 0 ∧ r.c = 0 ∧ r.x = 0 ∧ r.xm = 0 ∧ r.e = 0 ∧ r.pm = 0 ∧ r.imm.extractLsb' 4 12 = 0 then (SFmt.ofCode (r.imm.extractLsb' 0 4)).bind fun f => some (.fclass r.d r.a f) else none
  | _ => none

/-- Major 0x18, branches (R83). -/
def cand18 (r : RawB) : Option Instr :=
  match r.cond.toNat with
  | 0 => if r.z2 = 0 ∧ r.z4 = 0 then some (.beq r.a r.b r.off) else none
  | 1 => if r.z2 = 0 ∧ r.z4 = 0 then some (.bne r.a r.b r.off) else none
  | 2 => if r.z2 = 0 ∧ r.z4 = 0 then some (.blt r.a r.b r.off) else none
  | 3 => if r.z2 = 0 ∧ r.z4 = 0 then some (.bge r.a r.b r.off) else none
  | 4 => if r.z2 = 0 ∧ r.z4 = 0 then some (.bltn r.a r.b r.off) else none
  | 5 => if r.z2 = 0 ∧ r.z4 = 0 then some (.bgen r.a r.b r.off) else none
  | 6 => if r.b = 0 ∧ r.z2 = 0 ∧ r.z4 = 0 then some (.bz r.a r.off) else none
  | 7 => if r.b = 0 ∧ r.z2 = 0 ∧ r.z4 = 0 then some (.bnz r.a r.off) else none
  | _ => none

/-- Major 0x19, jal (R83). -/
def cand19 (r : RawI) : Option Instr :=
  match r.minor.toNat with
  | 0 => if r.a = 0 ∧ r.z = 0 then some (.jal r.d r.imm) else none
  | _ => none

/-- Major 0x1a, jalr (R83). -/
def cand1A (r : RawI) : Option Instr :=
  match r.minor.toNat with
  | 0 => if r.z = 0 then some (.jalr r.d r.a r.imm) else none
  | _ => none

/-- Major 0x1b, dbnz (R83). -/
def cand1B (r : RawB) : Option Instr :=
  match r.cond.toNat with
  | 0 => if r.b = 0 ∧ r.z2 = 0 ∧ r.z4 = 0 then some (.dbnz r.a r.off) else none
  | _ => none

/-- Major 0x20, system (R83). -/
def cand20 (r : RawS) : Option Instr :=
  match r.minor.toNat with
  | 0 => if r.a = 0 ∧ r.imm = 0 then some (.crd r.d r.num) else none
  | 1 => if r.d = 0 ∧ r.imm = 0 then some (.cwr r.a r.num) else none
  | 2 => if r.imm = 0 then some (.cset r.d r.a r.num) else none
  | 3 => if r.imm = 0 then some (.cclr r.d r.a r.num) else none
  | 4 => if r.d = 0 ∧ r.a = 0 ∧ r.num = 0 then some (.sys r.imm) else none
  | 5 => if r.d = 0 ∧ r.a = 0 ∧ r.num = 0 then some (.brk r.imm) else none
  | 6 => if r.d = 0 ∧ r.a = 0 ∧ r.num = 0 ∧ r.imm = 0 then some .exit else none
  | 7 => if r.d = 0 ∧ r.a = 0 ∧ r.num = 0 ∧ r.imm = 0 then some .yield else none
  | 8 => if r.num = 0 ∧ r.imm = 0 then some (.prio r.d r.a) else none
  | 9 => if r.a = 0 ∧ r.num = 0 ∧ r.imm.extractLsb' 3 21 = 0 then some (.wfld r.d (r.imm.extractLsb' 0 3)) else none
  | 10 => if r.a = 0 ∧ r.num = 0 ∧ r.imm.extractLsb' 6 18 = 0 then some (.arg r.d (r.imm.extractLsb' 0 6)) else none
  | 11 => if r.num = 0 ∧ r.imm = 0 then some (.dyn r.d r.a) else none
  | 12 => if r.d = 0 ∧ r.a = 0 ∧ r.num = 0 then some (.trap r.imm) else none
  | 13 =>
    (if r.d = 0 ∧ r.a = 0 ∧ r.num = 0 ∧ r.imm.extractLsb' 0 2 = 0 ∧ r.imm.extractLsb' 2 22 = 0 then some .tretGroup else none) <|>
    (if r.d = 0 ∧ r.a = 0 ∧ r.num = 0 ∧ r.imm.extractLsb' 0 2 = 1 ∧ r.imm.extractLsb' 2 22 = 0 then some .tretLaunch else none) <|>
    (if r.d = 0 ∧ r.a = 0 ∧ r.num = 0 ∧ r.imm.extractLsb' 0 2 = 2 ∧ r.imm.extractLsb' 2 22 = 0 then some .tretRestart else none) <|>
    (if r.d = 0 ∧ r.a = 0 ∧ r.num = 0 ∧ r.imm.extractLsb' 0 2 = 3 ∧ r.imm.extractLsb' 2 22 = 0 then some .tretResume else none)
  | 14 => if r.num = 0 ∧ r.imm = 0 then some (.ctxsv r.d r.a) else none
  | 15 => if r.num = 0 ∧ r.imm = 0 then some (.ctxld r.d r.a) else none
  | 16 =>
    (if r.a = 0 ∧ r.num = 0 ∧ r.imm.extractLsb' 3 1 = 0 ∧ r.imm.extractLsb' 4 20 = 0 then some (.sfq r.d (r.imm.extractLsb' 0 3)) else none) <|>
    (if r.a = 0 ∧ r.num = 0 ∧ r.imm.extractLsb' 3 1 = 1 ∧ r.imm.extractLsb' 4 20 = 0 then some (.sfqPop r.d (r.imm.extractLsb' 0 3)) else none)
  | 17 => if r.d = 0 ∧ r.num = 0 then some (.tmark r.a r.imm) else none
  | 18 => if r.num = 0 ∧ r.imm.extractLsb' 6 18 = 0 then some (.lnch r.d r.a (r.imm.extractLsb' 0 6)) else none
  | 19 => if r.num = 0 ∧ r.imm.extractLsb' 6 18 = 0 then some (.qput r.d r.a (r.imm.extractLsb' 0 6)) else none
  | 20 =>
    (if r.num = 0 ∧ r.imm.extractLsb' 0 2 = 0 ∧ r.imm.extractLsb' 2 22 = 0 then some (.sinvPage r.d r.a) else none) <|>
    (if r.a = 0 ∧ r.num = 0 ∧ r.imm.extractLsb' 0 2 = 1 ∧ r.imm.extractLsb' 2 22 = 0 then some (.sinvAll r.d) else none) <|>
    (if r.a = 0 ∧ r.num = 0 ∧ r.imm.extractLsb' 0 2 = 2 ∧ r.imm.extractLsb' 2 22 = 0 then some (.sinvReport r.d) else none)
  | 21 => if r.a = 0 ∧ r.num = 0 ∧ r.imm = 0 then some (.rdtime r.d) else none
  | _ => none

/-- Major 0x28, grant (R83). -/
def cand28 (r : RawI) : Option Instr :=
  match r.minor.toNat with
  | 0 => if r.z = 0 ∧ r.imm = 0 then some (.vgr r.d r.a) else none
  | 1 => if r.z = 0 ∧ r.imm = 0 then some (.vgq r.d r.a) else none
  | 2 => if r.a = 0 ∧ r.z = 0 ∧ r.imm = 0 then some (.vrel r.d) else none
  | 3 => if r.a = 0 ∧ r.z = 0 ∧ r.imm.extractLsb' 4 28 = 0 then some (.vrows r.d (r.imm.extractLsb' 0 4)) else none
  | 4 => if r.a = 0 ∧ r.z = 0 ∧ r.imm.extractLsb' 6 2 = 0 ∧ r.imm.extractLsb' 12 20 = 0 then some (.vtype r.d (Fmt.ofCode (r.imm.extractLsb' 0 4)) (r.imm.extractLsb' 4 2) (r.imm.extractLsb' 8 4)) else none
  | _ => none

/-- Major 0x30, vector float (R83). -/
def cand30 (r : RawA) : Option Instr :=
  match r.minor.toNat with
  | 0 => if r.c = 0 ∧ r.imm12 = 0 then (vr r.d).bind fun d => (vr r.a).bind fun a => (vr r.b).bind fun b => (opt r.x r.xm).bind fun x => (opt r.e r.pm).bind fun e => some (.vaddFloat (Fmt.ofCode r.fmt) d a b x e) else none
  | 1 => if r.c = 0 ∧ r.imm12 = 0 then (vr r.d).bind fun d => (vr r.a).bind fun a => (vr r.b).bind fun b => (opt r.x r.xm).bind fun x => (opt r.e r.pm).bind fun e => some (.vsubFloat (Fmt.ofCode r.fmt) d a b x e) else none
  | 2 => if r.c = 0 ∧ r.imm12 = 0 then (vr r.d).bind fun d => (vr r.a).bind fun a => (vr r.b).bind fun b => (opt r.x r.xm).bind fun x => (opt r.e r.pm).bind fun e => some (.vmulFloat (Fmt.ofCode r.fmt) d a b x e) else none
  | 3 => if r.imm12 = 0 then (vr r.d).bind fun d => (vr r.a).bind fun a => (vr r.b).bind fun b => (vr r.c).bind fun c => (opt r.x r.xm).bind fun x => (opt r.e r.pm).bind fun e => some (.vfma (Fmt.ofCode r.fmt) d a b c x e) else none
  | 4 => if r.imm12 = 0 then (vr r.d).bind fun d => (vr r.a).bind fun a => (vr r.b).bind fun b => (vr r.c).bind fun c => (opt r.x r.xm).bind fun x => (opt r.e r.pm).bind fun e => some (.vfms (Fmt.ofCode r.fmt) d a b c x e) else none
  | 5 => if r.c = 0 ∧ r.imm12 = 0 then (vr r.d).bind fun d => (vr r.a).bind fun a => (vr r.b).bind fun b => (opt r.x r.xm).bind fun x => (opt r.e r.pm).bind fun e => some (.vdiv (Fmt.ofCode r.fmt) d a b x e) else none
  | 6 => if r.b = 0 ∧ r.c = 0 ∧ r.imm12 = 0 then (vr r.d).bind fun d => (vr r.a).bind fun a => (opt r.x r.xm).bind fun x => (opt r.e r.pm).bind fun e => some (.vsqrt (Fmt.ofCode r.fmt) d a x e) else none
  | 7 => if r.c = 0 ∧ r.imm12 = 0 then (vr r.d).bind fun d => (vr r.a).bind fun a => (vr r.b).bind fun b => (opt r.x r.xm).bind fun x => (opt r.e r.pm).bind fun e => some (.vminFloat (Fmt.ofCode r.fmt) d a b x e) else none
  | 8 => if r.c = 0 ∧ r.imm12 = 0 then (vr r.d).bind fun d => (vr r.a).bind fun a => (vr r.b).bind fun b => (opt r.x r.xm).bind fun x => (opt r.e r.pm).bind fun e => some (.vmaxFloat (Fmt.ofCode r.fmt) d a b x e) else none
  | 9 => if r.b = 0 ∧ r.c = 0 ∧ r.imm12 = 0 then (vr r.d).bind fun d => (vr r.a).bind fun a => (opt r.x r.xm).bind fun x => (opt r.e r.pm).bind fun e => some (.vabsFloat (Fmt.ofCode r.fmt) d a x e) else none
  | 10 => if r.b = 0 ∧ r.c = 0 ∧ r.imm12 = 0 then (vr r.d).bind fun d => (vr r.a).bind fun a => (opt r.x r.xm).bind fun x => (opt r.e r.pm).bind fun e => some (.vneg (Fmt.ofCode r.fmt) d a x e) else none
  | 11 => if r.b = 0 ∧ r.c = 0 ∧ r.imm12 = 0 then (vr r.d).bind fun d => (vr r.a).bind fun a => (opt r.x r.xm).bind fun x => (opt r.e r.pm).bind fun e => some (.vrcp (Fmt.ofCode r.fmt) d a x e) else none
  | 12 => if r.b = 0 ∧ r.c = 0 ∧ r.imm12 = 0 then (vr r.d).bind fun d => (vr r.a).bind fun a => (opt r.x r.xm).bind fun x => (opt r.e r.pm).bind fun e => some (.vrsqrt (Fmt.ofCode r.fmt) d a x e) else none
  | 13 => if r.b = 0 ∧ r.c = 0 ∧ r.imm12 = 0 then (vr r.d).bind fun d => (vr r.a).bind fun a => (opt r.x r.xm).bind fun x => (opt r.e r.pm).bind fun e => some (.vexp2 (Fmt.ofCode r.fmt) d a x e) else none
  | 14 => if r.b = 0 ∧ r.c = 0 ∧ r.imm12 = 0 then (vr r.d).bind fun d => (vr r.a).bind fun a => (opt r.x r.xm).bind fun x => (opt r.e r.pm).bind fun e => some (.vlog2 (Fmt.ofCode r.fmt) d a x e) else none
  | 15 => if r.c = 0 ∧ r.imm12 = 0 then (mr r.d).bind fun d => (vr r.a).bind fun a => (vr r.b).bind fun b => (opt r.x r.xm).bind fun x => (opt r.e r.pm).bind fun e => some (.vcmpeqFloat (Fmt.ofCode r.fmt) d a b x e) else none
  | 16 => if r.c = 0 ∧ r.imm12 = 0 then (mr r.d).bind fun d => (vr r.a).bind fun a => (vr r.b).bind fun b => (opt r.x r.xm).bind fun x => (opt r.e r.pm).bind fun e => some (.vcmpltFloat (Fmt.ofCode r.fmt) d a b x e) else none
  | 17 => if r.c = 0 ∧ r.imm12 = 0 then (mr r.d).bind fun d => (vr r.a).bind fun a => (vr r.b).bind fun b => (opt r.x r.xm).bind fun x => (opt r.e r.pm).bind fun e => some (.vcmple (Fmt.ofCode r.fmt) d a b x e) else none
  | 18 => if r.c = 0 ∧ r.imm12 = 0 then (mr r.d).bind fun d => (vr r.a).bind fun a => (vr r.b).bind fun b => (opt r.x r.xm).bind fun x => (opt r.e r.pm).bind fun e => some (.vcmpun (Fmt.ofCode r.fmt) d a b x e) else none
  | _ => none

/-- Major 0x31, vector integer (R83). -/
def cand31 (r : RawA) : Option Instr :=
  match r.minor.toNat with
  | 0 => if r.c = 0 ∧ r.imm12 = 0 then (vr r.d).bind fun d => (vr r.a).bind fun a => (vr r.b).bind fun b => (opt r.x r.xm).bind fun x => (opt r.e r.pm).bind fun e => some (.vaddInt (Fmt.ofCode r.fmt) d a b x e) else none
  | 1 => if r.c = 0 ∧ r.imm12 = 0 then (vr r.d).bind fun d => (vr r.a).bind fun a => (vr r.b).bind fun b => (opt r.x r.xm).bind fun x => (opt r.e r.pm).bind fun e => some (.vsubInt (Fmt.ofCode r.fmt) d a b x e) else none
  | 2 => if r.c = 0 ∧ r.imm12 = 0 then (vr r.d).bind fun d => (vr r.a).bind fun a => (vr r.b).bind fun b => (opt r.x r.xm).bind fun x => (opt r.e r.pm).bind fun e => some (.vmulInt (Fmt.ofCode r.fmt) d a b x e) else none
  | 3 => if r.c = 0 ∧ r.imm12 = 0 then (vr r.d).bind fun d => (vr r.a).bind fun a => (vr r.b).bind fun b => (opt r.x r.xm).bind fun x => (opt r.e r.pm).bind fun e => some (.vmulh (Fmt.ofCode r.fmt) d a b x e) else none
  | 4 => if r.c = 0 ∧ r.imm12 = 0 then (vr r.d).bind fun d => (vr r.a).bind fun a => (vr r.b).bind fun b => (opt r.x r.xm).bind fun x => (opt r.e r.pm).bind fun e => some (.vadds (Fmt.ofCode r.fmt) d a b x e) else none
  | 5 => if r.c = 0 ∧ r.imm12 = 0 then (vr r.d).bind fun d => (vr r.a).bind fun a => (vr r.b).bind fun b => (opt r.x r.xm).bind fun x => (opt r.e r.pm).bind fun e => some (.vsubs (Fmt.ofCode r.fmt) d a b x e) else none
  | 6 => if r.c = 0 ∧ r.imm12 = 0 then (vr r.d).bind fun d => (vr r.a).bind fun a => (vr r.b).bind fun b => (opt r.x r.xm).bind fun x => (opt r.e r.pm).bind fun e => some (.vand (Fmt.ofCode r.fmt) d a b x e) else none
  | 7 => if r.c = 0 ∧ r.imm12 = 0 then (vr r.d).bind fun d => (vr r.a).bind fun a => (vr r.b).bind fun b => (opt r.x r.xm).bind fun x => (opt r.e r.pm).bind fun e => some (.vor (Fmt.ofCode r.fmt) d a b x e) else none
  | 8 => if r.c = 0 ∧ r.imm12 = 0 then (vr r.d).bind fun d => (vr r.a).bind fun a => (vr r.b).bind fun b => (opt r.x r.xm).bind fun x => (opt r.e r.pm).bind fun e => some (.vxor (Fmt.ofCode r.fmt) d a b x e) else none
  | 9 => if r.c = 0 ∧ r.imm12 = 0 then (vr r.d).bind fun d => (vr r.a).bind fun a => (vr r.b).bind fun b => (opt r.x r.xm).bind fun x => (opt r.e r.pm).bind fun e => some (.vsll (Fmt.ofCode r.fmt) d a b x e) else none
  | 10 => if r.c = 0 ∧ r.imm12 = 0 then (vr r.d).bind fun d => (vr r.a).bind fun a => (vr r.b).bind fun b => (opt r.x r.xm).bind fun x => (opt r.e r.pm).bind fun e => some (.vsrl (Fmt.ofCode r.fmt) d a b x e) else none
  | 11 => if r.c = 0 ∧ r.imm12 = 0 then (vr r.d).bind fun d => (vr r.a).bind fun a => (vr r.b).bind fun b => (opt r.x r.xm).bind fun x => (opt r.e r.pm).bind fun e => some (.vsra (Fmt.ofCode r.fmt) d a b x e) else none
  | 12 => if r.c = 0 ∧ r.imm12 = 0 then (vr r.d).bind fun d => (vr r.a).bind fun a => (vr r.b).bind fun b => (opt r.x r.xm).bind fun x => (opt r.e r.pm).bind fun e => some (.vminInt (Fmt.ofCode r.fmt) d a b x e) else none
  | 13 => if r.c = 0 ∧ r.imm12 = 0 then (vr r.d).bind fun d => (vr r.a).bind fun a => (vr r.b).bind fun b => (opt r.x r.xm).bind fun x => (opt r.e r.pm).bind fun e => some (.vmaxInt (Fmt.ofCode r.fmt) d a b x e) else none
  | 14 => if r.c = 0 ∧ r.imm12 = 0 then (mr r.d).bind fun d => (vr r.a).bind fun a => (vr r.b).bind fun b => (opt r.x r.xm).bind fun x => (opt r.e r.pm).bind fun e => some (.vcmpeqInt (Fmt.ofCode r.fmt) d a b x e) else none
  | 15 => if r.c = 0 ∧ r.imm12 = 0 then (mr r.d).bind fun d => (vr r.a).bind fun a => (vr r.b).bind fun b => (opt r.x r.xm).bind fun x => (opt r.e r.pm).bind fun e => some (.vcmpltInt (Fmt.ofCode r.fmt) d a b x e) else none
  | 16 => if r.c = 0 ∧ r.imm12 = 0 then (mr r.d).bind fun d => (vr r.a).bind fun a => (vr r.b).bind fun b => (opt r.x r.xm).bind fun x => (opt r.e r.pm).bind fun e => some (.vcmpltn (Fmt.ofCode r.fmt) d a b x e) else none
  | 17 => if r.b = 0 ∧ r.c = 0 ∧ r.imm12 = 0 then (vr r.d).bind fun d => (vr r.a).bind fun a => (opt r.x r.xm).bind fun x => (opt r.e r.pm).bind fun e => some (.vabsInt (Fmt.ofCode r.fmt) d a x e) else none
  | _ => none

/-- Major 0x32, conversion and scales (R83). -/
def cand32 (r : RawA) : Option Instr :=
  match r.minor.toNat with
  | 0 => if r.b = 0 ∧ r.c = 0 ∧ r.imm12.extractLsb' 4 8 = 0 then (vr r.d).bind fun d => (vr r.a).bind fun a => (opt r.x r.xm).bind fun x => (opt r.e r.pm).bind fun e => some (.vcvt (Fmt.ofCode r.fmt) d a (Fmt.ofCode (r.imm12.extractLsb' 0 4)) x e) else none
  | 1 => if r.b = 0 ∧ r.c = 0 ∧ r.fmt = 14 ∧ r.imm12 = 0 then (vr r.d).bind fun d => (vr r.a).bind fun a => (opt r.x r.xm).bind fun x => (opt r.e r.pm).bind fun e => some (.vq d a x e) else none
  | 2 => if r.b = 0 ∧ r.c = 0 ∧ r.imm12 = 0 then (vr r.d).bind fun d => (vr r.a).bind fun a => (opt r.x r.xm).bind fun x => (opt r.e r.pm).bind fun e => some (.vdq (Fmt.ofCode r.fmt) d a x e) else none
  | 3 => if r.b = 0 ∧ r.c = 0 ∧ r.x = 0 ∧ r.xm = 0 ∧ r.e = 0 ∧ r.pm = 0 ∧ r.fmt = 15 ∧ r.imm12 = 0 then (vr r.d).bind fun d => (vr r.a).bind fun a => some (.vscl d a) else none
  | 4 => if r.b = 0 ∧ r.c = 0 ∧ r.x = 0 ∧ r.xm = 0 ∧ r.e = 0 ∧ r.pm = 0 ∧ r.fmt = 15 ∧ r.imm12 = 0 then (vr r.d).bind fun d => (vr r.a).bind fun a => some (.vscw d a) else none
  | _ => none

/-- Major 0x33, moves (R83). -/
def cand33 (r : RawA) : Option Instr :=
  match r.minor.toNat with
  | 0 => if r.b = 0 ∧ r.c = 0 ∧ r.x = 0 ∧ r.xm = 0 ∧ r.fmt = 0 ∧ r.imm12 = 0 then (vr r.d).bind fun d => (vr r.a).bind fun a => (opt r.e r.pm).bind fun e => some (.vmv d a e) else none
  | 1 => if r.a = 0 ∧ r.c = 0 ∧ r.x = 0 ∧ r.xm = 0 ∧ r.imm12 = 0 then (vr r.d).bind fun d => (opt r.e r.pm).bind fun e => some (.vbc (Fmt.ofCode r.fmt) d r.b e) else none
  | 2 => if r.a = 0 ∧ r.c = 0 ∧ r.x = 0 ∧ r.xm = 0 ∧ r.imm12 = 0 then (vr r.d).bind fun d => (opt r.e r.pm).bind fun e => some (.vid (Fmt.ofCode r.fmt) d r.b e) else none
  | 3 => if r.x = 0 ∧ r.xm = 0 ∧ r.fmt = 0 ∧ r.imm12 = 0 then (vr r.d).bind fun d => (vr r.a).bind fun a => (vr r.b).bind fun b => (mr r.c).bind fun c => (opt r.e r.pm).bind fun e => some (.vsel d a b c e) else none
  | 4 => if r.c = 0 ∧ r.x = 0 ∧ r.xm = 0 ∧ r.fmt = 0 ∧ r.imm12 = 0 then (vr r.d).bind fun d => (vr r.a).bind fun a => (opt r.e r.pm).bind fun e => some (.vslu d a r.b e) else none
  | 5 => if r.c = 0 ∧ r.x = 0 ∧ r.xm = 0 ∧ r.fmt = 0 ∧ r.imm12 = 0 then (vr r.d).bind fun d => (vr r.a).bind fun a => (opt r.e r.pm).bind fun e => some (.vsld d a r.b e) else none
  | 6 => if r.c = 0 ∧ r.x = 0 ∧ r.xm = 0 ∧ r.fmt = 0 ∧ r.imm12 = 0 then (vr r.d).bind fun d => (vr r.a).bind fun a => (vr r.b).bind fun b => (opt r.e r.pm).bind fun e => some (.vperm d a b e) else none
  | 7 => if r.b = 0 ∧ r.c = 0 ∧ r.x = 0 ∧ r.xm = 0 ∧ r.fmt = 0 ∧ r.imm12.extractLsb' 3 9 = 0 then (vr r.d).bind fun d => (vr r.a).bind fun a => (opt r.e r.pm).bind fun e => some (.vrow d a (r.imm12.extractLsb' 0 3) e) else none
  | 8 => if r.c = 0 ∧ r.x = 0 ∧ r.xm = 0 ∧ r.e = 0 ∧ r.pm = 0 ∧ r.imm12 = 0 then (vr r.a).bind fun a => some (.vxs (Fmt.ofCode r.fmt) r.d a r.b) else none
  | 9 => if r.c = 0 ∧ r.x = 0 ∧ r.xm = 0 ∧ r.e = 0 ∧ r.pm = 0 ∧ r.imm12 = 0 then (vr r.d).bind fun d => some (.vins (Fmt.ofCode r.fmt) d r.a r.b) else none
  | 10 => if r.c = 0 ∧ r.x = 0 ∧ r.xm = 0 ∧ r.fmt = 0 ∧ r.imm12 = 0 then (mr r.d).bind fun d => (vr r.a).bind fun a => (opt r.e r.pm).bind fun e => some (.vamv d a r.b e) else none
  | 11 => if r.c = 0 ∧ r.x = 0 ∧ r.xm = 0 ∧ r.fmt = 0 ∧ r.imm12 = 0 then (vr r.d).bind fun d => (mr r.a).bind fun a => (opt r.e r.pm).bind fun e => some (.vmva d a r.b e) else none
  | _ => none

/-- Major 0x34, reductions and carry (R83). -/
def cand34 (r : RawA) : Option Instr :=
  match r.minor.toNat with
  | 0 => if r.b = 0 ∧ r.c = 0 ∧ r.x = 0 ∧ r.xm = 0 ∧ r.imm.extractLsb' 1 11 = 0 then (RSrc.ofField r.a (r.imm.extractLsb' 0 1)).bind fun a => (opt r.e r.pm).bind fun e => some (.vredAdd (Fmt.ofCode (r.imm.extractLsb' 12 4)) r.d a e) else none
  | 1 => if r.b = 0 ∧ r.c = 0 ∧ r.x = 0 ∧ r.xm = 0 ∧ r.imm.extractLsb' 1 11 = 0 then (RSrc.ofField r.a (r.imm.extractLsb' 0 1)).bind fun a => (opt r.e r.pm).bind fun e => some (.vredMax (Fmt.ofCode (r.imm.extractLsb' 12 4)) r.d a e) else none
  | 2 => if r.b = 0 ∧ r.c = 0 ∧ r.x = 0 ∧ r.xm = 0 ∧ r.imm.extractLsb' 1 11 = 0 then (RSrc.ofField r.a (r.imm.extractLsb' 0 1)).bind fun a => (opt r.e r.pm).bind fun e => some (.vredMin (Fmt.ofCode (r.imm.extractLsb' 12 4)) r.d a e) else none
  | 3 => if r.c = 0 ∧ r.x = 0 ∧ r.xm = 0 ∧ r.imm12 = 0 then (mr r.d).bind fun d => (vr r.a).bind fun a => (opt r.e r.pm).bind fun e => some (.vcadd (Fmt.ofCode r.fmt) d a r.b e) else none
  | 4 => if r.c = 0 ∧ r.x = 0 ∧ r.xm = 0 ∧ r.imm12 = 0 then (mr r.d).bind fun d => (vr r.a).bind fun a => (opt r.e r.pm).bind fun e => some (.vcmax (Fmt.ofCode r.fmt) d a r.b e) else none
  | 5 =>
    (if r.b = 0 ∧ r.x = 0 ∧ r.xm = 0 ∧ r.e = 0 ∧ r.pm = 0 ∧ r.imm12.extractLsb' 5 1 = 0 ∧ r.imm12.extractLsb' 6 6 = 0 then (vr r.d).bind fun d => (vr r.a).bind fun a => (mr r.c).bind fun c => some (.vsparse (Fmt.ofCode r.fmt) d a c (r.imm12.extractLsb' 0 5)) else none) <|>
    (if r.b = 0 ∧ r.x = 0 ∧ r.xm = 0 ∧ r.e = 0 ∧ r.pm = 0 ∧ r.imm12.extractLsb' 5 1 = 1 ∧ r.imm12.extractLsb' 6 6 = 0 then (vr r.d).bind fun d => (vr r.a).bind fun a => (mr r.c).bind fun c => some (.vsparseP (Fmt.ofCode r.fmt) d a c (r.imm12.extractLsb' 0 5)) else none)
  | 6 => if r.b = 0 ∧ r.x = 0 ∧ r.xm = 0 ∧ r.e = 0 ∧ r.pm = 0 ∧ r.fmt = 0 ∧ r.imm12 = 0 then (vr r.d).bind fun d => (vr r.a).bind fun a => (mr r.c).bind fun c => some (.vexpand d a c) else none
  | _ => none

/-- Major 0x35, masks (R83). -/
def cand35 (r : RawA) : Option Instr :=
  match r.minor.toNat with
  | 0 => if r.c = 0 ∧ r.x = 0 ∧ r.xm = 0 ∧ r.fmt = 0 ∧ r.imm12 = 0 then (mr r.d).bind fun d => (mr r.a).bind fun a => (mr r.b).bind fun b => (opt r.e r.pm).bind fun e => some (.mand d a b e) else none
  | 1 => if r.c = 0 ∧ r.x = 0 ∧ r.xm = 0 ∧ r.fmt = 0 ∧ r.imm12 = 0 then (mr r.d).bind fun d => (mr r.a).bind fun a => (mr r.b).bind fun b => (opt r.e r.pm).bind fun e => some (.mor d a b e) else none
  | 2 => if r.c = 0 ∧ r.x = 0 ∧ r.xm = 0 ∧ r.fmt = 0 ∧ r.imm12 = 0 then (mr r.d).bind fun d => (mr r.a).bind fun a => (mr r.b).bind fun b => (opt r.e r.pm).bind fun e => some (.mxor d a b e) else none
  | 3 => if r.b = 0 ∧ r.c = 0 ∧ r.x = 0 ∧ r.xm = 0 ∧ r.fmt = 0 ∧ r.imm12 = 0 then (mr r.d).bind fun d => (mr r.a).bind fun a => (opt r.e r.pm).bind fun e => some (.mnot d a e) else none
  | 4 => if r.b = 0 ∧ r.c = 0 ∧ r.x = 0 ∧ r.xm = 0 ∧ r.fmt = 0 ∧ r.imm12 = 0 then (mr r.a).bind fun a => (opt r.e r.pm).bind fun e => some (.mpop r.d a e) else none
  | 5 => if r.b = 0 ∧ r.c = 0 ∧ r.x = 0 ∧ r.xm = 0 ∧ r.fmt = 0 ∧ r.imm12 = 0 then (mr r.a).bind fun a => (opt r.e r.pm).bind fun e => some (.mfirst r.d a e) else none
  | 6 => if r.a = 0 ∧ r.c = 0 ∧ r.x = 0 ∧ r.xm = 0 ∧ r.fmt = 0 ∧ r.imm12 = 0 then (mr r.d).bind fun d => (opt r.e r.pm).bind fun e => some (.mset d r.b e) else none
  | _ => none

/-- Major 0x40, scalar memory (R83). -/
def cand40 (r : RawM) : Option Instr :=
  match r.minor.toNat with
  | 0 => if r.scope = 0 ∧ r.e = 0 ∧ r.pm = 0 then (Policy.ofCode r.pol).bind fun pol => some (.ldB r.d r.base r.index r.scale pol r.off) else none
  | 1 => if r.scope = 0 ∧ r.e = 0 ∧ r.pm = 0 then (Policy.ofCode r.pol).bind fun pol => some (.ldH r.d r.base r.index r.scale pol r.off) else none
  | 2 => if r.scope = 0 ∧ r.e = 0 ∧ r.pm = 0 then (Policy.ofCode r.pol).bind fun pol => some (.ldW r.d r.base r.index r.scale pol r.off) else none
  | 3 => if r.scope = 0 ∧ r.e = 0 ∧ r.pm = 0 then (Policy.ofCode r.pol).bind fun pol => some (.ldD r.d r.base r.index r.scale pol r.off) else none
  | 4 => if r.scope = 0 ∧ r.e = 0 ∧ r.pm = 0 then (Policy.ofCode r.pol).bind fun pol => some (.ldBn r.d r.base r.index r.scale pol r.off) else none
  | 5 => if r.scope = 0 ∧ r.e = 0 ∧ r.pm = 0 then (Policy.ofCode r.pol).bind fun pol => some (.ldHn r.d r.base r.index r.scale pol r.off) else none
  | 6 => if r.scope = 0 ∧ r.e = 0 ∧ r.pm = 0 then (Policy.ofCode r.pol).bind fun pol => some (.ldWn r.d r.base r.index r.scale pol r.off) else none
  | 7 => if r.scope = 0 ∧ r.e = 0 ∧ r.pm = 0 then (Policy.ofCode r.pol).bind fun pol => some (.stB r.d r.base r.index r.scale pol r.off) else none
  | 8 => if r.scope = 0 ∧ r.e = 0 ∧ r.pm = 0 then (Policy.ofCode r.pol).bind fun pol => some (.stH r.d r.base r.index r.scale pol r.off) else none
  | 9 => if r.scope = 0 ∧ r.e = 0 ∧ r.pm = 0 then (Policy.ofCode r.pol).bind fun pol => some (.stW r.d r.base r.index r.scale pol r.off) else none
  | 10 => if r.scope = 0 ∧ r.e = 0 ∧ r.pm = 0 then (Policy.ofCode r.pol).bind fun pol => some (.stD r.d r.base r.index r.scale pol r.off) else none
  | 11 => if r.d = 0 ∧ r.scope = 0 ∧ r.e = 0 ∧ r.pm = 0 then (Policy.ofCode r.pol).bind fun pol => some (.pf r.base r.index r.scale pol r.off) else none
  | _ => none

/-- Major 0x41, vector memory (R83). -/
def cand41 (r : RawM) : Option Instr :=
  match r.minor.toNat with
  | 0 => if r.scope = 0 then (vr r.d).bind fun d => (Policy.ofCode r.pol).bind fun pol => (opt r.e r.pm).bind fun e => some (.vld (Fmt.ofCode (r.off.extractLsb' 14 4)) d r.base r.index r.scale pol (r.off.extractLsb' 0 14) e) else none
  | 1 => if r.scope = 0 then (vr r.d).bind fun d => (Policy.ofCode r.pol).bind fun pol => (opt r.e r.pm).bind fun e => some (.vlds (Fmt.ofCode (r.off.extractLsb' 14 4)) d r.base r.index r.scale pol (r.off.extractLsb' 0 14) e) else none
  | 2 => if r.scope = 0 then (vr r.d).bind fun d => (vr r.index).bind fun ix => (Policy.ofCode r.pol).bind fun pol => (opt r.e r.pm).bind fun e => some (.vldx (Fmt.ofCode (r.off.extractLsb' 14 4)) d r.base ix r.scale pol (r.off.extractLsb' 0 14) e) else none
  | 3 => if r.scope = 0 then (vr r.d).bind fun d => (Policy.ofCode r.pol).bind fun pol => (opt r.e r.pm).bind fun e => some (.vst (Fmt.ofCode (r.off.extractLsb' 14 4)) d r.base r.index r.scale pol (r.off.extractLsb' 0 14) e) else none
  | 4 => if r.scope = 0 then (vr r.d).bind fun d => (Policy.ofCode r.pol).bind fun pol => (opt r.e r.pm).bind fun e => some (.vsts (Fmt.ofCode (r.off.extractLsb' 14 4)) d r.base r.index r.scale pol (r.off.extractLsb' 0 14) e) else none
  | 5 => if r.scope = 0 then (vr r.d).bind fun d => (vr r.index).bind fun ix => (Policy.ofCode r.pol).bind fun pol => (opt r.e r.pm).bind fun e => some (.vstx (Fmt.ofCode (r.off.extractLsb' 14 4)) d r.base ix r.scale pol (r.off.extractLsb' 0 14) e) else none
  | 6 => if r.pol = 0 then (vr r.d).bind fun d => (vr r.index).bind fun ix => (Scope.ofCode r.scope).bind fun sc => (opt r.e r.pm).bind fun e => some (.vsadd (Fmt.ofCode (r.off.extractLsb' 14 4)) d r.base ix r.scale sc (r.off.extractLsb' 0 14) e) else none
  | 7 => if r.scale = 0 ∧ r.scope = 0 ∧ r.off.extractLsb' 8 10 = 0 then (vr r.d).bind fun d => (Policy.ofCode r.pol).bind fun pol => (opt r.e r.pm).bind fun e => some (.vldT d r.base r.index pol (r.off.extractLsb' 0 8) e) else none
  | 8 => if r.scale = 0 ∧ r.scope = 0 ∧ r.off.extractLsb' 8 10 = 0 then (vr r.d).bind fun d => (Policy.ofCode r.pol).bind fun pol => (opt r.e r.pm).bind fun e => some (.vstT d r.base r.index pol (r.off.extractLsb' 0 8) e) else none
  | 9 => if r.d = 0 ∧ r.base = 0 ∧ r.index = 0 ∧ r.scale = 0 ∧ r.scope = 0 ∧ r.pol = 0 ∧ r.e = 0 ∧ r.pm = 0 ∧ r.off = 0 then some .sdrain else none
  | _ => none

/-- Major 0x48, atomics (R83). -/
def cand48 (r : RawM) : Option Instr :=
  match r.minor.toNat with
  | 0 => if r.pol = 0 ∧ r.e = 0 ∧ r.pm = 0 then (ASize.ofCode r.scale).bind fun sz => (Scope.ofCode r.scope).bind fun sc => some (.amoAdd r.d r.base r.index sz sc r.off) else none
  | 1 => if r.pol = 0 ∧ r.e = 0 ∧ r.pm = 0 then (ASize.ofCode r.scale).bind fun sz => (Scope.ofCode r.scope).bind fun sc => some (.amoAnd r.d r.base r.index sz sc r.off) else none
  | 2 => if r.pol = 0 ∧ r.e = 0 ∧ r.pm = 0 then (ASize.ofCode r.scale).bind fun sz => (Scope.ofCode r.scope).bind fun sc => some (.amoOr r.d r.base r.index sz sc r.off) else none
  | 3 => if r.pol = 0 ∧ r.e = 0 ∧ r.pm = 0 then (ASize.ofCode r.scale).bind fun sz => (Scope.ofCode r.scope).bind fun sc => some (.amoXor r.d r.base r.index sz sc r.off) else none
  | 4 => if r.pol = 0 ∧ r.e = 0 ∧ r.pm = 0 then (ASize.ofCode r.scale).bind fun sz => (Scope.ofCode r.scope).bind fun sc => some (.amoMin r.d r.base r.index sz sc r.off) else none
  | 5 => if r.pol = 0 ∧ r.e = 0 ∧ r.pm = 0 then (ASize.ofCode r.scale).bind fun sz => (Scope.ofCode r.scope).bind fun sc => some (.amoMax r.d r.base r.index sz sc r.off) else none
  | 6 => if r.pol = 0 ∧ r.e = 0 ∧ r.pm = 0 then (ASize.ofCode r.scale).bind fun sz => (Scope.ofCode r.scope).bind fun sc => some (.amoMinn r.d r.base r.index sz sc r.off) else none
  | 7 => if r.pol = 0 ∧ r.e = 0 ∧ r.pm = 0 then (ASize.ofCode r.scale).bind fun sz => (Scope.ofCode r.scope).bind fun sc => some (.amoMaxn r.d r.base r.index sz sc r.off) else none
  | 8 => if r.pol = 0 ∧ r.e = 0 ∧ r.pm = 0 then (ASize.ofCode r.scale).bind fun sz => (Scope.ofCode r.scope).bind fun sc => some (.amoSwap r.d r.base r.index sz sc r.off) else none
  | 9 => if r.pol = 0 ∧ r.e = 0 ∧ r.pm = 0 then (ASize.ofCode r.scale).bind fun sz => (Scope.ofCode r.scope).bind fun sc => some (.amoCas r.d r.base r.index sz sc r.off) else none
  | 10 => if r.scale = 2 ∧ r.pol = 0 ∧ r.e = 0 ∧ r.pm = 0 then (Scope.ofCode r.scope).bind fun sc => some (.amoFadd r.d r.base r.index sc r.off) else none
  | 11 => if r.index = 0 ∧ r.pol = 0 ∧ r.e = 0 ∧ r.pm = 0 then (ASize.ofCode r.scale).bind fun sz => (Scope.ofCode r.scope).bind fun sc => some (.amoLd r.d r.base sz sc r.off) else none
  | 12 => if r.d = 0 ∧ r.pol = 0 ∧ r.e = 0 ∧ r.pm = 0 then (ASize.ofCode r.scale).bind fun sz => (Scope.ofCode r.scope).bind fun sc => some (.amoSt r.base r.index sz sc r.off) else none
  | 13 => if r.pol = 0 ∧ r.e = 0 ∧ r.pm = 0 then (ASize.ofCode r.scale).bind fun sz => (Scope.ofCode r.scope).bind fun sc => (WCond.ofCode (r.off.extractLsb' 14 4)).bind fun cond => some (.wait r.d r.base r.index sz sc (r.off.extractLsb' 0 14) cond) else none
  | _ => none

/-- Major 0x49, phases and fences (R83). -/
def cand49 (r : RawS) : Option Instr :=
  match r.minor.toNat with
  | 0 =>
    (if r.a = 0 ∧ r.num = 0 ∧ r.imm.extractLsb' 0 1 = 0 ∧ r.imm.extractLsb' 1 23 = 0 then some (.ph r.d) else none) <|>
    (if r.num = 0 ∧ r.imm.extractLsb' 0 1 = 1 ∧ r.imm.extractLsb' 1 23 = 0 then some (.phTimestamp r.d r.a) else none)
  | 1 => if r.a = 0 ∧ r.num = 0 ∧ r.imm = 0 then some (.phA r.d) else none
  | 2 => if r.d = 0 ∧ r.a = 0 ∧ r.num = 0 ∧ r.imm.extractLsb' 6 18 = 0 then (Path.ofCode (r.imm.extractLsb' 0 3)).bind fun dst => (Path.ofCode (r.imm.extractLsb' 3 3)).bind fun frm => some (.fx dst frm) else none
  | 3 => if r.d = 0 ∧ r.a = 0 ∧ r.num = 0 ∧ r.imm = 0 then some .fence else none
  | _ => none

/-- Major 0x50, matrix (R83). -/
def cand50 (r : RawA) : Option Instr :=
  match r.minor.toNat with
  | 0 => if r.x = 0 ∧ r.xm = 0 ∧ r.e = 0 ∧ r.pm = 0 ∧ r.imm12.extractLsb' 1 11 = 0 then (mr r.d).bind fun d => (mr r.a).bind fun a => (vr r.b).bind fun b => some (.opa (Fmt.ofCode r.fmt) d a b r.c (r.imm12.extractLsb' 0 1 == 1)) else none
  | 1 => if r.x = 0 ∧ r.xm = 0 ∧ r.e = 0 ∧ r.pm = 0 ∧ r.fmt = 0 ∧ r.imm12.extractLsb' 6 6 = 0 then (mr r.d).bind fun d => (mr r.a).bind fun a => (vr r.b).bind fun b => some (.tfold d a b r.c (r.imm12.extractLsb' 0 3) (r.imm12.extractLsb' 3 3)) else none
  | 2 => if r.b = 0 ∧ r.c = 0 ∧ r.x = 0 ∧ r.xm = 0 ∧ r.e = 0 ∧ r.pm = 0 ∧ r.fmt = 0 ∧ r.imm12.extractLsb' 3 9 = 0 then (mr r.a).bind fun a => some (.tclr r.d a (r.imm12.extractLsb' 0 3)) else none
  | 3 => if r.x = 0 ∧ r.xm = 0 ∧ r.e = 0 ∧ r.pm = 0 ∧ r.imm12.extractLsb' 6 6 = 0 then (mr r.d).bind fun d => some (.tld (Fmt.ofCode r.fmt) d r.a r.b r.c (r.imm12.extractLsb' 0 6)) else none
  | 4 => if r.x = 0 ∧ r.xm = 0 ∧ r.e = 0 ∧ r.pm = 0 ∧ r.imm12.extractLsb' 6 6 = 0 then (mr r.d).bind fun d => some (.tst (Fmt.ofCode r.fmt) d r.a r.b r.c (r.imm12.extractLsb' 0 6)) else none
  | 5 => if r.b = 0 ∧ r.x = 0 ∧ r.xm = 0 ∧ r.imm12.extractLsb' 6 6 = 0 then (vr r.d).bind fun d => (mr r.a).bind fun a => (opt r.e r.pm).bind fun e => some (.tmv (Fmt.ofCode r.fmt) d a r.c (r.imm12.extractLsb' 0 6) e) else none
  | 6 => if r.a = 0 ∧ r.x = 0 ∧ r.xm = 0 ∧ r.imm12.extractLsb' 6 6 = 0 then (mr r.d).bind fun d => (vr r.b).bind fun b => (opt r.e r.pm).bind fun e => some (.tadd (Fmt.ofCode r.fmt) d b r.c (r.imm12.extractLsb' 0 6) e) else none
  | _ => none

/-- Major 0x58, copy, rings, tensor ids (R83). -/
def cand58 (r : RawA) : Option Instr :=
  match r.minor.toNat with
  | 0 => if r.x = 0 ∧ r.xm = 0 ∧ r.e = 0 ∧ r.pm = 0 ∧ r.imm.extractLsb' 2 14 = 0 then some (.cpw r.d r.a r.b r.c (r.imm.extractLsb' 0 2)) else none
  | 1 => if r.a = 0 ∧ r.b = 0 ∧ r.c = 0 ∧ r.x = 0 ∧ r.xm = 0 ∧ r.e = 0 ∧ r.pm = 0 ∧ r.imm.extractLsb' 2 14 = 0 then some (.cpgo r.d (r.imm.extractLsb' 0 2)) else none
  | 2 => if r.b = 0 ∧ r.c = 0 ∧ r.x = 0 ∧ r.xm = 0 ∧ r.e = 0 ∧ r.pm = 0 ∧ r.imm.extractLsb' 2 14 = 0 then some (.cwait r.d r.a (r.imm.extractLsb' 0 2)) else none
  | 3 => if r.b = 0 ∧ r.c = 0 ∧ r.x = 0 ∧ r.xm = 0 ∧ r.e = 0 ∧ r.pm = 0 ∧ r.imm.extractLsb' 2 14 = 0 then some (.cpst r.d r.a (r.imm.extractLsb' 0 2)) else none
  | 4 => if r.x = 0 ∧ r.xm = 0 ∧ r.e = 0 ∧ r.pm = 0 ∧ r.imm.extractLsb' 8 8 = 0 then (vr r.a).bind fun a => some (.tdef r.d a r.b r.c (r.imm.extractLsb' 0 8)) else none
  | 5 => if r.d = 0 ∧ r.a = 0 ∧ r.b = 0 ∧ r.c = 0 ∧ r.x = 0 ∧ r.xm = 0 ∧ r.e = 0 ∧ r.pm = 0 ∧ r.imm.extractLsb' 8 8 = 0 then some (.tdrop (r.imm.extractLsb' 0 8)) else none
  | 6 => if r.a = 0 ∧ r.b = 0 ∧ r.c = 0 ∧ r.x = 0 ∧ r.xm = 0 ∧ r.e = 0 ∧ r.pm = 0 ∧ r.imm.extractLsb' 13 3 = 0 then some (.tget r.d (r.imm.extractLsb' 0 8) (r.imm.extractLsb' 8 5)) else none
  | 7 => if r.x = 0 ∧ r.xm = 0 ∧ r.e = 0 ∧ r.pm = 0 ∧ r.imm.extractLsb' 4 12 = 0 then some (.rinit r.d r.a r.b r.c (r.imm.extractLsb' 0 4)) else none
  | 8 =>
    (if r.a = 0 ∧ r.b = 0 ∧ r.c = 0 ∧ r.x = 0 ∧ r.xm = 0 ∧ r.e = 0 ∧ r.pm = 0 ∧ r.imm.extractLsb' 4 1 = 0 ∧ r.imm.extractLsb' 5 11 = 0 then some (.rget r.d (r.imm.extractLsb' 0 4)) else none) <|>
    (if r.a = 0 ∧ r.b = 0 ∧ r.c = 0 ∧ r.x = 0 ∧ r.xm = 0 ∧ r.e = 0 ∧ r.pm = 0 ∧ r.imm.extractLsb' 4 1 = 1 ∧ r.imm.extractLsb' 5 11 = 0 then some (.rgetNw r.d (r.imm.extractLsb' 0 4)) else none)
  | 9 => if r.d = 0 ∧ r.a = 0 ∧ r.b = 0 ∧ r.c = 0 ∧ r.x = 0 ∧ r.xm = 0 ∧ r.e = 0 ∧ r.pm = 0 ∧ r.imm.extractLsb' 4 12 = 0 then some (.rrel (r.imm.extractLsb' 0 4)) else none
  | _ => none

/-- Major 0x60, index scratchpad (R83). -/
def cand60 (r : RawA) : Option Instr :=
  match r.minor.toNat with
  | 0 => if r.x = 0 ∧ r.xm = 0 ∧ r.imm12 = 0 then (vr r.a).bind fun a => (vr r.b).bind fun b => (mr r.c).bind fun c => (opt r.e r.pm).bind fun e => some (.xins (Fmt.ofCode r.fmt) r.d a b c e) else none
  | 1 => if r.x = 0 ∧ r.xm = 0 ∧ r.imm12 = 0 then (vr r.a).bind fun a => (vr r.b).bind fun b => (mr r.c).bind fun c => (opt r.e r.pm).bind fun e => some (.xacc (Fmt.ofCode r.fmt) r.d a b c e) else none
  | 2 => if r.b = 0 ∧ r.x = 0 ∧ r.xm = 0 ∧ r.imm12 = 0 then (vr r.d).bind fun d => (vr r.a).bind fun a => (mr r.c).bind fun c => (opt r.e r.pm).bind fun e => some (.xlook (Fmt.ofCode r.fmt) d a c e) else none
  | 3 => if r.b = 0 ∧ r.x = 0 ∧ r.xm = 0 ∧ r.fmt = 0 ∧ r.imm12 = 0 then (vr r.a).bind fun a => (mr r.c).bind fun c => (opt r.e r.pm).bind fun e => some (.xdel r.d a c e) else none
  | 4 => if r.c = 0 ∧ r.x = 0 ∧ r.xm = 0 ∧ r.e = 0 ∧ r.pm = 0 ∧ r.imm12 = 0 then (vr r.a).bind fun a => (vr r.b).bind fun b => some (.xdrain (Fmt.ofCode r.fmt) r.d a b) else none
  | 5 => if r.a = 0 ∧ r.b = 0 ∧ r.c = 0 ∧ r.x = 0 ∧ r.xm = 0 ∧ r.e = 0 ∧ r.pm = 0 ∧ r.fmt = 0 ∧ r.imm12.extractLsb' 1 11 = 0 then some (.xcnt r.d (r.imm12.extractLsb' 0 1 == 1)) else none
  | 6 => if r.a = 0 ∧ r.b = 0 ∧ r.c = 0 ∧ r.x = 0 ∧ r.xm = 0 ∧ r.e = 0 ∧ r.pm = 0 ∧ r.fmt = 0 ∧ r.imm12 = 0 then some (.xclr r.d) else none
  | _ => none

/-- Major 0x68, key index (R83). -/
def cand68 (r : RawA) : Option Instr :=
  match r.minor.toNat with
  | 0 => if r.b = 0 ∧ r.c = 0 ∧ r.x = 0 ∧ r.xm = 0 ∧ r.e = 0 ∧ r.pm = 0 ∧ r.fmt = 0 ∧ r.imm12.extractLsb' 8 4 = 0 then some (.kxdef r.d r.a (r.imm12.extractLsb' 0 8)) else none
  | 1 => if r.a = 0 ∧ r.x = 0 ∧ r.xm = 0 ∧ r.e = 0 ∧ r.pm = 0 ∧ r.fmt = 0 ∧ r.imm12.extractLsb' 8 4 = 0 then some (.kxprj r.d r.b r.c (r.imm12.extractLsb' 0 8)) else none
  | 2 => if r.x = 0 ∧ r.xm = 0 ∧ r.e = 0 ∧ r.pm = 0 ∧ r.fmt = 0 ∧ r.imm12.extractLsb' 8 4 = 0 then (mr r.d).bind fun d => (vr r.a).bind fun a => some (.kst d a r.b r.c (r.imm12.extractLsb' 0 8)) else none
  | 3 => if r.b = 0 ∧ r.x = 0 ∧ r.xm = 0 ∧ r.e = 0 ∧ r.pm = 0 ∧ r.fmt = 0 ∧ r.imm12.extractLsb' 8 4 = 0 then (mr r.d).bind fun d => (vr r.a).bind fun a => some (.ksig d a r.c (r.imm12.extractLsb' 0 8)) else none
  | 4 =>
    (if r.x = 0 ∧ r.xm = 0 ∧ r.e = 0 ∧ r.pm = 0 ∧ r.fmt = 0 ∧ r.imm12.extractLsb' 11 1 = 0 then (vr r.d).bind fun d => (mr r.a).bind fun a => some (.kga d a r.b r.c (r.imm12.extractLsb' 0 8) (r.imm12.extractLsb' 8 3)) else none) <|>
    (if r.x = 0 ∧ r.xm = 0 ∧ r.e = 0 ∧ r.pm = 0 ∧ r.fmt = 0 ∧ r.imm12.extractLsb' 11 1 = 1 then (vr r.d).bind fun d => (mr r.a).bind fun a => some (.kgaU d a r.b r.c (r.imm12.extractLsb' 0 8) (r.imm12.extractLsb' 8 3)) else none)
  | 5 =>
    (if r.a = 0 ∧ r.b = 0 ∧ r.c = 0 ∧ r.x = 0 ∧ r.xm = 0 ∧ r.e = 0 ∧ r.pm = 0 ∧ r.fmt = 0 ∧ r.imm12.extractLsb' 11 1 = 0 then some (.kxst r.d (r.imm12.extractLsb' 0 8) (r.imm12.extractLsb' 8 3)) else none) <|>
    (if r.a = 0 ∧ r.b = 0 ∧ r.c = 0 ∧ r.x = 0 ∧ r.xm = 0 ∧ r.e = 0 ∧ r.pm = 0 ∧ r.fmt = 0 ∧ r.imm12.extractLsb' 11 1 = 1 then some (.kxstClr r.d (r.imm12.extractLsb' 0 8) (r.imm12.extractLsb' 8 3)) else none)
  | 6 => if r.a = 0 ∧ r.b = 0 ∧ r.c = 0 ∧ r.x = 0 ∧ r.xm = 0 ∧ r.e = 0 ∧ r.pm = 0 ∧ r.fmt = 0 ∧ r.imm12.extractLsb' 8 4 = 0 then some (.kxclr r.d (r.imm12.extractLsb' 0 8)) else none
  | _ => none

/-- Major 0x70, gossip, minors 0 to 6 (R83). -/
def cand70Low (r : RawA) : Option Instr :=
  match r.minor.toNat with
  | 0 => if r.c = 0 ∧ r.x = 0 ∧ r.xm = 0 ∧ r.e = 0 ∧ r.pm = 0 ∧ r.fmt = 3 ∧ r.imm12 = 0 then some (.gadd r.d r.a r.b) else none
  | 1 => if r.x = 0 ∧ r.xm = 0 ∧ r.imm12 = 0 then (vr r.b).bind fun b => (vr r.c).bind fun c => (opt r.e r.pm).bind fun e => some (.vgadd (Fmt.ofCode r.fmt) r.d r.a b c e) else none
  | 2 => if r.c = 0 ∧ r.x = 0 ∧ r.xm = 0 ∧ r.fmt = 3 ∧ r.imm12 = 0 then (vr r.d).bind fun d => (vr r.b).bind fun b => (opt r.e r.pm).bind fun e => some (.gld d r.a b e) else none
  | 3 => if r.c = 0 ∧ r.x = 0 ∧ r.xm = 0 ∧ r.fmt = 14 ∧ r.imm12 = 0 then (vr r.d).bind fun d => (vr r.b).bind fun b => (opt r.e r.pm).bind fun e => some (.gest d r.a b e) else none
  | 4 => if r.b = 0 ∧ r.c = 0 ∧ r.x = 0 ∧ r.xm = 0 ∧ r.e = 0 ∧ r.pm = 0 ∧ r.fmt = 0 ∧ r.imm12 = 0 then some (.gw r.d r.a) else none
  | 5 => if r.a = 0 ∧ r.b = 0 ∧ r.c = 0 ∧ r.x = 0 ∧ r.xm = 0 ∧ r.e = 0 ∧ r.pm = 0 ∧ r.fmt = 0 ∧ r.imm12.extractLsb' 4 8 = 0 then some (.gspr r.d (r.imm12.extractLsb' 0 4)) else none
  | 6 => if r.b = 0 ∧ r.c = 0 ∧ r.x = 0 ∧ r.xm = 0 ∧ r.e = 0 ∧ r.pm = 0 ∧ r.fmt = 0 ∧ r.imm12.extractLsb' 4 8 = 0 then some (.gstep r.d r.a (r.imm12.extractLsb' 0 4)) else none
  | _ => none

/-- Major 0x70, gossip (R83). -/
noncomputable def cand70 (r : RawA) : Option Instr :=
  match r.minor.toNat with
  | 7 => if r.d = 0 ∧ r.a = 0 ∧ r.b = 0 ∧ r.c = 0 ∧ r.x = 0 ∧ r.xm = 0 ∧ r.e = 0 ∧ r.pm = 0 ∧ r.fmt = 0 ∧ r.imm12.extractLsb' 4 8 = 0 then some (.gquiet (r.imm12.extractLsb' 0 4)) else none
  | 8 =>
    (if r.b = 0 ∧ r.c = 0 ∧ r.x = 0 ∧ r.xm = 0 ∧ r.e = 0 ∧ r.pm = 0 ∧ r.fmt = 0 ∧ r.imm12.extractLsb' 4 2 = 0 ∧ r.imm12.extractLsb' 6 6 = 0 then some (.gctlDefine r.d r.a (r.imm12.extractLsb' 0 4)) else none) <|>
    (if r.b = 0 ∧ r.c = 0 ∧ r.x = 0 ∧ r.xm = 0 ∧ r.e = 0 ∧ r.pm = 0 ∧ r.fmt = 0 ∧ r.imm12.extractLsb' 4 2 = 1 ∧ r.imm12.extractLsb' 6 6 = 0 then some (.gctlUndefine r.d r.a (r.imm12.extractLsb' 0 4)) else none) <|>
    (if r.b = 0 ∧ r.c = 0 ∧ r.x = 0 ∧ r.xm = 0 ∧ r.e = 0 ∧ r.pm = 0 ∧ r.fmt = 0 ∧ r.imm12.extractLsb' 4 2 = 2 ∧ r.imm12.extractLsb' 6 6 = 0 then some (.gctlStatus r.d r.a (r.imm12.extractLsb' 0 4)) else none) <|>
    (if r.b = 0 ∧ r.c = 0 ∧ r.x = 0 ∧ r.xm = 0 ∧ r.e = 0 ∧ r.pm = 0 ∧ r.fmt = 0 ∧ r.imm12.extractLsb' 4 2 = 3 ∧ r.imm12.extractLsb' 6 6 = 0 then some (.gctlStatusClear r.d r.a (r.imm12.extractLsb' 0 4)) else none)
  | _ => cand70Low r

/-- Major 0x78, barriers (R83). -/
def cand78 (r : RawS) : Option Instr :=
  match r.minor.toNat with
  | 0 =>
    (if r.d = 0 ∧ r.a = 0 ∧ r.num = 0 ∧ r.imm.extractLsb' 2 1 = 0 ∧ r.imm.extractLsb' 3 21 = 0 then some (.bar (r.imm.extractLsb' 0 2)) else none) <|>
    (if r.a = 0 ∧ r.num = 0 ∧ r.imm.extractLsb' 2 1 = 1 ∧ r.imm.extractLsb' 3 21 = 0 then some (.barPh r.d (r.imm.extractLsb' 0 2)) else none)
  | 1 => if r.d = 0 ∧ r.num = 0 ∧ r.imm = 0 then some (.sleep r.a) else none
  | _ => none

/-- The operands of a full instruction of a major other than 0x70 (R83). -/
def candOf (w : Word) : Option Instr :=
  match (w.extractLsb' 54 8).toNat with
  | 0x10 => cand10 (unpackA w)
  | 0x11 => cand11 (unpackI w)
  | 0x12 => cand12 (unpackA w)
  | 0x18 => cand18 (unpackB w)
  | 0x19 => cand19 (unpackI w)
  | 0x1a => cand1A (unpackI w)
  | 0x1b => cand1B (unpackB w)
  | 0x20 => cand20 (unpackS w)
  | 0x28 => cand28 (unpackI w)
  | 0x30 => cand30 (unpackA w)
  | 0x31 => cand31 (unpackA w)
  | 0x32 => cand32 (unpackA w)
  | 0x33 => cand33 (unpackA w)
  | 0x34 => cand34 (unpackA w)
  | 0x35 => cand35 (unpackA w)
  | 0x40 => cand40 (unpackM w)
  | 0x41 => cand41 (unpackM w)
  | 0x48 => cand48 (unpackM w)
  | 0x49 => cand49 (unpackS w)
  | 0x50 => cand50 (unpackA w)
  | 0x58 => cand58 (unpackA w)
  | 0x60 => cand60 (unpackA w)
  | 0x68 => cand68 (unpackA w)
  | 0x78 => cand78 (unpackS w)
  | _ => none

/-- The operands of a full instruction by its major opcode, whether or not they are legal together (R83). -/
noncomputable def candidate (w : Word) : Option Instr :=
  if w.extractLsb' 54 8 = 0x70 then cand70 (unpackA w) else candOf w

/-! Pair words. -/

/-- The code of a restricted two-register op (R75). -/
def PAlu.code : PAlu → BitVec 6
  | .add => 0 | .sub => 1 | .and => 2 | .or => 3 | .xor => 4 | .sll => 5 | .srl => 6 | .sra => 7 | .mov => 8
/-- The code of a restricted vector op (R75). -/
def PVec.code : PVec → BitVec 6
  | .addF => 15 | .subF => 16 | .mulF => 17 | .mv => 18 | .addI => 19

/-- The fields of one slot of a pair word (R74). -/
structure RawP where
  op : BitVec 6
  d : BitVec 6 := 0
  s : BitVec 6 := 0
  imm : BitVec 12 := 0
  deriving DecidableEq, Repr

/-- A slot's 31 bits (R74). -/
def packSlot (bm : Bool) (f : RawP) : BitVec 31 := BitVec.ofBool bm ++ f.op ++ f.d ++ f.s ++ f.imm
/-- The fields of a slot's 31 bits (R74). -/
def unpackSlot (w : BitVec 31) : RawP :=
  { op := w.extractLsb' 24 6, d := w.extractLsb' 18 6, s := w.extractLsb' 12 6, imm := w.extractLsb' 0 12 }

/-- A slot's fields (R75). -/
def PSlot.raw : PSlot → RawP
  | .alu op d s => { op := op.code, d := d, s := s }
  | .addi d s imm => { op := 9, d := d, s := s, imm := imm }
  | .ldi d imm => { op := 10, d := d, imm := imm }
  | .slli d s sh => { op := 11, d := d, s := s, imm := 0#6 ++ sh }
  | .srli d s sh => { op := 12, d := d, s := s, imm := 0#6 ++ sh }
  | .ld d s imm => { op := 13, d := d, s := s, imm := imm }
  | .st d s imm => { op := 14, d := d, s := s, imm := imm }
  | .vec op d s => { op := op.code, d := vf d, s := vf s }
  | .nop => { op := 20 }

/-- A two-register slot (R75). -/
def slotAlu (op : PAlu) (f : RawP) : Option PSlot := if f.imm = 0 then some (.alu op f.d f.s) else none
/-- A vector slot (R75). -/
def slotVec (op : PVec) (f : RawP) : Option PSlot :=
  if f.imm = 0 then (vr f.d).bind fun d => (vr f.s).bind fun s => some (.vec op d s) else none

/-- The restricted op of a slot, none where its code or a fixed field is illegal (R75). -/
def slotOf (f : RawP) : Option PSlot :=
  match f.op.toNat with
  | 0 => slotAlu .add f
  | 1 => slotAlu .sub f
  | 2 => slotAlu .and f
  | 3 => slotAlu .or f
  | 4 => slotAlu .xor f
  | 5 => slotAlu .sll f
  | 6 => slotAlu .srl f
  | 7 => slotAlu .sra f
  | 8 => slotAlu .mov f
  | 9 => some (.addi f.d f.s f.imm)
  | 10 => if f.s = 0 then some (.ldi f.d f.imm) else none
  | 11 => if f.imm.extractLsb' 6 6 = 0 then some (.slli f.d f.s (f.imm.extractLsb' 0 6)) else none
  | 12 => if f.imm.extractLsb' 6 6 = 0 then some (.srli f.d f.s (f.imm.extractLsb' 0 6)) else none
  | 13 => some (.ld f.d f.s f.imm)
  | 14 => some (.st f.d f.s f.imm)
  | 15 => slotVec .addF f
  | 16 => slotVec .subF f
  | 17 => slotVec .mulF f
  | 18 => slotVec .mv f
  | 19 => slotVec .addI f
  | 20 => if f.d = 0 ∧ f.s = 0 ∧ f.imm = 0 then some .nop else none
  | _ => none

/-- A pair word (R74). -/
def packPair (b0 : Bool) (s0 : PSlot) (b1 : Bool) (s1 : PSlot) : Word :=
  1#1 ++ packSlot b0 s0.raw ++ 0#1 ++ packSlot b1 s1.raw

/-- The slots of a word with P = 1 (R74, R85). -/
def pairCandidate (w : Word) : Option Instr :=
  if w.extractLsb' 31 1 = 0 then
    (slotOf (unpackSlot (w.extractLsb' 32 31))).bind fun s0 =>
    (slotOf (unpackSlot (w.extractLsb' 0 31))).bind fun s1 =>
    some (.pairWord (w.extractLsb' 62 1 == 1) s0 (w.extractLsb' 30 1 == 1) s1)
  else none

/-- What a hart finds in a word (R85). -/
inductive Decoded where
  | instr (mark : Bool) (i : Instr)
  | illegal
  | unitAbsent
  deriving DecidableEq, Repr

/-- The major opcode of a word (R62). -/
def majorOf (w : Word) : Nat := (w.extractLsb' 54 8).toNat

/-- The order in which a hart decodes a word (R85): a pair, an absent unit, then the instruction's own tables.
`kxh` and `gxe` are the unit-presence bits of feat (R18). -/
noncomputable def decode (kxh gxe : Bool) (w : Word) : Decoded :=
  if w.extractLsb' 63 1 = 1 then
    match pairCandidate w with
    | some i => if i.wf then .instr false i else .illegal
    | none => .illegal
  else if (majorOf w = 0x68 ∧ kxh = false) ∨ (majorOf w = 0x70 ∧ gxe = false) then .unitAbsent
  else
    match candidate w with
    | some i =>
      if i.wf ∧ (w.extractLsb' 62 1 = 1 → i.markable) then .instr (w.extractLsb' 62 1 == 1) i else .illegal
    | none => .illegal

/-- The instruction the decoder reads from a word given as a number, on a part that has every unit. A number of
other than 64 bits is no instruction word (R58). -/
noncomputable def decodeTableWord (nbits w : Nat) : Option Instr :=
  if nbits ≤ 64 ∧ w < 2 ^ 64 then
    match decode true true (BitVec.ofNat 64 w) with
    | .instr _ i => some i
    | _ => none
  else none

/-- The word of an instruction with its binding-time mark, none for an event, which has no word. -/
def encode (bm : Bool) (i : Instr) : Option Word :=
  match i with
  | .add d a b => some (packA bm 0x10 { minor := 0, d := d, a := a, b := b })
  | .sub d a b => some (packA bm 0x10 { minor := 1, d := d, a := a, b := b })
  | .mul d a b => some (packA bm 0x10 { minor := 2, d := d, a := a, b := b })
  | .mulh d a b => some (packA bm 0x10 { minor := 3, d := d, a := a, b := b })
  | .mulhn d a b => some (packA bm 0x10 { minor := 4, d := d, a := a, b := b })
  | .div d a b => some (packA bm 0x10 { minor := 5, d := d, a := a, b := b })
  | .divn d a b => some (packA bm 0x10 { minor := 6, d := d, a := a, b := b })
  | .rem d a b => some (packA bm 0x10 { minor := 7, d := d, a := a, b := b })
  | .remn d a b => some (packA bm 0x10 { minor := 8, d := d, a := a, b := b })
  | .and d a b => some (packA bm 0x10 { minor := 9, d := d, a := a, b := b })
  | .or d a b => some (packA bm 0x10 { minor := 10, d := d, a := a, b := b })
  | .xor d a b => some (packA bm 0x10 { minor := 11, d := d, a := a, b := b })
  | .sll d a b => some (packA bm 0x10 { minor := 12, d := d, a := a, b := b })
  | .srl d a b => some (packA bm 0x10 { minor := 13, d := d, a := a, b := b })
  | .sra d a b => some (packA bm 0x10 { minor := 14, d := d, a := a, b := b })
  | .slt d a b => some (packA bm 0x10 { minor := 15, d := d, a := a, b := b })
  | .sltn d a b => some (packA bm 0x10 { minor := 16, d := d, a := a, b := b })
  | .min d a b => some (packA bm 0x10 { minor := 17, d := d, a := a, b := b })
  | .max d a b => some (packA bm 0x10 { minor := 18, d := d, a := a, b := b })
  | .minn d a b => some (packA bm 0x10 { minor := 19, d := d, a := a, b := b })
  | .maxn d a b => some (packA bm 0x10 { minor := 20, d := d, a := a, b := b })
  | .clz d a => some (packA bm 0x10 { minor := 21, d := d, a := a })
  | .ctz d a => some (packA bm 0x10 { minor := 22, d := d, a := a })
  | .popc d a => some (packA bm 0x10 { minor := 23, d := d, a := a })
  | .sext d a n1 => some (packA bm 0x10 { minor := 24, d := d, a := a, imm := 0#10 ++ n1 })
  | .zext d a n1 => some (packA bm 0x10 { minor := 25, d := d, a := a, imm := 0#10 ++ n1 })
  | .cmov d a b c => some (packA bm 0x10 { minor := 26, d := d, a := a, b := b, c := c })
  | .adds d a b => some (packA bm 0x10 { minor := 27, d := d, a := a, b := b })
  | .subs d a b => some (packA bm 0x10 { minor := 28, d := d, a := a, b := b })
  | .addi d a imm => some (packI bm 0x11 { minor := 0, d := d, a := a, imm := imm })
  | .andi d a imm => some (packI bm 0x11 { minor := 1, d := d, a := a, imm := imm })
  | .ori d a imm => some (packI bm 0x11 { minor := 2, d := d, a := a, imm := imm })
  | .xori d a imm => some (packI bm 0x11 { minor := 3, d := d, a := a, imm := imm })
  | .slli d a sh => some (packI bm 0x11 { minor := 4, d := d, a := a, imm := 0#26 ++ sh })
  | .srli d a sh => some (packI bm 0x11 { minor := 5, d := d, a := a, imm := 0#26 ++ sh })
  | .srai d a sh => some (packI bm 0x11 { minor := 6, d := d, a := a, imm := 0#26 ++ sh })
  | .slti d a imm => some (packI bm 0x11 { minor := 7, d := d, a := a, imm := imm })
  | .ldi d imm => some (packI bm 0x11 { minor := 8, d := d, imm := imm })
  | .ldih d imm => some (packI bm 0x11 { minor := 9, d := d, imm := imm })
  | .pcadd d imm => some (packI bm 0x11 { minor := 10, d := d, imm := imm })
  | .fadd d a b f => some (packA bm 0x12 { minor := 0, d := d, a := a, b := b, imm := 0#12 ++ f.code })
  | .fsub d a b f => some (packA bm 0x12 { minor := 1, d := d, a := a, b := b, imm := 0#12 ++ f.code })
  | .fmul d a b f => some (packA bm 0x12 { minor := 2, d := d, a := a, b := b, imm := 0#12 ++ f.code })
  | .fdiv d a b f => some (packA bm 0x12 { minor := 3, d := d, a := a, b := b, imm := 0#12 ++ f.code })
  | .ffma d a b c f => some (packA bm 0x12 { minor := 4, d := d, a := a, b := b, c := c, imm := 0#12 ++ f.code })
  | .fmin d a b f => some (packA bm 0x12 { minor := 5, d := d, a := a, b := b, imm := 0#12 ++ f.code })
  | .fmax d a b f => some (packA bm 0x12 { minor := 6, d := d, a := a, b := b, imm := 0#12 ++ f.code })
  | .fsqrt d a f => some (packA bm 0x12 { minor := 7, d := d, a := a, imm := 0#12 ++ f.code })
  | .fcmpeq d a b f => some (packA bm 0x12 { minor := 8, d := d, a := a, b := b, imm := 0#12 ++ f.code })
  | .fcmplt d a b f => some (packA bm 0x12 { minor := 9, d := d, a := a, b := b, imm := 0#12 ++ f.code })
  | .fcmple d a b f => some (packA bm 0x12 { minor := 10, d := d, a := a, b := b, imm := 0#12 ++ f.code })
  | .fcvt d a f k dir => some (packA bm 0x12 { minor := 11, d := d, a := a, imm := 0#7 ++ BitVec.ofBool dir ++ k.code ++ f.code })
  | .fclass d a f => some (packA bm 0x12 { minor := 12, d := d, a := a, imm := 0#12 ++ f.code })
  | .beq a b off => some (packB bm 0x18 { cond := 0, a := a, b := b, off := off })
  | .bne a b off => some (packB bm 0x18 { cond := 1, a := a, b := b, off := off })
  | .blt a b off => some (packB bm 0x18 { cond := 2, a := a, b := b, off := off })
  | .bge a b off => some (packB bm 0x18 { cond := 3, a := a, b := b, off := off })
  | .bltn a b off => some (packB bm 0x18 { cond := 4, a := a, b := b, off := off })
  | .bgen a b off => some (packB bm 0x18 { cond := 5, a := a, b := b, off := off })
  | .bz a off => some (packB bm 0x18 { cond := 6, a := a, off := off })
  | .bnz a off => some (packB bm 0x18 { cond := 7, a := a, off := off })
  | .jal d off => some (packI bm 0x19 { minor := 0, d := d, imm := off })
  | .jalr d a imm => some (packI bm 0x1a { minor := 0, d := d, a := a, imm := imm })
  | .dbnz a off => some (packB bm 0x1b { cond := 0, a := a, off := off })
  | .crd d cr => some (packS bm 0x20 { minor := 0, d := d, num := cr })
  | .cwr a cr => some (packS bm 0x20 { minor := 1, a := a, num := cr })
  | .cset d a cr => some (packS bm 0x20 { minor := 2, d := d, a := a, num := cr })
  | .cclr d a cr => some (packS bm 0x20 { minor := 3, d := d, a := a, num := cr })
  | .sys n => some (packS bm 0x20 { minor := 4, imm := n })
  | .brk n => some (packS bm 0x20 { minor := 5, imm := n })
  | .rdtime d => some (packS bm 0x20 { minor := 21, d := d })
  | .tmark a n => some (packS bm 0x20 { minor := 17, a := a, imm := n })
  | .dyn d a => some (packS bm 0x20 { minor := 11, d := d, a := a })
  | .arg d i => some (packS bm 0x20 { minor := 10, d := d, imm := 0#18 ++ i })
  | .wfld d k => some (packS bm 0x20 { minor := 9, d := d, imm := 0#21 ++ k })
  | .prio d a => some (packS bm 0x20 { minor := 8, d := d, a := a })
  | .bar n => some (packS bm 0x78 { minor := 0, imm := 0#21 ++ 0#1 ++ n })
  | .barPh d n => some (packS bm 0x78 { minor := 0, d := d, imm := 0#21 ++ 1#1 ++ n })
  | .sleep a => some (packS bm 0x78 { minor := 1, a := a })
  | .lnch d a q => some (packS bm 0x20 { minor := 18, d := d, a := a, imm := 0#18 ++ q })
  | .trap n => some (packS bm 0x20 { minor := 12, imm := n })
  | .ctxsv d a => some (packS bm 0x20 { minor := 14, d := d, a := a })
  | .ctxld d a => some (packS bm 0x20 { minor := 15, d := d, a := a })
  | .sfq d k => some (packS bm 0x20 { minor := 16, d := d, imm := 0#20 ++ 0#1 ++ k })
  | .sfqPop d k => some (packS bm 0x20 { minor := 16, d := d, imm := 0#20 ++ 1#1 ++ k })
  | .qput d a q => some (packS bm 0x20 { minor := 19, d := d, a := a, imm := 0#18 ++ q })
  | .sinvPage d a => some (packS bm 0x20 { minor := 20, d := d, a := a })
  | .sinvAll d => some (packS bm 0x20 { minor := 20, d := d, imm := 0#22 ++ 1#2 })
  | .sinvReport d => some (packS bm 0x20 { minor := 20, d := d, imm := 0#22 ++ 2#2 })
  | .vgr d a => some (packI bm 0x28 { minor := 0, d := d, a := a })
  | .vgq d a => some (packI bm 0x28 { minor := 1, d := d, a := a })
  | .vrel d => some (packI bm 0x28 { minor := 2, d := d })
  | .vrows d n => some (packI bm 0x28 { minor := 3, d := d, imm := 0#28 ++ n })
  | .vtype d f blk n => some (packI bm 0x28 { minor := 4, d := d, imm := 0#20 ++ n ++ 0#2 ++ blk ++ f.code })
  | .vaddFloat f d a b x e => some (packA bm 0x30 { minor := 0, d := vf d, a := vf a, b := vf b, x := flag x, xm := num x, e := flag e, pm := num e, imm := f.code ++ 0#12 })
  | .vsubFloat f d a b x e => some (packA bm 0x30 { minor := 1, d := vf d, a := vf a, b := vf b, x := flag x, xm := num x, e := flag e, pm := num e, imm := f.code ++ 0#12 })
  | .vmulFloat f d a b x e => some (packA bm 0x30 { minor := 2, d := vf d, a := vf a, b := vf b, x := flag x, xm := num x, e := flag e, pm := num e, imm := f.code ++ 0#12 })
  | .vfma f d a b c x e => some (packA bm 0x30 { minor := 3, d := vf d, a := vf a, b := vf b, c := vf c, x := flag x, xm := num x, e := flag e, pm := num e, imm := f.code ++ 0#12 })
  | .vfms f d a b c x e => some (packA bm 0x30 { minor := 4, d := vf d, a := vf a, b := vf b, c := vf c, x := flag x, xm := num x, e := flag e, pm := num e, imm := f.code ++ 0#12 })
  | .vdiv f d a b x e => some (packA bm 0x30 { minor := 5, d := vf d, a := vf a, b := vf b, x := flag x, xm := num x, e := flag e, pm := num e, imm := f.code ++ 0#12 })
  | .vsqrt f d a x e => some (packA bm 0x30 { minor := 6, d := vf d, a := vf a, x := flag x, xm := num x, e := flag e, pm := num e, imm := f.code ++ 0#12 })
  | .vminFloat f d a b x e => some (packA bm 0x30 { minor := 7, d := vf d, a := vf a, b := vf b, x := flag x, xm := num x, e := flag e, pm := num e, imm := f.code ++ 0#12 })
  | .vmaxFloat f d a b x e => some (packA bm 0x30 { minor := 8, d := vf d, a := vf a, b := vf b, x := flag x, xm := num x, e := flag e, pm := num e, imm := f.code ++ 0#12 })
  | .vabsFloat f d a x e => some (packA bm 0x30 { minor := 9, d := vf d, a := vf a, x := flag x, xm := num x, e := flag e, pm := num e, imm := f.code ++ 0#12 })
  | .vneg f d a x e => some (packA bm 0x30 { minor := 10, d := vf d, a := vf a, x := flag x, xm := num x, e := flag e, pm := num e, imm := f.code ++ 0#12 })
  | .vrcp f d a x e => some (packA bm 0x30 { minor := 11, d := vf d, a := vf a, x := flag x, xm := num x, e := flag e, pm := num e, imm := f.code ++ 0#12 })
  | .vrsqrt f d a x e => some (packA bm 0x30 { minor := 12, d := vf d, a := vf a, x := flag x, xm := num x, e := flag e, pm := num e, imm := f.code ++ 0#12 })
  | .vexp2 f d a x e => some (packA bm 0x30 { minor := 13, d := vf d, a := vf a, x := flag x, xm := num x, e := flag e, pm := num e, imm := f.code ++ 0#12 })
  | .vlog2 f d a x e => some (packA bm 0x30 { minor := 14, d := vf d, a := vf a, x := flag x, xm := num x, e := flag e, pm := num e, imm := f.code ++ 0#12 })
  | .vcmpeqFloat f d a b x e => some (packA bm 0x30 { minor := 15, d := mf d, a := vf a, b := vf b, x := flag x, xm := num x, e := flag e, pm := num e, imm := f.code ++ 0#12 })
  | .vcmpltFloat f d a b x e => some (packA bm 0x30 { minor := 16, d := mf d, a := vf a, b := vf b, x := flag x, xm := num x, e := flag e, pm := num e, imm := f.code ++ 0#12 })
  | .vcmple f d a b x e => some (packA bm 0x30 { minor := 17, d := mf d, a := vf a, b := vf b, x := flag x, xm := num x, e := flag e, pm := num e, imm := f.code ++ 0#12 })
  | .vcmpun f d a b x e => some (packA bm 0x30 { minor := 18, d := mf d, a := vf a, b := vf b, x := flag x, xm := num x, e := flag e, pm := num e, imm := f.code ++ 0#12 })
  | .vaddInt f d a b x e => some (packA bm 0x31 { minor := 0, d := vf d, a := vf a, b := vf b, x := flag x, xm := num x, e := flag e, pm := num e, imm := f.code ++ 0#12 })
  | .vsubInt f d a b x e => some (packA bm 0x31 { minor := 1, d := vf d, a := vf a, b := vf b, x := flag x, xm := num x, e := flag e, pm := num e, imm := f.code ++ 0#12 })
  | .vmulInt f d a b x e => some (packA bm 0x31 { minor := 2, d := vf d, a := vf a, b := vf b, x := flag x, xm := num x, e := flag e, pm := num e, imm := f.code ++ 0#12 })
  | .vmulh f d a b x e => some (packA bm 0x31 { minor := 3, d := vf d, a := vf a, b := vf b, x := flag x, xm := num x, e := flag e, pm := num e, imm := f.code ++ 0#12 })
  | .vadds f d a b x e => some (packA bm 0x31 { minor := 4, d := vf d, a := vf a, b := vf b, x := flag x, xm := num x, e := flag e, pm := num e, imm := f.code ++ 0#12 })
  | .vsubs f d a b x e => some (packA bm 0x31 { minor := 5, d := vf d, a := vf a, b := vf b, x := flag x, xm := num x, e := flag e, pm := num e, imm := f.code ++ 0#12 })
  | .vand f d a b x e => some (packA bm 0x31 { minor := 6, d := vf d, a := vf a, b := vf b, x := flag x, xm := num x, e := flag e, pm := num e, imm := f.code ++ 0#12 })
  | .vor f d a b x e => some (packA bm 0x31 { minor := 7, d := vf d, a := vf a, b := vf b, x := flag x, xm := num x, e := flag e, pm := num e, imm := f.code ++ 0#12 })
  | .vxor f d a b x e => some (packA bm 0x31 { minor := 8, d := vf d, a := vf a, b := vf b, x := flag x, xm := num x, e := flag e, pm := num e, imm := f.code ++ 0#12 })
  | .vsll f d a b x e => some (packA bm 0x31 { minor := 9, d := vf d, a := vf a, b := vf b, x := flag x, xm := num x, e := flag e, pm := num e, imm := f.code ++ 0#12 })
  | .vsrl f d a b x e => some (packA bm 0x31 { minor := 10, d := vf d, a := vf a, b := vf b, x := flag x, xm := num x, e := flag e, pm := num e, imm := f.code ++ 0#12 })
  | .vsra f d a b x e => some (packA bm 0x31 { minor := 11, d := vf d, a := vf a, b := vf b, x := flag x, xm := num x, e := flag e, pm := num e, imm := f.code ++ 0#12 })
  | .vminInt f d a b x e => some (packA bm 0x31 { minor := 12, d := vf d, a := vf a, b := vf b, x := flag x, xm := num x, e := flag e, pm := num e, imm := f.code ++ 0#12 })
  | .vmaxInt f d a b x e => some (packA bm 0x31 { minor := 13, d := vf d, a := vf a, b := vf b, x := flag x, xm := num x, e := flag e, pm := num e, imm := f.code ++ 0#12 })
  | .vcmpeqInt f d a b x e => some (packA bm 0x31 { minor := 14, d := mf d, a := vf a, b := vf b, x := flag x, xm := num x, e := flag e, pm := num e, imm := f.code ++ 0#12 })
  | .vcmpltInt f d a b x e => some (packA bm 0x31 { minor := 15, d := mf d, a := vf a, b := vf b, x := flag x, xm := num x, e := flag e, pm := num e, imm := f.code ++ 0#12 })
  | .vcmpltn f d a b x e => some (packA bm 0x31 { minor := 16, d := mf d, a := vf a, b := vf b, x := flag x, xm := num x, e := flag e, pm := num e, imm := f.code ++ 0#12 })
  | .vabsInt f d a x e => some (packA bm 0x31 { minor := 17, d := vf d, a := vf a, x := flag x, xm := num x, e := flag e, pm := num e, imm := f.code ++ 0#12 })
  | .vcvt f d a src x e => some (packA bm 0x32 { minor := 0, d := vf d, a := vf a, x := flag x, xm := num x, e := flag e, pm := num e, imm := f.code ++ (0#8 ++ src.code) })
  | .vq d a x e => some (packA bm 0x32 { minor := 1, d := vf d, a := vf a, x := flag x, xm := num x, e := flag e, pm := num e, imm := 14#4 ++ 0#12 })
  | .vdq f d a x e => some (packA bm 0x32 { minor := 2, d := vf d, a := vf a, x := flag x, xm := num x, e := flag e, pm := num e, imm := f.code ++ 0#12 })
  | .vscl d a => some (packA bm 0x32 { minor := 3, d := vf d, a := vf a, imm := 15#4 ++ 0#12 })
  | .vscw d a => some (packA bm 0x32 { minor := 4, d := vf d, a := vf a, imm := 15#4 ++ 0#12 })
  | .vmv d a e => some (packA bm 0x33 { minor := 0, d := vf d, a := vf a, e := flag e, pm := num e })
  | .vbc f d b e => some (packA bm 0x33 { minor := 1, d := vf d, b := b, e := flag e, pm := num e, imm := f.code ++ 0#12 })
  | .vid f d b e => some (packA bm 0x33 { minor := 2, d := vf d, b := b, e := flag e, pm := num e, imm := f.code ++ 0#12 })
  | .vsel d a b c e => some (packA bm 0x33 { minor := 3, d := vf d, a := vf a, b := vf b, c := mf c, e := flag e, pm := num e })
  | .vslu d a b e => some (packA bm 0x33 { minor := 4, d := vf d, a := vf a, b := b, e := flag e, pm := num e })
  | .vsld d a b e => some (packA bm 0x33 { minor := 5, d := vf d, a := vf a, b := b, e := flag e, pm := num e })
  | .vperm d a b e => some (packA bm 0x33 { minor := 6, d := vf d, a := vf a, b := vf b, e := flag e, pm := num e })
  | .vrow d a k e => some (packA bm 0x33 { minor := 7, d := vf d, a := vf a, e := flag e, pm := num e, imm := 0#4 ++ (0#9 ++ k) })
  | .vxs f d a b => some (packA bm 0x33 { minor := 8, d := d, a := vf a, b := b, imm := f.code ++ 0#12 })
  | .vins f d a b => some (packA bm 0x33 { minor := 9, d := vf d, a := a, b := b, imm := f.code ++ 0#12 })
  | .vamv d a b e => some (packA bm 0x33 { minor := 10, d := mf d, a := vf a, b := b, e := flag e, pm := num e })
  | .vmva d a b e => some (packA bm 0x33 { minor := 11, d := vf d, a := mf a, b := b, e := flag e, pm := num e })
  | .vredAdd f d a e => some (packA bm 0x34 { minor := 0, d := d, a := a.field, e := flag e, pm := num e, imm := f.code ++ 0#11 ++ a.flag })
  | .vredMax f d a e => some (packA bm 0x34 { minor := 1, d := d, a := a.field, e := flag e, pm := num e, imm := f.code ++ 0#11 ++ a.flag })
  | .vredMin f d a e => some (packA bm 0x34 { minor := 2, d := d, a := a.field, e := flag e, pm := num e, imm := f.code ++ 0#11 ++ a.flag })
  | .vcadd f d a b e => some (packA bm 0x34 { minor := 3, d := mf d, a := vf a, b := b, e := flag e, pm := num e, imm := f.code ++ 0#12 })
  | .vcmax f d a b e => some (packA bm 0x34 { minor := 4, d := mf d, a := vf a, b := b, e := flag e, pm := num e, imm := f.code ++ 0#12 })
  | .vsparse f d a c n => some (packA bm 0x34 { minor := 5, d := vf d, a := vf a, c := mf c, imm := f.code ++ (0#6 ++ 0#1 ++ n) })
  | .vsparseP f d a c n => some (packA bm 0x34 { minor := 5, d := vf d, a := vf a, c := mf c, imm := f.code ++ (0#6 ++ 1#1 ++ n) })
  | .vexpand d a c => some (packA bm 0x34 { minor := 6, d := vf d, a := vf a, c := mf c })
  | .mand d a b e => some (packA bm 0x35 { minor := 0, d := mf d, a := mf a, b := mf b, e := flag e, pm := num e })
  | .mor d a b e => some (packA bm 0x35 { minor := 1, d := mf d, a := mf a, b := mf b, e := flag e, pm := num e })
  | .mxor d a b e => some (packA bm 0x35 { minor := 2, d := mf d, a := mf a, b := mf b, e := flag e, pm := num e })
  | .mnot d a e => some (packA bm 0x35 { minor := 3, d := mf d, a := mf a, e := flag e, pm := num e })
  | .mpop d a e => some (packA bm 0x35 { minor := 4, d := d, a := mf a, e := flag e, pm := num e })
  | .mfirst d a e => some (packA bm 0x35 { minor := 5, d := d, a := mf a, e := flag e, pm := num e })
  | .mset d b e => some (packA bm 0x35 { minor := 6, d := mf d, b := b, e := flag e, pm := num e })
  | .ldB d base ix scale pol off => some (packM bm 0x40 { minor := 0, d := d, base := base, index := ix, scale := scale, pol := pol.code, off := off })
  | .ldH d base ix scale pol off => some (packM bm 0x40 { minor := 1, d := d, base := base, index := ix, scale := scale, pol := pol.code, off := off })
  | .ldW d base ix scale pol off => some (packM bm 0x40 { minor := 2, d := d, base := base, index := ix, scale := scale, pol := pol.code, off := off })
  | .ldD d base ix scale pol off => some (packM bm 0x40 { minor := 3, d := d, base := base, index := ix, scale := scale, pol := pol.code, off := off })
  | .ldBn d base ix scale pol off => some (packM bm 0x40 { minor := 4, d := d, base := base, index := ix, scale := scale, pol := pol.code, off := off })
  | .ldHn d base ix scale pol off => some (packM bm 0x40 { minor := 5, d := d, base := base, index := ix, scale := scale, pol := pol.code, off := off })
  | .ldWn d base ix scale pol off => some (packM bm 0x40 { minor := 6, d := d, base := base, index := ix, scale := scale, pol := pol.code, off := off })
  | .stB d base ix scale pol off => some (packM bm 0x40 { minor := 7, d := d, base := base, index := ix, scale := scale, pol := pol.code, off := off })
  | .stH d base ix scale pol off => some (packM bm 0x40 { minor := 8, d := d, base := base, index := ix, scale := scale, pol := pol.code, off := off })
  | .stW d base ix scale pol off => some (packM bm 0x40 { minor := 9, d := d, base := base, index := ix, scale := scale, pol := pol.code, off := off })
  | .stD d base ix scale pol off => some (packM bm 0x40 { minor := 10, d := d, base := base, index := ix, scale := scale, pol := pol.code, off := off })
  | .pf base ix scale pol off => some (packM bm 0x40 { minor := 11, base := base, index := ix, scale := scale, pol := pol.code, off := off })
  | .vld f d base ix scale pol off e => some (packM bm 0x41 { minor := 0, d := vf d, base := base, index := ix, scale := scale, pol := pol.code, e := flag e, pm := num e, off := f.code ++ off })
  | .vlds f d base ix scale pol off e => some (packM bm 0x41 { minor := 1, d := vf d, base := base, index := ix, scale := scale, pol := pol.code, e := flag e, pm := num e, off := f.code ++ off })
  | .vldx f d base ix scale pol off e => some (packM bm 0x41 { minor := 2, d := vf d, base := base, index := vf ix, scale := scale, pol := pol.code, e := flag e, pm := num e, off := f.code ++ off })
  | .vst f d base ix scale pol off e => some (packM bm 0x41 { minor := 3, d := vf d, base := base, index := ix, scale := scale, pol := pol.code, e := flag e, pm := num e, off := f.code ++ off })
  | .vsts f d base ix scale pol off e => some (packM bm 0x41 { minor := 4, d := vf d, base := base, index := ix, scale := scale, pol := pol.code, e := flag e, pm := num e, off := f.code ++ off })
  | .vstx f d base ix scale pol off e => some (packM bm 0x41 { minor := 5, d := vf d, base := base, index := vf ix, scale := scale, pol := pol.code, e := flag e, pm := num e, off := f.code ++ off })
  | .vsadd f d base ix scale sc off e => some (packM bm 0x41 { minor := 6, d := vf d, base := base, index := vf ix, scale := scale, scope := sc.code, e := flag e, pm := num e, off := f.code ++ off })
  | .vldT d base ix pol tid e => some (packM bm 0x41 { minor := 7, d := vf d, base := base, index := ix, pol := pol.code, e := flag e, pm := num e, off := 0#10 ++ tid })
  | .vstT d base ix pol tid e => some (packM bm 0x41 { minor := 8, d := vf d, base := base, index := ix, pol := pol.code, e := flag e, pm := num e, off := 0#10 ++ tid })
  | .amoAdd d base ix sz sc off => some (packM bm 0x48 { minor := 0, d := d, base := base, index := ix, scale := sz.code, scope := sc.code, off := off })
  | .amoAnd d base ix sz sc off => some (packM bm 0x48 { minor := 1, d := d, base := base, index := ix, scale := sz.code, scope := sc.code, off := off })
  | .amoOr d base ix sz sc off => some (packM bm 0x48 { minor := 2, d := d, base := base, index := ix, scale := sz.code, scope := sc.code, off := off })
  | .amoXor d base ix sz sc off => some (packM bm 0x48 { minor := 3, d := d, base := base, index := ix, scale := sz.code, scope := sc.code, off := off })
  | .amoMin d base ix sz sc off => some (packM bm 0x48 { minor := 4, d := d, base := base, index := ix, scale := sz.code, scope := sc.code, off := off })
  | .amoMax d base ix sz sc off => some (packM bm 0x48 { minor := 5, d := d, base := base, index := ix, scale := sz.code, scope := sc.code, off := off })
  | .amoMinn d base ix sz sc off => some (packM bm 0x48 { minor := 6, d := d, base := base, index := ix, scale := sz.code, scope := sc.code, off := off })
  | .amoMaxn d base ix sz sc off => some (packM bm 0x48 { minor := 7, d := d, base := base, index := ix, scale := sz.code, scope := sc.code, off := off })
  | .amoSwap d base ix sz sc off => some (packM bm 0x48 { minor := 8, d := d, base := base, index := ix, scale := sz.code, scope := sc.code, off := off })
  | .amoCas d base ix sz sc off => some (packM bm 0x48 { minor := 9, d := d, base := base, index := ix, scale := sz.code, scope := sc.code, off := off })
  | .amoFadd d base ix sc off => some (packM bm 0x48 { minor := 10, d := d, base := base, index := ix, scale := 2, scope := sc.code, off := off })
  | .amoLd d base sz sc off => some (packM bm 0x48 { minor := 11, d := d, base := base, scale := sz.code, scope := sc.code, off := off })
  | .amoSt base ix sz sc off => some (packM bm 0x48 { minor := 12, base := base, index := ix, scale := sz.code, scope := sc.code, off := off })
  | .wait d base ix sz sc off cond => some (packM bm 0x48 { minor := 13, d := d, base := base, index := ix, scale := sz.code, scope := sc.code, off := cond.code ++ off })
  | .ph d => some (packS bm 0x49 { minor := 0, d := d })
  | .phTimestamp d a => some (packS bm 0x49 { minor := 0, d := d, a := a, imm := 0#23 ++ 1#1 })
  | .phA d => some (packS bm 0x49 { minor := 1, d := d })
  | .fx dst frm => some (packS bm 0x49 { minor := 2, imm := 0#18 ++ frm.code ++ dst.code })
  | .opa f d a b c c16 => some (packA bm 0x50 { minor := 0, d := mf d, a := mf a, b := vf b, c := c, imm := f.code ++ (0#11 ++ BitVec.ofBool c16) })
  | .tfold d a b c ka kv => some (packA bm 0x50 { minor := 1, d := mf d, a := mf a, b := vf b, c := c, imm := 0#4 ++ (0#6 ++ kv ++ ka) })
  | .tclr d a mask => some (packA bm 0x50 { minor := 2, d := d, a := mf a, imm := 0#4 ++ (0#9 ++ mask) })
  | .tld f d a b c row0 => some (packA bm 0x50 { minor := 3, d := mf d, a := a, b := b, c := c, imm := f.code ++ (0#6 ++ row0) })
  | .tst f d a b c row0 => some (packA bm 0x50 { minor := 4, d := mf d, a := a, b := b, c := c, imm := f.code ++ (0#6 ++ row0) })
  | .tmv f d a c row0 e => some (packA bm 0x50 { minor := 5, d := vf d, a := mf a, c := c, e := flag e, pm := num e, imm := f.code ++ (0#6 ++ row0) })
  | .tadd f d b c row0 e => some (packA bm 0x50 { minor := 6, d := mf d, b := vf b, c := c, e := flag e, pm := num e, imm := f.code ++ (0#6 ++ row0) })
  | .cpw flg src dst len ch => some (packA bm 0x58 { minor := 0, d := flg, a := src, b := dst, c := len, imm := 0#14 ++ ch })
  | .cpgo d ch => some (packA bm 0x58 { minor := 1, d := d, imm := 0#14 ++ ch })
  | .cwait d a ch => some (packA bm 0x58 { minor := 2, d := d, a := a, imm := 0#14 ++ ch })
  | .cpst d a ch => some (packA bm 0x58 { minor := 3, d := d, a := a, imm := 0#14 ++ ch })
  | .tdef d a b c tid => some (packA bm 0x58 { minor := 4, d := d, a := vf a, b := b, c := c, imm := 0#8 ++ tid })
  | .tdrop tid => some (packA bm 0x58 { minor := 5, imm := 0#8 ++ tid })
  | .tget d tid k => some (packA bm 0x58 { minor := 6, d := d, imm := 0#3 ++ k ++ tid })
  | .rinit d a b c n => some (packA bm 0x58 { minor := 7, d := d, a := a, b := b, c := c, imm := 0#12 ++ n })
  | .rget d n => some (packA bm 0x58 { minor := 8, d := d, imm := 0#11 ++ 0#1 ++ n })
  | .rgetNw d n => some (packA bm 0x58 { minor := 8, d := d, imm := 0#11 ++ 1#1 ++ n })
  | .rrel n => some (packA bm 0x58 { minor := 9, imm := 0#12 ++ n })
  | .xins f d a b c e => some (packA bm 0x60 { minor := 0, d := d, a := vf a, b := vf b, c := mf c, e := flag e, pm := num e, imm := f.code ++ 0#12 })
  | .xacc f d a b c e => some (packA bm 0x60 { minor := 1, d := d, a := vf a, b := vf b, c := mf c, e := flag e, pm := num e, imm := f.code ++ 0#12 })
  | .xlook f d a c e => some (packA bm 0x60 { minor := 2, d := vf d, a := vf a, c := mf c, e := flag e, pm := num e, imm := f.code ++ 0#12 })
  | .xdel d a c e => some (packA bm 0x60 { minor := 3, d := d, a := vf a, c := mf c, e := flag e, pm := num e })
  | .xdrain f d a b => some (packA bm 0x60 { minor := 4, d := d, a := vf a, b := vf b, imm := f.code ++ 0#12 })
  | .xcnt d sel => some (packA bm 0x60 { minor := 5, d := d, imm := 0#4 ++ (0#11 ++ BitVec.ofBool sel) })
  | .xclr d => some (packA bm 0x60 { minor := 6, d := d })
  | .kxdef d a kx => some (packA bm 0x68 { minor := 0, d := d, a := a, imm := 0#4 ++ (0#4 ++ kx) })
  | .kxprj d b c kx => some (packA bm 0x68 { minor := 1, d := d, b := b, c := c, imm := 0#4 ++ (0#4 ++ kx) })
  | .kst d a b c kx => some (packA bm 0x68 { minor := 2, d := mf d, a := vf a, b := b, c := c, imm := 0#4 ++ (0#4 ++ kx) })
  | .ksig d a c kx => some (packA bm 0x68 { minor := 3, d := mf d, a := vf a, c := c, imm := 0#4 ++ (0#4 ++ kx) })
  | .kga d a b c kx k => some (packA bm 0x68 { minor := 4, d := vf d, a := mf a, b := b, c := c, imm := 0#4 ++ (0#1 ++ k ++ kx) })
  | .kgaU d a b c kx k => some (packA bm 0x68 { minor := 4, d := vf d, a := mf a, b := b, c := c, imm := 0#4 ++ (1#1 ++ k ++ kx) })
  | .kxst d kx sel => some (packA bm 0x68 { minor := 5, d := d, imm := 0#4 ++ (0#1 ++ sel ++ kx) })
  | .kxstClr d kx sel => some (packA bm 0x68 { minor := 5, d := d, imm := 0#4 ++ (1#1 ++ sel ++ kx) })
  | .kxclr d kx => some (packA bm 0x68 { minor := 6, d := d, imm := 0#4 ++ (0#4 ++ kx) })
  | .gadd d a b => some (packA bm 0x70 { minor := 0, d := d, a := a, b := b, imm := 3#4 ++ 0#12 })
  | .vgadd f d a b c e => some (packA bm 0x70 { minor := 1, d := d, a := a, b := vf b, c := vf c, e := flag e, pm := num e, imm := f.code ++ 0#12 })
  | .gld d a b e => some (packA bm 0x70 { minor := 2, d := vf d, a := a, b := vf b, e := flag e, pm := num e, imm := 3#4 ++ 0#12 })
  | .gest d a b e => some (packA bm 0x70 { minor := 3, d := vf d, a := a, b := vf b, e := flag e, pm := num e, imm := 14#4 ++ 0#12 })
  | .gw d a => some (packA bm 0x70 { minor := 4, d := d, a := a })
  | .gspr d n => some (packA bm 0x70 { minor := 5, d := d, imm := 0#4 ++ (0#8 ++ n) })
  | .gstep d a n => some (packA bm 0x70 { minor := 6, d := d, a := a, imm := 0#4 ++ (0#8 ++ n) })
  | .pairWord b0 s0 b1 s1 => some (packPair b0 s0 b1 s1)
  | .gquiet n => some (packA bm 0x70 { minor := 7, imm := 0#4 ++ (0#8 ++ n) })
  | .gctlDefine d a n => some (packA bm 0x70 { minor := 8, d := d, a := a, imm := 0#4 ++ (0#6 ++ 0#2 ++ n) })
  | .gctlUndefine d a n => some (packA bm 0x70 { minor := 8, d := d, a := a, imm := 0#4 ++ (0#6 ++ 1#2 ++ n) })
  | .gctlStatus d a n => some (packA bm 0x70 { minor := 8, d := d, a := a, imm := 0#4 ++ (0#6 ++ 2#2 ++ n) })
  | .gctlStatusClear d a n => some (packA bm 0x70 { minor := 8, d := d, a := a, imm := 0#4 ++ (0#6 ++ 3#2 ++ n) })
  | .yield => some (packS bm 0x20 { minor := 7 })
  | .exit => some (packS bm 0x20 { minor := 6 })
  | .tretGroup => some (packS bm 0x20 { minor := 13 })
  | .tretLaunch => some (packS bm 0x20 { minor := 13, imm := 0#22 ++ 1#2 })
  | .tretRestart => some (packS bm 0x20 { minor := 13, imm := 0#22 ++ 2#2 })
  | .tretResume => some (packS bm 0x20 { minor := 13, imm := 0#22 ++ 3#2 })
  | .sdrain => some (packM bm 0x41 { minor := 9 })
  | .fence => some (packS bm 0x49 { minor := 3 })
  | .sleepDeadline _ => none
  | .storeFaultReport _ => none
  | .waitSatisfied _ => none
  | .orderedCommitTurn _ => none
  | .firmwareCommit _ => none
  | .copyTransferComplete _ _ _ => none
  | .copyErrorCompletion _ _ _ _ => none
  | .ringSlotFill _ _ => none
  | .powerPeriodBoundary _ => none
  | .laneHoldLimitExpiry _ => none
  | .currentAlarm _ => none
  | .thermalStepTick _ _ => none
  | .envelopeSet _ _ => none
  | .packetLaunch _ _ => none
  | .groupPlacement _ _ _ => none
  | .dresserEvaluation _ _ => none
  | .launchRetirement _ => none
  | .digestRegister _ _ _ => none
  | .eviction _ => none
  | .groupReplacement _ _ _ => none
  | .preemption _ => none
  | .contextResume _ _ => none
  | .tileLazySave _ _ => none
  | .tileReload _ _ => none
  | .pageFaultService _ _ _ => none
  | .shootdown _ _ => none
  | .pageMigration _ _ _ => none
  | .migrationComplete _ _ => none
  | .linkCrcReplay _ _ _ _ => none
  | .scrubRead _ _ => none
  | .doorbellWrite _ _ _ => none
  | .doorbellEntryProcess _ => none
  | .qcfgWrite _ _ _ => none
  | .hostRegisterWrite _ _ _ _ => none
  | .packetNop _ _ => none
  | .packetWaitValue _ _ => none
  | .waitValueComplete _ _ => none
  | .packetWriteValue _ _ => none
  | .packetCond _ _ => none
  | .packetLoop _ _ => none
  | .packetIndirect _ _ => none
  | .indirectFetchAhead _ _ => none
  | .packetFetchFence _ _ => none
  | .packetCopy _ _ => none
  | .packetTimestamp _ _ => none
  | .hostRead _ _ _ => none
  | .hostWrite _ _ _ => none
  | .gossipExchange _ _ _ => none
  | .gossipReceipt _ _ => none
  | .gossipAck _ _ _ => none
  | .gossipRefusalNotice _ _ _ => none
  | .gossipRetransmit _ _ _ => none
  | .gossipAddBackRetry _ _ _ => none
  | .portLost _ _ _ _ => none
  | .peerRequest _ _ _ => none
  | .breakpointStop _ => none
  | .singleStep _ _ => none
  | .debuggerResume _ _ => none
  | .mgmtCoreRestart _ => none
  | .mailboxMessage _ _ _ => none
  | .recordStart _ _ => none
  | .logDrain _ _ _ => none
  | .cerrClear _ _ => none
  | .sealedMessage _ _ _ => none
  | .attestationReport _ _ => none
  | .sealedRegionRelease _ => none
  | .packageReset => none
  | .lifeCycleChange _ => none
  | .elementGroupAdvance _ => none
  | .storePerformed _ => none
  | .hostLinkLost => none
  | .cxlLinkDown _ _ => none
  | .storedDataError _ => none
  | .breakpointSet _ _ _ => none
  | .debuggerInterrupt _ => none
  | .traceEnable _ _ _ _ => none
  | .budgetSet _ _ _ => none
  | .powerFirmwareLimitsSet _ _ _ => none
  | .partitionSetup _ => none

end Sys2Proof
end

