-- ==== Sys2Proof/Config.lean ====
section
/-!
DEFINITION. What an implementation or its surroundings fix and the spec leaves open: free values (constants without a
body, so that nothing can be proved of their values) and the outside functions that the spec names and does not define.
Each is named in the assumption log.
-/

namespace Sys2Proof.Config

/-- The time, in ns, that passes at the n-th step of the machine, less one (log 2). -/
opaque elapsed : Nat → Nat
/-- A free 64-bit value, one for each value of the counter `free` (log 3). -/
opaque freeWord : Nat → BitVec 64
/-- What a device-class page answers to a load (R231, log 13). -/
opaque deviceByte : Nat → BitVec 8
/-- How many of the racing non-versioned writes to a sector a load sees, by load and sector (R254, log 14). -/
opaque race : Nat → Nat → Nat
/-- Whether an access uses a translation that its TLB still holds where the tables have changed since and no shootdown
has completed, by step and page (R223, R225, log 19). -/
opaque staleTlb : Nat → Nat → Bool
/-- A destination sector of an error-completed copy holds its old value or the copy's (R300, log 15). -/
opaque torn : Nat → Bool
/-- The opening of a sealed message, by the generation of the package key, the associated data and the ciphertext: none where
its tag fails (R468, log 16). -/
opaque openSealed : Nat → List (BitVec 8) → List (BitVec 8) → Option (List (BitVec 8))
/-- How many words the kernel of a launch header has, which the header does not say (R468, log 16). -/
opaque codeWords : List (BitVec 64) → Nat
/-- What a peer package answers to the n-th atomic or wait sent to it: the old value, or none where it refuses the
address (R267, R451, log 22). -/
opaque peerReply : Nat → Option (BitVec 64)
/-- A request to a peer package is not answered yet at the n-th time its answer is looked for (R452, log 22). -/
opaque peerSilent : Nat → Bool
/-- The n-th signature under a package key over a digest: r, then s (R470, log 16). -/
opaque signature : Nat → Nat → List (BitVec 8) → BitVec 768
/-- A byte of a frame or of a save area, whose contents the spec gives no layout (R134, R278, log 46). -/
opaque areaByte : Nat → Nat → BitVec 8
/-- The identity word of the firmware's release (R395, log 17). -/
opaque firmwareRelease : BitVec 32
/-- A measured event of the power controller: a cost below the least of a format is raised to it (R167, log 18). -/
opaque costMin : Fmt → Nat
/-- The number of this package in its fabric (R259, log 12). -/
opaque packageNumber : BitVec 14

end Sys2Proof.Config
end

