-- ==== Sys2Proof/Machine/Sparse.lean ====
section
/-!
DEFINITION. Tables held as plain data: association lists from a natural number, kept in rising order of their keys, and
sparse register files in which a value of zero has no entry. Two tables in canonical form (`AMap.sorted`, `Sparse.wf`)
that read the same are the same data.
-/

namespace Sys2Proof.Machine

/-- A table from numbers to values. -/
abbrev AMap (α : Type) := List (Nat × α)

/-- The value at a key. -/
def AMap.find? {α : Type} : AMap α → Nat → Option α
  | [], _ => none
  | (k, v) :: t, i => if k = i then some v else AMap.find? t i

/-- The table without a key. -/
def AMap.erase {α : Type} : AMap α → Nat → AMap α
  | [], _ => []
  | (k, v) :: t, i => if k = i then AMap.erase t i else (k, v) :: AMap.erase t i

/-- Places an entry before the first larger key. -/
def AMap.insert {α : Type} : AMap α → Nat → α → AMap α
  | [], i, x => [(i, x)]
  | (k, v) :: t, i, x => if i < k then (i, x) :: (k, v) :: t else (k, v) :: AMap.insert t i x

/-- The table with a key's value set. -/
def AMap.put {α : Type} (m : AMap α) (i : Nat) (x : α) : AMap α := (m.erase i).insert i x

/-- Keys strictly rise. -/
def AMap.sorted {α : Type} : AMap α → Bool
  | [] => true
  | [_] => true
  | (k, _) :: (k', v') :: t => decide (k < k') && AMap.sorted ((k', v') :: t)

/-- A register file in which an absent entry reads zero. -/
abbrev Sparse (w : Nat) := AMap (BitVec w)

/-- The value at an index, zero where there is no entry. -/
def Sparse.get {w : Nat} (m : Sparse w) (i : Nat) : BitVec w := (AMap.find? m i).getD 0

/-- The file with an index's value set; zero removes the entry. -/
def Sparse.set {w : Nat} (m : Sparse w) (i : Nat) (x : BitVec w) : Sparse w :=
  if x = 0 then AMap.erase m i else AMap.put m i x

/-- No entry holds zero. -/
def Sparse.noZero {w : Nat} : Sparse w → Bool
  | [] => true
  | (_, x) :: t => (x != 0) && Sparse.noZero t

/-- Canonical: keys strictly rise and no entry holds zero. -/
def Sparse.wf {w : Nat} (m : Sparse w) : Bool := AMap.sorted m && Sparse.noZero m

/-- Keeps the entries whose key satisfies a test. -/
def AMap.keep {α : Type} (p : Nat → Bool) : AMap α → AMap α
  | [] => []
  | (k, v) :: t => if p k then (k, v) :: AMap.keep p t else AMap.keep p t

end Sys2Proof.Machine
end

