-- ==== Sys2Proof/Machine/State.lean ====
section
/-!
DEFINITION. The state of one package: its harts, cores, dies, memory, launches, partitions and queues, gossip regions
and ports, and what the outside sees of it; the reasons a step can stop; and the state after reset. Plain data.
-/

namespace Sys2Proof.Machine

/-- Reasons a step stops with a fault. Exceptions of the architecture are no faults of the model: they are next
states. -/
inductive Fault where
  /-- Raised by an instruction executed, or a step taken, while no hart stands on the front end that issues. Safe: the
  machine as the spec describes it executes nothing then. -/
  | noHart
  deriving DecidableEq, Repr

/-- Reasons a step is refused. -/
inductive Refusal where
  /-- Raised by an arm of `exec` that has no meaning yet; names the instruction. Safe. -/
  | notModelled (mnemonic : String)
  /-- Raised by an event whose conditions the spec states and the state does not meet, so that the event cannot occur;
  names the event. Safe. -/
  | notEnabled (mnemonic : String)
  deriving DecidableEq, Repr

/-- The two parts (R1). -/
inductive Part where
  | tl460 | tl430
  deriving DecidableEq, Repr

/-- A tensor layout (R308). A dimension at or above `dims` has extent 1 and stride 0. -/
structure Tensor where
  base : Word
  fmt : Fmt
  blk : BitVec 2
  sbase : Word
  dims : Nat
  ext : List Nat
  st : List Int
  deriving DecidableEq, Repr

/-- A load for the choices of R254: its number, and the place in the order of writes up to which it may see the writes that
race with it. -/
structure Look where
  id : Nat
  upto : Nat
  deriving DecidableEq, Repr

/-- A queued vector or matrix instruction (R145, R203, R238): the instruction, its original PC and iteration vector,
the scalars read at entry, the shape and formats with which it entered, its position and running values, and for the choice
of R130 the place of its entry in the sequencer and the time at which it entered or was last served. It is one load for
R254: `look`. `call` says that a service call whose handler runs came after it (R160). -/
structure VOp where
  i : Instr
  opc : Word
  iter : Word
  at_ : Nat
  ga : Word
  gb : Word
  gc : Word
  vl : Nat
  nr : Nat
  fmt : Fmt
  blk : BitVec 2
  len : Nat
  pos : Nat
  acc : Word
  acc2 : Word
  aux : AMap Word
  tensor : Option Tensor
  entered : Nat
  served : Nat
  look : Look
  call : Bool
  deriving DecidableEq, Repr

/-- The tracked position of a register: in flight, and positions completed (R197). -/
structure Progress where
  act : Bool
  cnt : BitVec 14
  deriving DecidableEq, Repr

/-- A started transfer of a copy channel (R297): its captured settings, the ring and slot it fills, and the bytes it
has still to move under the budget (R21). -/
structure Transfer where
  id : Nat
  src : Word
  dst : Word
  len : Word
  flg : Word
  tensor : Option Tensor
  ring : Option Nat
  slot : Option Nat
  todo : Nat
  deriving DecidableEq, Repr

/-- A copy channel (R295): shadow registers, next id, done, error records, transfers in flight, and the outcome of the
ids completed (kind 0 means without error), and the bytes left of this period's budget, below zero where the last unit
overdrew it (R22, R23). -/
structure Channel where
  src : Word
  dst : Word
  len : Word
  flg : Word
  next : Nat
  done : Nat
  errVal : Bool
  errKind : Nat
  errCnt : Nat
  errId : Nat
  loVal : Bool
  loId : Nat
  flight : List Transfer
  ended : List (Nat × Nat)
  left : Int
  deriving DecidableEq, Repr

/-- Where the contents of a tile or a slice lie (R278, R321): in the store of the core; saved at a physical address; or lost,
the reload having met an uncorrectable error at a line, given by its address. -/
inductive Place where
  | here
  | away (pa : Nat)
  | failed (line : Nat)
  deriving DecidableEq, Repr

/-- A tile (R275): partial plane, accumulator plane, flags, and where its contents lie (R278). -/
structure Tile where
  p : Sparse 48
  a : Sparse 32
  ovf : Bool
  void : Bool
  place : Place
  deriving DecidableEq, Repr

/-- The register part of a hart that the handler frame holds whole and restores (R392, R398). Keys: strip slots and
masks at register × 8192 + row × 1024 + position, companions likewise by block, anchored slots at register × 512 +
row × 64 + slot; progress indices 0 to 31 for pi.v, 32 to 39 for tix. -/
structure Ctx where
  pc : Word
  resid : Option Nat
  iter : Word
  g : Sparse 64
  v : Sparse 32
  m : Sparse 1
  sc : Sparse 8
  a : Sparse 32
  vl : Nat
  nr : BitVec 4
  fmt : Fmt
  blk : BitVec 2
  rm : BitVec 3
  fflags : BitVec 5
  vbeg : Option Nat
  held : Word
  thb : Word
  thmask : BitVec 3
  fpk : BitVec 14
  prio : Nat
  deriving DecidableEq, Repr

/-- The phase frame (R258, R473), with the residual position at which it was recorded and whether the hart ran its
handler then. -/
structure PhaseFrame where
  pc : Word
  iter : Word
  resid : Option Nat
  hdl : Bool
  g : Sparse 64
  a : Sparse 32
  rm : BitVec 3
  fflags : BitVec 5
  nr : BitVec 4
  fmt : Fmt
  blk : BitVec 2
  prio : Nat
  fpk : BitVec 14
  pts : Word
  firmware : Bool
  deriving DecidableEq, Repr

/-- The trap registers (R388) but for tfb, thb and thmask. -/
structure TrapRegs where
  hdl : Bool
  term : Bool
  code : BitVec 8
  topc : Word
  tspc : Word
  titer : Word
  tval : Word
  tphn : BitVec 32
  tfpc : Word
  tlag : BitVec 32
  tpts : Word
  deriving DecidableEq, Repr

/-- A store-fault record (R245). -/
structure StoreFault where
  addr : Word
  opc : Word
  iter : Word
  w3 : Word
  deriving DecidableEq, Repr

/-- A retired scalar store that is not yet performed (R233): address, bytes, original PC, iteration vector, the count
of retired instructions after it, and a fault already serviced. -/
structure PendingStore where
  ea : Word
  bytes : List Byte
  opc : Word
  iter : Word
  at_ : Nat
  deriving DecidableEq, Repr

/-- A watched word (R269): physical address, size in bytes, condition, operand. -/
structure Watch where
  pa : Nat
  size : Nat
  cond : WCond
  x : Word
  deriving DecidableEq, Repr

/-- The wait a hart stands in (R124 and the waits of single instructions). -/
inductive WaitKind where
  /-- `wait` on a word, with the satisfying value once the word has held one, and the number of the last commit then
  (R269, R273). -/
  | word (w : Watch) (got : Option (Word × Nat))
  /-- bar and bar.ph at a barrier; whether it was released, and the commit number that bar.ph writes to gd (R140). -/
  | bar (n : Nat) (released : Bool) (commit : Option Nat)
  | cwait
  | rget
  | gstep
  /-- sleep until a deadline in ns (R142). -/
  | sleep (deadline : Nat)
  | lnch
  /-- `qput` with the packet read and the queue found in use, waiting for room (R447). -/
  | qput (q : Nat) (words : List Word)
  /-- `gquiet` on a region, and whether nothing of it has been outstanding at some instant since (R431). -/
  | gquiet (n : Nat) (quiet : Bool)
  /-- A fabric-scope atomic, or `wait`, at another package, by its port and number (R267, R452); for the atomic it is no
  architected wait. -/
  | peer (amo : Bool) (port seq : Nat)
  /-- An ordered task waiting to be the oldest, at ph or exit (R261). -/
  | turn
  /-- ctxsv, while a target that it has stopped waits for a page of a store of its own; no architected wait (R397, R401). -/
  | save (h : Nat)
  /-- A gossip instruction of an ordered task waiting to be the oldest; no architected wait (R423, R431). -/
  | gossipTurn
  deriving DecidableEq, Repr

/-- Where a hart stopped for a debugger (R161, R379, R404): at a plain boundary, before the word of a breakpoint, or at a
brk, from which it goes on at the next word. -/
inductive StopAt where
  | plain
  | point
  | brk
  deriving DecidableEq, Repr

/-- The access for which a hart is swapped out (R238, R245): the address of the faulting byte, the first byte and the size
of the access, whether the fault is a page-table error, whether it is a retired store's, whether it goes through the L1
slices, and the instruction: original PC, iteration vector, sweep index, and the count of retired instructions at it. -/
structure PageWait where
  ea : Word
  lo : Word
  size : Nat
  err : Bool
  store : Bool
  slices : Bool
  opc : Word
  iter : Word
  elem : Nat
  at_ : Nat
  deriving DecidableEq, Repr

/-- How a hart stands. -/
inductive HStatus where
  /-- No hart stands here. -/
  | absent
  /-- Placed, waiting for the Dresser's residual code (R365). -/
  | pending
  | running
  /-- Saved by a pre-emption, an eviction or ctxsv (R397). -/
  | saved
  /-- Swapped out on a page fault (R238, R391). -/
  | swapped (w : PageWait)
  /-- Stopped for a debugger (R404). -/
  | stopped (at_ : StopAt)
  | exited
  deriving DecidableEq, Repr

/-- A deferred effect of an ordered task, performed after its version at commit (R274). `copy` keeps the place in program
order of a transfer whose data is not yet read; `cells` and `peer` take it: address, byte and the bits written. -/
inductive Deferred where
  | fadd (va pa : Nat) (x : BitVec 32)
  | bytes (tst : Bool) (pa : Nat) (bs : List Byte)
  | peer (pkg : Nat) (va : Nat) (bs : List Byte)
  | fabric (pkg : Nat) (va : Nat) (x : BitVec 32)
  | gadd (reg page word : Nat) (x : Word)
  | copy (ch id : Nat)
  | cells (cs : List (Nat × Byte × Byte))
  deriving DecidableEq, Repr

/-- A key-index intent held with the version, in program order (R343 to R345): an insertion, a clear, a definition. -/
inductive KxIntent where
  | ins (kx head token : Nat) (sigs : List Nat)
  | clr (kx : Nat)
  | def_ (kx : Nat) (desc : List Word) (layout : Tensor) (pages : List Nat)
  deriving DecidableEq, Repr

/-- A definition of a tensor id held with the version; none drops it (R308). -/
structure HeldDef where
  tid : Nat
  layout : Option Tensor
  deriving DecidableEq, Repr

/-- An entry of the index scratchpad in rank order (R322). -/
structure XEntry where
  key : Word
  val : Word
  deriving DecidableEq, Repr

/-- What a word of residual code is: an emitted instruction, or the first word of one whose slots are several (R369); the
first word that an evaluated instruction leaves (R366); a further word of the same instance, before which nothing stops
(R76, R380); a jump to shared code (R368); or a transfer into the original code (R372). -/
inductive ResidKind where
  | instr | mat | more | jump | leave
  deriving DecidableEq, Repr

/-- A word of residual code (R371, R378): the word, the original PC it stands for, its iteration vector, and what it is. -/
structure Resid where
  word : Word
  opc : Word
  iter : Word
  kind : ResidKind
  deriving DecidableEq, Repr

/-- The handler frame (R392): the registers, the instruction queue, the progress indices, the retired stores not yet
performed, the channels' shadow registers and the trap registers as they stood at the fault. -/
structure HFrame where
  ctx : Ctx
  vq : List VOp
  prog : AMap Progress
  spx : Progress
  sq : List PendingStore
  shadow : List (Word × Word × Word × Word)
  trap : TrapRegs
  deriving DecidableEq, Repr

/-- What a hart owes before it does anything else (R257, R460, R461): the snapshot of a phase that has begun, which the
record log has still to take; or the firmware commit of a version whose snapshot is lost. -/
inductive Due where
  | nothing
  | snapshot
  | commit
  deriving DecidableEq, Repr

/-- A hart. -/
structure Hart where
  hid : Nat
  status : HStatus
  lid : Nat
  grp : Nat
  idx : Nat
  part : Nat
  core : Nat
  slot : Nat
  -- launch constants (R112, R133)
  weight : Nat
  strict : Bool
  ordered : Bool
  coplace : Bool
  priv : Bool
  hpg : Nat
  widths : List Nat
  args : List Word
  nargs : Nat
  lprio : Nat
  tw : Nat
  ntiles : Nat
  xcap : Nat
  vcap : Nat
  cbud : Nat
  sealed : Option Nat
  wid : Word
  -- registers
  ctx : Ctx
  hframe : Option HFrame
  vq : List VOp
  prog : AMap Progress
  spx : Progress
  sq : List PendingStore
  wait : Option WaitKind
  since : Nat
  /-- A versioned write of an ordered task over its cap waits to be committed in place, and since when (R257). -/
  capWait : Option Nat
  /-- The access for which the hart was swapped out, done first when it resumes (R238). -/
  redo : Option PageWait
  /-- A terminating trap found while the hart was saved, taken at the first boundary after its resume: code, tval, tfpc,
  and the count of instructions retired after the store (R397). -/
  owed : Option (Nat × Word × Word × Nat)
  trap : TrapRegs
  tfb : Word
  sfq : List StoreFault
  sfHeld : List StoreFault
  -- phase (R249 to R259)
  phn : BitVec 32
  pts : Word
  cmn : Nat
  snapSeq : Nat
  lost : Nat
  abrt : Nat
  ovf : Bool
  ver : AMap Byte
  /-- The deferred effects with their place in program order (R274). -/
  defer : List (Nat × Deferred)
  intents : List KxIntent
  defs : List HeldDef
  reads : List (Nat × Nat)
  frame : PhaseFrame
  /-- In replay: the commit of a ph whose snapshot is still awaited (R461). -/
  half : Option Nat
  due : Due
  /-- A full stream of the record log holds the hart at its instruction (R460). -/
  logWait : Bool
  -- units
  chans : List Channel
  tiles : List Tile
  xents : List XEntry
  xPlace : Place
  /-- The tile and slice allotment is held on the core; a lazy save gives it up (R278). -/
  room : Bool
  -- power (R167, R174, R186)
  offer : Nat
  req : Nat
  hstep : Nat
  overSince : Option Nat
  /-- A saved hart waits to resume on this core, and counts there (R399). -/
  target : Option Nat
  /-- The offer was computed since the hart's save (R184). -/
  offered : Bool
  -- issue (R138), single step and skid counters
  /-- The ready harts that still issue before a hart that yielded, and the time up to which it waits for them (R138). -/
  owes : List Nat
  owesTill : Nat
  retired : Nat
  mark : Bool
  stepping : Option Bool
  stepPc : Word
  stepIter : Word
  code : List Resid
  pass : Bool
  rdexp : Word
  rdact : Word
  evts : List (Nat × Nat × Nat)
  deriving DecidableEq, Repr

/-- An entry of a lane allocation table (R170). -/
structure LatEntry where
  held : Bool
  owner : BitVec 3
  mark : Bool
  ear : BitVec 3
  deriving DecidableEq, Repr

/-- A ring of stage memory (R314). -/
structure Ring where
  lid : Nat
  grp : Nat
  off : Nat
  size : Nat
  count : Nat
  claimed : Nat
  filled : Nat
  taken : Nat
  claimPos : Nat
  readPos : Nat
  wrote : List Nat
  waiters : List (Nat × Nat × Nat)
  deriving DecidableEq, Repr

/-- A resident projection unit (R351): its partition, index, head and table, the base and width of its definition, and the
words it was loaded with. -/
structure ProjUnit where
  part : Nat
  kx : Nat
  head : Nat
  table : Nat
  pbase : Nat
  b : Nat
  words : List Word
  deriving DecidableEq, Repr

/-- A core: lane allocation table, stage memory, rings, projection units (most recent first), and the order of the
round robin (R138). -/
structure Core where
  lat : List LatEntry
  stage : Sparse 8
  rings : AMap Ring
  proj : List ProjUnit
  order : List Nat
  deriving DecidableEq, Repr

/-- A residual-code entry of a die's specialisation cache (R375): its partition, key record, code, the pages it read
(virtual and physical page numbers), the launches that pin it, whether it is hidden from lookups (R377), its report
(R383), and the last use by which the least recent is replaced (R376). -/
structure SpecEntry where
  part : Nat
  key : List Word
  code : List Resid
  used : Nat
  read : List (Nat × Nat)
  pins : List Nat
  hidden : Bool
  report : Word
  deriving DecidableEq, Repr

/-- A die (R166, R177, R178, R466, R21): what is left of a budget stands beside it; the power budget is in mW, none where
no division is set, which is the equal share. -/
structure Die where
  estep : Nat
  alarm : Bool
  tstep : Nat
  budget : Option Nat
  trEn : Bool
  trBase : Nat
  trSize : Nat
  trPos : Nat
  trDrop : Nat
  trBudget : Nat
  trLeft : Int
  migBudget : Nat
  migLeft : Nat
  spec : List SpecEntry
  deriving DecidableEq, Repr

/-- A committed or non-versioned write kept while a snapshot needs what it replaced (R253, R254, R256): its place in
the order of writes, the commit number of a commit, and the bytes as (address, old, new). -/
structure HistRec where
  seq : Nat
  commit : Option Nat
  cells : List (Nat × Byte × Byte)
  deriving DecidableEq, Repr

/-- What stands at a place of a packet buffer: a packet; the packets of an indirect buffer not yet fetched, by address and
count (R445); or the repetitions that a LOOP has still to make of the packets given (R444). -/
inductive PForm where
  | plain
  | rest (addr : Word) (count : Nat)
  | again (ps : List (List Word)) (n : Nat)
  deriving DecidableEq, Repr

/-- A packet of a queue's buffer: words, level, launch id, the hart that placed it, if one did, whether it is a LOOP's
copy, and its form (R440, R404). -/
structure Packet where
  words : List Word
  level : Nat
  lid : Nat
  by_ : Option Nat
  rep : Bool
  form : PForm
  deriving DecidableEq, Repr

/-- A started packet, complete or not; they stand in the order in which they started and are kept for a later LOOP (R435,
R441). `todo` is the bytes that a COPY has still to move under the budget (R446). -/
structure Started where
  pkt : Packet
  done : Bool
  todo : Nat
  deriving DecidableEq, Repr

/-- A hardware queue (R435): its registers, its buffer from the head, the packets started, what a COND skips and at which
level (R443), what is left of its copy budget (R446), and the word of a WAIT-VALUE that has started, with whether its
condition has held (R442). -/
structure Queue where
  base : Word
  en : Bool
  priv : Bool
  prio : Nat
  sz : Nat
  tail : BitVec 32
  head : BitVec 32
  err : Nat
  stop : Bool
  buf : List Packet
  started : List Started
  skip : Nat
  skipLevel : Nat
  left : Int
  watch : Option (Watch × Bool)
  deriving DecidableEq, Repr

/-- An entry of the doorbell FIFO (R436). -/
structure Doorbell where
  q : Nat
  tail : BitVec 32
  seq : Nat
  deriving DecidableEq, Repr

/-- A performed definition of a key index (R354): the commit that performed it, the descriptor, the captured layout of the
key storage, and the virtual pages it pins. -/
structure KxDef where
  commit : Nat
  desc : List Word
  layout : Tensor
  pages : List Nat
  deriving DecidableEq, Repr

/-- A key index (R335): its definitions, latest first, and the state its homes keep. -/
structure KeyIndex where
  defs : List KxDef
  alloc : Nat
  resv : Nat
  nan : Bool
  sat : Bool
  deriving DecidableEq, Repr

/-- A record of the error log (R449): its kind, its words, and the overruns counted before it. -/
structure ErrRec where
  kind : Nat
  words : List Word
  overruns : Nat
  deriving DecidableEq, Repr

/-- A partition (R435): translation root, queues, doorbell FIFO with the next sequence number and the last one done (R436,
R438), key indices, error log with where its ring lies, its room, the records written and its overruns (R449), host windows
as base and size (R450), the source partitions bound to it as 4 × package + partition (R451), breakpoints, whether a debugger
is attached and steps in step-issue mode (R404), and the lane hold limit (R174). -/
structure Partition where
  root : Nat
  queues : AMap Queue
  fifo : List Doorbell
  nextSeq : Nat
  lastDone : Nat
  kx : AMap KeyIndex
  elog : List ErrRec
  elogAt : Nat
  elogCap : Nat
  elogNext : Nat
  overruns : Nat
  windows : List (Nat × Nat)
  peers : List Nat
  breaks : List Word
  debug : Bool
  stepIssue : Bool
  holdLim : Nat
  deriving DecidableEq, Repr

/-- A launch (R112, R114): its header words, argument store, and how its groups stand. `room`: an eviction makes room for
its next group (R125); `chosen`: the core for which its next group waits under R173; `looked`: its first lookup is made, and
`eval`: the die whose Dresser evaluates for it (R375). `recBase` and `recCap`: where each stream of its log lies and the
bytes it has (R458). -/
structure Launch where
  lid : Nat
  part : Nat
  hdr : List Word
  args : List Word
  lprio : Nat
  priv : Bool
  parsed : Nat
  placed : Nat
  ngroups : Nat
  retired : List Nat
  evicted : List Nat
  status : Nat
  queue : Option Nat
  by_ : Option Nat
  room : Bool
  chosen : Option Nat
  tensors : List (Nat × Nat × Option Tensor)
  commits : Nat
  recMode : Nat
  streams : AMap (List Word)
  consumed : AMap Nat
  recBase : Nat
  recCap : Nat
  sealed : Option Nat
  looked : Bool
  eval : Option Nat
  entry : Option SpecEntry
  reports : AMap Word
  deriving DecidableEq, Repr

/-- A sent gossip message that is not resolved (R416). -/
structure Sent where
  port : Nat
  seq : Nat
  region : Nat
  page : Nat
  round : Option Nat
  words : List Word
  back : Bool
  sentAt : Nat
  /-- How long after it was last sent it is sent again, in ns (R416). -/
  gap : Nat
  deriving DecidableEq, Repr

/-- A fabric-scope atomic or wait sent to another package and not answered (R452): its hart, and whether the hart waits for
the answer or it is a deferred add; the package, the port that numbers it, the number, the port on which it was last sent, and
the request. -/
structure Asked where
  hid : Nat
  waits : Bool
  part : Nat
  pkg : Nat
  port : Nat
  seq : Nat
  via : Nat
  va : Nat
  req : PeerReq
  /-- No route to the package is left (R452). -/
  lost : Bool
  deriving DecidableEq, Repr

/-- A receipt held for a later round, or for room (R415, R420). -/
structure HeldReceipt where
  port : Nat
  seq : Nat
  page : Nat
  round : Nat
  words : List Word
  deriving DecidableEq, Repr

/-- A gossip region (R410 to R412): its descriptor's fields, round and flags, the physical bases of its pages, spread words,
held receipts, what is left of this period's budget, page access counts and last contributors (R459), where each
engine's sweep stands, and in a stepped round the pages halved and those whose receipt was added (R430). A slot is its
send port and its receive port. `closing`: a gctl stops its engines (R432). -/
structure Region where
  part : Nat
  base : Nat
  npg : Nat
  frac : Nat
  mode : Bool
  bud : Nat
  deg : Nat
  slots : List (Nat × Nat)
  rnd : Word
  ovf : Bool
  lost : Bool
  pages : List Nat
  spread : Sparse 32
  held : List HeldReceipt
  roundLoss : Bool
  left : Nat
  counts : AMap Nat
  contrib : AMap Nat
  cursor : AMap (Nat × Nat)
  halved : Nat
  got : List Nat
  closing : Bool
  deriving DecidableEq, Repr

/-- A peer port: cabled, up, declared lost; by region the last sequence number sent, the last accepted, and the highest
dropped as a duplicate after a settlement (R415, R417); and the number of the last fabric request sent (R452). -/
structure Port where
  cabled : Bool
  up : Bool
  lost : Bool
  sentSeq : AMap Nat
  accepted : AMap Nat
  dropTo : AMap Nat
  fabSeq : Nat
  deriving DecidableEq, Repr

/-- A sealed region (R468): its partition and pages, its key, and the digest of the identity of the launches it serves. -/
structure SealedRegion where
  part : Nat
  pages : List Nat
  key : Nat
  ident : List Byte
  deriving DecidableEq, Repr

/-- A page being moved (R226): its partition and first virtual page, where it lies and where it goes, its 4 KiB pages,
the die whose budget it takes, and the pages of it that the budget has still to cover. -/
structure PageMove where
  part : Nat
  vpn : Nat
  old : Nat
  new : Nat
  pages : Nat
  die : Nat
  todo : Nat
  deriving DecidableEq, Repr

/-- What the outside sees: accesses the package makes to devices, peers, the host, and its interrupts and traces. -/
inductive Out where
  | device (pa : Nat) (bytes : List Byte)
  | hostAnswer (bytes : Option (List Byte))
  /-- A copy's write to another package, with the source partition (R301, R451). -/
  | peer (pkg part : Nat) (va : Nat) (bytes : List Byte)
  /-- A copy's request to read at another package (R301, R451). -/
  | peerRead (pkg part : Nat) (va n : Nat)
  /-- A fabric-scope atomic or wait with its source partition, numbered by a port and sent on `via` (R451, R452). -/
  | fabric (pkg port via part : Nat) (req : PeerReq)
  | gossip (port : Nat) (msg : GMsg)
  | gossipAck (reg port seq : Nat)
  | gossipRefuse (reg port seq : Nat)
  | peerAnswer (port seq : Nat) (val : Option Word)
  | peerBytes (port seq : Nat) (bytes : Option (List Byte))
  | trace (die : Nat) (words : List Word)
  | report (words : List Byte)
  | debug (h : Nat) (n : Nat) (evts : List (Nat × Nat × Nat))
  | retry (part q : Nat)
  | irq (n : Nat)
  deriving DecidableEq, Repr

/-- Who issues at a step (R127): one hart; or the first that is ready among harts of one issue slot of a core, by priority
and round robin. -/
inductive Turn where
  | one (h : Nat)
  | compete (hs : List Nat)
  deriving DecidableEq, Repr

/-- An area of physical memory whose bytes the spec gives no layout: a frame or a save area, the write that left it, and how
far a migration has moved it since (R134, R226, R278). -/
structure Opaque where
  lo : Nat
  hi : Nat
  stamp : Nat
  shift : Int
  deriving DecidableEq, Repr

/-- The package. -/
structure State where
  part : Part
  now : Nat
  tick : Nat
  free : Nat
  inbox : List Instr
  plan : List Turn
  serve : Option Nat
  cur : Hart
  rest : List Hart
  nextHid : Nat
  mem : List Host.Cell
  commits : Nat
  seq : Nat
  hist : List HistRec
  bad : List Nat
  spots : List DataErr
  tlb : AMap (Word × Nat)
  /-- The page of a partition whose fault the firmware converts, within that event only (R222, R472). -/
  denied : Option (Nat × Nat)
  migr : List PageMove
  cores : AMap Core
  dies : AMap Die
  envelope : Nat
  alarmStep : Nat
  tlim : Nat
  pnum : Nat
  parts : AMap Partition
  launches : AMap Launch
  nextLid : Nat
  regions : AMap Region
  ports : AMap Port
  sent : List Sent
  asked : List Asked
  /-- The packages that no route reaches and the fabric has fenced (R417, R452). -/
  gone : List Nat
  /-- The numbers of the atomics and waits of other packages that were performed, by 16 × package + the port that numbers
  them (R452). -/
  seen : AMap (List Nat)
  /-- The fabric has fenced this package: its engines stop and it accepts nothing (R417). -/
  fenced : Bool
  mail : AMap (List (List Nat))
  sealedRegs : AMap SealedRegion
  lifeCycle : Nat
  keyGen : Nat
  hostUp : Bool
  out : List Out
  recs : AMap RecSetup
  digs : AMap (List (Nat × Nat) × Nat)
  linkErrs : AMap Nat
  scrubs : AMap (Nat × Nat)
  /-- The corrected errors counted, by where they were found: a stack's array by its number, and a die's home L2 or
  remote-data cache by 16 more than its number (R27). -/
  eccErrs : AMap Nat
  opaq : List Opaque
  /-- Where frames lie that stand in memory as they were written: physical base by twice the hart's key, one more for its
  handler frame (R392, R398). -/
  frames : AMap Nat
  deriving DecidableEq, Repr

/-- A peer port after reset: cabled, its link up (log 9). -/
def Port.init : Port :=
  { cabled := true, up := true, lost := false, sentSeq := [], accepted := [], dropTo := [], fabSeq := 0 }

/-- A channel at hart creation (R295). -/
def Channel.init : Channel :=
  { src := 0, dst := 0, len := 0, flg := 0, next := 1, done := 1, errVal := false, errKind := 0, errCnt := 0,
    errId := 0, loVal := false, loId := 0, flight := [], ended := [], left := 32768 }

/-- The registers at hart creation (R121, R185). -/
def Ctx.init : Ctx :=
  { pc := 0, resid := none, iter := 0, g := [], v := [], m := [], sc := [], a := [], vl := 0, nr := 1, fmt := .f32,
    blk := 0, rm := 0, fflags := 0, vbeg := none, held := 0, thb := 0, thmask := 0, fpk := Config.packageNumber,
    prio := 0 }

/-- The trap registers at hart creation (R388). -/
def TrapRegs.init : TrapRegs :=
  { hdl := false, term := false, code := 0, topc := 0, tspc := 0, titer := 0, tval := 0, tphn := 0, tfpc := 0,
    tlag := 0, tpts := 0 }

/-- The phase frame that a phase beginning with these registers records (R258). -/
def Ctx.frame (c : Ctx) (pts : Word) (hdl firmware : Bool) : PhaseFrame :=
  { pc := c.pc, iter := c.iter, resid := c.resid, hdl := hdl, g := c.g, a := c.a, rm := c.rm, fflags := c.fflags, nr := c.nr, fmt := c.fmt, blk := c.blk,
    prio := c.prio, fpk := c.fpk, pts := pts, firmware := firmware }

/-- No hart: what stands on the front end when none does, and the registers from which creation starts (R121). -/
def Hart.blank : Hart :=
  { hid := 0, status := .absent, lid := 0, grp := 0, idx := 0, part := 0, core := 0, slot := 0, weight := 16,
    strict := false, ordered := false, coplace := false, priv := false, hpg := 0, widths := [], args := [],
    nargs := 0, lprio := 0, tw := 64, ntiles := 0, xcap := 0, vcap := 16384, cbud := 32, sealed := Option.none,
    wid := 0, ctx := Ctx.init, hframe := Option.none, vq := [], prog := [],
    spx := { act := false, cnt := 0 }, sq := [], wait := Option.none, since := 0, capWait := Option.none, redo := Option.none, owed := Option.none, trap := TrapRegs.init, tfb := 0,
    sfq := [], sfHeld := [], phn := 0, pts := 0, cmn := 0, snapSeq := 0, lost := 0, abrt := 0, ovf := false,
    ver := [], defer := [], intents := [], defs := [], reads := [], frame := Ctx.init.frame 0 false false,
    half := Option.none, due := .nothing, logWait := false,
    chans := [Channel.init, Channel.init, Channel.init, Channel.init], tiles := [], xents := [], xPlace := .here, room := true,
    offer := 1, req := 1024, hstep := 0, overSince := Option.none, target := Option.none, offered := false, owes := [], owesTill := 0, retired := 0, mark := false,
    stepping := Option.none, stepPc := 0, stepIter := 0, code := [], pass := false, rdexp := 0,
    rdact := 0, evts := [] }

/-- The package after reset (R435, R471): no launch, no partition, every SRAM wiped, memory with nothing listed. -/
def State.reset : State :=
  { part := .tl460, now := 0, tick := 0, free := 0, inbox := [], plan := [], serve := none, cur := Hart.blank, rest := [],
    nextHid := 1, mem := [], commits := 0, seq := 0, hist := [], bad := [], spots := [], tlb := [], denied := none,
    migr := [], cores := [], dies := [], envelope := 900, alarmStep := 4, tlim := 100, pnum := 0, parts := [],
    launches := [], nextLid := 1, regions := [], ports := (List.range 16).map fun k => (k, Port.init), sent := [], asked := [], gone := [], seen := [], fenced := false, mail := [], sealedRegs := [],
    lifeCycle := 0, keyGen := 0, hostUp := true, out := [], recs := [], digs := [], linkErrs := [], scrubs := [], eccErrs := [], opaq := [], frames := [] }

end Sys2Proof.Machine
end

