-- ==== Sys2Proof/Machine/Memory.lean ====
section
/-!
DEFINITION. Memory of the package: committed bytes at physical addresses, the address map (R217), the page walk and
the outcome order of an access (R216 to R222), versions, snapshots and commits (R249 to R257), and writes at the home.
-/

namespace Sys2Proof.Machine

/-- What a byte that nothing has written reads as: zero (log 6). -/
def Memory.unlisted : Byte := 0

/-- The canonical form of memory: addresses strictly rise and no entry equals what an unlisted byte reads as. -/
def Memory.wf (m : List Host.Cell) : Bool := Sparse.wf m

/-- A physical address lies in an area. -/
def Opaque.holds (o : Opaque) (pa : Nat) : Bool := decide (o.lo ≤ pa) && decide (pa < o.hi)

/-- What is left of an area once the addresses from lo up to hi are written otherwise. -/
def Opaque.cut (lo hi : Nat) (o : Opaque) : List Opaque :=
  if o.hi ≤ lo ∨ hi ≤ o.lo then [o]
  else
    (if o.lo < lo then [{ o with hi := lo }] else []) ++ (if hi < o.hi then [{ o with lo := hi }] else [])

/-- The committed byte at a physical address: in a frame or a save area a byte that the spec gives no value (log 46). -/
def State.byte (s : State) (pa : Nat) : Byte :=
  match s.opaq.find? (·.holds pa) with
  | some o => Config.areaByte o.stamp ((pa : Int) + o.shift).toNat
  | none => Sparse.get s.mem pa

/-- The n committed bytes from a physical address, lowest first. -/
def State.bytes (s : State) (pa : Nat) : Nat → List Byte
  | 0 => []
  | n + 1 => s.byte pa :: s.bytes (pa + 1) n

/-- A little-endian number from bytes, lowest first (R58). -/
def leNat : List Byte → Nat
  | [] => 0
  | b :: t => b.toNat + 256 * leNat t

/-- A little-endian word from bytes (R58). -/
def leWord (bs : List Byte) : Word := BitVec.ofNat 64 (leNat bs)

/-- The n low bytes of a number, lowest first (R58). -/
def toBytes : Nat → Nat → List Byte
  | 0, _ => []
  | n + 1, x => BitVec.ofNat 8 x :: toBytes n (x / 256)

/-- The n low bytes of a word. -/
def wordBytes (n : Nat) (x : Word) : List Byte := toBytes n x.toNat

/-- A word from a number. -/
def wordN (n : Nat) : Word := BitVec.ofNat 64 n

/-- 1 where a bit is set. -/
def bitN (b : Bool) : Nat := if b then 1 else 0

/-- The committed doubleword at a physical address. -/
def State.dword (s : State) (pa : Nat) : Word := leWord (s.bytes pa 8)

/-- A list of bytes as cells from an address. -/
def cellsAt : Nat → List Byte → List (Nat × Byte)
  | _, [] => []
  | pa, b :: t => (pa, b) :: cellsAt (pa + 1) t

/-- Physical addresses that have memory behind them (R217, R17). -/
def populated (part : Part) (pa : Nat) : Bool :=
  match part with
  | .tl460 =>
    pa < 0x8000000000 || (0x80000000000 ≤ pa && pa < 0xE0000000000) || (0x100000000000 ≤ pa && pa < 2 ^ 52)
  | .tl430 =>
    pa < 0x4000000000 || (0x80000000000 ≤ pa && pa < 0xB0000000000) || (0x100000000000 ≤ pa && pa < 2 ^ 52)

/-- The home die of a physical address (R9, R217). -/
def homeDie (pa : Nat) : Nat := if pa < 0x8000000000 then pa / 2 ^ 37 else 0

/-- Host memory (R217). -/
def isHostMem (pa : Nat) : Bool := 0x100000000000 ≤ pa

/-- A line whose read gives an uncorrectable error: its stored copy is one (R28), or it is host memory and the host
link is lost (R27). -/
def State.badPa (s : State) (pa : Nat) : Bool := s.bad.contains (pa / 64) || (isHostMem pa && !s.hostUp)

/-- The harts that stand in the package. -/
def State.harts (s : State) : List Hart := if s.cur.status = .absent then s.rest else s.cur :: s.rest

/-- Applies a change to every hart. -/
def State.mapHarts (s : State) (f : Hart → Hart) : State :=
  { s with cur := if s.cur.status = .absent then s.cur else f s.cur, rest := s.rest.map f }

/-- The hart of a key. -/
def State.hart? (s : State) (h : Nat) : Option Hart := s.harts.find? (·.hid = h)

/-- Changes the hart of a key. -/
def State.onHart (s : State) (h : Nat) (f : Hart → Hart) : State :=
  s.mapHarts fun x => if x.hid = h then f x else x

/-- Brings a hart to the front; the state is unchanged where it stands there or is not in the package. -/
def State.focus (s : State) (h : Nat) : State :=
  if s.cur.hid = h ∧ s.cur.status ≠ .absent then s
  else
    match s.rest.find? (·.hid = h) with
    | none => s
    | some x =>
      let others := s.rest.filter (·.hid ≠ h)
      { s with cur := x, rest := if s.cur.status = .absent then others else s.cur :: others }

/-- The state with the hart on the front end that stood there in an earlier state, or none where none did. -/
def State.frontAs (s old : State) : State :=
  if old.cur.status = .absent then
    (if s.cur.status = .absent then s else { s with cur := Hart.blank, rest := s.cur :: s.rest })
  else s.focus old.cur.hid

/-! Conditions on words. -/

/-- Whether a condition of wait holds of a value of n bytes against an operand (R269). -/
def condHolds (c : WCond) (n : Nat) (old x : Word) : Bool :=
  let w := 8 * n
  let o := old.toNat % 2 ^ w
  let y := x.toNat % 2 ^ w
  let so : Int := if 2 * o < 2 ^ w then o else (o : Int) - 2 ^ w
  let sy : Int := if 2 * y < 2 ^ w then y else (y : Int) - 2 ^ w
  match c with
  | .eq => o == y
  | .ne => o != y
  | .lt => decide (so < sy)
  | .ge => decide (sy ≤ so)
  | .ltn => decide (o < y)
  | .gen => decide (y ≤ o)
  | .any => o &&& y != 0
  | .none => o &&& y == 0

/-! Writes at the home. -/

/-- Writes cells into memory, the last one to an address standing. -/
def writeCells : List Host.Cell → List (Nat × Byte) → List Host.Cell
  | m, [] => m
  | m, (pa, b) :: t => writeCells (Sparse.set m pa b) t

/-- The oldest point of the order of writes that some hart's snapshot still needs (R256). -/
def State.oldestNeed (s : State) : Nat :=
  s.harts.foldl (fun a h => if h.status = .exited then a else min a h.snapSeq) (s.seq + 1)

/-- Drops the kept writes that no snapshot needs (R256). -/
def State.prune (s : State) : State :=
  let n := s.oldestNeed
  { s with hist := s.hist.filter fun r => decide (n ≤ r.seq) }

/-- A wait whose word now holds a satisfying value keeps the value (R269). -/
def Hart.latch (s : State) (h : Hart) : Hart :=
  match h.wait with
  | some (.word w none) =>
    let old := leWord (s.bytes w.pa w.size)
    if condHolds w.cond w.size old w.x then { h with wait := some (.word w (some (old, s.commits))) } else h
  | _ => h

/-- A WAIT-VALUE packet at the head of a queue is evaluated again likewise (R442). -/
def Queue.latch (s : State) (q : Queue) : Queue :=
  match q.watch with
  | some (w, false) =>
    if condHolds w.cond w.size (leWord (s.bytes w.pa w.size)) w.x then { q with watch := some (w, true) } else q
  | _ => q

/-- Applies a change to every queue of the package. -/
def State.mapQueues (s : State) (f : Queue → Queue) : State :=
  { s with parts := s.parts.map fun (k, p) => (k, { p with queues := p.queues.map fun (i, q) => (i, f q) }) }

/-- Evaluates every waiting word again after a change of memory (R269, R442). -/
def State.latchAll (s : State) : State := (s.mapHarts (Hart.latch s)).mapQueues (Queue.latch s)

/-- An entry hidden where it read one of the physical pages (R377). -/
def SpecEntry.hide (pages : List Nat) (e : SpecEntry) : SpecEntry :=
  { e with hidden := e.hidden || e.read.any fun r => pages.contains r.2 }

/-- Hides every specialisation entry that read one of the physical pages (R377). -/
def State.hideSpec (s : State) (pages : List Nat) : State :=
  { s with dies := s.dies.map fun (x : Nat × Die) => (x.1, { x.2 with spec := x.2.spec.map (SpecEntry.hide pages) }) }

/-- The size of a context frame (R134). -/
def frameSize : Nat := 0x10B000

/-- Frames over which something is written no longer stand as written: they fail their check (R398). -/
def spoil (frames : AMap Nat) (cells : List (Nat × Byte)) : AMap Nat :=
  frames.filter fun f => !cells.any fun c => decide (f.2 ≤ c.1) && decide (c.1 < f.2 + frameSize)

/-- Areas of which cells are written: the bytes written are theirs no more. -/
def carve (l : List Opaque) (cells : List (Nat × Byte)) : List Opaque :=
  cells.foldl (fun l c => l.flatMap (Opaque.cut c.1 (c.1 + 1))) l

/-- Writes cells at their homes as one event: the old bytes are kept while a snapshot may need them (R253, R256), waits on
the words are evaluated, and specialisation entries that read the pages are hidden (R377). A line written again is no
longer uncorrectable (R28), also where only some of its bytes are written (DESIGN CHOICE, log 81: R28 does not say). -/
def State.writeHome (s : State) (commit : Option Nat) (cells : List (Nat × Byte)) : State :=
  match cells with
  | [] => s
  | _ =>
    let r : HistRec := { seq := s.seq, commit := commit, cells := cells.map fun (pa, b) => (pa, s.byte pa, b) }
    let s := { s with
      mem := writeCells s.mem cells, opaq := if s.opaq.isEmpty then [] else carve s.opaq cells, seq := s.seq + 1, hist := s.hist ++ [r], frames := spoil s.frames cells,
      bad := if s.bad.isEmpty then [] else s.bad.filter fun l => !cells.any fun (pa, _) => pa / 64 == l }
    (s.prune.latchAll).hideSpec (cells.map fun (pa, _) => pa / 4096)

/-- The bytes from a physical address up to another become those of an area, as its unit writes them (R134, R278). Their
old values are kept for no snapshot (log 46). -/
def State.putArea (s : State) (lo hi : Nat) : State :=
  let out := fun (pa : Nat) => decide (pa < lo) || decide (hi ≤ pa)
  let o : Opaque := { lo := lo, hi := hi, stamp := s.free, shift := 0 }
  let s := { s with
    mem := AMap.keep out s.mem, opaq := s.opaq.flatMap (Opaque.cut lo hi) ++ [o], free := s.free + 1,
    frames := s.frames.filter fun f => decide (hi ≤ f.2) || decide (f.2 + frameSize ≤ lo),
    bad := s.bad.filter fun l => out (l * 64) }
  s.latchAll.hideSpec ((List.range ((hi - 1) / 4096 + 1 - lo / 4096)).map (· + lo / 4096))

/-! Snapshots. -/

/-- The byte as it stood when a snapshot was taken: what the oldest kept write after it replaced, else memory (R253). -/
def snapBase (s : State) (since pa : Nat) : List HistRec → Byte
  | [] => s.byte pa
  | r :: t =>
    if since ≤ r.seq then
      match r.cells.find? (·.1 = pa) with
      | some (_, old, _) => old
      | none => snapBase s since pa t
    else snapBase s since pa t

/-- The non-versioned writes after a snapshot that touch the 32-byte sector of an address, oldest first (R254). -/
def racing (hist : List HistRec) (since pa : Nat) : List HistRec :=
  hist.filter fun r => r.commit.isNone && decide (since ≤ r.seq) && r.cells.any fun (a, _, _) => a / 32 == pa / 32

/-- The last value that the given writes leave in a byte. -/
def lastWrite (pa : Nat) (base : Byte) : List HistRec → Byte
  | [] => base
  | r :: t => lastWrite pa (match (r.cells.reverse.find? (·.1 = pa)) with | some (_, _, b) => b | none => base) t

/-- A load that begins now. -/
def State.lookNow (s : State) : Look := { id := s.free, upto := s.seq }

/-- The byte a snapshot shows: its base, and of the non-versioned writes to its sector that race with the load the first k,
where k is free and one for the whole sector (R253, R254). -/
def snapByte (s : State) (since : Nat) (load : Look) (pa : Nat) : Byte :=
  let base := snapBase s since pa s.hist
  let rs := (racing s.hist since pa).filter fun r => decide (r.seq < load.upto)
  if rs.isEmpty then base else lastWrite pa base (rs.take (Config.race load.id (pa / 32) % (rs.length + 1)))

/-- A byte as a hart's loads see it: its version, else its snapshot (R253). -/
def Hart.byte (s : State) (h : Hart) (load : Look) (pa : Nat) : Byte :=
  match AMap.find? h.ver pa with
  | some b => b
  | none => snapByte s h.snapSeq load pa

/-! Translation. -/

/-- Why an access is not performed (R222, R28). -/
inductive XFault where
  | perm
  | notPresent
  | ptError
  | uncorrectable (line : Nat)
  deriving DecidableEq, Repr

/-- What an access does (R222), and which TLB translates it (R223): the first five are scalar, the rest go through the
slices. -/
inductive Access where
  | load | store | fetch | atomic | wait | vload | vstore | vadd
  deriving DecidableEq, Repr

/-- A resolved byte: physical address and page class (R219). -/
structure Phys where
  pa : Nat
  cls : Nat
  deriving DecidableEq, Repr

/-- The fields of a page-table entry (R219). -/
def pteV (e : Word) : Bool := e.getLsbD 0
def pteP (e : Word) : Bool := e.getLsbD 1
def pteR (e : Word) : Bool := e.getLsbD 2
def pteW (e : Word) : Bool := e.getLsbD 3
def pteX (e : Word) : Bool := e.getLsbD 4
def pteCls (e : Word) : Nat := (e.extractLsb' 6 2).toNat
def pteCa (e : Word) : Nat := (e.extractLsb' 10 2).toNat
def ptePpn (e : Word) : Nat := (e.extractLsb' 12 40).toNat
def pteSize (e : Word) : Nat := (e.extractLsb' 61 2).toNat
/-- An entry with any of R, W or X set is a leaf (R218). -/
def pteLeaf (e : Word) : Bool := pteR e || pteW e || pteX e

/-- The number of 4 KiB pages of a leaf size, as a power of two (R219). -/
def sizeShift : Nat → Nat
  | 0 => 0
  | 1 => 4
  | 2 => 9
  | _ => 18

/-- The levels at which a leaf of a size may stand (R220). -/
def sizeAtLevel (size level : Nat) : Bool :=
  match size with
  | 3 => level == 2
  | 2 => level == 1
  | _ => level == 0

/-- The first row of R222: an entry that is malformed at its level. -/
def pteBad (part : Part) (level : Nat) (e : Word) : Bool :=
  e.getLsbD 63 || e.extractLsb' 52 9 != 0 || e.getLsbD 5
    || (pteLeaf e && !sizeAtLevel (pteSize e) level)
    || (!pteLeaf e && pteSize e != 0)
    || pteCa e == 3
    || (pteW e && !pteR e)
    || !populated part (ptePpn e * 4096)
    || (pteLeaf e && ptePpn e % 2 ^ sizeShift (pteSize e) != 0)
    || (level == 0 && pteV e && !pteLeaf e)

/-- The index of a virtual address at a level (R218). -/
def vaIndex (va level : Nat) : Nat := va / 2 ^ (12 + 9 * level) % (if level = 4 then 256 else 512)

/-- The walk from a table at a level (R218, R222, R224): the leaf and its level. -/
def walk (s : State) (va : Nat) : Nat → Nat → Except XFault (Word × Nat)
  | level, table =>
    let at_ := table + 8 * vaIndex va level
    if s.badPa at_ then .error (.uncorrectable (at_ / 64 * 64))
    else
      let e := s.dword at_
      if pteBad s.part level e then .error .ptError
      else if !pteV e || !pteP e then .error .notPresent
      else if pteLeaf e then .ok (e, level)
      else
        match level with
        | 0 => .error .ptError
        | l + 1 => walk s va l (ptePpn e * 4096)

/-- The slice of a core that owns the page of a virtual address: the exclusive-or of nine nibbles (R223). -/
def sliceOf (va : Nat) : Nat := (List.range 9).foldl (fun x k => x ^^^ va / 2 ^ (12 + 4 * k) % 16) 0

/-- Whether an access goes through the slices of the core (R223). The spec names vector accesses; those of the matrix, tile,
scratchpad and key-index instructions go with them (DEDUCED, log 19). -/
def Access.slices : Access → Bool
  | .vload | .vstore | .vadd => true
  | _ => false

/-- The TLB that translates an access of a hart: the front end's, or the slice that owns the page; 24 of them to a core
(R223). -/
def tlbOf (core slot : Nat) (k : Access) (va : Nat) : Nat :=
  core * 24 + (if k.slices then 8 + sliceOf va else slot)

/-- The key under which a TLB holds a translation (R223). -/
def tlbKey (tlb part va : Nat) : Nat := tlb * 2 ^ 46 + part * 2 ^ 44 + va / 4096

/-- A page fault that the firmware converts is a permission refusal (R222, R472). -/
def converted (s : State) (part va : Nat) : Except XFault (Word × Nat) → Except XFault (Word × Nat)
  | .error .notPresent => .error (if s.denied = some (part, va / 4096) then .perm else .notPresent)
  | .error .ptError => .error (if s.denied = some (part, va / 4096) then .perm else .ptError)
  | r => r

/-- The leaf of a virtual address in a partition by the tables (R218). -/
def leafOf (s : State) (part va : Nat) : Except XFault (Word × Nat) :=
  match AMap.find? s.parts part with
  | none => .error .perm
  | some p => converted s part va (walk s va 4 p.root)

/-- The leaf that a TLB gives: one it still holds (R223, R225), or the tables'. Engines and firmware have no TLB. -/
def leafBy (s : State) (tlb : Option Nat) (part va : Nat) : Except XFault (Word × Nat) :=
  match tlb with
  | none => leafOf s part va
  | some u =>
    match AMap.find? s.tlb (tlbKey u part va) with
    | some e => if Config.staleTlb s.tick (va / 4096) then .ok e else leafOf s part va
    | none => leafOf s part va

/-- The physical address that a leaf gives (R218, R219). -/
def leafPa (e : Word) (va : Nat) : Nat :=
  let k := 2 ^ (12 + sizeShift (pteSize e))
  ptePpn e * 4096 / k * k + va % k

/-- Whether a leaf permits an access, after presence (R222). `sealed` is the sealed region of the accessing launch. A vsadd
to a gossip page is refused as the other stores are (DESIGN CHOICE, log 82: R222 names plain stores and major 0x48). -/
def leafPermits (s : State) (sealed : Option Nat) (k : Access) (e : Word) (pa : Nat) : Bool :=
  let perm := match k with
    | .load | .wait | .vload => pteR e
    | .store | .atomic | .vstore | .vadd => pteW e
    | .fetch => pteX e
  let own := pteCls e != 3 ||
    (match sealed with
     | some r => (match AMap.find? s.sealedRegs r with | some x => x.pages.contains (pa / 4096) | none => false)
     | none => false)
  let gossip := pteCls e != 2 || (k == .load || k == .vload || k == .wait || k == .fetch)
  perm && own && gossip

/-- The resolution of a virtual address of 56 bits (R222). -/
def resolveVa (s : State) (tlb : Option Nat) (part : Nat) (sealed : Option Nat) (k : Access) (va : Nat) :
    Except XFault Phys :=
  match leafBy s tlb part va with
  | .error f => .error f
  | .ok (e, _) =>
    let pa := leafPa e va
    if leafPermits s sealed k e pa then .ok { pa := pa, cls := pteCls e } else .error .perm


/-- The stage window (R313): its first address and its size. -/
def stageBase : Nat := 0xFFFFFFFFE80000
def stageSize : Nat := 0x180000

/-- The offset in stage memory that an effective address names, if it lies in the window (R313). -/
def stageOff (ea : Word) : Option Nat :=
  if stageBase ≤ ea.toNat ∧ ea.toNat < stageBase + stageSize then some (ea.toNat - stageBase) else none

/-- The resolution of an effective address (R216, R222). The stage window is not memory: whatever does not reach it as
a hart's load or store takes the permission trap there (R313). -/
def resolveEa (s : State) (tlb : Option Nat) (part : Nat) (sealed : Option Nat) (k : Access) (ea : Word) :
    Except XFault Phys :=
  if ea.extractLsb' 56 8 ≠ 0 ∨ (stageOff ea).isSome then .error .perm else resolveVa s tlb part sealed k ea.toNat

/-- The TLB that an access of a hart uses (R223). -/
def Hart.tlb (h : Hart) (k : Access) (ea : Word) : Option Nat := some (tlbOf h.core h.slot k ea.toNat)

/-- The resolution of an effective address for a hart (R222, R223). -/
def resolveFor (s : State) (h : Hart) (k : Access) (ea : Word) : Except XFault Phys :=
  resolveEa s (h.tlb k ea) h.part h.sealed k ea

/-- The TLB that an access of a hart uses keeps the leaf that it used (R223). -/
def State.fillTlb (s : State) (h : Hart) (k : Access) (ea : Word) : State :=
  let u := tlbOf h.core h.slot k ea.toNat
  match leafBy s (some u) h.part ea.toNat with
  | .ok e => { s with tlb := AMap.put s.tlb (tlbKey u h.part ea.toNat) e }
  | .error _ => s

/-- Drops every translation that a TLB may hold of n pages of a partition, from a virtual page on (R225). -/
def State.shoot (s : State) (part vpn n : Nat) : State :=
  let lo := part * 2 ^ 44 + vpn
  { s with tlb := AMap.keep (fun k => decide (k % 2 ^ 46 < lo) || decide (lo + n ≤ k % 2 ^ 46)) s.tlb }

/-- The ring of a group whose region holds a stage offset (R313, R314). -/
def ringAt (c : Core) (lid grp off : Nat) : Option (Nat × Ring) :=
  List.find? (fun (_, r) =>
    r.lid == lid && r.grp == grp && decide (r.off ≤ off) && decide (off < r.off + r.size * r.count)) c.rings

/-! Version and retention accounting. -/

/-- The lines that a hart's version holds (R257). -/
def Hart.verLines (h : Hart) : List Nat := (h.ver.map fun (pa, _) => pa / 64).eraseDups

/-- The lines that kept commits retain, each once for every commit that replaced it (R256). -/
def State.retained (s : State) : List Nat :=
  (s.hist.filter (·.commit.isSome)).flatMap fun r => (r.cells.map fun (pa, _, _) => pa / 64).eraseDups

/-- Version and retained lines held in the home L2 of a die (R257). -/
def State.dieLines (s : State) (die : Nat) : Nat :=
  ((s.harts.flatMap Hart.verLines).filter fun l => homeDie (l * 64) == die).length
    + (s.retained.filter fun l => homeDie (l * 64) == die).length

/-- The lines a die may hold for versions and retention: half of its home L2 (R257). -/
def dieShare : Nat := 524288

/-! Trace. -/

/-- A die's units as reset leaves them (R166, R177, R21). -/
def Die.init : Die :=
  { estep := 0, alarm := false, tstep := 0, budget := none, trEn := false, trBase := 0, trSize := 0, trPos := 0,
    trDrop := 0, trBudget := 4, trLeft := 4096, migBudget := 4, migLeft := 4, spec := [] }

/-- A die of the package; one never touched stands as after reset. -/
def State.die (s : State) (d : Nat) : Die := (AMap.find? s.dies d).getD Die.init

/-- Changes a die. -/
def State.onDie (s : State) (d : Nat) (f : Die → Die) : State := { s with dies := AMap.put s.dies d (f (s.die d)) }

/-- Offers an event to a die's trace unit (R466, R467): written to the ring at its physical place while the period's
budget and the ring have room, else dropped and counted; with tracing off it is no event. -/
def State.traceEv (s : State) (d : Nat) (ws : List Word) : State :=
  let x := s.die d
  if !x.trEn then s
  else if x.trLeft ≤ 0 ∨ x.trSize < x.trPos + 48 then
    s.onDie d fun x => { x with trDrop := min (x.trDrop + 1) 0xFFFFFFFF }
  else
    let bs := ws.flatMap (wordBytes 8)
    let s := (s.onDie d fun x => { x with trLeft := x.trLeft - 48, trPos := x.trPos + 48 }).writeHome none
      (cellsAt (x.trBase + x.trPos) bs)
    { s with out := s.out ++ [.trace d ws] }

/-- Word 0 of a trace event. -/
def traceHead (kind d lid : Nat) : Word := BitVec.ofNat 64 (kind * 2 ^ 56 + d * 2 ^ 54 + lid % 2 ^ 48)

/-- A trace event of a hart; none in a sealed launch (R466, R469). -/
def State.traceOf (s : State) (h : Hart) (kind : Nat) (pc a b : Word) : State :=
  if h.sealed.isSome then s
  else
    let d := h.core / 32
    s.traceEv d [traceHead kind d h.lid, BitVec.ofNat 64 s.now, h.wid, pc, a, b]

/-- A trace event of the hart on the front end. -/
def State.traceHart (s : State) (kind : Nat) (pc a b : Word) : State := s.traceOf s.cur kind pc a b

end Sys2Proof.Machine
end

