-- ==== Sys2Proof/Machine/Header.lean ====
section
/-!
DEFINITION. Fields of descriptors and of launch headers (R112), group numbers and work ids (R116).
-/

namespace Sys2Proof.Machine

/-- Bits [lo + n − 1 : lo] of word i of a descriptor. -/
def fieldOf (desc : List Word) (i lo n : Nat) : Nat := (desc.getD i 0).toNat / 2 ^ lo % 2 ^ n

/-- Field k of a launch header's widths (R112). -/
def hdrWidth (hdr : List Word) (k : Nat) : Nat := fieldOf hdr 7 (6 * k) 6

/-- Extent k, minus 1, of a launch header (R112). -/
def hdrExt (hdr : List Word) (k : Nat) : Nat := fieldOf hdr (4 + (k - 1) / 2) (32 * ((k - 1) % 2)) 32

/-- The bits of a group's number above field 0, from its index in ascending order (R116). -/
def groupField (hdr : List Word) : Nat → Nat → Nat → Nat → Nat
  | 0, _, _, _ => 0
  | n + 1, k, shift, g =>
    let e := hdrExt hdr k + 1
    (g % e) * 2 ^ shift + groupField hdr n (k + 1) (shift + hdrWidth hdr k) (g / e)

/-- The group number of the i-th group of a launch in ascending order (R116, R118). -/
def groupNumber (hdr : List Word) (i : Nat) : Nat := groupField hdr 5 1 0 i

/-- The work id of hart k of the i-th group (R116). -/
def workId (hdr : List Word) (i k : Nat) : Word := BitVec.ofNat 64 (groupNumber hdr i * 2 ^ hdrWidth hdr 0 + k)

def hdrHpg (hdr : List Word) : Nat := fieldOf hdr 7 36 3
def hdrTiles (hdr : List Word) : Nat := fieldOf hdr 7 52 4
def hdrTw (hdr : List Word) : Nat := 64 * (fieldOf hdr 7 56 4 + 1)
def hdrWeight (hdr : List Word) : Nat := fieldOf hdr 7 39 8
def hdrPcap (hdr : List Word) : Nat := fieldOf hdr 7 47 5
def hdrXslice (hdr : List Word) : Nat := fieldOf hdr 6 32 10
def hdrCbud (hdr : List Word) : Nat := fieldOf hdr 6 42 8
def hdrVcap (hdr : List Word) : Nat := fieldOf hdr 6 50 10
def hdrDone (hdr : List Word) : Nat := fieldOf hdr 3 0 56

/-- The groups of a launch (R116). -/
def groupCount (hdr : List Word) : Nat := (List.range 5).foldl (fun n k => n * (hdrExt hdr (k + 1) + 1)) 1

/-- Bits of a launch's header (R112). -/
def Launch.code (l : Launch) : Word := l.hdr.getD 0 0 &&& 0x00FFFFFFFFFFFFFF
def Launch.nargs (l : Launch) : Nat := fieldOf l.hdr 0 56 8
def Launch.strict (l : Launch) : Bool := fieldOf l.hdr 1 58 1 == 1
def Launch.ordered (l : Launch) : Bool := fieldOf l.hdr 1 57 1 == 1
def Launch.coplace (l : Launch) : Bool := fieldOf l.hdr 1 56 1 == 1
def Launch.nospec (l : Launch) : Bool := fieldOf l.hdr 1 59 1 == 1
def Launch.smask (l : Launch) : Word := l.hdr.getD 2 0

/-- The value of field 1 in a work id of a launch (R119). -/
def Launch.field1 (l : Launch) (wid : Word) : Nat := wid.toNat / 2 ^ hdrWidth l.hdr 0 % 2 ^ hdrWidth l.hdr 1

end Sys2Proof.Machine
end

