-- ==== Sys2Proof/Machine/Room.lean ====
section
/-!
DEFINITION. Room on a core for a group (R14, R15, R276, R321): hart slots, tiles and slices; and the die to which a group is
bound (R119).
-/

namespace Sys2Proof.Machine

/-- The TL460 has 32 cores a die and four dies; the TL430 two dies (R1, R134). -/
def dieOfCore (core : Nat) : Nat := core / 32

/-- The cores of a part (R1, R6). -/
def coreCount : Part → Nat
  | .tl460 => 128
  | .tl430 => 64

/-- The group of a hart is evicted: it holds no slot (R14, R126). -/
def State.evicted (s : State) (h : Hart) : Bool :=
  match AMap.find? s.launches h.lid with
  | some l => l.evicted.contains h.grp
  | none => false

/-- The hart slots of a core that are taken (R14). -/
def State.slotsTaken (s : State) (core : Nat) : List Nat :=
  (s.harts.filter fun h => h.core == core && !s.evicted h).map (·.slot)

/-- The free slots of a core, ascending. -/
def State.slotsFree (s : State) (core : Nat) : List Nat :=
  (List.range 8).filter fun k => !(s.slotsTaken core).contains k

/-- Bytes of the main array that a hart's tiles take (R275). -/
def Hart.tileBytes (h : Hart) : Nat := h.ntiles * h.tw * 512

/-- Bytes of the tile store of a core that are allotted. -/
def State.tilesUsed (s : State) (core : Nat) : Nat :=
  ((s.harts.filter fun h => h.core == core && h.room).map Hart.tileBytes).sum

/-- Entries of the index scratchpad of a core that are allotted. -/
def State.slicesUsed (s : State) (core : Nat) : Nat :=
  ((s.harts.filter fun h => h.core == core && h.room).map (·.xcap)).sum

/-- A core has room for so many slots, tile bytes and entries (R15). -/
def State.hasRoom (s : State) (core slots bytes entries : Nat) : Bool :=
  decide (core < coreCount s.part) && decide (slots ≤ (s.slotsFree core).length)
    && decide (s.tilesUsed core + bytes ≤ 0x400000) && decide (s.slicesUsed core + entries ≤ 32768)

/-- The die to which the groups of a field-1 value are bound: where a group of it is resident or was evicted from
(R119). -/
def State.boundDie (s : State) (l : Launch) (v : Nat) : Option Nat :=
  if l.coplace then
    (s.harts.find? fun h => h.lid == l.lid && l.field1 h.wid == v).map fun h => dieOfCore h.core
  else none

/-- A core may take a group of a field-1 value as far as its die goes. -/
def State.dieAllows (s : State) (l : Launch) (v core : Nat) : Bool :=
  match s.boundDie l v with
  | some d => dieOfCore core == d
  | none => true

/-- The next group of a launch could have its allotments on a core (R15, R118, R119). -/
def State.nextFits (s : State) (l : Launch) (core : Nat) : Bool :=
  let n := hdrHpg l.hdr + 1
  decide (l.placed < l.ngroups) && s.dieAllows l (l.field1 (workId l.hdr l.placed 0)) core
    && s.hasRoom core n (n * hdrTiles l.hdr * hdrTw l.hdr * 512) (n * hdrXslice l.hdr * 64)

end Sys2Proof.Machine
end

