-- ==== Sys2Proof/Machine/Lanes.lean ====
section
/-!
DEFINITION. The lane allocation table of a core (R170 to R175), the lane division (R171), earmarks (R172), and the
grant (R179, R180).
-/

namespace Sys2Proof.Machine

/-- A lane allocation table entry as firmware reads it: [15] held, [14:12] owner, [11] marked, [10:8] earmark, the rest
zero (R170). -/
def LatEntry.word (e : LatEntry) : BitVec 16 := BitVec.ofBool e.held ++ e.owner ++ BitVec.ofBool e.mark ++ e.ear ++ 0#8

/-- A hart slot of a core as three bits. -/
def slotBits (slot : Nat) : BitVec 3 := BitVec.ofNat 3 slot

/-- A free, unmarked lane group. -/
def LatEntry.free : LatEntry := { held := false, owner := 0, mark := false, ear := 0 }

/-- A core after reset: sixteen free lane groups, stage memory wiped, no ring owned (R471). -/
def Core.init : Core := { lat := List.replicate 16 LatEntry.free, stage := [], rings := [], proj := [], order := [] }

/-- A core of the package; one never used stands as after reset. -/
def State.core (s : State) (c : Nat) : Core := (AMap.find? s.cores c).getD Core.init

/-- What firmware reads of entry k of a core's table (R170). -/
def Core.latRead (c : Core) (k : Nat) : BitVec 16 := (c.lat.getD k LatEntry.free).word

/-- Changes a core. -/
def State.onCore (s : State) (c : Nat) (f : Core → Core) : State :=
  { s with cores := AMap.put s.cores c (f (s.core c)) }

/-- Resident on its core: placed there and neither saved, swapped out nor retired. -/
def Hart.resident (h : Hart) : Bool :=
  match h.status with
  | .pending | .running | .stopped _ => true
  | _ => false

/-- A saved hart waits to resume on a core (R399). -/
def Hart.awaits (h : Hart) (core : Nat) : Bool := h.status == .saved && h.target == some core

/-- The waits that are architected (R124). -/
def WaitKind.architected : WaitKind → Bool
  | .word .. | .bar .. | .cwait | .rget | .gstep | .sleep .. | .lnch | .qput .. | .turn | .peer false .. => true
  | .peer true .. | .gquiet .. | .save .. | .gossipTurn => false

/-- The hart waits in an architected wait, and not for room in the record log (R124, R460). -/
def Hart.inWait (h : Hart) : Bool :=
  !h.logWait && (h.capWait.isSome || (match h.wait with | some w => w.architected | none => false))

/-- The want of a hart (R167, R399). -/
def Hart.want (h : Hart) : Nat :=
  if h.status = .saved then h.ctx.vl
  else if h.inWait then h.ctx.vl
  else min h.req 1024

/-- The weight with which a hart counts (R399). -/
def Hart.laneWeight (h : Hart) : Nat := if h.status = .saved then 255 else h.weight

/-- A hart's line in the division of a core. -/
structure Share where
  slot : Nat
  want : Nat
  weight : Nat
  lg : Nat
  deriving DecidableEq, Repr

/-- The better candidate for the next lane group: the smaller lg / weight, then the lower slot (R171). -/
def Share.better (a b : Share) : Bool :=
  a.lg * b.weight < b.lg * a.weight || (a.lg * b.weight == b.lg * a.weight && a.slot < b.slot)

/-- The candidate that the division serves next. -/
def Share.pick : List Share → Option Share
  | [] => none
  | a :: t =>
    match Share.pick t with
    | none => if 64 * a.lg < a.want then some a else none
    | some b => if 64 * a.lg < a.want && a.better b then some a else some b

/-- The lane division's loop: at most 16 lane groups in all (R171). -/
def divide : Nat → List Share → List Share
  | 0, l => l
  | n + 1, l =>
    if 16 ≤ (l.map Share.lg).sum then l
    else
      match Share.pick l with
      | none => l
      | some b => divide n (l.map fun a => if a.slot = b.slot then { a with lg := a.lg + 1 } else a)

/-- Inserts a hart's line in slot order. -/
def Share.insert (a : Share) : List Share → List Share
  | [] => [a]
  | b :: t => if a.slot ≤ b.slot then a :: b :: t else b :: Share.insert a t

/-- A hart as it counts from a slot. -/
def Hart.share (h : Hart) (slot : Nat) : Share := { slot := slot, want := h.want, weight := h.laneWeight, lg := 1 }

/-- Harts that wait to resume on a core on which they hold no slot; they count from its lowest free ones. -/
def State.incoming (s : State) (core : Nat) : List Hart :=
  s.harts.filter fun h => h.awaits core && (h.core != core || s.evicted h)

/-- The harts that count on a core, each with its slot: resident ones, and saved ones that wait to resume there (R171,
R399). -/
def State.countedOn (s : State) (core : Nat) : List (Hart × Nat) :=
  (s.incoming core).zip (s.slotsFree core)
    ++ (s.harts.filter fun h => h.core == core && (h.resident || (h.awaits core && !s.evicted h))).map fun h => (h, h.slot)

/-- Their lines, in slot order. -/
def State.sharesOf (s : State) (core : Nat) : List Share :=
  (s.countedOn core).foldl (fun l x => Share.insert (x.1.share x.2) l) []

/-- The next group of a launch is held back from a core by R173 alone (R118, R126). -/
def State.nextWaits (s : State) (l : Launch) (core : Nat) : Bool :=
  s.nextFits l core && (l.evicted.isEmpty || l.room)

/-- A group chosen for the core that waits only under R173 counts in the division as if placed, from free slots that no
other takes; no vgr of it has asked for less than 1,024 (R171, R173). -/
def State.chosenShares (s : State) (core : Nat) : List Share :=
  let groups := List.filter (fun (x : Nat × Launch) => x.2.chosen == some core && s.nextWaits x.2 core) s.launches
  let weights := groups.flatMap fun x => List.replicate (hdrHpg x.2.hdr + 1) (hdrWeight x.2.hdr)
  (weights.zip ((s.slotsFree core).drop (s.incoming core).length)).map fun x =>
    { slot := x.2, want := 1024, weight := x.1, lg := 1 }

/-- The lane shares of a core (R171, R173). -/
def State.laneDivision (s : State) (core : Nat) : List Share :=
  divide 16 ((s.chosenShares core).foldl (fun l a => Share.insert a l) (s.sharesOf core))

/-- The lane groups held by a slot. -/
def heldBy (lat : List LatEntry) (slot : Nat) : Nat :=
  (lat.filter fun e => e.held && e.owner == slotBits slot).length

/-- The lane groups marked for a slot. -/
def markedFor (lat : List LatEntry) (slot : Nat) : Nat :=
  (lat.filter fun e => !e.held && e.mark && e.ear == slotBits slot).length

/-- Marks the lowest free unmarked lane group for a slot. -/
def markOne (slot : Nat) : List LatEntry → List LatEntry
  | [] => []
  | e :: t => if !e.held && !e.mark then { e with mark := true, ear := slotBits slot } :: t else e :: markOne slot t

/-- Rule 2 of R172: the hart to which the next free lane group goes. -/
def nextEarmark (lat : List LatEntry) : List Share → Option Share
  | [] => none
  | a :: t =>
    let n := heldBy lat a.slot + markedFor lat a.slot
    match nextEarmark lat t with
    | none => if n < a.lg then some a else none
    | some b =>
      let m := heldBy lat b.slot + markedFor lat b.slot
      if n < a.lg && (n * b.weight < m * a.weight || (n * b.weight == m * a.weight && a.slot < b.slot)) then some a
      else some b

/-- Rule 2 of R172, as often as lane groups remain. -/
def earmarkRest (shares : List Share) : Nat → List LatEntry → List LatEntry
  | 0, lat => lat
  | n + 1, lat =>
    if lat.all fun e => e.held || e.mark then lat
    else
      match nextEarmark lat shares with
      | none => lat
      | some a => earmarkRest shares n (markOne a.slot lat)

/-- The earmarks of a table (R172): reservations first, then the shares. -/
def earmark (shares : List Share) (lat : List LatEntry) : List LatEntry :=
  let lat := lat.map fun e => if e.held then e else LatEntry.free
  let lat := shares.foldl (fun l a => if heldBy l a.slot = 0 then markOne a.slot l else l) lat
  earmarkRest shares 16 lat

/-- Earmarks a core's table again after a change, for the harts that count there and not for a group still in dispatch
(R171, R172). -/
def State.reearmark (s : State) (core : Nat) : State :=
  if s.sharesOf core = [] ∧ (AMap.find? s.cores core).isNone then s
  else
    let here := (s.sharesOf core).map Share.slot
    s.onCore core fun c =>
      { c with lat := earmark ((s.laneDivision core).filter fun a => here.contains a.slot) c.lat }

/-- The lane groups that a vgr of the hart may use (R172). -/
def State.avail (s : State) (h : Hart) : Nat :=
  ((s.core h.core).lat.filter fun e =>
    (e.held && e.owner == slotBits h.slot) || (!e.held && (!e.mark || e.ear == slotBits h.slot))).length

/-- Free lane groups of a core that no reservation takes: a reservation is due to each hart there that holds none
(R172, R173). -/
def State.unreserved (s : State) (core : Nat) : Nat :=
  let lat := (s.core core).lat
  (lat.filter fun e => !e.held).length - ((s.sharesOf core).filter fun a => heldBy lat a.slot == 0).length

/-- Frees all but the n lowest lane groups of a slot (R180). -/
def keepLow (slot : Nat) : Nat → List LatEntry → List LatEntry
  | _, [] => []
  | n, e :: t =>
    if e.held && e.owner == slotBits slot then
      (match n with
       | 0 => LatEntry.free :: keepLow slot 0 t
       | k + 1 => e :: keepLow slot k t)
    else e :: keepLow slot n t

/-- Takes up to n free lane groups that satisfy a test, in ascending number (R180). -/
def takeLow (slot : Nat) (ok : LatEntry → Bool) : Nat → List LatEntry → List LatEntry
  | _, [] => []
  | 0, l => l
  | n + 1, e :: t =>
    if !e.held && ok e then { held := true, owner := slotBits slot, mark := false, ear := 0 } :: takeLow slot ok n t
    else e :: takeLow slot ok (n + 1) t

/-- A table with a slot's holding resized (R180): lowered from the highest, raised by earmarked groups first. -/
def resizeLat (slot n : Nat) (lat : List LatEntry) : List LatEntry :=
  let lat := keepLow slot n lat
  let lat := takeLow slot (fun e => e.mark && e.ear == slotBits slot) (n - heldBy lat slot) lat
  takeLow slot (fun e => !e.mark) (n - heldBy lat slot) lat

/-- Resizes the holding of the hart of a slot and earmarks again (R172, R180). -/
def State.latResize (s : State) (core slot n : Nat) : State :=
  (s.onCore core fun c => { c with lat := resizeLat slot n c.lat }).reearmark core

/-- The block length of a vtype block code (R185). -/
def blockLen (blk : BitVec 2) : Nat := if blk = 1 then 16 else if blk = 2 then 32 else 0

/-- The grant for a request, an offer, the lane groups available and a block length (R179). -/
def grantOf (off avail L : Nat) (req : Nat) : Nat :=
  let g := min (min off req) (min 1024 (64 * avail))
  let g := if 0 < L then g / L * L else g
  if 1 ≤ req then max g (min req (max L 1)) else g

/-- The offer that vgr and vgq use (R169). -/
def Hart.usedOffer (h : Hart) : Nat := if h.strict then 64 else h.offer

/-- More lane groups held than the offer needs (R174). -/
def State.overHolding (s : State) (h : Hart) : Bool :=
  decide ((h.offer + 63) / 64 < heldBy (s.core h.core).lat h.slot)

/-- The thermal, emergency and hold steps of a hart (R174, R177, R178). -/
def State.steps (s : State) (h : Hart) : Nat × Nat × Nat :=
  let d := s.die (dieOfCore h.core)
  (d.tstep, d.estep, h.hstep)

/-- thr (R186): the thermal, emergency and hold steps, and the largest of them (R176). -/
def State.thrWord (s : State) (h : Hart) : Word :=
  let x := s.steps h
  wordN (x.1 * 2 ^ 12 + x.2.1 * 2 ^ 8 + bitN (s.overHolding h) * 2 ^ 7 + x.2.2 * 2 ^ 4 + max x.1 (max x.2.1 x.2.2))

/-- The hold step of the hart on the front end returns to 0, and its hold time begins anew; a change is traced (R174, R466). -/
def State.clearHold (s : State) : State :=
  let h := s.cur
  let s := { s with cur := { h with hstep := 0, overSince := none } }
  if h.hstep = 0 then s else s.traceHart 6 h.ctx.pc (s.thrWord s.cur) 0

end Sys2Proof.Machine
end

