-- ==== Sys2Proof/Machine/Ops.lean ====
section
/-!
DEFINITION. The named operations over a hart and the package that meanings share: reading and writing registers (R144),
retiring, branching (R61, R370), discarding a version, taking an exception (R386 to R392), terminating groups and
launches (R393), and the monad in which the meanings that may trap are written.
-/

namespace Sys2Proof.Machine

/-! Registers. -/

/-- The value of a g register; g0 reads zero (R144). -/
def Hart.rd (h : Hart) (r : GReg) : Word := if r = 0 then 0 else Sparse.get h.ctx.g r.toNat

/-- Writes a g register; a write to g0 is discarded (R144). -/
def Hart.wr (h : Hart) (r : GReg) (x : Word) : Hart :=
  if r = 0 then h else { h with ctx := { h.ctx with g := Sparse.set h.ctx.g r.toNat x } }

/-- Changes the saved registers of a hart. -/
def Hart.onCtx (h : Hart) (f : Ctx → Ctx) : Hart := { h with ctx := f h.ctx }

/-- Raises flags (R40): they are sticky. -/
def Hart.raise (h : Hart) (fl : BitVec 5) : Hart :=
  { h with ctx := { h.ctx with fflags := h.ctx.fflags ||| fl } }

/-- The key of a strip slot or mask bit: register, row, position. -/
def stripKey (reg r j : Nat) : Nat := reg * 8192 + r * 1024 + j

/-- The key of an anchored slot: register, row, slot. -/
def anchKey (reg r sl : Nat) : Nat := reg * 512 + r * 64 + sl

/-- Stands the hart at a word of its residual code, or in the original code where it has none there (R370, R378). -/
def Hart.atResid (h : Hart) (k : Nat) : Hart :=
  match h.code[k]? with
  | some w => { h with ctx := { h.ctx with pc := w.opc, iter := w.iter, resid := some k } }
  | none => { h with ctx := { h.ctx with pc := h.ctx.pc + 8, iter := 0, resid := none } }

/-- Advances to the next word (R61). -/
def Hart.advance (h : Hart) : Hart :=
  match h.ctx.resid with
  | none => { h with ctx := { h.ctx with pc := h.ctx.pc + 8 } }
  | some k => h.atResid (k + 1)

/-- Moves by a signed word offset from the hart's own word (R65, R370). -/
def Hart.branch (h : Hart) (off : BitVec 32) : Hart :=
  match h.ctx.resid with
  | none => { h with ctx := { h.ctx with pc := h.ctx.pc + 8 * off.signExtend 64 } }
  | some k => h.atResid ((k : Int) + off.toInt).toNat

/-- Continues in the original code at an address (R368). -/
def Hart.leaveTo (h : Hart) (target : Word) : Hart :=
  { h with ctx := { h.ctx with pc := target, iter := 0, resid := none }, pass := false }

/-- Counts a retired instruction and ends its wait. -/
def Hart.count (h : Hart) : Hart := { h with retired := h.retired + 1, wait := none, pass := false, logWait := false }

/-- What the hart's residual code is at a place. -/
def Hart.residKind (h : Hart) (k : Nat) : Option ResidKind := (h.code[k]?).map Resid.kind

/-- The word after the hart's own belongs to the same instance (R76, R369). -/
def Hart.hasMore (h : Hart) : Bool :=
  match h.ctx.resid with
  | some k => h.residKind (k + 1) == some .more
  | none => false

/-- The hart stands at a further word of an instance, where no stop falls (R76, R380). -/
def Hart.midPair (h : Hart) : Bool :=
  match h.ctx.resid with
  | some k => h.residKind k == some .more
  | none => false

/-- Retires the instruction the hart stands at and advances; the words of one instance retire as one (R76). -/
def Hart.retire (h : Hart) : Hart :=
  if h.hasMore then { h.count with retired := h.retired }.advance else h.count.advance

/-- The number of a hart in the package: 8c + h (R8). -/
def Hart.hnum (h : Hart) : Nat := 8 * h.core + h.slot

/-- tspc: the byte offset of the residual word, or topc in original code (R378). -/
def Hart.tspcNow (h : Hart) : Word :=
  match h.ctx.resid with
  | none => h.ctx.pc
  | some k => BitVec.ofNat 64 (8 * k)

/-! The monad of meanings. -/

/-- Why a meaning ends early: a stop of the model, or the hart left its instruction stream in the state reached. -/
inductive Stop where
  | fault (f : Fault)
  | refuse (r : Refusal)
  | left
  deriving DecidableEq, Repr

/-- Meanings that may leave the instruction stream. -/
abbrev M := EStateM Stop State

/-- The outcome of a meaning. -/
def run (m : M Unit) (s : State) : Host.Outcome State Fault Refusal :=
  match m s with
  | .ok _ s' => .next s'
  | .error .left s' => .next s'
  | .error (.fault f) _ => .fault f
  | .error (.refuse r) _ => .refused r

/-- The outcome of a meaning of the hart on the front end. -/
def runHart (m : M Unit) (s : State) : Host.Outcome State Fault Refusal :=
  if s.cur.status = .running then run m s else .fault .noHart

/-- A scalar instruction that only changes its hart and retires. -/
def scalar (f : Hart → Hart) (s : State) : Host.Outcome State Fault Refusal :=
  if s.cur.status = .running then .next { s with cur := (f s.cur).retire } else .fault .noHart

/-- The hart on the front end. -/
def hart : M Hart := do return (← get).cur

/-- Changes the hart on the front end. -/
def modHart (f : Hart → Hart) : M Unit := modify fun s => { s with cur := f s.cur }

/-- Ends the meaning in the state reached. -/
def leave {α : Type} : M α := throw .left

/-- Refuses an event that cannot occur in the state. -/
def notEnabled {α : Type} (name : String) : M α := throw (.refuse (.notEnabled name))

/-- Requires a condition of an event. -/
def require (name : String) (p : Bool) : M Unit := if p then pure () else notEnabled name

/-- The next free value (log 3). -/
def freshWord : M Word := do
  let s ← get
  set { s with free := s.free + 1 }
  return Config.freeWord s.free

/-- Writes a scalar result and retires. -/
def result (d : GReg) (x : Word) : M Unit := modHart fun h => (h.wr d x).retire

/-! Partitions, launches, the error log. -/

/-- Changes a partition that exists. -/
def State.onPart (s : State) (p : Nat) (f : Partition → Partition) : State :=
  match AMap.find? s.parts p with
  | some x => { s with parts := AMap.put s.parts p (f x) }
  | none => s

/-- Changes a launch that exists. -/
def State.onLaunch (s : State) (l : Nat) (f : Launch → Launch) : State :=
  match AMap.find? s.launches l with
  | some x => { s with launches := AMap.put s.launches l (f x) }
  | none => s

/-- The 128 bytes of an error record, which the spec does not lay out: the overruns above the kind, then the words
(DESIGN CHOICE, log 83). -/
def ErrRec.bytes (r : ErrRec) : List Byte :=
  wordBytes 8 (BitVec.ofNat 32 r.overruns ++ BitVec.ofNat 32 r.kind)
    ++ (List.range 15).flatMap fun k => wordBytes 8 (r.words.getD k 0)

/-- A partition with a record appended to its error log: a full ring loses its oldest record, and the new one counts it
(R449). -/
def Partition.logged (x : Partition) (kind : Nat) (words : List Word) : Partition :=
  let full := decide (x.elogCap ≤ x.elog.length)
  let lost := x.overruns + (if full then 1 else 0)
  { x with overruns := lost, elogNext := if x.elogCap ≤ x.elogNext + 1 then 0 else x.elogNext + 1,
           elog := (if full then x.elog.tail else x.elog) ++ [{ kind := kind, words := words, overruns := lost }] }

/-- Appends a record to a partition's error log, in its ring in memory too (R449). -/
def State.logError (s : State) (p : Nat) (kind : Nat) (words : List Word) : State :=
  match AMap.find? s.parts p with
  | none => s
  | some x =>
    let y := x.logged kind words
    let s := { s with parts := AMap.put s.parts p y }
    if x.elogCap = 0 then s
    else
      match y.elog.getLast? with
      | some r => s.writeHome none (cellsAt (x.elogAt + 128 * x.elogNext) r.bytes)
      | none => s

/-! Versions. -/

/-- The segments that a hart's intents hold reserved in a key index: L for each (R343). -/
def reservedBy (intents : List KxIntent) (kx : Nat) : Nat :=
  (intents.map fun i => match i with | .ins k _ _ sigs => if k = kx then sigs.length else 0 | _ => 0).sum

/-- Gives up the reservations of a list of intents (R344). -/
def State.unreserve (s : State) (part : Nat) (intents : List KxIntent) : State :=
  s.onPart part fun p =>
    { p with kx := p.kx.map fun (k, x) => (k, { x with resv := x.resv - reservedBy intents k }) }

/-- Discards the version of the hart on the front end, with its deferred effects, intents and their reservations, and
held definitions (R258, R389). -/
def State.dropVersion (s : State) : State :=
  let s := s.unreserve s.cur.part s.cur.intents
  { s with cur := { s.cur with ver := [], defer := [], intents := [], defs := [], reads := [] } }

/-- Takes a snapshot for the hart on the front end: the horizon (R253). Commits are performed at every home at once, so
the horizon is the last commit number (log 20). -/
def State.snapshot (s : State) : State :=
  { s with cur := { s.cur with cmn := s.commits, snapSeq := s.seq } }.prune

/-! Store-fault records (R245). -/

/-- Appends a store-fault record, or holds it while sixteen are queued (R245). -/
def Hart.recordStore (h : Hart) (r : StoreFault) : Hart :=
  if h.sfq.length < 16 ∧ h.sfHeld = [] then { h with sfq := h.sfq ++ [r] } else { h with sfHeld := h.sfHeld ++ [r] }

/-- Word 3 of a store-fault record (R245). -/
def storeFaultWord3 (kind elem skid : Nat) : Word :=
  BitVec.ofNat 8 kind ++ 0#2 ++ BitVec.ofNat 14 elem ++ 0#8 ++ BitVec.ofNat 32 skid

/-- Frees the oldest record; a held one takes the place (R245, R403). -/
def Hart.popStoreFault (h : Hart) : Hart :=
  match h.sfq with
  | [] => h
  | _ :: t =>
    match h.sfHeld with
    | [] => { h with sfq := t }
    | r :: u => { h with sfq := t ++ [r], sfHeld := u }

/-! Resolving and performing accesses. -/

/-- Resolves the n bytes from an effective address for the hart, each byte on its own (R216, R229). -/
def resolveRange (s : State) (h : Hart) (k : Access) (ea : Word) : Nat → Except (Word × XFault) (List Phys)
  | 0 => .ok []
  | n + 1 =>
    match resolveFor s h k ea with
    | .error f => .error (ea, f)
    | .ok p =>
      match resolveRange s h k (ea + 1) n with
      | .error e => .error e
      | .ok l => .ok (p :: l)

/-- The uncorrectable line that a list of resolved bytes reads, if any (R28). A byte of the hart's own version is read
from there. -/
def badLine (s : State) (h : Hart) (ps : List Phys) : Option Nat :=
  match ps.find? fun p => s.badPa p.pa && (AMap.find? h.ver p.pa).isNone with
  | some p => some (p.pa / 64 * 64)
  | none => none

/-- Puts bytes into the hart's version (R249). -/
def Hart.putVer (h : Hart) : List (Nat × Byte) → Hart
  | [] => h
  | (pa, b) :: t => { h with ver := AMap.put h.ver pa b }.putVer t

/-- The lines that key-index intents, insertions and clears, count for: a quarter of a line each, rounded up (R343). -/
def Hart.quarterIntents (h : Hart) : Nat :=
  ((h.intents.filter fun i => match i with | .def_ .. => false | _ => true).length + 3) / 4

/-- A versioned write would pass the hart's cap or the share of a home die (R257). -/
def overflows (s : State) (h : Hart) (ps : List Phys) : Bool :=
  let lines := h.verLines
  let new := ((ps.filter (·.cls ≠ 1)).map fun p => p.pa / 64).eraseDups.filter fun l => !lines.contains l
  !new.isEmpty &&
    (decide (h.vcap < lines.length + h.quarterIntents + new.length)
      || new.any fun l => decide (dieShare ≤ s.dieLines (homeDie (l * 64))))

/-- What a store writes to devices: its bytes at one instant where it is naturally aligned, else byte by byte (R229,
R231). -/
def deviceWrites (ps : List Phys) (bs : List Byte) : List Out :=
  let dev := (ps.zip bs).filter fun (p, _) => p.cls == 1
  match dev with
  | [] => []
  | (p, _) :: _ =>
    if dev.length = bs.length ∧ [1, 2, 4, 8].contains bs.length ∧ p.pa % bs.length = 0 then [.device p.pa bs]
    else dev.map fun (p, b) => .device p.pa [b]

/-- Performs a resolved store of the hart on the front end: into its version, or at once on a device page (R231,
R233, R249). -/
def State.storeAt (s : State) (ps : List Phys) (bs : List Byte) : State :=
  let cells := (ps.zip bs).filter fun (p, _) => p.cls != 1
  { s with cur := s.cur.putVer (cells.map fun (p, b) => (p.pa, b)), out := s.out ++ deviceWrites ps bs }

/-! The stage window (R313). -/

/-- Whether n bytes of the window from an offset lie in rings that the hart's group owns. -/
def ownsStage (s : State) (h : Hart) (off n : Nat) : Bool :=
  (List.range n).all fun i => (ringAt (s.core h.core) h.lid h.grp (off + i)).isSome

/-- The bytes of stage memory from an offset. -/
def Core.stageBytes (c : Core) (off : Nat) : Nat → List Byte
  | 0 => []
  | n + 1 => Sparse.get c.stage off :: c.stageBytes (off + 1) n

/-- Writes bytes of stage memory. -/
def Core.putStage (c : Core) : Nat → List Byte → Core
  | _, [] => c
  | off, b :: t => { c with stage := Sparse.set c.stage off b }.putStage (off + 1) t

/-- Performs a store of the hart on the front end: in the stage window (R313), or at its resolved bytes. -/
def State.storeTo (s : State) (ea : Word) (bs : List Byte) : Except (Word × XFault) State :=
  let h := s.cur
  match stageOff ea with
  | some off =>
    if ownsStage s h off bs.length then .ok (s.onCore h.core fun c => c.putStage off bs) else .error (ea, .perm)
  | none =>
    match resolveRange s h .store ea bs.length with
    | .ok ps => .ok (s.storeAt ps bs)
    | .error e => .error e

/-- The fault kind of a store-fault record for a resolution failure that is not resolved (R245). A store that finds its page
absent while a terminating trap settles it is neither resolved nor converted: kind 4 (DESIGN CHOICE, log 84). An
uncorrectable page-table line has no kind in R245: a free one (log 84). -/
def State.recordKind (s : State) : XFault → Nat
  | .perm => 1
  | .uncorrectable _ => (Config.freeWord s.free).toNat % 256
  | _ => 4

/-- Settles the retired scalar stores at a terminating trap: each is performed, or its fault is recorded (R389). -/
def settleStores : State → List PendingStore → State
  | s, [] => s
  | s, p :: t =>
    match s.storeTo p.ea p.bytes with
    | .ok s => settleStores s t
    | .error (a, f) =>
      let r : StoreFault :=
        { addr := a, opc := p.opc, iter := p.iter, w3 := storeFaultWord3 (s.recordKind f) 0 (s.cur.retired - p.at_) }
      settleStores { s with free := s.free + 1, cur := s.cur.recordStore r } t

/-- The retired scalar stores that wait behind the fault its handler serves: earlier in program order than what the handler
does (R228, R392). -/
def Hart.behind (h : Hart) : List PendingStore := (h.hframe.map HFrame.sq).getD []

/-- The retired stores of a hart that are not performed, settled (R389, R393, R397). -/
def State.settleHart (s : State) (k : Nat) : State :=
  let t := s.focus k
  if t.cur.hid = k then (settleStores t (t.cur.behind ++ t.cur.sq)).frontAs s else s

/-! Terminating groups and launches (R393). -/

/-- A hart of a terminated group: stopped, its version discarded, its waits ended. -/
def Hart.kill (h : Hart) : Hart :=
  { h with status := .exited, wait := none, capWait := none, redo := none, target := none, due := .nothing, hframe := none, vq := [],
           sq := [], ver := [], defer := [], intents := [], defs := [], reads := [], ctx := { h.ctx with vl := 0 } }

/-- A hart that is retired and whose transfers have all ended (R139, R302). -/
def Hart.gone (h : Hart) : Bool := h.status == .exited && h.chans.all fun c => c.flight.isEmpty

/-- A group of a launch has retired when all its harts are gone (R122). -/
def State.groupGone (s : State) (lid grp : Nat) : Bool :=
  (s.harts.filter fun h => h.lid == lid && h.grp == grp).all Hart.gone

/-- Removes the harts of a retired group and releases its rings (R122, R302, R314). -/
def State.reapGroup (s : State) (lid grp : Nat) : State :=
  if s.groupGone lid grp && s.harts.any (fun h => h.lid == lid && h.grp == grp) then
    let keep := fun (h : Hart) => !(h.lid == lid && h.grp == grp)
    let s := { s with
      cur := if keep s.cur then s.cur else Hart.blank,
      rest := s.rest.filter keep,
      cores := s.cores.map fun (x : Nat × Core) =>
        (x.1, { x.2 with rings := List.filter (fun (_, r) => !(r.lid == lid && r.grp == grp)) x.2.rings }) }
    (s.onLaunch lid fun l => { l with retired := grp :: l.retired }).prune
  else s

/-- Earmarks the tables of cores again (R172). -/
def State.earmarkAll (s : State) (cores : List Nat) : State := cores.eraseDups.foldl (fun s c => s.reearmark c) s

/-- Frees the lane groups of a hart (R175, R189). -/
def State.freeLanes (s : State) (h : Hart) : State :=
  if heldBy (s.core h.core).lat h.slot = 0 then s else s.latResize h.core h.slot 0

/-- Terminates the harts that satisfy a test: each is stopped as on pre-emption, its retired stores settled; its reservations
and its lanes are given back (R393). -/
def State.killHarts (s : State) (p : Hart → Bool) : State :=
  let hs := s.harts.filter fun h => p h && h.status != .exited
  let s := hs.foldl (fun s h => (s.settleHart h.hid).unreserve h.part h.intents) s
  let s := s.mapHarts fun h => if p h && h.status != .absent && h.status != .exited then h.kill else h
  (hs.foldl (fun s h => s.freeLanes h) s).earmarkAll (hs.map (·.core))

/-- Terminates a group with completion status 2 (R393). -/
def State.killGroup (s : State) (lid grp : Nat) : State :=
  let s := s.killHarts fun h => h.lid == lid && h.grp == grp
  (s.onLaunch lid fun l => { l with status := 2 }).reapGroup lid grp

/-- Terminates a launch: every resident group, and no further group is placed (R393). -/
def State.killLaunch (s : State) (lid : Nat) : State :=
  let grps := ((s.harts.filter (·.lid == lid)).map (·.grp)).eraseDups
  let s := s.killHarts fun h => h.lid == lid
  let s := grps.foldl (fun s g => s.reapGroup lid g) s
  let waited := ((AMap.find? s.launches lid).bind (·.chosen)).toList
  (s.onLaunch lid fun l =>
    let unplaced := (List.range l.ngroups).filter fun g => l.placed ≤ g
    { l with status := 2, placed := l.ngroups, retired := unplaced ++ l.retired, evicted := [], chosen := none }).earmarkAll
      waited

/-! Taking an exception. -/

/-- The task report of an event (R388): topc, tspc and titer name the first instruction not retired at the boundary,
tfpc the instruction that caused it, tlag its skid (R386). -/
def Hart.report (h : Hart) (term : Bool) (code : Nat) (tval tfpc : Word) (tlag : Nat) : TrapRegs :=
  { hdl := h.trap.hdl, term := term, code := BitVec.ofNat 8 code, topc := h.ctx.pc, tspc := h.tspcNow,
    titer := h.ctx.iter, tval := tval, tphn := h.phn, tfpc := tfpc, tlag := BitVec.ofNat 32 tlag, tpts := h.pts }

/-- tcause (R388). -/
def Hart.causeWord (h : Hart) : Word :=
  0#48 ++ BitVec.ofBool h.trap.hdl ++ BitVec.ofBool h.trap.term ++ 0#6 ++ h.trap.code

/-- The words of a task report in the error log (R388, R449); of a sealed launch lid and tcause only (R469). -/
def Hart.reportWords (h : Hart) : List Word :=
  let t := h.trap
  let cause := h.causeWord
  if h.sealed.isSome then [BitVec.ofNat 64 h.lid, 0, 0, 0, 0, 0, 0, cause, 0, 0, 0] else
  [BitVec.ofNat 64 h.lid, h.wid, t.tphn.setWidth 64, t.tpts, t.topc, t.tspc, t.titer, cause, t.tval, t.tfpc,
   t.tlag.setWidth 64]

/-- Every queued instruction stops at its progress index: none is in flight any more, and pi keeps the position of a stopped
one (R389; R197 calls cnt the count of the last instruction that completed; DESIGN CHOICE, log 85). -/
def Hart.dropQueue (h : Hart) : Hart :=
  { h with vq := [], prog := h.prog.map fun (k, p) => (k, { p with act := false }) }

/-- What follows a terminating trap once the report stands: the handler, or firmware terminates the launch (R389,
R390). -/
def State.afterTrap (s : State) (code : Nat) : State :=
  let h := s.cur
  if h.ctx.thb ≠ 0 ∧ h.trap.hdl = false ∧ code ≠ 30 then
    let h := { h with trap := { h.trap with hdl := true } }
    { s with cur := h.leaveTo h.ctx.thb }.snapshot
  else s.killLaunch h.lid

/-- Takes a terminating trap at the boundary where the hart stands (R389). The retired stores that are not yet
performed were performed, or their faults recorded, before: see `settleStores`. -/
def State.trapEntry (s : State) (code : Nat) (tval tfpc : Word) (tlag : Nat) : State :=
  let s := { s with cur := s.cur.dropQueue }.dropVersion
  let h := s.cur
  let h := { h with trap := h.report true code tval tfpc tlag, wait := none, capWait := none, due := .nothing, sq := [] }
  let s := { s with cur := h }
  let s := s.traceHart 4 h.trap.topc h.causeWord h.trap.tval
  (s.logError h.part 0 h.reportWords).afterTrap code

/-- The hart can route a resumable cause to its handler (R390, R392). -/
def Hart.handlerOpen (h : Hart) : Bool := h.ctx.thb != 0 && !h.trap.hdl

/-! Requests to another package. -/

/-- The peer ports of a part (R1, R17). -/
def portCount : Part → Nat
  | .tl460 => 16
  | .tl430 => 8

/-- A peer port whose link carries requests. -/
def State.carries (s : State) (p : Nat) : Bool :=
  decide (p < portCount s.part) &&
    (match AMap.find? s.ports p with | some x => x.cabled && x.up && !x.lost | none => false)

/-- The port by which requests to a package leave: the lowest that carries them (DESIGN CHOICE, log 22); none where the
package is fenced (R452). -/
def State.fabricPort (s : State) (pkg : Nat) : Option Nat :=
  if s.gone.contains pkg then none else (List.range (portCount s.part)).find? s.carries

/-- Sends a fabric-scope atomic or wait of a hart, or a deferred add of its partition, to a package under the port's next
sequence number, and keeps it until it is answered; none where the package cannot be reached (R452). Answers the request as
kept. -/
def State.sendFabric (s : State) (hid : Nat) (waits : Bool) (part pkg va : Nat) (req : Nat → PeerReq) : Option (State × Asked) :=
  match s.fabricPort pkg with
  | none => none
  | some p =>
    match AMap.find? s.ports p with
    | none => none
    | some x =>
      let a : Asked := { hid := hid, waits := waits, part := part, pkg := pkg, port := p, seq := x.fabSeq, via := p,
                         va := va, req := req x.fabSeq, lost := false }
      some ({ s with
        ports := AMap.put s.ports p { x with fabSeq := x.fabSeq + 1 }, asked := s.asked ++ [a],
        out := s.out ++ [.fabric pkg p p part a.req] }, a)

/-- A request is answered. -/
def State.answered (s : State) (a : Asked) : State :=
  { s with asked := s.asked.filter fun x => !(x.port == a.port && x.seq == a.seq) }

/-- The target of fabric scope is another package (R267). -/
def Hart.toPeer (h : Hart) (sc : Scope) : Bool := sc == .fabric && h.ctx.fpk != Config.packageNumber

/-- Stops the hart on the front end for a debugger, who receives the events since the last stop (R404). -/
def State.stopHart (s : State) (at_ : StopAt) (n : Nat) : State :=
  let h := s.cur
  { s with cur := { h with status := .stopped at_, evts := [], stepping := none },
           out := s.out ++ [.debug h.hnum n h.evts] }

/-- TAKING A TERMINATING TRAP, the one operation that every cause shares (R389): the queue stops, retired stores are
settled, the version is discarded, the report written, and the handler entered or the launch terminated. -/
def State.takeTrap (s : State) (code : Nat) (tval tfpc : Word) (tlag : Nat) : State :=
  (settleStores s (s.cur.behind ++ s.cur.sq)).trapEntry code tval tfpc tlag

/-- Takes a terminating trap and leaves the instruction stream. -/
def trapAt {α : Type} (code : Nat) (tval tfpc : Word) (tlag : Nat) : M α := do
  modify fun s => s.takeTrap code tval tfpc tlag
  leave

/-- A precise terminating trap of the instruction the hart stands at: tfpc = topc, tlag = 0 (R386). -/
def trapHere {α : Type} (code : Nat) (tval : Word) : M α := do
  let h ← hart
  trapAt code tval h.ctx.pc 0

/-- The word of an instruction as the hart fetched it, with the mark it carried (R86). -/
def Hart.wordOf (h : Hart) (i : Instr) : Word := (encode h.mark i).getD 0

/-- Takes the illegal-instruction trap of a legal word at issue: tval holds the word (R86, R88). -/
def illegal {α : Type} (i : Instr) : M α := do
  let h ← hart
  trapHere 16 (h.wordOf i)

/-- The key of a hart's context frame, or handler frame, among the frames that stand as written. -/
def frameKey (h : Hart) (hdl : Bool) : Nat := 2 * h.hid + (if hdl then 1 else 0)

/-- The physical base of a hart's context frame or handler frame after the one translation of tfb; none where it does not
translate or a line of the frame is uncorrectable (R388, R398). -/
def State.framePa (s : State) (h : Hart) (hdl : Bool) : Option Nat :=
  match leafOf s h.part (h.tfb.toNat % 2 ^ 56) with
  | .ok (e, _) =>
    let pa := leafPa e (h.tfb.toNat % 2 ^ 56) + (if hdl then frameSize else 0)
    if s.bad.all fun l => decide (l * 64 + 64 ≤ pa) || decide (pa + frameSize ≤ l * 64) then some pa else none
  | .error _ => none

/-- The context frame's area can be reached (R398). -/
def State.frameOk (s : State) (h : Hart) : Bool := (s.framePa h false).isSome

/-- A frame can be reached and stands as it was written for this hart: its check and its identity are right (R398). -/
def State.frameFits (s : State) (h : Hart) (hdl : Bool) : Bool :=
  match s.framePa h hdl with
  | some pa => AMap.find? s.frames (frameKey h hdl) == some pa
  | none => false

/-- Writes a frame of a hart where it can be reached (R392, R397, R398). -/
def State.putFrame (s : State) (h : Hart) (hdl : Bool) : State :=
  match s.framePa h hdl with
  | some pa =>
    let s := s.putArea pa (pa + frameSize)
    { s with frames := AMap.put s.frames (frameKey h hdl) pa }
  | none => s

/-- A frame is loaded and is no longer needed. -/
def State.dropFrame (s : State) (h : Hart) (hdl : Bool) : State :=
  { s with frames := AMap.erase s.frames (frameKey h hdl) }

/-- Enters the launch's handler for a resumable fault (R392): the frame is kept whole, the report written with
term = 0, and the hart continues at thb in the same phase and version. The frame's PC is where the hart continues
after tret mode 3. What stands behind a fault waits in the frame; what came before a service call keeps running (R160). A
handler frame that cannot be written takes the frame error (R398). -/
def State.handlerEntry (s : State) (code : Nat) (tval tfpc : Word) (tlag : Nat) (cont : Hart → Hart) : State :=
  let h := s.cur
  if (s.framePa h true).isNone then s.takeTrap 30 (h.tfb + BitVec.ofNat 64 frameSize) tfpc tlag
  else
    let r := h.report false code tval tfpc tlag
    let back := cont h
    let call := code == 8
    let fr : HFrame :=
      { ctx := back.ctx, vq := if call then [] else h.vq, prog := h.prog, spx := h.spx, sq := if call then [] else h.sq,
        shadow := h.chans.map fun c => (c.src, c.dst, c.len, c.flg), trap := h.trap }
    let t := { h with
      hframe := some fr, trap := { r with hdl := true }, wait := none,
      vq := if call then h.vq.map (fun (o : VOp) => { o with call := true }) else [], sq := if call then h.sq else [] }
    { s.putFrame h true with cur := t.leaveTo h.ctx.thb }

/-- The time that a wait has lasted while resident, in place of its beginning, and back (R125). -/
def Hart.flipSince (h : Hart) (now : Nat) : Hart :=
  { h with
    since := if h.wait.isSome then now - h.since else h.since, capWait := h.capWait.map fun t => now - t }

/-- Swaps the hart out on a page fault: the frame is saved and the lane groups freed (R238, R391, R397); a frame area that
cannot be written takes the frame error (R398). -/
def State.swapOut (s : State) (w : PageWait) : State :=
  let h := s.cur
  if !s.frameOk h then s.takeTrap 30 h.tfb h.ctx.pc 0
  else
    let s := s.clearHold
    ({ s with cur := { s.cur.flipSince s.now with status := .swapped w, target := none, offered := false } }.freeLanes h).putFrame
      h false

/-- The precise access of the instruction at which a hart stands. -/
def Hart.pageWait (h : Hart) (ea : Word) (err : Bool) : PageWait :=
  { ea := ea, lo := ea, size := 1, err := err, store := false, slices := false, opc := h.ctx.pc, iter := h.ctx.iter, elem := 0, at_ := h.retired }

/-- Ends an access that a scalar instruction could not make, precisely (R233, R238, R391, R396). -/
def accessFault {α : Type} (ea : Word) : XFault → M α
  | .perm => trapHere 17 ea
  | .uncorrectable line => trapHere 21 (BitVec.ofNat 64 line)
  | .notPresent => do modify fun s => s.swapOut (s.cur.pageWait ea false); leave
  | .ptError => do modify fun s => s.swapOut (s.cur.pageWait ea true); leave

end Sys2Proof.Machine
end

