-- ==== Sys2Proof/Machine/Record.lean ====
section
/-!
DEFINITION. The record log (R458 to R463): the streams of a launch, recording with its stall (R460), replay and
divergence (R461, R462).
-/

namespace Sys2Proof.Machine

/-- The stream of a hart in its launch's log; stream 0 is the launch's (R458). -/
def Hart.stream (h : Hart) : Nat := h.grp * (h.hpg + 1) + h.idx + 1

/-- A stream of a launch. -/
def Launch.streamOf (l : Launch) (k : Nat) : List Word := (AMap.find? l.streams k).getD []

/-- The words of a stream that are consumed: drained while recording (R460), taken in replay (R461). -/
def Launch.taken (l : Launch) (k : Nat) : Nat := (AMap.find? l.consumed k).getD 0

/-- Word 0 of an entry (R458). -/
def entryHead (kind : Nat) (opc : Word) : Word := BitVec.ofNat 8 kind ++ opc.extractLsb' 0 56

/-- Room for n more words in a stream while recording (R460). -/
def Launch.roomFor (l : Launch) (k n : Nat) : Bool :=
  decide (8 * ((l.streamOf k).length + n - l.taken k) ≤ l.recCap)

/-- The cells of words written to the log area of a stream from its n-th word on; a stream of the area is used as a ring
(R458, R460). -/
def Launch.areaCells (l : Launch) (k : Nat) : Nat → List Word → List (Nat × Byte)
  | _, [] => []
  | n, w :: t => cellsAt (l.recBase + k * l.recCap + 8 * n % l.recCap) (wordBytes 8 w) ++ l.areaCells k (n + 1) t

/-- Appends words to a stream, which stands in the log area too; a stream that reaches 7/8 of its size raises the log
interrupt (R460). -/
def State.logWords (s : State) (lid k : Nat) (ws : List Word) : State :=
  match AMap.find? s.launches lid with
  | none => s
  | some l =>
    let old := (l.streamOf k).length - l.taken k
    let l' := { l with streams := AMap.put l.streams k (l.streamOf k ++ ws) }
    let s := { s with launches := AMap.put s.launches lid l' }.writeHome none (l.areaCells k (l.streamOf k).length ws)
    if 64 * old < 7 * l.recCap ∧ 7 * l.recCap ≤ 64 * (old + ws.length) then { s with out := s.out ++ [.irq 5] } else s

/-- The words of gossip entries at the front of a stream: they are the homes' and no instruction takes them (R461). -/
def gossipAhead : Nat → List Word → Nat
  | 0, _ => 0
  | fuel + 1, a :: _ :: t =>
    let kind := (a.extractLsb' 56 8).toNat
    if kind = 4 then 514 + gossipAhead fuel (t.drop 512) else if kind = 5 then 2 + gossipAhead fuel t else 0
  | _, _ => 0

/-- The word of a stream at which the next entry of a hart or launch stands in replay. -/
def Launch.next (l : Launch) (k : Nat) : Nat :=
  let ws := (l.streamOf k).drop (l.taken k)
  l.taken k + gossipAhead ws.length ws

/-- Takes n words of a stream in replay. -/
def State.takeWords (s : State) (lid k n : Nat) : State :=
  s.onLaunch lid fun l => { l with consumed := AMap.put l.consumed k (l.next k + n) }

/-- Whether the hart's launch records (1), replays (2) or neither (0) (R463). -/
def State.recMode (s : State) (lid : Nat) : Nat :=
  match AMap.find? s.launches lid with
  | some l => l.recMode
  | none => 0

/-- The next entry of a stream in replay. -/
def State.nextEntry (s : State) (lid k : Nat) : Option (Word × Word) :=
  match AMap.find? s.launches lid with
  | none => none
  | some l =>
    match (l.streamOf k)[l.next k]?, (l.streamOf k)[l.next k + 1]? with
    | some a, some b => some (a, b)
    | _, _ => none

/-- The divergence trap: cause 27 with the entry's byte offset in tval (R462). -/
def diverge {α : Type} (pos expected actual : Word) : M α := do
  modHart fun h => { h with rdexp := expected, rdact := actual }
  trapHere 27 pos

/-- The byte offset of the next entry of the hart on the front end. -/
def State.entryPos (s : State) : Word :=
  match AMap.find? s.launches s.cur.lid with
  | some l =>
    BitVec.ofNat 64 (8 * (if l.recMode = 2 then l.next s.cur.stream else (l.streamOf s.cur.stream).length))
  | none => 0

/-- A full stream holds the hart at its instruction; the wait is not architected (R460). -/
def stallLog {α : Type} : M α := do
  modHart fun h => { h with logWait := true }
  leave

/-- A recorded value of the hart (R459, R461): the live value, logged while recording, or the logged value in replay. A
hart that finds its stream full stays at the instruction (R460). Nothing of the instruction may have been done. -/
def recorded (kind : Nat) (live : Word) : M Word := do
  let s ← get
  let h := s.cur
  let head := entryHead kind h.ctx.pc
  match s.recMode h.lid with
  | 1 =>
    match AMap.find? s.launches h.lid with
    | some l =>
      if l.roomFor h.stream 2 then
        set (s.logWords h.lid h.stream [head, live])
        return live
      else stallLog
    | none => return live
  | 2 =>
    match s.nextEntry h.lid h.stream with
    | none => diverge s.entryPos 0 head
    | some (a, b) =>
      if a = head then
        set (s.takeWords h.lid h.stream 2)
        return b
      else diverge s.entryPos a head
  | _ => return live

/-- Room in the hart's stream for a value that is logged only after its access (kind 2): a recording hart without room
stays at the instruction; a replaying one takes the entry now (R460, R461). -/
def recordAhead (kind : Nat) : M (Option (Word × Word)) := do
  let s ← get
  let h := s.cur
  let head := entryHead kind h.ctx.pc
  match s.recMode h.lid with
  | 1 =>
    match AMap.find? s.launches h.lid with
    | some l => if l.roomFor h.stream 2 then return none else stallLog
    | none => return none
  | 2 =>
    match s.nextEntry h.lid h.stream with
    | none => diverge s.entryPos 0 head
    | some (a, b) =>
      if a = head then
        let pos := s.entryPos
        set (s.takeWords h.lid h.stream 2)
        return some (pos, b)
      else diverge s.entryPos a head
  | _ => return none

/-- Logs the old value that an atomic or wait found, or gives the logged one; a difference diverges once gd holds the
logged value (R461, R462). `put` writes gd and retires. -/
def recordOld (kind : Nat) (entry : Option (Word × Word)) (live : Word) (put : Word → M Unit) : M Unit := do
  match entry with
  | none =>
    let s ← get
    if s.recMode s.cur.lid = 1 then
      set (s.logWords s.cur.lid s.cur.stream [entryHead kind s.cur.ctx.pc, live])
    put live
  | some (pos, val) =>
    if val = live then put val
    else
      let pc := (← hart).ctx.pc
      put val
      modHart fun h => { h with rdexp := val, rdact := live }
      trapAt 27 pos pc 0

/-- A stream still holds a snapshot recorded with the given number of commits (R461). -/
def snapsDue (commits : Nat) : Nat → List Word → Bool
  | 0, _ => false
  | fuel + 1, a :: b :: t =>
    let kind := (a.extractLsb' 56 8).toNat
    (kind == 8 && b.toNat == commits) || snapsDue commits fuel (if kind = 4 then t.drop 512 else t)
  | _, _ => false

/-- In replay the launch's next commit waits for the snapshots recorded before it (R461). -/
def Launch.commitHeld (l : Launch) : Bool :=
  l.recMode == 2 &&
    (l.streams.any fun (k, ws) => k != 0 && snapsDue l.commits ws.length (ws.drop (l.taken k)))

end Sys2Proof.Machine
end

