-- ==== Sys2Proof/Machine/KxHome.lean ====
section
/-!
DEFINITION. The key index at its homes (R335 to R347): the descriptor's fields, the structures in memory, and the
insert, clear and definition intents as a commit performs them (R344, R345, R347, R354).
-/

namespace Sys2Proof.Machine

/-! Memory by virtual address, as firmware, walkers and homes reach it. -/

/-- The physical address of a virtual one, where the tables map it. -/
def vaPa (s : State) (part va : Nat) : Option Nat :=
  match leafOf s part (va % 2 ^ 56) with
  | .ok (e, _) => some (leafPa e (va % 2 ^ 56))
  | .error _ => none

/-- The committed bytes from a virtual address; what is not mapped reads zero. -/
def State.bytesVa (s : State) (part va : Nat) : Nat → List Byte
  | 0 => []
  | n + 1 => (match vaPa s part va with | some pa => s.byte pa | none => 0) :: s.bytesVa part (va + 1) n

/-- A little-endian number of n bytes at a virtual address. -/
def State.natVa (s : State) (part va n : Nat) : Nat := leNat (s.bytesVa part va n)

/-- Bytes to be written from a virtual address, as cells; what is not mapped is dropped. -/
def State.cellsVa (s : State) (part : Nat) : Nat → List Byte → List (Nat × Byte)
  | _, [] => []
  | va, b :: t =>
    match vaPa s part va with
    | some pa => (pa, b) :: s.cellsVa part (va + 1) t
    | none => s.cellsVa part (va + 1) t

/-- Writes a number of n bytes at a virtual address at the home. -/
def State.putVa (s : State) (commit : Option Nat) (part va n x : Nat) : State :=
  s.writeHome commit (s.cellsVa part va (toBytes n x))

/-- The line of a virtual address is uncorrectable (R28). -/
def State.badVa (s : State) (part va : Nat) : Bool :=
  match vaPa s part va with
  | some pa => s.badPa pa
  | none => false

/-! The descriptor (R336). -/

def kxH (d : List Word) : Nat := fieldOf d 0 0 7 + 1
def kxD (d : List Word) : Nat := fieldOf d 0 8 8 + 1
def kxB (d : List Word) : Nat := fieldOf d 0 16 5
def kxL (d : List Word) : Nat := fieldOf d 0 24 2 + 1
def kxTid (d : List Word) : Nat := fieldOf d 0 32 8
def kxChl (d : List Word) : Nat := fieldOf d 0 48 8
def kxFb (d : List Word) : Bool := fieldOf d 0 56 1 == 1
def kxPbase (d : List Word) : Nat := fieldOf d 1 0 56
def kxDbase (d : List Word) : Nat := fieldOf d 2 0 56
def kxSbase (d : List Word) : Nat := fieldOf d 3 0 56
def kxNseg (d : List Word) : Nat := fieldOf d 4 0 32
def kxClim (d : List Word) : Nat := fieldOf d 4 32 16

/-- Bytes of a projection row (R338). -/
def kxRb (d : List Word) : Nat := 8 * ((kxD d + 63) / 64)

/-- The address of a directory entry (R339). -/
def kxEntryAt (d : List Word) (h l u : Nat) : Nat := kxDbase d + ((h * kxL d + l) * 2 ^ kxB d + u) * 16

/-- The address of a segment (R340). -/
def kxSegAt (d : List Word) (i : Nat) : Nat := kxSbase d + 64 * (i - 1)

/-! Key indices of a partition. -/

/-- An index that no definition has reached. -/
def KeyIndex.init : KeyIndex := { defs := [], alloc := 0, resv := 0, nan := false, sat := false }

/-- A key index of a partition. -/
def State.kx (s : State) (part kx : Nat) : KeyIndex :=
  match AMap.find? s.parts part with
  | some p => (AMap.find? p.kx kx).getD KeyIndex.init
  | none => KeyIndex.init

/-- Changes a key index. -/
def State.onKx (s : State) (part kx : Nat) (f : KeyIndex → KeyIndex) : State :=
  s.onPart part fun p => { p with kx := AMap.put p.kx kx (f ((AMap.find? p.kx kx).getD KeyIndex.init)) }

/-- Links one signature of an insert intent (R344). An uncorrectable line skips the link, sets sat and is recorded
(R354). -/
def linkOne (commit : Option Nat) (part kx : Nat) (d : List Word) (h t l sig : Nat) (s : State) : State :=
  let e := kxEntryAt d h l (sig % 2 ^ kxB d)
  let tail := s.natVa part (e + 4) 4
  let count := s.natVa part (e + 8) 4
  let sat := s.natVa part (e + 12) 4 % 2 == 1
  let put := fun (s : State) (va x : Nat) => s.putVa commit part va 4 x
  if !s.badVa part e ∧ sat then s
  else if s.badVa part e ∨ (count ≠ 0 ∧ s.badVa part (kxSegAt d tail)) then
    (s.onKx part kx fun x => { x with sat := true }).logError part 6 [BitVec.ofNat 64 kx, BitVec.ofNat 64 e]
  else
    let fill := s.natVa part (kxSegAt d tail + 60) 4
    if count = 0 ∨ fill = 14 then
      if (count + 13) / 14 = kxChl d then (put s (e + 12) 1).onKx part kx fun x => { x with sat := true }
      else
        let n := (s.kx part kx).alloc + 1
        let seg := kxSegAt d n
        let s := s.onKx part kx fun x => { x with alloc := n }
        let s := s.writeHome commit (s.cellsVa part seg (toBytes 64 (t % 2 ^ 32 + 2 ^ 480)))
        let s := if count = 0 then put s e n else put s (kxSegAt d tail + 56) n
        let s := put s (e + 4) n
        put s (e + 8) (count + 1)
    else
      let seg := kxSegAt d tail
      let s := put s (seg + 4 * fill) t
      let s := put s (seg + 60) (fill + 1)
      put s (e + 8) (count + 1)

/-- Links the signatures of an intent, tables in ascending order; those of tables at or above L are dropped (R347). -/
def linkAll (commit : Option Nat) (part kx : Nat) (d : List Word) (h t : Nat) : Nat → List Nat → State → State
  | _, [], s => s
  | l, sig :: u, s =>
    let s := if l < kxL d then linkOne commit part kx d h t l sig s else s
    linkAll commit part kx d h t (l + 1) u s

/-- Writes zero over n directory entries (R345). -/
def zeroEntries (commit : Option Nat) (part : Nat) : Nat → Nat → State → State
  | _, 0, s => s
  | va, n + 1, s => zeroEntries commit part (va + 16) n (s.putVa commit part va 16 0)

/-- Performs one key-index intent of a commit under the definition in force (R344, R345, R347, R354). A definition that is
performed releases the pins of those before it. -/
def performIntent (k part : Nat) (s : State) : KxIntent → State
  | .ins kx h t sigs =>
    let s' := match (s.kx part kx).defs with
      | [] => s
      | df :: _ => if h < kxH df.desc then linkAll (some k) part kx df.desc h t 0 sigs s else s
    s'.onKx part kx fun x => { x with resv := x.resv - sigs.length }
  | .clr kx =>
    match (s.kx part kx).defs with
    | [] => s
    | df :: _ =>
      let d := df.desc
      let s := zeroEntries (some k) part (kxDbase d) (kxH d * kxL d * 2 ^ kxB d) s
      s.onKx part kx fun x => { x with alloc := 0, nan := false, sat := false }
  | .def_ kx desc layout pages =>
    let s := s.onKx part kx fun x =>
      { x with defs := { commit := k, desc := desc, layout := layout, pages := pages }
                  :: x.defs.map fun (y : KxDef) => { y with pages := [] }, alloc := 0,
               nan := false, sat := false }
    { s with cores := s.cores.map fun (x : Nat × Core) =>
        (x.1, { x.2 with proj := x.2.proj.filter fun u => !(u.part == part && u.kx == kx) }) }

end Sys2Proof.Machine
end

