-- ==== Sys2Proof/Machine/Flags.lean ====
section
/-!
DEFINITION. The flags of fflags (R40) and the computations over them.
-/

namespace Sys2Proof.Machine

/-- Invalid operation, bit 4 (R40). -/
def flagNV : BitVec 5 := 0x10
/-- Division by zero, bit 3 (R40). -/
def flagDZ : BitVec 5 := 0x08
/-- Overflow, bit 2 (R40). -/
def flagOF : BitVec 5 := 0x04
/-- Underflow, bit 1 (R40). -/
def flagUF : BitVec 5 := 0x02
/-- Inexact, bit 0 (R40). -/
def flagNX : BitVec 5 := 0x01

/-- The flags of an integer saturation: OF and NX (R46). -/
def flagsSat : BitVec 5 := flagOF ||| flagNX

/-- A flag where a condition holds. -/
def flagIf (p : Bool) (fl : BitVec 5) : BitVec 5 := if p then fl else 0

/-- The exception-mask bit of an element: it raised NV, DZ or OF (R42). -/
def excBit (fl : BitVec 5) : BitVec 1 := if fl &&& 0x1C = 0 then 0 else 1

/-- An integer clamped to a range, with the flags of a saturation (R46). -/
def clampFlags (lo hi x : Int) : Int × BitVec 5 :=
  if x < lo then (lo, flagsSat) else if hi < x then (hi, flagsSat) else (x, 0)

/-- The range of a w-bit two's-complement number (R37). -/
def minS (w : Nat) : Int := -(2 ^ (w - 1) : Nat)
def maxS (w : Nat) : Int := (2 ^ (w - 1) : Nat) - 1
/-- The largest w-bit unsigned number (R37). -/
def maxN (w : Nat) : Int := (2 ^ w : Nat) - 1

end Sys2Proof.Machine
end

