-- ==== Sys2Proof/Machine/Float.lean ====
section
/-!
DEFINITION. Float formats as exact dyadic values, one rounding for every format and rounding mode (R33 to R45), and the
arithmetic of the scalar and vector float instructions over them.
-/

namespace Sys2Proof.Machine

/-- The float formats with sign and significand (R33). -/
inductive FF where
  | f64 | f32 | bf16 | f16 | e5m2 | e4m3 | e2m1
  deriving DecidableEq, Repr

/-- Bits of T (R33). -/
def FF.mb : FF → Nat
  | .f64 => 52 | .f32 => 23 | .bf16 => 7 | .f16 => 10 | .e5m2 => 2 | .e4m3 => 3 | .e2m1 => 1
/-- Bits of E (R33). -/
def FF.eb : FF → Nat
  | .f64 => 11 | .f32 => 8 | .bf16 => 8 | .f16 => 5 | .e5m2 => 5 | .e4m3 => 4 | .e2m1 => 2
/-- The exponent bias (R33). -/
def FF.bias : FF → Nat
  | .f64 => 1023 | .f32 => 127 | .bf16 => 127 | .f16 => 15 | .e5m2 => 15 | .e4m3 => 7 | .e2m1 => 1
/-- The width in bits (R33). -/
def FF.width (f : FF) : Nat := 1 + f.eb + f.mb
/-- The format keeps the all-ones exponent for infinities and NaNs (R34). -/
def FF.ieee : FF → Bool
  | .e4m3 | .e2m1 => false
  | _ => true
/-- The exponent of the smallest normal number (R34). -/
def FF.emin (f : FF) : Int := 1 - (f.bias : Int)
/-- The exponent of the largest finite number (R34). -/
def FF.emax (f : FF) : Int := if f.ieee then (2 ^ f.eb - 2 : Int) - f.bias else (2 ^ f.eb - 1 : Int) - f.bias
/-- The significand of the largest finite number, with its leading one (R34). -/
def FF.maxSig (f : FF) : Nat := if f = .e4m3 then 14 else 2 ^ (f.mb + 1) - 1
/-- The canonical NaN; e2m1 has none and stores 0 (R34, R47). -/
def FF.nan : FF → Nat
  | .f64 => 0x7FF8000000000000 | .f32 => 0x7FC00000 | .bf16 => 0x7FC0 | .f16 => 0x7E00 | .e5m2 => 0x7E
  | .e4m3 => 0x7F | .e2m1 => 0
/-- The code of an infinity of an IEEE format (R34). -/
def FF.infCode (f : FF) (neg : Bool) : Nat :=
  (2 ^ f.eb - 1) * 2 ^ f.mb + (if neg then 2 ^ (f.eb + f.mb) else 0)
/-- The code of the largest finite number of a sign (R34). -/
def FF.maxCode (f : FF) (neg : Bool) : Nat :=
  ((f.emax + f.bias).toNat * 2 ^ f.mb + (f.maxSig - 2 ^ f.mb)) + (if neg then 2 ^ (f.eb + f.mb) else 0)

/-- A float value: a NaN that is signalling or quiet, an infinity, or (−1)^neg × m × 2^e exactly. -/
inductive FVal where
  | nan (sig : Bool)
  | inf (neg : Bool)
  | fin (neg : Bool) (m : Nat) (e : Int)
  deriving DecidableEq, Repr

/-- The value of a code of a format, bits above its width ignored (R31, R33, R34, R43). -/
def FF.decode (f : FF) (code : Nat) : FVal :=
  let t := code % 2 ^ f.mb
  let E := code / 2 ^ f.mb % 2 ^ f.eb
  let neg := code / 2 ^ (f.mb + f.eb) % 2 == 1
  let finite : FVal :=
    if E = 0 then .fin neg t (f.emin - f.mb) else .fin neg (2 ^ f.mb + t) ((E : Int) - f.bias - f.mb)
  if f.ieee then
    if E = 2 ^ f.eb - 1 then (if t = 0 then .inf neg else .nan (t / 2 ^ (f.mb - 1) == 0)) else finite
  else if f = .e4m3 ∧ E = 15 ∧ t = 7 then .nan false
  else finite

/-- A result of an operation: the code and the flags raised. -/
structure FRes where
  code : Nat
  fl : BitVec 5
  deriving DecidableEq, Repr

/-- The rounding modes (R38). -/
inductive RM where
  | rne | rtz | rdn | rup
  deriving DecidableEq, Repr

/-- The mode of frm.rm (R38). -/
def RM.ofBits (x : BitVec 3) : RM := if x = 1 then .rtz else if x = 2 then .rdn else if x = 3 then .rup else .rne

/-- Whether a magnitude is rounded up: the kept part is odd or even, and the part dropped stands below, at or above one
half of the unit, or is zero. -/
def roundsUp (rm : RM) (neg odd : Bool) (dropped : Ordering) (zero : Bool) : Bool :=
  match rm with
  | .rne => dropped == .gt || (dropped == .eq && odd)
  | .rtz => false
  | .rdn => neg && !zero
  | .rup => !neg && !zero

/-- m × 2^e (and a little more where `sticky`) rounded to a multiple of 2^q: the multiple and whether it is inexact. -/
def roundAt (rm : RM) (neg : Bool) (m : Nat) (e q : Int) (sticky : Bool) : Nat × Bool :=
  if q ≤ e then
    let sig := m * 2 ^ (e - q).toNat
    (sig + (if roundsUp rm neg (sig % 2 == 1) .lt (!sticky) then 1 else 0), sticky)
  else
    let d := (q - e).toNat
    if m.log2 + 1 < d then
      let zero := m == 0 && !sticky
      ((if roundsUp rm neg false .lt zero then 1 else 0), !zero)
    else
      let sig := m / 2 ^ d
      let rem := m % 2 ^ d
      let half := 2 ^ (d - 1)
      let zero := rem == 0 && !sticky
      let c : Ordering := if rem < half then .lt else if half < rem ∨ sticky then .gt else .eq
      (sig + (if roundsUp rm neg (sig % 2 == 1) c zero then 1 else 0), !zero)

/-- A float result too large for its format after rounding (R47): infinity or the largest finite number. -/
def FF.overflow (f : FF) (rm : RM) (neg : Bool) : FRes :=
  let toInf := f.ieee && (match rm with | .rne => true | .rtz => false | .rdn => neg | .rup => !neg)
  { code := if toInf then f.infCode neg else f.maxCode neg, fl := flagOF ||| flagNX }

/-- The code of a signed zero. -/
def FF.zero (f : FF) (neg : Bool) : Nat := if neg then 2 ^ (f.eb + f.mb) else 0

/-- One rounding of an exact value (−1)^neg × m × 2^e, with a little more where `sticky` (R38, R40, R44, R47). A
`sticky` value must have more bits than the format keeps. -/
def FF.round (f : FF) (rm : RM) (neg : Bool) (m : Nat) (e : Int) (sticky : Bool := false) : FRes :=
  if m = 0 ∧ !sticky then { code := f.zero neg, fl := 0 }
  else
    let E := (m.log2 : Int) + e
    let q := max (E - f.mb) (f.emin - f.mb)
    let (sig, inexact) := roundAt rm neg m e q sticky
    let q' := if sig = 2 ^ (f.mb + 1) then q + 1 else q
    let sig' := if sig = 2 ^ (f.mb + 1) then 2 ^ f.mb else sig
    if f.emax - f.mb < q' ∨ (q' = f.emax - f.mb ∧ f.maxSig < sig') then f.overflow rm neg
    else
      let body := if sig' < 2 ^ f.mb then sig' else (q' + f.mb + f.bias).toNat * 2 ^ f.mb + (sig' - 2 ^ f.mb)
      let tiny := decide (E < f.emin) &&
        !(E + 1 == f.emin && (roundAt rm neg m e (E - f.mb) sticky).1 == 2 ^ (f.mb + 1))
      { code := f.zero neg + body, fl := flagIf inexact flagNX ||| flagIf (tiny && inexact) flagUF }

/-- A canonical NaN with flags. -/
def FF.nanRes (f : FF) (fl : BitVec 5) : FRes := { code := f.nan, fl := fl }

/-- NV for signalling operands (R43). -/
def FVal.sigFlag : FVal → BitVec 5
  | .nan true => flagNV
  | _ => 0
/-- The value is a NaN. -/
def FVal.isNaN : FVal → Bool
  | .nan _ => true
  | _ => false
/-- The sign of a value. -/
def FVal.neg : FVal → Bool
  | .nan _ => false
  | .inf n | .fin n _ _ => n
/-- A zero of either sign. -/
def FVal.isZero : FVal → Bool
  | .fin _ m _ => m == 0
  | _ => false
/-- The value with its sign inverted. -/
def FVal.negate : FVal → FVal
  | .nan s => .nan s
  | .inf n => .inf (!n)
  | .fin n m e => .fin (!n) m e
/-- The value with sign 0. -/
def FVal.abs : FVal → FVal
  | .nan s => .nan s
  | .inf _ => .inf false
  | .fin _ m e => .fin false m e

/-- The value rounded into a format; a NaN becomes canonical and a signalling one raises NV (R43, R47). -/
def FF.ofVal (f : FF) (rm : RM) : FVal → FRes
  | .nan s => f.nanRes (flagIf s flagNV)
  | .inf n => { code := f.infCode n, fl := 0 }
  | .fin n m e => f.round rm n m e

/-- The signed integer (−1)^neg × m × 2^k. -/
def scaled (neg : Bool) (m : Nat) (k : Nat) : Int := let x : Int := (m * 2 ^ k : Nat); if neg then -x else x

/-- An exact sum of two finite values: its sign where it is zero follows IEEE 754-2019 (R44, R56). -/
def addFin (rm : RM) (n1 : Bool) (m1 : Nat) (e1 : Int) (n2 : Bool) (m2 : Nat) (e2 : Int) : Bool × Nat × Int :=
  let e := min e1 e2
  let x := scaled n1 m1 (e1 - e).toNat + scaled n2 m2 (e2 - e).toNat
  if x = 0 then ((if n1 == n2 then n1 else rm == .rdn), 0, e)
  else (decide (x < 0), x.natAbs, e)

/-- round(a + b) (R153, R204). -/
def FF.add (f : FF) (rm : RM) (a b : FVal) : FRes :=
  let fl := a.sigFlag ||| b.sigFlag
  match a, b with
  | .nan _, _ | _, .nan _ => f.nanRes fl
  | .inf x, .inf y => if x == y then { code := f.infCode x, fl := 0 } else f.nanRes flagNV
  | .inf x, _ | _, .inf x => { code := f.infCode x, fl := 0 }
  | .fin n1 m1 e1, .fin n2 m2 e2 =>
    let r := addFin rm n1 m1 e1 n2 m2 e2
    f.round rm r.1 r.2.1 r.2.2

/-- round(a − b) (R153, R204). -/
def FF.sub (f : FF) (rm : RM) (a b : FVal) : FRes := f.add rm a b.negate

/-- round(a × b) (R153, R204). -/
def FF.mul (f : FF) (rm : RM) (a b : FVal) : FRes :=
  let fl := a.sigFlag ||| b.sigFlag
  match a, b with
  | .nan _, _ | _, .nan _ => f.nanRes fl
  | .inf x, y | y, .inf x => if y.isZero then f.nanRes flagNV else { code := f.infCode (x != y.neg), fl := 0 }
  | .fin n1 m1 e1, .fin n2 m2 e2 => f.round rm (n1 != n2) (m1 * m2) (e1 + e2)

/-- round(a × b + c) with one rounding; ∞ × 0 raises NV even when c is a quiet NaN (R153, R204). -/
def FF.fma (f : FF) (rm : RM) (a b c : FVal) : FRes :=
  let fl := a.sigFlag ||| b.sigFlag ||| c.sigFlag
  let bad : Bool := match a, b with
    | .inf _, y => y.isZero
    | x, .inf _ => x.isZero
    | _, _ => false
  if bad then f.nanRes (fl ||| flagNV)
  else
    match a, b, c with
    | .nan _, _, _ | _, .nan _, _ | _, _, .nan _ => f.nanRes fl
    | .fin n1 m1 e1, .fin n2 m2 e2, .fin n3 m3 e3 =>
      let r := addFin rm (n1 != n2) (m1 * m2) (e1 + e2) n3 m3 e3
      f.round rm r.1 r.2.1 r.2.2
    | .fin _ _ _, .fin _ _ _, .inf z => { code := f.infCode z, fl := 0 }
    | x, y, .inf z =>
      if (x.neg != y.neg) == z then { code := f.infCode z, fl := 0 } else f.nanRes flagNV
    | x, y, _ => { code := f.infCode (x.neg != y.neg), fl := 0 }

/-- round(a / b), correctly rounded (R44, R153, R204). -/
def FF.div (f : FF) (rm : RM) (a b : FVal) : FRes :=
  let fl := a.sigFlag ||| b.sigFlag
  match a, b with
  | .nan _, _ | _, .nan _ => f.nanRes fl
  | .inf _, .inf _ => f.nanRes flagNV
  | .inf x, y => { code := f.infCode (x != y.neg), fl := 0 }
  | x, .inf y => { code := f.zero (x.neg != y), fl := 0 }
  | .fin n1 m1 e1, .fin n2 m2 e2 =>
    if m2 = 0 then
      if m1 = 0 then f.nanRes flagNV else { code := f.infCode (n1 != n2), fl := flagDZ }
    else
      let k := f.mb + 4 + m2.log2
      let num := m1 * 2 ^ k
      f.round rm (n1 != n2) (num / m2) (e1 - e2 - k) (num % m2 != 0)

/-- Newton's descent to the integer square root, with fuel. -/
def isqrtGo (n : Nat) : Nat → Nat → Nat
  | 0, x => x
  | k + 1, x => let y := (x + n / x) / 2; if y < x then isqrtGo n k y else x

/-- The integer square root. -/
def isqrt (n : Nat) : Nat := if n = 0 then 0 else isqrtGo n 1024 (2 ^ (n.log2 / 2 + 1))

/-- round(√a), correctly rounded (R44, R153, R204). -/
def FF.sqrt (f : FF) (rm : RM) (a : FVal) : FRes :=
  match a with
  | .nan s => f.nanRes (flagIf s flagNV)
  | .inf n => if n then f.nanRes flagNV else { code := f.infCode false, fl := 0 }
  | .fin n m e =>
    if m = 0 then { code := f.zero n, fl := 0 }
    else if n then f.nanRes flagNV
    else
      let m1 := if e % 2 = 0 then m else 2 * m
      let e1 := if e % 2 = 0 then e else e - 1
      let k := f.mb + 4
      let x := m1 * 2 ^ (2 * k)
      let r := isqrt x
      f.round rm false r (e1 / 2 - k) (r * r != x)

/-- round(1 / a) (R204). -/
def FF.rcp (f : FF) (rm : RM) (a : FVal) : FRes := f.div rm (.fin false 1 0) a

/-- round(1 / √a): ±0 gives ±∞ without a flag (R204). -/
def FF.rsqrt (f : FF) (rm : RM) (a : FVal) : FRes :=
  match a with
  | .nan s => f.nanRes (flagIf s flagNV)
  | .inf n => if n then f.nanRes flagNV else { code := 0, fl := 0 }
  | .fin n m e =>
    if m = 0 then { code := f.infCode n, fl := 0 }
    else if n then f.nanRes flagNV
    else
      let m1 := if e % 2 = 0 then m else 2 * m
      let e1 := if e % 2 = 0 then e else e - 1
      let k := f.mb + 5 + m1.log2
      let r := isqrt (2 ^ (2 * k) / m1)
      f.round rm false r (-(k : Int) - e1 / 2) (r * r * m1 != 2 ^ (2 * k))

/-- Order of two values that are no NaNs; −0 equals +0. -/
def FVal.cmp (a b : FVal) : Ordering :=
  match a, b with
  | .inf x, .inf y => if x == y then .eq else if x then .lt else .gt
  | .inf x, _ => if x then .lt else .gt
  | _, .inf y => if y then .gt else .lt
  | .fin n1 m1 e1, .fin n2 m2 e2 =>
    let e := min e1 e2
    compare (scaled n1 m1 (e1 - e).toNat) (scaled n2 m2 (e2 - e).toNat)
  | _, _ => .eq

/-- a = b with flags: NV only for signalling operands (R153). -/
def cmpEq (a b : FVal) : Bool × BitVec 5 :=
  (!a.isNaN && !b.isNaN && a.cmp b == .eq, a.sigFlag ||| b.sigFlag)

/-- a < b with flags: NV for any NaN operand (R153). -/
def cmpLt (a b : FVal) : Bool × BitVec 5 :=
  let n := a.isNaN || b.isNaN
  (!n && a.cmp b == .lt, flagIf n flagNV)

/-- a ≤ b with flags: NV for any NaN operand (R153). -/
def cmpLe (a b : FVal) : Bool × BitVec 5 :=
  let n := a.isNaN || b.isNaN
  (!n && a.cmp b != .gt, flagIf n flagNV)

/-- Unordered, with flags: NV only for signalling operands (R204). -/
def cmpUn (a b : FVal) : Bool × BitVec 5 := (a.isNaN || b.isNaN, a.sigFlag ||| b.sigFlag)

/-- a below b with −0 below +0 (R45). -/
def FVal.below (a b : FVal) : Bool :=
  match a.cmp b with
  | .lt => true
  | .gt => false
  | .eq => a.neg && !b.neg

/-- minimumNumber of two codes (R45). -/
def FF.minNum (f : FF) (x y : Nat) : FRes :=
  let a := f.decode x
  let b := f.decode y
  let fl := a.sigFlag ||| b.sigFlag
  match a.isNaN, b.isNaN with
  | true, true => f.nanRes fl
  | true, false => { code := y % 2 ^ f.width, fl := fl }
  | false, true => { code := x % 2 ^ f.width, fl := fl }
  | false, false => { code := (if b.below a then y else x) % 2 ^ f.width, fl := 0 }

/-- maximumNumber of two codes (R45). -/
def FF.maxNum (f : FF) (x y : Nat) : FRes :=
  let a := f.decode x
  let b := f.decode y
  let fl := a.sigFlag ||| b.sigFlag
  match a.isNaN, b.isNaN with
  | true, true => f.nanRes fl
  | true, false => { code := y % 2 ^ f.width, fl := fl }
  | false, true => { code := x % 2 ^ f.width, fl := fl }
  | false, false => { code := (if a.below b then y else x) % 2 ^ f.width, fl := 0 }

/-- The class mask of fclass (R153). -/
def FF.classify (f : FF) (code : Nat) : Nat :=
  match f.decode code with
  | .nan s => if s then 2 ^ 8 else 2 ^ 9
  | .inf n => if n then 1 else 2 ^ 7
  | .fin n m _ =>
    if m = 0 then (if n then 2 ^ 3 else 2 ^ 4)
    else if m < 2 ^ f.mb then (if n then 2 ^ 2 else 2 ^ 5)
    else (if n then 2 else 2 ^ 6)

/-- A finite value rounded to an integer under a mode, and whether it is inexact (R47). -/
def roundInt (rm : RM) (neg : Bool) (m : Nat) (e : Int) : Int × Bool :=
  let r := roundAt rm neg m e 0 false
  ((if neg then -(r.1 : Int) else r.1), r.2)

end Sys2Proof.Machine
end

