-- ==== Sys2Proof/Machine/Transcend.lean ====
section
/-!
DEFINITION. vexp2 and vlog2, correctly rounded (R44, R204). 2^a and log2 a of a finite a are dyadic only where a is an
integer or a power of two; elsewhere they are irrational, and a fixed-point value with far more bits than any format
keeps, marked as exceeded, rounds as the exact value does.
-/

namespace Sys2Proof.Machine

/-- The fixed-point precision, in bits after the point. -/
def fixBits : Nat := 320

/-- The product of 2^(2^−i) over the bits of a fraction, most significant first: `root` is 2^(2^−i) in fixed point and
`frac` the bits not yet used, of which `n` remain. -/
def exp2Go : Nat → Nat → Nat → Nat → Nat
  | 0, _, _, acc => acc
  | n + 1, frac, root, acc =>
    let root' := isqrt (root * 2 ^ fixBits)
    let bit := frac / 2 ^ n % 2
    exp2Go n frac root' (if bit = 1 then acc * root' / 2 ^ fixBits else acc)

/-- 2^(frac / 2^n) in fixed point, for a fraction below one. -/
def exp2Frac (n frac : Nat) : Nat := exp2Go n frac (2 * 2 ^ fixBits) (2 ^ fixBits)

/-- round(2^a) (R204). -/
def FF.exp2 (f : FF) (rm : RM) (a : FVal) : FRes :=
  match a with
  | .nan s => f.nanRes (flagIf s flagNV)
  | .inf n => if n then { code := 0, fl := 0 } else { code := f.infCode false, fl := 0 }
  | .fin n m e =>
    if m = 0 then f.round rm false 1 0
    else if 10 < (m.log2 : Int) + e then
      f.round rm false 1 (if n then -5000 else 5000)
    else if 0 ≤ e then f.round rm false 1 (scaled n m e.toNat)
    else
      let k := (-e).toNat
      let x := scaled n m 0
      let ip := x / (2 ^ k : Nat)
      let fr := (x % (2 ^ k : Nat)).toNat
      if fr = 0 then f.round rm false 1 ip
      else f.round rm false (exp2Frac k fr) (ip - fixBits) true

/-- The bits of log2 x for x in [1, 2) in fixed point, by repeated squaring. -/
def log2Go : Nat → Nat → Nat → Nat
  | 0, _, acc => acc
  | n + 1, x, acc =>
    let y := x * x / 2 ^ fixBits
    if 2 * 2 ^ fixBits ≤ y then log2Go n (y / 2) (2 * acc + 1) else log2Go n y (2 * acc)

/-- round(log2 a) (R204): ±0 gives −∞ with DZ, a negative value NV. -/
def FF.log2 (f : FF) (rm : RM) (a : FVal) : FRes :=
  match a with
  | .nan s => f.nanRes (flagIf s flagNV)
  | .inf n => if n then f.nanRes flagNV else { code := f.infCode false, fl := 0 }
  | .fin n m e =>
    if m = 0 then { code := f.infCode true, fl := flagDZ }
    else if n then f.nanRes flagNV
    else
      let L := m.log2
      let ip : Int := L + e
      if m = 2 ^ L then f.round rm (decide (ip < 0)) ip.natAbs 0
      else
        let fr := log2Go 128 (m * 2 ^ (fixBits - L)) 0
        let x : Int := ip * 2 ^ 128 + fr
        if 0 ≤ x then f.round rm false x.toNat (-128) true
        else f.round rm true ((-x).toNat - 1) (-128) true

end Sys2Proof.Machine
end

