-- ==== Sys2Proof/Machine/Convert.lean ====
section
/-!
DEFINITION. Elements of the sixteen formats (R29 to R37) and the conversions between them (R47, R48, R154), with the
shared procedures of block scales (R50 to R52).
-/

namespace Sys2Proof.Machine

/-- The width of a format in bits (R29). -/
def fmtWidth : Fmt → Nat
  | .t2 => 2
  | .i4 | .e2m1 => 4
  | .i8 | .n8 | .e4m3 | .e5m2 | .e8m0 => 8
  | .i16 | .n16 | .f16 | .bf16 => 16
  | .i32 | .n32 | .f32 => 32
  | .i64 => 64

/-- The float layout of a format, none for integers and e8m0. -/
def fmtFloat : Fmt → Option FF
  | .e2m1 => some .e2m1
  | .e4m3 => some .e4m3
  | .e5m2 => some .e5m2
  | .f16 => some .f16
  | .bf16 => some .bf16
  | .f32 => some .f32
  | _ => none

/-- The format is signed, as an integer (R37). -/
def fmtSigned : Fmt → Bool
  | .i4 | .i8 | .i16 | .i32 | .i64 | .t2 => true
  | _ => false

/-- The range of an integer format (R37, R47). -/
def fmtRange (f : Fmt) : Int × Int :=
  match f with
  | .t2 => (-1, 1)
  | .n8 | .n16 | .n32 => (0, maxN (fmtWidth f))
  | _ => (minS (fmtWidth f), maxS (fmtWidth f))

/-- The low w bits of a number as a two's-complement value. -/
def signedOf (w x : Nat) : Int :=
  let y := x % 2 ^ w
  if 2 * y < 2 ^ w then y else (y : Int) - (2 ^ w : Nat)

/-- The value of an integer element; t2's 0b10 is 0 with NV (R31, R36, R37). -/
def intElem (f : Fmt) (code : Nat) : Int × BitVec 5 :=
  match f with
  | .t2 =>
    (match code % 4 with
     | 1 => (1, 0)
     | 3 => (-1, 0)
     | 2 => (0, flagNV)
     | _ => (0, 0))
  | .n8 | .n16 | .n32 => ((code % 2 ^ fmtWidth f : Nat), 0)
  | _ => (signedOf (fmtWidth f) code, 0)

/-- A number as a slot of an integer format: reduced to the width, then extended (R30). -/
def intSlot (f : Fmt) (x : Int) : Slot :=
  let w := fmtWidth f
  let y := (x % (2 ^ w : Nat)).toNat
  if fmtSigned f then BitVec.ofInt 32 (signedOf w y) else BitVec.ofNat 32 y

/-- A code as a slot of a format, extended as R30 states. The t2 code 0b10, which R30 lists no pattern for and whose value R36
calls 0, is extended as the others are (DESIGN CHOICE, log 89). -/
def codeSlot (f : Fmt) (code : Nat) : Slot :=
  let w := fmtWidth f
  if fmtSigned f then BitVec.ofInt 32 (signedOf w code) else BitVec.ofNat 32 (code % 2 ^ w)

/-- A slot and the flags raised by what wrote it. -/
structure ERes where
  slot : Slot
  fl : BitVec 5
  deriving DecidableEq, Repr

/-- A value before conversion. -/
inductive CVal where
  | flt (v : FVal)
  | int (x : Int)
  | e8 (code : Nat)
  deriving DecidableEq, Repr

/-- The value of an element of a format, with the flags of decoding it (R31, R36). -/
def elemVal (f : Fmt) (code : Nat) : CVal × BitVec 5 :=
  match f with
  | .e8m0 => (.e8 (code % 256), 0)
  | _ =>
    match fmtFloat f with
    | some ff => (.flt (ff.decode code), 0)
    | none => let r := intElem f code; (.int r.1, r.2)

/-- An integer as a finite value. -/
def intVal (x : Int) : FVal := .fin (decide (x < 0)) x.natAbs 0

/-- A conversion to a float format (R47): e4m3 and e2m1 have no infinities, and e2m1 no NaN. -/
def toFloat (ff : FF) (rm : RM) (fromE8 : Bool) (v : FVal) : FRes :=
  match v with
  | .nan s => { code := ff.nan, fl := if ff = .e2m1 then flagNV else flagIf (s && !fromE8) flagNV }
  | .inf n => if ff.ieee then { code := ff.infCode n, fl := 0 } else { code := ff.maxCode n, fl := flagNV }
  | .fin n m e => ff.round rm n m e

/-- A float value rounded and clamped into an integer range; NV where it does not fit (R47). -/
def toIntRange (lo hi : Int) (rm : RM) (v : FVal) : Int × BitVec 5 :=
  match v with
  | .nan _ => (0, flagNV)
  | .inf n => (if n then lo else hi, flagNV)
  | .fin n m e =>
    if 80 < (m.log2 : Int) + e ∧ m ≠ 0 then (if n then lo else hi, flagNV)
    else
      let r := roundInt rm n m e
      if r.1 < lo then (lo, flagNV) else if hi < r.1 then (hi, flagNV) else (r.1, flagIf r.2 flagNX)

/-- A magnitude m × 2^e as an e8m0 code (R48). -/
def toE8 (m : Nat) (e : Int) : Nat × BitVec 5 :=
  if m = 0 then (0, flagUF)
  else
    let L : Int := m.log2 + e
    let c := L + 127
    if c < 0 then (0, flagUF ||| flagNX)
    else if 254 < c then (254, flagNX)
    else (c.toNat, flagIf (m != 2 ^ m.log2) flagNX)

/-- The value of an e8m0 code (R35). -/
def e8Val (code : Nat) : FVal := if code = 255 then .nan false else .fin false 1 ((code : Int) - 127)

/-- A conversion of an element between formats (R47, R48). -/
def convert (dst src : Fmt) (rm : RM) (code : Nat) : ERes :=
  let (v, fl0) := elemVal src code
  match dst with
  | .e8m0 =>
    (match v with
     | .flt (.nan _) | .flt (.inf _) => { slot := 0xFF, fl := flagNV }
     | .flt (.fin _ m e) => let r := toE8 m e; { slot := BitVec.ofNat 32 r.1, fl := r.2 }
     | .int x => let r := toE8 x.natAbs 0; { slot := BitVec.ofNat 32 r.1, fl := r.2 ||| fl0 }
     | .e8 c => { slot := BitVec.ofNat 32 c, fl := 0 })
  | _ =>
    match fmtFloat dst with
    | some ff =>
      let r := match v with
        | .flt x => toFloat ff rm false x
        | .int x => toFloat ff rm false (intVal x)
        | .e8 c => toFloat ff rm true (e8Val c)
      { slot := BitVec.ofNat 32 r.code, fl := r.fl ||| fl0 }
    | none =>
      let (lo, hi) := fmtRange dst
      match v with
      | .flt x => let r := toIntRange lo hi rm x; { slot := intSlot dst r.1, fl := r.2 }
      | .e8 c => let r := toIntRange lo hi rm (e8Val c); { slot := intSlot dst r.1, fl := r.2 }
      | .int x => let r := clampFlags lo hi x; { slot := intSlot dst r.1, fl := r.2 ||| fl0 }

/-! Scalar floats (R153, R154). -/

/-- The layout of a scalar float format. -/
def sfmtFF : SFmt → FF
  | .f32 => .f32
  | .f64 => .f64
  | .bf16 => .bf16
  | .f16 => .f16

/-- A float code in a g register, zeros above its width (R153). -/
def fRes (r : FRes) : Word × BitVec 5 := (BitVec.ofNat 64 r.code, r.fl)

/-- The result of fcvt (R154). -/
def fcvtRes (f : SFmt) (k : CvtKind) (dir : Bool) (rm : RM) (x : Word) : Word × BitVec 5 :=
  let fltTo (dst src : FF) : Word × BitVec 5 := fRes (dst.ofVal rm (src.decode x.toNat))
  let intTo (v : Int) : Word × BitVec 5 := fRes ((sfmtFF f).ofVal rm (intVal v))
  let toInt (lo hi : Int) : Word × BitVec 5 :=
    let r := toIntRange lo hi rm ((sfmtFF f).decode x.toNat)
    (BitVec.ofInt 64 r.1, r.2)
  match dir, k with
  | false, .f32 => fltTo (sfmtFF f) .f32
  | false, .f64 => fltTo (sfmtFF f) .f64
  | false, .bf16 => fltTo (sfmtFF f) .bf16
  | false, .f16 => fltTo (sfmtFF f) .f16
  | false, .i64 => intTo x.toInt
  | false, .n64 => intTo x.toNat
  | false, .i32 => intTo (signedOf 32 x.toNat)
  | false, .n32 => intTo (x.toNat % 2 ^ 32 : Nat)
  | true, .f32 => fltTo .f32 (sfmtFF f)
  | true, .f64 => fltTo .f64 (sfmtFF f)
  | true, .bf16 => fltTo .bf16 (sfmtFF f)
  | true, .f16 => fltTo .f16 (sfmtFF f)
  | true, .i64 => toInt (minS 64) (maxS 64)
  | true, .n64 => toInt 0 (maxN 64)
  | true, .i32 => toInt (minS 32) (maxS 32)
  | true, .n32 => toInt 0 (maxN 32)

/-! Block scales (R50 to R52). -/

/-- emax of a block format (R49). -/
def blockEmax : Fmt → Int
  | .i4 | .e2m1 => 2
  | .i8 => 6
  | .e4m3 => 8
  | .e5m2 => 15
  | _ => 0

/-- The code a block format stores for a NaN (R51). -/
def nanOrZero (f : Fmt) : Slot :=
  match fmtFloat f with
  | some ff => BitVec.ofNat 32 ff.nan
  | none => 0

/-- to_fmt_clamped (R51): one rounding, then the nearest end of the format's range. -/
def toFmtClamped (f : Fmt) (rm : RM) (neg : Bool) (m : Nat) (e : Int) : ERes :=
  match fmtFloat f with
  | some ff =>
    let big := 40 < (m.log2 : Int) + e && m != 0
    let r := ff.round rm neg m e
    if big || r.fl &&& flagOF ≠ 0 then { slot := BitVec.ofNat 32 (ff.maxCode neg), fl := flagNX }
    else
      let body := r.code % 2 ^ (ff.eb + ff.mb)
      let uf := body != 0 && decide (body < 2 ^ ff.mb) && r.fl &&& flagNX != 0
      { slot := BitVec.ofNat 32 r.code, fl := (r.fl &&& flagNX) ||| flagIf uf flagUF }
  | none =>
    let (lo, hi) := fmtRange f
    if 40 < (m.log2 : Int) + e ∧ m ≠ 0 then { slot := intSlot f (if neg then lo else hi), fl := flagNX }
    else
      let r := roundInt rm neg m e
      if r.1 < lo then { slot := intSlot f lo, fl := flagNX }
      else if hi < r.1 then { slot := intSlot f hi, fl := flagNX }
      else { slot := intSlot f r.1, fl := flagIf r.2 flagNX }

/-- A finite value of f32 that is larger in magnitude. -/
def maxMag (a b : Nat × Int) : Nat × Int :=
  let e := min a.2 b.2
  if a.1 * 2 ^ (a.2 - e).toNat < b.1 * 2 ^ (b.2 - e).toNat then b else a

/-- The scale that vq gives a block of f32 elements (R51): 0xFF where one is a NaN or an infinity. -/
def blockScale (f : Fmt) (xs : List Slot) : Nat :=
  let vs := xs.map fun x => FF.f32.decode x.toNat
  if vs.any fun v => match v with | .fin .. => false | _ => true then 255
  else
    let m := vs.foldl (fun acc v => match v with | .fin _ m e => maxMag acc (m, e) | _ => acc) (0, 0)
    if m.1 = 0 then 0
    else
      let c : Int := (m.1.log2 : Int) + m.2 - blockEmax f + 127
      (max 0 (min c 254)).toNat

/-- The element that vq stores under a scale, with the flags it raises (R51). -/
def vqElem (f : Fmt) (rm : RM) (sc : Nat) (x : Slot) : ERes :=
  match FF.f32.decode x.toNat with
  | .fin n m e => if sc = 255 then { slot := nanOrZero f, fl := 0 } else toFmtClamped f rm n m (e + 127 - sc)
  | .nan s => { slot := nanOrZero f, fl := flagIf s flagNV }
  | .inf _ => { slot := nanOrZero f, fl := flagNV }

/-- The element that vdq gives for a code under a scale (R52). -/
def vdqElem (src : Fmt) (dst : FF) (rm : RM) (sc : Nat) (x : Slot) : ERes :=
  if sc = 255 then { slot := BitVec.ofNat 32 dst.nan, fl := 0 }
  else
    let (v, fl0) := elemVal src x.toNat
    let scale (neg : Bool) (m : Nat) (e : Int) : ERes :=
      let r := dst.round rm neg m (e + sc - 127)
      { slot := BitVec.ofNat 32 r.code, fl := r.fl ||| fl0 }
    match v with
    | .flt (.fin n m e) => scale n m e
    | .flt (.inf n) => { slot := BitVec.ofNat 32 (dst.infCode n), fl := 0 }
    | .flt (.nan _) => { slot := BitVec.ofNat 32 dst.nan, fl := 0 }
    | .int x => scale (decide (x < 0)) x.natAbs 0
    | .e8 _ => { slot := BitVec.ofNat 32 dst.nan, fl := 0 }

end Sys2Proof.Machine
end

