-- ==== Sys2Proof/Machine/Operands.lean ====
section
/-!
DEFINITION. Operand forms and the plain computations of the scalar instructions: integer results of major 0x10 (R150,
R151), immediates (R152, R75), effective addresses (R67, R236, R265), and branch conditions (R155).
-/

namespace Sys2Proof.Machine

/-- Bits [127:64] of a product of signed values (R150). -/
def mulHigh (x y : Int) : Word := BitVec.ofInt 64 ((x * y) / 2 ^ 64)

/-- Signed quotient truncated toward zero; a zero divisor gives all ones (R151). -/
def divSigned (x y : Word) : Word := if y = 0 then BitVec.allOnes 64 else BitVec.ofInt 64 (x.toInt.tdiv y.toInt)

/-- Signed remainder with the sign of the dividend; a zero divisor gives x (R151). -/
def remSigned (x y : Word) : Word := if y = 0 then x else BitVec.ofInt 64 (x.toInt.tmod y.toInt)

/-- Unsigned quotient; a zero divisor gives all ones (R151). -/
def divUnsigned (x y : Word) : Word := if y = 0 then BitVec.allOnes 64 else BitVec.ofNat 64 (x.toNat / y.toNat)

/-- Unsigned remainder; a zero divisor gives x (R151). -/
def remUnsigned (x y : Word) : Word := if y = 0 then x else BitVec.ofNat 64 (x.toNat % y.toNat)

/-- 1 where a condition holds, else 0. -/
def boolWord (p : Bool) : Word := if p then 1 else 0

/-- Count of leading zero bits; 64 for 0 (R150). -/
def clzWord (x : Word) : Word := if x = 0 then 64 else BitVec.ofNat 64 (63 - x.toNat.log2)

/-- Count of trailing zero bits; 64 for 0 (R150). -/
def ctzWord (x : Word) : Word := if x = 0 then 64 else BitVec.ofNat 64 ((x &&& (0 - x)).toNat.log2)

/-- The number of 1 bits among the k low bits of a number. -/
def popNat : Nat → Nat → Nat
  | 0, _ => 0
  | k + 1, x => x % 2 + popNat k (x / 2)

/-- Count of 1 bits (R150). -/
def popcWord (x : Word) : Word := BitVec.ofNat 64 (popNat 64 x.toNat)

/-- The low n bits of a word, sign-extended (R150). -/
def sextLow (n : Nat) (x : Word) : Word :=
  let y := x.toNat % 2 ^ n
  if 2 * y < 2 ^ n then BitVec.ofNat 64 y else BitVec.ofInt 64 ((y : Int) - 2 ^ n)

/-- The low n bits of a word, zero-extended (R150). -/
def zextLow (n : Nat) (x : Word) : Word := BitVec.ofNat 64 (x.toNat % 2 ^ n)

/-- Signed addition or subtraction clamped to 64 bits, with flags (R150, R46). -/
def clamp64 (x : Int) : Word × BitVec 5 :=
  let r := clampFlags (minS 64) (maxS 64) x
  (BitVec.ofInt 64 r.1, r.2)

/-- The sign-extended 32-bit immediate (R152). -/
def sext32 (imm : BitVec 32) : Word := imm.signExtend 64

/-- ldih: the upper half replaced (R152). -/
def upperHalf (old : Word) (imm : BitVec 32) : Word := imm ++ old.extractLsb' 0 32

/-- The effective address of a scalar access (R67). -/
def Hart.ea (h : Hart) (base index : GReg) (scale : BitVec 2) (off : BitVec 18) : Word :=
  h.rd base + (h.rd index <<< scale.toNat) + off.signExtend 64

/-- The effective address of an atomic (R265). -/
def Hart.eaAmo (h : Hart) (base : GReg) (off : BitVec 18) : Word := h.rd base + off.signExtend 64

/-- The effective address of wait (R265). -/
def Hart.eaWait (h : Hart) (base : GReg) (off : BitVec 14) : Word := h.rd base + off.signExtend 64

/-- The address of a pair slot's memory op (R75). -/
def Hart.eaSlot (h : Hart) (s : GReg) (imm : BitVec 12) : Word := h.rd s + (imm.signExtend 64 <<< 3)

/-- A conditional branch (R155). -/
def branchIf (p : Bool) (off : BitVec 32) (h : Hart) : Hart := if p then h.branch off else h.advance

/-- A branch instruction: it retires at its target or at the next word (R155). -/
def branchOn (p : Hart → Bool) (off : BitVec 32) (s : State) : Host.Outcome State Fault Refusal :=
  if s.cur.status = .running then .next { s with cur := branchIf (p s.cur) off s.cur.count } else .fault .noHart

end Sys2Proof.Machine
end

