-- ==== Sys2Proof/Machine/Vector.lean ====
section
/-!
DEFINITION. Strip and anchored registers as the sequencer's instructions reach them (R192 to R203), parity of their
slots (R396), and the loop body of R199.
-/

namespace Sys2Proof.Machine

/-- The rounding mode of the hart on the front end (R38). -/
def rmodeOf (h : Hart) : RM := RM.ofBits h.ctx.rm

/-- A terminating trap that a queued instruction takes: topc stands at the boundary, tfpc at the instruction, tlag is
its skid (R386). -/
def vtrap {α : Type} (op : VOp) (code : Nat) (tval : Word) : M α := do
  let h ← hart
  trapAt code tval op.opc (h.retired - op.at_)

/-- tval of a parity trap (R385): both planes of a tile are file 4. -/
def parityTval (file reg idx : Nat) : Word := BitVec.ofNat 64 (min file 4 * 2 ^ 56 + reg * 2 ^ 48 + idx)

/-- Takes the parity trap where a slot that an instruction reads has failed (R396, R203). -/
def parityCheck (op : VOp) (file reg row j : Nat) : M Unit := do
  let s ← get
  if s.spots.isEmpty then pure ()
  else if s.spots.contains (.slot s.cur.hid file reg row j) then
    vtrap op 20 (parityTval file reg (if 4 ≤ file then row * 2 ^ 16 + j else row * op.vl + j))
  else pure ()

/-- A slot that is written again no longer fails parity. -/
def State.mendSpot (s : State) (file reg row j : Nat) : State :=
  if s.spots.isEmpty then s
  else { s with spots := s.spots.filter fun e => e != .slot s.cur.hid file reg row j }

/-- What becomes void in some files of a hart's state no longer fails parity (R396). -/
def State.mendHart (s : State) (k : Nat) (files : List Nat) : State :=
  if s.spots.isEmpty then s
  else
    { s with spots := s.spots.filter fun e =>
        match e with | .slot h file .. => !(h == k && files.contains file) | _ => true }

/-- A strip slot of the hart. -/
def Hart.slotV (h : Hart) (reg r j : Nat) : Slot := Sparse.get h.ctx.v (stripKey reg r j)
/-- A mask bit of the hart. -/
def Hart.bitM (h : Hart) (reg r j : Nat) : BitVec 1 := Sparse.get h.ctx.m (stripKey reg r j)
/-- A scale of the hart. -/
def Hart.scaleV (h : Hart) (reg r b : Nat) : BitVec 8 := Sparse.get h.ctx.sc (stripKey reg r b)
/-- An anchored slot of the hart. -/
def Hart.slotA (h : Hart) (reg r sl : Nat) : Slot := Sparse.get h.ctx.a (anchKey reg r sl)

/-- Writes a strip slot. -/
def Hart.setV (h : Hart) (reg r j : Nat) (x : Slot) : Hart :=
  { h with ctx := { h.ctx with v := Sparse.set h.ctx.v (stripKey reg r j) x } }
/-- Writes a mask bit. -/
def Hart.setM (h : Hart) (reg r j : Nat) (x : BitVec 1) : Hart :=
  { h with ctx := { h.ctx with m := Sparse.set h.ctx.m (stripKey reg r j) x } }
/-- Writes a scale. -/
def Hart.setSc (h : Hart) (reg r b : Nat) (x : BitVec 8) : Hart :=
  { h with ctx := { h.ctx with sc := Sparse.set h.ctx.sc (stripKey reg r b) x } }
/-- Writes an anchored slot. -/
def Hart.setA (h : Hart) (reg r sl : Nat) (x : Slot) : Hart :=
  { h with ctx := { h.ctx with a := Sparse.set h.ctx.a (anchKey reg r sl) x } }

/-- Reads a strip slot as an instruction does. -/
def rdV (op : VOp) (reg : VReg) (r j : Nat) : M Slot := do
  parityCheck op 1 reg.toNat r j
  return (← hart).slotV reg.toNat r j
/-- Reads a mask bit as an instruction does. -/
def rdM (op : VOp) (reg : MReg) (r j : Nat) : M (BitVec 1) := do
  parityCheck op 2 reg.toNat r j
  return (← hart).bitM reg.toNat r j
/-- Reads a scale as an instruction does. -/
def rdSc (op : VOp) (reg : VReg) (r b : Nat) : M (BitVec 8) := do
  parityCheck op 3 reg.toNat r b
  return (← hart).scaleV reg.toNat r b
/-- Reads an anchored slot. -/
def rdA (reg : AReg) (r sl : Nat) : M Slot := return (← hart).slotA reg.toNat r sl

/-- Writes a strip slot. -/
def wrV (reg : VReg) (r j : Nat) (x : Slot) : M Unit :=
  modify fun s => { s.mendSpot 1 reg.toNat r j with cur := s.cur.setV reg.toNat r j x }
/-- Writes a mask bit. -/
def wrM (reg : MReg) (r j : Nat) (x : BitVec 1) : M Unit :=
  modify fun s => { s.mendSpot 2 reg.toNat r j with cur := s.cur.setM reg.toNat r j x }
/-- Writes a scale. -/
def wrSc (reg : VReg) (r b : Nat) (x : BitVec 8) : M Unit :=
  modify fun s => { s.mendSpot 3 reg.toNat r b with cur := s.cur.setSc reg.toNat r b x }
/-- Writes an anchored slot. -/
def wrA (reg : AReg) (r sl : Nat) (x : Slot) : M Unit := modHart fun h => h.setA reg.toNat r sl x

/-- Raises flags (R40). -/
def raiseFl (fl : BitVec 5) : M Unit := modHart fun h => h.raise fl

/-- The row of the position an instruction stands at. -/
def VOp.r (op : VOp) : Nat := op.pos / op.vl
/-- The position within the row. -/
def VOp.j (op : VOp) : Nat := op.pos % op.vl
/-- The instruction with one more position completed. -/
def VOp.step (op : VOp) : VOp := { op with pos := op.pos + 1 }

/-- Whether a position is active under a predicate (R70). -/
def isActive (op : VOp) (e : Option MReg) (r j : Nat) : M Bool :=
  match e with
  | none => pure true
  | some pm => do return (← rdM op pm r j) == 1

/-- Writes the exception-mask bit of a position (R42). -/
def setExc (x : Option MReg) (r j : Nat) (b : BitVec 1) : M Unit :=
  match x with
  | none => pure ()
  | some xm => wrM xm r j b

/-- One position of R199: inactive positions keep the destination and clear their exception bit; active ones compute,
write, raise their flags and set their exception bit. `body` writes the destination and gives the flags. A position below vl
whose source a change of the grant made void (R181) reads +0 as any other, and its flags and its exception bit are those of
the operation (R199; R41 and R42 say that void elements raise none; DESIGN CHOICE, log 86). -/
def position (x e : Option MReg) (body : Nat → Nat → M (BitVec 5)) (op : VOp) : M VOp := do
  let r := op.r
  let j := op.j
  if ← isActive op e r j then
    let fl ← body r j
    raiseFl fl
    setExc x r j (excBit fl)
  else setExc x r j 0
  return op.step

/-- A position without exception mask or flags. -/
def plainPos (e : Option MReg) (body : Nat → Nat → M Unit) (op : VOp) : M VOp := do
  let r := op.r
  let j := op.j
  if ← isActive op e r j then body r j
  return op.step

end Sys2Proof.Machine
end

