-- ==== Sys2Proof/Machine/Commit.lean ====
section
/-!
DEFINITION. Commits and phases (R249 to R258, R272 to R274, R473): performing a version, restarts, ordered aborts,
retention, firmware commits, and the oldest task.
-/

namespace Sys2Proof.Machine

/-! Gossip words at the home, as a commit's deferred contributions reach them (R421, R423). -/

/-- Changes a gossip region that is defined. -/
def State.onRegion (s : State) (n : Nat) (f : Region → Region) : State :=
  match AMap.find? s.regions n with
  | some r => { s with regions := AMap.put s.regions n (f r) }
  | none => s

/-- The physical address of a word of a page of a region (R413). -/
def Region.wordPa (r : Region) (page word : Nat) : Nat := r.pages.getD page 0 + 8 * word

/-- A word of a gossip page as a signed number (R413). -/
def State.gword (s : State) (r : Region) (page word : Nat) : Int := (s.dword (r.wordPa page word)).toInt

/-- Counts an access to a page and names the last contributor (R459). -/
def Region.counted (page : Nat) (contrib : Option Nat) (r : Region) : Region :=
  { r with counts := AMap.put r.counts page ((AMap.find? r.counts page).getD 0 + 1),
           contrib := match contrib with | some k => AMap.put r.contrib page k | none => r.contrib }

/-- Whether a value fits i64 (R421). -/
def fits64 (x : Int) : Bool := decide (minS 64 ≤ x) && decide (x ≤ maxS 64)

/-- Adds a contribution to a word of a page, or refuses it and sets ovf (R421). Answers whether it was performed. -/
def State.contribute (s : State) (commit : Option Nat) (n page word : Nat) (x : Int) : State × Bool :=
  match AMap.find? s.regions n with
  | none => (s, false)
  | some r =>
    let y := s.gword r page word + x
    if fits64 y then (s.writeHome commit (cellsAt (r.wordPa page word) (wordBytes 8 (BitVec.ofInt 64 y))), true)
    else (s.onRegion n fun r => { r with ovf := true }, false)

/-! Deferred effects of an ordered task (R274, R423). -/

/-- Adds an f32 to a word at the home with RNE (R266, R39). -/
def State.faddAt (s : State) (commit : Option Nat) (pa : Nat) (x : BitVec 32) : State :=
  let old := leNat (s.bytes pa 4)
  let y := FF.f32.add .rne (FF.f32.decode old) (FF.f32.decode x.toNat)
  s.writeHome commit (cellsAt pa (toBytes 4 y.code))

/-- The cells of a write of some bits of each byte; host memory takes none while its link is lost (R300). -/
def State.maskCells (s : State) (cs : List (Nat × Byte × Byte)) : List (Nat × Byte) :=
  (cs.filter fun (pa, _, _) => !(isHostMem pa && !s.hostUp)).map fun (pa, b, m) =>
    (pa, (s.byte pa &&& ~~~m) ||| (b &&& m))

/-- A transfer's place among the deferred effects: it stays until the transfer's data is read (R274, R303). -/
def Deferred.isCopy : Deferred → Bool
  | .copy .. => true
  | _ => false

/-- A transfer started in the phase has not read its data: its writes belong to the phase's commit (R274, R303). -/
def Hart.copyUnread (h : Hart) : Bool := h.defer.any fun x => x.2.isCopy

/-- An effect with its place in a list of deferred ones in program order: behind those of its place or an earlier one. -/
def placeDeferred (at_ : Nat) (d : Deferred) : List (Nat × Deferred) → List (Nat × Deferred)
  | [] => [(at_, d)]
  | x :: t => if x.1 ≤ at_ then x :: placeDeferred at_ d t else (at_, d) :: x :: t

/-- Defers an effect of the instruction before which so many have retired (R274). -/
def Hart.deferAt (h : Hart) (at_ : Nat) (d : Deferred) : Hart := { h with defer := placeDeferred at_ d h.defer }

/-- Defers an effect of the instruction at which the hart stands (R274). -/
def Hart.deferNow (h : Hart) (d : Deferred) : Hart := h.deferAt (h.retired + 1) d

/-- A hart owes a terminating trap, taken at the next boundary at which it stands (R397). -/
def Hart.owe (h : Hart) (code : Nat) (tval : Word) : Hart :=
  if h.owed.isSome then h else { h with owed := some (code, tval, h.ctx.pc, h.retired) }

/-- A page holds an uncorrectable line (R28). -/
def State.pageBad (s : State) (r : Region) (page : Nat) : Bool :=
  !s.bad.isEmpty && (List.range 64).any fun k => s.badPa (r.wordPa page 0 + 64 * k)

/-- Performs one deferred effect as part of commit k. An addition to an uncorrectable line, or at a package that cannot be
reached, is not performed, and the task takes cause 21 (R28, R452) at its next boundary. -/
def performDeferred (k : Nat) (s : State) : Deferred → State
  | .fadd _ pa x =>
    if s.badPa pa then { s with cur := s.cur.owe 21 (BitVec.ofNat 64 (pa / 64 * 64)) } else s.faddAt (some k) pa x
  | .bytes _ pa bs => if isHostMem pa && !s.hostUp then s else s.writeHome (some k) (cellsAt pa bs)
  | .peer pkg va bs => { s with out := s.out ++ [.peer pkg s.cur.part va bs] }
  | .fabric pkg va x =>
    (match s.sendFabric s.cur.hid false s.cur.part pkg va fun n => .amo n 10 4 va (x.setWidth 64) 0 with
     | some y => y.1
     | none => { s with cur := s.cur.owe 21 (BitVec.ofNat 64 va) })
  | .gadd reg page word x =>
    let at_ := match AMap.find? s.regions reg with | some r => r.wordPa page word | none => 0
    if (AMap.find? s.regions reg).isSome && s.badPa at_ then { s with cur := s.cur.owe 21 (BitVec.ofNat 64 (at_ / 64 * 64)) }
    else
      let r := s.contribute (some k) reg page word x.toInt
      if r.2 then r.1 else r.1.logError s.cur.part 4 (BitVec.ofNat 64 reg :: s.cur.reportWords)
  | .copy .. => s
  | .cells cs => s.writeHome (some k) (s.maskCells cs)

/-! Restarts (R258). -/

/-- A hart inside bar.ph, whose phase began there and which has arrived (R140, R250), or inside a ph that awaits its
snapshot in replay (R461). -/
def Hart.inBegin (h : Hart) : Bool :=
  match h.wait with
  | some (.bar _ _ (some _)) => true
  | _ => h.half.isSome

/-- The hart at the start of its failed phase (R258): version and work in flight gone, strip state void, the frame's
registers back, and a new snapshot. Inside bar.ph it stays there, since nothing follows the phase begin yet (log 32).
Writes of copies still in flight lose their place with the version (R258, R303). -/
def Hart.restart (h : Hart) (commits seq : Nat) : Hart :=
  let f := h.frame
  let h := h.dropQueue
  { h with
    ctx := { h.ctx with
      pc := if h.inBegin then h.ctx.pc else f.pc, iter := if h.inBegin then h.ctx.iter else f.iter,
      resid := if h.inBegin then h.ctx.resid else f.resid, g := f.g, v := [], m := [], sc := [], a := f.a, rm := f.rm,
      fflags := f.fflags, nr := f.nr, fmt := f.fmt, blk := f.blk, prio := f.prio, fpk := f.fpk, vbeg := none },
    pts := f.pts, trap := { h.trap with hdl := f.hdl }, hframe := if f.hdl then h.hframe else none,
    wait := if h.inBegin then h.wait else none, capWait := none, redo := none, due := .nothing, pass := false, sq := [], ver := [], defer := [], intents := [],
    defs := [], reads := [], cmn := commits, snapSeq := seq, status := (match h.status with | .swapped .. => .saved | x => x) }

/-- A 16-bit count that saturates (R259). -/
def satInc16 (n : Nat) : Nat := if n < 0xFFFF then n + 1 else n

/-- The snapshot of a phase that begins without an instruction of its own is logged, or the log has still to take it: a
full stream holds the hart, and in replay it waits for its entry (R460, R461). -/
def State.birthSnapshot (s : State) (k : Nat) : State :=
  match s.hart? k with
  | none => s
  | some h =>
    match AMap.find? s.launches h.lid with
    | none => s
    | some l =>
      if l.recMode = 0 then s
      else if l.recMode = 1 ∧ l.roomFor h.stream 2 then
        s.logWords h.lid h.stream [entryHead 8 h.ctx.pc, BitVec.ofNat 64 l.commits]
      else s.onHart k fun h => { h with due := .snapshot }

/-- The snapshot entry of a phase begin, where the hart's launch records it (R459, kind 8). -/
def State.logSnapshot (s : State) (h : Hart) : State :=
  match AMap.find? s.launches h.lid with
  | none => s
  | some l =>
    if l.recMode = 1 then s.logWords h.lid h.stream [entryHead 8 h.ctx.pc, BitVec.ofNat 64 l.commits]
    else if l.recMode = 2 then s.takeWords h.lid h.stream 2
    else s

/-- Restarts the hart of a key: its reservations are given up and its phase runs again (R258). -/
def State.restartHart (s : State) (k : Nat) (f : Hart → Hart) : State :=
  match s.hart? k with
  | none => s
  | some h =>
    let s := (s.unreserve h.part h.intents).mendHart k [1, 2, 3]
    (s.onHart k fun x => f (x.restart s.commits s.seq)).birthSnapshot k

/-! Ordered launches (R271 to R273). -/

/-- A task is before another by (pts, wid) (R271). -/
def taskBefore (p w p' w' : Word) : Bool := p.ult p' || (p == p' && w.ult w')

/-- The task of the hart on the front end is the oldest of its launch (R272); never in a free launch (R259). -/
def State.oldest (s : State) : Bool :=
  let h := s.cur
  h.ordered
    && (s.harts.all fun x => x.lid != h.lid || x.status == .exited || x.hid == h.hid
          || !taskBefore x.pts x.wid h.pts h.wid)
    && (match AMap.find? s.launches h.lid with
        | some l => decide (l.ngroups ≤ l.placed) || taskBefore h.pts h.wid 0 (workId l.hdr l.placed 0)
        | none => true)

/-- Enters lines into the read set of an ordered task under a snapshot number, the lowest kept (R273). -/
def Hart.noteReads (h : Hart) (snap : Nat) : List Nat → Hart
  | [] => h
  | l :: t =>
    let n := match AMap.find? h.reads l with | some k => min k snap | none => snap
    { h with reads := AMap.put h.reads l n }.noteReads snap t

/-- Aborts every other task of an ordered launch that read a line which commit k wrote (R273). -/
def State.abortReaders (s : State) (k : Nat) (lines : List Nat) : State :=
  let me := s.cur
  let victims := (s.rest.filter fun x =>
    x.lid == me.lid && x.status != .exited && x.reads.any fun (l, n) => decide (n < k) && lines.contains l).map (·.hid)
  victims.foldl (fun s v => s.restartHart v fun x => { x with abrt := satInc16 x.abrt }) s

/-! Performing a commit (R252). -/

/-- The lines that the kept writes from a place in the order of writes wrote. -/
def State.linesSince (s : State) (from_ : Nat) : List Nat :=
  (s.hist.filter fun r => decide (from_ ≤ r.seq)).flatMap fun r => r.cells.map fun (pa, _, _) => pa / 64

/-- The lines of the pages and words that a hart's version, intents and deferred effects name. -/
def Hart.commitLines (h : Hart) : List Nat :=
  h.verLines ++ h.defer.flatMap fun d =>
    match d.2 with
    | .fadd _ pa _ => [pa / 64]
    | .bytes _ pa bs => (cellsAt pa bs).map fun (a, _) => a / 64
    | .cells cs => cs.map fun (a, _, _) => a / 64
    | .peer .. | .fabric .. | .gadd .. | .copy .. => []

/-- Writes the version of the hart on the front end as the package's next commit: bytes, held definitions, intents,
deferred effects, in that order (R252, R274, R308, R344), and aborts the readers of an ordered launch (R273). The
committing hart's snapshot still stands, so the kept writes list every line the commit wrote. -/
def State.performCommit (s : State) : State :=
  let h := s.cur
  let k := s.commits + 1
  let from_ := s.seq
  let s := { s with commits := k }.onLaunch h.lid fun l => { l with commits := l.commits + 1 }
  let s := s.writeHome (some k) h.ver
  let s := s.onLaunch h.lid fun l =>
    { l with tensors := (h.defs.reverse.map fun d => (d.tid, k, d.layout)) ++ l.tensors }
  let s := h.intents.foldl (performIntent k h.part) s
  let s := h.defer.foldl (fun (s : State) (d : Nat × Deferred) => performDeferred k s d.2) s
  let lines := h.commitLines ++ s.linesSince from_
  let s := { s with cur := { s.cur with ver := [], defer := h.defer.filter fun d => d.2.isCopy, intents := [], defs := [], reads := [],
                                        phn := s.cur.phn + 1 } }
  let s := if s.recMode h.lid = 1 then s.logWords h.lid 0 [entryHead 7 0, h.wid]
    else if s.recMode h.lid = 2 then s.takeWords h.lid 0 2 else s
  let s := s.traceHart 3 0 (BitVec.ofNat 64 k) 0
  if h.ordered then s.abortReaders k lines else s

/-- Begins a phase of the hart on the front end: snapshot, and the phase frame unless the hart runs its handler after a
terminating trap (R258, R390). `firmware` marks a phase begun by a firmware commit (R473). -/
def State.beginPhase (s : State) (firmware : Bool) : State :=
  let s := s.snapshot.birthSnapshot s.cur.hid
  let h := s.cur
  if h.trap.hdl ∧ h.trap.term then s
  else { s with cur := { h with frame := h.ctx.frame h.pts h.trap.hdl firmware } }

/-- A page that the commit writes is being moved: the homes hold the commit (R226). -/
def State.commitBlocked (s : State) : Bool :=
  !s.migr.isEmpty && s.cur.commitLines.any fun l =>
    s.migr.any fun m => decide (m.old ≤ l / 64) && decide (l / 64 < m.old + m.pages)

/-- The log lets the launch's next commit by this hart happen now: room while recording (R460), the logged order in
replay (R461). -/
def State.commitLogged (s : State) : Bool :=
  match AMap.find? s.launches s.cur.lid with
  | none => true
  | some l =>
    match l.recMode with
    | 1 => l.roomFor 0 2 && l.roomFor s.cur.stream 2
    | 2 =>
      (match s.nextEntry s.cur.lid 0 with
       | some (a, w) => a.extractLsb' 56 8 == 7 && w == s.cur.wid
       | none => false) && !l.commitHeld
    | _ => true

/-- The commit that firmware makes on the hart's behalf: as ph, in place, with the phase frame at the boundary where the
hart stands (R257, R473). The commit in place of an ordered launch sets no flag. -/
def State.firmwareCommit (s : State) : State :=
  let ov := s.cur.ovf || !s.cur.ordered
  let s := s.performCommit.beginPhase true
  { s with cur := { s.cur with ovf := ov } }

/-! Retention and snapshot loss (R256, R257). -/

/-- Runs a change of the state with another hart on the front end. -/
def State.with_ (s : State) (k : Nat) (f : State → State) : State := (f (s.focus k)).frontAs s

/-- The snapshot-lost fault of a hart: its phase restarts, or a phase begun by firmware is committed again (R258,
R473). -/
def State.loseSnapshot (s : State) (k : Nat) : State :=
  match s.hart? k with
  | none => s
  | some h =>
    let lose := fun (x : Hart) => { x with lost := satInc16 x.lost }
    let t := s.focus k
    if h.frame.firmware then
      if t.commitBlocked || !t.commitLogged then
        s.onHart k fun x => lose { x with due := .commit, cmn := s.commits, snapSeq := s.seq }
      else (s.with_ k State.firmwareCommit).onHart k lose
    else s.restartHart k lose

/-- The hart with the oldest snapshot, ties to the lower package hart number (R257). -/
def oldestSnap : List Hart → Option Hart
  | [] => none
  | h :: t =>
    match oldestSnap t with
    | none => some h
    | some x => if h.cmn < x.cmn || (h.cmn == x.cmn && decide (h.hnum < x.hnum)) then some h else some x

/-- The snapshot of a hart needs a line of a die as it stood before a kept commit (R256). -/
def State.needsOf (s : State) (die : Nat) (h : Hart) : Bool :=
  s.hist.any fun r =>
    (match r.commit with | some k => decide (h.cmn < k) | none => false) && r.cells.any fun (pa, _, _) => homeDie pa == die

/-- A hart of a free launch whose snapshot needs a retained line of a die that holds more lines than its share (R257). -/
def State.mayLose (s : State) (h : Hart) : Bool :=
  h.status != .exited && !h.ordered &&
    (List.range 4).any fun d => decide (dieShare < s.dieLines d) && s.needsOf d h

/-- While a die holds more lines than its share, the oldest snapshot that needs one is lost (R257). An ordered launch never
comes to it. -/
def State.settleShare : Nat → State → State
  | 0, s => s
  | n + 1, s =>
    match oldestSnap (s.harts.filter s.mayLose) with
    | some h => State.settleShare n (s.loseSnapshot h.hid).prune
    | none => s

/-- Makes room for the lines that the last commit retains (R257). -/
def State.settle (s : State) : State :=
  if s.hist.isEmpty then s else (State.settleShare s.harts.length s).frontAs s

end Sys2Proof.Machine
end

