-- ==== Sys2Proof/Machine/Access.lean ====
section
/-!
DEFINITION. A hart's accesses on path H (R228 to R233, R237): reading and writing bytes at an effective address, the
stage window (R313), read sets (R273), version overflow (R257), and the faults of queued instructions (R238, R244).
-/

namespace Sys2Proof.Machine

/-! What a commit or a snapshot waits for. -/

/-- The log's part of a snapshot (R459, kind 8): room while recording; in replay the entry must be the instruction's, and
the snapshot waits until the launch has performed the logged number of commits. `ahead` counts the commits that the
instruction itself performs before it (R460 to R462). -/
def snapGate (ahead : Nat) (early : Bool) : M Unit := do
  let s ← get
  let h := s.cur
  match AMap.find? s.launches h.lid with
  | none => pure ()
  | some l =>
    match l.recMode with
    | 1 => if !l.roomFor h.stream 2 then stallLog
    | 2 =>
      match s.nextEntry h.lid h.stream with
      | none => diverge s.entryPos 0 (entryHead 8 h.ctx.pc)
      | some (a, b) =>
        if a ≠ entryHead 8 h.ctx.pc then diverge s.entryPos a (entryHead 8 h.ctx.pc)
        if !early ∧ b.toNat ≠ l.commits + ahead then leave
    | _ => pure ()

/-- What holds a commit back (R226, R460, R461): a page of it that is being moved, a full launch stream, another hart's
turn in replay. An exhausted launch stream diverges (R462). -/
def commitGate : M Unit := do
  let s ← get
  match AMap.find? s.launches s.cur.lid with
  | some l =>
    if l.recMode = 2 ∧ (s.nextEntry s.cur.lid 0).isNone then
      diverge (BitVec.ofNat 64 (8 * l.taken 0)) 0 (entryHead 7 0)
  | none => pure ()
  if s.commitBlocked then leave
  if !s.commitLogged then stallLog

/-- What the hart owes before it does anything else: the snapshot of a phase that began is logged, or a version whose
snapshot is lost is committed (R257, R460 to R462). -/
def takeDue : M Unit := do
  match (← hart).due with
  | .nothing => pure ()
  | .snapshot =>
    snapGate 0 false
    modify fun s => (s.logSnapshot s.cur).snapshot
    modHart fun h => { h with due := .nothing }
  | .commit =>
    commitGate
    modHart fun h => { h with due := .nothing }
    modify fun s => s.firmwareCommit.settle
    if (← hart).due ≠ .nothing then leave

/-! Reading. -/

/-- A byte of the hart as path H reads it: a device answers a free value (R231), else version or snapshot (R253). -/
def pathByte (s : State) (h : Hart) (load : Look) (p : Phys) (i : Nat) : Byte :=
  if p.cls = 1 then Config.deviceByte (s.free + i) else h.byte s load p.pa

/-- The bytes of resolved addresses, counted from i. -/
def pathBytes (s : State) (h : Hart) (load : Look) : Nat → List Phys → List Byte
  | _, [] => []
  | i, p :: t => pathByte s h load p i :: pathBytes s h load (i + 1) t

/-- The bytes that retired stores will write, as they resolve. -/
def storeCells (s : State) (h : Hart) : List PendingStore → List (Nat × Byte)
  | [] => []
  | p :: t =>
    (match resolveRange s h .store p.ea p.bytes.length with
     | .ok ps => (ps.zip p.bytes).map fun (q, b) => (q.pa, b)
     | .error _ => []) ++ storeCells s h t

/-- The bytes of a load with those of the hart's earlier stores that are not yet performed (R228). -/
def overStores (s : State) (h : Hart) (ps : List Phys) (bs : List Byte) : List Byte :=
  match h.behind with
  | [] => bs
  | sq =>
    let cs := (storeCells s h sq).reverse
    (ps.zip bs).map fun (p, b) => match cs.find? fun c => c.1 == p.pa && p.cls != 1 with | some c => c.2 | none => b

/-- A retired store after a later one of the same hart: what both write, the later one keeps (R228). -/
def PendingStore.under (s : State) (h : Hart) (cells : List (Nat × Byte)) (p : PendingStore) : PendingStore :=
  match resolveRange s h .store p.ea p.bytes.length with
  | .ok ps =>
    { p with bytes := (ps.zip p.bytes).map fun (q, b) =>
        match cells.find? fun c => c.1 == q.pa with | some c => c.2 | none => b }
  | .error _ => p

/-- The hart after a handler's store over stores that wait behind the fault. -/
def Hart.overBehind (s : State) (cells : List (Nat × Byte)) (h : Hart) : Hart :=
  match h.behind with
  | [] => h
  | sq => { h with hframe := h.hframe.map fun f => { f with sq := sq.map (PendingStore.under s h cells) } }

/-- Whether a load of these bytes takes a free value: a device's answer, or a race with non-versioned writes (R254). -/
def takesFree (s : State) (h : Hart) (ps : List Phys) : Bool :=
  ps.any fun p => p.cls == 1 || !(racing s.hist h.snapSeq p.pa).isEmpty

/-- Enters lines read under the task's snapshot into the read set of an ordered task (R273). -/
def Hart.readLines (h : Hart) (ps : List Phys) : Hart :=
  if h.ordered then h.noteReads h.cmn (ps.map fun p => p.pa / 64).eraseDups else h

/-- What remains of a load once its bytes are resolved: TLB, free values, read set. -/
def State.loaded (s : State) (k : Access) (ea : Word) (ps : List Phys) : State :=
  let s := s.fillTlb s.cur k ea
  let s := if takesFree s s.cur ps then { s with free := s.free + ps.length } else s
  { s with cur := s.cur.readLines ps }

/-- Reads n bytes at an effective address as a load of the hart does, or says which byte faults and why. -/
def readBytes (k : Access) (load : Look) (ea : Word) (n : Nat) : M (Except (Word × XFault) (List Byte)) := do
  let s ← get
  let h := s.cur
  match stageOff ea with
  | some off =>
    if ownsStage s h off n then return .ok ((s.core h.core).stageBytes off n) else return .error (ea, .perm)
  | none =>
    match resolveRange s h k ea n with
    | .error e => return .error e
    | .ok ps =>
      match badLine s h ps with
      | some l => return .error (ea, .uncorrectable l)
      | none =>
        let bs := overStores s h ps (pathBytes s h load 0 ps)
        set (s.loaded k ea ps)
        return .ok bs

/-! Writing. -/

/-- A store as its faults name it: original PC, iteration vector, sweep index, and the count of instructions retired
when it was issued (R245, R386). -/
structure StoreId where
  opc : Word
  iter : Word
  elem : Nat
  at_ : Nat
  deriving DecidableEq, Repr

/-- Appends the record of a post-retirement store fault (R245). -/
def Hart.recordFault (h : Hart) (w : StoreId) (ea : Word) (kind : Nat) : Hart :=
  h.recordStore { addr := ea, opc := w.opc, iter := w.iter, w3 := storeFaultWord3 kind w.elem (h.retired - w.at_) }

/-- Appends the record of a store fault that terminates (R245, R397). -/
def recordTerminal (w : StoreId) (ea : Word) (f : XFault) : M Unit :=
  modify fun s => { s with free := s.free + 1, cur := s.cur.recordFault w ea (s.recordKind f) }

/-- Waits in an architected wait; the instruction is executed again (R124). -/
def standStill {α : Type} (w : WaitKind) : M α := do
  modify fun s => { s with cur := { s.cur with
    wait := some w, since := if s.cur.wait.isSome then s.cur.since else s.now } }
  leave

/-- A versioned write of an ordered task over its cap waits until the task is the oldest (R257). The wait of the instruction at
which the hart stands is another. -/
def standAtCap {α : Type} : M α := do
  modify fun s => { s with cur := { s.cur with capWait := some (s.cur.capWait.getD s.now) } }
  leave

/-- A task of an ordered launch commits no version while it runs its handler after a terminating trap (R390): its write over
the cap takes the ordered-mode trap, with a free value for the word that tval would hold (R385; DESIGN CHOICE, log 87). -/
def capTrap (w : StoreId) : M Unit := do
  let x ← freshWord
  trapAt 25 x w.opc ((← hart).retired - w.at_)

/-- The commit that firmware makes in place for a write (R257, R343); the hart stays where it is while something holds it
back. -/
def commitInPlace (f : Hart → Hart) : M Unit := do
  let s ← get
  if s.commitBlocked || s.cur.copyUnread then leave
  if !s.commitLogged then stallLog
  set { s with cur := { f s.cur with capWait := none } }.firmwareCommit.settle
  if (← hart).due ≠ .nothing then leave

/-- Makes room for a versioned write, which `full` says has none (R257): the handler, a firmware commit, or in an ordered
launch a commit in place once the task is the oldest. A hart that still finds no room stays where it is. -/
def makeRoom (w : StoreId) (ea : Word) (full : State → Bool) : M Unit := do
  let s ← get
  let h := s.cur
  if !full s then
    if h.capWait.isSome then modHart fun h => { h with capWait := none }
  else if h.ordered then
    if h.trap.hdl ∧ h.trap.term then capTrap w
    else if !s.oldest then standAtCap
    else
      commitInPlace id
      if full (← get) then leave
  else if h.handlerOpen && h.ctx.thmask.getLsbD 2 then
    let s := { s with cur := h.recordFault w ea 5 }
    set (s.handlerEntry 3 ea w.opc (h.retired - w.at_) id)
    leave
  else
    commitInPlace fun h => h.recordFault w ea 5
    if full (← get) then leave

/-- Writes bytes at an effective address as the hart's stores do, or says which byte faults and why. -/
def writeBytes (k : Access) (w : StoreId) (ea : Word) (bs : List Byte) : M (Except (Word × XFault) Unit) := do
  let s ← get
  let h := s.cur
  match stageOff ea with
  | some off =>
    if ownsStage s h off bs.length then
      set (s.onCore h.core fun c => c.putStage off bs)
      return .ok ()
    else return .error (ea, .perm)
  | none =>
    match resolveRange s h k ea bs.length with
    | .error e => return .error e
    | .ok ps =>
      makeRoom w ea fun s => overflows s s.cur ps
      modify fun s =>
        let s := { s with cur := s.cur.overBehind s ((ps.map Phys.pa).zip bs) }
        (s.fillTlb s.cur k ea).storeAt ps bs
      return .ok ()

/-! Faults of a queued instruction at its position. -/

/-- The store that a queued instruction is at its position. -/
def VOp.storeId (op : VOp) : StoreId := { opc := op.opc, iter := op.iter, elem := op.pos, at_ := op.at_ }

/-- The access of n bytes from an address at which a queued instruction stands; its byte `ea` has faulted. -/
def VOp.pageWait (op : VOp) (store : Bool) (lo : Word) (n : Nat) (ea : Word) (err : Bool) : PageWait :=
  { ea := ea, lo := lo, size := n, err := err, store := store, slices := true, opc := op.opc, iter := op.iter, elem := op.pos, at_ := op.at_ }

/-- A queued instruction's access of n bytes faults at its position: a terminating trap, or vbeg is set and the hart is
swapped out (R237, R238). A store's permission fault is recorded (R245). -/
def unitFault {α : Type} (op : VOp) (store : Bool) (lo : Word) (n : Nat) (ea : Word) (f : XFault) : M α := do
  let out := fun (err : Bool) (s : State) =>
    State.swapOut { s with cur := s.cur.onCtx fun c => { c with vbeg := some op.pos } } (op.pageWait store lo n ea err)
  match f with
  | .perm =>
    if store then recordTerminal op.storeId ea f
    vtrap op 17 ea
  | .uncorrectable l =>
    if store then recordTerminal op.storeId ea f
    vtrap op 21 (BitVec.ofNat 64 l)
  | .notPresent =>
    modify (out false)
    leave
  | .ptError =>
    modify (out true)
    leave

/-- Loads n bytes as a position of a queued instruction. -/
def unitLoad (op : VOp) (ea : Word) (n : Nat) : M (List Byte) := do
  match ← readBytes .vload op.look ea n with
  | .ok bs => return bs
  | .error (a, f) => unitFault op false ea n a f

/-- Stores bytes as a position of a queued instruction. -/
def unitStore (op : VOp) (ea : Word) (bs : List Byte) : M Unit := do
  match ← writeBytes .vstore op.storeId ea bs with
  | .ok () => pure ()
  | .error (a, f) => unitFault op true ea bs.length a f

/-! Retired scalar stores (R233, R244). -/

/-- The store that a retired scalar store is. -/
def PendingStore.storeId (p : PendingStore) : StoreId := { opc := p.opc, iter := p.iter, elem := 0, at_ := p.at_ }

/-- The access of a retired scalar store. -/
def PendingStore.pageWait (p : PendingStore) (ea : Word) (err : Bool) : PageWait :=
  { ea := ea, lo := p.ea, size := p.bytes.length, err := err, store := true, slices := false, opc := p.opc, iter := p.iter, elem := 0, at_ := p.at_ }

/-- Performs the oldest retired scalar store, or takes its fault at the boundary where the hart stands (R233, R244). -/
def performStore : M Unit := do
  let h ← hart
  match h.sq with
  | [] => pure ()
  | p :: t =>
    takeDue
    match ← writeBytes .store p.storeId p.ea p.bytes with
    | .ok () => modHart fun h => { h with sq := t }
    | .error (a, f) =>
      match f with
      | .perm =>
        recordTerminal p.storeId a f
        modHart fun h => { h with sq := t }
        trapAt 17 a p.opc (h.retired - p.at_)
      | .uncorrectable l =>
        recordTerminal p.storeId a f
        modHart fun h => { h with sq := t }
        trapAt 21 (BitVec.ofNat 64 l) p.opc (h.retired - p.at_)
      | .notPresent => do modify fun s => s.swapOut (p.pageWait a false); leave
      | .ptError => do modify fun s => s.swapOut (p.pageWait a true); leave

/-- Performs the retired scalar stores issued before a point, oldest first. -/
def performBefore (at_ : Nat) : Nat → M Unit
  | 0 => pure ()
  | n + 1 => do
    match (← hart).sq with
    | [] => pure ()
    | p :: _ =>
      if p.at_ < at_ then
        performStore
        performBefore at_ n

end Sys2Proof.Machine
end

