-- ==== Sys2Proof/Machine/MemUnits.lean ====
section
/-!
DEFINITION. One position of every vector memory instruction, major 0x41 (R235 to R242), and tensor ids as a hart sees
them (R308). vsadd is one step for all its elements, so that its updates combine as R241 states.
-/

namespace Sys2Proof.Machine

/-! Tensor ids (R308). -/

/-- The layout of a tensor id as the hart sees it: its own held definition, else the one its snapshot includes. -/
def State.tensorOf (s : State) (h : Hart) (tid : Nat) : Option Tensor :=
  match h.defs.reverse.find? (·.tid == tid) with
  | some d => d.layout
  | none =>
    match AMap.find? s.launches h.lid with
    | none => none
    | some l =>
      match l.tensors.find? fun (t, k, _) => t == tid && decide (k ≤ h.cmn) with
      | some (_, _, x) => x
      | none => none

/-- The extent of a dimension; 1 at or above D. -/
def Tensor.extent (t : Tensor) (k : Nat) : Nat := if k < t.dims then t.ext.getD k 1 else 1
/-- The stride of a dimension; 0 at or above D. -/
def Tensor.stride (t : Tensor) (k : Nat) : Int := if k < t.dims then t.st.getD k 0 else 0
/-- The product of the extents of dimensions 1 to 5. -/
def Tensor.outer (t : Tensor) : Nat := t.extent 1 * t.extent 2 * t.extent 3 * t.extent 4 * t.extent 5

/-- Σ ck × stk over dimensions k to 5 of an outer index, dimension 1 varying fastest (R242). -/
def Tensor.outerOff (t : Tensor) : Nat → Nat → Nat → Int
  | 0, _, _ => 0
  | n + 1, k, o => (o % t.extent k : Nat) * t.stride k + t.outerOff n (k + 1) (o / t.extent k)

/-- The first bit of an element at c0 of an outer index, as bits from address 0 (R242). -/
def Tensor.bitAddr (t : Tensor) (c0 o : Nat) : Int :=
  let w := fmtWidth t.fmt
  8 * ((t.base.toNat : Int) + t.outerOff 5 1 o) + (if w < 8 then ((c0 * w : Nat) : Int) else 8 * ((c0 : Int) * t.stride 0))

/-- Whether an element lies inside the tensor (R242). -/
def Tensor.inside (t : Tensor) (c0 o : Nat) : Bool := decide (c0 < t.extent 0) && decide (o < t.outer)

/-! Elements in memory. -/

/-- The low bits of a list of bytes as a slot (R30). -/
def slotOf (f : Fmt) (x : Nat) : Slot := codeSlot f x

/-- Loads the element of a format whose first bit is given (R236). -/
def loadElem (op : VOp) (f : Fmt) (ea : Word) (bit : Nat) : M Slot := do
  let w := fmtWidth f
  let bs ← unitLoad op ea ((w + 7) / 8)
  return slotOf f (leNat bs / 2 ^ bit % 2 ^ w)

/-- The bits of a byte replaced by an element of w bits from a bit. -/
def mergeBits (old : Byte) (bit w x : Nat) : Byte :=
  let o := old.toNat
  BitVec.ofNat 8 (o % 2 ^ bit + x % 2 ^ w * 2 ^ bit + o / 2 ^ (bit + w) * 2 ^ (bit + w))

/-- The byte that the hart sees at an effective address, for a store of part of it: 0 where it cannot be reached, which
the store then reports. -/
def seenByte (op : VOp) (ea : Word) : M Byte := do
  let s ← get
  match stageOff ea with
  | some off => return Sparse.get (s.core s.cur.core).stage off
  | none =>
    match resolveFor s s.cur .vstore ea with
    | .ok p => return pathByte s s.cur op.look p 0
    | .error _ => return 0

/-- Stores the element of a format whose first bit is given; a sub-byte store writes only its own bits (R236). -/
def storeElem (op : VOp) (f : Fmt) (ea : Word) (bit : Nat) (x : Slot) : M Unit := do
  let w := fmtWidth f
  if w < 8 then
    let old ← seenByte op ea
    unitStore op ea [mergeBits old bit w x.toNat]
  else unitStore op ea (toBytes (w / 8) x.toNat)

/-- A = base + sext(offset) (R236). -/
def VOp.baseA (op : VOp) (off : BitVec 14) : Word := op.ga + off.signExtend 64

/-- The address of element (r, j) of vld and vst, and its bit in the byte (R236). -/
def rowAddr (f : Fmt) (scale : BitVec 2) (off : BitVec 14) (op : VOp) (r j : Nat) : Word × Nat :=
  let w := fmtWidth f
  (op.baseA off + BitVec.ofNat 64 r * (op.gb <<< scale.toNat) + BitVec.ofNat 64 (j * w / 8), j * w % 8)

/-- The address of element (r, j) of vlds and vsts (R236). -/
def colAddr (f : Fmt) (scale : BitVec 2) (off : BitVec 14) (op : VOp) (r j : Nat) : Word :=
  op.baseA off + BitVec.ofNat 64 j * (op.gb <<< scale.toNat) + BitVec.ofNat 64 (r * fmtWidth f / 8)

/-- The address of an indexed element (R236). -/
def ixAddr (scale : BitVec 2) (off : BitVec 14) (op : VOp) (ix : Slot) : Word :=
  op.baseA off + (ix.signExtend 64 <<< scale.toNat)

/-- vld (R236, R237). -/
def unitVld (f : Fmt) (d : VReg) (scale : BitVec 2) (off : BitVec 14) (e : Option MReg) (op : VOp) : M VOp :=
  plainPos e (fun r j => do
    let a := rowAddr f scale off op r j
    wrV d r j (← loadElem op f a.1 a.2)) op

/-- vlds (R236, R237). -/
def unitVlds (f : Fmt) (d : VReg) (scale : BitVec 2) (off : BitVec 14) (e : Option MReg) (op : VOp) : M VOp :=
  plainPos e (fun r j => do wrV d r j (← loadElem op f (colAddr f scale off op r j) 0)) op

/-- vldx (R236, R237). -/
def unitVldx (f : Fmt) (d ix : VReg) (scale : BitVec 2) (off : BitVec 14) (e : Option MReg) (op : VOp) : M VOp :=
  plainPos e (fun r j => do wrV d r j (← loadElem op f (ixAddr scale off op (← rdV op ix r j)) 0)) op

/-- vst (R236, R237). -/
def unitVst (f : Fmt) (d : VReg) (scale : BitVec 2) (off : BitVec 14) (e : Option MReg) (op : VOp) : M VOp :=
  plainPos e (fun r j => do
    let a := rowAddr f scale off op r j
    storeElem op f a.1 a.2 (← rdV op d r j)) op

/-- vsts (R236, R237). -/
def unitVsts (f : Fmt) (d : VReg) (scale : BitVec 2) (off : BitVec 14) (e : Option MReg) (op : VOp) : M VOp :=
  plainPos e (fun r j => do storeElem op f (colAddr f scale off op r j) 0 (← rdV op d r j)) op

/-- vstx (R236, R237). -/
def unitVstx (f : Fmt) (d ix : VReg) (scale : BitVec 2) (off : BitVec 14) (e : Option MReg) (op : VOp) : M VOp :=
  plainPos e (fun r j => do
    let a := ixAddr scale off op (← rdV op ix r j)
    storeElem op f a 0 (← rdV op d r j)) op

/-! vsadd (R241). -/

/-- The combining of two elements (R241). -/
def sadd (f : Fmt) (x y : Slot) : Slot :=
  if f = .f32 then BitVec.ofNat 32 (FF.f32.add .rne (FF.f32.decode x.toNat) (FF.f32.decode y.toNat)).code else x + y

/-- Adds an element to its address's running value; addresses stand in ascending index of their first element. Two virtual
addresses of one word are one address, since the update is at the home (R241 does not say; DESIGN CHOICE, log 88). -/
def saddInto (f : Fmt) (pa : Nat) (x : Slot) : List (Nat × Slot) → List (Nat × Slot)
  | [] => [(pa, x)]
  | (a, y) :: t => if a = pa then (a, sadd f y x) :: t else (a, y) :: saddInto f pa x t

/-- An atomic's word as its home resolves it: aligned, writable, no device, no window (R241, R265, R313). -/
def resolveWord (s : State) (k : Access) (ea : Word) (n : Nat) : Except XFault Nat :=
  if ea.toNat % n ≠ 0 then .error .perm
  else
    match resolveFor s s.cur k ea with
    | .error f => .error f
    | .ok p =>
      if p.cls = 1 then .error .perm
      else if s.badPa p.pa then .error (.uncorrectable (p.pa / 64 * 64))
      else .ok p.pa

/-- Where an element of vsadd is performed: at its home, or at the address in the package that fpk names (R241, R267). -/
def resolveSadd (s : State) (sc : Scope) (ea : Word) : Except XFault Nat :=
  if s.cur.toPeer sc then (if ea.toNat % 4 ≠ 0 then .error .perm else .ok ea.toNat)
  else resolveWord s .vadd ea 4

/-- Collects the active elements from a position: their updates in order, and the position and fault at which the
collection stops. -/
def saddScan (f : Fmt) (d ix : VReg) (scale : BitVec 2) (sc : Scope) (off : BitVec 14) (e : Option MReg) (op : VOp) :
    Nat → Nat → List (Nat × Slot) → M (List (Nat × Slot) × Nat × Option (Word × XFault))
  | 0, p, acc => return (acc, p, none)
  | n + 1, p, acc => do
    let o := { op with pos := p }
    if ← isActive o e o.r o.j then
      let ea := ixAddr scale off op (← rdV o ix o.r o.j)
      let x ← rdV o d o.r o.j
      match resolveSadd (← get) sc ea with
      | .ok pa => saddScan f d ix scale sc off e op n (p + 1) (saddInto f pa x acc)
      | .error x => return (acc, p, some (ea, x))
    else saddScan f d ix scale sc off e op n (p + 1) acc

/-- Performs the updates at the home, those of one instruction as one event, which no load of a sector finds half done (R241,
R254); in an ordered launch the f32 form is deferred to the commit (R274). -/
def saddApply (f : Fmt) (op : VOp) (us : List (Nat × Slot)) : M Unit :=
  modify fun s =>
    if f = .f32 ∧ s.cur.ordered then
      { s with cur := us.foldl (fun h u => h.deferAt op.at_ (.fadd 0 u.1 u.2)) s.cur }
    else
      s.writeHome none (us.flatMap fun u =>
        cellsAt u.1 (toBytes 4 (sadd f (BitVec.ofNat 32 (leNat (s.bytes u.1 4))) u.2).toNat))

/-- Sends the updates to the package that fpk names (R241, R267); a refusal takes the permission trap, and where no port
is left cause 21 is taken (R451, R452). Each is answered within the step (log 22). -/
def saddSend (f : Fmt) (op : VOp) : List (Nat × Slot) → M Unit
  | [] => pure ()
  | (va, x) :: t => do
    let s ← get
    let pkg := s.cur.ctx.fpk.toNat
    if f = .f32 ∧ s.cur.ordered then
      modHart fun h => h.deferAt op.at_ (.fabric pkg va x)
    else
      match s.sendFabric s.cur.hid true s.cur.part pkg va
          fun n => .amo n (if f = .f32 then 10 else 0) 4 va (x.setWidth 64) 0 with
      | none => vtrap op 21 (BitVec.ofNat 64 va)
      | some (s, a) =>
        set { s.answered a with free := s.free + 1 }
        if (Config.peerReply s.free).isNone then vtrap op 17 (BitVec.ofNat 64 va)
    saddSend f op t

/-- vsadd: the elements from its position on, as one step; on a fault those below it (R241). -/
def unitVsadd (f : Fmt) (d ix : VReg) (scale : BitVec 2) (sc : Scope) (off : BitVec 14) (e : Option MReg) (op : VOp) :
    M VOp := do
  let (acc, p, fault) ← saddScan f d ix scale sc off e op (op.len - op.pos) op.pos []
  if (← hart).toPeer sc then saddSend f op acc else saddApply f op acc
  let op' := { op with pos := p }
  match fault with
  | none => return op'
  | some (ea, x) =>
    modHart fun h => { h with vq := match h.vq with | [] => [] | o :: t => { o with pos := p } :: t }
    unitFault op' true ea 4 ea x

/-! Tensor forms (R242). -/

/-- Blocks of a row of the strip. -/
def stripBlocks (op : VOp) (L : Nat) : Nat := (op.vl + L - 1) / L

/-- The address of the scale of a block of a tensor's outer index (R311). -/
def Tensor.scaleAt (t : Tensor) (L o b : Nat) : Word :=
  t.sbase + BitVec.ofNat 64 (o * ((t.extent 0 + L - 1) / L) + b)

/-- Moves the scales of a row at its first position: block b of the companion is the tensor block that holds element
c0 + b × L; a block wholly outside loads 0x00 and stores nothing (R242, R311). -/
def rowScales (t : Tensor) (store : Bool) (d : VReg) (op : VOp) (L r : Nat) : Nat → Nat → M Unit
  | _, 0 => pure ()
  | b, n + 1 => do
    let c0 := op.ga.toNat + b * L
    let o := op.gb.toNat + r
    if decide (c0 < t.extent 0) && decide (o < t.outer) then
      let ea := t.scaleAt L o (c0 / L)
      if store then
        let x ← rdSc op d r b
        unitStore op ea [x]
      else
        let bs ← unitLoad op ea 1
        wrSc d r b (BitVec.ofNat 8 (leNat bs))
    else if store then pure ()
    else wrSc d r b 0
    rowScales t store d op L r (b + 1) n

/-- The scales of the row, when the position is its first (R242). -/
def scalesFirst (t : Tensor) (store : Bool) (d : VReg) (op : VOp) : M Unit :=
  if op.j = 0 ∧ t.blk ≠ 0 then
    let L := blockLen t.blk
    rowScales t store d op L op.r 0 (stripBlocks op L)
  else pure ()

/-- Address and bit of a tensor element. -/
def Tensor.elemAt (t : Tensor) (c0 o : Nat) : Word × Nat :=
  let b := t.bitAddr c0 o
  (BitVec.ofInt 64 (b / 8), (b % 8).toNat)

/-- vld.t: an element outside reads +0 (R242). -/
def unitVldT (d : VReg) (e : Option MReg) (op : VOp) : M VOp := do
  match op.tensor with
  | none => return op.step
  | some t =>
    scalesFirst t false d op
    plainPos e (fun r j => do
      let c0 := op.ga.toNat + j
      let o := op.gb.toNat + r
      if t.inside c0 o then
        let a := t.elemAt c0 o
        wrV d r j (← loadElem op t.fmt a.1 a.2)
      else wrV d r j 0) op

/-- vst.t: an element outside writes nothing (R242). -/
def unitVstT (d : VReg) (e : Option MReg) (op : VOp) : M VOp := do
  match op.tensor with
  | none => return op.step
  | some t =>
    scalesFirst t true d op
    plainPos e (fun r j => do
      let c0 := op.ga.toNat + j
      let o := op.gb.toNat + r
      if t.inside c0 o then
        let a := t.elemAt c0 o
        storeElem op t.fmt a.1 a.2 (← rdV op d r j)) op

end Sys2Proof.Machine
end

