-- ==== Sys2Proof/Machine/TileUnits.lean ====
section
/-!
DEFINITION. Tiles (R275 to R279) and one position of every matrix instruction, major 0x50 (R282 to R292).
-/

namespace Sys2Proof.Machine

/-- A void tile (R277). -/
def Tile.init : Tile := { p := [], a := [], ovf := false, void := true, place := .here }

/-- The key of cell (i, c). -/
def cellKey (i c : Nat) : Nat := i * 1024 + c

/-- A tile of the hart. -/
def Hart.tile (h : Hart) (t : TReg) : Tile := h.tiles.getD t.toNat Tile.init

/-- Changes a tile of the hart. -/
def Hart.onTile (h : Hart) (t : TReg) (f : Tile → Tile) : Hart := { h with tiles := h.tiles.modify t.toNat f }

/-- What an instruction that names a tile or a slice finds (R278, R321): it waits while that is not reloaded, and takes the
uncorrectable-memory-read trap where the reload met an uncorrectable error. -/
def requirePlace (op : VOp) (p : Place) : M Unit :=
  match p with
  | .here => pure ()
  | .away _ => leave
  | .failed line => vtrap op 21 (BitVec.ofNat 64 line)

/-- The tile must be in place (R278). -/
def requireTile (op : VOp) (t : TReg) : M Unit := do requirePlace op ((← hart).tile t).place

/-- The progress index of a tile (R197, R282). -/
def tix (t : TReg) : Nat := 32 + t.toNat

/-- The tile-window trap: tval holds the column, and the tracked index the position (R283). -/
def windowTrap {α : Type} (keys : List Nat) (op : VOp) (j : Nat) : M α := do
  let p : Progress := { act := true, cnt := BitVec.ofNat 14 op.pos }
  modHart fun h => { h with prog := keys.foldl (fun m k => AMap.put m k p) h.prog }
  vtrap op 18 (op.gc + BitVec.ofNat 64 j)

/-- Whether column g + j is out of the window (R283). -/
def outColumn (h : Hart) (op : VOp) (j : Nat) : Bool := decide (h.tw ≤ op.gc.toNat + j)

/-- Reads P of a cell. -/
def rdP (op : VOp) (t : TReg) (i c : Nat) : M Int := do
  parityCheck op 4 t.toNat i c
  return (Sparse.get ((← hart).tile t).p (cellKey i c)).toInt

/-- Reads A of a cell. -/
def rdAcc (op : VOp) (t : TReg) (i c : Nat) : M Slot := do
  parityCheck op 5 t.toNat i c
  return Sparse.get ((← hart).tile t).a (cellKey i c)

/-- Writes P of a cell; the tile is no longer void (R277). -/
def wrP (t : TReg) (i c : Nat) (x : Int) (sat : Bool) : M Unit :=
  modify fun s => { s.mendSpot 4 t.toNat i c with
    cur := s.cur.onTile t fun y =>
      { y with p := Sparse.set y.p (cellKey i c) (BitVec.ofInt 48 x), void := false, ovf := y.ovf || sat } }

/-- Writes A of a cell; the tile is no longer void (R277). -/
def wrAcc (t : TReg) (i c : Nat) (x : Slot) : M Unit :=
  modify fun s => { s.mendSpot 5 t.toNat i c with
    cur := s.cur.onTile t fun y => { y with a := Sparse.set y.a (cellKey i c) x, void := false } }

/-- The largest partial magnitude (R54). -/
def partMax : Int := 2 ^ 47 - 1

/-- Clamps a partial, and whether it saturated (R54). -/
def satPart (x : Int) : Int × Bool :=
  if partMax < x then (partMax, true) else if x < -partMax then (-partMax, true) else (x, false)

/-- The parity of the cells of a column that an instruction is about to change, checked before any of them is: a position
that stops has changed no cell (R282, R284). -/
def checkColumn (op : VOp) (t : TReg) (acc : Bool) (c : Nat) : Nat → M Unit
  | 0 => pure ()
  | n + 1 => do
    if acc then parityCheck op 5 t.toNat (63 - n) c
    parityCheck op 4 t.toNat (63 - n) c
    checkColumn op t acc c n

/-- The 64 cells of one position of opa (R287). -/
def opaCells (op : VOp) (t : TReg) (a : AReg) (cf : Fmt) (r c : Nat) (y : Int) : Nat → M Unit
  | 0 => pure ()
  | n + 1 => do
    let i := 63 - n
    let x := (intElem cf (← rdA a r i).toNat).1
    let p := satPart ((← rdP op t i c) + x * y)
    wrP t i c p.1 p.2
    opaCells op t a cf r c y n

/-- opa (R287, R54). -/
def unitOpa (f : Fmt) (t : TReg) (a : AReg) (b : VReg) (c16 : Bool) (op : VOp) : M VOp := do
  requireTile op t
  let r := op.r
  let j := op.j
  if outColumn (← hart) op j then windowTrap [tix t] op j
  let y := intElem f (← rdV op b r j).toNat
  checkColumn op t false (op.gc.toNat + j) 64
  opaCells op t a (if c16 then .i16 else .i8) r (op.gc.toNat + j) y.1 64
  raiseFl y.2
  return op.step

/-- fold (R55): A and flags. -/
def foldCell (a : Slot) (p : Int) (sa sv : Nat) : Slot × BitVec 5 :=
  if sa = 255 ∨ sv = 255 then (0x7FC00000, 0)
  else
    let x : FVal := .fin (decide (p < 0)) p.natAbs (if p = 0 then 0 else (sa : Int) + sv - 254)
    let y := FF.f32.add .rne (FF.f32.decode a.toNat) x
    (BitVec.ofNat 32 y.code, y.fl)

/-- The 64 cells of one position of tfold (R288). -/
def foldCells (op : VOp) (t : TReg) (a : AReg) (ka c sv : Nat) : Nat → M Unit
  | 0 => pure ()
  | n + 1 => do
    let i := 63 - n
    let sa := (← rdA a ka i).toNat % 256
    let y := foldCell (← rdAcc op t i c) (← rdP op t i c) sa sv
    wrAcc t i c y.1
    wrP t i c 0 false
    raiseFl y.2
    foldCells op t a ka c sv n

/-- tfold: position j is one column (R288, R282). -/
def unitTfold (t : TReg) (a : AReg) (b : VReg) (ka kv : BitVec 3) (op : VOp) : M VOp := do
  requireTile op t
  let j := op.pos
  if outColumn (← hart) op j then windowTrap [tix t] op j
  let sv := (← rdV op b kv.toNat j).toNat % 256
  checkColumn op t true (op.gc.toNat + j) 64
  foldCells op t a ka.toNat (op.gc.toNat + j) sv 64
  return op.step

/-- The tile status word (R279). -/
def Hart.tileStatus (h : Hart) (t : TReg) : Word :=
  let x := h.tile t
  BitVec.ofNat 64 ((h.tw / 64 - 1) * 256 + (if x.void then 2 else 0) + (if x.ovf then 1 else 0))

/-- Cells of planes that are cleared no longer fail parity (R289, R396). -/
def State.mendTile (s : State) (t : Nat) (p a : Bool) : State :=
  if s.spots.isEmpty then s
  else
    { s with spots := s.spots.filter fun e =>
        match e with
        | .slot h file reg _ _ => !(h == s.cur.hid && reg == t && ((p && file == 4) || (a && file == 5)))
        | _ => true }

/-- tclr: the status as found, then what the mask clears (R289). -/
def unitTclr (t : TReg) (mask : BitVec 3) (op : VOp) : M VOp := do
  requireTile op t
  let st := (← hart).tileStatus t
  modify fun s => { (s.mendTile t.toNat (mask.getLsbD 0) (mask.getLsbD 1)) with
    cur := s.cur.onTile t fun y =>
      { y with p := if mask.getLsbD 0 then [] else y.p, a := if mask.getLsbD 1 then [] else y.a,
               ovf := y.ovf && !mask.getLsbD 2, void := y.void || mask == 7 } }
  return { op.step with acc := st }

/-! Tile loads and stores, path T (R285). -/

/-- A fault of a tile load or store of n bytes at its position: the position stands in tix or the frame (R285). -/
def tileFault {α : Type} (op : VOp) (ea : Word) (n : Nat) : XFault → M α
  | .perm => vtrap op 17 ea
  | .uncorrectable l => vtrap op 21 (BitVec.ofNat 64 l)
  | .notPresent => do modify fun s => s.swapOut (op.pageWait false ea n ea false); leave
  | .ptError => do modify fun s => s.swapOut (op.pageWait false ea n ea true); leave

/-- Resolves an aligned element of w / 8 bytes on path T; device and gossip pages are refused (R285). -/
def resolveTile (s : State) (k : Access) (ea : Word) (n : Nat) : Except XFault Nat :=
  if ea.toNat % n ≠ 0 then .error .perm
  else
    match resolveFor s s.cur k ea with
    | .error f => .error f
    | .ok p => if p.cls = 1 ∨ p.cls = 2 then .error .perm else .ok p.pa

/-- The bytes that a held tst of the task wrote, over what the home holds (R285). -/
def overHeld (pa : Nat) (b : Byte) : List (Nat × Deferred) → Byte
  | [] => b
  | (_, .bytes true a bs) :: t =>
    overHeld pa (if a ≤ pa ∧ pa < a + bs.length then bs.getD (pa - a) 0 else b) t
  | _ :: t => overHeld pa b t

/-- A held tst of the task wrote a byte. -/
def heldAt (pa : Nat) (l : List (Nat × Deferred)) : Bool :=
  l.any fun x => match x.2 with | .bytes true a bs => decide (a ≤ pa) && decide (pa < a + bs.length) | _ => false

/-- The bytes at the home as the hart's path T sees them. -/
def tileBytes (s : State) (pa : Nat) : Nat → List Byte
  | 0 => []
  | n + 1 => overHeld pa (s.byte pa) s.cur.defer :: tileBytes s (pa + 1) n

/-- The element width of tld, tst and tadd in bytes. -/
def tileBytesOf (f : Fmt) : Nat := fmtWidth f / 8

/-- The address of position (r, j) (R290). -/
def tileEa (f : Fmt) (op : VOp) (r j : Nat) : Word :=
  op.ga + BitVec.ofNat 64 r * op.gb + BitVec.ofNat 64 (j * tileBytesOf f)

/-- Whether row or column of a position is out of the window (R283). -/
def outCell (h : Hart) (op : VOp) (row0 : BitVec 6) (r j : Nat) : Bool :=
  decide (64 ≤ row0.toNat + r) || outColumn h op j

/-- A read on a path without snapshot enters the read set at the horizon (R273). -/
def Hart.readAtHome (h : Hart) (commits pa : Nat) : Hart :=
  if h.ordered then h.noteReads commits [pa / 64] else h

/-- tld (R290). -/
def unitTld (f : Fmt) (t : TReg) (row0 : BitVec 6) (op : VOp) : M VOp := do
  requireTile op t
  let r := op.r
  let j := op.j
  if outCell (← hart) op row0 r j then windowTrap [tix t] op j
  let s ← get
  let ea := tileEa f op r j
  let n := tileBytesOf f
  match resolveTile s .vload ea n with
  | .error x => tileFault op ea n x
  | .ok pa =>
    if s.badPa pa && (List.range n).any fun k => !heldAt (pa + k) s.cur.defer then
      tileFault op ea n (.uncorrectable (pa / 64 * 64))
    let x := leNat (tileBytes s pa n)
    let s := s.fillTlb s.cur .vload ea
    set { s with cur := s.cur.readAtHome s.commits pa }
    wrAcc t (row0.toNat + r) (op.gc.toNat + j) (BitVec.ofNat 32 (if f = .bf16 then x * 2 ^ 16 else x))
    return op.step

/-- A stored or moved element of A: f32 bits, or rounded to bf16 under rm with flags (R290, R291). -/
def narrowAcc (f : Fmt) (rm : RM) (a : Slot) : Slot × BitVec 5 :=
  if f = .bf16 then let y := convert .bf16 .f32 rm a.toNat; (y.slot, y.fl) else (a, 0)

/-- tst: performed at the home, or held with the version of an ordered task (R285, R274, R290). -/
def unitTst (f : Fmt) (t : TReg) (row0 : BitVec 6) (op : VOp) : M VOp := do
  requireTile op t
  let r := op.r
  let j := op.j
  if outCell (← hart) op row0 r j then windowTrap [] op j
  let s ← get
  let ea := tileEa f op r j
  let n := tileBytesOf f
  match resolveTile s .vstore ea n with
  | .error x => tileFault op ea n x
  | .ok pa =>
    let y := narrowAcc f (rmodeOf s.cur) (← rdAcc op t (row0.toNat + r) (op.gc.toNat + j))
    let bs := toBytes n y.1.toNat
    let s := s.fillTlb s.cur .vstore ea
    if s.cur.ordered then set { s with cur := s.cur.deferAt op.at_ (.bytes true pa bs) }
    else set (s.writeHome none (cellsAt pa bs))
    raiseFl y.2
    return op.step

/-- tmv (R291). -/
def unitTmv (f : Fmt) (d : VReg) (t : TReg) (row0 : BitVec 6) (e : Option MReg) (op : VOp) : M VOp := do
  requireTile op t
  plainPos e (fun r j => do
    if outCell (← hart) op row0 r j then windowTrap [d.toNat] op j
    let i := row0.toNat + r
    let c := op.gc.toNat + j
    if f = .i32 then
      let y := clampFlags (minS 32) (maxS 32) (← rdP op t i c)
      wrV d r j (BitVec.ofInt 32 y.1)
      raiseFl y.2
    else
      let y := narrowAcc f (rmodeOf (← hart)) (← rdAcc op t i c)
      wrV d r j y.1
      raiseFl y.2) op

/-- tadd (R292). -/
def unitTadd (f : Fmt) (t : TReg) (b : VReg) (row0 : BitVec 6) (e : Option MReg) (op : VOp) : M VOp := do
  requireTile op t
  plainPos e (fun r j => do
    if outCell (← hart) op row0 r j then windowTrap [tix t] op j
    let i := row0.toNat + r
    let c := op.gc.toNat + j
    let x := (← rdV op b r j).toNat
    let a ← rdAcc op t i c
    let y := FF.f32.add (rmodeOf (← hart)) (FF.f32.decode a.toNat)
      (FF.f32.decode (if f = .bf16 then x % 2 ^ 16 * 2 ^ 16 else x))
    wrAcc t i c (BitVec.ofNat 32 y.code)
    raiseFl y.fl) op

end Sys2Proof.Machine
end

