-- ==== Sys2Proof/Machine/XpadUnits.lean ====
section
/-!
DEFINITION. The index scratchpad (R321 to R326, R334): entries of the hart's slice in rank order, the index-full fault,
and one position of xins, xacc, xlook, xdel and xdrain (R329 to R332).
-/

namespace Sys2Proof.Machine

/-- The slice must be in place (R321). -/
def requireSlice (op : VOp) : M Unit := do requirePlace op (← hart).xPlace

/-- The next register of a pair in i64 layout (R32). -/
def pairReg (v : VReg) : VReg := v + 1

/-- The key at a position: a register pair in i64 layout (R323). -/
def keyAt (op : VOp) (a : VReg) (r j : Nat) : M Word := do
  let lo ← rdV op a r j
  let hi ← rdV op (pairReg a) r j
  return hi ++ lo

/-- The value element of a position as stored (R323). -/
def storedAt (f : Fmt) (op : VOp) (b : VReg) (r j : Nat) : M Word := do
  let lo ← rdV op b r j
  if f = .i64 then
    let hi ← rdV op (pairReg b) r j
    return hi ++ lo
  else if f = .i32 then return lo.signExtend 64
  else return lo.setWidth 64

/-- Writes a stored value to a position as its format reads it (R323). -/
def putStored (f : Fmt) (d : VReg) (r j : Nat) (x : Word) : M Unit := do
  wrV d r j (x.extractLsb' 0 32)
  if f = .i64 then wrV (pairReg d) r j (x.extractLsb' 32 32)

/-- The value of a key in a slice. -/
def findKey (k : Word) (l : List XEntry) : Option Word := (l.find? (·.key == k)).map (·.val)

/-- The slice with the value of a present key replaced; its rank is kept (R322). -/
def replaceKey (k x : Word) (l : List XEntry) : List XEntry := l.map fun e => if e.key = k then { e with val := x } else e

/-- Changes the slice. -/
def modSlice (f : List XEntry → List XEntry) : M Unit := modHart fun h => { h with xents := f h.xents }

/-- The index-full fault at the position: vbeg and the held count are set; the handler takes it, or it is a terminating
trap with the same code (R326, R385). Stores older than the instruction are performed before the handler runs (R392). -/
def indexFull {α : Type} (op : VOp) : M α := do
  performBefore op.at_ (← hart).sq.length
  modHart fun h => h.onCtx fun c => { c with vbeg := some op.pos, held := op.acc }
  let s ← get
  let h := s.cur
  if h.handlerOpen && h.ctx.thmask.getLsbD 0 then
    set (s.handlerEntry 5 (BitVec.ofNat 64 op.pos) op.opc (h.retired - op.at_) id)
    leave
  else vtrap op 5 (BitVec.ofNat 64 op.pos)

/-- One position of xins and xacc (R329): `comb` gives the new value of a present key. -/
def insertPos (f : Fmt) (a b : VReg) (c : MReg) (e : Option MReg) (comb : Word → Word → Word × BitVec 5) (op : VOp) :
    M VOp := do
  requireSlice op
  let r := op.r
  let j := op.j
  if ← isActive op e r j then
    let k ← keyAt op a r j
    let x ← storedAt f op b r j
    let h ← hart
    match findKey k h.xents with
    | some old =>
      let y := comb old x
      modSlice (replaceKey k y.1)
      raiseFl y.2
      wrM c r j 0
      return op.step
    | none =>
      if h.xcap ≤ h.xents.length then indexFull op
      else
        modSlice fun l => l ++ [{ key := k, val := x }]
        wrM c r j 1
        return { op.step with acc := op.acc + 1 }
  else
    wrM c r j 0
    return op.step

/-- xins: a present key's value is replaced (R329). -/
def unitXins (f : Fmt) (a b : VReg) (c : MReg) (e : Option MReg) : VOp → M VOp :=
  insertPos f a b c e fun _ x => (x, 0)

/-- comb of xacc (R329): sums modulo 2^64 or 2^32, or one rounding under frm. -/
def xcomb (f : Fmt) (rm : RM) (old x : Word) : Word × BitVec 5 :=
  match f with
  | .i64 => (old + x, 0)
  | .f32 =>
    let y := FF.f32.add rm (FF.f32.decode (old.toNat % 2 ^ 32)) (FF.f32.decode (x.toNat % 2 ^ 32))
    (BitVec.ofNat 64 y.code, y.fl)
  | _ => (((old.extractLsb' 0 32) + (x.extractLsb' 0 32)).signExtend 64, 0)

/-- xacc: a present key's value is accumulated (R329). -/
def unitXacc (f : Fmt) (a b : VReg) (c : MReg) (e : Option MReg) (op : VOp) : M VOp := do
  let rm := rmodeOf (← hart)
  insertPos f a b c e (xcomb f rm) op

/-- xlook (R330). -/
def unitXlook (f : Fmt) (d a : VReg) (c : MReg) (e : Option MReg) (op : VOp) : M VOp := do
  requireSlice op
  let r := op.r
  let j := op.j
  if ← isActive op e r j then
    let k ← keyAt op a r j
    match findKey k (← hart).xents with
    | some x =>
      putStored f d r j x
      wrM c r j 1
    | none =>
      putStored f d r j 0
      wrM c r j 0
  else wrM c r j 0
  return op.step

/-- xdel (R331). -/
def unitXdel (a : VReg) (c : MReg) (e : Option MReg) (op : VOp) : M VOp := do
  requireSlice op
  let r := op.r
  let j := op.j
  if ← isActive op e r j then
    let k ← keyAt op a r j
    match findKey k (← hart).xents with
    | some _ =>
      modSlice fun l => l.filter (·.key != k)
      wrM c r j 1
      return { op.step with acc := op.acc + 1 }
    | none =>
      wrM c r j 0
      return op.step
  else
    wrM c r j 0
    return op.step

/-- xdrain: the live entry of lowest rank at each position, then zeros (R332). -/
def unitXdrain (f : Fmt) (a b : VReg) (op : VOp) : M VOp := do
  requireSlice op
  let r := op.r
  let j := op.j
  match (← hart).xents with
  | x :: t =>
    wrV a r j (x.key.extractLsb' 0 32)
    wrV (pairReg a) r j (x.key.extractLsb' 32 32)
    putStored f b r j x.val
    modSlice fun _ => t
    return { op.step with acc := op.acc + 1 }
  | [] =>
    wrV a r j 0
    wrV (pairReg a) r j 0
    putStored f b r j 0
    return op.step

end Sys2Proof.Machine
end

