-- ==== Sys2Proof/Machine/KxUnits.lean ====
section
/-!
DEFINITION. The key index as a hart uses it (R335 to R357): definitions as a hart sees them (R354), the projection store
(R351), signatures (R342), and one position of ksig, kst, kga and kga.u (R356, R357).
-/

namespace Sys2Proof.Machine

/-! Definitions as a hart sees them (R354). -/

/-- The last definition of an index that a list of intents holds. -/
def heldDefOf (kx : Nat) : List KxIntent → Option (List Word × Tensor)
  | [] => none
  | i :: t =>
    match heldDefOf kx t with
    | some x => some x
    | none =>
      match i with
      | .def_ k d l _ => if k = kx then some (d, l) else none
      | _ => none

/-- A definition in force for a hart: descriptor, key storage, and the segments allocated (0 for one still held). -/
structure KxSeen where
  desc : List Word
  layout : Tensor
  alloc : Nat
  deriving DecidableEq, Repr

/-- The definition of an index as the hart sees it: its own held one, else the last its snapshot includes (R354). -/
def State.kxSeen (s : State) (h : Hart) (kx : Nat) : Option KxSeen :=
  match heldDefOf kx h.intents with
  | some (d, l) => some { desc := d, layout := l, alloc := 0 }
  | none =>
    match (s.kx h.part kx).defs.find? fun x => decide (x.commit ≤ h.cmn) with
    | some x => some { desc := x.desc, layout := x.layout, alloc := (s.kx h.part kx).alloc }
    | none => none

/-- The tokens an index has room for (R337). -/
def kxTokens (desc : List Word) (t : Tensor) : Nat := min (t.outer / kxH desc) (2 ^ 32 - 1)

/-- An argument outside the index's shape: the key-index argument trap (R353). -/
def kxArgTrap {α : Type} (op : VOp) : M α := vtrap op 26 op.gc

/-- The head base and the dimension base of a position word (R352). -/
def headBase (op : VOp) : Nat := (op.gc.extractLsb' 0 8).toNat
def dimBase (op : VOp) : Nat := (op.gc.extractLsb' 8 8).toNat

/-! The projection store (R351). -/

/-- Bytes of a projection unit. -/
def ProjUnit.bytes (u : ProjUnit) : Nat := 8 * u.words.length

/-- The most recent units that fit the store's 64 KiB. -/
def keepFit : Nat → List ProjUnit → List ProjUnit
  | _, [] => []
  | room, u :: t => if u.bytes ≤ room then u :: keepFit (room - u.bytes) t else []

/-- Whether a resident unit is that of a table of the definition. -/
def ProjUnit.isFor (part kx h l : Nat) (d : List Word) (u : ProjUnit) : Bool :=
  u.part == part && u.kx == kx && u.head == h && u.table == l && u.pbase == kxPbase d && u.b == kxB d

/-- n doublewords of committed memory from a virtual address. -/
def State.wordsVa (s : State) (part va : Nat) : Nat → List Word
  | 0 => []
  | n + 1 => BitVec.ofNat 64 (s.natVa part va 8) :: s.wordsVa part (va + 8) n

/-- The unit of a table, loaded from committed memory where it is not resident; it becomes the most recently used
(R351). -/
def projUnit (kx h l : Nat) (d : List Word) : M ProjUnit := do
  let s ← get
  let me := s.cur
  let c := s.core me.core
  match c.proj.find? (ProjUnit.isFor me.part kx h l d) with
  | some u =>
    set (s.onCore me.core fun c => { c with proj := u :: c.proj.filter fun x => !x.isFor me.part kx h l d })
    return u
  | none =>
    let base := kxPbase d + (h * kxL d + l) * kxB d * kxRb d
    let u : ProjUnit :=
      { part := me.part, kx := kx, head := h, table := l, pbase := kxPbase d, b := kxB d,
        words := s.wordsVa me.part base (kxB d * kxRb d / 8) }
    set (s.onCore me.core fun c => { c with proj := keepFit 65536 (u :: c.proj) })
    return u

/-- The sign bit of row m at dimension c (R338). -/
def ProjUnit.sign (u : ProjUnit) (d : List Word) (m c : Nat) : Bool :=
  (u.words.getD (m * (kxRb d / 8) + c / 64) 0).getLsbD (c % 64)

/-! Signatures (R342). -/

/-- The f32 of a key element (R342). -/
def keyElem (f : Fmt) (x : Slot) : Slot :=
  match f with
  | .bf16 => BitVec.ofNat 32 (x.toNat % 2 ^ 16 * 2 ^ 16)
  | .f16 => (convert .f32 .f16 .rne (x.toNat % 2 ^ 16)).slot
  | _ => x

/-- Adds dimension c into the sums of the rows of one table (R342). -/
def sumRows (a : AReg) (r l c : Nat) (d : List Word) (u : ProjUnit) (k : Slot) : Nat → M Unit
  | 0 => pure ()
  | n + 1 => do
    let m := kxB d - (n + 1)
    let x : Slot := if u.sign d m c then k ^^^ 0x80000000 else k
    let sl := l * kxB d + m
    if c = 0 then wrA a r sl x
    else
      let old ← rdA a r sl
      wrA a r sl (BitVec.ofNat 32 (FF.f32.add .rne (FF.f32.decode old.toNat) (FF.f32.decode x.toNat)).code)
    sumRows a r l c d u k n

/-- Adds dimension c into the sums of every table. -/
def sumTables (a : AReg) (kx h r c : Nat) (d : List Word) (k : Slot) : Nat → M Unit
  | 0 => pure ()
  | n + 1 => do
    let l := kxL d - (n + 1)
    let u ← projUnit kx h l d
    sumRows a r l c d u k (kxB d)
    sumTables a kx h r c d k n

/-- The signature of one table from the sums of a row, and whether a sum is a NaN (R342). -/
def sigOf (a : AReg) (row l : Nat) (b : Nat) (h : Hart) : Nat × Bool :=
  (List.range b).foldl (fun acc m =>
    let v := FF.f32.decode (h.slotA a.toNat row (l * b + m)).toNat
    let one := match v with
      | .nan _ => false
      | .inf n => !n
      | .fin n x _ => !n && x != 0
    (acc.1 + (if one then 2 ^ m else 0), acc.2 || v.isNaN)) (0, false)

/-- The signatures of a row; a NaN sets the index's flag at once (R342). -/
def takeSigs (a : AReg) (kx row : Nat) (d : List Word) : M (List Nat) := do
  let h ← hart
  let xs := (List.range (kxL d)).map fun l => sigOf a row l (kxB d) h
  if xs.any (·.2) then modify fun s => s.onKx h.part kx fun x => { x with nan := true }
  return xs.map (·.1)

/-! ksig and kst (R356). -/

/-- The checks of R353 for ksig and kst at their first position. -/
def ksCheck (store : Bool) (op : VOp) (d : KxSeen) : M Unit := do
  if op.pos = 0 then
    if kxH d.desc ≤ headBase op + op.nr - 1 ∨ kxD d.desc < dimBase op + op.vl
        ∨ (store && decide (kxTokens d.desc d.layout ≤ op.gb.toNat)) then kxArgTrap op

/-- The version holds nothing. -/
def Hart.versionEmpty (h : Hart) : Bool := h.ver.isEmpty && h.defer.isEmpty && h.intents.isEmpty && h.defs.isEmpty

/-- The pool-empty fault at the position (R343): the handler, a firmware commit after which the position is tried again,
or a terminating trap where it recurs with an empty version. -/
def poolEmpty {α : Type} (op : VOp) (kx : Nat) : M α := do
  modHart fun h => h.onCtx fun c => { c with vbeg := some op.pos }
  let s ← get
  let h := s.cur
  let tval := BitVec.ofNat 64 kx
  if h.handlerOpen && h.ctx.thmask.getLsbD 1 then
    set (s.handlerEntry 6 tval op.opc (h.retired - op.at_) id)
    leave
  else if op.acc2 = BitVec.ofNat 64 (op.pos + 1) && h.versionEmpty then vtrap op 6 tval
  else
    if h.ordered ∧ h.trap.hdl ∧ h.trap.term then capTrap op.storeId
    if h.ordered ∧ !s.oldest then standAtCap
    commitInPlace fun h => { h with vq := match h.vq with
      | [] => []
      | o :: t => { o with acc2 := BitVec.ofNat 64 (op.pos + 1) } :: t }
    leave

/-- One more intent would pass the hart's cap (R343, R257). -/
def Hart.intentOver (h : Hart) (i : KxIntent) : Bool :=
  decide (h.vcap < h.verLines.length + Hart.quarterIntents { h with intents := h.intents ++ [i] })

/-- Room for an intent, which counts against the hart's cap (R343, R257). -/
def roomForIntent (w : StoreId) (ea : Word) (i : KxIntent) : M Unit := makeRoom w ea fun s => s.cur.intentOver i

/-- ksig (R356). -/
def unitKsig (a : AReg) (v : VReg) (kx : Nat) (op : VOp) : M VOp := do
  let s ← get
  match s.kxSeen s.cur kx with
  | none => kxArgTrap op
  | some d =>
    ksCheck false op d
    let r := op.r
    let j := op.j
    let x ← rdV op v r j
    sumTables a kx (headBase op + r) r (dimBase op + j) d.desc (keyElem d.layout.fmt x) (kxL d.desc)
    return op.step

/-- kst: the key element is stored first, so that a fault of the store repeats nothing of the position (R356, R343). -/
def unitKst (a : AReg) (v : VReg) (kx : Nat) (op : VOp) : M VOp := do
  let s ← get
  match s.kxSeen s.cur kx with
  | none => kxArgTrap op
  | some d =>
    ksCheck true op d
    let r := op.r
    let j := op.j
    let h := headBase op + r
    let c := dimBase op + j
    let L := kxL d.desc
    let last := c + 1 = kxD d.desc ∧ j + 1 = op.vl
    let x ← rdV op v r j
    if last ∧ kxNseg d.desc < d.alloc + (s.kx s.cur.part kx).resv + L then poolEmpty op kx
    let ad := d.layout.elemAt c (op.gb.toNat * kxH d.desc + h)
    if last then roomForIntent op.storeId ad.1 (.ins kx h op.gb.toNat [])
    storeElem op d.layout.fmt ad.1 ad.2 x
    sumTables a kx h r c d.desc (keyElem d.layout.fmt x) L
    if last then
      let sigs ← takeSigs a kx r d.desc
      modify fun s =>
        let s := s.onKx s.cur.part kx fun y => { y with resv := y.resv + L }
        { s with cur := { s.cur with intents := s.cur.intents ++ [.ins kx h op.gb.toNat sigs] } }
    return op.step

/-! kga (R348 to R350, R357). -/

/-- A number of n bytes in the hart's view, for a gather. -/
def viewNat (op : VOp) (va n : Nat) : M Nat := do return leNat (← unitLoad op (BitVec.ofNat 64 va) n)

/-- The slots of a segment, as numbers. -/
def slotsOf (seg : Nat) (n : Nat) : List Nat := (List.range n).map fun i => seg / 2 ^ (32 * i) % 2 ^ 32

/-- The tokens of a chain, at most n segments and `left` slots (R341, R348). -/
def chainTokens (op : VOp) (d : List Word) : Nat → Nat → Nat → M (List Nat)
  | 0, _, _ => return []
  | n + 1, seg, left => do
    if seg = 0 ∨ kxNseg d < seg ∨ left = 0 then return []
    else
      let x ← viewNat op (kxSegAt d seg) 64
      let fill := min (min (x / 2 ^ 480) 14) left
      return slotsOf x fill ++ (← chainTokens op d n (x / 2 ^ 448 % 2 ^ 32) (left - fill))

/-- The intents of the index after the last pending clear, and whether there is one (R348). -/
def afterClear (kx : Nat) : List KxIntent → List KxIntent × Bool
  | [] => ([], false)
  | i :: t =>
    let x := afterClear kx t
    if x.2 then x
    else
      match i with
      | .clr k => if k = kx then (x.1, true) else x
      | .ins k .. => if k = kx then (i :: x.1, false) else x
      | .def_ .. => x

/-- The hart's own tokens for a bucket, in program order (R348). -/
def ownTokens (h l u b : Nat) (own : List KxIntent) : List Nat :=
  own.filterMap fun i =>
    match i with
    | .ins _ hd t sigs =>
      (match sigs[l]? with
       | some x => if hd = h ∧ x % 2 ^ b = u then some t else none
       | none => none)
    | _ => none

/-- The raw list over the tables, and whether a bucket was saturated (R348, R349). -/
def rawList (op : VOp) (kx h : Nat) (d : List Word) : Nat → List Nat → M (List Nat × Bool)
  | _, [] => return ([], false)
  | l, u :: t => do
    let own := afterClear kx (← hart).intents
    let x ← (if own.2 then return (([] : List Nat), false) else do
      let e := kxEntryAt d h l u
      let w ← viewNat op e 16
      let toks ← chainTokens op d (kxChl d) (w % 2 ^ 32) (min (w / 2 ^ 64 % 2 ^ 32) (14 * kxChl d))
      return (toks, w / 2 ^ 96 % 2 == 1))
    let y ← rawList op kx h d (l + 1) t
    return (x.1 ++ ownTokens h l u (kxB d) own.1 ++ y.1, x.2 || y.2)

/-- Reads the buckets at the first position: the list's window in aux, gb's final value in acc; acc2 is 1, or 2 where
dense attention is required (R349, R357). -/
def kgaCollect (ab : AReg) (kx : Nat) (k : BitVec 3) (u : Bool) (op : VOp) : M VOp := do
  let s ← get
  match s.kxSeen s.cur kx with
  | none => kxArgTrap op
  | some d =>
    let h := headBase op + k.toNat
    if kxH d.desc ≤ h then kxArgTrap op
    let sigs ← takeSigs ab kx k.toNat d.desc
    let raw ← rawList op kx h d.desc 0 sigs
    if raw.2 ∨ kxClim d.desc < raw.1.length then
      if kxFb d.desc then vtrap op 19 op.gc
      else return { op with acc := BitVec.allOnes 64, acc2 := 2, pos := op.len }
    else
      let list := if u then raw.1.eraseDups else raw.1
      let c := op.gb.toNat % 2 ^ 63
      let n := if c < list.length then min (list.length - c) (op.nr * op.vl) else 0
      let out := (list.drop c).take n
      let more := c + n < list.length
      return { op with
        acc := BitVec.ofNat 64 (c + n + (if more then 2 ^ 63 else 0)), acc2 := 1,
        aux := (List.range out.length).zip (out.map (BitVec.ofNat 64)) }

/-- Keeps the running values of a queued instruction that stands at the head of the queue. -/
def saveHead (op : VOp) : M Unit := modHart fun h => { h with vq := match h.vq with | [] => [] | _ :: t => op :: t }

/-- One position of kga and kga.u; the last position writes no element and stands for the cursor (R357). For kga.u a
position that emits needs an entry free in the slice (R334). -/
def kgaPos (v : VReg) (ab : AReg) (kx : Nat) (k : BitVec 3) (u : Bool) (op : VOp) : M VOp := do
  if u then requireSlice op
  let op ← if op.acc2 = 0 then kgaCollect ab kx k u op else pure op
  saveHead op
  if op.pos = op.len then return op
  else if op.pos + 1 = op.len then return op.step
  else
    match AMap.find? op.aux op.pos with
    | some t =>
      let h ← hart
      if u ∧ h.xcap - h.xents.length ≤ op.pos then
        indexFull op
      else
        wrV v op.r op.j (t.extractLsb' 0 32)
        return op.step
    | none =>
      wrV v op.r op.j 0
      return op.step

/-- kga (R357). -/
def unitKga (v : VReg) (ab : AReg) (kx : Nat) (k : BitVec 3) : VOp → M VOp := kgaPos v ab kx k false

/-- kga.u (R350, R357). -/
def unitKgaU (v : VReg) (ab : AReg) (kx : Nat) (k : BitVec 3) : VOp → M VOp := kgaPos v ab kx k true

end Sys2Proof.Machine
end

