-- ==== Sys2Proof/Machine/Gossip.lean ====
section
/-!
DEFINITION. Gossip regions at their homes (R410 to R424): pages, halving (R414), adding a receipt with its spread (R415,
R424), the record log's gossip entries and their replay (R459, R461), and one step of vgadd, gld and gest (R427, R428).
-/

namespace Sys2Proof.Machine

/-- The region and page that hold an address, among the defined regions of a partition (R410, R411, R425). -/
def State.regionAt (s : State) (part : Nat) (ea : Word) : Option (Nat × Region × Nat) :=
  let va := ea.toNat
  match List.find? (fun (x : Nat × Region) =>
      x.2.part == part && decide (x.2.base ≤ va) && decide (va < x.2.base + 4096 * x.2.npg)) s.regions with
  | some (n, r) => some (n, r, (va - r.base) / 4096)
  | none => none

/-! Halving and receipts. -/

/-- The words of a page. -/
def State.pageWords (s : State) (r : Region) (page : Nat) : List Int :=
  (List.range 512).map fun k => s.gword r page k

/-- Writes the words of a page as one event at the home. -/
def State.putPage (s : State) (r : Region) (page : Nat) (ws : List Int) : State :=
  s.writeHome none (cellsAt (r.wordPa page 0) (ws.flatMap fun x => wordBytes 8 (BitVec.ofInt 64 x)))

/-- Halves a page: what is sent, floor of half of each word, and the state with what is kept (R414). -/
def State.halvePage (s : State) (n : Nat) (r : Region) (page : Nat) : State × List Int :=
  let ws := s.pageWords r page
  let send := ws.map fun x => x / 2
  ((s.putPage r page (ws.map fun x => x - x / 2)).onRegion n (Region.counted page none), send)

/-- Sums of words, none where one leaves i64 (R415). -/
def addWords : List Int → List Int → Option (List Int)
  | x :: t, y :: u =>
    if fits64 (x + y) then (match addWords t u with | some l => some ((x + y) :: l) | none => none) else none
  | l, _ => some l

/-- |a / w − b / v| × 2^−F of one word, rounded toward +∞ to f32 (R424). -/
def spreadOf (frac : Nat) (w v a b : Int) : BitVec 32 :=
  let num := (a * v - b * w).natAbs
  let den := (w * v).natAbs
  BitVec.ofNat 32 (FF.f32.div .rup (.fin false num 0) (.fin false den frac)).code

/-- The largest spread of values 1 to 511 (R424); spreads are not negative, so that their codes order as they do. -/
def maxSpread (frac : Nat) (w v : Int) : List Int → List Int → BitVec 32
  | a :: t, b :: u =>
    let x := spreadOf frac w v a b
    let y := maxSpread frac w v t u
    if x.toNat < y.toNat then y else x
  | _, _ => 0

/-- The spread word of a page after a receipt (R424). -/
def newSpread (r : Region) (page : Nat) (ws recv : List Int) : Sparse 32 :=
  let w := ws.headD 0
  let v := recv.headD 0
  if v ≠ 0 ∧ 0 < w then
    let x := maxSpread r.frac w v ws.tail recv.tail
    let old := Sparse.get r.spread page
    Sparse.set r.spread page (if old.toNat < x.toNat then x else old)
  else r.spread

/-- Adds received halves to a page as one step, none where a word would leave i64 (R415, R424). -/
def State.addReceipt (s : State) (n : Nat) (r : Region) (page : Nat) (recv : List Int) : Option State :=
  let ws := s.pageWords r page
  match addWords ws recv with
  | none => none
  | some sum =>
    some ((s.putPage r page sum).onRegion n fun r =>
      { Region.counted page none r with spread := newSpread r page ws recv })

/-- Adds halves back to the sender's page, none where a word would overflow (R416). -/
def State.addBack (s : State) (r : Region) (page : Nat) (words : List Word) : Option State :=
  match addWords (s.pageWords r page) (words.map BitVec.toInt) with
  | none => none
  | some sum => some (s.putPage r page sum)

/-! The record log's gossip entries. -/

/-- val of a gossip entry (R459). -/
def gossipVal (n page port count : Nat) : Word :=
  BitVec.ofNat 64 (n % 16 + page % 2 ^ 20 * 2 ^ 4 + port % 16 * 2 ^ 24 + count * 2 ^ 28)

/-- The access count of a page. -/
def Region.count (r : Region) (page : Nat) : Nat := (AMap.find? r.counts page).getD 0

/-- The stream that a launch's gossip entry of a page goes to: the last contributor's, or hart 0's (R459). -/
def Region.streamFor (r : Region) (page lid : Nat) : Nat :=
  match AMap.find? r.contrib page with
  | some k => if k / 2 ^ 32 = lid then k % 2 ^ 32 else 1
  | none => 1

/-- The contributor that a hart is. -/
def Hart.contributor (h : Hart) : Nat := h.lid * 2 ^ 32 + h.stream

/-- Logs a halving (kind 5) or a receipt (kind 4, with its words) of a free-mode page for every recording launch of the
partition. -/
def State.logGossip (s : State) (n : Nat) (r : Region) (page port kind : Nat) (extra : List Word) : State :=
  if r.mode then s
  else
    (List.filter (fun (x : Nat × Launch) => x.2.part == r.part && x.2.recMode == 1) s.launches).foldl
      (fun s x => s.logWords x.1 (r.streamFor page x.1)
        ([entryHead kind 0, gossipVal n page port (r.count page)] ++ extra)) s

/-- Room for a gossip entry in every recording launch's stream (R460). -/
def State.gossipRoom (s : State) (r : Region) (page words : Nat) : Bool :=
  r.mode || List.all s.launches fun (x : Nat × Launch) =>
    !(x.2.part == r.part && x.2.recMode == 1) || x.2.roomFor (r.streamFor page x.1) words

/-- A launch of the partition replays: engines exchange nothing in its free-mode regions (R461). -/
def State.replaying (s : State) (part : Nat) : Bool :=
  List.any s.launches fun (x : Nat × Launch) => x.2.part == part && x.2.recMode == 2

/-- The gossip entry of a page at an access count in a stream: its kind and the words after it. -/
def findGossip (n page count : Nat) : Nat → List Word → Option (Nat × List Word)
  | 0, _ => none
  | fuel + 1, a :: v :: t =>
    let kind := (a.extractLsb' 56 8).toNat
    if (kind = 4 ∨ kind = 5) ∧ v.toNat % 2 ^ 24 = n % 16 + page % 2 ^ 20 * 16 ∧ v.toNat / 2 ^ 28 = count then
      some (kind, t.take 512)
    else findGossip n page count fuel (if kind = 4 then t.drop 512 else t)
  | _, _ => none

/-- The entry that the replaying launches of a partition log for a page at its present count. -/
def State.dueGossip (s : State) (n : Nat) (r : Region) (page : Nat) : Option (Nat × List Word) :=
  (List.filter (fun (x : Nat × Launch) => x.2.part == r.part && x.2.recMode == 2) s.launches).findSome? fun x =>
    x.2.streams.findSome? fun (k, ws) => if k = 0 then none else findGossip n page (r.count page) ws.length ws

/-- Applies the logged halvings and receipts of a page whose counts are reached (R461). -/
def State.replayGossip (n page : Nat) : Nat → State → State
  | 0, s => s
  | fuel + 1, s =>
    match AMap.find? s.regions n with
    | none => s
    | some r =>
      if r.mode || !s.replaying r.part || s.pageBad r page then s
      else
        match s.dueGossip n r page with
        | some (5, _) => State.replayGossip n page fuel (s.halvePage n r page).1
        | some (_, ws) => State.replayGossip n page fuel ((s.addReceipt n r page (ws.map BitVec.toInt)).getD s)
        | none => s

/-- Counts an access of a page; logged events that are due come before it, and those that it makes due after it (R459,
R461). -/
def State.gossipAccess (s : State) (n page : Nat) (contrib : Option Nat) : State :=
  State.replayGossip n page 4096 ((State.replayGossip n page 4096 s).onRegion n (Region.counted page contrib))

/-! Gossip accesses of a queued instruction. -/

/-- The region and page of an access, or its trap (R423, R425). -/
def unitRegion (op : VOp) : M (Nat × Region × Nat) := do
  let s ← get
  match s.regionAt s.cur.part op.ga with
  | none => vtrap op 17 op.ga
  | some x =>
    if s.cur.ordered ∧ !x.2.1.mode then vtrap op 25 (s.cur.wordOf op.i)
    else return x

/-- The effective address of word k of the page that holds an address (R427, R428). -/
def pageWordEa (base : Word) (k : Nat) : Word := (base &&& ~~~0xFFF) + BitVec.ofNat 64 (8 * k)

/-- The permission trap of an index beyond the page at element e: those below stay done (R427, R428). -/
def indexTrap {α : Type} (op : VOp) (e k : Nat) : M α := do
  saveHead { op with pos := e }
  vtrap { op with pos := e } 17 (pageWordEa op.ga k)

/-- A word of a page on an uncorrectable line is not read: cause 21 at its element (R28, R396). -/
def wordCheck (op : VOp) (r : Region) (page k : Nat) : M Unit := do
  let pa := r.wordPa page k
  if (← get).badPa pa then
    saveHead op
    vtrap op 21 (BitVec.ofNat 64 (pa / 64 * 64))

/-- An element as a contribution and its flags; none where it is skipped (R427). -/
def contribution (f : Fmt) (frac : Nat) (x : Slot) (hi : Slot) : Option Int × BitVec 5 :=
  match f with
  | .f32 =>
    (match FF.f32.decode x.toNat with
     | .nan _ => (none, flagNV)
     | .inf n => (some (if n then minS 64 else maxS 64), flagNV)
     | .fin n m e =>
       let y := roundInt .rne n m (e + frac)
       if y.1 < minS 64 then (some (minS 64), flagNV)
       else if maxS 64 < y.1 then (some (maxS 64), flagNV)
       else (some y.1, flagIf y.2 flagNX))
  | .i64 => (some (hi ++ x).toInt, 0)
  | _ => (some x.toInt, 0)

/-- The elements of a vgadd from e on: acc counts the refusals (R427, R421, R423). -/
def vgaddFrom (f : Fmt) (b c : VReg) (e : Option MReg) (n : Nat) (rg : Region) (page : Nat) : Nat → VOp → M VOp
  | 0, op => return op
  | k + 1, op => do
    let r := op.r
    let j := op.j
    if ← isActive op e r j then
      let ix := (← rdV op b r j).toNat
      if 511 < ix then indexTrap op op.pos ix
      let lo ← rdV op c r j
      let hi ← if f = .i64 then rdV op (pairReg c) r j else pure 0
      let y := contribution f rg.frac lo hi
      raiseFl y.2
      match y.1 with
      | none => vgaddFrom f b c e n rg page k op.step
      | some v =>
        if (← hart).ordered then
          modHart fun h => h.deferAt op.at_ (.gadd n page ix (BitVec.ofInt 64 v))
          vgaddFrom f b c e n rg page k op.step
        else
          wordCheck op rg page ix
          let z := (← get).contribute none n page ix v
          set z.1
          vgaddFrom f b c e n rg page k { op.step with acc := if z.2 then op.acc else op.acc + 1 }
    else vgaddFrom f b c e n rg page k op.step

/-- vgadd: all its elements as one step at the home of the page (R427, R421). -/
def unitVgadd (f : Fmt) (b c : VReg) (e : Option MReg) (op : VOp) : M VOp := do
  let x ← unitRegion op
  if (← hart).ordered then vgaddFrom f b c e x.1 x.2.1 x.2.2 (op.len - op.pos) op
  else
    modify fun s => s.gossipAccess x.1 x.2.2 (some s.cur.contributor)
    vgaddFrom f b c e x.1 x.2.1 x.2.2 (op.len - op.pos) op

/-- A word of a page that an ordered task reads enters its read set (R273, R423). -/
def noteGossip (r : Region) (page k : Nat) : M Unit :=
  modify fun s => { s with cur := if s.cur.ordered then s.cur.noteReads s.commits [r.wordPa page k / 64] else s.cur }

/-- A read of a gossip page on path G: its words, counted (R422). -/
def unitPage (op : VOp) : M ((Region × Nat) × List Int) := do
  let x ← unitRegion op
  modify fun s => s.gossipAccess x.1 x.2.2 none
  return (x.2, (← get).pageWords x.2.1 x.2.2)

/-- The active elements of gld and gest from e on: `put` writes word ix of the page; gest needs the weight beside it. -/
def pageElems (weight : Bool) (b : VReg) (e : Option MReg) (rg : Region × Nat) (put : Nat → Nat → Nat → M Unit) :
    Nat → VOp → M VOp
  | 0, op => return op
  | k + 1, op => do
    let r := op.r
    let j := op.j
    if ← isActive op e r j then
      let ix := (← rdV op b r j).toNat
      if 511 < ix then indexTrap op op.pos ix
      if weight then
        wordCheck op rg.1 rg.2 0
        noteGossip rg.1 rg.2 0
      wordCheck op rg.1 rg.2 ix
      noteGossip rg.1 rg.2 ix
      put r j ix
    pageElems weight b e rg put k op.step

/-- gld: raw words into a pair (R428). -/
def unitGld (d b : VReg) (e : Option MReg) (op : VOp) : M VOp := do
  let x ← unitPage op
  pageElems false b e x.1 (fun r j ix => putStored .i64 d r j (BitVec.ofInt 64 (x.2.getD ix 0))) (op.len - op.pos) op

/-- The estimate of word k, with its flags (R428). -/
def estimate (frac : Nat) (w : Int) (k : Nat) (x : Int) : FRes :=
  if w ≤ 0 then { code := 0x7FC00000, fl := flagNV }
  else if k = 0 then FF.f32.ofVal .rne (intVal w)
  else
    let a := FF.f64.ofVal .rne (intVal x)
    let b := FF.f64.ofVal .rne (intVal w)
    let q := FF.f64.div .rne (FF.f64.decode a.code) (FF.f64.decode b.code)
    let y := match FF.f64.decode q.code with
      | .fin n m e => FF.f32.ofVal .rne (.fin n m (e - frac))
      | v => FF.f32.ofVal .rne v
    { code := y.code, fl := (a.fl ||| b.fl ||| q.fl ||| y.fl) &&& (flagNX ||| flagUF) }

/-- gest: estimates as f32 (R428). -/
def unitGest (d b : VReg) (e : Option MReg) (op : VOp) : M VOp := do
  let x ← unitPage op
  pageElems true b e x.1 (fun r j ix => do
    let y := estimate x.1.1.frac (x.2.headD 0) ix (x.2.getD ix 0)
    wrV d r j (BitVec.ofNat 32 y.code)
    raiseFl y.fl) (op.len - op.pos) op

end Sys2Proof.Machine
end

