-- ==== Sys2Proof/Machine/VecUnits.lean ====
section
/-!
DEFINITION. One position (for vq one block, for vsparse one group of 32) of every instruction of majors 0x30 to 0x35, as
the sequencer serves it (R199, R204 to R214). The operands are those of the instruction; `op` holds its position, the
shape with which it entered, its scalars and running values.
-/

namespace Sys2Proof.Machine

/-- The float layout of a format of major 0x30 (R204). -/
def vff (f : Fmt) : FF := (fmtFloat f).getD .f32

/-- The value of a float slot (R31). -/
def fval (f : Fmt) (x : Slot) : FVal := (vff f).decode x.toNat

/-- Writes a float result (R30) and gives its flags. -/
def putF (f : Fmt) (d : VReg) (r j : Nat) (x : FRes) : M (BitVec 5) := do
  wrV d r j (codeSlot f x.code)
  return x.fl

/-- A float operation of one operand. -/
def floatUn (g : FF → RM → FVal → FRes) (f : Fmt) (d a : VReg) (x e : Option MReg) (op : VOp) : M VOp :=
  position x e (fun r j => do
    let u ← rdV op a r j
    putF f d r j (g (vff f) (rmodeOf (← hart)) (fval f u))) op

/-- A float operation of two operands. -/
def floatBin (g : FF → RM → FVal → FVal → FRes) (f : Fmt) (d a b : VReg) (x e : Option MReg) (op : VOp) : M VOp :=
  position x e (fun r j => do
    let u ← rdV op a r j
    let v ← rdV op b r j
    putF f d r j (g (vff f) (rmodeOf (← hart)) (fval f u) (fval f v))) op

/-- A float minimum or maximum on codes (R45). -/
def floatSel (g : FF → Nat → Nat → FRes) (f : Fmt) (d a b : VReg) (x e : Option MReg) (op : VOp) : M VOp :=
  position x e (fun r j => do
    let u ← rdV op a r j
    let v ← rdV op b r j
    putF f d r j (g (vff f) u.toNat v.toNat)) op

/-- A compare into a mask (R204, R205). -/
def compareInto (g : Slot → Slot → Bool × BitVec 5) (d : MReg) (a b : VReg) (x e : Option MReg) (op : VOp) :
    M VOp :=
  position x e (fun r j => do
    let u ← rdV op a r j
    let v ← rdV op b r j
    let c := g u v
    wrM d r j (BitVec.ofBool c.1)
    return c.2) op

/-- The sign operations keep a number's magnitude bits and make NaNs canonical (R204). -/
def signOp (g : Nat → Nat → Nat) (f : FF) (code : Nat) : FRes :=
  match f.decode code with
  | .nan s => f.nanRes (flagIf s flagNV)
  | _ => { code := g (2 ^ (f.eb + f.mb)) (code % 2 ^ f.width), fl := 0 }

/-- A sign operation over a strip. -/
def floatSign (g : Nat → Nat → Nat) (f : Fmt) (d a : VReg) (x e : Option MReg) (op : VOp) : M VOp :=
  position x e (fun r j => do
    let u ← rdV op a r j
    putF f d r j (signOp g (vff f) u.toNat)) op

/-- vaddFloat: round(a + b) (R204). -/
def unitVaddFloat (f : Fmt) (d a b : VReg) (x e : Option MReg) : VOp → M VOp :=
  floatBin FF.add f d a b x e

/-- vsubFloat: round(a − b) (R204). -/
def unitVsubFloat (f : Fmt) (d a b : VReg) (x e : Option MReg) : VOp → M VOp :=
  floatBin FF.sub f d a b x e

/-- vmulFloat: round(a × b) (R204). -/
def unitVmulFloat (f : Fmt) (d a b : VReg) (x e : Option MReg) : VOp → M VOp :=
  floatBin FF.mul f d a b x e

/-- vdiv: round(a / b) (R204). -/
def unitVdiv (f : Fmt) (d a b : VReg) (x e : Option MReg) : VOp → M VOp :=
  floatBin FF.div f d a b x e

/-- vfma: round(a × b + c) (R204). -/
def unitVfma (f : Fmt) (d a b c : VReg) (x e : Option MReg) (op : VOp) : M VOp :=
  position x e (fun r j => do
    let u ← rdV op a r j
    let v ← rdV op b r j
    let w ← rdV op c r j
    putF f d r j ((vff f).fma (rmodeOf (← hart)) (fval f u) (fval f v) (fval f w))) op

/-- vfms: round(a × b − c) (R204). -/
def unitVfms (f : Fmt) (d a b c : VReg) (x e : Option MReg) (op : VOp) : M VOp :=
  position x e (fun r j => do
    let u ← rdV op a r j
    let v ← rdV op b r j
    let w ← rdV op c r j
    putF f d r j ((vff f).fma (rmodeOf (← hart)) (fval f u) (fval f v) (fval f w).negate)) op

/-- vsqrt: round(√a) (R204). -/
def unitVsqrt (f : Fmt) (d a : VReg) (x e : Option MReg) : VOp → M VOp :=
  floatUn FF.sqrt f d a x e

/-- vrcp: round(1 / a) (R204). -/
def unitVrcp (f : Fmt) (d a : VReg) (x e : Option MReg) : VOp → M VOp :=
  floatUn FF.rcp f d a x e

/-- vrsqrt: round(1 / √a) (R204). -/
def unitVrsqrt (f : Fmt) (d a : VReg) (x e : Option MReg) : VOp → M VOp :=
  floatUn FF.rsqrt f d a x e

/-- vexp2: round(2^a) (R204). -/
def unitVexp2 (f : Fmt) (d a : VReg) (x e : Option MReg) : VOp → M VOp :=
  floatUn FF.exp2 f d a x e

/-- vlog2: round(log2 a) (R204). -/
def unitVlog2 (f : Fmt) (d a : VReg) (x e : Option MReg) : VOp → M VOp :=
  floatUn FF.log2 f d a x e

/-- vminFloat: minimumNumber (R204, R45). -/
def unitVminFloat (f : Fmt) (d a b : VReg) (x e : Option MReg) : VOp → M VOp :=
  floatSel FF.minNum f d a b x e

/-- vmaxFloat: maximumNumber (R204, R45). -/
def unitVmaxFloat (f : Fmt) (d a b : VReg) (x e : Option MReg) : VOp → M VOp :=
  floatSel FF.maxNum f d a b x e

/-- vabs: sign 0, exact (R204). -/
def unitVabsFloat (f : Fmt) (d a : VReg) (x e : Option MReg) : VOp → M VOp :=
  floatSign (fun sign code => code % sign) f d a x e

/-- vneg: sign inverted, exact (R204). -/
def unitVneg (f : Fmt) (d a : VReg) (x e : Option MReg) : VOp → M VOp :=
  floatSign (fun sign code => if code < sign then code + sign else code - sign) f d a x e

/-- vcmpeqFloat: the bit is a = b (R204). -/
def unitVcmpeqFloat (f : Fmt) (d : MReg) (a b : VReg) (x e : Option MReg) : VOp → M VOp :=
  compareInto (fun u v => cmpEq (fval f u) (fval f v)) d a b x e

/-- vcmpltFloat: the bit is a < b (R204). -/
def unitVcmpltFloat (f : Fmt) (d : MReg) (a b : VReg) (x e : Option MReg) : VOp → M VOp :=
  compareInto (fun u v => cmpLt (fval f u) (fval f v)) d a b x e

/-- vcmple: the bit is a ≤ b (R204). -/
def unitVcmple (f : Fmt) (d : MReg) (a b : VReg) (x e : Option MReg) : VOp → M VOp :=
  compareInto (fun u v => cmpLe (fval f u) (fval f v)) d a b x e

/-- vcmpun: the bit is a or b is a NaN (R204). -/
def unitVcmpun (f : Fmt) (d : MReg) (a b : VReg) (x e : Option MReg) : VOp → M VOp :=
  compareInto (fun u v => cmpUn (fval f u) (fval f v)) d a b x e

/-! Major 0x31. -/

/-- An integer operation on values, wrapping unless it clamps itself (R205). -/
def intBin (g : Int → Int → Int × BitVec 5) (f : Fmt) (d a b : VReg) (x e : Option MReg) (op : VOp) : M VOp :=
  position x e (fun r j => do
    let u ← rdV op a r j
    let v ← rdV op b r j
    let y := g (intElem f u.toNat).1 (intElem f v.toNat).1
    wrV d r j (intSlot f y.1)
    return y.2) op

/-- An integer operation on w-bit codes (R205). -/
def codeBin (g : Nat → Nat → Nat → Int) (f : Fmt) (d a b : VReg) (x e : Option MReg) (op : VOp) : M VOp :=
  position x e (fun r j => do
    let u ← rdV op a r j
    let v ← rdV op b r j
    let w := fmtWidth f
    wrV d r j (intSlot f (g w (u.toNat % 2 ^ w) (v.toNat % 2 ^ w)))
    return 0) op

/-- The shift amount: y mod w (R205). -/
def shiftBy (f : Fmt) (y : Int) : Nat := (y % (fmtWidth f : Int)).toNat

/-- vaddInt: x + y (R205). -/
def unitVaddInt (f : Fmt) (d a b : VReg) (x e : Option MReg) : VOp → M VOp :=
  intBin (fun u v => (u + v, 0)) f d a b x e

/-- vsubInt: x − y (R205). -/
def unitVsubInt (f : Fmt) (d a b : VReg) (x e : Option MReg) : VOp → M VOp :=
  intBin (fun u v => (u - v, 0)) f d a b x e

/-- vmulInt: low w bits of x × y (R205). -/
def unitVmulInt (f : Fmt) (d a b : VReg) (x e : Option MReg) : VOp → M VOp :=
  intBin (fun u v => (u * v, 0)) f d a b x e

/-- vmulh: bits [2w−1:w] of x × y (R205). -/
def unitVmulh (f : Fmt) (d a b : VReg) (x e : Option MReg) : VOp → M VOp :=
  intBin (fun u v => (u * v / (2 ^ fmtWidth f : Nat), 0)) f d a b x e

/-- vadds: x + y clamped (R205). -/
def unitVadds (f : Fmt) (d a b : VReg) (x e : Option MReg) : VOp → M VOp :=
  intBin (fun u v => clampFlags (fmtRange f).1 (fmtRange f).2 (u + v)) f d a b x e

/-- vsubs: x − y clamped (R205). -/
def unitVsubs (f : Fmt) (d a b : VReg) (x e : Option MReg) : VOp → M VOp :=
  intBin (fun u v => clampFlags (fmtRange f).1 (fmtRange f).2 (u - v)) f d a b x e

/-- vsll: x << (y mod w) (R205). -/
def unitVsll (f : Fmt) (d a b : VReg) (x e : Option MReg) : VOp → M VOp :=
  intBin (fun u v => (u * (2 ^ shiftBy f v : Nat), 0)) f d a b x e

/-- vminInt: the smaller (R205). -/
def unitVminInt (f : Fmt) (d a b : VReg) (x e : Option MReg) : VOp → M VOp :=
  intBin (fun u v => (min u v, 0)) f d a b x e

/-- vmaxInt: the larger (R205). -/
def unitVmaxInt (f : Fmt) (d a b : VReg) (x e : Option MReg) : VOp → M VOp :=
  intBin (fun u v => (max u v, 0)) f d a b x e

/-- vand: bitwise AND (R205). -/
def unitVand (f : Fmt) (d a b : VReg) (x e : Option MReg) : VOp → M VOp :=
  codeBin (fun _ u v => (u &&& v : Nat)) f d a b x e

/-- vor: bitwise OR (R205). -/
def unitVor (f : Fmt) (d a b : VReg) (x e : Option MReg) : VOp → M VOp :=
  codeBin (fun _ u v => (u ||| v : Nat)) f d a b x e

/-- vxor: bitwise XOR (R205). -/
def unitVxor (f : Fmt) (d a b : VReg) (x e : Option MReg) : VOp → M VOp :=
  codeBin (fun _ u v => (u ^^^ v : Nat)) f d a b x e

/-- vsrl: the code shifted right, zeros in (R205). -/
def unitVsrl (f : Fmt) (d a b : VReg) (x e : Option MReg) : VOp → M VOp :=
  codeBin (fun _ u v => (u / 2 ^ shiftBy f v : Nat)) f d a b x e

/-- vsra: shifted right, copies of bit [w−1] in (R205). -/
def unitVsra (f : Fmt) (d a b : VReg) (x e : Option MReg) : VOp → M VOp :=
  codeBin (fun w u v => signedOf w u / (2 ^ shiftBy f v : Nat)) f d a b x e

/-- vcmpeqInt: the bit is x = y (R205). -/
def unitVcmpeqInt (f : Fmt) (d : MReg) (a b : VReg) (x e : Option MReg) : VOp → M VOp :=
  compareInto (fun u v => ((intElem f u.toNat).1 == (intElem f v.toNat).1, 0)) d a b x e

/-- vcmpltInt: the bit is x < y (R205). -/
def unitVcmpltInt (f : Fmt) (d : MReg) (a b : VReg) (x e : Option MReg) : VOp → M VOp :=
  compareInto (fun u v => (decide ((intElem f u.toNat).1 < (intElem f v.toNat).1), 0)) d a b x e

/-- vcmpltn: the bit is the code of x, unsigned, is below that of y (R205). -/
def unitVcmpltn (f : Fmt) (d : MReg) (a b : VReg) (x e : Option MReg) : VOp → M VOp :=
  compareInto (fun u v => (decide (u.toNat % 2 ^ fmtWidth f < v.toNat % 2 ^ fmtWidth f), 0)) d a b x e

/-- vabs: abs(x) modulo 2^w (R205). -/
def unitVabsInt (f : Fmt) (d a : VReg) (x e : Option MReg) (op : VOp) : M VOp :=
  position x e (fun r j => do
    let u ← rdV op a r j
    wrV d r j (intSlot f (intElem f u.toNat).1.natAbs)
    return 0) op

/-! Major 0x32. -/

/-- vcvt: one conversion (R206, R47, R48). -/
def unitVcvt (f : Fmt) (d a : VReg) (src : Fmt) (x e : Option MReg) (op : VOp) : M VOp :=
  position x e (fun r j => do
    let u ← rdV op a r j
    let y := convert f src (rmodeOf (← hart)) u.toNat
    wrV d r j y.slot
    return y.fl) op

/-- The slots of a row from a position. -/
def rdRow (op : VOp) (a : VReg) (r j : Nat) : Nat → M (List Slot)
  | 0 => pure []
  | n + 1 => do
    let x ← rdV op a r j
    return x :: (← rdRow op a r (j + 1) n)

/-- The elements of a block, in order: active ones are stored and raise their flags (R51). -/
def vqStore (op : VOp) (d : VReg) (x e : Option MReg) (sc r : Nat) : Nat → List Slot → M Unit
  | _, [] => pure ()
  | j, u :: t => do
    if ← isActive op e r j then
      let y := vqElem op.fmt (rmodeOf (← hart)) sc u
      wrV d r j y.slot
      raiseFl y.fl
      setExc x r j (excBit y.fl)
    else setExc x r j 0
    vqStore op d x e sc r (j + 1) t

/-- vq: one block of a row, with its scale (R51). -/
def unitVq (d a : VReg) (x e : Option MReg) (op : VOp) : M VOp := do
  let L := max 1 (blockLen op.blk)
  let r := op.r
  let lo := op.j / L * L
  let n := min L (op.vl - lo)
  let xs ← rdRow op a r lo n
  let sc := blockScale op.fmt xs
  vqStore op d x e sc r lo xs
  wrSc d r (lo / L) (BitVec.ofNat 8 sc)
  return { op with pos := r * op.vl + lo + max 1 n }

/-- vdq: one element under its block's scale (R52). -/
def unitVdq (f : Fmt) (d a : VReg) (x e : Option MReg) (op : VOp) : M VOp :=
  position x e (fun r j => do
    let u ← rdV op a r j
    let sc ← rdSc op a r (j / max 1 (blockLen op.blk))
    let y := vdqElem op.fmt (vff f) (rmodeOf (← hart)) sc.toNat u
    wrV d r j y.slot
    return y.fl) op

/-- The blocks of a row (R207). -/
def blocksOf (op : VOp) : Nat := let L := max 1 (blockLen op.blk); (op.vl + L - 1) / L

/-- vscl: the companion of va as elements of vd (R207). -/
def unitVscl (d a : VReg) (op : VOp) : M VOp := do
  let r := op.r
  let j := op.j
  if j < blocksOf op then
    let sc ← rdSc op a r j
    wrV d r j (sc.setWidth 32)
  else wrV d r j 0
  return op.step

/-- vscw: elements of va as the companion of vd (R207). Its positions are the blocks of the rows. -/
def unitVscw (d a : VReg) (op : VOp) : M VOp := do
  let nb := blocksOf op
  let u ← rdV op a (op.pos / nb) (op.pos % nb)
  wrSc d (op.pos / nb) (op.pos % nb) (u.setWidth 8)
  return op.step

/-! Major 0x33. -/

/-- vmv: all 32 bits of each slot (R208). -/
def unitVmv (d a : VReg) (e : Option MReg) (op : VOp) : M VOp :=
  plainPos e (fun r j => do wrV d r j (← rdV op a r j)) op

/-- vbc: gb[w−1:0] in every element (R208). -/
def unitVbc (f : Fmt) (d : VReg) (e : Option MReg) (op : VOp) : M VOp :=
  plainPos e (fun r j => wrV d r j (codeSlot f op.gb.toNat)) op

/-- vid: (gb + j) modulo 2^w (R208). -/
def unitVid (f : Fmt) (d : VReg) (e : Option MReg) (op : VOp) : M VOp :=
  plainPos e (fun r j => wrV d r j (intSlot f (op.gb.toNat + j : Nat))) op

/-- vsel: va where the mask bit is 1, else vb (R208). -/
def unitVsel (d a b : VReg) (c : MReg) (e : Option MReg) (op : VOp) : M VOp :=
  plainPos e (fun r j => do
    if (← rdM op c r j) = 1 then wrV d r j (← rdV op a r j) else wrV d r j (← rdV op b r j)) op

/-- vslu: slides up by gb (R208). -/
def unitVslu (d a : VReg) (e : Option MReg) (op : VOp) : M VOp :=
  plainPos e (fun r j => do
    if op.gb.toNat ≤ j then wrV d r j (← rdV op a r (j - op.gb.toNat)) else wrV d r j 0) op

/-- vsld: slides down by gb (R208). -/
def unitVsld (d a : VReg) (e : Option MReg) (op : VOp) : M VOp :=
  plainPos e (fun r j => do
    if j + op.gb.toNat < op.vl then wrV d r j (← rdV op a r (j + op.gb.toNat)) else wrV d r j 0) op

/-- vperm: va[r][vb[r][j]], 0 beyond vl (R208). -/
def unitVperm (d a b : VReg) (e : Option MReg) (op : VOp) : M VOp :=
  plainPos e (fun r j => do
    let i := (← rdV op b r j).toNat
    if i < op.vl then wrV d r j (← rdV op a r i) else wrV d r j 0) op

/-- vrow: row k of va in every swept row (R208). -/
def unitVrow (d a : VReg) (k : BitVec 3) (e : Option MReg) (op : VOp) : M VOp :=
  plainPos e (fun r j => do wrV d r j (← rdV op a k.toNat j)) op

/-- A slot as a 64-bit scalar by its format: sign-extended for i formats and t2, else zero-extended (R209). -/
def extendSlot (f : Fmt) (x : Slot) : Word :=
  let w := fmtWidth f
  if fmtSigned f then BitVec.ofInt 64 (signedOf w x.toNat) else BitVec.ofNat 64 (x.toNat % 2 ^ w)

/-- vxs: element gb, or 0 beyond the swept elements (R209). -/
def unitVxs (f : Fmt) (a : VReg) (op : VOp) : M VOp := do
  let e := op.gb.toNat
  if e < op.nr * op.vl then
    let u ← rdV op a (e / op.vl) (e % op.vl)
    return { op.step with acc := extendSlot f u }
  else return { op.step with acc := 0 }

/-- vins: ga into element gb (R209). -/
def unitVins (f : Fmt) (d : VReg) (op : VOp) : M VOp := do
  let e := op.gb.toNat
  if e < op.nr * op.vl then wrV d (e / op.vl) (e % op.vl) (codeSlot f op.ga.toNat)
  return op.step

/-- vamv: strip elements into anchored slots by global index (R209). -/
def unitVamv (d : AReg) (a : VReg) (e : Option MReg) (op : VOp) : M VOp :=
  plainPos e (fun r j => do wrA d r ((op.gb.toNat + j) % 64) (← rdV op a r j)) op

/-- vmva: anchored slots into strip elements (R208). -/
def unitVmva (d : VReg) (a : AReg) (e : Option MReg) (op : VOp) : M VOp :=
  plainPos e (fun r j => do wrV d r j (← rdA a r ((op.gb.toNat + j) % 64))) op

/-! Major 0x34. -/

/-- Adds the next addend of a reduction: acc2 counts the active positions so far (R56, R210). -/
def foldInto (op : VOp) (fl : Word → Word × BitVec 5) (first : Word) : M VOp := do
  if op.acc2 = 0 then return { op with acc := first, acc2 := 1 }
  else
    let y := fl op.acc
    raiseFl y.2
    return { op with acc := y.1, acc2 := op.acc2 + 1 }

/-- One slot of a reduction's source, if it is active: strip positions, or 64 slots a row (R210). -/
def redSlot (a : RSrc) (e : Option MReg) (op : VOp) : M (Option Slot) :=
  match a with
  | .strip v => do
    if ← isActive op e op.r op.j then return some (← rdV op v op.r op.j) else return none
  | .anch an => do
    let r := op.pos / 64
    let sl := op.pos % 64
    match e with
    | none => return some (← rdA an r sl)
    | some _ =>
      if sl < op.vl then
        if ← isActive op e r sl then return some (← rdA an r sl) else return none
      else return none

/-- One position of a reduction: float addends combine in the format, integers as exact values (R210). -/
def reduce (gf : FF → Nat → Nat → FRes) (gi : Int → Int → Int) (f : Fmt) (a : RSrc) (e : Option MReg) (op : VOp) :
    M VOp := do
  match ← redSlot a e op with
  | none => return op.step
  | some u =>
    match fmtFloat f with
    | some ff =>
      let op ← foldInto op (fun acc => fRes (gf ff acc.toNat u.toNat)) (BitVec.ofNat 64 (u.toNat % 2 ^ fmtWidth f))
      return op.step
    | none =>
      let y := (intElem f u.toNat).1
      let op ← foldInto op (fun acc => (BitVec.ofInt 64 (gi acc.toInt y), 0)) (BitVec.ofInt 64 y)
      return op.step

/-- vred.add: a running sum with one RNE rounding per addition (R210, R39, R56). -/
def unitVredAdd (f : Fmt) (a : RSrc) (e : Option MReg) : VOp → M VOp :=
  reduce (fun ff x y => ff.add .rne (ff.decode x) (ff.decode y)) (· + ·) f a e

/-- vred.max (R210, R45). -/
def unitVredMax (f : Fmt) (a : RSrc) (e : Option MReg) : VOp → M VOp := reduce FF.maxNum max f a e

/-- vred.min (R210, R45). -/
def unitVredMin (f : Fmt) (a : RSrc) (e : Option MReg) : VOp → M VOp := reduce FF.minNum min f a e

/-- The scalar that a reduction leaves: the canonical NaN or 0 where no position was active (R210). -/
def redResult (f : Fmt) (op : VOp) : Word :=
  if op.acc2 = 0 then (match fmtFloat f with | some ff => BitVec.ofNat 64 ff.nan | none => 0) else op.acc

/-- vcadd: accumulates into slot (gb + j) mod 64; f32 rounds RNE and raises its flags (R211, R57). -/
def unitVcadd (f : Fmt) (d : AReg) (a : VReg) (e : Option MReg) (op : VOp) : M VOp :=
  plainPos e (fun r j => do
    let sl := (op.gb.toNat + j) % 64
    let u ← rdV op a r j
    let x ← rdA d r sl
    if f = .f32 then
      let y := FF.f32.add .rne (FF.f32.decode x.toNat) (FF.f32.decode u.toNat)
      wrA d r sl (BitVec.ofNat 32 y.code)
      raiseFl y.fl
    else wrA d r sl (x + u)) op

/-- vcmax: the running maximum in slot (gb + j) mod 64 (R211). -/
def unitVcmax (f : Fmt) (d : AReg) (a : VReg) (e : Option MReg) (op : VOp) : M VOp :=
  plainPos e (fun r j => do
    let sl := (op.gb.toNat + j) % 64
    let u ← rdV op a r j
    let x ← rdA d r sl
    if f = .f32 then
      let y := FF.f32.maxNum x.toNat u.toNat
      wrA d r sl (BitVec.ofNat 32 y.code)
      raiseFl y.fl
    else wrA d r sl (if x.slt u then u else x)) op

/-- The magnitude by which vsparse ranks an element (R53). -/
def magOf (f : Fmt) (x : Slot) : FVal :=
  match fmtFloat f with
  | some ff => (ff.decode x.toNat).abs
  | none => .fin false (intElem f x.toNat).1.natAbs 0

/-- Whether a ranks above b, the lower index being that of a if `first` (R53). -/
def ranksAbove (a b : FVal) (first : Bool) : Bool :=
  match a.isNaN, b.isNaN with
  | true, false => true
  | false, true => false
  | true, true => first
  | false, false => match a.cmp b with
    | .gt => true
    | .lt => false
    | .eq => first

/-- How many elements of a group rank above an element at index j; `i` is the index of the list's head. -/
def rankIn (f : Fmt) (x : Slot) (j : Nat) : Nat → List Slot → Nat
  | _, [] => 0
  | i, u :: t =>
    (if i ≠ j ∧ ranksAbove (magOf f u) (magOf f x) (decide (i < j)) then 1 else 0) + rankIn f x j (i + 1) t

/-- The kept bits of a group (R53). -/
def keptBits (f : Fmt) (n : Nat) (grp : List Slot) : List Bool :=
  (List.range grp.length).map fun j => decide (rankIn f (grp.getD j 0) j 0 grp < min n grp.length)

/-- Stores a group's results: kept elements in place or packed, and the kept mask (R53, R212). -/
def sparseStore (d : VReg) (c : MReg) (packed : Bool) (r : Nat) : Nat → Nat → List (Slot × Bool) → M Unit
  | _, _, [] => pure ()
  | j, p, (x, k) :: t => do
    wrM c r j (BitVec.ofBool k)
    if packed then
      if k then wrV d r p x
      sparseStore d c packed r (j + 1) (if k then p + 1 else p) t
    else
      wrV d r j (if k then x else 0)
      sparseStore d c packed r (j + 1) p t

/-- Clears positions of a row. -/
def clearRow (d : VReg) (r : Nat) : Nat → Nat → M Unit
  | _, 0 => pure ()
  | j, n + 1 => do
    wrV d r j 0
    clearRow d r (j + 1) n

/-- One group of 32 of vsparse (R212). -/
def sparseGroup (packed : Bool) (f : Fmt) (d a : VReg) (c : MReg) (n : BitVec 5) (op : VOp) : M VOp := do
  let r := op.r
  let lo := op.j / 32 * 32
  let len := min 32 (op.vl - lo)
  let grp ← rdRow op a r lo len
  if packed then clearRow d r lo len
  sparseStore d c packed r lo lo (grp.zip (keptBits f n.toNat grp))
  return { op with pos := r * op.vl + lo + max 1 len }

/-- vsparse (R212, R53). -/
def unitVsparse (f : Fmt) (d a : VReg) (c : MReg) (n : BitVec 5) : VOp → M VOp := sparseGroup false f d a c n

/-- vsparse.p: kept elements in the low positions of the group (R212). -/
def unitVsparseP (f : Fmt) (d a : VReg) (c : MReg) (n : BitVec 5) : VOp → M VOp := sparseGroup true f d a c n

/-- vexpand: packed elements back to their masked positions; acc is the next packed position (R213). -/
def unitVexpand (d a : VReg) (c : MReg) (op : VOp) : M VOp := do
  let r := op.r
  let j := op.j
  let t := if j % 32 = 0 then j else op.acc.toNat
  if (← rdM op c r j) = 1 then
    wrV d r j (← rdV op a r t)
    return { op.step with acc := BitVec.ofNat 64 (t + 1) }
  else
    wrV d r j 0
    return { op.step with acc := BitVec.ofNat 64 t }

/-! Major 0x35. -/

/-- mand (R214). -/
def unitMand (d a b : MReg) (e : Option MReg) (op : VOp) : M VOp :=
  plainPos e (fun r j => do wrM d r j ((← rdM op a r j) &&& (← rdM op b r j))) op

/-- mor (R214). -/
def unitMor (d a b : MReg) (e : Option MReg) (op : VOp) : M VOp :=
  plainPos e (fun r j => do wrM d r j ((← rdM op a r j) ||| (← rdM op b r j))) op

/-- mxor (R214). -/
def unitMxor (d a b : MReg) (e : Option MReg) (op : VOp) : M VOp :=
  plainPos e (fun r j => do wrM d r j ((← rdM op a r j) ^^^ (← rdM op b r j))) op

/-- mnot (R214). -/
def unitMnot (d a : MReg) (e : Option MReg) (op : VOp) : M VOp :=
  plainPos e (fun r j => do wrM d r j (~~~(← rdM op a r j))) op

/-- mpop: counts active positions whose bit is 1 (R214). -/
def unitMpop (a : MReg) (e : Option MReg) (op : VOp) : M VOp := do
  if ← isActive op e op.r op.j then
    let b ← rdM op a op.r op.j
    return { op.step with acc := op.acc + b.setWidth 64 }
  else return op.step

/-- mfirst: the lowest sweep index of an active 1 bit; acc2 tells whether one was found (R214). -/
def unitMfirst (a : MReg) (e : Option MReg) (op : VOp) : M VOp := do
  if ← isActive op e op.r op.j then
    let b ← rdM op a op.r op.j
    if b = 1 ∧ op.acc2 = 0 then return { op.step with acc := BitVec.ofNat 64 op.pos, acc2 := 1 } else return op.step
  else return op.step

/-- mset: 1 below gb (R214). -/
def unitMset (d : MReg) (e : Option MReg) (op : VOp) : M VOp :=
  plainPos e (fun r j => wrM d r j (BitVec.ofBool (decide (op.pos < op.gb.toNat)))) op

end Sys2Proof.Machine
end

