-- ==== Sys2Proof/Machine/Sequencer.lean ====
section
/-!
DEFINITION. The vector sequencer (R145, R197 to R203): which instruction does which position, the registers it writes,
its length and scalar result, the progress indices, entering the queue, and serving it. The instructions of one hart are
served in program order, so that every chaining rule of R201 and R202 holds (R200); how far they are served at issue is
the state's `serve`.
-/

namespace Sys2Proof.Machine

/-- The progress keys of a value register or pair. -/
def pairKeys (f : Fmt) (v : VReg) : List Nat := if f = .i64 then [v.toNat, (pairReg v).toNat] else [v.toNat]

/-- One position of a queued instruction, by its entry. -/
def serveUnit (op : VOp) : M VOp :=
  match op.i with
  | .vaddFloat f d a b x e => unitVaddFloat f d a b x e op
  | .vsubFloat f d a b x e => unitVsubFloat f d a b x e op
  | .vmulFloat f d a b x e => unitVmulFloat f d a b x e op
  | .vfma f d a b c x e => unitVfma f d a b c x e op
  | .vfms f d a b c x e => unitVfms f d a b c x e op
  | .vdiv f d a b x e => unitVdiv f d a b x e op
  | .vsqrt f d a x e => unitVsqrt f d a x e op
  | .vminFloat f d a b x e => unitVminFloat f d a b x e op
  | .vmaxFloat f d a b x e => unitVmaxFloat f d a b x e op
  | .vabsFloat f d a x e => unitVabsFloat f d a x e op
  | .vneg f d a x e => unitVneg f d a x e op
  | .vrcp f d a x e => unitVrcp f d a x e op
  | .vrsqrt f d a x e => unitVrsqrt f d a x e op
  | .vexp2 f d a x e => unitVexp2 f d a x e op
  | .vlog2 f d a x e => unitVlog2 f d a x e op
  | .vcmpeqFloat f d a b x e => unitVcmpeqFloat f d a b x e op
  | .vcmpltFloat f d a b x e => unitVcmpltFloat f d a b x e op
  | .vcmple f d a b x e => unitVcmple f d a b x e op
  | .vcmpun f d a b x e => unitVcmpun f d a b x e op
  | .vaddInt f d a b x e => unitVaddInt f d a b x e op
  | .vsubInt f d a b x e => unitVsubInt f d a b x e op
  | .vmulInt f d a b x e => unitVmulInt f d a b x e op
  | .vmulh f d a b x e => unitVmulh f d a b x e op
  | .vadds f d a b x e => unitVadds f d a b x e op
  | .vsubs f d a b x e => unitVsubs f d a b x e op
  | .vand f d a b x e => unitVand f d a b x e op
  | .vor f d a b x e => unitVor f d a b x e op
  | .vxor f d a b x e => unitVxor f d a b x e op
  | .vsll f d a b x e => unitVsll f d a b x e op
  | .vsrl f d a b x e => unitVsrl f d a b x e op
  | .vsra f d a b x e => unitVsra f d a b x e op
  | .vminInt f d a b x e => unitVminInt f d a b x e op
  | .vmaxInt f d a b x e => unitVmaxInt f d a b x e op
  | .vcmpeqInt f d a b x e => unitVcmpeqInt f d a b x e op
  | .vcmpltInt f d a b x e => unitVcmpltInt f d a b x e op
  | .vcmpltn f d a b x e => unitVcmpltn f d a b x e op
  | .vabsInt f d a x e => unitVabsInt f d a x e op
  | .vcvt f d a src x e => unitVcvt f d a src x e op
  | .vq d a x e => unitVq d a x e op
  | .vdq f d a x e => unitVdq f d a x e op
  | .vscl d a => unitVscl d a op
  | .vscw d a => unitVscw d a op
  | .vmv d a e => unitVmv d a e op
  | .vbc f d _ e => unitVbc f d e op
  | .vid f d _ e => unitVid f d e op
  | .vsel d a b c e => unitVsel d a b c e op
  | .vslu d a _ e => unitVslu d a e op
  | .vsld d a _ e => unitVsld d a e op
  | .vperm d a b e => unitVperm d a b e op
  | .vrow d a k e => unitVrow d a k e op
  | .vxs f _ a _ => unitVxs f a op
  | .vins f d _ _ => unitVins f d op
  | .vamv d a _ e => unitVamv d a e op
  | .vmva d a _ e => unitVmva d a e op
  | .vredAdd f _ a e => unitVredAdd f a e op
  | .vredMax f _ a e => unitVredMax f a e op
  | .vredMin f _ a e => unitVredMin f a e op
  | .vcadd f d a _ e => unitVcadd f d a e op
  | .vcmax f d a _ e => unitVcmax f d a e op
  | .vsparse f d a c n => unitVsparse f d a c n op
  | .vsparseP f d a c n => unitVsparseP f d a c n op
  | .vexpand d a c => unitVexpand d a c op
  | .mand d a b e => unitMand d a b e op
  | .mor d a b e => unitMor d a b e op
  | .mxor d a b e => unitMxor d a b e op
  | .mnot d a e => unitMnot d a e op
  | .mpop _ a e => unitMpop a e op
  | .mfirst _ a e => unitMfirst a e op
  | .mset d _ e => unitMset d e op
  | .vld f d _ _ scale _ off e => unitVld f d scale off e op
  | .vlds f d _ _ scale _ off e => unitVlds f d scale off e op
  | .vldx f d _ ix scale _ off e => unitVldx f d ix scale off e op
  | .vst f d _ _ scale _ off e => unitVst f d scale off e op
  | .vsts f d _ _ scale _ off e => unitVsts f d scale off e op
  | .vstx f d _ ix scale _ off e => unitVstx f d ix scale off e op
  | .vsadd f d _ ix scale sc off e => unitVsadd f d ix scale sc off e op
  | .vldT d _ _ _ _ e => unitVldT d e op
  | .vstT d _ _ _ _ e => unitVstT d e op
  | .opa f d a b _ c16 => unitOpa f d a b c16 op
  | .tfold d a b _ ka kv => unitTfold d a b ka kv op
  | .tclr _ a mask => unitTclr a mask op
  | .tld f d _ _ _ row0 => unitTld f d row0 op
  | .tst f d _ _ _ row0 => unitTst f d row0 op
  | .tmv f d a _ row0 e => unitTmv f d a row0 e op
  | .tadd f d b _ row0 e => unitTadd f d b row0 e op
  | .xins f _ a b c e => unitXins f a b c e op
  | .xacc f _ a b c e => unitXacc f a b c e op
  | .xlook f d a c e => unitXlook f d a c e op
  | .xdel _ a c e => unitXdel a c e op
  | .xdrain f _ a b => unitXdrain f a b op
  | .kst d a _ _ kx => unitKst d a kx.toNat op
  | .ksig d a _ kx => unitKsig d a kx.toNat op
  | .kga d a _ _ kx k => unitKga d a kx.toNat k op
  | .kgaU d a _ _ kx k => unitKgaU d a kx.toNat k op
  | .vgadd f _ _ b c e => unitVgadd f b c e op
  | .gld d _ b e => unitGld d b e op
  | .gest d _ b e => unitGest d b e op
  | _ => return op.step

/-- The progress indices of the registers that an instruction writes: 0 to 31 for strip registers, 32 to 39 for tiles
(R197, R282). -/
def destsOf (i : Instr) : List Nat :=
  match i with
  | .vaddFloat _ d _ _ _ _ => [d.toNat]
  | .vsubFloat _ d _ _ _ _ => [d.toNat]
  | .vmulFloat _ d _ _ _ _ => [d.toNat]
  | .vfma _ d _ _ _ _ _ => [d.toNat]
  | .vfms _ d _ _ _ _ _ => [d.toNat]
  | .vdiv _ d _ _ _ _ => [d.toNat]
  | .vsqrt _ d _ _ _ => [d.toNat]
  | .vminFloat _ d _ _ _ _ => [d.toNat]
  | .vmaxFloat _ d _ _ _ _ => [d.toNat]
  | .vabsFloat _ d _ _ _ => [d.toNat]
  | .vneg _ d _ _ _ => [d.toNat]
  | .vrcp _ d _ _ _ => [d.toNat]
  | .vrsqrt _ d _ _ _ => [d.toNat]
  | .vexp2 _ d _ _ _ => [d.toNat]
  | .vlog2 _ d _ _ _ => [d.toNat]
  | .vaddInt _ d _ _ _ _ => [d.toNat]
  | .vsubInt _ d _ _ _ _ => [d.toNat]
  | .vmulInt _ d _ _ _ _ => [d.toNat]
  | .vmulh _ d _ _ _ _ => [d.toNat]
  | .vadds _ d _ _ _ _ => [d.toNat]
  | .vsubs _ d _ _ _ _ => [d.toNat]
  | .vand _ d _ _ _ _ => [d.toNat]
  | .vor _ d _ _ _ _ => [d.toNat]
  | .vxor _ d _ _ _ _ => [d.toNat]
  | .vsll _ d _ _ _ _ => [d.toNat]
  | .vsrl _ d _ _ _ _ => [d.toNat]
  | .vsra _ d _ _ _ _ => [d.toNat]
  | .vminInt _ d _ _ _ _ => [d.toNat]
  | .vmaxInt _ d _ _ _ _ => [d.toNat]
  | .vabsInt _ d _ _ _ => [d.toNat]
  | .vcvt _ d _ _ _ _ => [d.toNat]
  | .vq d _ _ _ => [d.toNat]
  | .vdq _ d _ _ _ => [d.toNat]
  | .vscl d _ => [d.toNat]
  | .vmv d _ _ => [d.toNat]
  | .vbc _ d _ _ => [d.toNat]
  | .vid _ d _ _ => [d.toNat]
  | .vsel d _ _ _ _ => [d.toNat]
  | .vslu d _ _ _ => [d.toNat]
  | .vsld d _ _ _ => [d.toNat]
  | .vperm d _ _ _ => [d.toNat]
  | .vrow d _ _ _ => [d.toNat]
  | .vins _ d _ _ => [d.toNat]
  | .vmva d _ _ _ => [d.toNat]
  | .vsparse _ d _ _ _ => [d.toNat]
  | .vsparseP _ d _ _ _ => [d.toNat]
  | .vexpand d _ _ => [d.toNat]
  | .vld _ d _ _ _ _ _ _ => [d.toNat]
  | .vlds _ d _ _ _ _ _ _ => [d.toNat]
  | .vldx _ d _ _ _ _ _ _ => [d.toNat]
  | .vldT d _ _ _ _ _ => [d.toNat]
  | .opa _ d _ _ _ _ => [tix d]
  | .tfold d _ _ _ _ _ => [tix d]
  | .tclr _ a _ => [tix a]
  | .tld _ d _ _ _ _ => [tix d]
  | .tmv _ d _ _ _ _ => [d.toNat]
  | .tadd _ d _ _ _ _ => [tix d]
  | .xlook f d _ _ _ => pairKeys f d
  | .xdrain f _ a b => [a.toNat, (pairReg a).toNat] ++ pairKeys f b
  | .kga d _ _ _ _ _ => [d.toNat]
  | .kgaU d _ _ _ _ _ => [d.toNat]
  | .gld d _ _ _ => [d.toNat, (pairReg d).toNat]
  | .gest d _ _ _ => [d.toNat]
  | _ => []

/-- The positions of an instruction in its sweep order. -/
def lenOf (op : VOp) : Nat :=
  match op.i with
  | .vscw _ _ => op.nr * blocksOf op
  | .vxs _ _ _ _ => 1
  | .vins _ _ _ _ => 1
  | .tfold _ _ _ _ _ _ => op.vl
  | .tclr _ _ _ => 1
  | .kga _ _ _ _ _ _ => op.nr * op.vl + 1
  | .kgaU _ _ _ _ _ _ => op.nr * op.vl + 1
  | .vredAdd _ _ (.anch _) _ => op.nr * 64
  | .vredMax _ _ (.anch _) _ => op.nr * 64
  | .vredMin _ _ (.anch _) _ => op.nr * 64
  | _ => op.nr * op.vl

/-- The positions of an instruction that write an element. -/
def elemsOf (op : VOp) : Nat :=
  match op.i with
  | .kga .. | .kgaU .. => op.nr * op.vl
  | _ => lenOf op

/-- Accesses memory on path H, after every earlier scalar store of the hart (R228); vsadd goes to the homes and waits for
none (R241, R406). -/
def touchesMemory (i : Instr) : Bool :=
  match i with
  | .vld .. | .vlds .. | .vldx .. | .vst .. | .vsts .. | .vstx .. | .vldT .. | .vstT .. | .kst .. | .kga .. | .kgaU ..
    => true
  | _ => false

/-- A vector store that spx tracks (R197, R241, R356). -/
def isVecStore (i : Instr) : Bool :=
  match i with
  | .vst .. | .vsts .. | .vstx .. | .vsadd .. | .vstT .. | .kst .. => true
  | _ => false

/-- Clears vbeg when it completes (R198, R237, R326, R343). -/
def usesVbeg (i : Instr) : Bool :=
  match i with
  | .vld .. | .vlds .. | .vldx .. | .vst .. | .vsts .. | .vstx .. | .vsadd .. | .vldT .. | .vstT .. | .kst ..
    | .xins .. | .xacc .. | .kga .. | .kgaU .. => true
  | _ => false

/-- The g register that an instruction writes when it completes (R145). -/
def scalarDest (i : Instr) : Option GReg :=
  match i with
  | .vxs _ d _ _ => some d
  | .mpop d _ _ => some d
  | .tclr d _ _ => some d
  | .xins _ d _ _ _ _ => some d
  | .xacc _ d _ _ _ _ => some d
  | .xdel d _ _ _ => some d
  | .xdrain _ d _ _ => some d
  | .vgadd _ d _ _ _ _ => some d
  | .vredAdd _ d _ _ => some d
  | .vredMax _ d _ _ => some d
  | .vredMin _ d _ _ => some d
  | .mfirst d _ _ => some d
  | .kga _ _ b _ _ _ => some b
  | .kgaU _ _ b _ _ _ => some b
  | _ => none

/-- Writes a g register (R144). -/
def wrG (d : GReg) (x : Word) : M Unit := modHart fun h => h.wr d x

/-- The scalar result of an instruction at completion (R145). -/
def scalarResult (op : VOp) : M Unit :=
  match op.i with
  | .vxs _ d _ _ => wrG d op.acc
  | .mpop d _ _ => wrG d op.acc
  | .tclr d _ _ => wrG d op.acc
  | .xins _ d _ _ _ _ => wrG d op.acc
  | .xacc _ d _ _ _ _ => wrG d op.acc
  | .xdel d _ _ _ => wrG d op.acc
  | .xdrain _ d _ _ => wrG d op.acc
  | .vgadd _ d _ _ _ _ => wrG d op.acc
  | .vredAdd f d _ _ => wrG d (redResult f op)
  | .vredMax f d _ _ => wrG d (redResult f op)
  | .vredMin f d _ _ => wrG d (redResult f op)
  | .mfirst d _ _ => wrG d (if op.acc2 = 0 then BitVec.allOnes 64 else op.acc)
  | .kga _ _ b _ _ _ => wrG b op.acc
  | .kgaU _ _ b _ _ _ => wrG b op.acc
  | _ => pure ()

/-- Progress of the instruction at the head in the registers it writes, but for those a newer one in the queue writes
(R197). -/
def trackProgress (act : Bool) (op : VOp) : M Unit :=
  modHart fun h =>
    let newer := h.vq.tail.flatMap fun o => destsOf o.i
    let keys := (destsOf op.i).filter fun k => !newer.contains k
    let p : Progress := { act := act, cnt := BitVec.ofNat 14 (min op.pos (elemsOf op)) }
    { h with prog := keys.foldl (fun m k => AMap.put m k p) h.prog }

/-- What a position of an instruction that a service call passed has written, flags fl among it, is in the handler frame too:
tret mode 3 brings it back (R160, R392). -/
def Hart.noteCall (fl : BitVec 5) (h : Hart) : Hart :=
  { h with hframe := h.hframe.map fun f =>
      { f with ctx := { f.ctx with
          v := h.ctx.v, m := h.ctx.m, sc := h.ctx.sc, a := h.ctx.a, fflags := f.ctx.fflags ||| fl } } }

/-- The completion of an instruction that a service call passed, in the handler frame: its scalar result, progress, spx and
vbeg (R145, R160, R197, R198). -/
def Hart.endCall (op : VOp) (h : Hart) : Hart :=
  { h with hframe := h.hframe.map fun f =>
      let c := if usesVbeg op.i then { f.ctx with vbeg := none } else f.ctx
      let c := match scalarDest op.i with
        | some d => (({ h with ctx := c } : Hart).wr d (h.rd d)).ctx
        | none => c
      let p : Progress := { act := false, cnt := BitVec.ofNat 14 (min op.pos (elemsOf op)) }
      { f with
        ctx := c, prog := (destsOf op.i).foldl (fun m k => AMap.put m k p) f.prog,
        spx := if isVecStore op.i then { act := false, cnt := BitVec.ofNat 14 op.pos } else f.spx } }

/-- Completes the instruction at the head: its scalar result, progress, spx, and vbeg (R145, R197, R198). -/
def finishHead (op : VOp) : M Unit := do
  trackProgress false op
  scalarResult op
  modHart fun h =>
    let h := { h with vq := h.vq.tail }
    let h := if isVecStore op.i then { h with spx := { act := false, cnt := BitVec.ofNat 14 op.pos } } else h
    let h := if usesVbeg op.i then h.onCtx fun c => { c with vbeg := none } else h
    if op.call then h.endCall op else h

/-- One position of an instruction that a service call passed: the flags it raises are told from the handler's. -/
def serveCall (op : VOp) : M VOp := fun s =>
  let fl := s.cur.ctx.fflags
  let flags := fun (x : BitVec 5) (h : Hart) => h.onCtx fun c => { c with fflags := x }
  match serveUnit op { s with cur := flags 0 s.cur } with
  | .ok op t => .ok op { t with cur := (flags (fl ||| t.cur.ctx.fflags) t.cur).noteCall t.cur.ctx.fflags }
  | .error e t => .error e { t with cur := flags (fl ||| t.cur.ctx.fflags) t.cur }

/-- A queued gossip instruction (R427, R428). -/
def isGossip (i : Instr) : Bool :=
  match i with
  | .vgadd .. | .gld .. | .gest .. => true
  | _ => false

/-- Serves one position of the oldest queued instruction. Stores that retired before a memory instruction are performed
first (R228, R233); a gossip instruction checks its page even where it has no position (R425). -/
def serveHead : M Unit := do
  let h ← hart
  match h.vq with
  | [] => pure ()
  | op :: _ =>
    takeDue
    if touchesMemory op.i then performBefore op.at_ h.sq.length
    if op.len ≤ op.pos then
      if isGossip op.i then let _ ← unitRegion op
      finishHead op
    else
      let op := { op with served := (← get).now }
      let op ← if op.call then serveCall op else serveUnit op
      saveHead op
      if op.len ≤ op.pos then finishHead op else trackProgress true op

/-- Serves n positions, while something is queued. -/
def serveN : Nat → M Unit
  | 0 => pure ()
  | n + 1 => do
    if !(← hart).vq.isEmpty then
      serveHead
      serveN n

/-- The positions that a queue still has to be served for. -/
def queueWork (q : List VOp) : Nat := (q.map fun op => op.len - op.pos + 1).sum

/-- Completes every queued instruction, or ends where one stops. -/
def drainQueue : M Unit := do serveN (queueWork (← hart).vq)

/-- Performs every retired scalar store and completes every queued instruction, in program order. -/
def drainAll : M Unit := do
  drainQueue
  let h ← hart
  performBefore (h.retired + 1) h.sq.length

/-- The oldest retired scalar store, where no older queued access comes before it (R228). -/
def Hart.nextStore (h : Hart) : Option PendingStore :=
  match h.sq with
  | [] => none
  | p :: _ => if h.vq.any fun o => touchesMemory o.i && decide (o.at_ < p.at_) then none else some p

/-- The next store of the hart: the oldest scalar one, or one position of the vector store at the head. -/
def advanceStores : M Unit := do
  if (← hart).nextStore.isSome then performStore else serveHead

/-- spx: the oldest vector store in flight, else the last that completed (R197). -/
def Hart.spxNow (h : Hart) : Progress :=
  match h.vq.find? fun o => isVecStore o.i with
  | some o => { act := true, cnt := BitVec.ofNat 14 o.pos }
  | none => h.spx

/-- Where an instruction begins, and with which count: xins and xacc that meet vbeg set begin at its index with the count held
beside it (R326, R329); while another queued instruction restarts there, vbeg is not theirs (DESIGN CHOICE, log 26). -/
def startOf (h : Hart) (i : Instr) : Nat × Word :=
  match i with
  | .xins .. | .xacc .. =>
    (match h.ctx.vbeg with
     | some k => if h.vq.any fun o => usesVbeg o.i then (0, 0) else (k, h.ctx.held)
     | none => (0, 0))
  | _ => (0, 0)

/-- An instruction with the scalars, the shape and the formats with which it enters (R145, R190). -/
def enterOp (s : State) (i : Instr) (ra rb rc : GReg) (tensor : Option Tensor) : VOp :=
  let h := s.cur
  let start := startOf h i
  let op : VOp :=
    { i := i, opc := h.ctx.pc, iter := h.ctx.iter, at_ := h.retired + 1, ga := h.rd ra, gb := h.rd rb, gc := h.rd rc,
      vl := h.ctx.vl, nr := h.ctx.nr.toNat, fmt := h.ctx.fmt, blk := h.ctx.blk, len := 0, pos := start.1, acc := start.2,
      acc2 := 0, aux := [], tensor := tensor, entered := s.tick, served := s.now, look := s.lookNow, call := false }
  { op with len := lenOf op }

/-- The hart with an instruction in its queue (R197). -/
def Hart.enqueue (h : Hart) (op : VOp) : Hart :=
  { h with vq := h.vq ++ [op],
           prog := (destsOf op.i).foldl (fun m k => AMap.put m k { act := true, cnt := 0 }) h.prog }

/-- Issues a queued instruction: while the store-fault record queue has no room a store does not issue (R245); an
instruction that is not legal for the hart takes the illegal-instruction trap (R88); else it enters the queue, retires
and is served. -/
def issue (i : Instr) (ra rb rc : GReg) (legal : Bool) (tensor : Option Tensor) : M Unit := do
  let s ← get
  let h := s.cur
  if isVecStore i ∧ (16 ≤ h.sfq.length ∨ h.sfHeld ≠ []) then leave
  if !legal then illegal i
  set { s with cur := (h.enqueue (enterOp s i ra rb rc tensor)).retire, free := s.free + 1 }
  match s.serve with
  | none => drainQueue
  | some n => serveN n

/-- Issues an instruction that is legal for every hart. -/
def issuePlain (i : Instr) (ra rb rc : GReg) : State → Host.Outcome State Fault Refusal :=
  runHart (issue i ra rb rc true none)

/-- Issues an instruction that a property of the hart makes legal. -/
def issueIf (i : Instr) (ra rb rc : GReg) (legal : Hart → Bool) : State → Host.Outcome State Fault Refusal :=
  runHart do issue i ra rb rc (legal (← hart)) none

/-- Issues a tensor form: the id must be defined, and a block length that it has be vtype's (R242). -/
def issueTensor (i : Instr) (ra rb : GReg) (tid : BitVec 8) : State → Host.Outcome State Fault Refusal :=
  runHart do
    let s ← get
    match s.tensorOf s.cur tid.toNat with
    | some t => issue i ra rb 0 (t.blk == 0 || t.blk == s.cur.ctx.blk) (some t)
    | none => issue i ra rb 0 false none

/-- Major 0x70 raises the unit-absent trap where the part has no exchange engines (R87, R410). -/
def requireGxe (i : Instr) : M Unit := do
  let s ← get
  if s.part = .tl430 then trapHere 23 (s.cur.wordOf i)

/-- Issues a gossip instruction. -/
def issueGossip (i : Instr) (ra : GReg) : State → Host.Outcome State Fault Refusal :=
  runHart do
    requireGxe i
    issue i ra 0 0 true none

/-- The tile is within the hart's allotment (R276). -/
def ownsTile (t : TReg) (h : Hart) : Bool := decide (t.toNat < h.ntiles)

/-- vtype has a block length, which block instructions need (R50, R88). -/
def hasBlocks (h : Hart) : Bool := h.ctx.blk != 0

end Sys2Proof.Machine
end

