-- ==== Sys2Proof/Machine/Atomics.lean ====
section
/-!
DEFINITION. Atomics and wait, major 0x48 (R265 to R269): resolution, the one step at the point of performance, fabric
scope (R267, R451, R452), deferral in an ordered launch (R274), and the record log's old values (R459).
-/

namespace Sys2Proof.Machine

/-- Bytes of a size (R265). -/
def sizeBytes : ASize → Nat
  | .w => 4
  | .d => 8

/-- A value of n bytes as a signed number. -/
def amoSigned (n : Nat) (x : Word) : Int := (sextLow (8 * n) x).toInt

/-- An unsigned number of n bytes. -/
def lowOf (n : Nat) (x : Word) : Nat := x.toNat % 2 ^ (8 * n)

/-- How an atomic makes the new value from size, old value, x and e; none where it writes nothing (R266). -/
abbrev AmoFn := Nat → Word → Word → Word → Option Word

def addNew : AmoFn := fun _ old x _ => some (old + x)
def andNew : AmoFn := fun _ old x _ => some (old &&& x)
def orNew : AmoFn := fun _ old x _ => some (old ||| x)
def xorNew : AmoFn := fun _ old x _ => some (old ^^^ x)
def minNew : AmoFn := fun n old x _ => some (if amoSigned n x < amoSigned n old then x else old)
def maxNew : AmoFn := fun n old x _ => some (if amoSigned n old < amoSigned n x then x else old)
def minnNew : AmoFn := fun n old x _ => some (if lowOf n x < lowOf n old then x else old)
def maxnNew : AmoFn := fun n old x _ => some (if lowOf n old < lowOf n x then x else old)
def swapNew : AmoFn := fun _ _ x _ => some x
def casNew : AmoFn := fun n old x e => if lowOf n old = lowOf n e then some x else none
/-- RNE, NaN canonical, subnormals kept (R266, R39). -/
def faddNew : AmoFn := fun _ old x _ =>
  some (BitVec.ofNat 64 (FF.f32.add .rne (FF.f32.decode (lowOf 4 old)) (FF.f32.decode (lowOf 4 x))).code)
def ldNew : AmoFn := fun _ _ _ _ => none
def stNew : AmoFn := fun _ _ x _ => some x

/-- An atomic: the minor that names its operation, its new value, whether its old value is zero-extended, whether it
reads and whether a device page permits it (R265, R266). -/
structure AmoKind where
  code : Nat
  new : AmoFn
  zext : Bool
  reads : Bool
  device : Bool

/-- gd from the old value (R266). -/
def AmoKind.extend (k : AmoKind) (n : Nat) (old : Word) : Word :=
  if k.zext then zextLow (8 * n) old else sextLow (8 * n) old

/-- The word of an atomic or wait at its point of performance (R222, R265): aligned, permitted, and readable where it is
read. -/
def resolveAmo (s : State) (acc : Access) (reads device : Bool) (ea : Word) (n : Nat) : Except XFault Phys :=
  if ea.toNat % n ≠ 0 then .error .perm
  else
    match resolveFor s s.cur acc ea with
    | .error f => .error f
    | .ok p =>
      if p.cls = 1 then (if device then .ok p else .error .perm)
      else if reads && s.badPa p.pa then .error (.uncorrectable (p.pa / 64 * 64))
      else .ok p

/-- Enters the word's line into the read set of an ordered task under the horizon at the instant of the read (R273). -/
def noteWord (commits pa : Nat) : M Unit := modHart fun h => h.readAtHome commits pa

/-- Writes gd with an old value, logged or replayed, and retires; with d = 0 it only retires (R266, R459). -/
def giveOld (d : GReg) (entry : Option (Word × Word)) (old : Word) : M Unit :=
  if d = 0 then modHart Hart.retire else recordOld 2 entry old (result d)

/-- The entry of the record log that a fetching atomic takes before it is performed (R460, R461). -/
def aheadOf (d : GReg) : M (Option (Word × Word)) := if d = 0 then pure none else recordAhead 2

/-- The request of this hart for whose answer it waits at another package. -/
def State.awaited (s : State) : Option Asked :=
  match s.cur.wait with
  | some (.peer _ port seq) => s.asked.find? fun a => a.port == port && a.seq == seq
  | _ => none

/-- Looks for an answer that satisfies a condition; the hart stays where it is until there is one. A refusal takes the
permission trap, and a package that no route reaches cause 21 (R451, R452). `entry` takes the log's entry, which the answer
found does not overtake (R460). -/
def peerAnswer {α : Type} (ea : Word) (a : Asked) (fits : Word → Bool) (entry : M α) : M (α × Word) := do
  if a.lost then
    modify fun s => s.answered a
    trapHere 21 ea
  let s ← get
  set { s with free := s.free + 1 }
  if Config.peerSilent s.free then leave
  match Config.peerReply s.free with
  | none =>
    modify fun s => s.answered a
    trapHere 17 ea
  | some x =>
    if !fits x then leave
    let y ← entry
    modify fun s => s.answered a
    return (y, x)

/-- Every deferred addition that the hart sent to another package is answered (R267): one refused takes the permission trap,
one that no route reaches cause 21 (R451, R452). -/
def ackDeferred : List Asked → M Unit
  | [] => pure ()
  | a :: t => do
    if !a.waits && a.hid == (← hart).hid then
      let _ ← peerAnswer (BitVec.ofNat 64 a.va) a (fun _ => true) (pure ())
    ackDeferred t

/-- What fabric and system scope wait for (R267). -/
def awaitFabric (sc : Scope) : M Unit := do
  if sc == .fabric || sc == .system then ackDeferred (← get).asked

/-- The log would take an entry now; it does not take it yet (R460 to R462). -/
def peekAhead {α : Type} (entry : M α) : M Unit := do
  let s ← get
  let _ ← entry
  set s

/-- Sends the request of the hart on the front end to the package that fpk names, and waits for its answer; where the package
cannot be reached cause 21 is taken (R267, R452). -/
def sendPeer (amo : Bool) (ea : Word) (req : Nat → PeerReq) : M Asked := do
  let s ← get
  let h := s.cur
  match s.sendFabric h.hid true h.part h.ctx.fpk.toNat ea.toNat req with
  | some (s, a) =>
    set { s with cur := { s.cur with
      wait := some (.peer amo a.port a.seq), since := if s.cur.wait.isSome then s.cur.since else s.now } }
    return a
  | none => trapHere 21 ea

/-- A request at another package from its sending to its answer (R267, R452). -/
def askPeer {α : Type} (amo : Bool) (ea : Word) (req : Nat → PeerReq) (fits : Word → Bool) (entry : M α) :
    M (α × Word) := do
  match (← get).awaited with
  | some a => peerAnswer ea a fits entry
  | none =>
    peekAhead entry
    let a ← sendPeer amo ea req
    peerAnswer ea a fits entry

/-- An atomic performed by another package (R267). -/
def amoPeer (k : AmoKind) (d : GReg) (ea : Word) (n : Nat) (x e : Word) : M Unit := do
  if ea.toNat % n ≠ 0 then trapHere 17 ea
  let h ← hart
  if k.code = 10 ∧ d = 0 ∧ h.ordered then
    modHart fun h => (h.deferNow (.fabric h.ctx.fpk.toNat ea.toNat (x.extractLsb' 0 32))).retire
  else
    let (entry, old) ← askPeer true ea (fun q => .amo q k.code n ea.toNat x e) (fun _ => true) (aheadOf d)
    giveOld d entry (k.extend n old)

/-- A retired store reaches a device page. -/
def PendingStore.toDevice (s : State) (h : Hart) (p : PendingStore) : Bool :=
  match resolveRange s h .store p.ea p.bytes.length with
  | .ok ps => ps.any (·.cls == 1)
  | .error _ => false

/-- The hart's earlier accesses to device pages are performed first (R270): its retired stores up to the last such one, and
queued vector accesses, whose pages their sweep tells. Other stores are not waited for (R406). -/
def deviceOrder : M Unit := do
  if (← hart).vq.any fun o => touchesMemory o.i then drainQueue
  let s ← get
  match (s.cur.sq.filter (PendingStore.toDevice s s.cur)).getLast? with
  | some p => performBefore (p.at_ + 1) s.cur.sq.length
  | none => pure ()

/-- An atomic on a device page: one single-copy access after every earlier access of the hart to such pages (R265, R270). -/
def amoDevice (k : AmoKind) (d : GReg) (p : Phys) (n : Nat) (x : Word) : M Unit := do
  deviceOrder
  let entry ← aheadOf d
  let s ← get
  let old := leWord ((List.range n).map fun i => Config.deviceByte (s.free + i))
  set (if k.reads then { s with free := s.free + n }
       else { s with out := s.out ++ [.device p.pa (wordBytes n x)] })
  giveOld d entry (k.extend n old)

/-- An atomic in the package's memory: one indivisible step at the home (R266, R267). -/
def amoHome (k : AmoKind) (d : GReg) (ea : Word) (p : Phys) (n : Nat) (x e : Word) : M Unit := do
  let entry ← aheadOf d
  modify fun s => s.fillTlb s.cur .atomic ea
  if d ≠ 0 then noteWord (← get).commits p.pa
  let s ← get
  let old := leWord (s.bytes p.pa n)
  match k.new n old x e with
  | some y => set (s.writeHome none (cellsAt p.pa (wordBytes n y)))
  | none => pure ()
  giveOld d entry (k.extend n old)

/-- An earlier vsadd of the hart is performed first (R268). -/
def drainSadd : M Unit := do
  if (← hart).vq.any fun o => match o.i with | .vsadd .. => true | _ => false then drainQueue

/-- THE MEANING THAT ATOMICS SHARE (R265 to R268, R274). Every earlier commit has been performed, so that no scope but
fabric has anything to wait for. -/
def amo (k : AmoKind) (d base ix : GReg) (n : Nat) (sc : Scope) (off : BitVec 18) : M Unit := do
  drainSadd
  awaitFabric sc
  let s ← get
  let h := s.cur
  let ea := h.eaAmo base off
  let x := h.rd ix
  let e := h.rd d
  if h.toPeer sc then amoPeer k d ea n x e
  else
    match resolveAmo s .atomic k.reads k.device ea n with
    | .error f => accessFault ea f
    | .ok p =>
      if p.cls = 1 then amoDevice k d p n x
      else if k.code = 10 ∧ d = 0 ∧ h.ordered then
        modHart fun h => (h.deferNow (.fadd ea.toNat p.pa (x.extractLsb' 0 32))).retire
      else amoHome k d ea p n x e

/-- amo.add (R266). -/
def execAmoAdd (d base ix : GReg) (sz : ASize) (sc : Scope) (off : BitVec 18) :
    State → Host.Outcome State Fault Refusal :=
  runHart (amo { code := 0, new := addNew, zext := false, reads := true, device := false } d base ix (sizeBytes sz) sc off)

/-- amo.and (R266). -/
def execAmoAnd (d base ix : GReg) (sz : ASize) (sc : Scope) (off : BitVec 18) :
    State → Host.Outcome State Fault Refusal :=
  runHart (amo { code := 1, new := andNew, zext := false, reads := true, device := false } d base ix (sizeBytes sz) sc off)

/-- amo.or (R266). -/
def execAmoOr (d base ix : GReg) (sz : ASize) (sc : Scope) (off : BitVec 18) :
    State → Host.Outcome State Fault Refusal :=
  runHart (amo { code := 2, new := orNew, zext := false, reads := true, device := false } d base ix (sizeBytes sz) sc off)

/-- amo.xor (R266). -/
def execAmoXor (d base ix : GReg) (sz : ASize) (sc : Scope) (off : BitVec 18) :
    State → Host.Outcome State Fault Refusal :=
  runHart (amo { code := 3, new := xorNew, zext := false, reads := true, device := false } d base ix (sizeBytes sz) sc off)

/-- amo.min (R266). -/
def execAmoMin (d base ix : GReg) (sz : ASize) (sc : Scope) (off : BitVec 18) :
    State → Host.Outcome State Fault Refusal :=
  runHart (amo { code := 4, new := minNew, zext := false, reads := true, device := false } d base ix (sizeBytes sz) sc off)

/-- amo.max (R266). -/
def execAmoMax (d base ix : GReg) (sz : ASize) (sc : Scope) (off : BitVec 18) :
    State → Host.Outcome State Fault Refusal :=
  runHart (amo { code := 5, new := maxNew, zext := false, reads := true, device := false } d base ix (sizeBytes sz) sc off)

/-- amo.minn (R266). -/
def execAmoMinn (d base ix : GReg) (sz : ASize) (sc : Scope) (off : BitVec 18) :
    State → Host.Outcome State Fault Refusal :=
  runHart (amo { code := 6, new := minnNew, zext := true, reads := true, device := false } d base ix (sizeBytes sz) sc off)

/-- amo.maxn (R266). -/
def execAmoMaxn (d base ix : GReg) (sz : ASize) (sc : Scope) (off : BitVec 18) :
    State → Host.Outcome State Fault Refusal :=
  runHart (amo { code := 7, new := maxnNew, zext := true, reads := true, device := false } d base ix (sizeBytes sz) sc off)

/-- amo.swap (R266). -/
def execAmoSwap (d base ix : GReg) (sz : ASize) (sc : Scope) (off : BitVec 18) :
    State → Host.Outcome State Fault Refusal :=
  runHart (amo { code := 8, new := swapNew, zext := false, reads := true, device := false } d base ix (sizeBytes sz) sc off)

/-- amo.cas (R266). -/
def execAmoCas (d base ix : GReg) (sz : ASize) (sc : Scope) (off : BitVec 18) :
    State → Host.Outcome State Fault Refusal :=
  runHart (amo { code := 9, new := casNew, zext := false, reads := true, device := false } d base ix (sizeBytes sz) sc off)

/-- amo.fadd (R266). -/
def execAmoFadd (d base ix : GReg) (sc : Scope) (off : BitVec 18) : State → Host.Outcome State Fault Refusal :=
  runHart (amo { code := 10, new := faddNew, zext := true, reads := true, device := false } d base ix 4 sc off)

/-- amo.ld (R266). -/
def execAmoLd (d base : GReg) (sz : ASize) (sc : Scope) (off : BitVec 18) :
    State → Host.Outcome State Fault Refusal :=
  runHart (amo { code := 11, new := ldNew, zext := false, reads := true, device := true } d base 0 (sizeBytes sz) sc off)

/-- amo.st (R266). -/
def execAmoSt (base ix : GReg) (sz : ASize) (sc : Scope) (off : BitVec 18) :
    State → Host.Outcome State Fault Refusal :=
  runHart (amo { code := 12, new := stNew, zext := false, reads := false, device := true } 0 base ix (sizeBytes sz) sc off)

/-- wait ends with a satisfying value, read when so many commits had been performed (R269, R273). -/
def finishWait (d : GReg) (n pa : Nat) (old : Word) (commits : Nat) : M Unit := do
  let entry ← recordAhead 2
  noteWord commits pa
  recordOld 2 entry (sextLow (8 * n) old) (result d)

/-- wait on a word of another package, which answers once its value satisfies (R267, R269). -/
def waitPeer (d : GReg) (ea : Word) (n : Nat) (cond : WCond) (x : Word) : M Unit := do
  if ea.toNat % n ≠ 0 then trapHere 17 ea
  let (entry, old) ← askPeer false ea (fun q => .wait q cond.code.toNat n ea.toNat x) (fun old => condHolds cond n old x)
    (recordAhead 2)
  recordOld 2 entry (sextLow (8 * n) old) (result d)

/-- wait (R269): it ends with a value that satisfied the condition at some instant since it began. -/
def execWait (d base ix : GReg) (sz : ASize) (sc : Scope) (off : BitVec 14) (cond : WCond) :
    State → Host.Outcome State Fault Refusal :=
  runHart do
    drainSadd
    awaitFabric sc
    let s ← get
    let h := s.cur
    let n := sizeBytes sz
    let ea := h.eaWait base off
    let x := h.rd ix
    match h.wait with
    | some (.word w (some y)) => finishWait d n w.pa y.1 y.2
    | _ =>
      if h.toPeer sc then waitPeer d ea n cond x
      else
        match resolveAmo s .wait true false ea n with
        | .error f => accessFault ea f
        | .ok p =>
          modify fun s => s.fillTlb s.cur .wait ea
          let old := leWord (s.bytes p.pa n)
          if condHolds cond n old x then finishWait d n p.pa old s.commits
          else standStill (.word { pa := p.pa, size := n, cond := cond, x := x } none)

end Sys2Proof.Machine
end

