-- ==== Sys2Proof/Machine/Branch.lean ====
section
/-!
DEFINITION. Branches and jumps, majors 0x18 to 0x1B (R155 to R158).
-/

namespace Sys2Proof.Machine

/-- `beq`: taken when ga = gb (R155). -/
def execBeq (a b : GReg) (off : BitVec 32) (s : State) : Host.Outcome State Fault Refusal :=
  branchOn (fun h => h.rd a == h.rd b) off s

/-- `bne`: taken when ga ≠ gb (R155). -/
def execBne (a b : GReg) (off : BitVec 32) (s : State) : Host.Outcome State Fault Refusal :=
  branchOn (fun h => h.rd a != h.rd b) off s

/-- `blt`: taken when ga < gb, signed (R155). -/
def execBlt (a b : GReg) (off : BitVec 32) (s : State) : Host.Outcome State Fault Refusal :=
  branchOn (fun h => (h.rd a).slt (h.rd b)) off s

/-- `bge`: taken when ga ≥ gb, signed (R155). -/
def execBge (a b : GReg) (off : BitVec 32) (s : State) : Host.Outcome State Fault Refusal :=
  branchOn (fun h => !(h.rd a).slt (h.rd b)) off s

/-- `bltn`: taken when ga < gb, unsigned (R155). -/
def execBltn (a b : GReg) (off : BitVec 32) (s : State) : Host.Outcome State Fault Refusal :=
  branchOn (fun h => (h.rd a).ult (h.rd b)) off s

/-- `bgen`: taken when ga ≥ gb, unsigned (R155). -/
def execBgen (a b : GReg) (off : BitVec 32) (s : State) : Host.Outcome State Fault Refusal :=
  branchOn (fun h => !(h.rd a).ult (h.rd b)) off s

/-- `bz`: taken when ga = 0 (R155). -/
def execBz (a : GReg) (off : BitVec 32) (s : State) : Host.Outcome State Fault Refusal :=
  branchOn (fun h => h.rd a == 0) off s

/-- `bnz`: taken when ga ≠ 0 (R155). -/
def execBnz (a : GReg) (off : BitVec 32) (s : State) : Host.Outcome State Fault Refusal :=
  branchOn (fun h => h.rd a != 0) off s

/-- `jal`: links PC + 8 and jumps PC-relative (R156). -/
def execJal (d : GReg) (off : BitVec 32) (s : State) : Host.Outcome State Fault Refusal :=
  if s.cur.status = .running then
    let h := s.cur
    .next { s with cur := (h.wr d (h.ctx.pc + 8)).count.branch off }
  else .fault .noHart

/-- `jalr`: the target is read before the link is written; a misaligned target takes the illegal-instruction trap with
tval := target and writes nothing (R156, R88). -/
def execJalr (d a : GReg) (imm : BitVec 32) : State → Host.Outcome State Fault Refusal :=
  runHart do
    let h ← hart
    let target := h.rd a + sext32 imm
    if target.extractLsb' 0 3 ≠ 0 then trapHere 16 target
    else modHart fun h => (h.wr d (h.ctx.pc + 8)).count.leaveTo target

/-- `dbnz`: decrements ga and branches if the result is nonzero; with g0 the write is discarded and the branch taken
(R157). -/
def execDbnz (a : GReg) (off : BitVec 32) (s : State) : Host.Outcome State Fault Refusal :=
  if s.cur.status = .running then
    let h := s.cur
    let v := h.rd a - 1
    .next { s with cur := branchIf (v != 0) off (h.wr a v).count }
  else .fault .noHart

end Sys2Proof.Machine
end

