-- ==== Sys2Proof/Machine/Control.lean ====
section
/-!
DEFINITION. The control registers by number (R133, R134, R185, R186, R197, R198, R259, R295, R388, R400, R463) and the
instructions that reach them: crd, cwr, cset, cclr (R147 to R149, R159).
-/

namespace Sys2Proof.Machine

/-- The group number of a hart: its work id above field 0 (R116). -/
def Hart.groupNo (h : Hart) : Nat := h.wid.toNat / 2 ^ (h.widths.headD 0)

/-- hstat (R133); an ordered launch reads its logical hart number (R454). -/
def Hart.hstat (h : Hart) : Word :=
  let num := if h.ordered then 8 * (h.groupNo % 128) + h.idx else h.hnum
  wordN (h.idx * 2 ^ 29 + h.hpg * 2 ^ 26 + num % 1024 * 2 ^ 16 + h.weight * 2 ^ 8 + bitN h.priv * 2 ^ 7
    + bitN h.ctx.resid.isSome * 2 ^ 6 + bitN h.strict * 2 ^ 5 + bitN h.ordered * 2 ^ 4 + bitN h.coplace * 2 ^ 3
    + h.part)

/-- The widths of a launch, packed as in its header (R112, R133). -/
def packWidths : List Nat → Nat
  | [] => 0
  | w :: t => w + 64 * packWidths t

/-- wext (R133). -/
def Hart.wext (h : Hart) : Word := wordN (packWidths h.widths + h.hpg * 2 ^ 36)

/-- vtype as it reads (R185). -/
def Hart.vtypeWord (h : Hart) : Word :=
  wordN (h.ctx.nr.toNat * 2 ^ 8 + h.ctx.blk.toNat * 2 ^ 4 + h.ctx.fmt.code.toNat)

/-- A progress index as it reads (R197). -/
def Progress.word (p : Progress) : Word := wordN (bitN p.act * 2 ^ 15 + p.cnt.toNat)

/-- The progress index of a register; one never tracked reads zero (R197). -/
def Hart.progOf (h : Hart) (k : Nat) : Progress := (AMap.find? h.prog k).getD { act := false, cnt := 0 }

/-- vbeg (R198). -/
def Hart.vbegWord (h : Hart) : Word :=
  match h.ctx.vbeg with
  | some k => wordN (2 ^ 15 + k)
  | none => 0

/-- The bits of the lane groups that a slot holds, from lane group k. -/
def laneMap (slot : Nat) : Nat → List LatEntry → Nat
  | _, [] => 0
  | k, e :: t => bitN (e.held && e.owner == slotBits slot) * 2 ^ k + laneMap slot (k + 1) t

/-- lhold (R186). -/
def State.lholdWord (s : State) (h : Hart) : Word :=
  let lat := (s.core h.core).lat
  wordN (heldBy lat h.slot * 2 ^ 16 + laneMap h.slot 0 lat)

/-- phst (R259). -/
def State.phstWord (s : State) : Word :=
  let h := s.cur
  wordN (h.lost * 2 ^ 48 + h.abrt * 2 ^ 32 + bitN s.oldest * 2 ^ 3 + bitN (h.wait == some .turn) * 2 ^ 2
    + bitN h.ovf * 2)

/-- vuse (R259, R343). -/
def Hart.vuseWord (h : Hart) : Word := wordN (h.vcap * 2 ^ 32 + (h.verLines.length + h.quarterIntents))

/-- Register k of a copy channel (R295). -/
def Channel.reg (c : Channel) (cbud : Nat) : Nat → Option Word
  | 0 => some c.src
  | 1 => some c.dst
  | 2 => some c.len
  | 3 => some c.flg
  | 4 => some (wordN c.next)
  | 5 => some (wordN c.done)
  | 6 => some (wordN (bitN c.errVal * 2 ^ 63 + c.errKind * 2 ^ 56 + c.errCnt * 2 ^ 48 + c.errId))
  | 7 => some (wordN cbud)
  | 8 => some (wordN (bitN c.loVal * 2 ^ 63 + c.loId))
  | _ => none

/-- A channel of the hart. -/
def Hart.chan (h : Hart) (n : Nat) : Channel := h.chans.getD n Channel.init

/-- Changes a channel of the hart. -/
def Hart.onChan (h : Hart) (n : Nat) (f : Channel → Channel) : Hart :=
  { h with chans := h.chans.set n (f (h.chan n)) }

/-- The shape constants and feat (R134, R18); an ordered launch reads the VS128 column (R454). -/
def shapeReg (part : Part) (ordered : Bool) (k : Nat) : Option Word :=
  let pick := fun (a b c : Nat) =>
    some (wordN (if ordered then c else match part with | .tl460 => a | .tl430 => b))
  match k with
  | 0x00 => pick 0x0460 0x0430 0x0128
  | 0x01 => pick 1024 1024 1024
  | 0x02 => pick 128 64 128
  | 0x03 => pick 8 8 8
  | 0x04 => pick 16 16 16
  | 0x05 => pick 0x400000 0x400000 0x400000
  | 0x06 => pick 32768 32768 32768
  | 0x07 => pick 0x10B000 0x10B000 0x10B000
  | 0x08 => pick 0x180000 0x180000 0x180000
  | 0x09 => pick 16 8 512
  | 0xFF =>
    some (match part with | .tl460 => 0x0000010010488034 | .tl430 => 0x0000020008244042)
  | _ => none

/-- Registers 0x000 to 0x004 (R133). -/
def Hart.hartReg (h : Hart) : Nat → Option Word
  | 0 => some h.hstat
  | 1 => some h.wid
  | 2 => some (wordN (h.lid % 2 ^ 48))
  | 3 => some (wordN (h.lprio * 2 ^ 8 + h.ctx.prio))
  | 4 => some h.wext
  | _ => none

/-- Registers 0x100 to 0x1FF: grant, rounding and flags, vbeg, progress (R185, R40, R38, R198, R197). -/
def Hart.vecReg (h : Hart) (k : Nat) : Option Word :=
  if 0x20 ≤ k ∧ k < 0x40 then some (h.progOf (k - 0x20)).word
  else if 0x40 ≤ k ∧ k < 0x48 then some (h.progOf (k - 0x40 + 32)).word
  else
    match k with
    | 0 => some (wordN h.ctx.vl)
    | 1 => some (h.ctx.nr.setWidth 64)
    | 2 => some h.vtypeWord
    | 3 => some (h.ctx.rm.setWidth 64)
    | 4 => some (h.ctx.fflags.setWidth 64)
    | 5 => some h.vbegWord
    | 6 => some h.spxNow.word
    | _ => none

/-- Registers 0x200 to 0x20B (R388). -/
def Hart.trapReg (h : Hart) : Nat → Option Word
  | 0 => some h.causeWord
  | 1 => some h.trap.topc
  | 2 => some h.trap.tspc
  | 3 => some h.trap.titer
  | 4 => some h.trap.tval
  | 5 => some (h.trap.tphn.setWidth 64)
  | 6 => some h.tfb
  | 7 => some h.ctx.thb
  | 8 => some (h.ctx.thmask.setWidth 64)
  | 9 => some h.trap.tfpc
  | 10 => some (h.trap.tlag.setWidth 64)
  | 11 => some h.trap.tpts
  | _ => none

/-- Registers 0x400 to 0x405 (R259). -/
def State.phaseReg (s : State) : Nat → Option Word
  | 0 => some (s.cur.phn.setWidth 64)
  | 1 => some s.cur.pts
  | 2 => some (wordN s.cur.cmn)
  | 3 => some s.phstWord
  | 4 => some s.cur.vuseWord
  | 5 => some (s.cur.ctx.fpk.setWidth 64)
  | _ => none

/-- Registers 0x500 to 0x504 (R186). -/
def State.powerReg (s : State) : Nat → Option Word
  | 0 => some (wordN (s.pnum % 2 ^ 32 * 2 ^ 32 + s.cur.offer))
  | 1 => some 1000
  | 2 => some (wordN (match AMap.find? s.parts s.cur.part with | some p => p.holdLim | none => 16))
  | 3 => some (s.thrWord s.cur)
  | 4 => some (s.lholdWord s.cur)
  | _ => none

/-- Registers 0x700 to 0x703 (R463). -/
def State.replayReg (s : State) : Nat → Option Word
  | 0 => some (wordN (s.recMode s.cur.lid * 2 ^ 62 + s.entryPos.toNat % 2 ^ 48))
  | 1 => some s.cur.rdexp
  | 2 => some s.cur.rdact
  | 3 =>
    let d := s.die (dieOfCore s.cur.core)
    some (wordN (bitN d.trEn * 2 ^ 63 + d.trDrop))
  | _ => none

/-- troot (R400): privileged mode only. -/
def State.rootReg (s : State) : Option Word :=
  if s.cur.priv then
    match AMap.find? s.parts s.cur.part with
    | some p => some (wordN (p.root % 2 ^ 52 / 4096 * 4096))
    | none => some 0
  else none

/-- THE VALUE OF A CONTROL REGISTER by number; none where the hart may not name it (R68, R147, R159). -/
def State.creg (s : State) (n : BitVec 12) : Option Word :=
  let k := n.toNat % 256
  match n.toNat / 256 with
  | 0 => s.cur.hartReg k
  | 1 => s.cur.vecReg k
  | 2 => s.cur.trapReg k
  | 3 => if k / 16 < 4 then (s.cur.chan (k / 16)).reg s.cur.cbud (k % 16) else none
  | 4 => s.phaseReg k
  | 5 => s.powerReg k
  | 6 => shapeReg s.part s.cur.ordered k
  | 7 => s.replayReg k
  | 15 => if k = 0 then s.rootReg else none
  | _ => none

/-! Writing (R147). -/

/-- How a writable register is written. -/
inductive WriteKind where
  /-- cwr: set to the source. -/
  | write
  /-- cset: old OR source. -/
  | set
  /-- cclr: old AND NOT source. -/
  | clear
  deriving DecidableEq, Repr

/-- The value of a register's RW bits after a write (R147). -/
def WriteKind.apply (k : WriteKind) (mask old x : Word) : Word :=
  let y := match k with
    | .write => x
    | .set => old ||| x
    | .clear => old &&& ~~~x
  (old &&& ~~~mask) ||| (y &&& mask)

/-- Whether a 1 in a W1C bit clears it (R147). -/
def WriteKind.clears (k : WriteKind) : Bool := k != .set

/-- The scale companions voided where the block length changes (R182, R191). -/
def Ctx.setBlk (c : Ctx) (blk : BitVec 2) : Ctx := { c with blk := blk, sc := if blk = c.blk then c.sc else [] }

/-- The state with registers of the hart on the front end written; companions that a new block length voids fail no parity
(R182, R396). -/
def State.putShape (s : State) (h : Hart) : State :=
  let t := { s with cur := h }
  if h.ctx.blk = s.cur.ctx.blk then t else t.mendHart h.hid [3]

/-- vtype from its twelve bits (R185, R191). -/
def Ctx.setVtype (c : Ctx) (x : BitVec 12) : Ctx :=
  { c.setBlk (x.extractLsb' 4 2) with nr := x.extractLsb' 8 4, fmt := Fmt.ofCode (x.extractLsb' 0 4) }

/-- nr may hold a value (R185). -/
def rowsOk (n : BitVec 4) : Bool := decide (1 ≤ n.toNat) && decide (n.toNat ≤ 8)

/-- vtype may hold a value (R185). -/
def vtypeOk (x : BitVec 12) : Bool :=
  let blk := x.extractLsb' 4 2
  rowsOk (x.extractLsb' 8 4) && blk != 3 && (blk == 0 || (Fmt.ofCode (x.extractLsb' 0 4)).isBlock)

/-- The RW bits of cflg (R295). -/
def cflgMask : Word := 0x00FF0003FFFF007C

/-- A channel with register k written (R295): shadow registers, or the clearing of cerr, which clears cerrlo too. -/
def Channel.write (c : Channel) (w : WriteKind) (x : Word) : Nat → Option Channel
  | 0 => some { c with src := w.apply (BitVec.allOnes 64) c.src x }
  | 1 => some { c with dst := w.apply (BitVec.allOnes 64) c.dst x }
  | 2 => some { c with len := w.apply (BitVec.allOnes 64) c.len x }
  | 3 => some { c with flg := w.apply cflgMask c.flg x }
  | 6 =>
    some (if w.clears && x.getLsbD 63 then
      { c with errVal := false, errKind := 0, errCnt := 0, errId := 0, loVal := false, loId := 0 } else c)
  | _ => none

/-- The hart with a control register written; none where the register has no writable field or may not hold the value
(R38, R40, R147, R185, R259, R295, R388). -/
def Hart.writeCreg (h : Hart) (w : WriteKind) (n : BitVec 12) (x : Word) : Option Hart :=
  let c := h.ctx
  match n.toNat with
  | 0x101 =>
    let y := (w.apply 0xF (c.nr.setWidth 64) x).extractLsb' 0 4
    if rowsOk y then some { h with ctx := { c with nr := y } } else none
  | 0x102 =>
    let y := (w.apply 0xF3F h.vtypeWord x).extractLsb' 0 12
    if vtypeOk y then some { h with ctx := c.setVtype y } else none
  | 0x103 =>
    let y := (w.apply 7 (c.rm.setWidth 64) x).extractLsb' 0 3
    if y.toNat < 4 then some { h with ctx := { c with rm := y } } else none
  | 0x104 => some { h with ctx := { c with fflags := (w.apply 0x1F (c.fflags.setWidth 64) x).extractLsb' 0 5 } }
  | 0x207 => some { h with ctx := { c with thb := w.apply 0x00FFFFFFFFFFFFF8 c.thb x } }
  | 0x208 => some { h with ctx := { c with thmask := (w.apply 7 (c.thmask.setWidth 64) x).extractLsb' 0 3 } }
  | 0x403 => some { h with ovf := if w.clears && x.getLsbD 1 then false else h.ovf }
  | 0x405 => some { h with ctx := { c with fpk := (w.apply 0x3FFF (c.fpk.setWidth 64) x).extractLsb' 0 14 } }
  | n =>
    if 0x300 ≤ n ∧ n < 0x340 then
      let ch := (n - 0x300) / 16
      match (h.chan ch).write w x ((n - 0x300) % 16) with
      | some y => some (h.onChan ch fun _ => y)
      | none => none
    else none

/-! The instructions. -/

/-- The copy-status registers whose reads are recorded: cgo, cpdone, cerr, cerrlo (R459). -/
def recordedChan (n : Nat) : Bool :=
  decide (0x300 ≤ n) && decide (n < 0x340) && (n % 16 == 4 || n % 16 == 5 || n % 16 == 6 || n % 16 == 8)

/-- What crd of a register gives: the live value, or while recording or replaying the value of R459. The offer's field
alone is logged and replaced (log 31). -/
def cregRead (n : BitVec 12) (live : Word) : M Word := do
  if recordedChan n.toNat then recorded 3 live
  else if n = 0x500 then
    let y ← recorded 1 (live &&& 0x7FF)
    return (live &&& ~~~0x7FF) ||| (y &&& 0x7FF)
  else return live

/-- crd (R147, R149, R159): frm and fflags wait for the queue (R41). -/
def execCrd (d : GReg) (cr : BitVec 12) : State → Host.Outcome State Fault Refusal :=
  runHart do
    if cr = 0x103 ∨ cr = 0x104 then drainQueue
    match (← get).creg cr with
    | none => illegal (.crd d cr)
    | some live => result d (← cregRead cr live)

/-- The write that cwr, cset and cclr share: what R88 calls illegal traps at issue, then the queue (R148), then all or
nothing (R147, R159). -/
def writeCr (i : Instr) (w : WriteKind) (cr : BitVec 12) (x : Word) : M Word := do
  let s ← get
  if (s.creg cr).isNone ∨ (s.cur.writeCreg w cr x).isNone then illegal i
  drainQueue
  let s ← get
  match s.creg cr, s.cur.writeCreg w cr x with
  | some old, some h =>
    set (s.putShape h)
    return old
  | _, _ => illegal i

/-- cwr (R147, R148, R159). -/
def execCwr (a : GReg) (cr : BitVec 12) : State → Host.Outcome State Fault Refusal :=
  runHart do
    let _ ← writeCr (.cwr a cr) .write cr ((← hart).rd a)
    modHart Hart.retire

/-- cset (R147, R148, R159). -/
def execCset (d a : GReg) (cr : BitVec 12) : State → Host.Outcome State Fault Refusal :=
  runHart do
    let old ← writeCr (.cset d a cr) .set cr ((← hart).rd a)
    result d old

/-- cclr (R147, R148, R159). -/
def execCclr (d a : GReg) (cr : BitVec 12) : State → Host.Outcome State Fault Refusal :=
  runHart do
    let old ← writeCr (.cclr d a cr) .clear cr ((← hart).rd a)
    result d old

end Sys2Proof.Machine
end

