-- ==== Sys2Proof/Machine/KxControl.lean ====
section
/-!
DEFINITION. The scalar instructions of the scratchpad and the key index: xcnt, xclr (R333), kxdef (R354), kxprj (R355),
kxst (R358) and kxclr (R359).
-/

namespace Sys2Proof.Machine

/-- A queued instruction of the index scratchpad, major 0x60 (R327). -/
def isXpad (i : Instr) : Bool :=
  match i with
  | .xins .. | .xacc .. | .xlook .. | .xdel .. | .xdrain .. => true
  | _ => false

/-- Serves the queue for n positions while an earlier instruction of the index scratchpad is in it (R324, R333). -/
def drainXpad : Nat → M Unit
  | 0 => pure ()
  | n + 1 => do
    if (← hart).vq.any fun o => isXpad o.i then
      serveHead
      drainXpad n

/-- What xcnt and xclr wait for: earlier instructions of the scratchpad (R333), and the slice in place (R321). -/
def awaitSlice : M Unit := do
  drainXpad (queueWork (← hart).vq)
  match (← hart).xPlace with
  | .here => pure ()
  | .away _ => leave
  | .failed line => trapHere 21 (wordN line)

/-- xcnt (R333). -/
def execXcnt (d : GReg) (sel : Bool) : State → Host.Outcome State Fault Refusal :=
  runHart do
    awaitSlice
    let h ← hart
    result d (wordN (if sel then h.xcap else h.xents.length))

/-- xclr (R333). -/
def execXclr (d : GReg) : State → Host.Outcome State Fault Refusal :=
  runHart do
    awaitSlice
    let n := (← hart).xents.length
    modSlice fun _ => []
    result d (wordN n)

/-! kxdef (R336, R337, R354). -/

/-- Every field of a descriptor lies in its range and every reserved one is zero (R336). -/
def descFits (d : List Word) : Bool :=
  fieldOf d 0 57 7 == 0 && fieldOf d 0 40 8 == 0 && fieldOf d 0 26 6 == 0 && fieldOf d 0 21 3 == 0
    && fieldOf d 0 7 1 == 0 && decide (1 ≤ kxChl d) && decide (4 ≤ kxB d) && decide (kxB d ≤ 16)
    && fieldOf d 1 56 8 == 0 && fieldOf d 2 56 8 == 0 && fieldOf d 3 56 8 == 0 && fieldOf d 4 48 16 == 0
    && decide (1 ≤ kxClim d) && decide (1 ≤ kxNseg d)
    && d.getD 5 0 == 0 && d.getD 6 0 == 0 && d.getD 7 0 == 0

/-- A tensor that may hold the keys of a descriptor (R337). -/
def keyLayout (d : List Word) (t : Tensor) : Bool :=
  (t.fmt == .f32 || t.fmt == .bf16 || t.fmt == .f16) && t.blk == 0 && t.extent 0 == kxD d
    && decide (kxH d ≤ t.outer)

/-- The virtual 4 KiB pages of n bytes from an address. -/
def pagesOf (base n : Nat) : List Nat :=
  if n = 0 then [] else (List.range ((base + n - 1) / 4096 - base / 4096 + 1)).map fun k => base / 4096 + k

/-- A page is a present mapping of class 0, readable and, where asked, writable (R354). -/
def pageServes (s : State) (part : Nat) (write : Bool) (page : Nat) : Bool :=
  decide (page < 2 ^ 44) &&
    match leafOf s part (page * 4096) with
    | .ok (e, _) => pteCls e == 0 && pteR e && (!write || pteW e)
    | .error _ => false

/-- The pages of the projection, and those of the directory and the pool. -/
def projPages (d : List Word) : List Nat := pagesOf (kxPbase d) (kxH d * kxL d * kxB d * kxRb d)
def homePages (d : List Word) : List Nat :=
  pagesOf (kxDbase d) (kxH d * kxL d * 2 ^ kxB d * 16) ++ pagesOf (kxSbase d) (64 * kxNseg d)

/-- The status of kxdef (R354). -/
def kxStatus (s : State) (kx : Nat) (d : List Word) : Nat :=
  let h := s.cur
  if !descFits d then 1
  else if kxPbase d % 8 ≠ 0 ∨ kxDbase d % 64 ≠ 0 ∨ kxSbase d % 64 ≠ 0 then 2
  else
    match s.tensorOf h (kxTid d) with
    | none => 3
    | some t =>
      if !keyLayout d t then 3
      else if 0 < (s.kx h.part kx).resv then 4
      else if (projPages d).all (pageServes s h.part false) && (homePages d).all (pageServes s h.part true) then 0
      else 5

/-- The resident projection units of an index are invalid (R351). -/
def State.dropUnits (s : State) (part kx : Nat) : State :=
  { s with cores := s.cores.map fun (x : Nat × Core) =>
      (x.1, { x.2 with proj := x.2.proj.filter fun u => !(u.part == part && u.kx == kx) }) }

/-- Moves of pages that are now pinned are given up: a pinned page does not migrate (R354, R412; DESIGN CHOICE, log 91). -/
def State.stopMoves (s : State) (part : Nat) (vpns : List Nat) : State :=
  { s with migr := s.migr.filter fun m =>
      !(m.part == part && vpns.any fun v => decide (m.vpn ≤ v) && decide (v < m.vpn + m.pages)) }

/-- kxdef (R354): the definition is held with the version, and its pages are pinned. -/
def execKxdef (d a : GReg) (kx : BitVec 8) : State → Host.Outcome State Fault Refusal :=
  runHart do
    drainAll
    let h ← hart
    match ← readBytes .load (← get).lookNow (h.rd a) 64 with
    | .error (ea, f) => accessFault ea f
    | .ok bs =>
      let desc := (List.range 8).map fun k => leWord ((bs.drop (8 * k)).take 8)
      let s ← get
      let st := kxStatus s kx.toNat desc
      match st, s.tensorOf s.cur (kxTid desc) with
      | 0, some t =>
        let pins := projPages desc ++ homePages desc
        modify fun s => (s.dropUnits s.cur.part kx.toNat).stopMoves s.cur.part pins
        modHart fun h => { h with intents := h.intents ++ [.def_ kx.toNat desc t pins] }
      | _, _ => pure ()
      result d (wordN st)

/-! kxprj (R355). -/

/-- Loads the units of the tables of a head, ascending. -/
def loadTables (kx h : Nat) (d : List Word) : Nat → M Unit
  | 0 => pure ()
  | n + 1 => do
    let _ ← projUnit kx h (kxL d - (n + 1)) d
    loadTables kx h d n

/-- Loads the units of a list of heads. -/
def loadHeads (kx : Nat) (d : List Word) : List Nat → M Unit
  | [] => pure ()
  | h :: t => do
    loadTables kx h d (kxL d)
    loadHeads kx d t

/-- The units of a list of heads that are resident. -/
def countUnits (c : Core) (part kx : Nat) (d : List Word) (heads : List Nat) : Nat :=
  (c.proj.filter fun u => heads.any fun h => (List.range (kxL d)).any fun l => u.isFor part kx h l d).length

/-- kxprj (R355, R353). -/
def execKxprj (d b c : GReg) (kx : BitVec 8) : State → Host.Outcome State Fault Refusal :=
  runHart do
    drainQueue
    let s ← get
    let h := s.cur
    match s.kxSeen h kx.toNat with
    | none => result d 1
    | some x =>
      let lo := (h.rd b).toNat
      let heads := (List.range (kxH x.desc)).filter fun k => decide (lo ≤ k) && decide (k < lo + (h.rd c).toNat)
      loadHeads kx.toNat x.desc heads
      let s ← get
      result d (wordN (countUnits (s.core h.core) h.part kx.toNat x.desc heads))

/-! kxst and kxclr (R358, R359). -/

/-- A field of an index as the hart sees it (R358). -/
def kxField (x : KxSeen) (k : KeyIndex) : Nat → Word
  | 0 => x.desc.getD 0 0
  | 1 => wordN x.alloc
  | 2 => wordN k.resv
  | 3 => wordN (bitN k.nan + 2 * bitN k.sat + 4)
  | 4 => wordN (kxDbase x.desc)
  | 5 => wordN (kxSbase x.desc)
  | 6 => wordN (kxPbase x.desc)
  | _ => x.desc.getD 4 0

/-- kxst (R358, R353). -/
def execKxst (d : GReg) (kx : BitVec 8) (sel : BitVec 3) : State → Host.Outcome State Fault Refusal :=
  runHart do
    let s ← get
    match s.kxSeen s.cur kx.toNat with
    | none => result d 0
    | some x => result d (kxField x (s.kx s.cur.part kx.toNat) sel.toNat)

/-- kxst with clr = 1 (R358): the flags are cleared after the read. -/
def execKxstClr (d : GReg) (kx : BitVec 8) (sel : BitVec 3) : State → Host.Outcome State Fault Refusal :=
  runHart do
    let s ← get
    match s.kxSeen s.cur kx.toNat with
    | none => result d 0
    | some x =>
      set (s.onKx s.cur.part kx.toNat fun k => { k with nan := false, sat := false })
      result d (kxField x (s.kx s.cur.part kx.toNat) sel.toNat)

/-- Room for the clear intent of the instruction at which the hart stands, which writes no address of its own: its overflow
names a free one (R257, R343; DESIGN CHOICE, log 87). -/
def roomForClear (kx : Nat) : M Unit := do
  let s ← get
  let h := s.cur
  if h.intentOver (.clr kx) then set { s with free := s.free + 1 }
  roomForIntent { opc := h.ctx.pc, iter := h.ctx.iter, elem := 0, at_ := h.retired } (Config.freeWord s.free) (.clr kx)

/-- kxclr (R359, R353): a clear intent, in program order with the intents of earlier instructions. -/
def execKxclr (d : GReg) (kx : BitVec 8) : State → Host.Outcome State Fault Refusal :=
  runHart do
    drainQueue
    let s ← get
    match s.kxSeen s.cur kx.toNat with
    | none => result d 1
    | some _ =>
      roomForClear kx.toNat
      modHart fun h => { h with intents := h.intents ++ [.clr kx.toNat] }
      result d 0

end Sys2Proof.Machine
end

