-- ==== Sys2Proof/Machine/Phases.lean ====
section
/-!
DEFINITION. Phases (R249 to R264): the commit that ph, bar.ph, exit, tret and the commit service share, ph (R261),
ph.a (R262), fx (R263), sdrain (R243) and fence (R264).
-/

namespace Sys2Proof.Machine

/-- Waits until every earlier vector and matrix instruction has completed and every store has been performed, and in an
ordered launch until the task is the oldest (R261). A commit of such a task that a transfer of its phase has still to read for
waits for it, since the transfer's writes belong to that commit (R274, R303; DEDUCED, log 20). -/
def drainForCommit : M Unit := do
  drainAll
  let s ← get
  if s.cur.copyUnread then leave
  if s.cur.ordered ∧ !s.oldest then standStill .turn

/-- Strip positions and tiles voided by a commit of an ordered task (R261). -/
def Hart.voidTask (h : Hart) : Hart :=
  { h with ctx := { h.ctx with v := [], m := [], sc := [] },
           tiles := h.tiles.map fun t => { t with p := [], a := [], ovf := false, void := true, place := .here } }

/-- Commits the version and answers the commit number; in an ordered launch the next task has a timestamp (R261, R271). -/
def State.commitTask (s : State) (nts : Word) : State :=
  let s := s.performCommit
  if s.cur.ordered then { s.mendHart s.cur.hid [1, 2, 3, 4, 5] with cur := { s.cur with pts := nts }.voidTask } else s

/-- Begins the phase that follows an instruction: snapshot with its log entry, and the frame at the next instruction,
which records gd as it was (R258, R261). -/
def State.beginAfter (s : State) : State :=
  let s := (s.logSnapshot s.cur).snapshot
  let h := s.cur
  { s with cur :=
      if h.trap.hdl ∧ h.trap.term then h else { h with frame := h.advance.ctx.frame h.pts h.trap.hdl false } }

/-- ph's end: the snapshot that it awaits, the frame, then gd (R261). Lines that the commit retains may cost others their
snapshot (R257). -/
def finishPhase (d : GReg) (k : Nat) : M Unit := do
  snapGate 0 false
  modify State.beginAfter
  modHart fun h => { h with half := none }
  result d (BitVec.ofNat 64 k)
  modify State.settle

/-- ph's commit and phase begin; gd receives the commit number after the frame is recorded (R261). In replay a commit
whose snapshot has to wait for others is done once and its snapshot awaited (R461). -/
def phaseStep (d : GReg) (nts : Word) : M Unit := do
  match (← hart).half with
  | some k => finishPhase d k
  | none =>
    drainForCommit
    commitGate
    snapGate 1 true
    modify fun s => s.commitTask nts
    let k := (← get).commits
    modHart fun h => { h with half := some k, wait := none }
    finishPhase d k

/-- The ordered-mode trap (R141, R261): cause 25 with the word. -/
def orderedTrap {α : Type} (i : Instr) : M α := do
  let h ← hart
  trapHere 25 (h.wordOf i)

/-- The ordered-mode trap of ph, or the timestamp of the next task (R261, R390). -/
def nextStamp (i : Instr) (stamp : Option Word) : M Word := do
  let h ← hart
  if !h.ordered then
    if stamp.isSome then orderedTrap i else return 0
  else if h.half.isSome then return h.pts
  else if h.trap.hdl ∧ h.trap.term then orderedTrap i
  else
    match stamp with
    | some x => if x.toNat ≤ h.pts.toNat then orderedTrap i else return x
    | none => if h.pts = BitVec.allOnes 64 then orderedTrap i else return h.pts + 1

/-- ph (R261). -/
def execPh (d : GReg) : State → Host.Outcome State Fault Refusal :=
  runHart do
    let nts ← nextStamp (.ph d) none
    phaseStep d nts

/-- ph with a timestamp (R261). -/
def execPhTimestamp (d a : GReg) : State → Host.Outcome State Fault Refusal :=
  runHart do
    let nts ← nextStamp (.phTimestamp d a) (some ((← hart).rd a))
    phaseStep d nts

/-- A snapshot as ph.a takes it, logged (R262, R459). -/
def refresh : M Unit := do
  snapGate 0 false
  modify fun s => (s.logSnapshot s.cur).snapshot

/-- ph.a (R262): earlier reads on path H have returned. -/
def execPhA (d : GReg) : State → Host.Outcome State Fault Refusal :=
  runHart do
    drainQueue
    refresh
    result d (BitVec.ofNat 64 (← hart).cmn)

/-- Every transfer of the hart has completed (R299). -/
def Hart.copiesDone (h : Hart) : Bool := h.chans.all fun c => c.flight.isEmpty

/-- fx (R263): earlier accesses on the path it comes from are performed; toward path H it takes a snapshot. -/
def execFx (dst frm : Path) : State → Host.Outcome State Fault Refusal :=
  runHart do
    match frm with
    | .c => if !(← hart).copiesDone then leave
    | .x => pure ()
    | _ => drainQueue
    if dst = .h then
      drainQueue
      refresh
    modHart Hart.retire

/-- sdrain (R243). -/
def execSdrain : State → Host.Outcome State Fault Refusal :=
  runHart do
    drainAll
    modHart Hart.retire

/-- fence (R264): accesses on paths H, A and T. -/
def execFence : State → Host.Outcome State Fault Refusal :=
  runHart do
    drainAll
    modHart Hart.retire

end Sys2Proof.Machine
end

