-- ==== Sys2Proof/Machine/Copy.lean ====
section
/-!
DEFINITION. Copy channels, tensor ids and rings, major 0x58: what a transfer moves (R297), its setup (R298), its accesses
(R299, R300), its end (R295, R302), and cpw, cpgo, cwait, cpst (R304 to R307), tdef, tdrop, tget (R309 to R312), rinit,
rget, rrel (R315 to R318).
-/

namespace Sys2Proof.Machine

/-! Transfer ids (R296). -/

/-- The modulus of transfer ids. -/
def idMod : Nat := 2 ^ 48

/-- How far an id lies behind another, modulo 2^48. -/
def idGap (next g : Nat) : Nat := (next + 2 * idMod - 1 - g % idMod) % idMod

/-- An id is before a mark: issued against next, done against done (R296). -/
def idBefore (mark g : Nat) : Bool := decide (idGap mark g < 2 ^ 47)

/-! Fields of cflg (R295). -/

def flgField (flg : Word) (lo n : Nat) : Nat := flg.toNat / 2 ^ lo % 2 ^ n
def flgMode (flg : Word) : Nat := flgField flg 5 2
def flgToRing (flg : Word) : Bool := flg.getLsbD 4
def flgPeer (flg : Word) : Bool := flg.getLsbD 3
def flgFromPeer (flg : Word) : Bool := flg.getLsbD 2
def flgRing (flg : Word) : Nat := flgField flg 16 4
def flgPkg (flg : Word) : Nat := flgField flg 20 14
def flgTid (flg : Word) : Nat := flgField flg 48 8

/-! What a transfer moves (R297). -/

/-- One byte that a transfer moves: from, to, and the bits moved. -/
structure Move where
  src : Word
  dst : Word
  mask : Byte
  deriving DecidableEq, Repr

/-- The dense bytes of an outer index of a tensor (R297). -/
def Tensor.rowBytes (t : Tensor) : Nat := (t.extent 0 * fmtWidth t.fmt + 7) / 8

/-- The address of byte k of an outer index of a tensor. -/
def Tensor.byteAt (t : Tensor) (o k : Nat) : Word :=
  let n := fmtWidth t.fmt / 8
  if n = 0 then (t.elemAt 0 o).1 + BitVec.ofNat 64 k else (t.elemAt (k / n) o).1 + BitVec.ofNat 64 (k % n)

/-- The bits of byte k of an outer index that belong to elements (R297). -/
def Tensor.byteMask (t : Tensor) (k : Nat) : Byte :=
  BitVec.ofNat 8 (2 ^ min 8 (t.extent 0 * fmtWidth t.fmt - 8 * k) - 1)

/-- First and number of the outer indices that a tensor mode moves (R297). -/
def tensorSpan (t : Tensor) (len : Word) : Nat × Nat :=
  let o := len.toNat / 2 ^ 32
  let n := len.toNat % 2 ^ 32
  (o, if n = 0 then t.outer - o else n)

/-- The bytes of the dense side of a transfer. -/
def denseLen (flg len : Word) (tensor : Option Tensor) : Nat :=
  match tensor with
  | some t => if flgMode flg = 0 then len.toNat else (tensorSpan t len).2 * t.rowBytes
  | none => len.toNat

/-- The moves of a transfer whose dense side or linear destination lies at an address (R297). -/
def copyMoves (flg src dst len : Word) (tensor : Option Tensor) : List Move :=
  let at_ := fun (a : Word) (k : Nat) => a + BitVec.ofNat 64 k
  match tensor, flgMode flg with
  | some t, 1 =>
    let x := tensorSpan t len
    (List.range x.2).flatMap fun r => (List.range t.rowBytes).map fun k =>
      { src := t.byteAt (x.1 + r) k, dst := at_ dst (r * t.rowBytes + k), mask := t.byteMask k }
  | some t, 2 =>
    let x := tensorSpan t len
    (List.range x.2).flatMap fun r => (List.range t.rowBytes).map fun k =>
      { src := at_ src (r * t.rowBytes + k), dst := t.byteAt (x.1 + r) k, mask := t.byteMask k }
  | _, _ => (List.range len.toNat).map fun k => { src := at_ src k, dst := at_ dst k, mask := 0xFF }

/-- The ring of a group under a number. -/
def State.ownRing (s : State) (h : Hart) (n : Nat) : Option Ring :=
  match AMap.find? (s.core h.core).rings n with
  | some r => if r.lid = h.lid ∧ r.grp = h.grp then some r else none
  | none => none

/-- Changes a ring of a core. -/
def State.onRing (s : State) (core n : Nat) (f : Ring → Ring) : State :=
  s.onCore core fun c =>
    match AMap.find? c.rings n with
    | some r => { c with rings := AMap.put c.rings n (f r) }
    | none => c

/-- The effective address of a stage offset (R313). -/
def stageEa (off : Nat) : Word := BitVec.ofNat 64 (stageBase + off)

/-- An address range that meets the stage window lies wholly inside one ring of the group (R298). -/
def rangeInRing (s : State) (h : Hart) (ea : Word) (n : Nat) : Bool :=
  let meets := (List.range n).any fun k => (stageOff (ea + BitVec.ofNat 64 k)).isSome
  if !meets then true
  else
    match stageOff ea with
    | none => false
    | some off =>
      (match ringAt (s.core h.core) h.lid h.grp off with
       | some (_, r) => decide (off + n ≤ r.off + r.size * r.count)
       | none => false)

/-- Every element of the tensor side of a transfer lies outside the window or inside a ring of the group (R298). -/
def tensorInRing (s : State) (h : Hart) (t : Tensor) (len : Word) : Bool :=
  let x := tensorSpan t len
  let n := max 1 (fmtWidth t.fmt / 8)
  (List.range x.2).all fun r => (List.range (t.rowBytes / n)).all fun k =>
    rangeInRing s h (t.byteAt (x.1 + r) (k * n)) n

/-- The settings break a rule of R298: the transfer error-completes with kind 1. -/
def setupBad (s : State) (h : Hart) (src dst len flg : Word) (tensor : Option Tensor) : Bool :=
  let mode := flgMode flg
  let ring := flgToRing flg
  let peer := flgPeer flg
  let n := denseLen flg len tensor
  mode == 3 || (mode != 0 && tensor.isNone) || (mode == 2 && (ring || peer)) || (mode == 1 && peer)
    || (ring && peer && !flgFromPeer flg)
    || (mode == 0 && decide (2 ^ 40 ≤ len.toNat))
    || (mode != 0 && (match tensor with
        | some t => decide (t.outer < len.toNat / 2 ^ 32 + len.toNat % 2 ^ 32)
        | none => false))
    || (ring && (match s.ownRing h (flgRing flg) with
        | some r => n == 0 || decide (r.size < n)
        | none => true))
    || (mode != 1 && !(peer && flgFromPeer flg) && !rangeInRing s h src n)
    || (!ring && mode != 2 && !(peer && !flgFromPeer flg) && !rangeInRing s h dst n)
    || (mode != 0 && (match tensor with | some t => !tensorInRing s h t len | none => false))

/-! Accesses (R299, R300). -/

/-- Why an access of a copy is not made: an error kind, or none where it waits for its page (R300). -/
abbrev CopyStop := Option Nat

/-- The resolution of a copy's access at an effective address outside the stage window (R300). -/
def copyPhys (s : State) (part : Nat) (sealed : Option Nat) (k : Access) (ea : Word) : Except CopyStop Nat :=
  match resolveEa s none part sealed k ea with
  | .error .perm => .error (some 2)
  | .error (.uncorrectable _) => .error (some 3)
  | .error _ => .error none
  | .ok p =>
    if p.cls = 1 ∨ p.cls = 2 then .error (some 2)
    else if isHostMem p.pa ∧ s.hostUp = false then .error (some 4)
    else .ok p.pa

/-- Where a byte of a copy comes from or goes to: `away` at an address of another package. -/
inductive Spot where
  | stage (off : Nat)
  | mem (pa : Nat)
  | away (va : Nat)
  deriving DecidableEq, Repr

/-- The byte that a copy reads: committed memory at the home (R299). -/
def copyRead (s : State) (core part : Nat) (sealed : Option Nat) (ea : Word) : Except CopyStop (Byte × Spot) :=
  match stageOff ea with
  | some off => .ok (Sparse.get (s.core core).stage off, .stage off)
  | none =>
    match copyPhys s part sealed .load ea with
    | .error e => .error e
    | .ok pa => if s.badPa pa then .error (some 3) else .ok (s.byte pa, .mem pa)

/-- Where a copy writes. -/
def copySpot (s : State) (part : Nat) (sealed : Option Nat) (ea : Word) : Except CopyStop Spot :=
  match stageOff ea with
  | some off => .ok (.stage off)
  | none =>
    match copyPhys s part sealed .store ea with
    | .error e => .error e
    | .ok pa => .ok (.mem pa)

/-- A byte of a copy that is ready: where it was read, where it goes, its value and the bits moved. -/
structure Ready where
  from_ : Spot
  goal : Spot
  val : Byte
  mask : Byte
  deriving DecidableEq, Repr

/-- A transfer as its accesses need it. -/
structure CopyJob where
  core : Nat
  part : Nat
  sealed : Option Nat
  peer : Bool
  fromPeer : Bool
  moves : List Move
  deriving DecidableEq, Repr

/-- Every byte of a transfer read and resolved, or the first access that is not made (R299, R300). The bytes that another
package answers are free values (log 22). -/
def copyReady (s : State) (j : CopyJob) : Nat → List Move → Except CopyStop (List Ready)
  | _, [] => .ok []
  | i, m :: t =>
    let src : Except CopyStop (Byte × Spot) :=
      if j.peer ∧ j.fromPeer then .ok ((Config.freeWord (s.free + i)).extractLsb' 0 8, .away m.src.toNat)
      else copyRead s j.core j.part j.sealed m.src
    let dst : Except CopyStop Spot :=
      if j.peer ∧ !j.fromPeer then .ok (.away m.dst.toNat) else copySpot s j.part j.sealed m.dst
    match src, dst with
    | .error e, _ => .error e
    | _, .error e => .error e
    | .ok (b, f), .ok d =>
      match copyReady s j (i + 1) t with
      | .error e => .error e
      | .ok l => .ok ({ from_ := f, goal := d, val := b, mask := m.mask } :: l)

/-- The stage bytes of a transfer's writes. -/
def stageWrites (c : Core) : List Ready → Core
  | [] => c
  | r :: t =>
    match r.goal with
    | .stage off =>
      stageWrites { c with stage := Sparse.set c.stage off ((Sparse.get c.stage off &&& ~~~r.mask) ||| (r.val &&& r.mask)) } t
    | _ => stageWrites c t

/-- The memory writes of a transfer: address, byte and bits. -/
def memWrites (l : List Ready) : List (Nat × Byte × Byte) :=
  l.filterMap fun r => match r.goal with | .mem pa => some (pa, r.val, r.mask) | _ => none

/-- A byte sent to another package, in runs of rising addresses. -/
def addRun (va : Nat) (b : Byte) : List (Nat × List Byte) → List (Nat × List Byte)
  | (a, bs) :: t => if a = va + 1 then (va, b :: bs) :: t else (va, [b]) :: (a, bs) :: t
  | [] => [(va, [b])]

/-- What a transfer writes at another package: each run of bytes with its first address. -/
def peerWrites (l : List Ready) : List (Nat × List Byte) :=
  l.foldr (fun r t => match r.goal with | .away va => addRun va r.val t | _ => t) []

/-- What a transfer asks another package for, in runs likewise. -/
def peerReads (l : List Ready) : List (Nat × List Byte) :=
  l.foldr (fun r t => match r.from_ with | .away va => addRun va r.val t | _ => t) []

/-- The requests of a transfer to another package, each with its source partition (R301, R451). -/
def peerOuts (pkg part : Nat) (l : List Ready) : List Out :=
  (peerReads l).map (fun (va, bs) => .peerRead pkg part va bs.length)
    ++ (peerWrites l).map fun (va, bs) => .peer pkg part va bs

/-- The lines that a transfer read (R303). -/
def readLinesOf (l : List Ready) : List Nat :=
  (l.filterMap fun r => match r.from_ with | .mem pa => some (pa / 64) | _ => none).eraseDups

/-- A transfer of a hart as a job: a ring copy goes to the start of its slot (R297). -/
def Transfer.job (s : State) (h : Hart) (t : Transfer) : CopyJob :=
  let dst := match t.ring, t.slot with
    | some n, some k =>
      (match s.ownRing h n with | some r => stageEa (r.off + k * r.size) | none => t.dst)
    | _, _ => t.dst
  { core := h.core, part := h.part, sealed := h.sealed, peer := flgPeer t.flg, fromPeer := flgFromPeer t.flg,
    moves := copyMoves t.flg t.src dst t.len t.tensor }

/-! The end of a transfer. -/

/-- done advances past every contiguous id that has completed (R296). -/
def advanceDone (ended : List (Nat × Nat)) (next : Nat) : Nat → Nat → Nat
  | 0, d => d
  | fuel + 1, d =>
    if d ≠ next ∧ ended.any (fun x => x.1 == d) then advanceDone ended next fuel ((d + 1) % idMod) else d

/-- A channel after the end of a transfer: done, and for an error cerr and cerrlo (R295, R296). -/
def Channel.endId (c : Channel) (id kind : Nat) : Channel :=
  let ended := (id, kind) :: c.ended
  let c := { c with
    flight := c.flight.filter fun t => t.id != id, ended := ended,
    done := advanceDone ended c.next ended.length c.done }
  if kind = 0 then c
  else { c with
    errVal := true, errKind := if c.errVal then c.errKind else kind, errId := if c.errVal then c.errId else id,
    errCnt := min (c.errCnt + 1) 0xFF,
    loId := if c.loVal && !(idBefore c.loId id) then c.loId else id, loVal := true }

/-- The slot of an ended ring copy is written, or the transfer that waited for one waits no more (R315). -/
def Ring.endCopy (hid ch : Nat) (t : Transfer) (r : Ring) : Ring :=
  match t.slot with
  | some k => { r with wrote := k :: r.wrote }
  | none => { r with waiters := r.waiters.filter fun w => w != (hid, ch, t.id) }

/-- Ends a transfer of a hart: its channel, its ring, the events a debugger is told (R404), and the retirement of the
group that waited for it (R302). -/
def State.endTransfer (s : State) (h : Hart) (ch : Nat) (t : Transfer) (kind : Nat) : State :=
  let s := s.onHart h.hid fun x =>
    { x.onChan ch fun c => c.endId t.id kind with evts := x.evts ++ [(kind, ch, t.id)] }
  let s := match t.ring with
    | some n => s.onRing h.core n (Ring.endCopy h.hid ch t)
    | none => s
  s.reapGroup h.lid h.grp

/-- Replaces the place that a transfer kept among the deferred effects (R274). -/
def fillPlace (ch id : Nat) (ds : List Deferred) : List (Nat × Deferred) → List (Nat × Deferred)
  | [] => []
  | (n, .copy c i) :: t =>
    if c = ch ∧ i = id then ds.map (fun d => (n, d)) ++ t else (n, .copy c i) :: fillPlace ch id ds t
  | d :: t => d :: fillPlace ch id ds t

/-- A transfer keeps its place among the deferred effects. -/
def Hart.hasPlace (h : Hart) (ch id : Nat) : Bool := h.defer.any fun x => x.2 == .copy ch id

/-- The bytes of a transfer performed: stage memory and, in a free launch, memory and peers at once; in an ordered launch
those take their place in the version, or are dropped where it is gone, and what was read enters the read set (R258, R273,
R299, R303). -/
def State.performCopy (s : State) (h : Hart) (ch : Nat) (t : Transfer) (l : List Ready) : State :=
  let s := if l.any (fun r => match r.goal with | .stage _ => true | _ => false)
    then s.onCore h.core fun c => stageWrites c l else s
  let s := if flgPeer t.flg && flgFromPeer t.flg then
      { s with free := s.free + l.length, out := s.out ++ peerOuts (flgPkg t.flg) h.part l }
    else s
  if h.ordered then
    let ds := (if (memWrites l).isEmpty then [] else [Deferred.cells (memWrites l)])
      ++ (peerWrites l).map fun (va, bs) => Deferred.peer (flgPkg t.flg) va bs
    if t.ring.isSome || h.hasPlace ch t.id then
      s.onHart h.hid fun x =>
        { x.noteReads s.commits (readLinesOf l) with defer := fillPlace ch t.id ds x.defer }
    else s
  else
    let s := s.writeHome none (s.maskCells (memWrites l))
    if flgPeer t.flg && !flgFromPeer t.flg then { s with out := s.out ++ peerOuts (flgPkg t.flg) h.part l } else s

/-- The number of the destination sector of a byte, no two alike: in memory, in stage memory, at another package. -/
def Ready.sector (r : Ready) : Nat :=
  match r.goal with
  | .mem pa => pa / 32
  | .stage off => 2 ^ 47 + off / 32
  | .away va => 2 ^ 48 + va / 32

/-- How many numbers the sectors of a copy may take. -/
def sectorSpan : Nat := 2 ^ 52

/-- Of the bytes of an error-completed copy, those whose sector holds the copy's (R300, log 15). -/
def tornBytes (free : Nat) (l : List Ready) : List Ready := l.filter fun r => Config.torn (free + r.sector)

/-- Every move of a transfer into the destination sector of a move is made. -/
def sectorReady (s : State) (j : CopyJob) (m : Move) : Bool :=
  j.moves.all fun x => x.dst.toNat / 32 != m.dst.toNat / 32 || (copyReady s j 0 [x]).toBool

/-- The bytes of the sectors that resolve, of a transfer that fails: any such sector may have been moved (R300). -/
def movable (s : State) (j : CopyJob) : Nat → List Move → List Ready
  | _, [] => []
  | i, m :: t =>
    match copyReady s j i [m] with
    | .ok l => if sectorReady s j m then l ++ movable s j (i + 1) t else movable s j (i + 1) t
    | .error _ => movable s j (i + 1) t

/-- A transfer fails with a kind: each destination sector holds its old value or the copy's (R300). -/
def State.failTransfer (s : State) (h : Hart) (ch : Nat) (t : Transfer) (kind : Nat) : State :=
  let l := tornBytes (s.free + 2 ^ 47) (movable s (t.job s h) 0 (t.job s h).moves)
  let s := { s with free := s.free + 2 ^ 47 + sectorSpan }
  let s := if t.ring.isSome && t.slot.isNone then s else s.performCopy h ch t l
  s.endTransfer h ch t kind

/-- The bytes that a budget lets a copy move: a unit of 1 KiB that has begun completes (R21, R23). -/
def moved (n : Int) (todo : Nat) : Nat := if n ≤ 0 then 0 else min todo ((n.toNat + 1023) / 1024 * 1024)

/-! The instructions. -/

/-- cpw (R304). -/
def execCpw (flg src dst len : GReg) (ch : BitVec 2) : State → Host.Outcome State Fault Refusal :=
  scalar fun h => h.onChan ch.toNat fun c =>
    { c with src := h.rd src, dst := h.rd dst, len := h.rd len, flg := h.rd flg &&& cflgMask }

/-- The transfers in flight on a core's engine (R294). -/
def State.engineLoad (s : State) (core : Nat) : Nat :=
  ((s.harts.filter fun h => h.core == core).map fun h => (h.chans.map fun c => c.flight.length).sum).sum

/-- Claims the next slot of a ring, or waits in line for one (R315). -/
def Ring.claim (r : Ring) (w : Nat × Nat × Nat) : Ring × Option Nat :=
  if r.claimed + r.filled + r.taken < r.count ∧ r.waiters = [] then
    ({ r with claimed := r.claimed + 1, claimPos := (r.claimPos + 1) % r.count }, some r.claimPos)
  else ({ r with waiters := r.waiters ++ [w] }, none)

/-- Outcomes that a channel still has to know: not passed by done, or among the last 64 (R307). -/
def Channel.trim (c : Channel) : Channel :=
  { c with ended := c.ended.filter fun x => decide (idGap c.next x.1 < 64) || !idBefore c.done x.1 }

/-- Starts a transfer: id, capture and slot at one instant (R297, R305). -/
def State.startCopy (s : State) (ch : Nat) : State × Nat :=
  let h := s.cur
  let c := h.chan ch
  let id := c.next
  let tensor := if flgMode c.flg = 0 then none else s.tensorOf h (flgTid c.flg)
  let bad := setupBad s h c.src c.dst c.len c.flg tensor
  let ring := if flgToRing c.flg then some (flgRing c.flg) else none
  let t : Transfer :=
    { id := id, src := c.src, dst := c.dst, len := c.len, flg := c.flg, tensor := tensor,
      ring := if bad then none else ring, slot := none, todo := denseLen c.flg c.len tensor }
  let x : State × Option Nat := match t.ring with
    | some n =>
      (match AMap.find? (s.core h.core).rings n with
       | some r =>
         let y := r.claim (h.hid, ch, id)
         (s.onRing h.core n fun _ => y.1, y.2)
       | none => (s, none))
    | none => (s, none)
  let t := { t with slot := x.2 }
  let s := x.1
  let s := { s with cur := h.onChan ch fun c =>
    { c with next := (id + 1) % idMod, flight := c.flight ++ [t] }.trim }
  if bad then (s.endTransfer s.cur ch t 1, id)
  else
    let s := if h.ordered && t.ring.isNone
      then { s with cur := s.cur.deferNow (.copy ch id) } else s
    if t.ring.isNone && denseLen c.flg c.len tensor == 0 then
      ((s.performCopy s.cur ch t []).endTransfer s.cur ch t 0, id)
    else (s, id)

/-- cpgo (R305). -/
def execCpgo (d : GReg) (ch : BitVec 2) : State → Host.Outcome State Fault Refusal :=
  runHart do
    let s ← get
    let h := s.cur
    if 16 ≤ (h.chan ch.toNat).flight.length ∨ 64 ≤ s.engineLoad h.core then leave
    let x := s.startCopy ch.toNat
    set x.1
    result d (wordN x.2)

/-- cwait's answer for an id (R306). -/
def Channel.waitWord (c : Channel) (g : Nat) : Word :=
  if c.loVal && (c.loId == g || idBefore g c.loId) then 1 else 0

/-- cwait (R306, R459). -/
def execCwait (d a : GReg) (ch : BitVec 2) : State → Host.Outcome State Fault Refusal :=
  runHart do
    let h ← hart
    let c := h.chan ch.toNat
    let g := (h.rd a).toNat % idMod
    if !idBefore c.next g then result d (← recorded 3 2)
    else if idBefore c.done g then result d (← recorded 3 (c.waitWord g))
    else standStill .cwait

/-- cpst's word (R307): an id issued within the last 64 and not in flight is complete (R296). -/
def Channel.stateWord (c : Channel) (g : Nat) : Word :=
  if 64 ≤ idGap c.next g then 3
  else
    match c.ended.find? fun x => x.1 == g with
    | some (_, 0) => 1
    | some (_, kind) => wordN (2 + 16 * kind)
    | none => if c.flight.any fun t => t.id == g then 0 else 1

/-- cpst (R307, R459). -/
def execCpst (d a : GReg) (ch : BitVec 2) : State → Host.Outcome State Fault Refusal :=
  runHart do
    let h ← hart
    let x ← recorded 3 ((h.chan ch.toNat).stateWord ((h.rd a).toNat % idMod))
    result d x

/-! Tensor ids. -/

/-- The layout that tdef reads (R309). A packed format takes st0 as w / 8 bytes. -/
def Hart.layoutOf (h : Hart) (v : VReg) (gb gc : Word) : Tensor :=
  let n := min h.ctx.vl 6
  { base := gb &&& 0x00FFFFFFFFFFFFFF, fmt := Fmt.ofCode (gb.extractLsb' 56 4), blk := gb.extractLsb' 60 2,
    sbase := gc &&& 0x00FFFFFFFFFFFFFF, dims := h.ctx.vl,
    ext := (List.range n).map fun k => (h.slotV v.toNat 0 k).toNat,
    st := (List.range n).map fun k => (h.slotV v.toNat 2 k ++ h.slotV v.toNat 1 k).toInt }

/-- The status of a layout (R309). -/
def layoutStatus (t : Tensor) (gb gc : Word) : Nat :=
  let w := fmtWidth t.fmt
  if t.dims = 0 ∨ 6 < t.dims then 1
  else if t.ext.any (· == 0) then 2
  else if t.fmt = .i64 ∨ t.fmt = .e8m0 ∨ t.blk = 3 ∨ (t.blk ≠ 0 ∧ !t.fmt.isBlock) ∨ gb.extractLsb' 62 2 ≠ 0
      ∨ gc.extractLsb' 56 8 ≠ 0 then 3
  else if 8 ≤ w then
    (if t.base.toNat % (w / 8) = 0 ∧ t.st.all (fun x => x % ((w / 8 : Nat) : Int) == 0) then 0 else 4)
  else if t.st.getD 0 0 = 0 then 0 else 4

/-- The parity trap of a failed slot among those that tdef reads, the first in row order (R309, R396). -/
def stripParity (v : VReg) : M Unit := do
  let s ← get
  let n := s.cur.ctx.vl
  match (List.range (3 * n)).find? fun k => s.spots.contains (.slot s.cur.hid 1 v.toNat (k / n) (k % n)) with
  | some k => trapHere 20 (parityTval 1 v.toNat k)
  | none => pure ()

/-- tdef (R308, R309): held with the version. -/
def execTdef (d : GReg) (a : VReg) (b c : GReg) (tid : BitVec 8) : State → Host.Outcome State Fault Refusal :=
  runHart do
    drainQueue
    stripParity a
    let h ← hart
    let t := h.layoutOf a (h.rd b) (h.rd c)
    let st := layoutStatus t (h.rd b) (h.rd c)
    if st = 0 then modHart fun h => { h with defs := h.defs ++ [{ tid := tid.toNat, layout := some t }] }
    result d (wordN st)

/-- tdrop (R308, R310). -/
def execTdrop (tid : BitVec 8) : State → Host.Outcome State Fault Refusal :=
  scalar fun h => { h with defs := h.defs ++ [{ tid := tid.toNat, layout := none }] }

/-- A field of a layout (R312). -/
def Tensor.field (t : Tensor) (k : Nat) : Word :=
  match k with
  | 0 => t.base + wordN (t.fmt.code.toNat * 2 ^ 56 + t.blk.toNat * 2 ^ 60)
  | 1 => t.sbase
  | 2 => wordN t.dims
  | _ =>
    if 8 ≤ k ∧ k < 14 then wordN (t.extent (k - 8))
    else if 16 ≤ k ∧ k < 22 then BitVec.ofInt 64 (t.stride (k - 16))
    else 0

/-- tget (R312). -/
def execTget (d : GReg) (tid : BitVec 8) (k : BitVec 5) : State → Host.Outcome State Fault Refusal :=
  runHart do
    let s ← get
    result d (match s.tensorOf s.cur tid.toNat with | some t => t.field k.toNat | none => 0)

/-! Rings. -/

/-- A ring whose region overlaps a range, under another number (R314, R316). -/
def overlaps (c : Core) (n off len : Nat) : Bool :=
  List.any c.rings fun (x : Nat × Ring) =>
    x.1 != n && decide (off < x.2.off + x.2.size * x.2.count) && decide (x.2.off < off + len)

/-- The status of rinit (R316). -/
def rinitStatus (s : State) (h : Hart) (n off size count : Nat) : Nat :=
  let c := s.core h.core
  let mine := fun (r : Ring) => r.lid == h.lid && r.grp == h.grp
  match AMap.find? c.rings n with
  | some r =>
    if !mine r then 1
    else if count = 0 then (if r.claimed + r.filled + r.taken ≠ 0 ∨ r.waiters ≠ [] then 4 else 0)
    else if off % 64 ≠ 0 ∨ size % 64 ≠ 0 ∨ size < 64 ∨ 65536 < size ∨ 4096 < count ∨ stageSize < off + size * count then 2
    else if overlaps c n off (size * count) then 3
    else if r.claimed + r.filled + r.taken ≠ 0 ∨ r.waiters ≠ [] then 4
    else 0
  | none =>
    if count = 0 then 0
    else if off % 64 ≠ 0 ∨ size % 64 ≠ 0 ∨ size < 64 ∨ 65536 < size ∨ 4096 < count ∨ stageSize < off + size * count then 2
    else if overlaps c n off (size * count) then 3
    else 0

/-- A ring as rinit makes it (R316). -/
def Ring.fresh (lid grp off size count : Nat) : Ring :=
  { lid := lid, grp := grp, off := off, size := size, count := count, claimed := 0, filled := 0, taken := 0,
    claimPos := 0, readPos := 0, wrote := [], waiters := [] }

/-- rinit (R316). -/
def execRinit (d a b c : GReg) (n : BitVec 4) : State → Host.Outcome State Fault Refusal :=
  runHart do
    drainAll
    let s ← get
    let h := s.cur
    let off := (h.rd a).toNat
    let size := (h.rd b).toNat
    let count := (h.rd c).toNat
    let st := rinitStatus s h n.toNat off size count
    if st = 0 then
      set (s.onCore h.core fun x =>
        if count = 0 then { x with rings := AMap.erase x.rings n.toNat }
        else
          { x with
            rings := AMap.put x.rings n.toNat (Ring.fresh h.lid h.grp off size count),
            stage := AMap.keep (fun k => decide (k < off) || decide (off + size * count ≤ k)) x.stage })
    result d (wordN st)

/-- Takes the oldest filled slot (R317). -/
def takeSlot (d : GReg) (n : Nat) (r : Ring) : M Unit := do
  modify fun s => s.onRing s.cur.core n fun r =>
    { r with filled := r.filled - 1, taken := r.taken + 1, readPos := (r.readPos + 1) % r.count }
  result d (stageEa (r.off + r.readPos * r.size))

/-- rget (R317): an architected wait. -/
def execRget (d : GReg) (n : BitVec 4) : State → Host.Outcome State Fault Refusal :=
  runHart do
    let s ← get
    match s.ownRing s.cur n.toNat with
    | none => result d 0
    | some r => if r.filled = 0 then standStill .rget else takeSlot d n.toNat r

/-- rget.nw (R317). -/
def execRgetNw (d : GReg) (n : BitVec 4) : State → Host.Outcome State Fault Refusal :=
  runHart do
    let s ← get
    match s.ownRing s.cur n.toNat with
    | none => result d 0
    | some r => if r.filled = 0 then result d 0 else takeSlot d n.toNat r

/-- The transfers that wait for a slot claim those that are free, in the order of their cpgo (R315). -/
def State.claimWaiting (core n : Nat) : Nat → State → State
  | 0, s => s
  | fuel + 1, s =>
    match AMap.find? (s.core core).rings n with
    | none => s
    | some r =>
      match r.waiters with
      | [] => s
      | (hid, ch, id) :: t =>
        if r.claimed + r.filled + r.taken < r.count then
          let s := s.onRing core n fun r =>
            { r with claimed := r.claimed + 1, claimPos := (r.claimPos + 1) % r.count, waiters := t }
          let s := s.onHart hid fun x => x.onChan ch fun c =>
            { c with flight := c.flight.map fun t => if t.id = id then { t with slot := some r.claimPos } else t }
          State.claimWaiting core n fuel s
        else s

/-- rrel (R318). -/
def execRrel (n : BitVec 4) : State → Host.Outcome State Fault Refusal :=
  runHart do
    drainAll
    let s ← get
    match s.ownRing s.cur n.toNat with
    | none => modHart Hart.retire
    | some r =>
      if r.taken = 0 then modHart Hart.retire
      else
        modify fun s =>
          let s := s.onRing s.cur.core n.toNat fun r => { r with taken := r.taken - 1 }
          State.claimWaiting s.cur.core n.toNat (r.waiters.length) s
        modHart Hart.retire

end Sys2Proof.Machine
end

