-- ==== Sys2Proof/Machine/Frames.lean ====
section
/-!
DEFINITION. Saving and resuming harts (R397 to R399, R184): the pre-emption that scheduling firmware, eviction and ctxsv
share, and the resume that reinstates the saved grant. A frame's bytes are opaque; the hart keeps what the frame holds.
-/

namespace Sys2Proof.Machine

/-! Pages that a hart waits for (R238). -/

/-- Where the walk of a virtual address stops on an entry that is malformed or not present: the entry's address, its
level, and whether it is malformed (R222). -/
def walkStop (s : State) (va : Nat) : Nat → Nat → Option (Nat × Nat × Bool)
  | level, table =>
    let at_ := table + 8 * vaIndex va level
    let e := s.dword at_
    if s.badPa at_ then none
    else if pteBad s.part level e then some (at_, level, true)
    else if !pteV e || !pteP e then some (at_, level, false)
    else if pteLeaf e then none
    else
      match level with
      | 0 => none
      | l + 1 => walkStop s va l (ptePpn e * 4096)

/-- The fault of a virtual address of a partition, if it has one. -/
def State.faultAt (s : State) (p va : Nat) : Option (Nat × Nat × Bool) :=
  match AMap.find? s.parts p with
  | some x => walkStop s va 4 x.root
  | none => none

/-- No page of an access is missing: its first and its last byte (R238). -/
def State.present (s : State) (p : Nat) (w : PageWait) : Bool :=
  (s.faultAt p w.lo.toNat).isNone && (s.faultAt p ((w.lo + wordN (w.size - 1)).toNat % 2 ^ 56)).isNone

/-! Saving. -/

/-- Performs the retired stores before a save, the n oldest (R397): a terminating fault is recorded and owed at the resume; a
resumable one is serviced before the save ends, and the hart is swapped out on it (R244). Answers whether every store was
dealt with. -/
def saveStores : Nat → M Bool
  | 0 => pure true
  | n + 1 => do
    let s ← get
    match s.cur.sq with
    | [] => pure true
    | p :: t =>
      let owe := fun (s : State) (code : Nat) (tval : Word) =>
        { s with cur := { s.cur with
            sq := t, owed := if s.cur.owed.isSome then s.cur.owed else some (code, tval, p.opc, p.at_) } }
      match writeBytes .store p.storeId p.ea p.bytes s with
      | .ok (.ok ()) s' =>
        set { s' with cur := { s'.cur with sq := t } }
        saveStores n
      | .ok (.error (a, f)) s' =>
        set s'
        match f with
        | .perm =>
          recordTerminal p.storeId a f
          modify fun s => owe s 17 a
          saveStores n
        | .uncorrectable l =>
          recordTerminal p.storeId a f
          modify fun s => owe s 21 (BitVec.ofNat 64 l)
          saveStores n
        | .notPresent =>
          modify fun s => s.swapOut (p.pageWait a false)
          pure false
        | .ptError =>
          modify fun s => s.swapOut (p.pageWait a true)
          pure false
      | .error .left s' =>
        set s'
        pure s'.cur.sq.isEmpty
      | .error e _ => throw e

/-- The hart with its frame written and its lane groups freed (R174, R397). -/
def State.saveHart (s : State) : State :=
  let s := s.clearHold
  let h := s.cur
  ({ s with cur := { h.flipSince s.now with status := .saved, target := none, offered := false } }.freeLanes h).putFrame h
    false

/-- Pre-empts the hart on the front end. Answers whether its save has ended; a frame area that cannot be reached takes the
frame error (R397, R398). A hart between the words of one instance, one that waits for its residual code or one that stands
stopped is not saved. -/
def saveFront : M Bool := do
  let h ← hart
  if h.status ≠ .running ∨ h.midPair then return false
  if ← saveStores h.sq.length then
    let s ← get
    if s.cur.status = .running then
      if s.frameOk s.cur then set s.saveHart else set (s.takeTrap 30 s.cur.tfb s.cur.ctx.pc 0)
    return true
  else return false

/-- Does something with another hart on the front end and brings back the one that stood there. -/
def withHart {α : Type} (k : Nat) (m : M α) : M α := do
  let old ← get
  set (old.focus k)
  let x ← m
  modify fun s => s.frontAs old
  return x

/-! Resuming. -/

/-- The saved grant can be reinstated on the hart's core: the lane groups, or one for a hart that holds none, are there, the
offer computed since the save reaches the grant, and the pages of the access at which it stood are there (R173, R184, R238,
R399). -/
def State.canResume (s : State) (h : Hart) : Bool :=
  decide (max 1 ((h.ctx.vl + 63) / 64) ≤ s.avail h) && (h.ctx.vl == 0 || (h.offered && decide (h.ctx.vl ≤ h.offer)))
    && (match h.redo with | some w => s.present h.part w | none => true)

/-- Does what may leave the instruction stream, as a part of something else. -/
def within (m : M Unit) : M Unit := fun s =>
  match m s with
  | .error .left t => .ok () t
  | r => r

/-- The access at which the hart was swapped out is made before anything else, so that it does not fault again (R238). -/
def redoAccess : M Unit := do
  match (← hart).redo with
  | none => pure ()
  | some w =>
    modHart fun h => { h with redo := none }
    if w.slices then within serveHead else if w.store then within performStore

/-- Resumes the hart on the front end: its grant is reinstated, and a trap that it owes is taken at this first boundary
(R184, R397, R399). -/
def resumeFront : M Unit := do
  let h ← hart
  modify fun s =>
    let s := if h.ctx.vl = 0 then s else s.latResize h.core h.slot ((h.ctx.vl + 63) / 64)
    let s := { s with cur := { s.cur.flipSince s.now with status := .running, target := none, owed := none } }
    (s.dropFrame h false).reearmark h.core
  match h.owed with
  | some (code, tval, tfpc, at_) => modify fun s => s.takeTrap code tval tfpc (h.retired - at_)
  | none => redoAccess

/-- A hart whose frame is written: pre-empted, evicted or swapped out. -/
def Hart.isSaved (h : Hart) : Bool :=
  match h.status with
  | .saved | .swapped .. => true
  | _ => false

/-- The hart of a hart slot in the executing hart's partition, but for itself; an evicted hart holds no slot (R401). -/
def State.targetOf (s : State) (ga : Word) : Option Hart :=
  let n := ga.toNat % 1024
  s.rest.find? fun h =>
    h.hnum == n && h.part == s.cur.part && h.status != .exited && h.hid != s.cur.hid && !s.evicted h

/-- ctxsv (R400, R401): waits until the target is saved. A target that a page of its own stores holds up is waited for
(R397). -/
def execCtxsv (d a : GReg) : State → Host.Outcome State Fault Refusal :=
  runHart do
    let h ← hart
    if !h.priv then illegal (.ctxsv d a)
    match h.wait with
    | some (.save k) =>
      match (← get).hart? k with
      | some t => if t.isSaved && t.status != .saved then leave else result d 0
      | none => result d 0
    | _ =>
      match (← get).targetOf (h.rd a) with
      | none => result d 1
      | some t =>
        if t.isSaved then result d 2
        else if !(← get).frameOk t then result d 4
        else if ← withHart t.hid saveFront then result d 0
        else
          match (← get).hart? t.hid with
          | some x => if x.isSaved then standStill (.save t.hid) else leave
          | none => leave

end Sys2Proof.Machine
end

