-- ==== Sys2Proof/Machine/ScalarFloat.lean ====
section
/-!
DEFINITION. Scalar float instructions, major 0x12 (R153, R154): operands are the low bits of a g register, results are
rounded under frm.rm and zero-extended, and flags are raised into fflags.
-/

namespace Sys2Proof.Machine

/-- The rounding mode of a hart (R38). -/
def Hart.rmode (h : Hart) : RM := RM.ofBits h.ctx.rm

/-- The float value of a g register (R153). -/
def Hart.flt (h : Hart) (f : SFmt) (r : GReg) : FVal := (sfmtFF f).decode (h.rd r).toNat

/-- Writes a result and raises its flags. -/
def Hart.wrFl (h : Hart) (d : GReg) (r : Word × BitVec 5) : Hart := (h.raise r.2).wr d r.1

/-- Writes a compare's 0 or 1 and raises its flags (R153). -/
def Hart.wrCmp (h : Hart) (d : GReg) (r : Bool × BitVec 5) : Hart := (h.raise r.2).wr d (boolWord r.1)

/-- `fadd`: round(a + b) (R153). -/
def execFadd (d a b : GReg) (f : SFmt) (s : State) : Host.Outcome State Fault Refusal :=
  scalar (fun h => h.wrFl d (fRes ((sfmtFF f).add h.rmode (h.flt f a) (h.flt f b)))) s

/-- `fsub`: round(a − b) (R153). -/
def execFsub (d a b : GReg) (f : SFmt) (s : State) : Host.Outcome State Fault Refusal :=
  scalar (fun h => h.wrFl d (fRes ((sfmtFF f).sub h.rmode (h.flt f a) (h.flt f b)))) s

/-- `fmul`: round(a × b) (R153). -/
def execFmul (d a b : GReg) (f : SFmt) (s : State) : Host.Outcome State Fault Refusal :=
  scalar (fun h => h.wrFl d (fRes ((sfmtFF f).mul h.rmode (h.flt f a) (h.flt f b)))) s

/-- `fdiv`: round(a / b), DZ for a finite nonzero value over zero (R153). -/
def execFdiv (d a b : GReg) (f : SFmt) (s : State) : Host.Outcome State Fault Refusal :=
  scalar (fun h => h.wrFl d (fRes ((sfmtFF f).div h.rmode (h.flt f a) (h.flt f b)))) s

/-- `ffma`: round(a × b + c) with one rounding (R153). -/
def execFfma (d a b c : GReg) (f : SFmt) (s : State) : Host.Outcome State Fault Refusal :=
  scalar (fun h => h.wrFl d (fRes ((sfmtFF f).fma h.rmode (h.flt f a) (h.flt f b) (h.flt f c)))) s

/-- `fmin`: minimumNumber (R45, R153). -/
def execFmin (d a b : GReg) (f : SFmt) (s : State) : Host.Outcome State Fault Refusal :=
  scalar (fun h => h.wrFl d (fRes ((sfmtFF f).minNum (h.rd a).toNat (h.rd b).toNat))) s

/-- `fmax`: maximumNumber (R45, R153). -/
def execFmax (d a b : GReg) (f : SFmt) (s : State) : Host.Outcome State Fault Refusal :=
  scalar (fun h => h.wrFl d (fRes ((sfmtFF f).maxNum (h.rd a).toNat (h.rd b).toNat))) s

/-- `fsqrt`: round(√a) (R153). -/
def execFsqrt (d a : GReg) (f : SFmt) (s : State) : Host.Outcome State Fault Refusal :=
  scalar (fun h => h.wrFl d (fRes ((sfmtFF f).sqrt h.rmode (h.flt f a)))) s

/-- `fcmpeq`: 1 if a = b; NV only for signalling operands (R153). -/
def execFcmpeq (d a b : GReg) (f : SFmt) (s : State) : Host.Outcome State Fault Refusal :=
  scalar (fun h => h.wrCmp d (cmpEq (h.flt f a) (h.flt f b))) s

/-- `fcmplt`: 1 if a < b; NV for any NaN operand (R153). -/
def execFcmplt (d a b : GReg) (f : SFmt) (s : State) : Host.Outcome State Fault Refusal :=
  scalar (fun h => h.wrCmp d (cmpLt (h.flt f a) (h.flt f b))) s

/-- `fcmple`: 1 if a ≤ b; NV for any NaN operand (R153). -/
def execFcmple (d a b : GReg) (f : SFmt) (s : State) : Host.Outcome State Fault Refusal :=
  scalar (fun h => h.wrCmp d (cmpLe (h.flt f a) (h.flt f b))) s

/-- `fcvt`: converts between the fmt format and a second kind, in the direction imm16[8] selects (R154). -/
def execFcvt (d a : GReg) (f : SFmt) (k : CvtKind) (dir : Bool) (s : State) : Host.Outcome State Fault Refusal :=
  scalar (fun h => h.wrFl d (fcvtRes f k dir h.rmode (h.rd a))) s

/-- `fclass`: the one-hot class mask; no flag (R153). -/
def execFclass (d a : GReg) (f : SFmt) (s : State) : Host.Outcome State Fault Refusal :=
  scalar (fun h => h.wr d (BitVec.ofNat 64 ((sfmtFF f).classify (h.rd a).toNat))) s

end Sys2Proof.Machine
end

