-- ==== Sys2Proof/Machine/ScalarImm.lean ====
section
/-!
DEFINITION. Scalar immediate instructions, major 0x11 (R152). None raises a flag or faults.
-/

namespace Sys2Proof.Machine

/-- `addi`: ga + sext(imm32) (R152). -/
def execAddi (d a : GReg) (imm : BitVec 32) (s : State) : Host.Outcome State Fault Refusal :=
  scalar (fun h => h.wr d (h.rd a + sext32 imm)) s

/-- `andi`: ga AND sext(imm32) (R152). -/
def execAndi (d a : GReg) (imm : BitVec 32) (s : State) : Host.Outcome State Fault Refusal :=
  scalar (fun h => h.wr d (h.rd a &&& sext32 imm)) s

/-- `ori`: ga OR sext(imm32) (R152). -/
def execOri (d a : GReg) (imm : BitVec 32) (s : State) : Host.Outcome State Fault Refusal :=
  scalar (fun h => h.wr d (h.rd a ||| sext32 imm)) s

/-- `xori`: ga XOR sext(imm32) (R152). -/
def execXori (d a : GReg) (imm : BitVec 32) (s : State) : Host.Outcome State Fault Refusal :=
  scalar (fun h => h.wr d (h.rd a ^^^ sext32 imm)) s

/-- `slli`: shift left by imm32[5:0] (R152). -/
def execSlli (d a : GReg) (sh : BitVec 6) (s : State) : Host.Outcome State Fault Refusal :=
  scalar (fun h => h.wr d (h.rd a <<< sh.toNat)) s

/-- `srli`: logical shift right by imm32[5:0] (R152). -/
def execSrli (d a : GReg) (sh : BitVec 6) (s : State) : Host.Outcome State Fault Refusal :=
  scalar (fun h => h.wr d (h.rd a >>> sh.toNat)) s

/-- `srai`: arithmetic shift right by imm32[5:0] (R152). -/
def execSrai (d a : GReg) (sh : BitVec 6) (s : State) : Host.Outcome State Fault Refusal :=
  scalar (fun h => h.wr d ((h.rd a).sshiftRight sh.toNat)) s

/-- `slti`: signed compare with sext(imm32) (R152). -/
def execSlti (d a : GReg) (imm : BitVec 32) (s : State) : Host.Outcome State Fault Refusal :=
  scalar (fun h => h.wr d (boolWord ((h.rd a).slt (sext32 imm)))) s

/-- `ldi`: sext(imm32) (R152). -/
def execLdi (d : GReg) (imm : BitVec 32) (s : State) : Host.Outcome State Fault Refusal :=
  scalar (fun h => h.wr d (sext32 imm)) s

/-- `ldih`: replaces the upper half of gd (R152). -/
def execLdih (d : GReg) (imm : BitVec 32) (s : State) : Host.Outcome State Fault Refusal :=
  scalar (fun h => h.wr d (upperHalf (h.rd d) imm)) s

/-- `pcadd`: the original PC + sext(imm32) (R152, R146). -/
def execPcadd (d : GReg) (imm : BitVec 32) (s : State) : Host.Outcome State Fault Refusal :=
  scalar (fun h => h.wr d (h.ctx.pc + sext32 imm)) s

end Sys2Proof.Machine
end

