-- ==== Sys2Proof/Machine/ScalarInt.lean ====
section
/-!
DEFINITION. Scalar integer instructions, major 0x10 (R150, R151). None faults; only adds and subs raise flags.
-/

namespace Sys2Proof.Machine

/-- `add`: ga + gb modulo 2^64 (R150). -/
def execAdd (d a b : GReg) (s : State) : Host.Outcome State Fault Refusal :=
  scalar (fun h => h.wr d (h.rd a + h.rd b)) s

/-- `sub`: ga − gb modulo 2^64 (R150). -/
def execSub (d a b : GReg) (s : State) : Host.Outcome State Fault Refusal :=
  scalar (fun h => h.wr d (h.rd a - h.rd b)) s

/-- `mul`: the low 64 bits of the product (R150). -/
def execMul (d a b : GReg) (s : State) : Host.Outcome State Fault Refusal :=
  scalar (fun h => h.wr d (h.rd a * h.rd b)) s

/-- `mulh`: bits [127:64] of the signed product (R150). -/
def execMulh (d a b : GReg) (s : State) : Host.Outcome State Fault Refusal :=
  scalar (fun h => h.wr d (mulHigh (h.rd a).toInt (h.rd b).toInt)) s

/-- `mulhn`: bits [127:64] of the unsigned product (R150). -/
def execMulhn (d a b : GReg) (s : State) : Host.Outcome State Fault Refusal :=
  scalar (fun h => h.wr d (mulHigh (h.rd a).toNat (h.rd b).toNat)) s

/-- `div`: signed quotient (R151). -/
def execDiv (d a b : GReg) (s : State) : Host.Outcome State Fault Refusal :=
  scalar (fun h => h.wr d (divSigned (h.rd a) (h.rd b))) s

/-- `divn`: unsigned quotient (R151). -/
def execDivn (d a b : GReg) (s : State) : Host.Outcome State Fault Refusal :=
  scalar (fun h => h.wr d (divUnsigned (h.rd a) (h.rd b))) s

/-- `rem`: signed remainder (R151). -/
def execRem (d a b : GReg) (s : State) : Host.Outcome State Fault Refusal :=
  scalar (fun h => h.wr d (remSigned (h.rd a) (h.rd b))) s

/-- `remn`: unsigned remainder (R151). -/
def execRemn (d a b : GReg) (s : State) : Host.Outcome State Fault Refusal :=
  scalar (fun h => h.wr d (remUnsigned (h.rd a) (h.rd b))) s

/-- `and`: bitwise AND (R150). -/
def execAnd (d a b : GReg) (s : State) : Host.Outcome State Fault Refusal :=
  scalar (fun h => h.wr d (h.rd a &&& h.rd b)) s

/-- `or`: bitwise OR (R150). -/
def execOr (d a b : GReg) (s : State) : Host.Outcome State Fault Refusal :=
  scalar (fun h => h.wr d (h.rd a ||| h.rd b)) s

/-- `xor`: bitwise XOR (R150). -/
def execXor (d a b : GReg) (s : State) : Host.Outcome State Fault Refusal :=
  scalar (fun h => h.wr d (h.rd a ^^^ h.rd b)) s

/-- `sll`: shift left by gb[5:0] (R150). -/
def execSll (d a b : GReg) (s : State) : Host.Outcome State Fault Refusal :=
  scalar (fun h => h.wr d (h.rd a <<< ((h.rd b).toNat % 64))) s

/-- `srl`: logical shift right by gb[5:0] (R150). -/
def execSrl (d a b : GReg) (s : State) : Host.Outcome State Fault Refusal :=
  scalar (fun h => h.wr d (h.rd a >>> ((h.rd b).toNat % 64))) s

/-- `sra`: arithmetic shift right by gb[5:0] (R150). -/
def execSra (d a b : GReg) (s : State) : Host.Outcome State Fault Refusal :=
  scalar (fun h => h.wr d ((h.rd a).sshiftRight ((h.rd b).toNat % 64))) s

/-- `slt`: signed compare (R150). -/
def execSlt (d a b : GReg) (s : State) : Host.Outcome State Fault Refusal :=
  scalar (fun h => h.wr d (boolWord ((h.rd a).slt (h.rd b)))) s

/-- `sltn`: unsigned compare (R150). -/
def execSltn (d a b : GReg) (s : State) : Host.Outcome State Fault Refusal :=
  scalar (fun h => h.wr d (boolWord ((h.rd a).ult (h.rd b)))) s

/-- `min`: the signed smaller (R150). -/
def execMin (d a b : GReg) (s : State) : Host.Outcome State Fault Refusal :=
  scalar (fun h => h.wr d (if (h.rd b).slt (h.rd a) then h.rd b else h.rd a)) s

/-- `max`: the signed larger (R150). -/
def execMax (d a b : GReg) (s : State) : Host.Outcome State Fault Refusal :=
  scalar (fun h => h.wr d (if (h.rd a).slt (h.rd b) then h.rd b else h.rd a)) s

/-- `minn`: the unsigned smaller (R150). -/
def execMinn (d a b : GReg) (s : State) : Host.Outcome State Fault Refusal :=
  scalar (fun h => h.wr d (if (h.rd b).ult (h.rd a) then h.rd b else h.rd a)) s

/-- `maxn`: the unsigned larger (R150). -/
def execMaxn (d a b : GReg) (s : State) : Host.Outcome State Fault Refusal :=
  scalar (fun h => h.wr d (if (h.rd a).ult (h.rd b) then h.rd b else h.rd a)) s

/-- `clz`: count of leading zero bits (R150). -/
def execClz (d a : GReg) (s : State) : Host.Outcome State Fault Refusal :=
  scalar (fun h => h.wr d (clzWord (h.rd a))) s

/-- `ctz`: count of trailing zero bits (R150). -/
def execCtz (d a : GReg) (s : State) : Host.Outcome State Fault Refusal :=
  scalar (fun h => h.wr d (ctzWord (h.rd a))) s

/-- `popc`: count of 1 bits (R150). -/
def execPopc (d a : GReg) (s : State) : Host.Outcome State Fault Refusal :=
  scalar (fun h => h.wr d (popcWord (h.rd a))) s

/-- `sext`: the low n bits sign-extended, where n − 1 is encoded (R150). -/
def execSext (d a : GReg) (n1 : BitVec 6) (s : State) : Host.Outcome State Fault Refusal :=
  scalar (fun h => h.wr d (sextLow (n1.toNat + 1) (h.rd a))) s

/-- `zext`: the low n bits zero-extended, where n − 1 is encoded (R150). -/
def execZext (d a : GReg) (n1 : BitVec 6) (s : State) : Host.Outcome State Fault Refusal :=
  scalar (fun h => h.wr d (zextLow (n1.toNat + 1) (h.rd a))) s

/-- `cmov`: ga if gc is nonzero, else gb (R150). -/
def execCmov (d a b c : GReg) (s : State) : Host.Outcome State Fault Refusal :=
  scalar (fun h => h.wr d (if h.rd c ≠ 0 then h.rd a else h.rd b)) s

/-- `adds`: signed addition clamped to 64 bits; OF and NX when it clamps (R150, R46). -/
def execAdds (d a b : GReg) (s : State) : Host.Outcome State Fault Refusal :=
  scalar (fun h => let r := clamp64 ((h.rd a).toInt + (h.rd b).toInt); (h.raise r.2).wr d r.1) s

/-- `subs`: signed subtraction clamped to 64 bits; OF and NX when it clamps (R150, R46). -/
def execSubs (d a b : GReg) (s : State) : Host.Outcome State Fault Refusal :=
  scalar (fun h => let r := clamp64 ((h.rd a).toInt - (h.rd b).toInt); (h.raise r.2).wr d r.1) s

end Sys2Proof.Machine
end

