-- ==== Sys2Proof/Machine/DressWords.lean ====
section
/-!
DEFINITION. What the Dresser asks of an instruction (R363, R365, R368): the g register that it names as a destination, and
for those it may evaluate the g registers read and the meaning itself.
-/

namespace Sys2Proof.Machine

/-- The g register that an instruction of a single word names as a destination (R368). -/
def gDest (i : Instr) : Option GReg :=
  match i with
  | .add d _ _ => some d
  | .sub d _ _ => some d
  | .mul d _ _ => some d
  | .mulh d _ _ => some d
  | .mulhn d _ _ => some d
  | .div d _ _ => some d
  | .divn d _ _ => some d
  | .rem d _ _ => some d
  | .remn d _ _ => some d
  | .and d _ _ => some d
  | .or d _ _ => some d
  | .xor d _ _ => some d
  | .sll d _ _ => some d
  | .srl d _ _ => some d
  | .sra d _ _ => some d
  | .slt d _ _ => some d
  | .sltn d _ _ => some d
  | .min d _ _ => some d
  | .max d _ _ => some d
  | .minn d _ _ => some d
  | .maxn d _ _ => some d
  | .clz d _ => some d
  | .ctz d _ => some d
  | .popc d _ => some d
  | .sext d _ _ => some d
  | .zext d _ _ => some d
  | .cmov d _ _ _ => some d
  | .adds d _ _ => some d
  | .subs d _ _ => some d
  | .addi d _ _ => some d
  | .andi d _ _ => some d
  | .ori d _ _ => some d
  | .xori d _ _ => some d
  | .slli d _ _ => some d
  | .srli d _ _ => some d
  | .srai d _ _ => some d
  | .slti d _ _ => some d
  | .ldi d _ => some d
  | .ldih d _ => some d
  | .pcadd d _ => some d
  | .fadd d _ _ _ => some d
  | .fsub d _ _ _ => some d
  | .fmul d _ _ _ => some d
  | .fdiv d _ _ _ => some d
  | .ffma d _ _ _ _ => some d
  | .fmin d _ _ _ => some d
  | .fmax d _ _ _ => some d
  | .fsqrt d _ _ => some d
  | .fcmpeq d _ _ _ => some d
  | .fcmplt d _ _ _ => some d
  | .fcmple d _ _ _ => some d
  | .fcvt d _ _ _ _ => some d
  | .fclass d _ _ => some d
  | .jal d _ => some d
  | .jalr d _ _ => some d
  | .dbnz a _ => some a
  | .crd d _ => some d
  | .cset d _ _ => some d
  | .cclr d _ _ => some d
  | .rdtime d => some d
  | .dyn d _ => some d
  | .arg d _ => some d
  | .wfld d _ => some d
  | .prio d _ => some d
  | .barPh d _ => some d
  | .lnch d _ _ => some d
  | .ctxsv d _ => some d
  | .ctxld d _ => some d
  | .sfq d _ => some d
  | .sfqPop d _ => some d
  | .qput d _ _ => some d
  | .sinvPage d _ => some d
  | .sinvAll d => some d
  | .sinvReport d => some d
  | .vgr d _ => some d
  | .vgq d _ => some d
  | .vrel d => some d
  | .vrows d _ => some d
  | .vtype d _ _ _ => some d
  | .vxs _ d _ _ => some d
  | .vredAdd _ d _ _ => some d
  | .vredMax _ d _ _ => some d
  | .vredMin _ d _ _ => some d
  | .mpop d _ _ => some d
  | .mfirst d _ _ => some d
  | .ldB d _ _ _ _ _ => some d
  | .ldH d _ _ _ _ _ => some d
  | .ldW d _ _ _ _ _ => some d
  | .ldD d _ _ _ _ _ => some d
  | .ldBn d _ _ _ _ _ => some d
  | .ldHn d _ _ _ _ _ => some d
  | .ldWn d _ _ _ _ _ => some d
  | .amoAdd d _ _ _ _ _ => some d
  | .amoAnd d _ _ _ _ _ => some d
  | .amoOr d _ _ _ _ _ => some d
  | .amoXor d _ _ _ _ _ => some d
  | .amoMin d _ _ _ _ _ => some d
  | .amoMax d _ _ _ _ _ => some d
  | .amoMinn d _ _ _ _ _ => some d
  | .amoMaxn d _ _ _ _ _ => some d
  | .amoSwap d _ _ _ _ _ => some d
  | .amoCas d _ _ _ _ _ => some d
  | .amoFadd d _ _ _ _ => some d
  | .amoLd d _ _ _ _ => some d
  | .wait d _ _ _ _ _ _ => some d
  | .ph d => some d
  | .phTimestamp d _ => some d
  | .phA d => some d
  | .tclr d _ _ => some d
  | .cpgo d _ => some d
  | .cwait d _ _ => some d
  | .cpst d _ _ => some d
  | .tdef d _ _ _ _ => some d
  | .tget d _ _ => some d
  | .rinit d _ _ _ _ => some d
  | .rget d _ => some d
  | .rgetNw d _ => some d
  | .xins _ d _ _ _ _ => some d
  | .xacc _ d _ _ _ _ => some d
  | .xdel d _ _ _ => some d
  | .xdrain _ d _ _ => some d
  | .xcnt d _ => some d
  | .xclr d => some d
  | .kxdef d _ _ => some d
  | .kxprj d _ _ _ => some d
  | .kga _ _ b _ _ _ => some b
  | .kgaU _ _ b _ _ _ => some b
  | .kxst d _ _ => some d
  | .kxstClr d _ _ => some d
  | .kxclr d _ => some d
  | .gadd d _ _ => some d
  | .vgadd _ d _ _ _ _ => some d
  | .gw d _ => some d
  | .gspr d _ => some d
  | .gstep d _ _ => some d
  | _ => none

/-- The g registers that an instruction of the majors 0x10 to 0x12 and 0x18 to 0x1B reads (R365). -/
def gSources (i : Instr) : List GReg :=
  match i with
  | .add _ a b => [a, b]
  | .sub _ a b => [a, b]
  | .mul _ a b => [a, b]
  | .mulh _ a b => [a, b]
  | .mulhn _ a b => [a, b]
  | .div _ a b => [a, b]
  | .divn _ a b => [a, b]
  | .rem _ a b => [a, b]
  | .remn _ a b => [a, b]
  | .and _ a b => [a, b]
  | .or _ a b => [a, b]
  | .xor _ a b => [a, b]
  | .sll _ a b => [a, b]
  | .srl _ a b => [a, b]
  | .sra _ a b => [a, b]
  | .slt _ a b => [a, b]
  | .sltn _ a b => [a, b]
  | .min _ a b => [a, b]
  | .max _ a b => [a, b]
  | .minn _ a b => [a, b]
  | .maxn _ a b => [a, b]
  | .clz _ a => [a]
  | .ctz _ a => [a]
  | .popc _ a => [a]
  | .sext _ a _ => [a]
  | .zext _ a _ => [a]
  | .cmov _ a b c => [a, b, c]
  | .adds _ a b => [a, b]
  | .subs _ a b => [a, b]
  | .addi _ a _ => [a]
  | .andi _ a _ => [a]
  | .ori _ a _ => [a]
  | .xori _ a _ => [a]
  | .slli _ a _ => [a]
  | .srli _ a _ => [a]
  | .srai _ a _ => [a]
  | .slti _ a _ => [a]
  | .ldih d _ => [d]
  | .fadd _ a b _ => [a, b]
  | .fsub _ a b _ => [a, b]
  | .fmul _ a b _ => [a, b]
  | .fdiv _ a b _ => [a, b]
  | .ffma _ a b c _ => [a, b, c]
  | .fmin _ a b _ => [a, b]
  | .fmax _ a b _ => [a, b]
  | .fsqrt _ a _ => [a]
  | .fcmpeq _ a b _ => [a, b]
  | .fcmplt _ a b _ => [a, b]
  | .fcmple _ a b _ => [a, b]
  | .fcvt _ a _ _ _ => [a]
  | .fclass _ a _ => [a]
  | .beq a b _ => [a, b]
  | .bne a b _ => [a, b]
  | .blt a b _ => [a, b]
  | .bge a b _ => [a, b]
  | .bltn a b _ => [a, b]
  | .bgen a b _ => [a, b]
  | .bz a _ => [a]
  | .bnz a _ => [a]
  | .jalr _ a _ => [a]
  | .dbnz a _ => [a]
  | _ => []

/-- The meaning of an instruction of those majors, which the Dresser may run ahead of the launch (R365). -/
def aheadMeaning (i : Instr) : Option (State → Host.Outcome State Fault Refusal) :=
  match i with
  | .add d a b => some (execAdd d a b)
  | .sub d a b => some (execSub d a b)
  | .mul d a b => some (execMul d a b)
  | .mulh d a b => some (execMulh d a b)
  | .mulhn d a b => some (execMulhn d a b)
  | .div d a b => some (execDiv d a b)
  | .divn d a b => some (execDivn d a b)
  | .rem d a b => some (execRem d a b)
  | .remn d a b => some (execRemn d a b)
  | .and d a b => some (execAnd d a b)
  | .or d a b => some (execOr d a b)
  | .xor d a b => some (execXor d a b)
  | .sll d a b => some (execSll d a b)
  | .srl d a b => some (execSrl d a b)
  | .sra d a b => some (execSra d a b)
  | .slt d a b => some (execSlt d a b)
  | .sltn d a b => some (execSltn d a b)
  | .min d a b => some (execMin d a b)
  | .max d a b => some (execMax d a b)
  | .minn d a b => some (execMinn d a b)
  | .maxn d a b => some (execMaxn d a b)
  | .clz d a => some (execClz d a)
  | .ctz d a => some (execCtz d a)
  | .popc d a => some (execPopc d a)
  | .sext d a n1 => some (execSext d a n1)
  | .zext d a n1 => some (execZext d a n1)
  | .cmov d a b c => some (execCmov d a b c)
  | .adds d a b => some (execAdds d a b)
  | .subs d a b => some (execSubs d a b)
  | .addi d a imm => some (execAddi d a imm)
  | .andi d a imm => some (execAndi d a imm)
  | .ori d a imm => some (execOri d a imm)
  | .xori d a imm => some (execXori d a imm)
  | .slli d a sh => some (execSlli d a sh)
  | .srli d a sh => some (execSrli d a sh)
  | .srai d a sh => some (execSrai d a sh)
  | .slti d a imm => some (execSlti d a imm)
  | .ldi d imm => some (execLdi d imm)
  | .ldih d imm => some (execLdih d imm)
  | .pcadd d imm => some (execPcadd d imm)
  | .fadd d a b f => some (execFadd d a b f)
  | .fsub d a b f => some (execFsub d a b f)
  | .fmul d a b f => some (execFmul d a b f)
  | .fdiv d a b f => some (execFdiv d a b f)
  | .ffma d a b c f => some (execFfma d a b c f)
  | .fmin d a b f => some (execFmin d a b f)
  | .fmax d a b f => some (execFmax d a b f)
  | .fsqrt d a f => some (execFsqrt d a f)
  | .fcmpeq d a b f => some (execFcmpeq d a b f)
  | .fcmplt d a b f => some (execFcmplt d a b f)
  | .fcmple d a b f => some (execFcmple d a b f)
  | .fcvt d a f k dir => some (execFcvt d a f k dir)
  | .fclass d a f => some (execFclass d a f)
  | .beq a b off => some (execBeq a b off)
  | .bne a b off => some (execBne a b off)
  | .blt a b off => some (execBlt a b off)
  | .bge a b off => some (execBge a b off)
  | .bltn a b off => some (execBltn a b off)
  | .bgen a b off => some (execBgen a b off)
  | .bz a off => some (execBz a off)
  | .bnz a off => some (execBnz a off)
  | .jal d off => some (execJal d off)
  | .jalr d a imm => some (execJalr d a imm)
  | .dbnz a off => some (execDbnz a off)
  | _ => none

end Sys2Proof.Machine
end

