-- ==== Sys2Proof/Machine/ScalarMem.lean ====
section
/-!
DEFINITION. Scalar memory, major 0x40 (R232 to R234): precise loads, stores that retire before they are performed, and
the stage window's precise stores (R313). Cache policy has no effect on a value (R230).
-/

namespace Sys2Proof.Machine

/-- The n bytes that a scalar load reads, after every earlier access of the hart (R228, R233); a fault is taken at the
load's own PC. -/
def loadScalar (addr : Hart → Word) (n : Nat) : M Word := do
  drainAll
  match ← readBytes .load (← get).lookNow (addr (← hart)) n with
  | .ok bs => return leWord bs
  | .error (a, f) => accessFault a f

/-- A scalar load (R232). -/
def loadTo (n : Nat) (ext : Word → Word) (d base ix : GReg) (scale : BitVec 2) (off : BitVec 18) :
    State → Host.Outcome State Fault Refusal :=
  runHart do
    let x ← loadScalar (fun h => h.ea base ix scale off) n
    result d (ext x)

/-- A scalar store (R233, R245, R313): while the store-fault record queue has no room it does not issue; in the stage
window it is performed before it retires; elsewhere it retires and is performed later. -/
def storeScalar (ea : Word) (bs : List Byte) : M Unit := do
  let h ← hart
  if 16 ≤ h.sfq.length ∨ h.sfHeld ≠ [] then leave
  if (stageOff ea).isSome then
    drainAll
    let h ← hart
    match ← writeBytes .store { opc := h.ctx.pc, iter := h.ctx.iter, elem := 0, at_ := h.retired } ea bs with
    | .ok () => pure ()
    | .error (a, f) => accessFault a f
  else
    modHart fun h =>
      { h with sq := h.sq ++ [{ ea := ea, bytes := bs, opc := h.ctx.pc, iter := h.ctx.iter, at_ := h.retired + 1 }] }

/-- A scalar store of the n low bytes of a register (R232). -/
def storeFrom (n : Nat) (src base ix : GReg) (scale : BitVec 2) (off : BitVec 18) :
    State → Host.Outcome State Fault Refusal :=
  runHart do
    let h ← hart
    storeScalar (h.ea base ix scale off) (wordBytes n (h.rd src))
    modHart Hart.retire

/-- ld.b (R232, R233). -/
def execLdB (d base ix : GReg) (scale : BitVec 2) (_pol : Policy) (off : BitVec 18) :
    State → Host.Outcome State Fault Refusal := loadTo 1 (sextLow 8) d base ix scale off

/-- ld.h (R232, R233). -/
def execLdH (d base ix : GReg) (scale : BitVec 2) (_pol : Policy) (off : BitVec 18) :
    State → Host.Outcome State Fault Refusal := loadTo 2 (sextLow 16) d base ix scale off

/-- ld.w (R232, R233). -/
def execLdW (d base ix : GReg) (scale : BitVec 2) (_pol : Policy) (off : BitVec 18) :
    State → Host.Outcome State Fault Refusal := loadTo 4 (sextLow 32) d base ix scale off

/-- ld.d (R232, R233). -/
def execLdD (d base ix : GReg) (scale : BitVec 2) (_pol : Policy) (off : BitVec 18) :
    State → Host.Outcome State Fault Refusal := loadTo 8 id d base ix scale off

/-- ld.bn (R232, R233). -/
def execLdBn (d base ix : GReg) (scale : BitVec 2) (_pol : Policy) (off : BitVec 18) :
    State → Host.Outcome State Fault Refusal := loadTo 1 (zextLow 8) d base ix scale off

/-- ld.hn (R232, R233). -/
def execLdHn (d base ix : GReg) (scale : BitVec 2) (_pol : Policy) (off : BitVec 18) :
    State → Host.Outcome State Fault Refusal := loadTo 2 (zextLow 16) d base ix scale off

/-- ld.wn (R232, R233). -/
def execLdWn (d base ix : GReg) (scale : BitVec 2) (_pol : Policy) (off : BitVec 18) :
    State → Host.Outcome State Fault Refusal := loadTo 4 (zextLow 32) d base ix scale off

/-- st.b (R232, R233). -/
def execStB (d base ix : GReg) (scale : BitVec 2) (_pol : Policy) (off : BitVec 18) :
    State → Host.Outcome State Fault Refusal := storeFrom 1 d base ix scale off

/-- st.h (R232, R233). -/
def execStH (d base ix : GReg) (scale : BitVec 2) (_pol : Policy) (off : BitVec 18) :
    State → Host.Outcome State Fault Refusal := storeFrom 2 d base ix scale off

/-- st.w (R232, R233). -/
def execStW (d base ix : GReg) (scale : BitVec 2) (_pol : Policy) (off : BitVec 18) :
    State → Host.Outcome State Fault Refusal := storeFrom 4 d base ix scale off

/-- st.d (R232, R233). -/
def execStD (d base ix : GReg) (scale : BitVec 2) (_pol : Policy) (off : BitVec 18) :
    State → Host.Outcome State Fault Refusal := storeFrom 8 d base ix scale off

/-- pf (R234): a hint without effect on the state. -/
def execPf (_base _ix : GReg) (_scale : BitVec 2) (_pol : Policy) (_off : BitVec 18) :
    State → Host.Outcome State Fault Refusal := scalar id

end Sys2Proof.Machine
end

