-- ==== Sys2Proof/Machine/PairWord.lean ====
section
/-!
DEFINITION. The pair word (R74 to R78): its two slots read registers as they stood before the pair, retire as one
instruction, and write nothing where a slot faults.
-/

namespace Sys2Proof.Machine

/-- A restricted two-register op (R75). -/
def PAlu.apply (op : PAlu) (d s : Word) : Word :=
  match op with
  | .add => d + s
  | .sub => d - s
  | .and => d &&& s
  | .or => d ||| s
  | .xor => d ^^^ s
  | .sll => d <<< (s.toNat % 64)
  | .srl => d >>> (s.toNat % 64)
  | .sra => d.sshiftRight (s.toNat % 64)
  | .mov => s

/-- The register and value that a scalar slot without a memory op writes (R75). -/
def Hart.slotResult (h : Hart) : PSlot → Option (GReg × Word)
  | .alu op d s => some (d, PAlu.apply op (h.rd d) (h.rd s))
  | .addi d s imm => some (d, h.rd s + imm.signExtend 64)
  | .ldi d imm => some (d, imm.signExtend 64)
  | .slli d s sh => some (d, h.rd s <<< sh.toNat)
  | .srli d s sh => some (d, h.rd s >>> sh.toNat)
  | .ld .. | .st .. | .vec .. | .nop => none

/-- The full vector instruction of a vector slot (R75). -/
def slotVector : PSlot → Option Instr
  | .vec .addF d s => some (.vaddFloat .f32 d d s none none)
  | .vec .subF d s => some (.vsubFloat .f32 d d s none none)
  | .vec .mulF d s => some (.vmulFloat .f32 d d s none none)
  | .vec .mv d s => some (.vmv d s none)
  | .vec .addI d s => some (.vaddInt .i32 d d s none none)
  | _ => none

/-- The memory op of a slot, and the register it loads (R75, R78). -/
def slotMemory : PSlot → M (Option (GReg × Word))
  | .ld d s imm => do
    let x ← loadScalar (fun h => h.eaSlot s imm) 8
    return some (d, x)
  | .st d s imm => do
    let h ← hart
    storeScalar (h.eaSlot s imm) (wordBytes 8 (h.rd d))
    return none
  | _ => pure none

/-- Writes an optional result. -/
def Hart.wrSome (h : Hart) : Option (GReg × Word) → Hart
  | some (d, x) => h.wr d x
  | none => h

/-- Enters an optional vector instruction into the queue with the state before the pair. -/
def enterSome (s : State) (i : Option Instr) (h : Hart) : Hart :=
  match i with
  | some i => h.enqueue (enterOp s i 0 0 0 none)
  | none => h

/-- The pair word (R75, R76, R78). -/
def execPairWord (_b0 : Bool) (s0 : PSlot) (_b1 : Bool) (s1 : PSlot) : State → Host.Outcome State Fault Refusal :=
  runHart do
    let m0 ← slotMemory s0
    let m1 ← slotMemory s1
    let s ← get
    let old := s.cur
    let h := (((old.wrSome m0).wrSome m1).wrSome (old.slotResult s0)).wrSome (old.slotResult s1)
    set { s with
      cur := (enterSome s (slotVector s1) (enterSome s (slotVector s0) h)).retire,
      free := s.free + bitN (slotVector s0).isSome + bitN (slotVector s1).isSome }
    match s.serve with
    | none => drainQueue
    | some n => serveN n

end Sys2Proof.Machine
end

