-- ==== Sys2Proof/Machine/Dresser.lean ====
section
/-!
DEFINITION. The Dresser (R363 to R373, R378, R379, R383): evaluation of marked instructions, residual words with their
back-map, contexts, iteration vectors and limits. It is a function of the launch's static facts and of the words it reads.
-/

namespace Sys2Proof.Machine

/-- What an evaluation depends on besides the words (R373, R374): the part, ordered mode, the argument store with its
static mask, and the breakpoints. -/
structure Facts where
  part : Part
  ordered : Bool
  nargs : Nat
  smask : Word
  args : List Word
  breaks : List Word

/-- A context (R363, R368): original PC, the static values, and the iteration levels, innermost first, each a branch and
its count. -/
structure Env where
  pc : Word
  g : List (Option Word)
  nr : Option (BitVec 4)
  vt : Option (BitVec 12)
  rm : Option (BitVec 3)
  lv : List (Word × Nat)
  deriving DecidableEq, Repr

/-- The context in which evaluation starts (R364). -/
def Env.start (code : Word) : Env :=
  { pc := code, g := List.replicate 64 (some 0), nr := some 1, vt := some 0x10E, rm := some 0, lv := [] }

/-- The static value of a g register. -/
def Env.get (e : Env) (r : GReg) : Option Word := (e.g.getD r.toNat none)

/-- The context with a g register static or dynamic; g0 stays zero (R144). -/
def Env.put (e : Env) (r : GReg) (x : Option Word) : Env :=
  if r = 0 then e else { e with g := e.g.set r.toNat x }

/-- Every g register dynamic. -/
def Env.forget (e : Env) : Env := { e with g := some 0 :: List.replicate 63 none }

/-- The iteration vector: the innermost count lowest (R371). -/
def packLevels : List (Word × Nat) → Nat
  | [] => 0
  | (_, n) :: t => n % 65536 + 65536 * packLevels t

/-- The iteration vector of a context. -/
def Env.iter (e : Env) : Word := BitVec.ofNat 64 (packLevels e.lv)

/-- The levels from that of a branch outward. -/
def fromLevel (b : Word) : List (Word × Nat) → List (Word × Nat)
  | [] => []
  | (x, n) :: t => if x = b then (x, n) :: t else fromLevel b t

/-- A taken evaluated backward branch at b (R371). -/
def raiseLevel (b : Word) (lv : List (Word × Nat)) : List (Word × Nat) :=
  match fromLevel b lv with
  | (x, n) :: t => (x, n + 1) :: t
  | [] => ((b, 1) :: lv).take 4

/-- Control passes the branch at b without taking it (R371). -/
def dropLevel (b : Word) (lv : List (Word × Nat)) : List (Word × Nat) :=
  match fromLevel b lv with
  | _ :: t => t
  | [] => lv

/-! Words. -/

/-- A word as the Dresser sees it: an instruction with its mark, a pair, a gctl, of which only the destination matters, or
a word that it never evaluates (R82). -/
inductive DressWord where
  | full (mark : Bool) (i : Instr)
  | pair (b0 : Bool) (s0 : PSlot) (b1 : Bool) (s1 : PSlot)
  | gctl (d : GReg)
  | gquiet
  | bad
  deriving DecidableEq, Repr

/-- The decoding of a word for the Dresser (R82, R85, R87). -/
def dressWord (part : Part) (w : Word) : DressWord :=
  let mark := w.getLsbD 62
  if w.getLsbD 63 then
    match pairCandidate w with
    | some (.pairWord b0 s0 b1 s1) => if pairLegal b0 s0 b1 s1 then .pair b0 s0 b1 s1 else .bad
    | _ => .bad
  else if majorOf w = 0x70 then
    if part = .tl430 ∨ mark then .bad
    else if (unpackA w).minor = 8 then .gctl (unpackA w).d
    else if (unpackA w).minor = 7 then .gquiet
    else
      match cand70Low (unpackA w) with
      | some i => if i.wf then .full false i else .bad
      | none => .bad
  else
    match candOf w with
    | some i => if i.wf && (!mark || i.markable) then .full mark i else .bad
    | none => .bad

/-- The full equivalent of a slot (R75); a memory slot's offset is in bytes. -/
def slotFull : PSlot → Option Instr
  | .alu .add d s => some (.add d d s)
  | .alu .sub d s => some (.sub d d s)
  | .alu .and d s => some (.and d d s)
  | .alu .or d s => some (.or d d s)
  | .alu .xor d s => some (.xor d d s)
  | .alu .sll d s => some (.sll d d s)
  | .alu .srl d s => some (.srl d d s)
  | .alu .sra d s => some (.sra d d s)
  | .alu .mov d s => some (.or d s 0)
  | .addi d s imm => some (.addi d s (imm.signExtend 32))
  | .ldi d imm => some (.ldi d (imm.signExtend 32))
  | .slli d s sh => some (.slli d s sh)
  | .srli d s sh => some (.srli d s sh)
  | .ld d s imm => some (.ldD d s 0 0 .normal (imm.signExtend 18 <<< 3))
  | .st d s imm => some (.stD d s 0 0 .normal (imm.signExtend 18 <<< 3))
  | .vec op d s => slotVector (.vec op d s)
  | .nop => none

/-! Evaluation (R363, R365). -/

/-- Reads the rounding mode (R363): the scalar float instructions. -/
def readsRm (i : Instr) : Bool :=
  match i with
  | .fadd .. | .fsub .. | .fmul .. | .fdiv .. | .ffma .. | .fmin .. | .fmax .. | .fsqrt .. | .fcmpeq .. | .fcmplt ..
  | .fcmple .. | .fcvt .. | .fclass .. => true
  | _ => false

/-- The sum or difference of saturating instructions fits, so that they do not clamp (R365). -/
def noClamp (e : Env) (i : Instr) : Bool :=
  let v := fun (r : GReg) => ((e.get r).getD 0).toInt
  match i with
  | .adds _ a b => fits64 (v a + v b)
  | .subs _ a b => fits64 (v a - v b)
  | _ => true

/-- The g registers of a context as a hart holds them; dynamic ones are of no effect. -/
def staticRegs : Nat → List (Option Word) → Sparse 64
  | _, [] => []
  | k, x :: t =>
    match x with
    | some v => if v = 0 then staticRegs (k + 1) t else (k, v) :: staticRegs (k + 1) t
    | none => staticRegs (k + 1) t

/-- A package in which one hart stands at a context. -/
def Env.state (e : Env) : State :=
  { State.reset with cur := { Hart.blank with
      status := .running, ctx := { Ctx.init with pc := e.pc, g := staticRegs 0 e.g, rm := e.rm.getD 0 } } }

/-- An instruction's input is dynamic (R383). -/
def dynamicIn (f : Facts) (e : Env) (i : Instr) : Bool :=
  match i with
  | .arg _ k => decide (k.toNat < f.nargs) && !f.smask.getLsbD k.toNat
  | _ => (gSources i).any (fun r => (e.get r).isNone) || (readsRm i && e.rm.isNone)

/-- The value of a static argument word (R135, R363). -/
def Facts.arg (f : Facts) (k : Nat) : Option Word :=
  if f.nargs ≤ k then some 0 else if f.smask.getLsbD k then some (f.args.getD k 0) else none

/-- What an instruction writes and where it goes on, where the Dresser evaluates it (R365). -/
def evaluate (f : Facts) (e : Env) (mark : Bool) (i : Instr) : Option (List (GReg × Word) × Word) :=
  if !mark || f.breaks.contains e.pc then none
  else
    match i with
    | .arg d k => (f.arg k.toNat).map fun x => ([(d, x)], e.pc + 8)
    | .crd d cr => (shapeReg f.part f.ordered (cr.toNat % 256)).map fun x => ([(d, x)], e.pc + 8)
    | _ =>
      match aheadMeaning i with
      | none => none
      | some m =>
        if dynamicIn f e i || !noClamp e i then none
        else
          match m e.state with
          | .next t =>
            if t.cur.retired = 1 ∧ t.cur.status = .running ∧ t.cur.ctx.fflags = 0 then
              some (((gDest i).map fun d => (d, t.cur.rd d)).toList, t.cur.ctx.pc)
            else none
          | _ => none

/-! Residual words. -/

/-- The evaluation under way: words so far, latest first, and their number; the residual place of each context; contexts
pending in the order first met, and all that were ever pending; words whose low half awaits the place of a context; the
original words read, with their pages; and what is counted (R368, R372, R383). -/
structure Dress where
  out : List Resid
  n : Nat
  places : List (Env × Nat)
  pending : List Env
  met : List Env
  fixes : List (Nat × Env)
  read : List Word
  pages : List (Nat × Nat)
  steps : Nat
  unroll : Nat
  dyn : Nat
  limit : Nat

/-- Words that stand for the occurrence of a context, the first of a kind (R378). -/
def residWords (e : Env) (kind : ResidKind) : List Word → List Resid
  | [] => []
  | w :: t => { word := w, opc := e.pc, iter := e.iter, kind := kind } :: residWords e .more t

/-- Appends words that stand for the occurrence of a context. -/
def Dress.emit (s : Dress) (e : Env) (kind : ResidKind) (ws : List Word) : Dress :=
  { s with out := (residWords e kind ws).reverse ++ s.out, n := s.n + ws.length }

/-- Appends a transfer into the original code at a context (R372). -/
def Dress.transfer (s : Dress) (e : Env) : Dress :=
  { s with out := { word := 0, opc := e.pc, iter := e.iter, kind := .leave } :: s.out, n := s.n + 1,
           places := (e, s.n) :: s.places }

/-- The word at a place names a context's place, which is pending where none has it yet (R368). -/
def Dress.link (s : Dress) (k : Nat) (e : Env) : Dress :=
  let s := { s with fixes := (k, e) :: s.fixes }
  if s.places.any (fun x => x.1 == e) || s.met.contains e then s
  else { s with pending := s.pending ++ [e], met := e :: s.met }

/-- The words that bring a register to a value (R366). -/
def matWords (e : Env) (d : GReg) (x : Word) : List Word :=
  if d = 0 ∨ e.get d = some x then []
  else
    let lo := packI false 0x11 { minor := 8, d := d, imm := x.extractLsb' 0 32 }
    if (x.extractLsb' 0 32).signExtend 64 = x then [lo]
    else [lo, packI false 0x11 { minor := 9, d := d, imm := x.extractLsb' 32 32 }]

/-- The materialisations of what an evaluated instruction writes, and the context after them. -/
def materialise (e : Env) : List (GReg × Word) → List Word × Env
  | [] => ([], e)
  | (d, x) :: t =>
    let r := materialise (e.put d (some x)) t
    (matWords e d x ++ r.1, r.2)

/-- The immediate form of a marked instruction with one static register input (R367): minor, other source, immediate. -/
def immForm (e : Env) (i : Instr) : Option (BitVec 6 × GReg × GReg × BitVec 32) :=
  let fits := fun (x : Word) => if (x.extractLsb' 0 32).signExtend 64 = x then some (x.extractLsb' 0 32) else none
  let either := fun (m : BitVec 6) (d a b : GReg) =>
    match e.get a, e.get b with
    | some x, none => (fits x).map fun y => (m, d, b, y)
    | none, some x => (fits x).map fun y => (m, d, a, y)
    | _, _ => none
  let second := fun (m : BitVec 6) (d a b : GReg) (f : Word → Option (BitVec 32)) =>
    match e.get a, e.get b with
    | none, some x => (f x).map fun y => (m, d, a, y)
    | _, _ => none
  let amount := fun (x : Word) => some (BitVec.ofNat 32 (x.toNat % 64))
  match i with
  | .add d a b => either 0 d a b
  | .and d a b => either 1 d a b
  | .or d a b => either 2 d a b
  | .xor d a b => either 3 d a b
  | .sub d a b => second 0 d a b fun x => fits (-x)
  | .sll d a b => second 4 d a b amount
  | .srl d a b => second 5 d a b amount
  | .sra d a b => second 6 d a b amount
  | .slt d a b => second 7 d a b fits
  | _ => none

/-- The residual word of an emitted instruction: as it stands, or in its immediate form (R367). -/
def emittedWord (e : Env) (mark : Bool) (i : Instr) (w : Word) : Word :=
  match (if mark then immForm e i else none) with
  | some (m, d, a, imm) => packI false 0x11 { minor := m, d := d, a := a, imm := imm }
  | none => w

/-! Emitted instructions (R363, R368). -/

/-- The registers that are dynamic after an emitted instruction, but for vrows and vtype. -/
def afterEmitted (e : Env) (i : Instr) : Env :=
  let e := match gDest i with
    | some d => e.put d none
    | none => e
  let write := fun (cr : BitVec 12) =>
    if cr = 0x101 ∨ cr = 0x102 then { e with nr := none, vt := none } else if cr = 0x103 then { e with rm := none } else e
  match i with
  | .sys _ | .brk _ => { e.forget with rm := none }
  | .cwr _ cr => write cr
  | .cset _ _ cr => write cr
  | .cclr _ _ cr => write cr
  | _ => e

/-- vrows and vtype change hart state and are always emitted; marked, gd is static with the old value (R366). -/
def afterShape (e : Env) (mark : Bool) (i : Instr) : Option Env :=
  let keep := fun (x : Option Word) => if mark then x else none
  match i with
  | .vrows d n =>
    let old := keep (e.nr.map fun x => x.setWidth 64)
    some ({ e with nr := some n, vt := e.vt.map fun (v : BitVec 12) => n ++ v.extractLsb' 0 8 }.put d old)
  | .vtype d f blk n =>
    let old := keep (e.vt.map fun x => x.setWidth 64)
    some ({ e with nr := some n, vt := some (n ++ 0#2 ++ blk ++ f.code) }.put d old)
  | _ => none

/-- What a range of original words makes dynamic at the target of an emitted backward branch (R368). -/
def rangeEffect (e : Env) (w : DressWord) : Env :=
  match w with
  | .full _ i =>
    (match i with
     | .sys _ | .brk _ => { e.forget with nr := none, vt := none, rm := none }
     | .vrows .. | .vtype .. =>
       let e := { e with nr := none, vt := none }
       (match gDest i with | some d => e.put d none | none => e)
     | _ => afterEmitted e i)
  | .pair _ s0 _ s1 =>
    let one := fun (e : Env) (x : PSlot) =>
      match x.dest with
      | some (false, n) => e.put (BitVec.ofNat 6 n) none
      | _ => e
    one (one e s0) s1
  | .gctl d => e.put d none
  | .gquiet | .bad => e

/-- Reads an original word, entering it among those read. -/
def Dress.fetch (fetch : Word → Option (Word × Nat × Nat)) (pc : Word) (s : Dress) : Dress × Option Word :=
  match fetch pc with
  | none => (s, none)
  | some (w, vp, pp) =>
    if s.read.contains pc then (s, some w)
    else
      ({ s with read := pc :: s.read, pages := if s.pages.contains (vp, pp) then s.pages else (vp, pp) :: s.pages },
        some w)

/-- The effects of n original words from an address. -/
def Dress.range (f : Facts) (fetch : Word → Option (Word × Nat × Nat)) : Nat → Word → Env → Dress → Dress × Env
  | 0, _, e, s => (s, e)
  | n + 1, pc, e, s =>
    match s.fetch fetch pc with
    | (s, some w) => Dress.range f fetch n (pc + 8) (rangeEffect e (dressWord f.part w)) s
    | (s, none) => Dress.range f fetch n (pc + 8) e s

/-- The offset in words of an emitted branch or jump, and whether it may fall through. -/
def targetOf (i : Instr) : Option (BitVec 32 × Bool) :=
  match i with
  | .beq _ _ off | .bne _ _ off | .blt _ _ off | .bge _ _ off | .bltn _ _ off | .bgen _ _ off => some (off, true)
  | .bz _ off | .bnz _ off | .dbnz _ off => some (off, true)
  | .jal _ off => some (off, false)
  | _ => none

/-- Nothing follows in the residual code. -/
def endsPath (i : Instr) : Bool :=
  match i with
  | .exit | .trap _ | .tretGroup | .tretLaunch | .tretRestart | .tretResume | .jalr .. => true
  | _ => false

/-! One occurrence. -/

/-- What an occurrence comes to: the words written for it and the context that goes on inline, if one does. -/
structure Made where
  kind : ResidKind
  words : List Word
  next : Option Env
  target : Option Env
  back : Bool
  dyn : Nat

/-- The occurrence of a single instruction (R365 to R368, R371). `s` has read the range of a backward branch. -/
def oneFull (f : Facts) (fetch : Word → Option (Word × Nat × Nat)) (e : Env) (mark : Bool) (i : Instr) (w : Word)
    (s : Dress) : Dress × Made :=
  let flow := (targetOf i).isSome || (match i with | .jalr .. => true | _ => false)
  match afterShape e mark i with
  | some e' => (s, { kind := .instr, words := [w], next := some { e' with pc := e.pc + 8 }, target := none, back := false, dyn := 0 })
  | none =>
    match evaluate f e mark i with
    | some (writes, pc) =>
      let r := materialise e writes
      let back := flow && decide (pc.toNat ≤ e.pc.toNat)
      let falls := match targetOf i with | some (_, true) => pc == e.pc + 8 | _ => false
      let lv := if back then raiseLevel e.pc e.lv else if falls then dropLevel e.pc e.lv else e.lv
      (s, { kind := .mat, words := r.1, next := some { r.2 with pc := pc, lv := lv }, target := none, back := back, dyn := 0 })
    | none =>
      let dyn := if mark && dynamicIn f e i then 1 else 0
      let word := emittedWord e mark i w
      let e' := { afterEmitted e i with pc := e.pc + 8 }
      match targetOf i with
      | none =>
        (s, { kind := .instr, words := [word], next := if endsPath i then none else some e', target := none, back := false, dyn := dyn })
      | some (off, falls) =>
        let pc := e.pc + 8 * off.signExtend 64
        let t := { e' with pc := pc }
        let r : Dress × Env :=
          if falls && decide (pc.toNat ≤ e.pc.toNat) then
            let x := s.range f fetch ((e.pc.toNat - pc.toNat) / 8 + 1) pc t
            (x.1, { x.2 with pc := pc })
          else (s, t)
        (r.1, { kind := .instr, words := [word], next := if falls then some { e' with lv := dropLevel e.pc e.lv } else none,
                target := some r.2, back := false, dyn := dyn })

/-- The occurrence of a pair word (R369). -/
def onePair (f : Facts) (e : Env) (b0 : Bool) (s0 : PSlot) (b1 : Bool) (s1 : PSlot) (w : Word) : Made :=
  let one := fun (b : Bool) (x : PSlot) =>
    match slotFull x with
    | none => ([], if b && !f.breaks.contains e.pc then some ([] : List (GReg × Word)) else none, 0, (none : Option GReg))
    | some i =>
      (match evaluate f e b i with
       | some r => ([], some r.1, 0, none)
       | none =>
         ([emittedWord e b i ((encode b i).getD 0)], none, if b && dynamicIn f e i then 1 else 0, gDest i))
  let r0 := one b0 s0
  let r1 := one b1 s1
  let e' := match r0.2.2.2 with | some d => e.put d none | none => e
  let e' := match r1.2.2.2 with | some d => e'.put d none | none => e'
  let m := materialise { e' with pc := e.pc + 8 } (r0.2.1.getD [] ++ r1.2.1.getD [])
  let ws := if r0.2.1.isNone && r1.2.1.isNone then [w] else r0.1 ++ r1.1 ++ m.1
  { kind := if r0.2.1.isSome && r1.2.1.isSome then .mat else .instr, words := ws, next := some m.2, target := none, back := false, dyn := r0.2.2.1 + r1.2.2.1 }

/-- The most residual words (R372). -/
def Dress.room (s : Dress) : Nat := min (8 * s.read.length) 32768

/-- The words that the contexts still pending take where evaluation stops, a transfer each (R372). -/
def Dress.owed (s : Dress) : Nat := s.pending.length

/-- Takes an occurrence into the residual code, or stops at a limit with a transfer. The transfers count in the size (R372;
DEDUCED, log 92). -/
def Dress.take (s : Dress) (e : Env) (o : Made) : Dress × Option Env :=
  if o.back && decide (4096 ≤ s.unroll) then ({ s.transfer e with limit := 1 }, none)
  else if s.room < s.n + o.words.length + s.owed + bitN o.next.isSome + bitN o.target.isSome then
    ({ s.transfer e with limit := 2 }, none)
  else
    let k := s.n + o.words.length - 1
    let s := { s.emit e o.kind o.words with
      places := (e, s.n) :: s.places, unroll := s.unroll + (if o.back then 1 else 0), dyn := s.dyn + o.dyn }
    let s := match o.target with | some t => s.link k t | none => s
    (s, o.next)

/-- One occurrence of a context (R368): a context that recurs shares its code through a jump. -/
def Dress.one (f : Facts) (fetch : Word → Option (Word × Nat × Nat)) (e : Env) (s : Dress) : Dress × Option Env :=
  if s.places.any fun x => x.1 == e then
    ((s.emit e .jump [packI false 0x19 { minor := 0 }]).link s.n e, none)
  else if 1000000 ≤ s.steps then ({ s.transfer e with limit := 3 }, none)
  else
    let s := { s with steps := s.steps + 1 }
    match s.fetch fetch e.pc with
    | (s, none) => (s.transfer e, none)
    | (s, some w) =>
      match dressWord f.part w with
      | .full mark i =>
        let r := oneFull f fetch e mark i w s
        r.1.take e r.2
      | .pair b0 s0 b1 s1 => s.take e (onePair f e b0 s0 b1 s1 w)
      | .gctl d => s.take e { kind := .instr, words := [w], next := some { e.put d none with pc := e.pc + 8 }, target := none, back := false, dyn := 0 }
      | .gquiet => s.take e { kind := .instr, words := [w], next := some { e with pc := e.pc + 8 }, target := none, back := false, dyn := 0 }
      | .bad => s.take e { kind := .instr, words := [w], next := none, target := none, back := false, dyn := 0 }

/-- Occurrences inline until the path ends, then pending contexts in the order first met (R368). -/
def Dress.run (f : Facts) (fetch : Word → Option (Word × Nat × Nat)) : Nat → Option Env → Dress → Dress
  | 0, _, s => s
  | n + 1, e, s =>
    if s.limit ≠ 0 then s
    else
      match e with
      | some e =>
        let r := s.one f fetch e
        Dress.run f fetch n r.2 r.1
      | none =>
        match s.pending with
        | [] => s
        | e :: t =>
          let s := { s with pending := t }
          Dress.run f fetch n (if s.places.any (fun x => x.1 == e) then none else some e) s

/-- Every pending context is a transfer once a limit is reached (R372). -/
def Dress.finish : List Env → Dress → Dress
  | [], s => s
  | e :: t, s => Dress.finish t (if s.places.any (fun x => x.1 == e) then s else s.transfer e)

/-- A residual branch or jump with the place it goes to (R370). -/
def Resid.aim (k t : Nat) (r : Resid) : Resid :=
  { r with word := (r.word &&& ~~~0xFFFFFFFF) ||| ((BitVec.ofInt 32 ((t : Int) - k)).setWidth 64) }

/-- The residual code with every branch and jump aimed. -/
def aimAll (places : List (Env × Nat)) : List (Nat × Env) → List Resid → List Resid
  | [], out => out
  | (k, e) :: t, out =>
    match places.find? (fun x => x.1 == e), out[k]? with
    | some x, some r => aimAll places t (out.set k (r.aim k x.2))
    | _, _ => aimAll places t out

/-- What an evaluation gives: residual code, the pages it read, and its report with status 0 (R383). -/
structure Dressed where
  code : List Resid
  pages : List (Nat × Nat)
  report : Word

/-- THE DRESSER (R363 to R373): the residual code of a launch's entry at a code address. -/
def dress (f : Facts) (fetch : Word → Option (Word × Nat × Nat)) (code : Word) : Dressed :=
  let e := Env.start code
  let s : Dress := { out := [], n := 0, places := [], pending := [], met := [e], fixes := [], read := [], pages := [],
                     steps := 0, unroll := 0, dyn := 0, limit := 0 }
  let s := Dress.run f fetch 2100000 (some e) s
  let s := Dress.finish s.pending s
  { code := aimAll s.places s.fixes s.out.reverse, pages := s.pages,
    report := BitVec.ofNat 64
      (min s.dyn 0xFFFF * 2 ^ 48 + s.unroll * 2 ^ 32 + s.n * 2 ^ 16 + s.limit * 2 ^ 8) }

end Sys2Proof.Machine
end

