-- ==== Sys2Proof/Machine/Hash.lean ====
section
/-!
DEFINITION. SHA-256 and SHA-384 (FIPS 180-4), which the spec names for the result digest (R464), the breakpoint digest of
a specialisation key (R374) and the attestation report (R470). Both are one function over a word width; the constants are
the fractions of roots of the first primes that the standard defines.
-/

namespace Sys2Proof.Machine

/-- The largest r, built from its bits, with r to the k at most n. -/
def rootOf (k n : Nat) : Nat → Nat → Nat
  | 0, r => r
  | b + 1, r => rootOf k n b (if (r + 2 ^ b) ^ k ≤ n then r + 2 ^ b else r)

/-- The first 80 primes. -/
def shaPrimes : List Nat :=
  [2, 3, 5, 7, 11, 13, 17, 19, 23, 29, 31, 37, 41, 43, 47, 53, 59, 61, 67, 71, 73, 79, 83, 89, 97, 101, 103, 107, 109, 113]
    ++ [127, 131, 137, 139, 149, 151, 157, 163, 167, 173, 179, 181, 191, 193, 197, 199, 211, 223, 227, 229, 233, 239]
    ++ [241, 251, 257, 263, 269, 271, 277, 281, 283, 293, 307, 311, 313, 317, 331, 337, 347, 349, 353, 359, 367, 373]
    ++ [379, 383, 389, 397, 401, 409]

/-- The first w bits of the fraction of a prime's cube root. -/
def shaRound (w p : Nat) : BitVec w := BitVec.ofNat w (rootOf 3 (p * 2 ^ (3 * w)) (w + 4) 0)

/-- The first w bits of the fraction of a prime's square root. -/
def shaStart (w p : Nat) : BitVec w := BitVec.ofNat w (rootOf 2 (p * 2 ^ (2 * w)) (w + 5) 0)

/-- What the two functions differ in: word width, rounds, rotations (the third of a small sigma shifts), and the number of
the first prime of the starting words. -/
structure ShaKind where
  w : Nat
  rounds : Nat
  bigA : Nat × Nat × Nat
  bigE : Nat × Nat × Nat
  smallA : Nat × Nat × Nat
  smallB : Nat × Nat × Nat
  first : Nat

def sha256Kind : ShaKind :=
  { w := 32, rounds := 64, bigA := (2, 13, 22), bigE := (6, 11, 25), smallA := (7, 18, 3), smallB := (17, 19, 10), first := 0 }
def sha384Kind : ShaKind :=
  { w := 64, rounds := 80, bigA := (28, 34, 39), bigE := (14, 18, 41), smallA := (1, 8, 7), smallB := (19, 61, 6), first := 8 }

/-- Three rotations, exclusive-or. -/
def bigSigma {w : Nat} (r : Nat × Nat × Nat) (x : BitVec w) : BitVec w :=
  x.rotateRight r.1 ^^^ x.rotateRight r.2.1 ^^^ x.rotateRight r.2.2

/-- Two rotations and a shift, exclusive-or. -/
def smallSigma {w : Nat} (r : Nat × Nat × Nat) (x : BitVec w) : BitVec w :=
  x.rotateRight r.1 ^^^ x.rotateRight r.2.1 ^^^ (x >>> r.2.2)

/-- A big-endian word from bytes. -/
def beWord (w : Nat) : List Byte → BitVec w → BitVec w
  | [], x => x
  | b :: t, x => beWord w t ((x <<< 8) ||| b.setWidth w)

/-- The n bytes of a word, highest first. -/
def beBytes {w : Nat} : Nat → BitVec w → List Byte
  | 0, _ => []
  | n + 1, x => (x >>> (8 * n)).setWidth 8 :: beBytes n x

/-- The words of a block: sixteen of the message, then each from the last sixteen. The window holds the last sixteen,
newest first. -/
def shaSchedule (k : ShaKind) : Nat → List (BitVec k.w) → List (BitVec k.w)
  | 0, _ => []
  | n + 1, win =>
    let x := smallSigma k.smallB (win.getD 1 0) + win.getD 6 0 + smallSigma k.smallA (win.getD 14 0) + win.getD 15 0
    x :: shaSchedule k n (x :: win.take 15)

/-- One round on the eight working words. -/
def shaStep (k : ShaKind) (v : List (BitVec k.w)) (kw : BitVec k.w) : List (BitVec k.w) :=
  match v with
  | [a, b, c, d, e, f, g, h] =>
    let t1 := h + bigSigma k.bigE e + ((e &&& f) ^^^ (~~~e &&& g)) + kw
    let t2 := bigSigma k.bigA a + ((a &&& b) ^^^ (a &&& c) ^^^ (b &&& c))
    [t1 + t2, a, b, c, d + t1, e, f, g]
  | _ => v

/-- The words of a block's bytes. -/
def blockWords (w : Nat) : Nat → List Byte → List (BitVec w)
  | 0, _ => []
  | n + 1, bs => beWord w (bs.take (w / 8)) 0 :: blockWords w n (bs.drop (w / 8))

/-- Compresses one block. -/
def shaBlock (k : ShaKind) (ks hash : List (BitVec k.w)) (block : List Byte) : List (BitVec k.w) :=
  let ws := blockWords k.w 16 block
  let all := ws ++ shaSchedule k (k.rounds - 16) ws.reverse
  let v := (all.zip ks).foldl (fun v x => shaStep k v (x.1 + x.2)) hash
  (hash.zip v).map fun x => x.1 + x.2

/-- Compresses n blocks. -/
def shaBlocks (k : ShaKind) (ks : List (BitVec k.w)) : Nat → List Byte → List (BitVec k.w) → List (BitVec k.w)
  | 0, _, hash => hash
  | n + 1, bs, hash => shaBlocks k ks n (bs.drop (2 * k.w)) (shaBlock k ks hash (bs.take (2 * k.w)))

/-- The padded message: a one bit, zeros, and the length in bits. -/
def shaPad (w : Nat) (bs : List Byte) : List Byte :=
  let used := bs.length + 1 + w / 4
  let zeros := (2 * w - used % (2 * w)) % (2 * w)
  bs ++ [0x80] ++ List.replicate zeros 0 ++ beBytes (w / 4) (BitVec.ofNat (2 * w) (8 * bs.length))

/-- The hash of a message as bytes, eight words of it. -/
def shaBytes (k : ShaKind) (bs : List Byte) : List Byte :=
  let ks := (shaPrimes.take k.rounds).map (shaRound k.w)
  let start := ((shaPrimes.drop k.first).take 8).map (shaStart k.w)
  let m := shaPad k.w bs
  (shaBlocks k ks (m.length / (2 * k.w)) m start).flatMap (beBytes (k.w / 8))

/-- SHA-256. -/
def sha256 (bs : List Byte) : List Byte := shaBytes sha256Kind bs

/-- SHA-384. -/
def sha384 (bs : List Byte) : List Byte := (shaBytes sha384Kind bs).take 48

end Sys2Proof.Machine
end

