-- ==== Sys2Proof/Machine/Queue.lean ====
section
/-!
DEFINITION. Hardware queues (R435, R439 to R445): finding a queue, launch ids (R133), the order of packets with skips
(R443), repetitions (R444) and indirect buffers (R445), placing packets, and stopping.
-/

namespace Sys2Proof.Machine

/-- A queue after reset (R435, R21). -/
def Queue.init : Queue :=
  { base := 0, en := false, priv := false, prio := 0, sz := 0, tail := 0, head := 0, err := 0, stop := false, buf := [],
    started := [], skip := 0, skipLevel := 0, left := 32768, watch := none }

/-- A queue of a partition. -/
def State.queue? (s : State) (part q : Nat) : Option Queue :=
  match AMap.find? s.parts part with
  | none => none
  | some p => AMap.find? p.queues q

/-- The queue of a partition that takes packets: enabled and not stopped. -/
def State.openQueue (s : State) (part q : Nat) : Option Queue :=
  match s.queue? part q with
  | some x => if x.en && !x.stop then some x else none
  | none => none

/-- Changes a queue of a partition. -/
def State.onQueue (s : State) (part q : Nat) (f : Queue → Queue) : State :=
  s.onPart part fun p =>
    match AMap.find? p.queues q with
    | some x => { p with queues := AMap.put p.queues q (f x) }
    | none => p

/-- A packet that takes room: one of the ring or of a hart, and no copy of a LOOP (R435). -/
def Packet.takesRoom (p : Packet) : Bool := p.level == 0 && p.form == .plain && !p.rep

/-- The packets of a queue's buffer that take room: a WAIT-VALUE whose condition has been evaluated has started (R435,
R441, R442). -/
def Queue.used (q : Queue) : Nat :=
  ((if q.watch.isSome then q.buf.tail else q.buf).filter Packet.takesRoom).length

/-- The kind of a packet (R440). -/
def kindOf (words : List Word) : Nat := (words.headD 0).toNat % 256

/-- The launch id that a packet receives as it is taken into a buffer: only a LAUNCH packet takes one (R133). -/
def State.takeLid (s : State) (words : List Word) : State × Nat :=
  if kindOf words = 1 then ({ s with nextLid := s.nextLid + 1 }, s.nextLid) else (s, 0)

/-- Packets taken into a buffer in order. -/
def takePackets (level : Nat) (by_ : Option Nat) (rep : Bool) : List (List Word) → State → State × List Packet
  | [], s => (s, [])
  | ws :: t, s =>
    let x := s.takeLid ws
    let y := takePackets level by_ rep t x.1
    (y.1, { words := ws, level := level, lid := x.2, by_ := by_, rep := rep, form := .plain } :: y.2)

/-- Without the entries of deeper levels at the front: what was fetched for an INDIRECT that is skipped (R443). -/
def dropDeeper (level : Nat) : List Packet → List Packet
  | [] => []
  | p :: t => if level < p.level then dropDeeper level t else p :: t

/-- One move toward the next packet to start: the end of a skip with its buffer, a fetched-out indirect buffer, the next
repetition of a LOOP, a skipped packet. None where the head is a packet to start or one not fetched yet. -/
def State.pumpOne (s : State) (part q : Nat) : Option State :=
  match s.queue? part q with
  | none => none
  | some x =>
    match x.buf with
    | [] => none
    | p :: t =>
      if x.skip ≠ 0 ∧ p.level < x.skipLevel then some (s.onQueue part q fun y => { y with skip := 0 })
      else
        match p.form with
        | .rest _ n => if n = 0 then some (s.onQueue part q fun y => { y with buf := t }) else none
        | .again ps n =>
          if n = 0 then some (s.onQueue part q fun y => { y with buf := t })
          else
            let r := takePackets p.level p.by_ true ps s
            some (r.1.onQueue part q fun y => { y with buf := r.2 ++ { p with form := .again ps (n - 1) } :: t })
        | .plain =>
          if x.skip ≠ 0 ∧ p.level = x.skipLevel then
            some (s.onQueue part q fun y =>
              { y with buf := dropDeeper p.level t, skip := x.skip - 1,
                       started := y.started ++ [{ pkt := p, done := true, todo := 0 }] })
          else none

/-- Brings the next packet to start to the head of a queue; a skip counts at most 255 packets (R443). -/
def State.pump (part q : Nat) : Nat → State → State
  | 0, s => s
  | n + 1, s =>
    match s.pumpOne part q with
    | some s => State.pump part q n s
    | none => s

/-- Appends packets at level 0 after every packet of a queue's buffer (R435, R447). -/
def State.placePackets (s : State) (part q : Nat) (by_ : Option Nat) (pkts : List (List Word)) : State × List Packet :=
  let x := takePackets 0 by_ false pkts s
  (State.pump part q 1024 (x.1.onQueue part q fun y => { y with buf := y.buf ++ x.2 }), x.2)

/-- Places a packet of a hart. Answers its launch id. -/
def State.placePacket (s : State) (part q : Nat) (words : List Word) (hid : Nat) : State × Nat :=
  let x := s.placePackets part q (some hid) [words]
  (x.1, (x.2.map Packet.lid).headD 0)

/-- A queue stops with an error; the stop is recorded (R437, R439, R442, R449). -/
def State.stopQueue (s : State) (part q err : Nat) : State :=
  (s.onQueue part q fun x => { x with stop := true, err := err }).logError part 2
    [BitVec.ofNat 64 q, BitVec.ofNat 64 err]

/-- The hart that placed a packet is told of it at its next stop (R404). -/
def State.tell (s : State) (by_ : Option Nat) (e : Nat × Nat × Nat) : State :=
  match by_ with
  | some h => s.onHart h fun x => { x with evts := x.evts ++ [e] }
  | none => s

/-- The doublewords of a list of bytes. -/
def wordsOf : Nat → List Byte → List Word
  | 0, _ => []
  | n + 1, bs => leWord (bs.take 8) :: wordsOf n (bs.drop 8)

end Sys2Proof.Machine
end

