-- ==== Sys2Proof/Machine/SpecCache.lean ====
section
/-!
DEFINITION. The specialisation cache of a die (R374 to R377, R381, R383): key records, lookup, room and pins, copies on
other dies, and what a launch's harts start on.
-/

namespace Sys2Proof.Machine

/-- The translation root of a partition as troot reads it (R218, R400). -/
def rootWord (root : Nat) : Word := wordN (root % 2 ^ 52 / 4096 * 4096)

/-- The first 128 bits of SHA-256 over breakpoint PCs in ascending order, as two words; zero for none (R374). -/
def breakDigest (breaks : List Word) : List Word :=
  if breaks = [] then [0, 0]
  else
    let d := sha256 (breaks.flatMap (wordBytes 8))
    [leWord (d.take 8), leWord ((d.drop 8).take 8)]


/-- The key record of a launch (R374). -/
def State.keyRecord (s : State) (l : Launch) : List Word :=
  let p := AMap.find? s.parts l.part
  let feat := ((shapeReg s.part false 0xFF).getD 0).toNat
  let shid := ((shapeReg s.part l.ordered 0).getD 0).toNat
  let mode := bitN l.ordered + 2 * bitN l.strict + 4 * bitN l.sealed.isSome
  let w3 := l.nargs * 2 ^ 56 + mode * 2 ^ 48 + shid % 2 ^ 16 * 2 ^ 32 + feat / 2 ^ 32 % 2 ^ 16 * 2 ^ 16
  [l.code, rootWord ((p.map Partition.root).getD 0), l.smask, wordN w3] ++ breakDigest ((p.map Partition.breaks).getD [])
    ++ ((List.range 64).filter fun i => l.smask.getLsbD i).map fun i => l.args.getD i 0

/-- Bytes that an entry occupies (R376). -/
def SpecEntry.size (e : SpecEntry) : Nat := 24 * e.code.length + 256

/-- Bytes that entries occupy. -/
def specBytes (es : List SpecEntry) : Nat := (es.map SpecEntry.size).sum

/-- The unpinned entry that was used least recently. -/
def oldestEntry : List SpecEntry → Option SpecEntry
  | [] => none
  | e :: t =>
    match oldestEntry t with
    | none => if e.pins.isEmpty then some e else none
    | some x => if e.pins.isEmpty && decide (e.used ≤ x.used) then some e else some x

/-- Replaces unpinned entries, least recently used first, until a number of bytes fit (R376). -/
def makeSpecRoom (need : Nat) : Nat → List SpecEntry → Option (List SpecEntry)
  | 0, _ => none
  | n + 1, es =>
    if specBytes es + need ≤ 8388608 then some es
    else
      match oldestEntry es with
      | none => none
      | some x => makeSpecRoom need n (es.filter (· != x))

/-- A die that takes an entry, where it has room beside the pinned ones (R376). -/
def Die.takeIn (d : Die) (e : SpecEntry) : Option Die :=
  match makeSpecRoom e.size (d.spec.length + 1) d.spec with
  | some es => some { d with spec := es ++ [e] }
  | none => none

/-- A valid entry of a partition with a whole key record (R374, R377); sealed launches share none (R376). -/
def State.lookup (s : State) (die part : Nat) (key : List Word) : Option SpecEntry :=
  (s.die die).spec.find? fun e => e.part == part && e.key == key && !e.hidden

/-- The report of a launch on a die, with its status (R383). -/
def State.setReport (s : State) (lid die : Nat) (fields : Word) (status : Nat) : State :=
  s.onLaunch lid fun l => { l with reports := AMap.put l.reports die ((fields &&& ~~~0xF) ||| wordN status) }

/-- Pins the entries of a die that a test selects for a launch, and marks them used (R376). -/
def State.pin (s : State) (die lid : Nat) (p : SpecEntry → Bool) : State :=
  s.onDie die fun d =>
    { d with spec := d.spec.map fun e => if p e then { e with pins := lid :: e.pins, used := s.tick } else e }

/-- The entry that a launch pins is still valid where it stands (R376, R377). -/
def State.entryValid (s : State) (lid : Nat) : Bool :=
  s.dies.any fun (x : Nat × Die) => x.2.spec.any fun e => e.pins.contains lid && !e.hidden

/-- The entry that a launch uses on a die, as its residual code; the die takes a copy of the launch's entry where it has
none yet, and without one the original code runs (R375, R381). A copy of an entry that is invalid by then is as hidden
(R377). -/
def State.entryOn (s : State) (lid die : Nat) : State × List Resid :=
  match AMap.find? s.launches lid with
  | none => (s, [])
  | some l =>
    match l.entry with
    | none => if (AMap.find? l.reports die).isSome then (s, []) else (s.setReport lid die 0 (if l.nospec then 2 else 3), [])
    | some e =>
      if (s.die die).spec.any (fun x => x.pins.contains lid) then (s, e.code)
      else if (AMap.find? l.reports die).isSome then (s, [])
      else
        match (s.die die).takeIn { e with pins := [lid], used := s.tick, hidden := e.hidden || !s.entryValid lid } with
        | some d => (({ s with dies := AMap.put s.dies die d }).setReport lid die e.report 4, e.code)
        | none => (s.setReport lid die 0 3, [])

/-- Entries no launch uses any more: the hidden ones are freed (R382). -/
def Die.sweepSpec (d : Die) : Die := { d with spec := d.spec.filter fun e => !(e.hidden && e.pins.isEmpty) }

/-- A retired launch pins nothing; a sealed one's entries are wiped (R376). -/
def State.unpin (s : State) (lid : Nat) (wipe : Bool) : State :=
  { s with dies := s.dies.map fun (x : Nat × Die) =>
      let kept := if wipe then x.2.spec.filter (fun e => !e.pins.contains lid) else x.2.spec
      let d := { x.2 with spec := kept.map fun (e : SpecEntry) => { e with pins := e.pins.filter (· != lid) } }
      (x.1, d.sweepSpec) }

/-! Evaluation. -/

/-- An original word as a Dresser reads it: committed, with its virtual and physical page (R373). -/
def fetchFor (s : State) (part : Nat) (sealed : Option Nat) (pc : Word) : Option (Word × Nat × Nat) :=
  match resolveEa s none part sealed .fetch pc with
  | .ok p => if s.badPa p.pa || p.cls == 1 then none else some (s.dword p.pa, pc.toNat / 4096, p.pa / 4096)
  | .error _ => none

/-- What the evaluation of a launch depends on. -/
def State.factsOf (s : State) (l : Launch) : Facts :=
  { part := s.part, ordered := l.ordered, nargs := l.nargs, smask := l.smask, args := l.args,
    breaks := ((AMap.find? s.parts l.part).map Partition.breaks).getD [] }

/-- The entry that a die's Dresser makes for a launch (R365 to R373). -/
def State.evaluateFor (s : State) (l : Launch) : SpecEntry :=
  let d := dress (s.factsOf l) (fetchFor s l.part l.sealed) l.code
  { part := l.part, key := s.keyRecord l, code := d.code, used := s.tick, read := d.pages, pins := [], hidden := false,
    report := d.report }

/-- A hart that waited for residual code starts, in it or in the original code, with the frame of its first phase there
(R121, R258). -/
def Hart.start (code : List Resid) (h : Hart) : Hart :=
  let h := { h with status := .running, code := code }
  let h := if code.isEmpty then h else h.atResid 0
  { h with frame := h.ctx.frame h.pts false false }

/-- Starts the harts of a launch that wait for its entry, die by die (R375). -/
def State.startPending (lid : Nat) : List Nat → State → State
  | [], s => s
  | die :: t, s =>
    let mine := fun (h : Hart) => h.lid == lid && h.status == .pending && h.core / 32 == die
    let s :=
      if s.harts.any mine then
        let r := s.entryOn lid die
        r.1.mapHarts fun h => if mine h then h.start r.2 else h
      else s
    State.startPending lid t s

/-- The first lookup or evaluation of a launch has fixed its entry (R375): other dies follow. -/
def State.fixEntry (s : State) (lid : Nat) (e : Option SpecEntry) : State :=
  State.startPending lid [0, 1, 2, 3] (s.onLaunch lid fun l => { l with looked := true, eval := none, entry := e })

/-- The first placement of a launch on a die: a hit fixes its entry, a miss makes the die's Dresser evaluate (R375). -/
def State.firstLookup (s : State) (lid die : Nat) : State :=
  match AMap.find? s.launches lid with
  | none => s
  | some l =>
    if l.looked || l.eval.isSome then s
    else if l.nospec then s.onLaunch lid fun l => { l with looked := true }
    else
      match (if l.sealed.isSome then none else s.lookup die l.part (s.keyRecord l)) with
      | some e =>
        let s := s.pin die lid fun x => x == e
        (s.setReport lid die e.report 0).onLaunch lid fun l => { l with looked := true, entry := some e }
      | none => s.onLaunch lid fun l => { l with eval := some die }

/-- The hart without residual code: it goes on in the original code at the original PC where it stands, and so do its
phase frame and its handler frame (R381). -/
def Hart.dropCode (h : Hart) : Hart :=
  let h := if h.ctx.resid.isSome then h.leaveTo h.ctx.pc else h
  let f := if h.frame.resid.isSome then { h.frame with resid := none, iter := 0 } else h.frame
  { h with code := [], frame := f,
           hframe := h.hframe.map fun x =>
             if x.ctx.resid.isSome then { x with ctx := { x.ctx with resid := none, iter := 0 } } else x }

/-- Harts of a group in residual code that resume on a die: the die holds the launch's entry, or takes a copy, or the
original code goes on (R375, R381). -/
def State.recode (s : State) (lid grp die : Nat) : State :=
  let mine := fun (h : Hart) => h.lid == lid && h.grp == grp && !h.code.isEmpty
  if s.harts.any mine then
    let r := s.entryOn lid die
    if r.2.isEmpty then r.1.mapHarts fun h => if mine h then h.dropCode else h else r.1
  else s

/-- The result of an evaluation for one launch that waited for it: its own or a shared one (R375, R383). -/
def State.settleEval (s : State) (lid die : Nat) (e : SpecEntry) (room : Bool) (status : Nat) : State :=
  if room then
    let s := s.pin die lid fun x => x.part == e.part && x.key == e.key && x.used == e.used && !x.hidden
    (s.setReport lid die e.report status).fixEntry lid (some e)
  else (s.setReport lid die e.report 3).fixEntry lid none

/-- DRESSER_EVALUATION (R365, R375): the die's Dresser has evaluated for a launch that missed its cache; launches of the
same record that wait there share the evaluation. -/
def execDresserEvaluation (lid die : Nat) (s : State) : Host.Outcome State Fault Refusal :=
  match AMap.find? s.launches lid with
  | none => .refused (.notEnabled "DRESSER_EVALUATION")
  | some l =>
    if l.eval ≠ some die then .refused (.notEnabled "DRESSER_EVALUATION")
    else
      let e := s.evaluateFor l
      let others := (List.filter (fun (x : Nat × Launch) =>
        x.1 != lid && x.2.eval == some die && x.2.part == l.part && x.2.sealed.isNone && l.sealed.isNone
          && s.keyRecord x.2 == e.key) s.launches).map (·.1)
      let r : State × Bool := match (s.die die).takeIn e with
        | some d => ({ s with dies := AMap.put s.dies die d }, true)
        | none => (s, false)
      let s := r.1.settleEval lid die e r.2 1
      .next (others.foldl (fun s k => s.settleEval k die e r.2 (if r.2 then 0 else 3)) s)

end Sys2Proof.Machine
end

