-- ==== Sys2Proof/Machine/Placement.lean ====
section
/-!
DEFINITION. Room on a core for a saved group (R14, R15, R276, R278, R319, R321): giving it up, taking it again, and moving the
group to another core with its rings; and events that bring a hart to the front.
-/

namespace Sys2Proof.Machine

/-- The harts of a group that have not exited. -/
def State.groupHarts (s : State) (lid grp : Nat) : List Hart :=
  s.harts.filter fun h => h.lid == lid && h.grp == grp && h.status != .exited

/-! Rings of a group (R319). -/

/-- A transfer of the group is claiming or filling a slot. -/
def State.ringsBusy (s : State) (core lid grp : Nat) : Bool :=
  List.any (s.core core).rings fun (x : Nat × Ring) =>
    x.2.lid == lid && x.2.grp == grp && (x.2.claimed != 0 || !x.2.waiters.isEmpty)

/-- The rings of a group on a core, by number. -/
def Core.ringsOf (c : Core) (lid grp : Nat) : List (Nat × Ring) :=
  List.filter (fun (x : Nat × Ring) => x.2.lid == lid && x.2.grp == grp) c.rings

/-- A ring fits a core: its number is free there and its region overlaps none (R314, R319). -/
def ringFits (c : Core) (x : Nat × Ring) : Bool :=
  (AMap.find? c.rings x.1).isNone && List.all c.rings fun (y : Nat × Ring) =>
    decide (x.2.off + x.2.size * x.2.count ≤ y.2.off) || decide (y.2.off + y.2.size * y.2.count ≤ x.2.off)

/-- A core without a ring. -/
def Core.dropRing (c : Core) (x : Nat × Ring) : Core := { c with rings := AMap.erase c.rings x.1 }

/-- A core with a ring under its number, and its region with the bytes it had on another core. -/
def Core.putRing (from_ c : Core) (x : Nat × Ring) : Core :=
  let inside := fun (k : Nat) => decide (x.2.off ≤ k) && decide (k < x.2.off + x.2.size * x.2.count)
  { c with
    rings := AMap.put c.rings x.1 x.2,
    stage := (AMap.keep inside from_.stage).foldl (fun m (y : Nat × Byte) => Sparse.set m y.1 y.2)
      (AMap.keep (fun k => !inside k) c.stage) }

/-- The rings of a group move to another core with their counts, positions and regions (R319). -/
def State.moveRings (s : State) (from_ core lid grp : Nat) : State :=
  let c := s.core from_
  let mine := c.ringsOf lid grp
  if mine.isEmpty ∨ from_ = core then s
  else
    (s.onCore from_ fun x => mine.foldl Core.dropRing x).onCore core fun x => mine.foldl (fun y r => c.putRing y r) x

/-! The save area of tiles and slices (R278, R321). -/

/-- The bytes that a tile takes in a save area: 640 for each column (R275; DESIGN CHOICE, log 46). -/
def Hart.tileSaveBytes (h : Hart) : Nat := 640 * h.tw

/-- The bytes that a slice takes in a save area: sixteen for each entry (DESIGN CHOICE, log 46). -/
def Hart.sliceSaveBytes (h : Hart) : Nat := 16 * h.xcap

/-- Tiles with places from an address on: a void tile has nothing to write, and one that is not in the store stays where it
is. -/
def saveTiles (n : Nat) : Nat → List Tile → List Tile
  | _, [] => []
  | pa, t :: u => (if t.void ∨ t.place ≠ .here then t else { t with place := .away pa }) :: saveTiles n (pa + n) u

/-- The bytes that a hart takes in a save area. -/
def Hart.areaBytes (h : Hart) : Nat := h.tiles.length * h.tileSaveBytes + h.sliceSaveBytes

/-- The hart's tiles and slice lie at an address, and their room is free. -/
def Hart.giveRoom (pa : Nat) (h : Hart) : Hart :=
  { h with
    room := false, tiles := saveTiles h.tileSaveBytes pa h.tiles,
    xPlace := if h.xents.isEmpty ∨ h.xPlace ≠ .here then h.xPlace else .away (pa + h.tiles.length * h.tileSaveBytes) }

/-- Writes the tiles and slices of harts to a save area, one hart after another, and frees their room (R278). -/
def saveHarts : List Hart → Nat → State → State
  | [], _, s => s
  | h :: t, pa, s => saveHarts t (pa + h.areaBytes) (s.onHart h.hid (Hart.giveRoom pa))

/-- The harts of a group give up their room; what they held lies in an area from an address on (R278, R321). -/
def State.lazySave (s : State) (lid grp area : Nat) : State :=
  let hs := s.groupHarts lid grp
  let n := (hs.map Hart.areaBytes).sum
  saveHarts hs area (if n = 0 then s else s.putArea area (area + n))

/-- Nothing of the group's tiles and slices lies in the store of its core (R278). -/
def Hart.emptyHere (h : Hart) : Bool :=
  (h.tiles.all fun t => t.void || t.place != .here) && (h.xents.isEmpty || h.xPlace != .here)

/-! Taking room, and moving. -/

/-- Room that a group needs on a core which does not hold it: slots where it has none there, its allotments, and for its rings
their numbers and regions (R15, R319). -/
def State.groupFits (s : State) (lid grp core : Nat) : Bool :=
  let hs := s.harts.filter fun h => h.lid == lid && h.grp == grp
  let away := hs.any fun h => h.core != core
  let needSlots := away || hs.any s.evicted
  let needRoom := if away then hs else hs.filter fun h => !h.room
  s.hasRoom core (if needSlots then hs.length else 0) ((needRoom.map Hart.tileBytes).sum) ((needRoom.map (·.xcap)).sum)
    && (!away || hs.all fun h => h.core == core || ((s.core h.core).ringsOf lid grp).all (ringFits (s.core core)))

/-- Gives the harts of a group slots of a core in ascending order of their index. -/
def assignSlots (lid grp core : Nat) : List Nat → Nat → State → State
  | [], _, s => s
  | k :: t, i, s =>
    assignSlots lid grp core t (i + 1)
      (s.mapHarts fun h => if h.lid = lid ∧ h.grp = grp ∧ h.idx = i then { h with core := core, slot := k } else h)

/-- The group with its room taken on a core: slots, allotments and rings; the launch's residual code is at hand on the core's
die, or the original code goes on (R120, R126, R278, R319, R381). -/
def State.settleGroup (s : State) (lid grp core : Nat) : State :=
  let hs := s.harts.filter fun h => h.lid == lid && h.grp == grp
  let old := (hs.map (·.core)).headD core
  let s := s.moveRings old core lid grp
  let s := if hs.any (fun h => h.core != core || s.evicted h)
    then assignSlots lid grp core (s.slotsFree core) 0 s else s
  let s := s.onLaunch lid fun l => { l with evicted := l.evicted.filter (· != grp) }
  let s := s.mapHarts fun h => if h.lid = lid ∧ h.grp = grp then { h with room := true } else h
  ((s.recode lid grp (dieOfCore core)).reearmark old).reearmark core

/-- Every hart of a group is saved, and none waits for a page. -/
def State.groupSaved (s : State) (lid grp : Nat) : Bool := (s.groupHarts lid grp).all fun h => h.status == .saved

/-- A group may leave its core: it is saved whole, its tiles and slices are out of the store, and no transfer claims or fills
a slot (R120, R278, R319). -/
def State.mayMove (s : State) (lid grp : Nat) : Bool :=
  s.groupSaved lid grp && (s.groupHarts lid grp).all fun h => h.emptyHere && !s.ringsBusy h.core lid grp

/-- A group may be on a core as far as room, its die and a move there go (R119, R120). -/
def State.mayTake (s : State) (l : Launch) (grp core : Nat) : Bool :=
  let hs := s.groupHarts l.lid grp
  decide (core < coreCount s.part) && s.groupFits l.lid grp core
    && (hs.all (fun h => h.core == core) || (s.mayMove l.lid grp && s.dieAllows l (l.field1 (workId l.hdr grp 0)) core))

/-- Saved harts of a group wait to resume on a core, and count there (R399). -/
def State.aimAt (s : State) (core : Nat) (p : Hart → Bool) : State :=
  let cores := ((s.harts.filter p).flatMap fun h => h.core :: h.target.toList) ++ [core]
  (s.mapHarts fun h => if p h then { h with target := some core } else h).earmarkAll cores

/-- Resumes saved harts together; answers whether each could have its grant (R184, R399). A frame that fails its check takes
the frame error (R398). -/
def resumeAll : List Nat → M Bool
  | [] => pure true
  | k :: t => do
    match (← get).hart? k with
    | none => resumeAll t
    | some h =>
      if h.status != .saved then resumeAll t
      else if !(← get).frameFits h false then
        modify fun s => s.with_ k fun s => s.takeTrap 30 s.cur.tfb s.cur.ctx.pc 0
        resumeAll t
      else if (← get).canResume h then
        withHart k resumeFront
        resumeAll t
      else pure false

/-- A group that a scheduler gives a core on which it has no room: it settles there and all its harts resume together, where
each can have its grant; else its saved harts only count there (R120, R126, R399). Answers whether it settled. -/
def settleAndResume (lid grp core : Nat) : M Bool := do
  let s ← get
  let ids := (s.groupHarts lid grp).map (·.hid)
  set ((s.settleGroup lid grp core).aimAt core fun h => ids.contains h.hid && h.status == .saved)
  if ← resumeAll ids then return true
  else
    set (s.aimAt core fun h => ids.contains h.hid && h.status == .saved)
    return false

/-- The hart with its room on its own core is resumed where its grant can be reinstated; until then it counts there (R399).
Answers whether it was. -/
def resumeOne (k : Nat) : M Bool := do
  match (← get).hart? k with
  | none => return false
  | some h =>
    modify fun s => s.aimAt h.core fun x => x.hid == k
    match (← get).hart? k with
    | none => return false
    | some h =>
      if (← get).canResume h then
        withHart k resumeFront
        return true
      else return false

/-- ctxld (R400, R401): waits until the grant can be reinstated. A target whose group has lost its room takes it again first
(R278). -/
def execCtxld (d a : GReg) : State → Host.Outcome State Fault Refusal :=
  runHart do
    let h ← hart
    if !h.priv then illegal (.ctxld d a)
    let s ← get
    match s.targetOf (h.rd a) with
    | none => result d 1
    | some t =>
      if !t.isSaved then result d 2
      else if !s.frameOk t then result d 4
      else if !s.frameFits t false then result d 3
      else if t.status != .saved then leave
      else
        if !t.room then
          if s.groupFits t.lid t.grp t.core then set (s.settleGroup t.lid t.grp t.core) else leave
        if ← resumeOne t.hid then result d 0 else leave

/-! Events of a hart. -/

/-- Runs a meaning with a hart on the front end and brings back the one that stood there; refused where the hart is not
in the package or fails a test. -/
def onFront (name : String) (k : Nat) (p : State → Bool) (m : State → Host.Outcome State Fault Refusal) (s : State) :
    Host.Outcome State Fault Refusal :=
  let s' := s.focus k
  if s'.cur.hid = k ∧ s'.cur.status ≠ .absent ∧ p s' then
    match m s' with
    | .next t => .next (t.frontAs s)
    | .fault f => .fault f
    | .refused r => .refused r
  else .refused (.notEnabled name)

end Sys2Proof.Machine
end

