-- ==== Sys2Proof/Machine/EventsPower.lean ====
section
/-!
DEFINITION. Power (R165 to R178) and the interference budgets (R21 to R24): the period boundary with its offers, lane
division, hold times, emergency steps and refills, and the events that change limits.
-/

namespace Sys2Proof.Machine

/-- The dies of a part (R1). -/
def dieCount : Part → Nat
  | .tl460 => 4
  | .tl430 => 2

/-- The budget of a die in mW (R166): its set share, or an equal one. -/
def State.dieBudget (s : State) (d : Nat) : Nat := ((s.die d).budget).getD (1000 * s.envelope / dieCount s.part)

/-- A hart in the computation of offers: key, slot cap, weight and cost in mW for an element (R167). -/
structure OfferLine where
  hid : Nat
  cap : Nat
  weight : Nat
  cost : Nat
  deriving DecidableEq, Repr

/-- The power that a level gives, times w: the level is n / w (R167). -/
def levelCost (ls : List OfferLine) (n w : Nat) : Nat :=
  (ls.map fun l => l.cost * min (l.cap * w) (n * l.weight)).sum

/-- The largest n at most k that satisfies a test that 0 need not satisfy. -/
def largestTo (p : Nat → Bool) : Nat → Nat
  | 0 => 0
  | k + 1 => if p (k + 1) then k + 1 else largestTo p k

/-- The offer of a hart: min of its cap and the largest level times its weight, clamped (R167, R168). -/
def offerOf (ls : List OfferLine) (budget : Nat) (l : OfferLine) : Nat :=
  max 1 (min 1024 (min l.cap (largestTo (fun n => decide (levelCost ls n l.weight ≤ budget * l.weight)) (min l.cap 1024))))

/-- The measured cost of a hart, at least that of its format (R167, log 18). -/
def measured (ms : List DieMeasure) (h : Hart) : Nat :=
  let c := match (ms.flatMap DieMeasure.harts).find? fun m => m.hid == h.hid with
    | some m => m.cost
    | none => 0
  max c (Config.costMin h.ctx.fmt)

/-- The lane share of a slot in a division (R171). -/
def shareAt (l : List Share) (slot : Nat) : Nat :=
  match l.find? fun a => a.slot == slot with
  | some a => a.lg
  | none => 1

/-- The lines of a core: the harts that count there (R167, R399). -/
def State.coreLines (s : State) (ms : List DieMeasure) (core : Nat) : List OfferLine :=
  (s.countedOn core).map fun x =>
    { hid := x.1.hid, cap := min x.1.want (64 * shareAt (s.laneDivision core) x.2), weight := x.1.laneWeight,
      cost := measured ms x.1 }

/-- The lines of a die (R167). -/
def State.offerLines (s : State) (ms : List DieMeasure) (d : Nat) : List OfferLine :=
  (List.range 32).flatMap fun k => s.coreLines ms (32 * d + k)

/-- The draw of a die that no lane makes. -/
def nonlane (ms : List DieMeasure) (d : Nat) : Nat :=
  match ms.find? fun m => m.die == d with
  | some m => m.nonlane
  | none => 0

/-- The offers of a die take effect (R165, R167). -/
def State.setOffers (s : State) (ms : List DieMeasure) (d : Nat) : State :=
  let ls := s.offerLines ms d
  ls.foldl (fun s l => s.onHart l.hid fun h =>
    { h with offer := offerOf ls (s.dieBudget d - nonlane ms d) l, offered := true }) s

/-- Earmarks of every core that has been used (R172). -/
def State.reearmarkAll (s : State) : State := s.earmarkAll (s.cores.map fun (x : Nat × Core) => x.1)

/-- Hold times at a boundary (R174). -/
def Hart.holdTick (s : State) (h : Hart) : Hart :=
  if !h.resident then h
  else if s.overHolding h then { h with overSince := if h.overSince.isSome then h.overSince else some s.now }
  else { h with overSince := none, hstep := 0 }

/-- The budget that a refill leaves: so many KiB, less an overdraft (R22, R23). -/
def refilled (kib : Nat) (left : Int) : Int := (kib * 1024 : Nat) + min left 0

/-- A die at a boundary: the emergency step falls after a period without alarm; budgets are refilled (R22, R177). -/
def Die.boundary (x : Die) : Die :=
  { x with
    estep := if x.alarm then x.estep else x.estep - 1, alarm := false,
    trLeft := refilled x.trBudget x.trLeft, migLeft := x.migBudget }

/-- What was left of a channel's budget goes to its transfers in the order of their ids (R21); answers what is left. -/
def spendLeft : Int → List Transfer → Int × List Transfer
  | n, [] => (n, [])
  | n, t :: u =>
    let k := if t.ring.isSome && t.slot.isNone then 0 else moved n t.todo
    let r := spendLeft (n - (k : Nat)) u
    (r.1, { t with todo := t.todo - k } :: r.2)

/-- A channel at a boundary. -/
def Channel.boundary (cbud : Nat) (c : Channel) : Channel :=
  let r := spendLeft c.left c.flight
  { c with flight := r.2, left := refilled cbud r.1 }

/-- What was left of a queue's copy budget goes to its started COPY packets (R446); answers what is left. -/
def spendStarted : Int → List Started → Int × List Started
  | n, [] => (n, [])
  | n, x :: u =>
    let k := moved n x.todo
    let r := spendStarted (n - (k : Nat)) u
    (r.1, { x with todo := x.todo - k } :: r.2)

/-- A queue at a boundary: the copy budget has the default of R21 (R446). -/
def Queue.boundary (q : Queue) : Queue :=
  let r := spendStarted q.left q.started
  { q with started := r.2, left := refilled 32 r.1 }

/-- What was left of a die's migration budget goes to the moves of the die in their order (R21, R24). -/
def spendMoves (die : Nat) : Nat → List PageMove → List PageMove
  | _, [] => []
  | n, m :: t =>
    if m.die = die then { m with todo := m.todo - n } :: spendMoves die (n - m.todo) t else m :: spendMoves die n t

/-- The refills of a boundary (R22). -/
def State.refill (s : State) : State :=
  let s := (s.mapHarts fun h => { h with chans := h.chans.map (Channel.boundary h.cbud) }).mapQueues Queue.boundary
  let s := { s with migr := (List.range 4).foldl (fun l d => spendMoves d (s.die d).migLeft l) s.migr }
  { s with
    dies := s.dies.map fun (x : Nat × Die) => (x.1, x.2.boundary),
    regions := s.regions.map fun (x : Nat × Region) => (x.1, { x.2 with left := x.2.bud }),
    scrubs := s.scrubs.map fun (x : Nat × (Nat × Nat)) => (x.1, (x.2.1, x.2.1)) }

/-- The throttle-step changes of resident harts since an earlier state, offered to the trace units (R466). -/
def State.traceSteps (s old : State) : State :=
  s.harts.foldl (fun t h =>
    match old.hart? h.hid with
    | some x => if h.resident && s.steps h != old.steps x then t.traceOf h 6 h.ctx.pc (s.thrWord h) 0 else t
    | none => t) s

/-- POWER_PERIOD_BOUNDARY (R165 to R172, R174, R177, R22). The measured quantities are the event's (R167). -/
def execPowerPeriodBoundary (ms : List DieMeasure) (s : State) : Host.Outcome State Fault Refusal :=
  let n := s.pnum + 1
  let t := { s with pnum := n, now := max s.now (1000 * n) }
  let t := (List.range (dieCount t.part)).foldl (fun t d => t.setOffers ms d) t
  let t := t.reearmarkAll
  let t := t.mapHarts (Hart.holdTick t)
  .next (t.refill.traceSteps s)

/-- The hold limit of a hart's partition (R174). -/
def State.holdLimit (s : State) (h : Hart) : Nat :=
  match AMap.find? s.parts h.part with
  | some p => p.holdLim
  | none => 16

/-- LANE_HOLD_LIMIT_EXPIRY (R174). -/
def execLaneHoldLimitExpiry (h : Nat) (s : State) : Host.Outcome State Fault Refusal :=
  match s.hart? h with
  | some x =>
    (match x.overSince with
     | some t =>
       if s.overHolding x ∧ t + 1000 * s.holdLimit x ≤ s.now ∧ x.hstep ≠ 7 then
         .next ((s.onHart h fun y => { y with hstep := 7 }).traceSteps s)
       else .refused (.notEnabled "LANE_HOLD_LIMIT_EXPIRY")
     | none => .refused (.notEnabled "LANE_HOLD_LIMIT_EXPIRY"))
  | none => .refused (.notEnabled "LANE_HOLD_LIMIT_EXPIRY")

/-- CURRENT_ALARM (R177). -/
def execCurrentAlarm (die : Nat) (s : State) : Host.Outcome State Fault Refusal :=
  if die < dieCount s.part then
    .next ((s.onDie die fun d => { d with estep := max d.estep s.alarmStep, alarm := true }).traceSteps s)
  else .refused (.notEnabled "CURRENT_ALARM")

/-- The thermal step after 10 ms at a reading (R178). -/
def thermalNext (tlim reading step : Nat) : Nat :=
  if tlim + 10 ≤ reading then 7
  else if tlim ≤ reading then min 7 (step + 1)
  else if reading + 3 ≤ tlim then step - 1
  else step

/-- THERMAL_STEP_TICK (R178). -/
def execThermalStepTick (die reading : Nat) (s : State) : Host.Outcome State Fault Refusal :=
  if die < dieCount s.part then
    .next ((s.onDie die fun d => { d with tstep := thermalNext s.tlim reading d.tstep }).traceSteps s)
  else .refused (.notEnabled "THERMAL_STEP_TICK")

/-- ENVELOPE_SET (R166): a division into die budgets in mW, or an empty one for equal shares. Offers follow at the next
boundary. -/
def execEnvelopeSet (watts : Nat) (div : List Nat) (s : State) : Host.Outcome State Fault Refusal :=
  let n := dieCount s.part
  if 900 ≤ watts ∧ watts ≤ 1600 ∧ watts % 25 = 0 ∧ (div = [] ∨ (div.length = n ∧ div.sum ≤ 1000 * watts)) then
    .next ((List.range n).foldl (fun s d => s.onDie d fun x => { x with budget := div[d]? })
      { s with envelope := watts })
  else .refused (.notEnabled "ENVELOPE_SET")

/-- BUDGET_SET (R21, R22): class 0 is trace by die, 1 scrub by stack, 2 migration by die. -/
def execBudgetSet (cls unit val : Nat) (s : State) : Host.Outcome State Fault Refusal :=
  let n := dieCount s.part
  if cls = 0 ∧ unit < n ∧ 1 ≤ val ∧ val ≤ 64 then .next (s.onDie unit fun d => { d with trBudget := val })
  else if cls = 1 ∧ unit < 2 * n ∧ 8 ≤ val ∧ val ≤ 1024 then
    .next { s with scrubs := AMap.put s.scrubs unit (val, ((AMap.find? s.scrubs unit).getD (64, 64)).2) }
  else if cls = 2 ∧ unit < n ∧ val ≤ 64 then .next (s.onDie unit fun d => { d with migBudget := val })
  else .refused (.notEnabled "BUDGET_SET")

/-- POWER_FIRMWARE_LIMITS_SET (R174, R177, R178): 0 is the hold limit of a partition, 1 the alarm step, 2 tlim. -/
def execPowerFirmwareLimitsSet (what unit val : Nat) (s : State) : Host.Outcome State Fault Refusal :=
  if what = 0 ∧ 1 ≤ val ∧ val ≤ 255 ∧ (AMap.find? s.parts unit).isSome then
    .next (s.onPart unit fun p => { p with holdLim := val })
  else if what = 1 ∧ 1 ≤ val ∧ val ≤ 7 then .next { s with alarmStep := val }
  else if what = 2 ∧ 85 ≤ val ∧ val ≤ 105 then .next { s with tlim := val }
  else .refused (.notEnabled "POWER_FIRMWARE_LIMITS_SET")

end Sys2Proof.Machine
end

