-- ==== Sys2Proof/Machine/Grant.lean ====
section
/-!
DEFINITION. Grant instructions (R179 to R191): vgr, vgq, vrel, vrows, vtype, the voiding of strip state (R181), and the
release that exit makes too.
-/

namespace Sys2Proof.Machine

/-- Strip state after a change of grant from o to n (R181). -/
def Ctx.regrant (c : Ctx) (n : Nat) : Ctx :=
  let o := c.vl
  if o = n then c
  else
    let k := min o n
    let L := blockLen c.blk
    { c with
      vl := n
      v := AMap.keep (fun i => decide (i % 1024 < k)) c.v
      m := AMap.keep (fun i => decide (i % 1024 < k)) c.m
      sc := AMap.keep (fun i => decide ((i % 1024 + 1) * L ≤ k)) c.sc }

/-- A void position carries no parity error (R396). -/
def State.mendVoid (s : State) (o n L : Nat) : State :=
  if s.spots.isEmpty || o == n then s
  else
    let k := min o n
    { s with spots := s.spots.filter fun e =>
        match e with
        | .slot h file _ _ j =>
          !(h == s.cur.hid && ((file == 3 && decide (k < (j + 1) * L)) || ((file == 1 || file == 2) && decide (k ≤ j))))
        | _ => true }

/-- Every strip register's progress index complete for a shape; the tiles' stay (R187). -/
def completeStrips (n : Nat) (prog : AMap Progress) : AMap Progress :=
  ((List.range 32).map fun k => (k, ({ act := false, cnt := BitVec.ofNat 14 n } : Progress)))
    ++ AMap.keep (fun k => decide (32 ≤ k)) prog

/-- Changes the grant of the hart on the front end to n elements: lane groups, strip state, vl, progress indices, and
the hold count with its step (R174, R180, R181, R187, R466). -/
def State.setGrant (s : State) (n : Nat) : State :=
  let h := s.cur
  let s := (s.latResize h.core h.slot ((n + 63) / 64)).mendVoid h.ctx.vl n (blockLen h.ctx.blk)
  { s with cur := { s.cur with
      ctx := h.ctx.regrant n, prog := completeStrips (h.ctx.nr.toNat * n) h.prog } }.clearHold

/-- The grant that the hart would receive at this instant under an offer (R179). -/
def State.grantFor (s : State) (off : Nat) (req : Word) : Nat :=
  grantOf off (s.avail s.cur) (blockLen s.cur.ctx.blk) req.toNat

/-- The offer that the instruction uses, logged or replayed (R169, R459). -/
def sampleOffer : M Nat := do return (← recorded 1 (wordN (← hart).usedOffer)).toNat

/-- vgr (R187). -/
def execVgr (d a : GReg) : State → Host.Outcome State Fault Refusal :=
  runHart do
    drainQueue
    let req := (← hart).rd a
    let off ← sampleOffer
    let n := (← get).grantFor off req
    modHart fun h => { h with req := req.toNat }
    modify fun s => (s.setGrant n).traceHart 5 s.cur.ctx.pc (wordN n) (wordN off)
    result d (wordN n)

/-- vgq (R188). -/
def execVgq (d a : GReg) : State → Host.Outcome State Fault Refusal :=
  runHart do
    let req := (← hart).rd a
    let off ← sampleOffer
    let n := (← get).grantFor off req
    modHart fun h => { h with req := req.toNat }
    result d (wordN n)

/-- Releases the whole grant of the hart on the front end (R189). -/
def State.releaseGrant (s : State) : State :=
  let s := (s.setGrant 0).mendHart s.cur.hid [1, 2, 3]
  { s with cur := s.cur.onCtx fun c => { c with v := [], m := [], sc := [] } }

/-- vrel (R189). -/
def execVrel (d : GReg) : State → Host.Outcome State Fault Refusal :=
  runHart do
    drainQueue
    let o := (← hart).ctx.vl
    modify State.releaseGrant
    result d (wordN o)

/-- vrows (R190): instructions in the queue keep the rows with which they entered. -/
def execVrows (d : GReg) (n : BitVec 4) : State → Host.Outcome State Fault Refusal :=
  scalar fun h => (h.onCtx fun c => { c with nr := n }).wr d (h.ctx.nr.setWidth 64)

/-- vtype (R191). Where the block length changes, queued instructions complete before the companions are voided
(R182, R200). -/
def execVtype (d : GReg) (f : Fmt) (blk : BitVec 2) (n : BitVec 4) : State → Host.Outcome State Fault Refusal :=
  runHart do
    if blk ≠ (← hart).ctx.blk then drainQueue
    let old := (← hart).vtypeWord
    modify fun s => s.putShape (s.cur.onCtx fun c => { c.setBlk blk with nr := n, fmt := f })
    result d old

end Sys2Proof.Machine
end

