-- ==== Sys2Proof/Machine/System.lean ====
section
/-!
DEFINITION. System instructions, majors 0x20 and 0x78: arg, wfld, prio, yield, exit, bar, bar.ph, sleep, lnch (R135 to
R143), sys, brk, rdtime, tmark, dyn (R160 to R164), trap and tret (R393 to R395), sfq (R403), qput (R447), sinv (R382).
-/

namespace Sys2Proof.Machine

/-- arg (R135). -/
def execArg (d : GReg) (i : BitVec 6) : State → Host.Outcome State Fault Refusal :=
  scalar fun h => h.wr d (if i.toNat < h.nargs then h.args.getD i.toNat 0 else 0)

/-- The sum of the widths below field k (R116). -/
def fieldShift (widths : List Nat) (k : Nat) : Nat := (widths.take k).sum

/-- Field k of a hart's work id; k = 6 gives the whole (R136). -/
def Hart.workField (h : Hart) (k : Nat) : Word :=
  if k = 6 then h.wid
  else wordN (h.wid.toNat / 2 ^ fieldShift h.widths k % 2 ^ (h.widths.getD k 0))

/-- wfld (R136). -/
def execWfld (d : GReg) (k : BitVec 3) : State → Host.Outcome State Fault Refusal :=
  scalar fun h => h.wr d (h.workField k.toNat)

/-- A requested priority within [max(lp − 4, 0), lp] (R137). -/
def clampPrio (lp : Nat) (x : Int) : Nat :=
  let lo := lp - 4
  if x < lo then lo else if (lp : Int) < x then lp else x.toNat

/-- prio (R137). -/
def execPrio (d a : GReg) : State → Host.Outcome State Fault Refusal :=
  scalar fun h => (h.onCtx fun c => { c with prio := clampPrio h.lprio (h.rd a).toInt }).wr d (wordN h.ctx.prio)

/-- A hart that has an instruction to issue (R128, R138). -/
def Hart.ready (h : Hart) : Bool := h.status == .running && h.wait.isNone && h.capWait.isNone

/-- The other ready harts of the core at the priority of the hart on the front end (R138). -/
def State.peersOf (s : State) : List Nat :=
  (s.rest.filter fun h => h.ready && h.core == s.cur.core && h.ctx.prio == s.cur.ctx.prio).map (·.hid)

/-- 64 cycles of the 1.5 GHz clock, in ns (R138). -/
def yieldTime : Nat := 43

/-- yield (R138): the last place of the core's round robin; the hart issues nothing until each other ready hart at its
priority has issued once, or 64 cycles have passed. -/
def execYield : State → Host.Outcome State Fault Refusal :=
  runHart do
    modify fun s => s.onCore s.cur.core fun c =>
      { c with order := c.order.filter (· != s.cur.slot) ++ [s.cur.slot] }
    modify fun s => { s with cur := { s.cur with owes := s.peersOf, owesTill := s.now + yieldTime } }
    modHart Hart.retire

/-! Barriers (R140). -/

/-- The hart has arrived at barrier n and is not yet released. -/
def Hart.atBar (n : Nat) (h : Hart) : Bool :=
  match h.wait with
  | some (.bar k false _) => k == n
  | _ => false

/-- A hart released from barrier n. -/
def Hart.passBar (n : Nat) (h : Hart) : Hart :=
  match h.wait with
  | some (.bar k false c) => if k = n then { h with wait := some (.bar k true c) } else h
  | _ => h

/-- Releases barrier n of a group where every hart of it that has not exited has arrived (R140). -/
def State.releaseBar (s : State) (lid grp n : Nat) : State :=
  let mine := fun (h : Hart) => h.lid == lid && h.grp == grp && h.status != .exited
  if (s.harts.filter mine).all (Hart.atBar n) then s.mapHarts fun h => if mine h then h.passBar n else h else s

/-- Records the hart's arrival and waits (R124, R140). -/
def arrive (n : Nat) (commit : Option Nat) : M Unit := do
  modify fun s =>
    let s := { s with cur := { s.cur with
      wait := some (.bar n false commit), since := if s.cur.wait.isSome then s.cur.since else s.now } }
    s.releaseBar s.cur.lid s.cur.grp n

/-- bar (R140, R141). -/
def execBar (n : BitVec 2) : State → Host.Outcome State Fault Refusal :=
  runHart do
    let h ← hart
    if h.ordered then orderedTrap (.bar n)
    match h.wait with
    | some (.bar _ true _) => modHart Hart.retire
    | some (.bar _ false _) => pure ()
    | _ =>
      arrive n.toNat none
      match (← hart).wait with
      | some (.bar _ true _) => modHart Hart.retire
      | _ => pure ()

/-- bar.ph's end: the snapshot is refreshed, and gd receives the commit number (R140). -/
def leaveBarPh (d : GReg) (k : Nat) : M Unit := do
  refresh
  result d (wordN k)

/-- bar.ph (R140, R141): commits and begins a phase before it arrives. -/
def execBarPh (d : GReg) (n : BitVec 2) : State → Host.Outcome State Fault Refusal :=
  runHart do
    let h ← hart
    if h.ordered then orderedTrap (.barPh d n)
    match h.wait, h.half with
    | some (.bar _ true (some k)), _ => leaveBarPh d k
    | some (.bar _ false _), _ => pure ()
    | _, half =>
      if half.isNone then
        drainForCommit
        commitGate
        snapGate 1 true
        modify fun s => s.commitTask 0
        let k := (← get).commits
        modHart fun h => { h with half := some k, wait := none }
      snapGate 0 false
      modify State.beginAfter
      let k := (← hart).half.getD 0
      modHart fun h => { h with half := none }
      arrive n.toNat (some k)
      modify State.settle
      match (← hart).wait with
      | some (.bar _ true _) => leaveBarPh d k
      | _ => pure ()

/-- sleep (R142): an absolute deadline; 0 does not wait. -/
def execSleep (a : GReg) : State → Host.Outcome State Fault Refusal :=
  runHart do
    let s ← get
    match s.cur.wait with
    | some (.sleep t) => if t ≤ s.now then modHart Hart.retire
    | _ =>
      let n := ((s.cur.rd a).extractLsb' 0 32).toNat
      if n = 0 then modHart Hart.retire else standStill (.sleep (s.now + n))

/-! Leaving (R139). -/

/-- The hart retired: nothing of it waits or is queued any more. -/
def Hart.exit (h : Hart) : Hart := { h with status := .exited, wait := none, vq := [], sq := [], pass := false }

/-- exit (R139): drains, waits for copies and the task's turn, commits as ph does, with its trap in an ordered launch (R261,
R390), releases the grant and retires; barriers that waited only for this hart are released, and a group whose harts are all
gone retires (R122, R140). -/
def execExit : State → Host.Outcome State Fault Refusal :=
  runHart do
    drainAll
    if !(← hart).copiesDone then leave
    drainForCommit
    let _ ← nextStamp .exit none
    commitGate
    modify fun s =>
      let lid := s.cur.lid
      let grp := s.cur.grp
      let s := (s.commitTask s.cur.pts).releaseGrant
      let s := { s with cur := s.cur.exit }.reearmark s.cur.core
      let s := (List.range 4).foldl (fun s n => s.releaseBar lid grp n) s
      s.settle.reapGroup lid grp

/-! Packets from harts (R143, R447). -/

/-- Reads n doublewords as ld.d does, for lnch and qput (R143, R447). -/
def readWords (ea : Word) (n : Nat) : M (List Word) := do
  drainAll
  match ← readBytes .load (← get).lookNow ea (8 * n) with
  | .ok bs => return wordsOf n bs
  | .error (a, f) => accessFault a f

/-- lnch (R141, R143). -/
def execLnch (d a : GReg) (q : BitVec 6) : State → Host.Outcome State Fault Refusal :=
  runHart do
    let h ← hart
    if h.ordered then orderedTrap (.lnch d a q)
    let hdr ← readWords (h.rd a &&& ~~~0x3F) 8
    let s ← get
    match s.openQueue h.part q.toNat with
    | none => result d 0
    | some x =>
      if 256 ≤ x.used then standStill .lnch
      else
        let r := s.placePacket h.part q.toNat ([1, 0, 0, 0, 0, 0, 0, 0] ++ hdr) h.hid
        set r.1
        result d (wordN r.2)

/-- Places the packet that qput has read, or waits while the buffer is full (R447). -/
def putPacket (d : GReg) (q : Nat) (ws : List Word) : M Unit := do
  let s ← get
  if 256 ≤ ((s.queue? s.cur.part q).map Queue.used).getD 0 then standStill (.qput q ws)
  else
    set (s.placePacket s.cur.part q ws s.cur.hid).1
    result d 0

/-- qput (R447): the packet is read and the queue looked at once, then the hart waits. -/
def execQput (d a : GReg) (q : BitVec 6) : State → Host.Outcome State Fault Refusal :=
  runHart do
    let h ← hart
    if h.ordered then orderedTrap (.qput d a q)
    match h.wait with
    | some (.qput k ws) => putPacket d k ws
    | _ =>
      let ws ← readWords (h.rd a &&& ~~~0x7F) 16
      match (← get).openQueue h.part q.toNat with
      | none => result d 1
      | some _ => putPacket d q.toNat ws

/-! Service calls, stops and marks. -/

/-- The firmware's identity: release words of service 0x80_0000 (R395). -/
def releaseWord : Word := Config.firmwareRelease.setWidth 64

/-- sys (R160, R392, R395): earlier vector and matrix instructions keep running. -/
def execSys (n : BitVec 24) : State → Host.Outcome State Fault Refusal :=
  runHart do
    let h ← hart
    let tval := n.setWidth 64
    if n.toNat < 0x800000 then
      if h.handlerOpen then modify fun s => s.handlerEntry 8 tval h.ctx.pc 0 Hart.retire
      else trapHere 28 tval
    else if n = 0x800000 then result 1 releaseWord
    else if n = 0x800001 then modify fun s => s.dropVersion.killGroup h.lid h.grp
    else if n = 0x800002 then modify fun s => s.dropVersion.killLaunch h.lid
    else if n = 0x800003 then
      let nts ← nextStamp (.sys n) none
      phaseStep 1 nts
    else trapHere 28 tval

/-- A debugger is attached to the hart's partition, and the launch is not sealed (R161). -/
def State.debugged (s : State) : Bool :=
  s.cur.sealed.isNone && (match AMap.find? s.parts s.cur.part with | some p => p.debug | none => false)

/-- The debugger of the hart's partition steps in step-issue mode; step-drain is the default (R404). -/
def State.stepIssue (s : State) : Bool :=
  match AMap.find? s.parts s.cur.part with
  | some p => p.stepIssue
  | none => false

/-- brk (R161): a stop for an attached debugger at the brk's own PC, else the breakpoint trap. In step-drain mode earlier
vector and matrix instructions complete first. -/
def execBrk (n : BitVec 24) : State → Host.Outcome State Fault Refusal :=
  runHart do
    let s ← get
    if s.debugged then
      if !s.stepIssue then drainQueue
      modify fun s => s.stopHart .brk n.toNat
    else trapHere 24 (n.setWidth 64)

/-- rdtime (R162, R459). -/
def execRdtime (d : GReg) : State → Host.Outcome State Fault Refusal :=
  runHart do
    let x ← recorded 6 (wordN (← get).now)
    result d x

/-- A mark event offered to the trace unit; with tracing off it is dropped and counted (R163, R466, log 33). -/
def State.offerMark (s : State) (n a : Word) : State :=
  let d := dieOfCore s.cur.core
  if s.cur.sealed.isSome then s
  else if (s.die d).trEn then s.traceHart 7 s.cur.ctx.pc n a
  else s.onDie d fun x => { x with trDrop := min (x.trDrop + 1) 0xFFFFFFFF }

/-- tmark (R163, R469). -/
def execTmark (a : GReg) (n : BitVec 24) : State → Host.Outcome State Fault Refusal :=
  runHart do
    modify fun s => s.offerMark (n.setWidth 64) (s.cur.rd a)
    modHart Hart.retire

/-- dyn (R164). -/
def execDyn (d a : GReg) : State → Host.Outcome State Fault Refusal := scalar fun h => h.wr d (h.rd a)

/-- trap (R394). -/
def execTrap (n : BitVec 24) : State → Host.Outcome State Fault Refusal :=
  runHart do trapHere 22 (n.setWidth 64)

/-! Leaving the handler (R393). -/

/-- tret's conditions: in the handler, and for modes 2 and 3 a cause of its kind (R393). -/
def tretAllowed (i : Instr) (term : Option Bool) : M Unit := do
  let h ← hart
  if !h.trap.hdl then illegal i
  match term with
  | some t => if h.trap.term ≠ t then illegal i
  | none => pure ()

/-- The handler's version: committed in a free launch, discarded in an ordered one (R390, R393). -/
def endHandler : M Unit := do
  drainAll
  if (← hart).ordered then modify State.dropVersion
  else
    commitGate
    modify fun s => s.performCommit.settle

/-- tret 0 (R393): the group ends with status 2. -/
def execTretGroup : State → Host.Outcome State Fault Refusal :=
  runHart do
    tretAllowed .tretGroup none
    endHandler
    modify fun s => { s with cur := { s.cur with trap := { s.cur.trap with hdl := false } } }.killGroup s.cur.lid s.cur.grp

/-- tret 1 (R393): the launch ends with status 2. -/
def execTretLaunch : State → Host.Outcome State Fault Refusal :=
  runHart do
    tretAllowed .tretLaunch none
    endHandler
    modify fun s => { s with cur := { s.cur with trap := { s.cur.trap with hdl := false } } }.killLaunch s.cur.lid

/-- tret 2 (R258, R393): the failed phase runs again from its frame. What it restarts is no longer a phase begun by
firmware: nothing of it is in flight (R473). -/
def execTretRestart : State → Host.Outcome State Fault Refusal :=
  runHart do
    tretAllowed .tretRestart (some true)
    if (← hart).half.isNone then
      snapGate 1 true
      endHandler
      modHart fun h => { h with half := some 0 }
    snapGate 0 false
    modify fun s => s.logSnapshot s.cur
    modify fun s =>
      let s := s.mendHart s.cur.hid [1, 2, 3]
      let h := { s.cur.count with half := none }.restart s.commits s.seq
      { s with cur := { h with trap := { h.trap with hdl := false }, frame := { h.frame with firmware := false } } }
    modify State.settle

/-- The hart with its handler frame back (R392, R393): every register has its value at the fault, but for g1 after a service
call, which keeps what the handler left. The store-fault queue holds what the handler has left in it: a record is neither
dropped nor brought back (R245, R403; DEDUCED, log 37). -/
def Hart.reload (h : Hart) (f : HFrame) : Hart :=
  let g1 := h.rd 1
  let call := h.trap.code = 8
  let h := { h with
    ctx := f.ctx, trap := f.trap, vq := f.vq, prog := f.prog, spx := f.spx, sq := f.sq, hframe := none,
    chans := (h.chans.zip f.shadow).map fun (c, x) =>
      { c with src := x.1, dst := x.2.1, len := x.2.2.1, flg := x.2.2.2 } }
  if call then h.wr 1 g1 else h

/-- tret 3 (R392, R393): back to the point at which the resumable fault was taken, in the same phase and version. A frame
that fails its check takes the frame error (R398); the grant that the frame holds comes back with it, and the hart waits
while it cannot be had (R184). -/
def execTretResume : State → Host.Outcome State Fault Refusal :=
  runHart do
    tretAllowed .tretResume (some false)
    drainAll
    let h ← hart
    match h.hframe with
    | some f =>
      let s ← get
      let n := (f.ctx.vl + 63) / 64
      if !s.frameFits h true then trapHere 30 (h.tfb + BitVec.ofNat 64 frameSize)
      else if f.ctx.vl ≠ h.ctx.vl ∧ s.avail h < n then leave
      else
        let s := if f.ctx.vl = h.ctx.vl then s else s.latResize h.core h.slot n
        set ({ s with cur := s.cur.count.reload f }.dropFrame h true)
    | none => trapHere 30 (h.tfb + BitVec.ofNat 64 frameSize)

/-! Store-fault records (R403). -/

/-- Word k of the oldest record, the count for k = 4, or 0 (R403). -/
def Hart.sfqWord (h : Hart) (k : Nat) : Word :=
  if k = 4 then wordN h.sfq.length
  else
    match h.sfq with
    | [] => 0
    | r :: _ =>
      match k with
      | 0 => r.addr
      | 1 => r.opc
      | 2 => r.iter
      | _ => r.w3

/-- sfq (R403). -/
def execSfq (d : GReg) (k : BitVec 3) : State → Host.Outcome State Fault Refusal :=
  scalar fun h => h.wr d (h.sfqWord k.toNat)

/-- sfq.pop (R403, R245). -/
def execSfqPop (d : GReg) (k : BitVec 3) : State → Host.Outcome State Fault Refusal :=
  scalar fun h => h.popStoreFault.wr d (h.sfqWord k.toNat)

/-! Specialisations (R377, R382, R383). -/

/-- Hides the entries of a partition that satisfy a test; answers how many were valid. -/
def State.hideEntries (s : State) (part : Nat) (p : SpecEntry → Bool) : State × Nat :=
  let hit := fun (e : SpecEntry) => e.part == part && !e.hidden && p e
  ({ s with dies := s.dies.map fun (x : Nat × Die) =>
      (x.1, { x.2 with spec := x.2.spec.map fun e => if hit e then { e with hidden := true } else e }) },
    (s.dies.map fun (x : Nat × Die) => (x.2.spec.filter hit).length).sum)

/-- sinv mode 0 (R382). -/
def execSinvPage (d a : GReg) : State → Host.Outcome State Fault Refusal :=
  runHart do
    let s ← get
    let page := (s.cur.rd a).toNat / 4096
    let r := s.hideEntries s.cur.part fun e => e.read.any fun x => x.1 == page
    set r.1
    result d (wordN r.2)

/-- sinv mode 1 (R382). -/
def execSinvAll (d : GReg) : State → Host.Outcome State Fault Refusal :=
  runHart do
    let s ← get
    let r := s.hideEntries s.cur.part fun _ => true
    set r.1
    result d (wordN r.2)

/-- The report of the entry that a launch uses on a die (R383). -/
def State.reportOf (s : State) (lid die : Nat) : Word :=
  match AMap.find? s.launches lid with
  | some l => (AMap.find? l.reports die).getD 0
  | none => 0

/-- sinv mode 2 (R382, R383). -/
def execSinvReport (d : GReg) : State → Host.Outcome State Fault Refusal :=
  runHart do
    let s ← get
    result d (s.reportOf s.cur.lid (dieOfCore s.cur.core))

end Sys2Proof.Machine
end

