-- ==== Sys2Proof/Machine/Fetch.lean ====
section
/-!
DEFINITION. What a step does before an instruction runs: time (R162), which hart issues (R127), breakpoints (R379),
fetching a word (R60, R222) from the snapshot or from residual code (R370), decoding it (R85 to R87), and placing a word
where the next fetch finds it.
-/

namespace Sys2Proof.Machine

/-- Time passes with every step (R162, log 2). -/
def State.passTime (s : State) : State :=
  { s with tick := s.tick + 1, now := s.now + Config.elapsed s.tick + 1 }

/-- The hart's word stands for an instance of its PC: it is original, or residual and not what evaluation left (R379). -/
def Hart.atInstance (h : Hart) : Bool :=
  match h.ctx.resid with
  | none => true
  | some k =>
    match h.residKind k with
    | some .instr | some .leave | none => true
    | some .mat | some .more | some .jump => false

/-- A breakpoint stands at the hart's word (R379); none in a sealed launch (R469). -/
def State.atBreakpoint (s : State) : Bool :=
  let h := s.cur
  if h.pass || h.sealed.isSome then false
  else
    match AMap.find? s.parts h.part with
    | some p => p.breaks.contains h.ctx.pc && h.atInstance
    | none => false

/-- A byte of a fetched word: the hart's snapshot, and not its version (R60); a page of the device class answers a fetch as it
answers a load, with a free value (R231; DESIGN CHOICE, log 13: the spec does not name the fetch). -/
def fetchByte (s : State) (p : Phys) (i : Nat) : Byte :=
  if p.cls = 1 then Config.deviceByte (s.free + i) else snapByte s s.cur.snapSeq s.lookNow p.pa

/-- The bytes of a fetched word, counted from i. -/
def fetchBytes (s : State) : Nat → List Phys → List Byte
  | _, [] => []
  | i, p :: t => fetchByte s p i :: fetchBytes s (i + 1) t

/-- Fetches the original word at the hart's PC, from its snapshot and not its version (R60, R222). -/
def fetchOriginal : M Word := do
  let s ← get
  let h := s.cur
  let pc := h.ctx.pc
  match resolveRange s h .fetch pc 8 with
  | .error (_, f) => accessFault pc f
  | .ok ps =>
    match ps.find? fun p => s.badPa p.pa with
    | some p => accessFault pc (.uncorrectable (p.pa / 64 * 64))
    | none =>
      let t := s.fillTlb h .fetch pc
      set (if takesFree s h ps then { t with free := t.free + ps.length } else t)
      return leWord (fetchBytes s 0 ps)

/-- The word at which the hart stands (R370, R372). -/
def fetchWord : M Word := do
  let h ← hart
  match h.ctx.resid with
  | none => fetchOriginal
  | some k =>
    match h.code[k]? with
    | some w =>
      if w.kind = .leave then
        modHart fun h => h.leaveTo w.opc
        fetchOriginal
      else return w.word
    | none =>
      modHart fun h => h.leaveTo h.ctx.pc
      fetchOriginal

/-- An instruction may name a g register in one of its register fields, which stand at the same bits in every format but the
pair word's (R66, R75); a service call may write g1 (R395). -/
def mayName (w : Word) (i : Instr) (r : GReg) : Bool :=
  match i with
  | .pairWord .. | .sys .. => true
  | _ => w.extractLsb' 42 6 == r || w.extractLsb' 36 6 == r || w.extractLsb' 30 6 == r || w.extractLsb' 24 6 == r

/-- A queued instruction has still to write a g register that the next one may name (R145). -/
def Hart.awaitsResult (h : Hart) (w : Word) (i : Instr) : Bool :=
  h.vq.any fun op => match scalarDest op.i with | some d => d != 0 && mayName w i d | none => false

/-- A versioned write over the cap, for which the hart waits, is tried again before the hart issues (R257). -/
def retryWrite : M Unit := do
  let h ← hart
  if h.capWait.isSome then
    if h.vq.isEmpty && h.sq.isEmpty then modHart fun h => { h with capWait := none }
    else
      advanceStores
      if (← hart).capWait.isSome then leave

/-- What comes before the next instruction: what the hart owes (R257, R397, R460) and a write that waits (R257). -/
def beforeInstr : M Unit := do
  takeDue
  match (← hart).owed with
  | some (code, tval, tfpc, at_) =>
    modHart fun h => { h with owed := none }
    trapAt code tval tfpc ((← hart).retired - at_)
  | none => retryWrite

/-- The instruction that the hart on the front end runs next, with its mark; a breakpoint stops the hart, a queued scalar
result that it names is awaited (R145), and a word that is illegal or of an absent unit takes its trap (R86, R87). -/
noncomputable def nextInstr : M Instr := do
  beforeInstr
  let s ← get
  if s.atBreakpoint then
    set (s.stopHart .point 0)
    leave
  let w ← fetchWord
  match decode true (decide (s.part = .tl460)) w with
  | .instr mark i =>
    if (← hart).awaitsResult w i then drainQueue
    modHart fun h => { h with mark := mark }
    return i
  | .illegal => trapHere 16 w
  | .unitAbsent => trapHere 23 w

/-- A single step ends where the original instruction or its iteration changes (R380, R404). In step-drain mode what it
left queued is completed first. -/
def endStep : M Unit := do
  let h ← hart
  match h.stepping with
  | none => pure ()
  | some issueMode =>
    if h.status ≠ .running then pure ()
    else if h.wait.isSome ∨ h.capWait.isSome then pure ()
    else
      if !issueMode then drainAll
      let h ← hart
      if h.ctx.pc ≠ h.stepPc ∨ h.ctx.iter ≠ h.stepIter then modify fun s => s.stopHart .plain 0

/-- What follows an instruction of a hart that is single-stepped (R404). -/
def afterInstr (r : Host.Outcome State Fault Refusal) : Host.Outcome State Fault Refusal :=
  match r with
  | .next s => if s.cur.stepping.isSome then run endStep s else .next s
  | .fault f => .fault f
  | .refused f => .refused f

/-- A hart that yielded still waits for the others of its core and priority that are ready (R138). -/
def State.yields (s : State) (h : Hart) : Bool :=
  decide (s.now < h.owesTill)
    && h.owes.any fun k => s.harts.any fun x => x.hid == k && x.ready && x.core == h.core && x.ctx.prio == h.ctx.prio

/-- The place of a slot in the round robin of its core; one that has not issued yet comes first (R127, R138). -/
def Core.turn (c : Core) (slot : Nat) : Nat :=
  match c.order.findIdx? (· == slot) with
  | some n => n + 1
  | none => 0

/-- A hart takes a shared slot before another: the higher priority, then round robin, then the lower slot (R127). -/
def Core.first (c : Core) (a b : Hart) : Bool :=
  decide (b.ctx.prio < a.ctx.prio) || (a.ctx.prio == b.ctx.prio &&
    (decide (c.turn a.slot < c.turn b.slot) || (c.turn a.slot == c.turn b.slot && decide (a.slot ≤ b.slot))))

/-- The hart of a list that takes a shared slot. -/
def Core.winner (c : Core) : List Hart → Option Hart
  | [] => none
  | h :: t =>
    match c.winner t with
    | none => some h
    | some x => if c.first h x then some h else some x

/-- The ready harts among those that compete for a slot of one core (R127). -/
def State.rivals (s : State) (ks : List Nat) : List Hart :=
  let hs := s.harts.filter fun h => ks.contains h.hid && h.ready && !s.yields h
  match hs with
  | [] => []
  | h :: _ => hs.filter fun x => x.core == h.core

/-- The hart that issues next (R127, log 4): the one that the plan names, the one that takes a slot for which several compete,
or the one that stands in front. -/
def State.nextHart (s : State) : Option Nat :=
  match s.plan with
  | [] => some s.cur.hid
  | .one k :: _ => some k
  | .compete ks :: _ =>
    match s.rivals ks with
    | [] => none
    | h :: t => ((s.core h.core).winner (h :: t)).map (·.hid)

/-- The hart on the front end has the last place of its core's round robin (R127). -/
def State.turnEnd (s : State) : State :=
  s.onCore s.cur.core fun c => { c with order := c.order.filter (· != s.cur.slot) ++ [s.cur.slot] }

/-- The state with the hart in front that issues next. -/
def State.schedule (s : State) : State :=
  match s.plan, s.nextHart with
  | [], _ => s
  | .one _ :: t, some k => { s with plan := t }.focus k
  | .compete _ :: t, some k => ({ s with plan := t }.focus k).turnEnd
  | _ :: t, none => { s with plan := t }

/-- Whether the next hart to issue is there, runs, and has not yielded to others. -/
def State.issues (s : State) : Bool :=
  s.nextHart == some s.schedule.cur.hid && s.schedule.cur.status == .running && !s.schedule.yields s.schedule.cur

/-- The hart on the front end issues: those that yielded to it wait for it no more (R138). -/
def State.issued (s : State) : State :=
  if s.harts.all fun h => h.owes.isEmpty then s
  else
    let k := s.cur.hid
    s.mapHarts fun h => { h with owes := if h.hid = k then [] else h.owes.filter (· != k) }

/-! Placing a word. -/

/-- The page tables of a partition that maps its first page to the sixteenth physical page, readable, writable and
executable (R218, R219). -/
def bootTables : List (Nat × Word) :=
  [(0x1000, 0x2003), (0x2000, 0x3003), (0x3000, 0x4003), (0x4000, 0x5003), (0x5000, 0x1001F)]

/-- The state with a word placed where the next step fetches: a partition with one page, a running hart at its first
word, and nothing that comes before it (log 4). -/
def State.placeWord (s : State) (w : Nat) : State :=
  let mem := (bootTables.foldl (fun m (a, e) => writeCells m (cellsAt a (wordBytes 8 e))) s.mem)
  let mem := writeCells mem (cellsAt 0x10000 (toBytes 8 w))
  let p : Partition :=
    { root := 0x1000, queues := [], fifo := [], nextSeq := 0, lastDone := 0, kx := [], elog := [], elogAt := 0x20000,
      elogCap := 64, elogNext := 0, overruns := 0, windows := [], peers := [], breaks := [], debug := false,
      stepIssue := false, holdLim := 16 }
  { s with
    part := .tl460, inbox := [], plan := [], mem := mem, hist := [], bad := [], tlb := [], opaq := [],
    parts := AMap.put s.parts 0 p,
    cur := { Hart.blank with status := .running, snapSeq := s.seq, cmn := s.commits } }

end Sys2Proof.Machine
end

