-- ==== Sys2Proof/Machine/EventsHart.lean ====
section
/-!
DEFINITION. Events of a hart: waits that end (R142, R269, R272), stores performed or faulting after retirement (R233,
R244), a commit by firmware (R257, R473), the sequencer's service (R130), pre-emption and resume (R397 to R399), and the
lazy save and reload of tiles, slices and rings (R278, R319, R321).
-/

namespace Sys2Proof.Machine

/-- The outcome of a meaning taken as a part of another. -/
def asM (name : String) (f : State → Host.Outcome State Fault Refusal) : M Unit := do
  match f (← get) with
  | .next s => set s
  | .fault r => throw (.fault r)
  | .refused _ => notEnabled name

/-- The hart on the front end runs. -/
def State.runs (s : State) : Bool := s.cur.status == .running

/-- SLEEP_DEADLINE (R142): the sleep ends, and with it a single step (R404). -/
def execSleepDeadline (h : Nat) : State → Host.Outcome State Fault Refusal :=
  onFront "SLEEP_DEADLINE" h
    (fun s => s.runs && (match s.cur.wait with | some (.sleep t) => decide (t ≤ s.now) | _ => false))
    (run do
      let w ← fetchWord
      match w.extractLsb' 54 8 == 0x78, cand78 (unpackS w) with
      | true, some (.sleep a) => asM "SLEEP_DEADLINE" (execSleep a)
      | _, _ => notEnabled "SLEEP_DEADLINE"
      endStep)

/-- WAIT_SATISFIED (R269): the wait completes with a value that satisfied its condition, and with it a single step (R404). -/
def execWaitSatisfied (h : Nat) : State → Host.Outcome State Fault Refusal :=
  onFront "WAIT_SATISFIED" h
    (fun s => s.runs && (match s.cur.wait with | some (.word _ (some _)) => true | _ => false))
    (run do
      let w ← fetchWord
      match w.extractLsb' 54 8 == 0x48, cand48 (unpackM w) with
      | true, some (.wait d base ix sz sc off cond) => asM "WAIT_SATISFIED" (execWait d base ix sz sc off cond)
      | _, _ => notEnabled "WAIT_SATISFIED"
      endStep)

/-- ORDERED_COMMIT_TURN (R257, R272): a task that waits at ph, at exit, in the commit service or at a write over its cap is the
oldest and commits. -/
def execOrderedCommitTurn (h : Nat) : State → Host.Outcome State Fault Refusal :=
  onFront "ORDERED_COMMIT_TURN" h
    (fun s => s.runs && (s.cur.capWait.isSome || s.cur.wait == some .turn) && s.oldest)
    (run do
      if (← hart).capWait.isSome then retryWrite
      else
        let w ← fetchWord
        if w.extractLsb' 54 8 == 0x49 then
          match cand49 (unpackS w) with
          | some (.ph d) => asM "ORDERED_COMMIT_TURN" (execPh d)
          | some (.phTimestamp d a) => asM "ORDERED_COMMIT_TURN" (execPhTimestamp d a)
          | _ => notEnabled "ORDERED_COMMIT_TURN"
        else if w.extractLsb' 54 8 == 0x20 then
          match cand20 (unpackS w) with
          | some .exit => asM "ORDERED_COMMIT_TURN" execExit
          | some (.sys n) => asM "ORDERED_COMMIT_TURN" (execSys n)
          | _ => notEnabled "ORDERED_COMMIT_TURN"
        else notEnabled "ORDERED_COMMIT_TURN"
        endStep)

/-! Stores. -/

/-- The instruction at the head of the queue stores, and no scalar store is older. -/
def Hart.nextVecStore (h : Hart) : Bool :=
  match h.vq with
  | op :: _ => isVecStore op.i && h.sq.all fun p => decide (op.at_ < p.at_)
  | [] => false

/-- The hart has a store that is next to be performed. -/
def State.hasStore (s : State) : Bool := s.runs && (s.cur.nextStore.isSome || s.cur.nextVecStore)

/-- The store that is next faults: its scalar address does not resolve for a store (R222, R244). -/
def State.storeFaults (s : State) : Bool :=
  match s.cur.nextStore with
  | some p =>
    (match stageOff p.ea with
     | some off => !ownsStage s s.cur off p.bytes.length
     | none => (match resolveRange s s.cur .store p.ea p.bytes.length with | .ok _ => false | .error _ => true))
  | none => false

/-- STORE_FAULT_REPORT (R244): the fault of a retired scalar store is recorded and taken at the boundary where the hart
stands. -/
def execStoreFaultReport (h : Nat) : State → Host.Outcome State Fault Refusal :=
  onFront "STORE_FAULT_REPORT" h (fun s => s.runs && s.storeFaults) (run performStore)

/-- STORE_PERFORMED (R233, R241): a retired scalar store, or one position of a vector store, is performed. -/
def execStorePerformed (h : Nat) : State → Host.Outcome State Fault Refusal :=
  onFront "STORE_PERFORMED" h (fun s => s.hasStore && !s.storeFaults) (run advanceStores)

/-- FIRMWARE_COMMIT (R257, R473): the next store of the hart finds no room, and firmware commits the version. -/
def execFirmwareCommit (h : Nat) : State → Host.Outcome State Fault Refusal :=
  onFront "FIRMWARE_COMMIT" h State.hasStore (fun s =>
    match run advanceStores s with
    | .next t => if s.commits < t.commits then .next t else .refused (.notEnabled "FIRMWARE_COMMIT")
    | r => r)

/-! The sequencer's choice (R130). -/

/-- The elements that an instruction has still to do (R130). -/
def VOp.remaining (op : VOp) : Nat := op.nr * op.vl - op.pos

/-- 256 cycles of the 1.5 GHz clock, in ns (R130). -/
def starveTime : Nat := 171

/-- An instruction has waited 256 cycles without being served (R130). -/
def VOp.starves (now : Nat) (op : VOp) : Bool := decide (op.served + starveTime ≤ now)

/-- An instruction is served before another (R130): one that has waited 256 cycles, the earliest entered of them first; else
the fewest remaining elements, ties to the earlier entry. -/
def VOp.before (now : Nat) (a b : VOp) : Bool :=
  if a.starves now ∨ b.starves now then
    a.starves now && (!b.starves now || decide (a.entered ≤ b.entered))
  else decide (a.remaining < b.remaining) || (a.remaining == b.remaining && decide (a.entered ≤ b.entered))

/-- The hart of a list whose oldest queued instruction is served next. -/
def nextServed (now : Nat) : List Hart → Option Hart
  | [] => none
  | h :: t =>
    match h.vq with
    | [] => nextServed now t
    | op :: _ =>
      match nextServed now t with
      | none => some h
      | some x => if x.vq.headD op |> op.before now then some h else some x

/-- The harts of a core that have an instruction queued, but for those whose instruction is not eligible in this cycle. -/
def State.eligible (s : State) (core : Nat) (idle : List Nat) : List Hart :=
  s.harts.filter fun h => h.core == core && h.status == .running && !h.vq.isEmpty && !idle.contains h.hid

/-- ELEMENT_GROUP_ADVANCE (R130, R197): the sequencer of a core serves the oldest queued instruction of a hart, chosen as R130
says among those that are eligible; which are not, in this cycle, is the event's (log 35). -/
def execElementGroupAdvance (cycle : ServeCycle) (s : State) : Host.Outcome State Fault Refusal :=
  match nextServed s.now (s.eligible cycle.core cycle.idle) with
  | none => .refused (.notEnabled "ELEMENT_GROUP_ADVANCE")
  | some h => onFront "ELEMENT_GROUP_ADVANCE" h.hid State.runs (run serveHead) s

/-! Pre-emption and resume. -/

/-- PREEMPTION (R397): at a boundary, and so not inside an instance of several words (R76). -/
def execPreemption (h : Nat) : State → Host.Outcome State Fault Refusal :=
  onFront "PREEMPTION" h (fun s => s.runs && !s.cur.midPair) (run do let _ ← saveFront; pure ())

/-- The scheduler may give the saved hart on the front end a core: its own, or one that takes its whole group (R119, R120). An
evicted group comes back by GROUP_REPLACEMENT (R126). -/
def State.mayResume (s : State) (core : Nat) : Bool :=
  let h := s.cur
  h.status == .saved && !s.evicted h
    && ((h.core == core && h.room) ||
        (match AMap.find? s.launches h.lid with | some l => s.mayTake l h.grp core | none => false))

/-- CONTEXT_RESUME (R120, R184, R398, R399): the scheduler gives a saved hart its core; it counts there, and resumes once its
grant can be reinstated. On another core its whole group resumes together. -/
def execContextResume (h core : Nat) : State → Host.Outcome State Fault Refusal :=
  onFront "CONTEXT_RESUME" h (fun s => s.mayResume core)
    (run do
      let s ← get
      let h := s.cur
      if h.core ≠ core then let _ ← settleAndResume h.lid h.grp core
      else if !s.frameFits h false then set (s.takeTrap 30 h.tfb h.ctx.pc 0)
      else
        if !h.room then set (s.settleGroup h.lid h.grp core)
        let _ ← resumeOne h.hid)

/-- The memory of a save area is there, at a line (R278). -/
def areaOk (part : Part) (pa n : Nat) : Bool :=
  pa % 64 == 0 && populated part pa && populated part (pa + n - 1) && decide (homeDie pa = homeDie (pa + n - 1))

/-- TILE_LAZY_SAVE (R278, R321): the tiles and slices of a saved group are written to a save area of the memory manager, and
their room is given up. -/
def execTileLazySave (lid : Nat) (at_ : SaveArea) (s : State) : Host.Outcome State Fault Refusal :=
  let grp := at_.grp
  let area := at_.area
  let hs := s.groupHarts lid grp
  if !hs.isEmpty && s.groupSaved lid grp && hs.any (·.room) && areaOk s.part area (max 1 ((hs.map Hart.areaBytes).sum)) then
    .next (s.lazySave lid grp area)
  else .refused (.notEnabled "TILE_LAZY_SAVE")

/-- Where contents lie once n bytes of a save area are read: in the store, or lost with the uncorrectable line met (R278). -/
def State.reloaded (s : State) (n : Nat) : Place → Place
  | .away pa =>
    (match s.bad.find? fun l => decide (pa < l * 64 + 64) && decide (l * 64 < pa + n) with
     | some l => .failed (l * 64)
     | none => .here)
  | p => p

/-- The contents wait in a save area. -/
def Place.isAway : Place → Bool
  | .away _ => true
  | _ => false

/-- TILE_RELOAD (R278, R321): a saved tile is in place again; the number after the last tile names the slice. -/
def execTileReload (h t : Nat) : State → Host.Outcome State Fault Refusal :=
  onFront "TILE_RELOAD" h
    (fun s => s.cur.room &&
      (match s.cur.tiles[t]? with
       | some x => x.place.isAway
       | none => t == s.cur.tiles.length && s.cur.xPlace.isAway))
    (fun s =>
      let h := s.cur
      .next { s with cur := { h with
        tiles := h.tiles.modify t fun x => { x with place := s.reloaded h.tileSaveBytes x.place },
        xPlace := if t = h.tiles.length then s.reloaded h.sliceSaveBytes h.xPlace else h.xPlace } })

end Sys2Proof.Machine
end

