-- ==== Sys2Proof/Machine/EventsQueue.lean ====
section
/-!
DEFINITION. Events of queues and of the host link (R435 to R446, R450): doorbells and their processing, queue registers,
packets but for LAUNCH, indirect buffers fetched ahead, and the host's own accesses.
-/

namespace Sys2Proof.Machine

/-! Accesses of the queue processor, the firmware and the host: committed memory at the home, on path X (R437, R442). -/

/-- Why such an access is not made: its page is not there yet, or it is refused (R222, R28). -/
inductive Unreached where
  | waits
  | refused
  deriving DecidableEq, Repr

/-- The resolution of n bytes of a partition for an access that is no hart's; `sealed` is the sealed region of the launch
it is made for. -/
def reach (s : State) (part : Nat) (sealed : Option Nat) (k : Access) (ea : Word) : Nat → Except Unreached (List Phys)
  | 0 => .ok []
  | n + 1 =>
    match resolveEa s none part sealed k ea with
    | .error .notPresent | .error .ptError => .error .waits
    | .error _ => .error .refused
    | .ok p =>
      if (k == .load && p.cls != 1 && s.badPa p.pa) || (isHostMem p.pa && !s.hostUp) then .error .refused
      else
        match reach s part sealed k (ea + 1) n with
        | .error e => .error e
        | .ok l => .ok (p :: l)

/-- The bytes of resolved addresses; a device answers free values (R231, log 13). -/
def reachedBytes (s : State) : Nat → List Phys → List Byte
  | _, [] => []
  | i, p :: t => (if p.cls = 1 then Config.deviceByte (s.free + i) else s.byte p.pa) :: reachedBytes s (i + 1) t

/-- Free values that a read took are used up. -/
def State.took (s : State) (ps : List Phys) : State :=
  if ps.any (·.cls == 1) then { s with free := s.free + ps.length } else s

/-- Writes bytes at resolved addresses as one access on path X, not versioned (R442, R450). -/
def State.writeReached (s : State) (ps : List Phys) (bs : List Byte) : State :=
  let cells := ((ps.zip bs).filter fun x => x.1.cls != 1).map fun x => (x.1.pa, x.2)
  let s := s.writeHome none cells
  { s with out := s.out ++ deviceWrites ps bs }

/-! Doorbells. -/

/-- The slots of a ring (R435). -/
def Queue.slots (q : Queue) : Nat := 2 ^ (q.sz + 1)

/-- DOORBELL_WRITE (R436, R438): a tail write enters the FIFO, or completes with retry while that is full; on a disabled or
stopped queue it only sets the tail. -/
def execDoorbellWrite (p q : Nat) (tail : BitVec 32) (s : State) : Host.Outcome State Fault Refusal :=
  match AMap.find? s.parts p, s.queue? p q with
  | some x, some y =>
    if !s.hostUp then .refused (.notEnabled "DOORBELL_WRITE")
    else if 64 ≤ x.fifo.length then .next { s with out := s.out ++ [.retry p q] }
    else
      let s := s.onQueue p q fun y => { y with tail := tail }
      .next (s.onPart p fun x =>
        { x with nextSeq := x.nextSeq + 1,
                 fifo := if y.en && !y.stop then x.fifo ++ [{ q := q, tail := tail, seq := x.nextSeq }] else x.fifo })
  | _, _ => .refused (.notEnabled "DOORBELL_WRITE")

/-- The n ring packets from the head of a queue, each read at one instant (R437). -/
def ringPackets (s : State) (p : Nat) (y : Queue) : Nat → Nat → Except Unreached (List (List Word))
  | _, 0 => .ok []
  | k, n + 1 =>
    let ea := y.base + BitVec.ofNat 64 (128 * ((y.head.toNat + k) % y.slots))
    match reach s p none .load ea 128 with
    | .error e => .error e
    | .ok ps =>
      match ringPackets s p y (k + 1) n with
      | .error e => .error e
      | .ok l => .ok (wordsOf 16 (reachedBytes s 0 ps) :: l)

/-- The oldest entry of the FIFO leaves it, done (R438). -/
def State.popBell (s : State) (p seq : Nat) : State :=
  s.onPart p fun x => { x with fifo := x.fifo.tail, lastDone := max x.lastDone seq }

/-- DOORBELL_ENTRY_PROCESS (R436 to R438): the ring packets that the oldest entry covers are copied, then qhead is set and
the entry popped. It waits for room and for pages of the ring. -/
def execDoorbellEntryProcess (p : Nat) (s : State) : Host.Outcome State Fault Refusal :=
  let no := Host.Outcome.refused (.notEnabled "DOORBELL_ENTRY_PROCESS")
  match AMap.find? s.parts p with
  | none => no
  | some x =>
    match x.fifo with
    | [] => no
    | e :: _ =>
      if e.seq ≤ x.lastDone then .next (s.onPart p fun x => { x with fifo := x.fifo.tail })
      else
        match s.openQueue p e.q with
        | none => .next (s.popBell p e.seq)
        | some y =>
          let n := (e.tail - y.head).toNat
          if y.slots < n then .next ((s.stopQueue p e.q 1).popBell p e.seq)
          else if 256 < y.used + n then no
          else
            match ringPackets s p y 0 n with
            | .error .waits => no
            | .error .refused => .next ((s.stopQueue p e.q 3).popBell p e.seq)
            | .ok pkts =>
              let s := (s.placePackets p e.q none pkts).1
              .next ((s.onQueue p e.q fun y => { y with head := e.tail }).popBell p e.seq)

/-! Queue registers (R435, R439). -/

/-- A queue after a write of qcfg (R439). -/
def Queue.configure (y : Queue) (val : Word) : Queue :=
  let sz := val.toNat % 8
  let en := val.getLsbD 15 && sz != 7
  let y := { y with priv := val.getLsbD 14, prio := val.toNat / 2 ^ 8 % 32, sz := sz }
  if !en then
    { y with en := false, stop := false, head := y.tail, skip := 0,
             buf := if y.watch.isSome then y.buf.take 1 else [] }
  else if y.en then y
  else { y with en := true, err := 0, head := y.tail }

/-- QCFG_WRITE (R439). -/
def execQcfgWrite (p q : Nat) (val : BitVec 64) (s : State) : Host.Outcome State Fault Refusal :=
  if (s.queue? p q).isSome then .next (s.onQueue p q fun y => y.configure val)
  else .refused (.notEnabled "QCFG_WRITE")

/-- What a register of a queue's block reads as, by its place: 0 qbase, 1 qcfg, 2 qtail, 3 qhead, 4 qstat. Reserved bits and
qtail read as zero (R3, R4, R435). -/
def Queue.readReg (y : Queue) : Nat → Word
  | 0 => y.base
  | 1 => wordN (bitN y.en * 2 ^ 15 + bitN y.priv * 2 ^ 14 + y.prio % 32 * 2 ^ 8 + y.sz % 8)
  | 3 => y.head.setWidth 64
  | 4 => wordN (y.err % 256 * 2 ^ 8 + bitN y.stop)
  | _ => 0

/-- HOST_REGISTER_WRITE (R435): the registers of a queue's block by their place: 0 qbase, 1 qcfg, 2 qtail; qhead and qstat
ignore writes (R3). -/
def execHostRegisterWrite (p q reg : Nat) (val : BitVec 64) (s : State) : Host.Outcome State Fault Refusal :=
  if (s.queue? p q).isNone ∨ 5 ≤ reg then .refused (.notEnabled "HOST_REGISTER_WRITE")
  else if reg = 0 then .next (s.onQueue p q fun y => { y with base := val &&& 0x00FFFFFFFFFFFF80 })
  else if reg = 1 then execQcfgWrite p q val s
  else if reg = 2 then execDoorbellWrite p q (val.setWidth 32) s
  else .next s

/-! Packets. -/

/-- Word i of a packet. -/
def Packet.w (p : Packet) (i : Nat) : Word := p.words.getD i 0

/-- The words that a kind uses (R440). -/
def usedWords : Nat → List Nat
  | 1 => [8, 9, 10, 11, 12, 13, 14, 15]
  | 2 | 3 => [1, 2, 3]
  | 4 | 5 | 6 => [1, 2]
  | 8 => [1, 2, 3, 4]
  | 9 => [1]
  | _ => []

/-- Bytes of a packet's access: size 0 is 4, size 1 is 8 (R440). -/
def Packet.bytes (p : Packet) : Nat := if (p.w 3).getLsbD 0 then 8 else 4

/-- A packet error by the packet alone (R440, R445). -/
def Packet.bad (p : Packet) : Bool :=
  let k := kindOf p.words
  let above := fun (i m : Nat) => decide (m ≤ (p.w i).toNat)
  decide (10 ≤ k) || above 0 512
    || (List.range 16).any (fun i => i != 0 && !(usedWords k).contains i && p.w i != 0)
    || (match k with
        | 2 => (p.w 3 &&& ~~~0x701) != 0 || (p.w 1).toNat % p.bytes != 0
        | 3 => above 3 2 || (p.w 1).toNat % p.bytes != 0
        | 4 => (p.w 1).toNat % 8 != 0 || above 2 256
        | 5 => p.w 1 == 0 || above 1 65 || above 2 (2 ^ 32)
        | 6 => (p.w 1).toNat % 128 != 0 || p.w 2 == 0 || above 2 65537 || decide (2 ≤ p.level)
        | 8 => above 3 (2 ^ 40) || (p.w 4 &&& ~~~0x33FFF) != 0
        | 9 => (p.w 1).toNat % 8 != 0
        | _ => false)

/-- A packet starts only when every earlier one of its queue has completed: bar, and every FETCH-FENCE (R441). -/
def Packet.barred (p : Packet) : Bool := (p.w 0).getLsbD 8 || kindOf p.words == 7

/-- Every packet of a queue that has started has completed. -/
def Queue.idle (y : Queue) : Bool := y.started.all Started.done

/-- The packet at the head of an open queue, where it may start (R441). -/
def State.headPacket (s : State) (p q : Nat) : Option (Queue × Packet) :=
  match s.openQueue p q with
  | none => none
  | some y =>
    match y.buf with
    | x :: _ => if x.form = .plain ∧ y.watch.isNone then some (y, x) else none
    | [] => none

/-- The head leaves the buffer as it starts, complete at once or not (R441). -/
def State.startHead (s : State) (p q : Nat) (x : Packet) (done : Bool) (todo : Nat) : State :=
  let s := s.onQueue p q fun y =>
    { y with buf := y.buf.tail, started := y.started ++ [{ pkt := x, done := done, todo := todo }] }
  let s := State.pump p q 1024 s
  if done && kindOf x.words != 1 then s.tell x.by_ (10, kindOf x.words, 0) else s

/-- What a packet event does with the head of its queue: a packet error stops the queue (R440); else the packet starts,
once earlier ones have completed where it must wait for them. -/
def packetEvent (name : String) (kind p q : Nat) (start : State → Queue → Packet → Option State) (s : State) :
    Host.Outcome State Fault Refusal :=
  match s.headPacket p q with
  | none => .refused (.notEnabled name)
  | some (y, x) =>
    if kindOf x.words ≠ kind ∧ !(kind == 0 && decide (10 ≤ kindOf x.words)) then .refused (.notEnabled name)
    else if x.bad then .next (s.stopQueue p q 2)
    else if x.barred && !y.idle then .refused (.notEnabled name)
    else
      match start s y x with
      | some t => .next t
      | none => .refused (.notEnabled name)

/-- A packet whose memory is reached, waits for its page, or is refused, which stops the queue (R442). -/
def atMemory (k : Access) (n : Nat) (p q : Nat) (f : State → Packet → List Phys → State) (s : State) (_y : Queue)
    (x : Packet) : Option State :=
  match reach s p none k (x.w 1) n with
  | .error .waits => none
  | .error .refused => some (s.stopQueue p q 3)
  | .ok ps => some (f s x ps)

/-- PACKET_NOP (R440); also the packet error of a kind that does not exist. -/
def execPacketNop (p q : Nat) : State → Host.Outcome State Fault Refusal :=
  packetEvent "PACKET_NOP" 0 p q fun s _ x => some (s.startHead p q x true 0)

/-- The condition of a code (R269). -/
def condOf : Nat → WCond
  | 0 => .eq | 1 => .ne | 2 => .lt | 3 => .ge | 4 => .ltn | 5 => .gen | 6 => .any | _ => .none

/-- PACKET_WAIT_VALUE (R442): the first evaluation; the packet stays at the head. -/
def execPacketWaitValue (p q : Nat) : State → Host.Outcome State Fault Refusal :=
  packetEvent "PACKET_WAIT_VALUE" 2 p q fun s y x =>
    atMemory .load x.bytes p q (fun s x ps =>
      let w : Watch := { pa := (ps.map Phys.pa).headD 0, size := x.bytes, cond := condOf ((x.w 3).toNat / 256), x := x.w 2 }
      let hit := condHolds w.cond w.size (leWord (reachedBytes s 0 ps)) w.x
      (s.took ps).onQueue p q fun y => { y with watch := some (w, hit) }) s y x

/-- WAIT_VALUE_COMPLETE (R441, R442): its condition has held. It had started, so that a stop does not keep it. -/
def execWaitValueComplete (p q : Nat) (s : State) : Host.Outcome State Fault Refusal :=
  match s.queue? p q with
  | some y =>
    (match y.watch, y.buf with
     | some (_, true), x :: _ => .next ((s.onQueue p q fun y => { y with watch := none }).startHead p q x true 0)
     | _, _ => .refused (.notEnabled "WAIT_VALUE_COMPLETE"))
  | none => .refused (.notEnabled "WAIT_VALUE_COMPLETE")

/-- PACKET_WRITE_VALUE (R442). -/
def execPacketWriteValue (p q : Nat) : State → Host.Outcome State Fault Refusal :=
  packetEvent "PACKET_WRITE_VALUE" 3 p q fun s y x =>
    atMemory .store x.bytes p q (fun s x ps => (s.writeReached ps (wordBytes x.bytes (x.w 2))).startHead p q x true 0) s y x

/-- PACKET_COND (R443). -/
def execPacketCond (p q : Nat) : State → Host.Outcome State Fault Refusal :=
  packetEvent "PACKET_COND" 4 p q fun s y x =>
    atMemory .load 8 p q (fun s x ps =>
      let n := if leWord (reachedBytes s 0 ps) = 0 then (x.w 2).toNat else 0
      ((s.took ps).onQueue p q fun y => { y with skip := n, skipLevel := x.level }).startHead p q x true 0) s y x

/-- The packets of a level that precede the head at the same level, latest first; a LOOP's copies are not of the level
(R444). -/
def levelBefore (level : Nat) : List Started → List (List Word)
  | [] => []
  | x :: t =>
    if x.pkt.level < level then []
    else if x.pkt.level = level ∧ !x.pkt.rep then x.pkt.words :: levelBefore level t
    else levelBefore level t

/-- PACKET_LOOP (R444): the repetitions are made one after the other from the copies kept. -/
def execPacketLoop (p q : Nat) : State → Host.Outcome State Fault Refusal :=
  packetEvent "PACKET_LOOP" 5 p q fun s y x =>
    let m := (x.w 1).toNat
    let ps := ((levelBefore x.level y.started.reverse).take m).reverse
    if ps.length < m ∨ ps.any (fun w => kindOf w == 5) then some (s.stopQueue p q 2)
    else
      let again : Packet := { x with lid := 0, rep := true, form := .again ps (x.w 2).toNat }
      some ((s.onQueue p q fun y => { y with buf := (y.buf.take 1) ++ again :: y.buf.drop 1 }).startHead p q x true 0)

/-- What an INDIRECT has still to fetch. -/
def Packet.unfetched (x : Packet) : Packet :=
  { words := [], level := x.level + 1, lid := 0, by_ := x.by_, rep := false, form := .rest (x.w 1) (x.w 2).toNat }

/-- The fetching of an INDIRECT has begun: what follows it is deeper (R445). -/
def fetchBegun (x : Packet) : List Packet → Bool
  | y :: _ => decide (x.level < y.level)
  | [] => false

/-- PACKET_INDIRECT (R445): it is replaced by its packets, fetched or still to fetch. -/
def execPacketIndirect (p q : Nat) : State → Host.Outcome State Fault Refusal :=
  packetEvent "PACKET_INDIRECT" 6 p q fun s y x =>
    let t := y.buf.drop 1
    let buf := x :: (if fetchBegun x t then t else x.unfetched :: t)
    some ((s.onQueue p q fun y => { y with buf := buf }).startHead p q x true 0)

/-- The place of the next indirect packet to fetch, at most eight packets from the head and not beyond a FETCH-FENCE:
the entries before it, and what is unfetched there with the entries after it (R445). -/
def fetchPlace : Nat → List Packet → List Packet → Option (List Packet × Packet × List Packet)
  | _, _, [] => none
  | 0, _, _ => none
  | n + 1, before, x :: t =>
    match x.form with
    | .rest _ (_ + 1) => some (before, x, t)
    | .rest _ 0 => fetchPlace (n + 1) (before ++ [x]) t
    | .again .. => none
    | .plain =>
      if kindOf x.words = 7 then none
      else if kindOf x.words = 6 ∧ !x.bad ∧ !fetchBegun x t then some (before ++ [x], x.unfetched, t)
      else fetchPlace n (before ++ [x]) t

/-- INDIRECT_FETCH_AHEAD (R445): one packet of the next indirect buffer is read at this instant. A refused read stops the
queue once nothing stands before it (R435). -/
def execIndirectFetchAhead (p q : Nat) (s : State) : Host.Outcome State Fault Refusal :=
  let no := Host.Outcome.refused (.notEnabled "INDIRECT_FETCH_AHEAD")
  match s.openQueue p q with
  | none => no
  | some y =>
    match fetchPlace 9 [] y.buf with
    | none => no
    | some (before, x, after) =>
      match x.form with
      | .rest addr (n + 1) =>
        (match reach s p none .load addr 128 with
         | .error .waits => no
         | .error .refused => if before = [] then .next (s.stopQueue p q 3) else no
         | .ok ps =>
           let r := takePackets x.level x.by_ false [wordsOf 16 (reachedBytes s 0 ps)] (s.took ps)
           let rest : Packet := { x with form := .rest (addr + 128) n }
           .next (State.pump p q 1024 (r.1.onQueue p q fun y => { y with buf := before ++ r.2 ++ rest :: after })))
      | _ => no

/-- PACKET_FETCH_FENCE (R441). -/
def execPacketFetchFence (p q : Nat) : State → Host.Outcome State Fault Refusal :=
  packetEvent "PACKET_FETCH_FENCE" 7 p q fun s _ x => some (s.startHead p q x true 0)

/-- PACKET_COPY (R446): the transfer begins; one of no bytes completes at once (R297). -/
def execPacketCopy (p q : Nat) : State → Host.Outcome State Fault Refusal :=
  packetEvent "PACKET_COPY" 8 p q fun s _ x => some (s.startHead p q x (x.w 3 == 0) (x.w 3).toNat)

/-- PACKET_TIMESTAMP (R442): the package time (R162) is written. -/
def execPacketTimestamp (p q : Nat) : State → Host.Outcome State Fault Refusal :=
  packetEvent "PACKET_TIMESTAMP" 9 p q fun s y x =>
    atMemory .store 8 p q (fun s x ps => (s.writeReached ps (wordBytes 8 (wordN s.now))).startHead p q x true 0) s y x

/-! The host's accesses (R450). -/

/-- A range lies in a host window of the partition. -/
def Partition.inWindow (x : Partition) (va n : Nat) : Bool :=
  x.windows.any fun w => decide (w.1 ≤ va) && decide (va + n ≤ w.1 + w.2)

/-- HOST_READ (R435, R450): committed memory at the home, where a failure completes with an error; or a register of a
queue. -/
def execHostRead (p : Nat) (at_ : HostPlace) (n : Nat) (s : State) : Host.Outcome State Fault Refusal :=
  let no := Host.Outcome.refused (.notEnabled "HOST_READ")
  match AMap.find? s.parts p with
  | none => no
  | some x =>
    if !s.hostUp then no
    else
      match at_ with
      | .register q reg =>
        (match s.queue? p q with
         | some y => if reg < 5 then .next { s with out := s.out ++ [.hostAnswer (some (wordBytes 8 (y.readReg reg)))] } else no
         | none => no)
      | .memory va =>
        if !x.inWindow va n then no
        else
          match reach s p none .load (BitVec.ofNat 64 va) n with
          | .error _ => .next { s with out := s.out ++ [.hostAnswer none] }
          | .ok ps => .next { s.took ps with out := s.out ++ [.hostAnswer (some (reachedBytes s 0 ps))] }

/-- HOST_WRITE (R450): on path X, not versioned; a failure completes with an error. -/
def execHostWrite (p va : Nat) (bytes : List (BitVec 8)) (s : State) : Host.Outcome State Fault Refusal :=
  match AMap.find? s.parts p with
  | none => .refused (.notEnabled "HOST_WRITE")
  | some x =>
    if !s.hostUp ∨ !x.inWindow va bytes.length then .refused (.notEnabled "HOST_WRITE")
    else
      match reach s p none .store (BitVec.ofNat 64 va) bytes.length with
      | .error _ => .next { s with out := s.out ++ [.hostAnswer none] }
      | .ok ps =>
        let s := s.writeReached ps bytes
        .next { s with out := s.out ++ [.hostAnswer (some [])] }

end Sys2Proof.Machine
end

