-- ==== Sys2Proof/Machine/Launch.lean ====
section
/-!
DEFINITION. Launches as events: parse (R112 to R115), placement of groups and creation of harts (R116 to R121, R173),
eviction and replacement (R125, R126), the result digest (R464, R465), and retirement with its completion word (R122).
-/

namespace Sys2Proof.Machine

/-! The header (R112, R114). -/

/-- The header is rejected at parse (R114). -/
def headerBad (hdr : List Word) : Bool :=
  let f := fieldOf hdr
  let ws := (List.range 6).map (hdrWidth hdr)
  let n := hdrHpg hdr + 1
  f 1 60 4 != 0 || f 3 56 8 != 0 || f 6 60 4 != 0 || f 7 60 4 != 0
    || f 0 0 3 != 0 || f 1 0 3 != 0 || f 3 0 3 != 0
    || decide (64 < f 0 56 8) || (hdr.getD 2 0).toNat / 2 ^ f 0 56 8 != 0
    || ws.any (fun w => decide (32 < w)) || decide (64 < ws.sum) || decide (2 ^ hdrWidth hdr 0 < n)
    || (List.range 5).any (fun k => decide (2 ^ hdrWidth hdr (k + 1) ≤ hdrExt hdr (k + 1)))
    || hdrWeight hdr == 0 || decide (8 < hdrTiles hdr) || decide (512 < hdrXslice hdr) || decide (512 < hdrVcap hdr)
    || decide (0x400000 < n * hdrTiles hdr * hdrTw hdr * 512) || decide (32768 < n * hdrXslice hdr * 64)

/-! The log of a launch that starts in replay (R458). -/

/-- The entries of a stream of a log area of so many bytes, up to the first word that starts none. -/
def readStream (s : State) : Nat → Nat → Nat → List Word
  | 0, _, _ => []
  | n + 1, pa, left =>
    if left < 16 then []
    else
      let a := s.dword pa
      let kind := (a.extractLsb' 56 8).toNat
      if kind = 0 ∨ 9 < kind then []
      else
        let len := if kind = 4 then 514 else 2
        let ws := (List.range len).map fun i => s.dword (pa + 8 * i)
        ws ++ readStream s n (pa + 8 * len) (left - 8 * len)

/-- The streams of a log area: one for the launch and one for each hart. -/
def readLog (s : State) (base cap : Nat) : Nat → AMap (List Word)
  | 0 => []
  | n + 1 => AMap.put (readLog s base cap n) n (readStream s (cap / 16 + 1) (base + n * cap) cap)

/-! Parse. -/

/-- The identity of a launch (R468): the digest of its kernel's code bytes and its header, where the code can be read. How
many words the kernel has the header does not say (log 16). -/
def State.launchIdentity (s : State) (p : Nat) (hdr : List Word) : Option (List Byte) :=
  match reach s p none .load (hdr.getD 0 0 &&& 0x00FFFFFFFFFFFFFF) (8 * Config.codeWords hdr) with
  | .ok ps => some (sha384 (reachedBytes s 0 ps ++ hdr.flatMap (wordBytes 8)))
  | .error _ => none

/-- The sealed region of a partition that serves a launch: the one whose message named its identity (R468, R469). -/
def State.sealFor (s : State) (p : Nat) (hdr : List Word) : Option Nat :=
  let mine := s.sealedRegs.filter fun (x : Nat × SealedRegion) => x.2.part == p
  if mine.isEmpty then none
  else
    match s.launchIdentity p hdr with
    | some d => (List.find? (fun (x : Nat × SealedRegion) => x.2.ident == d) mine).map fun x => x.1
    | none => none

/-- The launch that a header makes, before any group of it is placed. -/
def State.newLaunch (s : State) (p q : Nat) (y : Queue) (x : Packet) (args : List Word) (bad : Bool) : Launch :=
  let hdr := x.words.drop 8
  let n := if bad then 0 else groupCount hdr
  let r := (AMap.find? s.recs x.lid).getD { replay := false, base := 0, bytes := 0 }
  let mode := if (AMap.find? s.recs x.lid).isNone || bad then 0 else if r.replay then 2 else 1
  { lid := x.lid, part := p, hdr := hdr, args := args, lprio := min y.prio (hdrPcap hdr), priv := y.priv, parsed := s.tick,
    placed := 0, ngroups := n, retired := [], evicted := [], status := bitN bad, queue := some q, by_ := x.by_,
    room := false, chosen := none, tensors := [], commits := 0, recMode := mode,
    streams := if mode = 2 then readLog s r.base r.bytes (1 + n * (hdrHpg hdr + 1)) else [], consumed := [],
    recBase := r.base, recCap := r.bytes, sealed := if bad then none else s.sealFor p hdr, looked := false, eval := none, entry := none, reports := [] }

/-- An event of a launch that a hart of it does not make, offered to die 0's trace unit; of a sealed launch every word but the
first is 0 (R466, R469). -/
def State.traceLaunch (s : State) (kind : Nat) (l : Launch) : State :=
  s.traceEv 0 [traceHead kind 0 l.lid, if l.sealed.isSome then 0 else wordN s.now, 0, 0, 0, 0]

/-- PACKET_LAUNCH (R114, R115, R440): the header is parsed and the argument words are copied, or the launch is rejected. -/
def execPacketLaunch (p q : Nat) : State → Host.Outcome State Fault Refusal :=
  packetEvent "PACKET_LAUNCH" 1 p q fun s y x =>
    let hdr := x.words.drop 8
    let n := fieldOf hdr 0 56 8
    let parse := fun (s : State) (args : List Word) (bad : Bool) =>
      let l := s.newLaunch p q y x args bad
      let s := { s with launches := AMap.put s.launches x.lid l }.traceLaunch 1 l
      let s := if bad then s.logError p 1 [wordN x.lid] else s
      (s.startHead p q x false 0).tell x.by_ (8, x.lid, 0)
    if headerBad hdr then some (parse s [] true)
    else
      match reach s p none .load (hdr.getD 1 0 &&& 0x00FFFFFFFFFFFFFF) (8 * n) with
      | .error .waits => none
      | .error .refused => some (parse s [] true)
      | .ok ps => some (parse (s.took ps) (wordsOf n (reachedBytes s 0 ps)) false)

/-! Placement. -/

/-- The log of a launch lets a placement of a group happen now: room while recording (R460), the logged order in replay
(R461); an exhausted stream holds none back, and diverges (R462). -/
def State.placementLogged (s : State) (l : Launch) (grp : Nat) : Bool :=
  match l.recMode with
  | 1 => l.roomFor 0 2
  | 2 =>
    (match s.nextEntry l.lid 0 with
     | some x => x == (entryHead 9 0, wordN (groupNumber l.hdr grp))
     | none => true)
  | _ => true

/-- The placement of a group is logged, or its entry taken (R459, R461). -/
def State.logPlacement (s : State) (l : Launch) (grp : Nat) : State :=
  match l.recMode with
  | 1 => s.logWords l.lid 0 [entryHead 9 0, wordN (groupNumber l.hdr grp)]
  | 2 => if (s.nextEntry l.lid 0).isSome then s.takeWords l.lid 0 2 else s
  | _ => s

/-- The launch's stream is exhausted in replay. -/
def State.logEnded (s : State) (l : Launch) : Bool := l.recMode == 2 && (s.nextEntry l.lid 0).isNone

/-- A placement that finds the launch's stream exhausted: a hart of the group diverges (R462). -/
def divergePlaced (l : Launch) (s : State) : State :=
  let s := { s with cur := { s.cur with rdexp := 0, rdact := entryHead 9 0 } }
  s.takeTrap 27 (wordN (8 * l.taken 0)) s.cur.ctx.pc 0

/-! Competition for a core (R118). -/

/-- A launch comes before another: launch priority, then the order of parse (R118). -/
def Launch.beats (a b : Launch) : Bool :=
  decide (b.lprio < a.lprio)
    || (a.lprio == b.lprio && (decide (a.parsed < b.parsed) || (a.parsed == b.parsed && decide (a.lid < b.lid))))

/-- A launch would take a core: an evicted group of it first, or its next group, unless that is chosen for another core (R118,
R126, R173). -/
def State.wantsCore (s : State) (l : Launch) (core : Nat) : Bool :=
  (!l.room && l.evicted.any fun g => s.mayTake l g core && s.placementLogged l g)
    || (s.nextWaits l core && (l.chosen.isNone || l.chosen == some core) && s.placementLogged l l.placed)

/-- A launch that comes before this one would take the core (R118). -/
def State.outranked (s : State) (l : Launch) (core : Nat) : Bool :=
  s.launches.any fun (x : Nat × Launch) => x.2.lid != l.lid && x.2.beats l && s.wantsCore x.2 core

/-- A hart at its creation (R121, R133); tfb holds bits [55:12] (R388). -/
def State.newHart (s : State) (l : Launch) (grp core slot hid k tfb : Nat) : Hart :=
  let hdr := l.hdr
  let cbud := if hdrCbud hdr = 0 then 32 else hdrCbud hdr
  let chan : Channel := { Channel.init with left := (1024 * cbud : Nat) }
  let tile : Tile := { p := [], a := [], ovf := false, void := true, place := .here }
  let ctx : Ctx := { Ctx.init with pc := l.code, prio := l.lprio }
  { Hart.blank with
    hid := hid, status := .running, lid := l.lid, grp := grp, idx := k, part := l.part, core := core, slot := slot,
    weight := hdrWeight hdr, strict := l.strict, ordered := l.ordered, coplace := l.coplace, priv := l.priv,
    hpg := hdrHpg hdr, widths := (List.range 6).map (hdrWidth hdr), args := l.args, nargs := l.nargs, lprio := l.lprio,
    tw := hdrTw hdr, ntiles := hdrTiles hdr, xcap := 64 * hdrXslice hdr,
    vcap := if hdrVcap hdr = 0 then 16384 else 1024 * hdrVcap hdr, cbud := cbud, sealed := l.sealed,
    wid := workId hdr grp k, ctx := ctx, frame := ctx.frame 0 false false, tfb := wordN (tfb % 2 ^ 56 / 4096 * 4096), cmn := s.commits,
    snapSeq := s.seq, chans := List.replicate 4 chan, tiles := List.replicate (hdrTiles hdr) tile }

/-- The harts of a group, from index k on, in slots of a core. -/
def State.newHarts (s : State) (l : Launch) (grp core : Nat) : Nat → List Nat → List Nat → List Hart
  | k, slot :: t, tfb :: u => s.newHart l grp core slot (s.nextHid + k) k tfb :: s.newHarts l grp core (k + 1) t u
  | _, _, _ => []

/-- The snapshot entry of a creation in replay (R461): none where the creation must wait for commits, else whether the
entry is the hart's. -/
def State.bornEntry (s : State) (l : Launch) (h : Hart) : Option Bool :=
  if l.recMode = 1 then (if l.roomFor h.stream 2 then some true else none)
  else if l.recMode = 2 then
    match s.nextEntry l.lid h.stream with
    | some (a, b) => if a = entryHead 8 l.code then (if l.commits < b.toNat then none else some true) else some false
    | none => some false
  else some true

/-- A created hart that finds no entry of its snapshot diverges (R462). -/
def divergeAtBirth (l : Launch) (s : State) : State :=
  let pos := s.entryPos
  let found := (s.nextEntry l.lid s.cur.stream).map Prod.fst
  let s := { s with cur := { s.cur with rdexp := found.getD 0, rdact := entryHead 8 l.code } }
  s.takeTrap 27 pos s.cur.ctx.pc 0

/-- What remains once a group's harts stand in the package: their snapshots are logged, and they start or wait for the
residual code (R121, R375). -/
def State.startGroup (s : State) (l : Launch) (core : Nat) (hs : List Hart) : State :=
  let s := s.firstLookup l.lid (dieOfCore core)
  let waits := match AMap.find? s.launches l.lid with | some l => l.eval.isSome | none => false
  let ids := hs.map (·.hid)
  let r := if waits then (s, []) else s.entryOn l.lid (dieOfCore core)
  let s := r.1.mapHarts fun h =>
    if ids.contains h.hid then (if waits then { h with status := .pending } else h.start r.2) else h
  let s := s.reearmark core
  hs.foldl (fun s h => if s.bornEntry l h == some false then s.with_ h.hid (divergeAtBirth l) else s.logSnapshot h) s

/-- GROUP_PLACEMENT (R118 to R121, R173): the next group is placed on a core with frame areas from the firmware, or it is
chosen for the core and waits only for lane groups; no launch that comes before it would take the core. The core is the
event's (log 60). -/
def execGroupPlacement (lid core : Nat) (tfbs : List Nat) (s : State) : Host.Outcome State Fault Refusal :=
  let no := Host.Outcome.refused (.notEnabled "GROUP_PLACEMENT")
  match AMap.find? s.launches lid with
  | none => no
  | some l =>
    let n := hdrHpg l.hdr + 1
    if !s.nextWaits l core ∨ s.outranked l core ∨ tfbs.length ≠ n then no
    else if s.unreserved core < n then
      if l.chosen = some core then no
      else
        let s := s.onLaunch lid fun l => { l with chosen := some core }
        .next (s.reearmark core)
    else
      let hs := s.newHarts l l.placed core 0 ((s.slotsFree core).take n) tfbs
      if !s.placementLogged l l.placed ∨ hs.any (fun h => s.bornEntry l h == none) then no
      else
        let ended := s.logEnded l
        let s := s.logPlacement l l.placed
        let s := { s with rest := s.rest ++ hs, nextHid := s.nextHid + n }.onLaunch lid fun l =>
          { l with placed := l.placed + 1, room := false, chosen := none }
        let s := s.startGroup l core hs
        .next (if ended then s.with_ ((hs.map (·.hid)).headD 0) (divergePlaced l) else s)

/-! Eviction and replacement. -/

/-- How long the hart's architected wait has lasted while resident (R124, R125). -/
def Hart.waited (now : Nat) (h : Hart) : Nat :=
  let lasted := fun (t : Nat) => if h.isSaved then t else now - t
  if !h.inWait then 0
  else
    match h.capWait with
    | some t => lasted t
    | none => lasted h.since

/-- The longest wait in a group. -/
def State.groupWaited (s : State) (lid grp : Nat) : Nat :=
  (s.groupHarts lid grp).foldl (fun m h => max m (h.waited s.now)) 0

/-- The group of a list whose earliest wait began first, ties to the earlier group. -/
def State.firstWaiting (s : State) (lid : Nat) : List Nat → Option Nat
  | [] => none
  | g :: t =>
    match s.firstWaiting lid t with
    | none => some g
    | some x => if s.groupWaited lid g < s.groupWaited lid x then some x else some g

/-- The resident groups of a launch, ascending. -/
def State.residentGroups (s : State) (l : Launch) : List Nat :=
  (List.range l.placed).filter fun g => !l.evicted.contains g && !(s.groupHarts l.lid g).isEmpty

/-- Saves the harts of a group that still run. -/
def saveAll : List Hart → M Bool
  | [] => pure true
  | h :: t => do
    if h.isSaved then saveAll t
    else
      let a ← withHart h.hid saveFront
      if a then saveAll t else pure false

/-- The next group of a launch can be placed somewhere (R125). -/
def State.nextPlaceable (s : State) (l : Launch) : Bool :=
  (List.range (coreCount s.part)).any fun c => s.nextWaits l c && decide (hdrHpg l.hdr + 1 ≤ s.unreserved c)

/-- EVICTION (R125): every hart of every resident group has waited 50 µs; the group that has waited longest is saved whole
and leaves its slots. The save is abandoned where a hart cannot be saved (R126). -/
def execEviction (lid : Nat) (s : State) : Host.Outcome State Fault Refusal :=
  let no := Host.Outcome.refused (.notEnabled "EVICTION")
  match AMap.find? s.launches lid with
  | none => no
  | some l =>
    let gs := s.residentGroups l
    let ready := gs.all fun g => (s.groupHarts lid g).all fun h => decide (50000 ≤ h.waited s.now)
    match s.firstWaiting lid gs with
    | none => no
    | some g =>
      if !ready ∨ s.nextPlaceable l ∨ l.ngroups ≤ l.placed then no
      else
        match saveAll (s.groupHarts lid g) s with
        | .ok true t =>
          if (t.groupHarts lid g).isEmpty then .next t
          else .next (t.onLaunch lid fun l => { l with evicted := l.evicted ++ [g], room := true })
        | _ => no

/-- The waits of a group begin anew at its re-placement (R125). -/
def State.freshWaits (s : State) (lid grp : Nat) : State :=
  s.mapHarts fun h =>
    if h.lid = lid ∧ h.grp = grp ∧ h.isSaved then { h with since := 0, capWait := h.capWait.map fun _ => 0 } else h

/-- GROUP_REPLACEMENT (R118 to R120, R126): an evicted group is placed on a core that has its allotments, where the grants of
all its harts can be reinstated; else its harts only count there (R399). -/
def execGroupReplacement (lid grp core : Nat) (s : State) : Host.Outcome State Fault Refusal :=
  let no := Host.Outcome.refused (.notEnabled "GROUP_REPLACEMENT")
  match AMap.find? s.launches lid with
  | none => no
  | some l =>
    let hs := s.groupHarts lid grp
    if !l.evicted.contains grp ∨ hs.isEmpty ∨ !s.groupSaved lid grp ∨ !s.mayTake l grp core ∨ s.outranked l core
        ∨ !s.placementLogged l grp then no
    else
      let ids := hs.map (·.hid)
      match settleAndResume lid grp core ((s.logPlacement l grp).freshWaits lid grp) with
      | .ok true t =>
        let t := t.onLaunch lid fun l => { l with room := false }
        .next (if s.logEnded l then t.with_ (ids.headD 0) (divergePlaced l) else t)
      | _ => .next (s.aimAt core fun h => ids.contains h.hid)

/-! The result digest (R464, R465). -/

/-- A launch id that is not past: live, in a packet buffer, or not given yet. -/
def State.lidOpen (s : State) (lid : Nat) : Bool :=
  (AMap.find? s.launches lid).isSome || decide (s.nextLid ≤ lid)
    || s.parts.any fun (x : Nat × Partition) => x.2.queues.any fun (y : Nat × Queue) => y.2.buf.any fun b => b.lid == lid

/-- DIGEST_REGISTER (R464). -/
def execDigestRegister (lid : Nat) (ranges : List (Nat × Nat)) (addr : Nat) (s : State) :
    Host.Outcome State Fault Refusal :=
  if s.lidOpen lid ∧ lid ≠ 0 ∧ ranges.length ≤ 16 ∧ ranges.all (fun r => decide (1 ≤ r.2) && decide (r.2 ≤ 2 ^ 40)) then
    .next { s with digs := AMap.put s.digs lid (ranges, addr) }
  else .refused (.notEnabled "DIGEST_REGISTER")

/-- The bytes that a digest covers, or the first range that cannot be read (R464, R465). -/
def digestBytes (s : State) (l : Launch) : List (Nat × Nat) → Except (Nat × Nat) (List Byte)
  | [] => .ok []
  | (base, len) :: t =>
    match reach s l.part l.sealed .load (wordN base) len with
    | .error _ => .error (base, len)
    | .ok ps =>
      match digestBytes s l t with
      | .error e => .error e
      | .ok bs => .ok (toBytes 8 base ++ toBytes 8 len ++ reachedBytes s 0 ps ++ bs)

/-- Writes the digest of a retiring launch, or 32 zero bytes and a record of the range; none while the page of the result
waits (R464, R465). -/
def State.writeDigest (s : State) (l : Launch) : Option State :=
  match AMap.find? s.digs l.lid with
  | none => some s
  | some (ranges, addr) =>
    match reach s l.part l.sealed .store (wordN addr) 32 with
    | .error .waits => none
    | .error .refused => some (s.logError l.part 7 [wordN l.lid, wordN addr])
    | .ok ps =>
      match digestBytes s l ranges with
      | .ok bs => some (s.writeReached ps (sha256 bs))
      | .error (base, len) =>
        some ((s.writeReached ps (List.replicate 32 0)).logError l.part 7 [wordN l.lid, wordN base, wordN len])

/-! Retirement (R122, R123). -/

/-- The completion word (R122). -/
def completionWord (status lid : Nat) : Word := wordN (2 ^ 63 + status % 256 * 2 ^ 48 + lid % 2 ^ 48)

/-- Writes the completion word of a launch; none while its page waits. A header that is rejected because done is not a multiple
of 8 has its word written at the multiple below (R114, R122; DESIGN CHOICE, log 90: the spec does not say where). -/
def State.writeDone (s : State) (l : Launch) : Option State :=
  let done := hdrDone l.hdr
  if done = 0 then some s
  else
    match reach s l.part l.sealed .atomic (wordN (done / 8 * 8)) 8 with
    | .error .waits => none
    | .error .refused => some (s.logError l.part 5 [wordN l.lid, wordN done])
    | .ok ps => some (s.writeReached ps (wordBytes 8 (completionWord l.status l.lid)))

/-- The LAUNCH packet of a launch completes (R440). -/
def State.launchDone (s : State) (l : Launch) : State :=
  match l.queue with
  | none => s
  | some q => s.onQueue l.part q fun y =>
      { y with started := y.started.map fun x =>
          if x.pkt.lid = l.lid ∧ kindOf x.pkt.words = 1 then { x with done := true } else x }

/-- Nothing of a retired launch stays but what it wrote (R122, R376, R458). -/
def State.eraseLaunch (s : State) (l : Launch) : State :=
  let s := s.unpin l.lid l.sealed.isSome
  { s with launches := AMap.erase s.launches l.lid, recs := AMap.erase s.recs l.lid, digs := AMap.erase s.digs l.lid }

/-- LAUNCH_RETIREMENT (R122, R464): every group has retired; the digest is written, then the completion word. -/
def execLaunchRetirement (lid : Nat) (s : State) : Host.Outcome State Fault Refusal :=
  let no := Host.Outcome.refused (.notEnabled "LAUNCH_RETIREMENT")
  match AMap.find? s.launches lid with
  | none => no
  | some l =>
    if l.placed < l.ngroups ∨ s.harts.any (fun h => h.lid == lid) then no
    else
      match (s.writeDigest l).bind fun s => s.writeDone l with
      | none => no
      | some s =>
        let s := (s.traceLaunch 2 l).launchDone l
        .next ((s.tell l.by_ (9, lid, l.status)).eraseLaunch l)

end Sys2Proof.Machine
end

