-- ==== Sys2Proof/Machine/EventsAdmin.lean ====
section
/-!
DEFINITION. Events of system software and the management cores: mailboxes and restarts (R448), the record log (R458, R460),
trace rings (R466), and partitions (R435).
-/

namespace Sys2Proof.Machine

/-- MGMT_CORE_RESTART (R438, R448): mailboxes and the doorbell FIFO keep their contents, and a program sees only time. A
restarted packet firmware goes on at the FIFO's oldest entry, as DOORBELL_ENTRY_PROCESS does. -/
def execMgmtCoreRestart (c : Nat) (s : State) : Host.Outcome State Fault Refusal :=
  if c < 8 then .next s else .refused (.notEnabled "MGMT_CORE_RESTART")

/-- MAILBOX_MESSAGE (R448): one message of 64 bytes enters the mailbox of an ordered pair of cores, which holds sixteen; an
empty message stands for the receiver's acknowledgement, which removes the oldest (log 40). -/
def execMailboxMessage (src dst : Nat) (msg : List Nat) (s : State) : Host.Outcome State Fault Refusal :=
  let no := Host.Outcome.refused (.notEnabled "MAILBOX_MESSAGE")
  let k := 8 * src + dst
  let box := (AMap.find? s.mail k).getD []
  if 8 ≤ src ∨ 8 ≤ dst ∨ src = dst then no
  else if msg = [] then
    match box with
    | [] => no
    | _ :: t => .next { s with mail := AMap.put s.mail k t }
  else if msg.length = 64 ∧ msg.all (fun b => decide (b < 256)) ∧ box.length < 16 then
    .next { s with mail := AMap.put s.mail k (box ++ [msg]) }
  else no

/-- RECORD_START (R458): before the launch is parsed. -/
def execRecordStart (lid : Nat) (setup : RecSetup) (s : State) : Host.Outcome State Fault Refusal :=
  if s.lidOpen lid ∧ (AMap.find? s.launches lid).isNone ∧ lid ≠ 0 ∧ setup.base % 8 = 0 ∧ 16 ≤ setup.bytes
      ∧ setup.bytes % 16 = 0 then
    .next { s with recs := AMap.put s.recs lid setup }
  else .refused (.notEnabled "RECORD_START")

/-- LOG_DRAIN (R460): the consumed position of a stream advances to a byte offset. -/
def execLogDrain (lid stream upto : Nat) (s : State) : Host.Outcome State Fault Refusal :=
  match AMap.find? s.launches lid with
  | some l =>
    if l.recMode = 1 ∧ upto % 16 = 0 ∧ l.taken stream ≤ upto / 8 ∧ upto / 8 ≤ (l.streamOf stream).length then
      .next (s.onLaunch lid fun l => { l with consumed := AMap.put l.consumed stream (upto / 8) })
    else .refused (.notEnabled "LOG_DRAIN")
  | none => .refused (.notEnabled "LOG_DRAIN")

/-- TRACE_ENABLE (R466): the ring of a die is set up, empty, or tracing is disabled. -/
def execTraceEnable (die base size : Nat) (en : Bool) (s : State) : Host.Outcome State Fault Refusal :=
  if dieCount s.part ≤ die then .refused (.notEnabled "TRACE_ENABLE")
  else if en then
    .next (s.onDie die fun d => { d with trEn := true, trBase := base, trSize := size, trPos := 0 })
  else .next (s.onDie die fun d => { d with trEn := false })

/-- A window is a naturally aligned range (R450). -/
def windowOk (w : Nat × Nat) : Bool :=
  w.2 != 0 && decide (2 ^ w.2.log2 = w.2) && w.1 % w.2 == 0 && decide (w.1 + w.2 ≤ 2 ^ 56)

/-- A partition as it is created: its queues disabled, its key indices undefined (R335, R435). -/
def Partition.create (x : PartSetup) : Partition :=
  { root := x.root, queues := (List.range 64).map fun k => (k, Queue.init), fifo := [], nextSeq := 1, lastDone := 0,
    kx := [], elog := [], elogAt := x.elogAt, elogCap := x.elog, elogNext := 0, overruns := 0, windows := x.windows,
    peers := x.peers, breaks := [], debug := false, stepIssue := false, holdLim := 16 }

/-- PARTITION_SETUP (R435, R449 to R451): of at most four partitions, with at most sixteen windows; a source partition is
bound to at most one. -/
def execPartitionSetup (x : PartSetup) (s : State) : Host.Outcome State Fault Refusal :=
  let taken := s.parts.any fun (y : Nat × Partition) => y.2.peers.any fun k => x.peers.contains k
  if x.part < 4 ∧ (AMap.find? s.parts x.part).isNone ∧ x.root % 4096 = 0 ∧ x.windows.length ≤ 16 ∧ x.windows.all windowOk
      ∧ x.peers.all (fun k => decide (k < 2 ^ 16)) ∧ !taken ∧ 1 ≤ x.elog
      ∧ x.elogAt % 128 = 0 ∧ populated s.part x.elogAt ∧ populated s.part (x.elogAt + 128 * x.elog - 1) then
    .next { s with parts := AMap.put s.parts x.part (Partition.create x) }
  else .refused (.notEnabled "PARTITION_SETUP")

end Sys2Proof.Machine
end

