-- ==== Sys2Proof/Machine/EventsCopy.lean ====
section
/-!
DEFINITION. Events of copies: a transfer completes or error-completes (R296, R300), a ring slot is filled (R315), and a
debugger or program clears cerr (R295). The accesses of a transfer are made at its completion (log 36). A COPY packet is
named as channel 4 of 64 × partition + queue, its id its place among the packets its queue has started (R446).
-/

namespace Sys2Proof.Machine

/-- A transfer of a hart in flight. -/
def Hart.transfer (h : Hart) (ch id : Nat) : Option Transfer := (h.chan ch).flight.find? fun t => t.id == id

/-- A peer transfer can reach its package (R301, R452). -/
def State.hasPort (s : State) (t : Transfer) : Bool := !flgPeer t.flg || (s.fabricPort (flgPkg t.flg)).isSome

/-! COPY packets (R446). -/

/-- A started COPY packet that is not complete. -/
def State.copyPacket (s : State) (h id : Nat) : Option (Queue × Started) :=
  match s.queue? (h / 64) (h % 64) with
  | none => none
  | some y =>
    match y.started[id]? with
    | some x => if kindOf x.pkt.words = 8 ∧ !x.done then some (y, x) else none
    | none => none

/-- The package that a COPY packet names (R301, R446). -/
def Packet.copyPkg (x : Packet) : Nat := (x.w 4).toNat % 2 ^ 14

/-- A COPY packet as a linear copy with the peer options (R301, R446). -/
def Packet.copyJob (part : Nat) (x : Packet) : CopyJob :=
  { core := 0, part := part, sealed := none, peer := (x.w 4).getLsbD 16, fromPeer := (x.w 4).getLsbD 17,
    moves := copyMoves 0 (x.w 1) (x.w 2) (x.w 3) none }

/-- The bytes of a COPY packet; no stage window is reached from a queue (R313). -/
def packetReady (s : State) (j : CopyJob) (i : Nat) (ms : List Move) : Except CopyStop (List Ready) :=
  let stage := fun (m : Move) =>
    (!(j.peer && j.fromPeer) && (stageOff m.src).isSome) || (!(j.peer && !j.fromPeer) && (stageOff m.dst).isSome)
  if ms.any stage then .error (some 2) else copyReady s j i ms

/-- The bytes of a COPY packet performed, on path X (R446). -/
def State.performPacket (s : State) (x : Packet) (j : CopyJob) (l : List Ready) : State :=
  let s := if j.peer && j.fromPeer then { s with free := s.free + l.length } else s
  let s := s.writeHome none (s.maskCells (memWrites l))
  if j.peer then { s with out := s.out ++ peerOuts x.copyPkg j.part l } else s

/-- A COPY packet completes, failed or not. -/
def State.endPacket (s : State) (h id : Nat) (x : Started) : State :=
  (s.onQueue (h / 64) (h % 64) fun y => { y with started := y.started.set id { x with done := true, todo := 0 } }).tell
    x.pkt.by_ (10, 8, 0)

/-- The completion of a COPY packet, within its queue's budget. -/
def completePacket (h id : Nat) (s : State) : Host.Outcome State Fault Refusal :=
  let no := Host.Outcome.refused (.notEnabled "COPY_TRANSFER_COMPLETE")
  match s.copyPacket h id with
  | none => no
  | some (y, x) =>
    let j := x.pkt.copyJob (h / 64)
    if moved y.left x.todo < x.todo ∨ (j.peer ∧ (s.fabricPort x.pkt.copyPkg).isNone) then no
    else
      match packetReady s j 0 j.moves with
      | .error _ => no
      | .ok l =>
        let s := s.onQueue (h / 64) (h % 64) fun y => { y with left := y.left - (x.todo : Nat) }
        .next ((s.performPacket x.pkt j l).endPacket h id x)

/-- The bytes of the sectors that resolve, of a COPY packet that fails (R300). -/
def packetMovable (s : State) (j : CopyJob) : Nat → List Move → List Ready
  | _, [] => []
  | i, m :: t =>
    let whole := j.moves.all fun x =>
      x.dst.toNat / 32 != m.dst.toNat / 32 || (packetReady s j 0 [x]).toBool
    match packetReady s j i [m] with
    | .ok l => if whole then l ++ packetMovable s j (i + 1) t else packetMovable s j (i + 1) t
    | .error _ => packetMovable s j (i + 1) t

/-- A COPY packet fails with a kind of R300: each destination sector holds its old value or the copy's, the failure is
recorded, and the queue continues (R446). -/
def State.stopPacket (s : State) (h id kind : Nat) (x : Started) : State :=
  let j := x.pkt.copyJob (h / 64)
  let l := tornBytes (s.free + 2 ^ 47) (packetMovable s j 0 j.moves)
  let s := { s with free := s.free + 2 ^ 47 + sectorSpan }
  let s := (s.performPacket x.pkt j l).logError (h / 64) 3 [wordN (h % 64), wordN kind, x.pkt.w 1, x.pkt.w 2]
  s.endPacket h id x

/-- The failure of a COPY packet with a kind of R300. -/
def failPacket (h id kind : Nat) (s : State) : Host.Outcome State Fault Refusal :=
  let no := Host.Outcome.refused (.notEnabled "COPY_ERROR_COMPLETION")
  match s.copyPacket h id with
  | none => no
  | some (_, x) =>
    let j := x.pkt.copyJob (h / 64)
    let fails := fun (m : Move) => match packetReady s j 0 [m] with | .error (some k) => k == kind | _ => false
    if (kind == 4 && j.peer) || j.moves.any fails then .next (s.stopPacket h id kind x) else no

/-- COPY_TRANSFER_COMPLETE (R296, R299 to R303): its slot is claimed, every page is there, and the channel's budget covers
what is left of it (R21). -/
def execCopyTransferComplete (h ch id : Nat) (s : State) : Host.Outcome State Fault Refusal :=
  let no := Host.Outcome.refused (.notEnabled "COPY_TRANSFER_COMPLETE")
  if ch = 4 then completePacket h id s else
  match s.hart? h with
  | none => no
  | some x =>
    match x.transfer ch id with
    | none => no
    | some t =>
      if (t.ring.isSome && t.slot.isNone) || !s.hasPort t || decide (moved (x.chan ch).left t.todo < t.todo) then no
      else
        match copyReady s (t.job s x) 0 (t.job s x).moves with
        | .error _ => no
        | .ok l =>
          let s := s.onHart h fun y => y.onChan ch fun c => { c with left := c.left - (t.todo : Nat) }
          .next ((s.performCopy x ch t l).endTransfer x ch t 0)

/-- A transfer may fail with a kind: some access of it does, its port is lost, or the peer refuses it (R300). -/
def State.mayFail (s : State) (h : Hart) (t : Transfer) (kind : Nat) : Bool :=
  let j := t.job s h
  (kind == 4 && flgPeer t.flg) || j.moves.any fun m =>
    match copyReady s j 0 [m] with
    | .error (some k) => k == kind
    | _ => false

/-- A transfer of a terminated group that waits for a ring slot ends without one, before the rings are released (R302,
R315). Which kind it ends with is open. -/
def strandedTransfer (h : Hart) (t : Transfer) (kind : Nat) : Bool :=
  t.ring.isSome && t.slot.isNone && h.status == .exited && decide (2 ≤ kind) && decide (kind ≤ 4)

/-- COPY_ERROR_COMPLETION (R300, R302). -/
def execCopyErrorCompletion (h ch id kind : Nat) (s : State) : Host.Outcome State Fault Refusal :=
  let no := Host.Outcome.refused (.notEnabled "COPY_ERROR_COMPLETION")
  if ch = 4 then failPacket h id kind s else
  match s.hart? h with
  | none => no
  | some x =>
    match x.transfer ch id with
    | none => no
    | some t =>
      if strandedTransfer x t kind then .next (s.failTransfer x ch t kind)
      else if (t.ring.isSome && t.slot.isNone) || !s.mayFail x t kind then no
      else .next (s.failTransfer x ch t kind)

/-- The oldest claimed slot of a ring (R315). -/
def Ring.oldestClaimed (r : Ring) : Nat := (r.readPos + r.filled) % r.count

/-- RING_SLOT_FILL (R315): the oldest claimed slot, which its copy has written, passes to filled. -/
def execRingSlotFill (core ring : Nat) (s : State) : Host.Outcome State Fault Refusal :=
  match AMap.find? (s.core core).rings ring with
  | some r =>
    if r.claimed ≠ 0 ∧ r.wrote.contains r.oldestClaimed then
      .next (s.onRing core ring fun r =>
        { r with claimed := r.claimed - 1, filled := r.filled + 1, wrote := r.wrote.filter (· != r.oldestClaimed) })
    else .refused (.notEnabled "RING_SLOT_FILL")
  | none => .refused (.notEnabled "RING_SLOT_FILL")

/-- CERR_CLEAR (R295): cerr and cerrlo are cleared together. -/
def execCerrClear (h ch : Nat) (s : State) : Host.Outcome State Fault Refusal :=
  match s.hart? h with
  | some _ =>
    if ch < 4 then
      .next (s.onHart h fun x => x.onChan ch fun c =>
        { c with errVal := false, errKind := 0, errCnt := 0, errId := 0, loVal := false, loId := 0 })
    else .refused (.notEnabled "CERR_CLEAR")
  | none => .refused (.notEnabled "CERR_CLEAR")

end Sys2Proof.Machine
end

