-- ==== Sys2Proof/Machine/EventsDebug.lean ====
section
/-!
DEFINITION. Events of a debugger (R379 to R381, R404): breakpoints, interrupts, single steps and resumes. A hart of a
sealed launch is never stopped (R161, R469).
-/

namespace Sys2Proof.Machine

/-- Runs a change of a hart with it on the front end where a test holds. -/
def debugEvent (name : String) (k : Nat) (p : State → Bool) (f : State → State) (s : State) :
    Host.Outcome State Fault Refusal :=
  let s' := s.focus k
  if s'.cur.hid = k ∧ s'.cur.status ≠ .absent ∧ s'.cur.sealed.isNone ∧ p s' then .next ((f s').frontAs s)
  else .refused (.notEnabled name)

/-- A partition with a breakpoint added or removed, in ascending order. -/
def Partition.setBreak (x : Partition) (pc : Word) (add : Bool) : Partition :=
  let others := x.breaks.filter (· != pc)
  let breaks := if add then (others.filter fun b => decide (b.toNat < pc.toNat)) ++ pc :: others.filter (fun b => decide (pc.toNat < b.toNat))
    else others
  { x with breaks := breaks, debug := true }

/-- BREAKPOINT_SET (R379): later launches see the new set through bkpt (R374). -/
def execBreakpointSet (p : Nat) (pc : BitVec 64) (add : Bool) (s : State) : Host.Outcome State Fault Refusal :=
  if (AMap.find? s.parts p).isSome then .next (s.onPart p fun x => x.setBreak pc add)
  else .refused (.notEnabled "BREAKPOINT_SET")

/-- BREAKPOINT_STOP (R379): the hart stops before the word at which it stands. -/
def execBreakpointStop (h : Nat) : State → Host.Outcome State Fault Refusal :=
  debugEvent "BREAKPOINT_STOP" h (fun s => s.cur.status == .running && s.atBreakpoint) fun s => s.stopHart .point 0

/-- DEBUGGER_INTERRUPT (R404): the hart stops at a boundary, and so not inside an instance of several words (R76, R380), or
inside its wait; the debugger is attached. -/
def execDebuggerInterrupt (h : Nat) : State → Host.Outcome State Fault Refusal :=
  debugEvent "DEBUGGER_INTERRUPT" h (fun s => s.cur.status == .running && !s.cur.midPair) fun s =>
    (s.stopHart .plain 0).onPart s.cur.part fun x => { x with debug := true }

/-- The place of a stop, if the hart is stopped. -/
def Hart.stoppedAt (h : Hart) : Option StopAt :=
  match h.status with
  | .stopped a => some a
  | _ => none

/-- SINGLE_STEP (R380, R404): the hart runs until the original instruction or its iteration changes; from a brk it steps
to the word after it (R161). The debugger's mode stands from then on. -/
def execSingleStep (h : Nat) (issue : Bool) : State → Host.Outcome State Fault Refusal :=
  debugEvent "SINGLE_STEP" h (fun s => s.cur.stoppedAt.isSome) fun s =>
    let x := s.cur
    let s := s.onPart x.part fun p => { p with stepIssue := issue }
    if x.stoppedAt = some .brk then { s with cur := x.retire }.stopHart .plain 0
    else
      { s with cur := { x with status := .running, stepping := some issue, stepPc := x.ctx.pc, stepIter := x.ctx.iter,
                               pass := true } }

/-- A hart may hold what a debugger writes (R185, R40). -/
def editOk : RegEdit → Bool
  | .g _ _ => true
  | .nr v => rowsOk v
  | .vtype v => vtypeOk (v &&& 0xF3F)
  | .frm v => decide (v.toNat < 4)

/-- A debugger's write. -/
def Hart.edit (h : Hart) : RegEdit → Hart
  | .g i v => h.wr i v
  | .nr v => h.onCtx fun c => { c with nr := v }
  | .vtype v => h.onCtx fun c => c.setVtype (v &&& 0xF3F)
  | .frm v => h.onCtx fun c => { c with rm := v }

/-- DEBUGGER_RESUME (R161, R381): the hart goes on where it stopped, after a brk at the next word, and in the original code
where a write changed a register. -/
def execDebuggerResume (h : Nat) (edits : List RegEdit) : State → Host.Outcome State Fault Refusal :=
  debugEvent "DEBUGGER_RESUME" h (fun s => s.cur.stoppedAt.isSome && edits.all editOk) fun s =>
    let x := s.cur
    let y := edits.foldl Hart.edit x
    let y := if y.ctx ≠ x.ctx ∧ x.ctx.resid.isSome then y.leaveTo x.ctx.pc else y
    let y := if x.stoppedAt = some .brk then y.retire else { y with pass := true }
    s.putShape { y with status := .running }

end Sys2Proof.Machine
end

