-- ==== Sys2Proof/Machine/GossipCtl.lean ====
section
/-!
DEFINITION. Exchanges and their resolution (R414 to R417, R420) and the scalar gossip instructions, major 0x70: gadd
(R426), gw, gspr (R429), gstep (R430), gquiet (R431) and gctl (R432).
-/

namespace Sys2Proof.Machine

/-! Exchanges. -/

/-- Changes a peer port. -/
def State.onPort (s : State) (p : Nat) (f : Port → Port) : State :=
  match AMap.find? s.ports p with
  | some x => { s with ports := AMap.put s.ports p (f x) }
  | none => s

/-- A port that the links firmware has declared lost. -/
def State.portLost (s : State) (p : Nat) : Bool :=
  match AMap.find? s.ports p with
  | some x => x.lost
  | none => false

/-- A receipt, return or contribution of a region was refused for overflow: ovf, the interrupt to the errors firmware
and the record (R415, R449). -/
def State.overflowed (s : State) (n part : Nat) : State :=
  let s := (s.onRegion n fun r => { r with ovf := true }).logError part 4 [BitVec.ofNat 64 n]
  { s with out := s.out ++ [.irq 4] }

/-- The message is this one. -/
def Sent.is (m : Sent) (port seq region : Nat) : Bool := m.port == port && m.seq == seq && m.region == region

/-- Unresolved sent messages and held receipts of a region (R431, R432). -/
def State.outstanding (s : State) (n : Nat) (r : Region) : Nat :=
  (s.sent.filter fun m => m.region == n).length + r.held.length

/-- Nothing of a region is outstanding; an undefined one has nothing (R431). -/
def State.quiet (s : State) (n : Nat) : Bool :=
  match AMap.find? s.regions n with
  | some r => s.outstanding n r == 0
  | none => true

/-- A gquiet keeps that its region was quiet at this instant (R431). -/
def State.latchQuiet (s : State) : State :=
  s.mapHarts fun h =>
    match h.wait with
    | some (.gquiet n false) => if s.quiet n then { h with wait := some (.gquiet n true) } else h
    | _ => h

/-- A message is resolved: it is in hand no more. -/
def State.resolve (s : State) (m : Sent) : State :=
  { s with sent := s.sent.filter fun x => !x.is m.port m.seq m.region }.latchQuiet

/-- Keeps a message in hand until the next try (R416). -/
def State.keepSent (s : State) (m : Sent) : State :=
  { s with sent := s.sent.map fun (x : Sent) =>
      if x.is m.port m.seq m.region then { x with back := true, sentAt := s.now } else x }

/-- A message comes back: its halves are added to the sender's page as one step, or it is kept in hand where a word
would overflow (R416), or where the page cannot be read (R28, log 73). A message of the round under way makes it end with loss
(R430). -/
def State.giveBack (s : State) (m : Sent) : State :=
  match AMap.find? s.regions m.region with
  | none => s.resolve m
  | some r =>
    let s := s.onRegion m.region fun r => { r with roundLoss := r.roundLoss || m.round == some r.rnd.toNat }
    if s.pageBad r m.page then s.keepSent m
    else
      match s.addBack r m.page m.words with
      | some s => s.resolve m
      | none => (s.keepSent m).overflowed m.region r.part

/-- One exchange of a page toward a port: it is halved, and the halves are sent and held until they are resolved (R414).
What is sent on a port already declared lost comes back at once (R417, log 34). -/
def State.exchange (s : State) (n page port : Nat) (round : Option Nat) : State :=
  match AMap.find? s.regions n with
  | none => s
  | some r =>
    let x := s.halvePage n r page
    let s := x.1
    let seq := match AMap.find? s.ports port with
      | some p => (AMap.find? p.sentSeq n).getD 0 + 1
      | none => 1
    let words := x.2.map (BitVec.ofInt 64)
    let m : Sent := { port := port, seq := seq, region := n, page := page, round := round, words := words,
                      back := false, sentAt := s.now, gap := 10000 }
    let s := s.onPort port fun p => { p with sentSeq := AMap.put p.sentSeq n seq }
    let s := { s with sent := s.sent ++ [m] }
    if s.portLost port then s.giveBack m
    else { s with out := s.out ++ [.gossip port
      { region := n, page := page, seq := seq, round := round, words := words }] }

/-- The receive port of the slot of the round under way (R420). -/
def Region.rp (r : Region) : Nat := (r.slots.getD (r.rnd.toNat % r.deg) (0, 0)).2

/-- The send port of the slot of the round under way (R420). -/
def Region.sp (r : Region) : Nat := (r.slots.getD (r.rnd.toNat % r.deg) (0, 0)).1

/-- Adds a received message that is due, or refuses it for overflow or because its page cannot be read (R28); the sender is
told which (R415). A stepped round has its receipt of a page once it is added from the round's port (R420, R430). -/
def State.applyReceipt (s : State) (n : Nat) (r : Region) (port seq page : Nat) (words : List Word) : State :=
  let refuse := fun (s : State) => { s with out := s.out ++ [.gossipRefuse n port seq] }
  if s.pageBad r page then refuse s
  else
  match s.addReceipt n r page (words.map BitVec.toInt) with
  | none => refuse (s.overflowed n r.part)
  | some s =>
    let s := s.onRegion n fun r => if r.mode && port == r.rp then { r with got := page :: r.got } else r
    let s := s.onPort port fun p => { p with accepted := AMap.put p.accepted n seq }
    { s with out := s.out ++ [.gossipAck n port seq] }

/-- The receipts held for a page of the round under way are added now that the page is halved (R420, R430). -/
def State.applyHeld (s : State) (n page : Nat) : State :=
  match AMap.find? s.regions n with
  | none => s
  | some r =>
    let due := r.held.filter fun h => h.page == page && h.round == r.rnd.toNat
    let s := s.onRegion n fun r => { r with held := r.held.filter fun h => !(h.page == page && h.round == r.rnd.toNat) }
    (due.foldl (fun s h =>
      match AMap.find? s.regions n with
      | some r => s.applyReceipt n r h.port h.seq h.page h.words
      | none => s) s).latchQuiet

/-! The region that an instruction names. -/

/-- A defined region of the hart's partition (R410). -/
def State.ownRegion (s : State) (n : Nat) : Option Region :=
  match AMap.find? s.regions n with
  | some r => if r.part = s.cur.part then some r else none
  | none => none

/-- The unit-absent trap of a part without exchange engines (R87). -/
def gxeGate (w : Word) : M Unit := do
  if (← get).part = .tl430 then trapHere 23 w

/-- A free-mode region named in an ordered launch takes the ordered-mode trap (R423). -/
def freeGate (w : Word) (r : Region) : M Unit := do
  if (← hart).ordered ∧ !r.mode then trapHere 25 w

/-- The same for a region that an instruction names by number. -/
def regionGate (w : Word) (n : BitVec 4) : M Unit := do
  match (← get).ownRegion n.toNat with
  | some r => freeGate w r
  | none => pure ()

/-- The region and page of a scalar gossip access to word k of the page, or its trap (R423, R425). -/
def wordRegion (w : Word) (ea : Word) (k : Nat) : M (Nat × Region × Nat) := do
  let s ← get
  match s.regionAt s.cur.part ea with
  | none => trapHere 17 ea
  | some x =>
    if ea.toNat % 8 ≠ 0 then trapHere 17 ea
    freeGate w x.2.1
    let pa := x.2.1.wordPa x.2.2 k
    if s.badPa pa then trapHere 21 (wordN (pa / 64 * 64))
    return x

/-- gadd (R421, R423, R426). -/
def execGadd (d a b : GReg) : State → Host.Outcome State Fault Refusal :=
  runHart do
    let w := (← hart).wordOf (.gadd d a b)
    gxeGate w
    drainQueue
    let h ← hart
    let ea := h.rd a
    let k := ea.toNat % 4096 / 8
    let x ← wordRegion w ea k
    if h.ordered then
      modHart fun h => h.deferNow (.gadd x.1 x.2.2 k (h.rd b))
      result d 0
    else
      modify fun s => s.gossipAccess x.1 x.2.2 (some s.cur.contributor)
      let y := (← get).contribute none x.1 x.2.2 k (h.rd b).toInt
      set y.1
      result d (if y.2 then 0 else 1)

/-- gw (R429): the weight, word 0 of the page. -/
def execGw (d a : GReg) : State → Host.Outcome State Fault Refusal :=
  runHart do
    let w := (← hart).wordOf (.gw d a)
    gxeGate w
    drainQueue
    let x ← wordRegion w ((← hart).rd a) 0
    modify fun s => s.gossipAccess x.1 x.2.2 none
    noteGossip x.2.1 x.2.2 0
    result d ((← get).dword (x.2.1.wordPa x.2.2 0))

/-- The largest spread word; spreads are not negative (R429). -/
def largestSpread (m : Sparse 32) : Nat := m.foldl (fun a x => max a x.2.toNat) 0

/-- In an ordered launch the task waits until it is the oldest (R423); this is no architected wait. -/
def awaitTurn : M Unit := do
  let s ← get
  if s.cur.ordered ∧ !s.oldest then standStill .gossipTurn

/-- gspr (R423, R429). -/
def execGspr (d : GReg) (n : BitVec 4) : State → Host.Outcome State Fault Refusal :=
  runHart do
    let w := (← hart).wordOf (.gspr d n)
    gxeGate w
    drainQueue
    regionGate w n
    awaitTurn
    match (← get).ownRegion n.toNat with
    | none => result d 0
    | some r =>
      modify fun s => s.onRegion n.toNat fun r => { r with spread := [] }
      result d (wordN (largestSpread r.spread))

/-! gstep. -/

/-- Halves pages of the round while the budget lasts, each with the receipt held for it (R430). No exchange is made of a page
that cannot be read, and the round ends with loss (R28, log 73); a region whose engines a gctl stops makes none (R432). -/
def State.sweepRound (n : Nat) : Nat → State → State
  | 0, s => s
  | fuel + 1, s =>
    match AMap.find? s.regions n with
    | none => s
    | some r =>
      if r.npg ≤ r.halved ∨ r.left = 0 ∨ s.fenced ∨ r.closing then s
      else
        let page := r.halved
        let s := s.onRegion n fun r => { r with left := r.left - 1 }
        let s := if s.pageBad r page then s.onRegion n fun r => { r with roundLoss := true }
          else s.exchange n page r.sp (some r.rnd.toNat)
        let s := s.onRegion n fun r => { r with halved := page + 1 }
        State.sweepRound n fuel (s.applyHeld n page)

/-- Every page of the round has its receipt (R430). -/
def Region.gotAll (r : Region) : Bool := (List.range r.npg).all r.got.contains

/-- The round under way can end: every page halved, every message resolved, every receipt added or its port lost
(R430). -/
def State.roundDone (s : State) (n : Nat) (r : Region) : Bool :=
  decide (r.npg ≤ r.halved)
    && (s.sent.all fun m => !(m.region == n && m.round == some r.rnd.toNat))
    && (r.gotAll || s.portLost r.rp)

/-- The round ends: it counts, and the next has sent and received nothing (R430). Answers gd. -/
def State.endRound (s : State) (n : Nat) (r : Region) : State × Word :=
  (s.onRegion n fun r => { r with rnd := r.rnd + 1, halved := 0, got := [], roundLoss := false },
    if r.roundLoss || !r.gotAll then 2 else 0)

/-- gstep (R423, R430): an architected wait. A hart whose round another hart ended leaves with it. -/
def execGstep (d a : GReg) (n : BitVec 4) : State → Host.Outcome State Fault Refusal :=
  runHart do
    let w := (← hart).wordOf (.gstep d a n)
    gxeGate w
    drainQueue
    regionGate w n
    awaitTurn
    let s ← get
    match s.ownRegion n.toNat with
    | none => result d 3
    | some r =>
      if !r.mode then result d 3
      else
        if s.cur.rd a ≠ r.rnd then result d 1
        else
          modify (State.sweepRound n.toNat r.npg)
          let s ← get
          match AMap.find? s.regions n.toNat with
          | none => leave
          | some r =>
            if s.roundDone n.toNat r then
              let x := s.endRound n.toNat r
              set x.1
              result d x.2
            else standStill .gstep

/-! gquiet and gctl. -/

/-- The word of a gctl (R425). -/
def gctlWord (bm : Bool) (op : BitVec 2) (d a : GReg) (n : BitVec 4) : Word :=
  packA bm 0x70 { minor := 8, d := d, a := a, imm := 0#4 ++ (0#6 ++ op ++ n) }

/-- The word of a gquiet (R425). -/
def gquietWord (bm : Bool) (n : BitVec 4) : Word := packA bm 0x70 { minor := 7, imm := 0#4 ++ (0#8 ++ n) }

/-- gquiet (R423, R431): it ends at the first instant since it began at which nothing of the region is outstanding. -/
def execGquiet (n : BitVec 4) : State → Host.Outcome State Fault Refusal :=
  runHart do
    let w := gquietWord (← hart).mark n
    gxeGate w
    drainQueue
    regionGate w n
    match (← hart).wait with
    | some (.gquiet _ true) => modHart Hart.retire
    | _ =>
      awaitTurn
      let s ← get
      if (s.ownRegion n.toNat).isNone || s.quiet n.toNat then modHart Hart.retire
      else standStill (.gquiet n.toNat false)

/-- What every gctl checks: the part's engines, privileged mode, and an ordered launch's regions (R87, R423, R425). -/
def gctlGate (w : Word) (n : BitVec 4) : M Unit := do
  gxeGate w
  if !(← hart).priv then trapHere 16 w
  drainQueue
  regionGate w n

/-- The slots of a descriptor in use, as send and receive port (R411). -/
def descSlots (d : List Word) : List (Nat × Nat) :=
  (List.range (fieldOf d 2 0 4)).map fun i => (fieldOf d 3 (8 * i) 4, fieldOf d 3 (8 * i + 4) 4)

/-- Every field of a region's descriptor lies in its range and every reserved one is zero (R411). -/
def regionFits (d : List Word) : Bool :=
  fieldOf d 0 56 8 == 0 && fieldOf d 0 0 12 == 0 && fieldOf d 1 55 9 == 0 && fieldOf d 1 41 7 == 0
    && fieldOf d 1 38 2 == 0 && decide (1 ≤ fieldOf d 1 48 7) && decide (fieldOf d 1 48 7 ≤ 64)
    && decide (fieldOf d 1 32 6 ≤ 62) && decide (1 ≤ fieldOf d 1 0 32) && decide (fieldOf d 1 0 32 ≤ 2 ^ 20)
    && fieldOf d 2 4 60 == 0 && decide (1 ≤ fieldOf d 2 0 4) && decide (fieldOf d 2 0 4 ≤ 8)
    && d.getD 4 0 == 0 && d.getD 5 0 == 0 && d.getD 6 0 == 0 && d.getD 7 0 == 0

/-- The physical pages of a region, where each is a present 4 KiB mapping of class 2, readable and writable (R412). -/
def regionPages (s : State) (part base : Nat) : Nat → Option (List Nat)
  | 0 => some []
  | n + 1 =>
    let va := base
    if 2 ^ 56 ≤ va then none
    else
      match leafOf s part va with
      | .error _ => none
      | .ok (e, _) =>
        if pteCls e = 2 ∧ pteR e ∧ pteW e ∧ pteSize e = 0 then
          match regionPages s part (base + 4096) n with
          | some l => some (leafPa e va :: l)
          | none => none
        else none

/-- A port with a live link to another package (R17, R432). -/
def State.liveLink (s : State) (p : Nat) : Bool := s.carries p

/-- A region as its descriptor defines it (R411, R432). -/
def regionOf (part : Nat) (d : List Word) (pages : List Nat) : Region :=
  { part := part, base := fieldOf d 0 0 56, npg := fieldOf d 1 0 32, frac := fieldOf d 1 32 6,
    mode := fieldOf d 1 40 1 == 1, bud := fieldOf d 1 48 7, deg := fieldOf d 2 0 4, slots := descSlots d, rnd := 0,
    ovf := false, lost := false, pages := pages, spread := [], held := [], roundLoss := false,
    left := fieldOf d 1 48 7, counts := [], contrib := [], cursor := [], halved := 0, got := [], closing := false }

/-- The status of a definition, with the state where it is made (R432). Its pages are pinned from then on (R412), and in
replay the entries logged for their first access are due at once (R461). -/
def defineRegion (s : State) (n : Nat) (d : List Word) : State × Word :=
  if !regionFits d then (s, 2)
  else
    match regionPages s s.cur.part (fieldOf d 0 0 56) (fieldOf d 1 0 32) with
    | none => (s, 3)
    | some pages =>
      if (descSlots d).all fun x => s.liveLink x.1 && s.liveLink x.2 then
        let s := { s with regions := AMap.put s.regions n (regionOf s.cur.part d pages) }.stopMoves s.cur.part
          (pagesOf (fieldOf d 0 0 56) (4096 * pages.length))
        ((List.range pages.length).foldl (fun s p => State.replayGossip n p 4096 s) s, 0)
      else (s, 4)

/-- gctl op 0 (R432). -/
def execGctlDefine (d a : GReg) (n : BitVec 4) : State → Host.Outcome State Fault Refusal :=
  runHart do
    gctlGate (gctlWord (← hart).mark 0 d a n) n
    if (AMap.find? (← get).regions n.toNat).isSome then result d 1
    else
      drainAll
      match ← readBytes .load (← get).lookNow ((← hart).rd a) 64 with
      | .error (ea, f) => accessFault ea f
      | .ok bs =>
        let x := defineRegion (← get) n.toNat ((List.range 8).map fun k => leWord ((bs.drop (8 * k)).take 8))
        set x.1
        result d x.2

/-- gctl op 1 (R432): the engines stop, and it waits as gquiet does. -/
def execGctlUndefine (d a : GReg) (n : BitVec 4) : State → Host.Outcome State Fault Refusal :=
  runHart do
    gctlGate (gctlWord (← hart).mark 1 d a n) n
    let s ← get
    match s.ownRegion n.toNat with
    | none => result d 1
    | some r =>
      set (s.onRegion n.toNat fun r => { r with closing := true })
      awaitTurn
      if s.outstanding n.toNat r = 0 then
        modify fun s => { s with regions := AMap.erase s.regions n.toNat }
        result d 0
      else leave

/-- The status word of a region (R432). -/
def State.regionStatus (s : State) (n : Nat) : Word :=
  match s.ownRegion n with
  | none => 0
  | some r =>
    wordN (r.rnd.toNat % 2 ^ 32 * 2 ^ 32 + min (s.outstanding n r) 0xFFFF * 2 ^ 16 + bitN r.lost * 8 + bitN r.ovf * 4
      + bitN r.mode * 2 + 1)

/-- gctl op 2 (R432). -/
def execGctlStatus (d a : GReg) (n : BitVec 4) : State → Host.Outcome State Fault Refusal :=
  runHart do
    gctlGate (gctlWord (← hart).mark 2 d a n) n
    result d ((← get).regionStatus n.toNat)

/-- gctl op 3 (R432). -/
def execGctlStatusClear (d a : GReg) (n : BitVec 4) : State → Host.Outcome State Fault Refusal :=
  runHart do
    gctlGate (gctlWord (← hart).mark 3 d a n) n
    let s ← get
    let x := s.regionStatus n.toNat
    if (s.ownRegion n.toNat).isSome then modify fun s => s.onRegion n.toNat fun r => { r with ovf := false, lost := false }
    result d x

end Sys2Proof.Machine
end

