-- ==== Sys2Proof/Machine/EventsGossip.lean ====
section
/-!
DEFINITION. Events of gossip: exchanges of the free-mode engines (R414, R419), receipts (R415, R420), and the resolution of
messages (R416, R417).
-/

namespace Sys2Proof.Machine

/-- The home die of a page. -/
def Region.die (r : Region) (page : Nat) : Nat := homeDie (r.wordPa page 0)

/-- The pages of a region that the engine of a die serves, ascending. -/
def Region.pagesOf (r : Region) (die : Nat) : List Nat := (List.range r.npg).filter fun k => r.die k == die

/-- Where the engine of a die stands: its first page and slot 0 at definition (R419). How the four engines of a die share its
pages and slots the spec leaves open: the model keeps one place per die and region (DESIGN CHOICE, log 73). -/
def Region.place (r : Region) (die : Nat) : Nat × Nat :=
  (AMap.find? r.cursor die).getD ((r.pagesOf die).headD 0, 0)

/-- The place after a page and slot: the next slot, else slot 0 of the engine's next page, which wraps (R419). -/
def Region.nextPlace (r : Region) (page slot : Nat) : Nat × Nat :=
  if slot + 1 < r.deg then (page, slot + 1)
  else
    let ps := r.pagesOf (r.die page)
    (((ps.find? fun k => decide (page < k)).getD (ps.headD 0)), 0)

/-- The engine of a page's die has moved on. -/
def State.engineNext (s : State) (n page slot : Nat) : State :=
  s.onRegion n fun r => { r with left := r.left - 1, cursor := AMap.put r.cursor (r.die page) (r.nextPlace page slot) }

/-- GOSSIP_EXCHANGE (R414, R419): the engine of a die exchanges the page and slot where it stands, within the region's
budget (R21). No exchange is made of a page that cannot be read (R28), nor while the partition replays (R461). -/
def execGossipExchange (reg page slot : Nat) (s : State) : Host.Outcome State Fault Refusal :=
  let no := Host.Outcome.refused (.notEnabled "GOSSIP_EXCHANGE")
  match AMap.find? s.regions reg with
  | none => no
  | some r =>
    if r.mode ∨ r.closing ∨ s.fenced ∨ r.left = 0 ∨ r.npg ≤ page ∨ r.place (r.die page) ≠ (page, slot)
        ∨ s.replaying r.part ∨ !(s.gossipRoom r page 2) then no
    else
      let s := s.engineNext reg page slot
      if s.pageBad r page then .next s
      else
        let port := (r.slots.getD slot (0, 0)).1
        .next ((s.logGossip reg r page port 5 []).exchange reg page port none)

/-! Receipts. -/

/-- The sender of a message is told that it is refused (R415, R416). -/
def State.refuseMessage (s : State) (port : Nat) (m : GMsg) : State :=
  { s with out := s.out ++ [.gossipRefuse m.region port m.seq] }

/-- A port that a region names in a slot (R415). -/
def Region.names (r : Region) (port : Nat) : Bool := r.slots.any fun x => x.1 == port || x.2 == port

/-- A message is a duplicate: accepted before, or settled as refused after its port was lost (R415, R417). -/
def Port.duplicate (x : Port) (m : GMsg) : Bool :=
  decide (m.seq ≤ (AMap.find? x.accepted m.region).getD 0) || decide (m.seq ≤ (AMap.find? x.dropTo m.region).getD 0)

/-- A stepped message is due: of the round under way, its page halved (R420). -/
def Region.due (r : Region) (m : GMsg) : Bool := m.round.getD 0 == r.rnd.toNat && decide (m.page < r.halved)

/-- GOSSIP_RECEIPT (R415, R420): refused, dropped as a duplicate, held until it is due, or added. A page that cannot be
read refuses it (R28). -/
def execGossipReceipt (port : Nat) (m : GMsg) (s : State) : Host.Outcome State Fault Refusal :=
  let no := Host.Outcome.refused (.notEnabled "GOSSIP_RECEIPT")
  match AMap.find? s.ports port with
  | none => no
  | some x =>
    if portCount s.part ≤ port ∨ !x.cabled ∨ !x.up ∨ s.fenced ∨ s.part = .tl430 ∨ m.words.length ≠ 512 then no
    else
      match AMap.find? s.regions m.region with
      | none => .next (s.refuseMessage port m)
      | some r =>
        if r.npg ≤ m.page ∨ !r.names port then .next (s.refuseMessage port m)
        else if x.duplicate m then .next { s with out := s.out ++ [.gossipAck m.region port m.seq] }
        else if r.mode then
          if r.held.any (fun h => h.port == port && h.seq == m.seq) then .next s
          else if !r.due m then
            .next (s.onRegion m.region fun r =>
              { r with held := r.held ++ [{ port := port, seq := m.seq, page := m.page, round := m.round.getD 0, words := m.words }] })
          else if s.pageBad r m.page then .next (s.refuseMessage port m)
          else .next (s.applyReceipt m.region r port m.seq m.page m.words)
        else if s.replaying r.part ∨ !(s.gossipRoom r m.page 514) then no
        else if s.pageBad r m.page then .next (s.refuseMessage port m)
        else
          let fits := (addWords (s.pageWords r m.page) (m.words.map BitVec.toInt)).isSome
          let s := if fits then s.logGossip m.region r m.page port 4 m.words else s
          .next (s.applyReceipt m.region r port m.seq m.page m.words)

/-! Resolution. -/

/-- An unresolved message that has not come back. -/
def State.flying (s : State) (reg port seq : Nat) : Option Sent := s.sent.find? fun m => m.is port seq reg && !m.back

/-- GOSSIP_ACK (R416): the message is discarded. -/
def execGossipAck (reg port seq : Nat) (s : State) : Host.Outcome State Fault Refusal :=
  match s.flying reg port seq with
  | some m => .next (s.resolve m)
  | none => .refused (.notEnabled "GOSSIP_ACK")

/-- GOSSIP_REFUSAL_NOTICE (R416): the halves are added back. -/
def execGossipRefusalNotice (reg port seq : Nat) (s : State) : Host.Outcome State Fault Refusal :=
  match s.flying reg port seq with
  | some m => .next (s.giveBack m)
  | none => .refused (.notEnabled "GOSSIP_REFUSAL_NOTICE")

/-- The longest interval of a retransmission, 1 ms (R416). -/
def maxGap : Nat := 1000000

/-- GOSSIP_RETRANSMIT (R416): after 10 µs without a response, later at rising intervals up to 1 ms, with the same seq. `next`
is the interval to the following one. -/
def execGossipRetransmit (reg port : Nat) (msg : Resend) (s : State) : Host.Outcome State Fault Refusal :=
  let seq := msg.seq
  let next := msg.next
  match s.flying reg port seq with
  | some m =>
    if s.now < m.sentAt + m.gap ∨ s.portLost port ∨ s.fenced ∨ maxGap < next ∨ (next ≤ m.gap ∧ m.gap < maxGap) ∨ next < m.gap then
      .refused (.notEnabled "GOSSIP_RETRANSMIT")
    else
      let again := fun (x : Sent) => if x.is port seq reg then { x with sentAt := s.now, gap := next } else x
      .next { s with
        sent := s.sent.map again,
        out := s.out ++ [.gossip port { region := reg, page := m.page, seq := seq, round := m.round, words := m.words }] }
  | none => .refused (.notEnabled "GOSSIP_RETRANSMIT")

/-- GOSSIP_ADD_BACK_RETRY (R416): a message kept in hand for an overflow is tried again once a period boundary has
passed. -/
def execGossipAddBackRetry (reg port seq : Nat) (s : State) : Host.Outcome State Fault Refusal :=
  match s.sent.find? fun m => m.is port seq reg && m.back with
  | some m =>
    if m.sentAt / 1000 < s.now / 1000 then .next (s.giveBack m) else .refused (.notEnabled "GOSSIP_ADD_BACK_RETRY")
  | none => .refused (.notEnabled "GOSSIP_ADD_BACK_RETRY")

/-- Settles a message on a lost port by the receiver's answers (R417); none come from a fenced receiver. -/
def State.settleMessage (s : State) (got : Option (List (Nat × Nat))) (m : Sent) : State :=
  match got with
  | some l =>
    (match l.find? fun x => x.1 == m.region with
     | some (_, a) => if m.seq ≤ a then s.resolve m else s.giveBack m
     | none => s.giveBack m)
  | none => s.giveBack m

/-- What the sender on a lost port told: held receipts above the answer are discarded, and later arrivals up to its
highest sequence number are duplicates (R417). -/
def State.heedTold (s : State) (port : Nat) (x : Nat × Nat) : State :=
  let answer := match AMap.find? s.ports port with | some y => (AMap.find? y.accepted x.1).getD 0 | none => 0
  let s := s.onRegion x.1 fun r => { r with held := r.held.filter fun h => !(h.port == port && decide (answer < h.seq)) }
  s.onPort port fun y => { y with dropTo := AMap.put y.dropTo x.1 (max x.2 ((AMap.find? y.dropTo x.1).getD 0)) }

/-- An unanswered request after the loss of a port: sent again on another port under its number, or lost where no route to its
package is left (R452). -/
def State.reask (s : State) (port : Nat) (a : Asked) : State :=
  let set_ := fun (b : Asked) => { s with asked := s.asked.map fun x => if x.port == a.port && x.seq == a.seq then b else x }
  match s.fabricPort a.pkg with
  | none => set_ { a with lost := true }
  | some p => if a.via = port then { set_ { a with via := p } with out := s.out ++ [.fabric a.pkg a.port p a.part a.req] } else s

/-- PORT_LOST (R417, R452): the regions that use the port are marked, and its unresolved messages are settled by the last
accepted numbers that the receiver answers, by region, or as refused where it cannot be reached and is fenced. `told` is
what the package at the other end says it has sent; a package that is itself fenced gets every message back. `cut.gone` names the
packages that no route reaches any more, which the fabric fences; unanswered requests go on by another port. -/
def execPortLost (port : Nat) (got : Option (List (Nat × Nat))) (told : List (Nat × Nat)) (cut : Fencing) (s : State) :
    Host.Outcome State Fault Refusal :=
  let fenced := cut.self
  let gone := cut.gone
  match AMap.find? s.ports port with
  | none => .refused (.notEnabled "PORT_LOST")
  | some x =>
    if x.lost ∨ portCount s.part ≤ port ∨ gone.any (fun k => decide (2 ^ 14 ≤ k)) then .refused (.notEnabled "PORT_LOST")
    else
      let s := { s with
        ports := AMap.put s.ports port { x with lost := true },
        regions := s.regions.map fun (y : Nat × Region) => (y.1, { y.2 with lost := y.2.lost || y.2.names port }),
        fenced := s.fenced || fenced, gone := gone ++ s.gone }
      let mine := s.sent.filter fun m => (m.port == port || fenced) && !m.back
      let s := mine.foldl (fun s m => s.settleMessage (if fenced then none else got) m) s
      let s := (told.foldl (fun s y => s.heedTold port y) s).latchQuiet
      .next (s.asked.foldl (fun s a => s.reask port a) s)

end Sys2Proof.Machine
end

