-- ==== Sys2Proof/Machine/EventsPage.lean ====
section
/-!
DEFINITION. Events of pages and of stored data: the memory-manager firmware's service of a page fault (R222, R238, R391,
R472), shootdowns (R225), page migration (R226), link replays (R26, R27), scrub reads (R21), errors of stored data (R28,
R396), and the loss of the host link (R300) and of a CXL link (R453).
-/

namespace Sys2Proof.Machine

/-! Page faults. -/

/-- No TLB holds a translation of the pages any more, and specialisation entries that read them are hidden (R225, R377). -/
def State.shootPages (s : State) (p vpn n : Nat) : State :=
  let s := s.shoot p vpn n
  { s with dies := s.dies.map fun (x : Nat × Die) => (x.1, { x.2 with spec := x.2.spec.map fun (e : SpecEntry) =>
      { e with hidden := e.hidden ||
          (e.part == p && e.read.any fun r => decide (vpn ≤ r.1) && decide (r.1 < vpn + n)) } }) }

/-- A sealed page is mapped in class 3 by its own partition only, and class 3 maps nothing else (R468, R469, R472). -/
def State.sealedFits (s : State) (p : Nat) (e : Word) : Bool :=
  let pages := (List.range (2 ^ sizeShift (pteSize e))).map (ptePpn e + ·)
  if !pteLeaf e then true
  else if pteCls e = 3 then
    s.sealedRegs.any fun (x : Nat × SealedRegion) => x.2.part == p && pages.all fun k => x.2.pages.contains k
  else s.sealedRegs.all fun (x : Nat × SealedRegion) => x.2.pages.all fun k => !pages.contains k

/-- Writes an entry where it stands; a 64 KiB page takes sixteen alike (R220). -/
def State.writeEntry (s : State) (at_ : Nat) (e : Word) : State :=
  let places := if pteLeaf e ∧ pteSize e = 1 then (List.range 16).map fun k => at_ - at_ % 128 + 8 * k else [at_]
  s.writeHome none (places.flatMap fun a => cellsAt a (wordBytes 8 e))

/-- A swapped-out hart whose fault is dealt with: a store's is recorded, and the hart is saved until its grant is there
(R238, R245, R391). -/
def State.wake (kind : Nat) (w : PageWait) (h : Hart) : Hart :=
  let r : StoreFault := { addr := w.ea, opc := w.opc, iter := w.iter, w3 := storeFaultWord3 kind w.elem (h.retired - w.at_) }
  { (if w.store then h.recordStore r else h) with status := .saved, target := none, offered := false, redo := some w }

/-- The swapped-out harts of a partition none of whose pages is missing any more (R238). -/
def State.wakeResolved (s : State) (p : Nat) : State :=
  (s.mapHarts fun h =>
    match h.status with
    | .swapped w => if h.part = p ∧ s.present p w then State.wake (if w.err then 3 else 2) w h else h
    | _ => h).reearmarkAll

/-- The byte of an access on a page: the one that faulted, else the first one there. -/
def PageWait.on (w : PageWait) (vpn : Nat) : Option Word :=
  let hi := (w.lo + wordN (w.size - 1)).toNat % 2 ^ 56
  if w.ea.toNat / 4096 = vpn then some w.ea
  else if w.lo.toNat / 4096 = vpn then some w.lo
  else if hi / 4096 = vpn then some (wordN (vpn * 4096))
  else none

/-- A hart whose access meets a converted page: the permission trap is taken at its first boundary (R239, R244). -/
def State.refuse (w : PageWait) (h : Hart) : Hart :=
  let h := State.wake 4 w h
  { h with
    sq := match h.sq with
      | x :: t => if w.store && x.opc == w.opc && x.at_ == w.at_ then t else h.sq
      | [] => [],
    redo := none, owed := if h.owed.isSome then h.owed else some (17, w.ea, w.opc, w.at_) }

/-- A hart that waits for a page, or that has not yet made the access for which it waited, meets the page's conversion (R239,
R472). -/
def Hart.meet (p vpn : Nat) (h : Hart) : Hart :=
  let w? := match h.status with
    | .swapped w => some w
    | .saved => h.redo
    | _ => none
  match w? with
  | some w =>
    (match w.on vpn with
     | some a => if h.part = p then State.refuse { w with ea := a } h else h
     | none => h)
  | none => h

/-- Lets what waited for a converted page meet its refusal; what did not wait for it stays. -/
def refused (f : State → Host.Outcome State Fault Refusal) (s : State) : State :=
  match f { s with denied := none } with
  | .next _ => s
  | _ =>
    match f s with
    | .next t => t
    | _ => s

/-- What of a queue may wait for a page (R437, R442, R445, R446, R115). -/
def refuseQueue (p q : Nat) (s : State) : State :=
  let ids := match s.queue? p q with | some y => List.range y.started.length | none => []
  let s := [execPacketLaunch p q, execPacketWaitValue p q, execPacketWriteValue p q, execPacketCond p q,
    execPacketTimestamp p q, execIndirectFetchAhead p q].foldl (fun s f => refused f s) s
  ids.foldl (fun s id => refused (failPacket (64 * p + q) id 2) s) s

/-- The transfers in flight of a hart. -/
def Hart.flights (h : Hart) : List (Nat × Nat) :=
  (List.range 4).flatMap fun ch => (h.chan ch).flight.map fun t => (ch, t.id)

/-- Everything but a hart that waits for the converted page. -/
def State.refuseOthers (s : State) (p : Nat) : State :=
  let queues := match AMap.find? s.parts p with | some x => x.queues.map (fun (y : Nat × Queue) => y.1) | none => []
  let s := refused (execDoorbellEntryProcess p) s
  let s := queues.foldl (fun s q => refuseQueue p q s) s
  let s := (s.harts.filter (·.part == p)).foldl (fun s h =>
    h.flights.foldl (fun s x => refused (execCopyErrorCompletion h.hid x.1 x.2 2) s) s) s
  (s.launches.map fun (x : Nat × Launch) => x.1).foldl (fun s lid => refused (execLaunchRetirement lid) s) s

/-- PAGE_FAULT_SERVICE (R222, R472): the firmware writes the entry on which the walk stops, which reaches every TLB, or it
converts the fault for all that waits on the page. Which entry it writes is the paging policy's, hence the event's. -/
def execPageFaultService (p va : Nat) (act : FaultAct) (s : State) : Host.Outcome State Fault Refusal :=
  let no := Host.Outcome.refused (.notEnabled "PAGE_FAULT_SERVICE")
  match s.faultAt p va with
  | none => no
  | some (at_, level, _) =>
    match act with
    | .present e =>
      if pteBad s.part level e || !pteV e || !pteP e || !s.sealedFits p e then no
      else
        let n := if pteSize e = 1 then 16 else 2 ^ (9 * level)
        .next (((s.writeEntry at_ e).shootPages p (va / 4096 / n * n) n).wakeResolved p)
    | .convert =>
      let s := (s.mapHarts (Hart.meet p (va / 4096))).reearmarkAll
      let t := ({ s with denied := some (p, va / 4096) } : State).refuseOthers p
      .next { t with denied := none }

/-- A TLB or the tables give a 64 KiB page for a virtual page. -/
def State.is64K (s : State) (p vpn : Nat) : Bool :=
  (match leafOf s p (vpn * 4096) with | .ok (e, _) => pteSize e == 1 | .error _ => false)
    || List.any s.tlb fun (x : Nat × Word × Nat) =>
      decide (x.1 % 2 ^ 46 = p * 2 ^ 44 + vpn) && pteSize x.2.1 == 1

/-- SHOOTDOWN (R225): after an entry of a level has changed, what was translated through it is dropped; at level 0 the sixteen
pages of a 64 KiB page. -/
def execShootdown (p : Nat) (page : Shot) (s : State) : Host.Outcome State Fault Refusal :=
  let va := page.va
  let level := page.level
  if (AMap.find? s.parts p).isSome ∧ level ≤ 4 ∧ va < 2 ^ 56 then
    let n := if level = 0 then (if s.is64K p (va / 4096) then 16 else 1) else 2 ^ (9 * level)
    .next (s.shootPages p (va / 4096 / n * n) n)
  else .refused (.notEnabled "SHOOTDOWN")

/-! Migration (R226). -/

/-- The leaf of a virtual address in the tables, with the entry's address: that of the first of sixteen for a 64 KiB
page. -/
def leafEntry (s : State) (va : Nat) : Nat → Nat → Option (Nat × Word)
  | level, table =>
    let at_ := table + 8 * vaIndex va level
    let e := s.dword at_
    if s.badPa at_ || pteBad s.part level e || !pteV e || !pteP e then none
    else if pteLeaf e then some (if pteSize e = 1 then at_ - at_ % 128 else at_, e)
    else
      match level with
      | 0 => none
      | l + 1 => leafEntry s va l (ptePpn e * 4096)

/-- Second-tier memory (R217). -/
def isSecondTier (pa : Nat) : Bool := decide (0x80000000000 ≤ pa) && decide (pa < 0xE0000000000)

/-- Main memory (R217). -/
def isMainMem (pa : Nat) : Bool := decide (pa < 0x8000000000)

/-- Virtual pages that definitions of key indices pin: the last one performed, and those held (R354). -/
def State.pinnedVpns (s : State) (p : Nat) : List Nat :=
  let done := match AMap.find? s.parts p with
    | some x => x.kx.flatMap fun (y : Nat × KeyIndex) => (y.2.defs.take 1).flatMap KxDef.pages
    | none => []
  done ++ (s.harts.filter (·.part == p)).flatMap fun h =>
    h.intents.flatMap fun i => match i with | .def_ _ _ _ pages => pages | _ => []

/-- Pages that a key index or a gossip region pins do not move (R354, R412). -/
def State.pinned (s : State) (p vpn old n : Nat) : Bool :=
  (s.pinnedVpns p).any (fun k => decide (vpn ≤ k) && decide (k < vpn + n))
    || s.regions.any fun (y : Nat × Region) => y.2.pages.any fun a => decide (old * 4096 ≤ a) && decide (a < (old + n) * 4096)

/-- PAGE_MIGRATION (R226): the engine begins to move a page between main and second-tier memory. Sealed pages, pages of
gossip regions and pages that key indices pin do not move (R412, R354, R469). -/
def execPageMigration (p va ppn : Nat) (s : State) : Host.Outcome State Fault Refusal :=
  let no := Host.Outcome.refused (.notEnabled "PAGE_MIGRATION")
  match AMap.find? s.parts p with
  | none => no
  | some x =>
    match leafEntry s va 4 x.root with
    | none => no
    | some (_, e) =>
      let n := 2 ^ sizeShift (pteSize e)
      let vpn := va / 4096 / n * n
      let old := ptePpn e
      let tiers := (isMainMem (old * 4096) && isSecondTier (ppn * 4096)) || (isSecondTier (old * 4096) && isMainMem (ppn * 4096))
      let busy := s.migr.any fun m =>
        (decide (m.old < old + n) && decide (old < m.old + m.pages)) || (decide (m.new < ppn + n) && decide (ppn < m.new + m.pages))
      let die := if isMainMem (old * 4096) then homeDie (old * 4096) else homeDie (ppn * 4096)
      if pteCls e = 3 ∨ pteCls e = 1 ∨ s.pinned p vpn old n ∨ busy ∨ !tiers ∨ !populated s.part (ppn * 4096) ∨ ppn % n ≠ 0
          ∨ (s.die die).migBudget = 0 then no
      else
        .next { s with migr := s.migr ++ [{ part := p, vpn := vpn, old := old, new := ppn, pages := n, die := die, todo := n }] }

/-- A physical address after a move. -/
def PageMove.pa (m : PageMove) (pa : Nat) : Nat :=
  if m.old * 4096 ≤ pa ∧ pa < (m.old + m.pages) * 4096 then pa - m.old * 4096 + m.new * 4096 else pa

/-- A line after a move. -/
def PageMove.line (m : PageMove) (l : Nat) : Nat := m.pa (l * 64) / 64

/-- A deferred effect after a move. -/
def PageMove.deferred (m : PageMove) : Deferred → Deferred
  | .fadd va pa x => .fadd va (m.pa pa) x
  | .bytes tst pa bs => .bytes tst (m.pa pa) bs
  | .cells cs => .cells (cs.map fun (a, b, k) => (m.pa a, b, k))
  | d => d

/-- A save area after a move. -/
def PageMove.place (m : PageMove) : Place → Place
  | .away pa => .away (m.pa pa)
  | x => x

/-- Where a frame lies after a move: with its page, where all of it moves; one that is cut or written over is no more (R398). -/
def PageMove.frame (m : PageMove) (pa : Nat) : Option Nat :=
  let meets := fun (lo : Nat) => decide (lo * 4096 < pa + frameSize) && decide (pa < (lo + m.pages) * 4096)
  if m.old * 4096 ≤ pa ∧ pa + frameSize ≤ (m.old + m.pages) * 4096 then some (m.pa pa)
  else if meets m.new ∨ (m.old * 4096 ≤ pa ∧ pa < (m.old + m.pages) * 4096) then none
  else some pa

/-- What of an area is copied to the new place of a page. -/
def PageMove.area (m : PageMove) (o : Opaque) : List Opaque :=
  let lo := max o.lo (m.old * 4096)
  let hi := min o.hi ((m.old + m.pages) * 4096)
  if lo < hi then
    [{ lo := m.pa lo, hi := m.pa (hi - 1) + 1, stamp := o.stamp, shift := o.shift + (m.old * 4096 : Nat) - (m.new * 4096 : Nat) }]
  else []

/-- A map after a move of its keys. -/
def moveKeys {α : Type} (f : Nat → Nat) (l : AMap α) : AMap α :=
  l.foldl (fun (t : AMap α) (x : Nat × α) => AMap.put t (f x.1) x.2) []

/-- A hart after a move: its version, deferred effects, read set and waiting word follow the page. -/
def Hart.moved (m : PageMove) (h : Hart) : Hart :=
  { h with
    ver := moveKeys m.pa h.ver, defer := h.defer.map fun (n, d) => (n, m.deferred d),
    tiles := h.tiles.map fun t => { t with place := m.place t.place }, xPlace := m.place h.xPlace,
    reads := h.reads.map fun (l, k) => (m.line l, k),
    wait := match h.wait with
      | some (.word w got) => some (.word { w with pa := m.pa w.pa } got)
      | w => w }

/-- The bytes of a page at its new place; what kept writes and versions hold of it moves along, so that no write is
lost. -/
def State.movePage (s : State) (m : PageMove) : State :=
  let lo := m.new * 4096
  let hi := (m.new + m.pages) * 4096
  let outside := fun (a : Nat) => decide (a < lo) || decide (hi ≤ a)
  let moving := s.mem.filter fun (c : Nat × Byte) => decide (m.old * 4096 ≤ c.1) && decide (c.1 < (m.old + m.pages) * 4096)
  let mem := writeCells (AMap.keep outside s.mem) (moving.map fun (c : Nat × Byte) => (m.pa c.1, c.2))
  let s := s.mapHarts (Hart.moved m)
  let s := s.mapQueues fun q => { q with watch := q.watch.map fun (x : Watch × Bool) => ({ x.1 with pa := m.pa x.1.pa }, x.2) }
  { s with
    mem := mem,
    hist := s.hist.map fun r => { r with cells := (r.cells.filter fun c => outside c.1).map fun c => (m.pa c.1, c.2) },
    bad := (s.bad.filter fun l => outside (l * 64)).map m.line,
    opaq := s.opaq.flatMap (Opaque.cut lo hi) ++ s.opaq.flatMap m.area,
    frames := s.frames.filterMap fun (f : Nat × Nat) => (m.frame f.2).map fun a => (f.1, a) }

/-- MIGRATION_COMPLETE (R226): within the die's budget, the copy is complete; the engine writes the new ppn and issues the
shootdown, and commits held for the page go on. -/
def execMigrationComplete (p va : Nat) (s : State) : Host.Outcome State Fault Refusal :=
  let no := Host.Outcome.refused (.notEnabled "MIGRATION_COMPLETE")
  match s.migr.find? fun m => m.part == p && decide (m.vpn ≤ va / 4096) && decide (va / 4096 < m.vpn + m.pages),
    AMap.find? s.parts p with
  | some m, some x =>
    (match leafEntry s va 4 x.root with
     | none => no
     | some (at_, e) =>
       if (s.die m.die).migLeft < m.todo ∨ ptePpn e ≠ m.old ∨ s.pinned p m.vpn m.old m.pages then no
       else
         let s := s.onDie m.die fun d => { d with migLeft := d.migLeft - m.todo }
         let s := { s with migr := s.migr.filter (· != m) }.movePage m
         let e' : Word := (e &&& ~~~0x000FFFFFFFFFF000) ||| wordN (m.new * 4096)
         .next ((s.writeEntry at_ e').shootPages p m.vpn m.pages))
  | _, _ => no

/-! Links and stored data. -/

/-- The fourth failure of a transfer for a hart's read: cause 21 at the instruction that needs the data (R28, R396). -/
def linkFailsHart (h va : Nat) (s : State) : Host.Outcome State Fault Refusal :=
  let no := Host.Outcome.refused (.notEnabled "LINK_CRC_REPLAY")
  match s.hart? h with
  | none => no
  | some x =>
    match resolveEa s none x.part x.sealed .load (wordN va) with
    | .error _ => no
    | .ok y =>
      onFront "LINK_CRC_REPLAY" h (fun s => s.cur.status == .running && s.cur.wait.isNone && !s.cur.midPair) (fun s =>
        let at_ : Word × Nat := match s.cur.vq.find? fun o => touchesMemory o.i with
          | some o => (o.opc, s.cur.retired - o.at_)
          | none => (s.cur.ctx.pc, 0)
        .next (s.takeTrap 21 (wordN (y.pa / 64 * 64)) at_.1 at_.2)) s

/-- The fourth failure of a transfer for a copy: it error-completes with kind 3 (R28, R300). -/
def linkFailsCopy (h ch id : Nat) (s : State) : Host.Outcome State Fault Refusal :=
  let no := Host.Outcome.refused (.notEnabled "LINK_CRC_REPLAY")
  match s.hart? h with
  | none => no
  | some x =>
    match x.transfer ch id with
    | none => no
    | some t => if t.ring.isSome && t.slot.isNone then no else .next (s.failTransfer x ch t 3)

/-- The COPY packet of a queue that started first among those not complete. -/
def State.oldestCopy (s : State) (p q : Nat) : Option (Nat × Started) :=
  match s.queue? p q with
  | none => none
  | some y =>
    (List.range y.started.length).findSome? fun id => (s.copyPacket (64 * p + q) id).map fun x => (id, x.2)

/-- LINK_CRC_REPLAY (R26, R27): failed tries are counted on the link; the fourth makes the transfer uncorrectable, for a hart's
read, a copy, or a gossip receipt, which is refused (R28). Whose data the link carries is the event's. -/
def execLinkCrcReplay (link fails : Nat) (who : LinkUse) (va : Nat) (s : State) : Host.Outcome State Fault Refusal :=
  let no := Host.Outcome.refused (.notEnabled "LINK_CRC_REPLAY")
  let s := { s with linkErrs := AMap.put s.linkErrs link ((AMap.find? s.linkErrs link).getD 0 + fails) }
  match who with
  | .none => if fails = 0 ∨ 4 < fails then no else .next s
  | .hart h => if fails ≠ 4 then no else linkFailsHart h va s
  | .copy h ch id => if fails ≠ 4 then no else linkFailsCopy h ch id s
  | .packet p q =>
    if fails ≠ 4 then no
    else
      (match s.oldestCopy p q with
       | some (id, x) => .next (s.stopPacket (64 * p + q) id 3 x)
       | none => no)
  | .receipt port m => if fails ≠ 4 ∨ !s.carries port ∨ s.fenced then no else .next (s.refuseMessage port m)

/-- SCRUB_READ (R21, R22, R27): lines of a stack are read and corrected within its budget. What is uncorrectable stays so
(R28). -/
def execScrubRead (stack : Nat) (lines : List Nat) (s : State) : Host.Outcome State Fault Refusal :=
  let b := (AMap.find? s.scrubs stack).getD (64, 64)
  if stack < 2 * dieCount s.part ∧ lines.length ≤ b.2 ∧ lines.all (fun l => l / 2 ^ 36 == stack) then
    .next { s with scrubs := AMap.put s.scrubs stack (b.1, b.2 - lines.length) }
  else .refused (.notEnabled "SCRUB_READ")

/-- A slot of strip state or of a tile that the machine has. -/
def slotExists (file reg row j : Nat) : Bool :=
  (file == 1 && decide (reg < 32) && decide (row < 8) && decide (j < 1024))
    || (file == 2 && decide (reg < 8) && decide (row < 8) && decide (j < 1024))
    || (file == 3 && decide (reg < 32) && decide (row < 8) && decide (j < 64))
    || ((file == 4 || file == 5) && decide (reg < 8) && decide (row < 64) && decide (j < 1024))

/-- STORED_DATA_ERROR (R27, R28, R396): a line's stored copy becomes uncorrectable, an error is corrected and counted, or a slot
fails its parity. -/
def execStoredDataError (at_ : DataErr) (s : State) : Host.Outcome State Fault Refusal :=
  match at_ with
  | .line pa =>
    if populated s.part pa && !isHostMem pa then .next { s with bad := (pa / 64) :: s.bad }
    else .refused (.notEnabled "STORED_DATA_ERROR")
  | .corrected cache pa =>
    if populated s.part pa && !isHostMem pa && (cache || isMainMem pa) then
      let k := if cache then 16 + homeDie pa else pa / 2 ^ 36
      .next { s with eccErrs := AMap.put s.eccErrs k ((AMap.find? s.eccErrs k).getD 0 + 1) }
    else .refused (.notEnabled "STORED_DATA_ERROR")
  | .slot h file reg row j =>
    if (s.hart? h).isSome && slotExists file reg row j then .next { s with spots := .slot h file reg row j :: s.spots }
    else .refused (.notEnabled "STORED_DATA_ERROR")

/-- HOST_LINK_LOST (R27, R300): accesses to host memory fail from now on. -/
def execHostLinkLost (s : State) : Host.Outcome State Fault Refusal :=
  if s.hostUp then .next { s with hostUp := false } else .refused (.notEnabled "HOST_LINK_LOST")

/-- CXL_LINK_DOWN (R453): the lines behind the port are uncorrectable. Which lines those are is as the decoders were
programmed, hence the event's. -/
def execCxlLinkDown (port : Nat) (lines : List Nat) (s : State) : Host.Outcome State Fault Refusal :=
  if port < dieCount s.part ∧ lines.all (fun l => isSecondTier (l * 64)) then .next { s with bad := lines ++ s.bad }
  else .refused (.notEnabled "CXL_LINK_DOWN")

end Sys2Proof.Machine
end

