-- ==== Sys2Proof/Machine/EventsPeer.lean ====
section
/-!
DEFINITION. The requests of other packages (R301, R451, R452): copies, fabric-scope atomics and waits, translated in the
local partition to which the source partition is bound.
-/

namespace Sys2Proof.Machine

/-- The operation that a minor names (R266). -/
def amoNewOf : Nat → AmoFn
  | 0 => addNew | 1 => andNew | 2 => orNew | 3 => xorNew | 4 => minNew | 5 => maxNew | 6 => minnNew | 7 => maxnNew
  | 8 => swapNew | 9 => casNew | 10 => faddNew | 12 => stNew | _ => ldNew

/-- The local partition to which a source partition is bound, the lowest that names it (R451). -/
def State.boundPart (s : State) (src : Nat) : Option Nat :=
  (List.find? (fun (x : Nat × Partition) => x.2.peers.contains src) s.parts).map (·.1)

/-- Whether a request names each byte it reaches, and how: refused on device and gossip pages (R265, R300). -/
def peerReach (s : State) (part : Nat) (k : Access) (va n : Nat) : Except Unreached (List Phys) :=
  match reach s part none k (wordN va) n with
  | .error e => .error e
  | .ok ps => if ps.any (fun p => p.cls == 1 || (p.cls == 2 && k != .wait)) then .error .refused else .ok ps

/-- The sequence number of a request that is performed once (R452). -/
def onceNumber : PeerReq → Option Nat
  | .amo seq .. => some seq
  | .wait seq .. => some seq
  | _ => none

/-- The number of a request. -/
def requestNumber : PeerReq → Nat
  | .copyWrite seq .. => seq
  | .copyRead seq .. => seq
  | .amo seq .. => seq
  | .wait seq .. => seq

/-- The answer that refuses a request (R451). -/
def refusal (port : Nat) (req : PeerReq) : Out :=
  match req with
  | .copyRead seq .. => .peerBytes port seq none
  | r => .peerAnswer port (requestNumber r) none

/-- A request performed in a local partition, its answer given; none while its page or its condition waits. -/
def State.servePeer (s : State) (part port : Nat) (req : PeerReq) : Option State :=
  let no := some { s with out := s.out ++ [refusal port req] }
  match req with
  | .copyWrite seq va bytes =>
    (match peerReach s part .store va bytes.length with
     | .error .waits => none
     | .error .refused => no
     | .ok ps =>
       let s := s.writeReached ps bytes
       some { s with out := s.out ++ [.peerAnswer port seq (some 0)] })
  | .copyRead seq va n =>
    (match peerReach s part .load va n with
     | .error .waits => none
     | .error .refused => no
     | .ok ps => some { s with out := s.out ++ [.peerBytes port seq (some (reachedBytes s 0 ps))] })
  | .amo seq op size va x e =>
    if (size ≠ 4 ∧ size ≠ 8) ∨ va % size ≠ 0 ∨ 12 < op then no
    else
      match peerReach s part .atomic va size with
      | .error .waits => none
      | .error .refused => no
      | .ok ps =>
        if op ≠ 12 ∧ ps.any (fun p => s.badPa p.pa) then no
        else
          let old := leWord (reachedBytes s 0 ps)
          let s := match amoNewOf op size old x e with
            | some y => s.writeReached ps (wordBytes size y)
            | none => s
          some { s with out := s.out ++ [.peerAnswer port seq (some old)] }
  | .wait seq cond size va x =>
    if (size ≠ 4 ∧ size ≠ 8) ∨ va % size ≠ 0 ∨ 8 ≤ cond then no
    else
      match peerReach s part .wait va size with
      | .error .waits => none
      | .error .refused => no
      | .ok ps =>
        if ps.any (fun p => s.badPa p.pa) then no
        else
          let old := leWord (reachedBytes s 0 ps)
          if condHolds (condOf cond) size old x then some { s with out := s.out ++ [.peerAnswer port seq (some old)] }
          else none

/-- PEER_REQUEST (R451, R452): a request of a source partition, given as 4 × package + partition, that comes by a port and is
numbered by port `num` of its package. An atomic or wait that was performed is dropped when it comes again, on whatever port; an
unbound source is refused. -/
def execPeerRequest (p : Nat) (way : PeerWay) (req : PeerReq) (s : State) : Host.Outcome State Fault Refusal :=
  let port := way.port
  let num := way.num
  let no := Host.Outcome.refused (.notEnabled "PEER_REQUEST")
  let key := 16 * (p / 4) + num
  let seen := (AMap.find? s.seen key).getD []
  if !s.carries port ∨ s.fenced ∨ 16 ≤ num then no
  else if (match onceNumber req with | some n => seen.contains n | none => false) then .next s
  else
    match s.boundPart p with
    | none => .next { s with out := s.out ++ [refusal port req] }
    | some part =>
      match s.servePeer part port req with
      | none => no
      | some t =>
        match onceNumber req with
        | some n => .next { t with seen := AMap.put t.seen key (n :: seen) }
        | none => .next t

end Sys2Proof.Machine
end

