-- ==== Sys2Proof/Machine/EventsSecurity.lean ====
section
/-!
DEFINITION. Events of security: sealed regions (R468, R469), attestation (R470), and what reset, the release of a region
and a change of life cycle wipe (R471).
-/

namespace Sys2Proof.Machine

/-- Bytes of a message's plaintext at their pages, the last page filled with zeros. -/
def pageCells : List Nat → List Byte → List (Nat × Byte)
  | [], _ => []
  | p :: t, bs => cellsAt (p * 4096) ((bs.take 4096) ++ List.replicate (4096 - bs.length) 0) ++ pageCells t (bs.drop 4096)

/-- The lowest number that names no sealed region. -/
def freeRegion (rs : AMap SealedRegion) : Nat → Nat → Nat
  | 0, k => k
  | n + 1, k => if (AMap.find? rs k).isSome then freeRegion rs n (k + 1) else k

/-- A page of main memory that the firmware may give a sealed region (R468, R469). -/
def State.sealable (s : State) (k : Nat) : Bool :=
  isMainMem (k * 4096) && populated s.part (k * 4096) && s.sealedRegs.all fun (x : Nat × SealedRegion) => !x.2.pages.contains k

/-- SEALED_MESSAGE (R468, R469): the firmware opens a message under the package key into main-memory pages of its choice, for the
launches of a partition whose identity has a digest; or it refuses the message and writes nothing, where the tag fails or the
associated data names another identity. The associated data begins with the digest (DESIGN CHOICE, log 16). -/
def execSealedMessage (p : Nat) (pages : List Nat) (msg : Sealing) (s : State) : Host.Outcome State Fault Refusal :=
  let ident := msg.ident
  let ad := msg.ad
  let no := Host.Outcome.refused (.notEnabled "SEALED_MESSAGE")
  if (AMap.find? s.parts p).isNone ∨ ident.length ≠ 48 ∨ s.keyGen = 0 ∨ pages.eraseDups ≠ pages ∨ !pages.all s.sealable then no
  else
    match Config.openSealed s.keyGen ad msg.text with
    | none => .next s
    | some text =>
      if ad.take 48 ≠ ident then .next s
      else if pages.length * 4096 < text.length ∨ text.length + 4096 ≤ pages.length * 4096 then no
      else
        let r := freeRegion s.sealedRegs s.sealedRegs.length 0
        let x : SealedRegion := { part := p, pages := pages, key := s.free, ident := ident }
        let s := { s with free := s.free + 1 }.writeHome none (pageCells pages text)
        .next { s with sealedRegs := AMap.put s.sealedRegs r x }

/-- ATTESTATION_REPORT (R470): of a sealed region, over a nonce of 48 bytes. -/
def execAttestationReport (r : Nat) (nonce : List (BitVec 8)) (s : State) : Host.Outcome State Fault Refusal :=
  match AMap.find? s.sealedRegs r with
  | none => .refused (.notEnabled "ATTESTATION_REPORT")
  | some x =>
    if nonce.length ≠ 48 ∨ s.keyGen = 0 then .refused (.notEnabled "ATTESTATION_REPORT")
    else
      let feat := ((shapeReg s.part false 0xFF).getD 0)
      let text := x.pages.flatMap fun p => s.bytes (p * 4096) 4096
      let head := wordBytes 8 feat ++ wordBytes 8 releaseWord ++ x.ident
        ++ sha384 text ++ nonce
      let sig := (toBytes 96 (Config.signature s.keyGen s.free (sha384 head)).toNat).reverse
      .next { s with free := s.free + 1, out := s.out ++ [.report (head ++ sig)] }

/-- The bytes of pages are zero, and nothing kept of them stays. -/
def State.wipePages (s : State) (pages : List Nat) : State :=
  let stays := fun (a : Nat) => !pages.contains (a / 4096)
  { s with
    mem := AMap.keep stays s.mem,
    hist := s.hist.map fun x => { x with cells := x.cells.filter fun c => stays c.1 },
    bad := s.bad.filter fun l => stays (l * 64),
    opaq := pages.foldl (fun l p => l.flatMap (Opaque.cut (p * 4096) (p * 4096 + 4096))) s.opaq,
    frames := s.frames.filter fun f => pages.all fun p =>
      decide (p * 4096 + 4096 ≤ f.2) || decide (f.2 + frameSize ≤ p * 4096) }

/-- SEALED_REGION_RELEASE (R471): no launch uses the region any more; its pages and its key are wiped. -/
def execSealedRegionRelease (r : Nat) (s : State) : Host.Outcome State Fault Refusal :=
  match AMap.find? s.sealedRegs r with
  | none => .refused (.notEnabled "SEALED_REGION_RELEASE")
  | some x =>
    if s.launches.any (fun (y : Nat × Launch) => y.2.sealed == some r) then .refused (.notEnabled "SEALED_REGION_RELEASE")
    else
      let s := (s.wipePages x.pages).latchAll.hideSpec x.pages
      .next { s with sealedRegs := AMap.erase s.sealedRegs r }

/-- PACKAGE_RESET (R471, R251, R162): everything stands as after reset but main and second-tier memory, host memory, what
the package keeps for life, and what it has shown the outside. Sealed pages are released. -/
def execPackageReset (s : State) : Host.Outcome State Fault Refusal :=
  let s := s.wipePages (s.sealedRegs.flatMap fun (x : Nat × SealedRegion) => x.2.pages)
  .next { State.reset with
    part := s.part, tick := s.tick, free := s.free, inbox := s.inbox, serve := s.serve, mem := s.mem, bad := s.bad,
    opaq := s.opaq, ports := (List.range (portCount s.part)).map fun k => (k, Port.init),
    lifeCycle := s.lifeCycle, keyGen := s.keyGen, hostUp := s.hostUp, out := s.out }

/-- LIFE_CYCLE_CHANGE (R468, R471): main and second-tier memory are wiped; at the first change into the deployed state, 1,
the package key is generated (log 10). -/
def execLifeCycleChange (st : Nat) (s : State) : Host.Outcome State Fault Refusal :=
  if st = s.lifeCycle then .refused (.notEnabled "LIFE_CYCLE_CHANGE")
  else
    let s := { s with
      lifeCycle := st, keyGen := if st = 1 && s.keyGen == 0 then s.free + 1 else s.keyGen, free := s.free + 1,
      mem := AMap.keep isHostMem s.mem, hist := [], tlb := [],
      frames := s.frames.filter fun f => isHostMem f.2, opaq := s.opaq.flatMap (Opaque.cut 0 0x100000000000), bad := s.bad.filter fun l => isHostMem (l * 64),
      dies := s.dies.map fun (x : Nat × Die) =>
        (x.1, { x.2 with spec := x.2.spec.map fun (e : SpecEntry) => { e with hidden := true } }) }
    .next s.latchAll

end Sys2Proof.Machine
end

