-- ==== Sys2Proof/Machine/GossipVec.lean ====
section
/-!
DEFINITION. Queued gossip instructions, major 0x70 (R427, R428), as they enter the sequencer.
-/

namespace Sys2Proof.Machine

/-- `VGADD` (R427). -/
def execVgadd (f : Fmt) (d a : GReg) (b c : VReg) (e : Option MReg) : State → Host.Outcome State Fault Refusal :=
  issueGossip (.vgadd f d a b c e) a

/-- `GLD` (R428). -/
def execGld (d : VReg) (a : GReg) (b : VReg) (e : Option MReg) : State → Host.Outcome State Fault Refusal :=
  issueGossip (.gld d a b e) a

/-- `GEST` (R428). -/
def execGest (d : VReg) (a : GReg) (b : VReg) (e : Option MReg) : State → Host.Outcome State Fault Refusal :=
  issueGossip (.gest d a b e) a

end Sys2Proof.Machine
end

