-- ==== Sys2Proof/Machine/KxVec.lean ====
section
/-!
DEFINITION. Queued key-index instructions, major 0x68 (R356, R357), as they enter the sequencer.
-/

namespace Sys2Proof.Machine

/-- `KST` (R356). -/
def execKst (d : AReg) (a : VReg) (b c : GReg) (kx : BitVec 8) : State → Host.Outcome State Fault Refusal :=
  issuePlain (.kst d a b c kx) 0 b c

/-- `KSIG` (R356). -/
def execKsig (d : AReg) (a : VReg) (c : GReg) (kx : BitVec 8) : State → Host.Outcome State Fault Refusal :=
  issuePlain (.ksig d a c kx) 0 0 c

/-- `KGA` (R357). -/
def execKga (d : VReg) (a : AReg) (b c : GReg) (kx : BitVec 8) (k : BitVec 3) :
    State → Host.Outcome State Fault Refusal :=
  issuePlain (.kga d a b c kx k) 0 b c

/-- `KGA_U` (R350). -/
def execKgaU (d : VReg) (a : AReg) (b c : GReg) (kx : BitVec 8) (k : BitVec 3) :
    State → Host.Outcome State Fault Refusal :=
  issuePlain (.kgaU d a b c kx k) 0 b c

end Sys2Proof.Machine
end

