-- ==== Sys2Proof/Machine/Matrix.lean ====
section
/-!
DEFINITION. Matrix instructions, major 0x50 (R286 to R292), as they enter the sequencer.
-/

namespace Sys2Proof.Machine

/-- `OPA` (R287). -/
def execOpa (f : Fmt) (d : TReg) (a : AReg) (b : VReg) (c : GReg) (c16 : Bool) :
    State → Host.Outcome State Fault Refusal :=
  issueIf (.opa f d a b c c16) 0 0 c (ownsTile d)

/-- `TFOLD` (R288). -/
def execTfold (d : TReg) (a : AReg) (b : VReg) (c : GReg) (ka kv : BitVec 3) :
    State → Host.Outcome State Fault Refusal :=
  issueIf (.tfold d a b c ka kv) 0 0 c (ownsTile d)

/-- `TCLR` (R289). -/
def execTclr (d : GReg) (a : TReg) (mask : BitVec 3) : State → Host.Outcome State Fault Refusal :=
  issueIf (.tclr d a mask) 0 0 0 (ownsTile a)

/-- `TLD` (R290). -/
def execTld (f : Fmt) (d : TReg) (a b c : GReg) (row0 : BitVec 6) : State → Host.Outcome State Fault Refusal :=
  issueIf (.tld f d a b c row0) a b c (ownsTile d)

/-- `TST` (R290). -/
def execTst (f : Fmt) (d : TReg) (a b c : GReg) (row0 : BitVec 6) : State → Host.Outcome State Fault Refusal :=
  issueIf (.tst f d a b c row0) a b c (ownsTile d)

/-- `TMV` (R291). -/
def execTmv (f : Fmt) (d : VReg) (a : TReg) (c : GReg) (row0 : BitVec 6) (e : Option MReg) :
    State → Host.Outcome State Fault Refusal :=
  issueIf (.tmv f d a c row0 e) 0 0 c (ownsTile a)

/-- `TADD` (R292). -/
def execTadd (f : Fmt) (d : TReg) (b : VReg) (c : GReg) (row0 : BitVec 6) (e : Option MReg) :
    State → Host.Outcome State Fault Refusal :=
  issueIf (.tadd f d b c row0 e) 0 0 c (ownsTile d)

end Sys2Proof.Machine
end

