-- ==== Sys2Proof/Machine/VecConvert.lean ====
section
/-!
DEFINITION. Conversions and block formats, major 0x32 (R206, R207, R51, R52), as they enter the sequencer.
-/

namespace Sys2Proof.Machine

/-- `VCVT` (R206). -/
def execVcvt (f : Fmt) (d a : VReg) (src : Fmt) (x e : Option MReg) : State → Host.Outcome State Fault Refusal :=
  issuePlain (.vcvt f d a src x e) 0 0 0

/-- `VQ` (R51). -/
def execVq (d a : VReg) (x e : Option MReg) : State → Host.Outcome State Fault Refusal :=
  issueIf (.vq d a x e) 0 0 0 hasBlocks

/-- `VDQ` (R52). -/
def execVdq (f : Fmt) (d a : VReg) (x e : Option MReg) : State → Host.Outcome State Fault Refusal :=
  issueIf (.vdq f d a x e) 0 0 0 hasBlocks

/-- `VSCL` (R207). -/
def execVscl (d a : VReg) : State → Host.Outcome State Fault Refusal :=
  issueIf (.vscl d a) 0 0 0 hasBlocks

/-- `VSCW` (R207). -/
def execVscw (d a : VReg) : State → Host.Outcome State Fault Refusal :=
  issueIf (.vscw d a) 0 0 0 hasBlocks

end Sys2Proof.Machine
end

