-- ==== Sys2Proof/Machine/VecFloat.lean ====
section
/-!
DEFINITION. Vector float instructions, major 0x30 (R204), as they enter the sequencer.
-/

namespace Sys2Proof.Machine

/-- `VADD_FLOAT` (R204). -/
def execVaddFloat (f : Fmt) (d a b : VReg) (x e : Option MReg) : State → Host.Outcome State Fault Refusal :=
  issuePlain (.vaddFloat f d a b x e) 0 0 0

/-- `VSUB_FLOAT` (R204). -/
def execVsubFloat (f : Fmt) (d a b : VReg) (x e : Option MReg) : State → Host.Outcome State Fault Refusal :=
  issuePlain (.vsubFloat f d a b x e) 0 0 0

/-- `VMUL_FLOAT` (R204). -/
def execVmulFloat (f : Fmt) (d a b : VReg) (x e : Option MReg) : State → Host.Outcome State Fault Refusal :=
  issuePlain (.vmulFloat f d a b x e) 0 0 0

/-- `VFMA` (R204). -/
def execVfma (f : Fmt) (d a b c : VReg) (x e : Option MReg) : State → Host.Outcome State Fault Refusal :=
  issuePlain (.vfma f d a b c x e) 0 0 0

/-- `VFMS` (R204). -/
def execVfms (f : Fmt) (d a b c : VReg) (x e : Option MReg) : State → Host.Outcome State Fault Refusal :=
  issuePlain (.vfms f d a b c x e) 0 0 0

/-- `VDIV` (R204). -/
def execVdiv (f : Fmt) (d a b : VReg) (x e : Option MReg) : State → Host.Outcome State Fault Refusal :=
  issuePlain (.vdiv f d a b x e) 0 0 0

/-- `VSQRT` (R204). -/
def execVsqrt (f : Fmt) (d a : VReg) (x e : Option MReg) : State → Host.Outcome State Fault Refusal :=
  issuePlain (.vsqrt f d a x e) 0 0 0

/-- `VMIN_FLOAT` (R204). -/
def execVminFloat (f : Fmt) (d a b : VReg) (x e : Option MReg) : State → Host.Outcome State Fault Refusal :=
  issuePlain (.vminFloat f d a b x e) 0 0 0

/-- `VMAX_FLOAT` (R204). -/
def execVmaxFloat (f : Fmt) (d a b : VReg) (x e : Option MReg) : State → Host.Outcome State Fault Refusal :=
  issuePlain (.vmaxFloat f d a b x e) 0 0 0

/-- `VABS_FLOAT` (R204). -/
def execVabsFloat (f : Fmt) (d a : VReg) (x e : Option MReg) : State → Host.Outcome State Fault Refusal :=
  issuePlain (.vabsFloat f d a x e) 0 0 0

/-- `VNEG` (R204). -/
def execVneg (f : Fmt) (d a : VReg) (x e : Option MReg) : State → Host.Outcome State Fault Refusal :=
  issuePlain (.vneg f d a x e) 0 0 0

/-- `VRCP` (R204). -/
def execVrcp (f : Fmt) (d a : VReg) (x e : Option MReg) : State → Host.Outcome State Fault Refusal :=
  issuePlain (.vrcp f d a x e) 0 0 0

/-- `VRSQRT` (R204). -/
def execVrsqrt (f : Fmt) (d a : VReg) (x e : Option MReg) : State → Host.Outcome State Fault Refusal :=
  issuePlain (.vrsqrt f d a x e) 0 0 0

/-- `VEXP2` (R204). -/
def execVexp2 (f : Fmt) (d a : VReg) (x e : Option MReg) : State → Host.Outcome State Fault Refusal :=
  issuePlain (.vexp2 f d a x e) 0 0 0

/-- `VLOG2` (R204). -/
def execVlog2 (f : Fmt) (d a : VReg) (x e : Option MReg) : State → Host.Outcome State Fault Refusal :=
  issuePlain (.vlog2 f d a x e) 0 0 0

/-- `VCMPEQ_FLOAT` (R204). -/
def execVcmpeqFloat (f : Fmt) (d : MReg) (a b : VReg) (x e : Option MReg) :
    State → Host.Outcome State Fault Refusal :=
  issuePlain (.vcmpeqFloat f d a b x e) 0 0 0

/-- `VCMPLT_FLOAT` (R204). -/
def execVcmpltFloat (f : Fmt) (d : MReg) (a b : VReg) (x e : Option MReg) :
    State → Host.Outcome State Fault Refusal :=
  issuePlain (.vcmpltFloat f d a b x e) 0 0 0

/-- `VCMPLE` (R204). -/
def execVcmple (f : Fmt) (d : MReg) (a b : VReg) (x e : Option MReg) : State → Host.Outcome State Fault Refusal :=
  issuePlain (.vcmple f d a b x e) 0 0 0

/-- `VCMPUN` (R204). -/
def execVcmpun (f : Fmt) (d : MReg) (a b : VReg) (x e : Option MReg) : State → Host.Outcome State Fault Refusal :=
  issuePlain (.vcmpun f d a b x e) 0 0 0

end Sys2Proof.Machine
end

