-- ==== Sys2Proof/Machine/VecInt.lean ====
section
/-!
DEFINITION. Vector integer instructions, major 0x31 (R205), as they enter the sequencer.
-/

namespace Sys2Proof.Machine

/-- `VADD_INT` (R205). -/
def execVaddInt (f : Fmt) (d a b : VReg) (x e : Option MReg) : State → Host.Outcome State Fault Refusal :=
  issuePlain (.vaddInt f d a b x e) 0 0 0

/-- `VSUB_INT` (R205). -/
def execVsubInt (f : Fmt) (d a b : VReg) (x e : Option MReg) : State → Host.Outcome State Fault Refusal :=
  issuePlain (.vsubInt f d a b x e) 0 0 0

/-- `VMUL_INT` (R205). -/
def execVmulInt (f : Fmt) (d a b : VReg) (x e : Option MReg) : State → Host.Outcome State Fault Refusal :=
  issuePlain (.vmulInt f d a b x e) 0 0 0

/-- `VMULH` (R205). -/
def execVmulh (f : Fmt) (d a b : VReg) (x e : Option MReg) : State → Host.Outcome State Fault Refusal :=
  issuePlain (.vmulh f d a b x e) 0 0 0

/-- `VADDS` (R205). -/
def execVadds (f : Fmt) (d a b : VReg) (x e : Option MReg) : State → Host.Outcome State Fault Refusal :=
  issuePlain (.vadds f d a b x e) 0 0 0

/-- `VSUBS` (R205). -/
def execVsubs (f : Fmt) (d a b : VReg) (x e : Option MReg) : State → Host.Outcome State Fault Refusal :=
  issuePlain (.vsubs f d a b x e) 0 0 0

/-- `VAND` (R205). -/
def execVand (f : Fmt) (d a b : VReg) (x e : Option MReg) : State → Host.Outcome State Fault Refusal :=
  issuePlain (.vand f d a b x e) 0 0 0

/-- `VOR` (R205). -/
def execVor (f : Fmt) (d a b : VReg) (x e : Option MReg) : State → Host.Outcome State Fault Refusal :=
  issuePlain (.vor f d a b x e) 0 0 0

/-- `VXOR` (R205). -/
def execVxor (f : Fmt) (d a b : VReg) (x e : Option MReg) : State → Host.Outcome State Fault Refusal :=
  issuePlain (.vxor f d a b x e) 0 0 0

/-- `VSLL` (R205). -/
def execVsll (f : Fmt) (d a b : VReg) (x e : Option MReg) : State → Host.Outcome State Fault Refusal :=
  issuePlain (.vsll f d a b x e) 0 0 0

/-- `VSRL` (R205). -/
def execVsrl (f : Fmt) (d a b : VReg) (x e : Option MReg) : State → Host.Outcome State Fault Refusal :=
  issuePlain (.vsrl f d a b x e) 0 0 0

/-- `VSRA` (R205). -/
def execVsra (f : Fmt) (d a b : VReg) (x e : Option MReg) : State → Host.Outcome State Fault Refusal :=
  issuePlain (.vsra f d a b x e) 0 0 0

/-- `VMIN_INT` (R205). -/
def execVminInt (f : Fmt) (d a b : VReg) (x e : Option MReg) : State → Host.Outcome State Fault Refusal :=
  issuePlain (.vminInt f d a b x e) 0 0 0

/-- `VMAX_INT` (R205). -/
def execVmaxInt (f : Fmt) (d a b : VReg) (x e : Option MReg) : State → Host.Outcome State Fault Refusal :=
  issuePlain (.vmaxInt f d a b x e) 0 0 0

/-- `VCMPEQ_INT` (R205). -/
def execVcmpeqInt (f : Fmt) (d : MReg) (a b : VReg) (x e : Option MReg) : State → Host.Outcome State Fault Refusal :=
  issuePlain (.vcmpeqInt f d a b x e) 0 0 0

/-- `VCMPLT_INT` (R205). -/
def execVcmpltInt (f : Fmt) (d : MReg) (a b : VReg) (x e : Option MReg) : State → Host.Outcome State Fault Refusal :=
  issuePlain (.vcmpltInt f d a b x e) 0 0 0

/-- `VCMPLTN` (R205). -/
def execVcmpltn (f : Fmt) (d : MReg) (a b : VReg) (x e : Option MReg) : State → Host.Outcome State Fault Refusal :=
  issuePlain (.vcmpltn f d a b x e) 0 0 0

/-- `VABS_INT` (R205). -/
def execVabsInt (f : Fmt) (d a : VReg) (x e : Option MReg) : State → Host.Outcome State Fault Refusal :=
  issuePlain (.vabsInt f d a x e) 0 0 0

end Sys2Proof.Machine
end

