-- ==== Sys2Proof/Machine/VecMask.lean ====
section
/-!
DEFINITION. Sparsity and masks, major 0x35 (R212 to R214), as they enter the sequencer.
-/

namespace Sys2Proof.Machine

/-- `VSPARSE` (R212). -/
def execVsparse (f : Fmt) (d a : VReg) (c : MReg) (n : BitVec 5) : State → Host.Outcome State Fault Refusal :=
  issuePlain (.vsparse f d a c n) 0 0 0

/-- `VSPARSE_P` (R212). -/
def execVsparseP (f : Fmt) (d a : VReg) (c : MReg) (n : BitVec 5) : State → Host.Outcome State Fault Refusal :=
  issuePlain (.vsparseP f d a c n) 0 0 0

/-- `VEXPAND` (R213). -/
def execVexpand (d a : VReg) (c : MReg) : State → Host.Outcome State Fault Refusal :=
  issuePlain (.vexpand d a c) 0 0 0

/-- `MAND` (R214). -/
def execMand (d a b : MReg) (e : Option MReg) : State → Host.Outcome State Fault Refusal :=
  issuePlain (.mand d a b e) 0 0 0

/-- `MOR` (R214). -/
def execMor (d a b : MReg) (e : Option MReg) : State → Host.Outcome State Fault Refusal :=
  issuePlain (.mor d a b e) 0 0 0

/-- `MXOR` (R214). -/
def execMxor (d a b : MReg) (e : Option MReg) : State → Host.Outcome State Fault Refusal :=
  issuePlain (.mxor d a b e) 0 0 0

/-- `MNOT` (R214). -/
def execMnot (d a : MReg) (e : Option MReg) : State → Host.Outcome State Fault Refusal :=
  issuePlain (.mnot d a e) 0 0 0

/-- `MPOP` (R214). -/
def execMpop (d : GReg) (a : MReg) (e : Option MReg) : State → Host.Outcome State Fault Refusal :=
  issuePlain (.mpop d a e) 0 0 0

/-- `MFIRST` (R214). -/
def execMfirst (d : GReg) (a : MReg) (e : Option MReg) : State → Host.Outcome State Fault Refusal :=
  issuePlain (.mfirst d a e) 0 0 0

/-- `MSET` (R214). -/
def execMset (d : MReg) (b : GReg) (e : Option MReg) : State → Host.Outcome State Fault Refusal :=
  issuePlain (.mset d b e) 0 b 0

end Sys2Proof.Machine
end

