-- ==== Sys2Proof/Machine/VecMemory.lean ====
section
/-!
DEFINITION. Vector memory instructions, major 0x41 (R235 to R242), as they enter the sequencer.
-/

namespace Sys2Proof.Machine

/-- `VLD` (R237). -/
def execVld (f : Fmt) (d : VReg) (base ix : GReg) (scale : BitVec 2) (pol : Policy) (off : BitVec 14) (e : Option MReg) :
    State → Host.Outcome State Fault Refusal :=
  issuePlain (.vld f d base ix scale pol off e) base ix 0

/-- `VLDS` (R237). -/
def execVlds (f : Fmt) (d : VReg) (base ix : GReg) (scale : BitVec 2) (pol : Policy) (off : BitVec 14) (e : Option MReg) :
    State → Host.Outcome State Fault Refusal :=
  issuePlain (.vlds f d base ix scale pol off e) base ix 0

/-- `VLDX` (R237). -/
def execVldx (f : Fmt) (d : VReg) (base : GReg) (ix : VReg) (scale : BitVec 2) (pol : Policy) (off : BitVec 14) (e : Option MReg) :
    State → Host.Outcome State Fault Refusal :=
  issuePlain (.vldx f d base ix scale pol off e) base 0 0

/-- `VST` (R237). -/
def execVst (f : Fmt) (d : VReg) (base ix : GReg) (scale : BitVec 2) (pol : Policy) (off : BitVec 14) (e : Option MReg) :
    State → Host.Outcome State Fault Refusal :=
  issuePlain (.vst f d base ix scale pol off e) base ix 0

/-- `VSTS` (R237). -/
def execVsts (f : Fmt) (d : VReg) (base ix : GReg) (scale : BitVec 2) (pol : Policy) (off : BitVec 14) (e : Option MReg) :
    State → Host.Outcome State Fault Refusal :=
  issuePlain (.vsts f d base ix scale pol off e) base ix 0

/-- `VSTX` (R237). -/
def execVstx (f : Fmt) (d : VReg) (base : GReg) (ix : VReg) (scale : BitVec 2) (pol : Policy) (off : BitVec 14) (e : Option MReg) :
    State → Host.Outcome State Fault Refusal :=
  issuePlain (.vstx f d base ix scale pol off e) base 0 0

/-- `VSADD` (R241). -/
def execVsadd (f : Fmt) (d : VReg) (base : GReg) (ix : VReg) (scale : BitVec 2) (sc : Scope) (off : BitVec 14) (e : Option MReg) :
    State → Host.Outcome State Fault Refusal :=
  issuePlain (.vsadd f d base ix scale sc off e) base 0 0

/-- `VLD_T` (R242). -/
def execVldT (d : VReg) (base ix : GReg) (pol : Policy) (tid : BitVec 8) (e : Option MReg) :
    State → Host.Outcome State Fault Refusal :=
  issueTensor (.vldT d base ix pol tid e) base ix tid

/-- `VST_T` (R242). -/
def execVstT (d : VReg) (base ix : GReg) (pol : Policy) (tid : BitVec 8) (e : Option MReg) :
    State → Host.Outcome State Fault Refusal :=
  issueTensor (.vstT d base ix pol tid e) base ix tid

end Sys2Proof.Machine
end

