-- ==== Sys2Proof/Machine/VecMove.lean ====
section
/-!
DEFINITION. Moves, broadcasts and permutes, major 0x33 (R208, R209), as they enter the sequencer.
-/

namespace Sys2Proof.Machine

/-- `VMV` (R208). -/
def execVmv (d a : VReg) (e : Option MReg) : State → Host.Outcome State Fault Refusal :=
  issuePlain (.vmv d a e) 0 0 0

/-- `VBC` (R208). -/
def execVbc (f : Fmt) (d : VReg) (b : GReg) (e : Option MReg) : State → Host.Outcome State Fault Refusal :=
  issuePlain (.vbc f d b e) 0 b 0

/-- `VID` (R208). -/
def execVid (f : Fmt) (d : VReg) (b : GReg) (e : Option MReg) : State → Host.Outcome State Fault Refusal :=
  issuePlain (.vid f d b e) 0 b 0

/-- `VSEL` (R208). -/
def execVsel (d a b : VReg) (c : MReg) (e : Option MReg) : State → Host.Outcome State Fault Refusal :=
  issuePlain (.vsel d a b c e) 0 0 0

/-- `VSLU` (R208). -/
def execVslu (d a : VReg) (b : GReg) (e : Option MReg) : State → Host.Outcome State Fault Refusal :=
  issuePlain (.vslu d a b e) 0 b 0

/-- `VSLD` (R208). -/
def execVsld (d a : VReg) (b : GReg) (e : Option MReg) : State → Host.Outcome State Fault Refusal :=
  issuePlain (.vsld d a b e) 0 b 0

/-- `VPERM` (R208). -/
def execVperm (d a b : VReg) (e : Option MReg) : State → Host.Outcome State Fault Refusal :=
  issuePlain (.vperm d a b e) 0 0 0

/-- `VROW` (R208). -/
def execVrow (d a : VReg) (k : BitVec 3) (e : Option MReg) : State → Host.Outcome State Fault Refusal :=
  issuePlain (.vrow d a k e) 0 0 0

/-- `VXS` (R209). -/
def execVxs (f : Fmt) (d : GReg) (a : VReg) (b : GReg) : State → Host.Outcome State Fault Refusal :=
  issuePlain (.vxs f d a b) 0 b 0

/-- `VINS` (R209). -/
def execVins (f : Fmt) (d : VReg) (a b : GReg) : State → Host.Outcome State Fault Refusal :=
  issuePlain (.vins f d a b) a b 0

/-- `VAMV` (R209). -/
def execVamv (d : AReg) (a : VReg) (b : GReg) (e : Option MReg) : State → Host.Outcome State Fault Refusal :=
  issuePlain (.vamv d a b e) 0 b 0

/-- `VMVA` (R208). -/
def execVmva (d : VReg) (a : AReg) (b : GReg) (e : Option MReg) : State → Host.Outcome State Fault Refusal :=
  issuePlain (.vmva d a b e) 0 b 0

end Sys2Proof.Machine
end

