-- ==== Sys2Proof/Machine/VecReduce.lean ====
section
/-!
DEFINITION. Reductions and anchored accumulation, major 0x34 (R210, R211), as they enter the sequencer.
-/

namespace Sys2Proof.Machine

/-- `VRED_ADD` (R210). -/
def execVredAdd (f : Fmt) (d : GReg) (a : RSrc) (e : Option MReg) : State → Host.Outcome State Fault Refusal :=
  issuePlain (.vredAdd f d a e) 0 0 0

/-- `VRED_MAX` (R210). -/
def execVredMax (f : Fmt) (d : GReg) (a : RSrc) (e : Option MReg) : State → Host.Outcome State Fault Refusal :=
  issuePlain (.vredMax f d a e) 0 0 0

/-- `VRED_MIN` (R210). -/
def execVredMin (f : Fmt) (d : GReg) (a : RSrc) (e : Option MReg) : State → Host.Outcome State Fault Refusal :=
  issuePlain (.vredMin f d a e) 0 0 0

/-- `VCADD` (R211). -/
def execVcadd (f : Fmt) (d : AReg) (a : VReg) (b : GReg) (e : Option MReg) :
    State → Host.Outcome State Fault Refusal :=
  issuePlain (.vcadd f d a b e) 0 b 0

/-- `VCMAX` (R211). -/
def execVcmax (f : Fmt) (d : AReg) (a : VReg) (b : GReg) (e : Option MReg) :
    State → Host.Outcome State Fault Refusal :=
  issuePlain (.vcmax f d a b e) 0 b 0

end Sys2Proof.Machine
end

