-- ==== Sys2Proof/Machine/Xpad.lean ====
section
/-!
DEFINITION. Queued index-scratchpad instructions, major 0x60 (R327 to R332), as they enter the sequencer.
-/

namespace Sys2Proof.Machine

/-- `XINS` (R329). -/
def execXins (f : Fmt) (d : GReg) (a b : VReg) (c : MReg) (e : Option MReg) :
    State → Host.Outcome State Fault Refusal :=
  issuePlain (.xins f d a b c e) 0 0 0

/-- `XACC` (R329). -/
def execXacc (f : Fmt) (d : GReg) (a b : VReg) (c : MReg) (e : Option MReg) :
    State → Host.Outcome State Fault Refusal :=
  issuePlain (.xacc f d a b c e) 0 0 0

/-- `XLOOK` (R330). -/
def execXlook (f : Fmt) (d a : VReg) (c : MReg) (e : Option MReg) : State → Host.Outcome State Fault Refusal :=
  issuePlain (.xlook f d a c e) 0 0 0

/-- `XDEL` (R331). -/
def execXdel (d : GReg) (a : VReg) (c : MReg) (e : Option MReg) : State → Host.Outcome State Fault Refusal :=
  issuePlain (.xdel d a c e) 0 0 0

/-- `XDRAIN` (R332). -/
def execXdrain (f : Fmt) (d : GReg) (a b : VReg) : State → Host.Outcome State Fault Refusal :=
  issuePlain (.xdrain f d a b) 0 0 0

end Sys2Proof.Machine
end

