-- ==== Sys2Proof/Machine/Dispatch.lean ====
section
/-!
DEFINITION. The meaning of every instruction and event: one arm for each row of the opcode table.
-/

namespace Sys2Proof.Machine

def exec (i : Instr) (s : State) : Host.Outcome State Fault Refusal :=
  match i with
  | .add d a b => Sys2Proof.Machine.execAdd d a b s
  | .sub d a b => Sys2Proof.Machine.execSub d a b s
  | .mul d a b => Sys2Proof.Machine.execMul d a b s
  | .mulh d a b => Sys2Proof.Machine.execMulh d a b s
  | .mulhn d a b => Sys2Proof.Machine.execMulhn d a b s
  | .div d a b => Sys2Proof.Machine.execDiv d a b s
  | .divn d a b => Sys2Proof.Machine.execDivn d a b s
  | .rem d a b => Sys2Proof.Machine.execRem d a b s
  | .remn d a b => Sys2Proof.Machine.execRemn d a b s
  | .and d a b => Sys2Proof.Machine.execAnd d a b s
  | .or d a b => Sys2Proof.Machine.execOr d a b s
  | .xor d a b => Sys2Proof.Machine.execXor d a b s
  | .sll d a b => Sys2Proof.Machine.execSll d a b s
  | .srl d a b => Sys2Proof.Machine.execSrl d a b s
  | .sra d a b => Sys2Proof.Machine.execSra d a b s
  | .slt d a b => Sys2Proof.Machine.execSlt d a b s
  | .sltn d a b => Sys2Proof.Machine.execSltn d a b s
  | .min d a b => Sys2Proof.Machine.execMin d a b s
  | .max d a b => Sys2Proof.Machine.execMax d a b s
  | .minn d a b => Sys2Proof.Machine.execMinn d a b s
  | .maxn d a b => Sys2Proof.Machine.execMaxn d a b s
  | .clz d a => Sys2Proof.Machine.execClz d a s
  | .ctz d a => Sys2Proof.Machine.execCtz d a s
  | .popc d a => Sys2Proof.Machine.execPopc d a s
  | .sext d a n1 => Sys2Proof.Machine.execSext d a n1 s
  | .zext d a n1 => Sys2Proof.Machine.execZext d a n1 s
  | .cmov d a b c => Sys2Proof.Machine.execCmov d a b c s
  | .adds d a b => Sys2Proof.Machine.execAdds d a b s
  | .subs d a b => Sys2Proof.Machine.execSubs d a b s
  | .addi d a imm => Sys2Proof.Machine.execAddi d a imm s
  | .andi d a imm => Sys2Proof.Machine.execAndi d a imm s
  | .ori d a imm => Sys2Proof.Machine.execOri d a imm s
  | .xori d a imm => Sys2Proof.Machine.execXori d a imm s
  | .slli d a sh => Sys2Proof.Machine.execSlli d a sh s
  | .srli d a sh => Sys2Proof.Machine.execSrli d a sh s
  | .srai d a sh => Sys2Proof.Machine.execSrai d a sh s
  | .slti d a imm => Sys2Proof.Machine.execSlti d a imm s
  | .ldi d imm => Sys2Proof.Machine.execLdi d imm s
  | .ldih d imm => Sys2Proof.Machine.execLdih d imm s
  | .pcadd d imm => Sys2Proof.Machine.execPcadd d imm s
  | .fadd d a b f => Sys2Proof.Machine.execFadd d a b f s
  | .fsub d a b f => Sys2Proof.Machine.execFsub d a b f s
  | .fmul d a b f => Sys2Proof.Machine.execFmul d a b f s
  | .fdiv d a b f => Sys2Proof.Machine.execFdiv d a b f s
  | .ffma d a b c f => Sys2Proof.Machine.execFfma d a b c f s
  | .fmin d a b f => Sys2Proof.Machine.execFmin d a b f s
  | .fmax d a b f => Sys2Proof.Machine.execFmax d a b f s
  | .fsqrt d a f => Sys2Proof.Machine.execFsqrt d a f s
  | .fcmpeq d a b f => Sys2Proof.Machine.execFcmpeq d a b f s
  | .fcmplt d a b f => Sys2Proof.Machine.execFcmplt d a b f s
  | .fcmple d a b f => Sys2Proof.Machine.execFcmple d a b f s
  | .fcvt d a f k dir => Sys2Proof.Machine.execFcvt d a f k dir s
  | .fclass d a f => Sys2Proof.Machine.execFclass d a f s
  | .beq a b off => Sys2Proof.Machine.execBeq a b off s
  | .bne a b off => Sys2Proof.Machine.execBne a b off s
  | .blt a b off => Sys2Proof.Machine.execBlt a b off s
  | .bge a b off => Sys2Proof.Machine.execBge a b off s
  | .bltn a b off => Sys2Proof.Machine.execBltn a b off s
  | .bgen a b off => Sys2Proof.Machine.execBgen a b off s
  | .bz a off => Sys2Proof.Machine.execBz a off s
  | .bnz a off => Sys2Proof.Machine.execBnz a off s
  | .jal d off => Sys2Proof.Machine.execJal d off s
  | .jalr d a imm => Sys2Proof.Machine.execJalr d a imm s
  | .dbnz a off => Sys2Proof.Machine.execDbnz a off s
  | .crd d cr => Sys2Proof.Machine.execCrd d cr s
  | .cwr a cr => Sys2Proof.Machine.execCwr a cr s
  | .cset d a cr => Sys2Proof.Machine.execCset d a cr s
  | .cclr d a cr => Sys2Proof.Machine.execCclr d a cr s
  | .sys n => Sys2Proof.Machine.execSys n s
  | .brk n => Sys2Proof.Machine.execBrk n s
  | .rdtime d => Sys2Proof.Machine.execRdtime d s
  | .tmark a n => Sys2Proof.Machine.execTmark a n s
  | .dyn d a => Sys2Proof.Machine.execDyn d a s
  | .arg d idx => Sys2Proof.Machine.execArg d idx s
  | .wfld d k => Sys2Proof.Machine.execWfld d k s
  | .prio d a => Sys2Proof.Machine.execPrio d a s
  | .bar n => Sys2Proof.Machine.execBar n s
  | .barPh d n => Sys2Proof.Machine.execBarPh d n s
  | .sleep a => Sys2Proof.Machine.execSleep a s
  | .lnch d a q => Sys2Proof.Machine.execLnch d a q s
  | .trap n => Sys2Proof.Machine.execTrap n s
  | .ctxsv d a => Sys2Proof.Machine.execCtxsv d a s
  | .ctxld d a => Sys2Proof.Machine.execCtxld d a s
  | .sfq d k => Sys2Proof.Machine.execSfq d k s
  | .sfqPop d k => Sys2Proof.Machine.execSfqPop d k s
  | .qput d a q => Sys2Proof.Machine.execQput d a q s
  | .sinvPage d a => Sys2Proof.Machine.execSinvPage d a s
  | .sinvAll d => Sys2Proof.Machine.execSinvAll d s
  | .sinvReport d => Sys2Proof.Machine.execSinvReport d s
  | .vgr d a => Sys2Proof.Machine.execVgr d a s
  | .vgq d a => Sys2Proof.Machine.execVgq d a s
  | .vrel d => Sys2Proof.Machine.execVrel d s
  | .vrows d n => Sys2Proof.Machine.execVrows d n s
  | .vtype d f blk n => Sys2Proof.Machine.execVtype d f blk n s
  | .vaddFloat f d a b x e => Sys2Proof.Machine.execVaddFloat f d a b x e s
  | .vsubFloat f d a b x e => Sys2Proof.Machine.execVsubFloat f d a b x e s
  | .vmulFloat f d a b x e => Sys2Proof.Machine.execVmulFloat f d a b x e s
  | .vfma f d a b c x e => Sys2Proof.Machine.execVfma f d a b c x e s
  | .vfms f d a b c x e => Sys2Proof.Machine.execVfms f d a b c x e s
  | .vdiv f d a b x e => Sys2Proof.Machine.execVdiv f d a b x e s
  | .vsqrt f d a x e => Sys2Proof.Machine.execVsqrt f d a x e s
  | .vminFloat f d a b x e => Sys2Proof.Machine.execVminFloat f d a b x e s
  | .vmaxFloat f d a b x e => Sys2Proof.Machine.execVmaxFloat f d a b x e s
  | .vabsFloat f d a x e => Sys2Proof.Machine.execVabsFloat f d a x e s
  | .vneg f d a x e => Sys2Proof.Machine.execVneg f d a x e s
  | .vrcp f d a x e => Sys2Proof.Machine.execVrcp f d a x e s
  | .vrsqrt f d a x e => Sys2Proof.Machine.execVrsqrt f d a x e s
  | .vexp2 f d a x e => Sys2Proof.Machine.execVexp2 f d a x e s
  | .vlog2 f d a x e => Sys2Proof.Machine.execVlog2 f d a x e s
  | .vcmpeqFloat f d a b x e => Sys2Proof.Machine.execVcmpeqFloat f d a b x e s
  | .vcmpltFloat f d a b x e => Sys2Proof.Machine.execVcmpltFloat f d a b x e s
  | .vcmple f d a b x e => Sys2Proof.Machine.execVcmple f d a b x e s
  | .vcmpun f d a b x e => Sys2Proof.Machine.execVcmpun f d a b x e s
  | .vaddInt f d a b x e => Sys2Proof.Machine.execVaddInt f d a b x e s
  | .vsubInt f d a b x e => Sys2Proof.Machine.execVsubInt f d a b x e s
  | .vmulInt f d a b x e => Sys2Proof.Machine.execVmulInt f d a b x e s
  | .vmulh f d a b x e => Sys2Proof.Machine.execVmulh f d a b x e s
  | .vadds f d a b x e => Sys2Proof.Machine.execVadds f d a b x e s
  | .vsubs f d a b x e => Sys2Proof.Machine.execVsubs f d a b x e s
  | .vand f d a b x e => Sys2Proof.Machine.execVand f d a b x e s
  | .vor f d a b x e => Sys2Proof.Machine.execVor f d a b x e s
  | .vxor f d a b x e => Sys2Proof.Machine.execVxor f d a b x e s
  | .vsll f d a b x e => Sys2Proof.Machine.execVsll f d a b x e s
  | .vsrl f d a b x e => Sys2Proof.Machine.execVsrl f d a b x e s
  | .vsra f d a b x e => Sys2Proof.Machine.execVsra f d a b x e s
  | .vminInt f d a b x e => Sys2Proof.Machine.execVminInt f d a b x e s
  | .vmaxInt f d a b x e => Sys2Proof.Machine.execVmaxInt f d a b x e s
  | .vcmpeqInt f d a b x e => Sys2Proof.Machine.execVcmpeqInt f d a b x e s
  | .vcmpltInt f d a b x e => Sys2Proof.Machine.execVcmpltInt f d a b x e s
  | .vcmpltn f d a b x e => Sys2Proof.Machine.execVcmpltn f d a b x e s
  | .vabsInt f d a x e => Sys2Proof.Machine.execVabsInt f d a x e s
  | .vcvt f d a src x e => Sys2Proof.Machine.execVcvt f d a src x e s
  | .vq d a x e => Sys2Proof.Machine.execVq d a x e s
  | .vdq f d a x e => Sys2Proof.Machine.execVdq f d a x e s
  | .vscl d a => Sys2Proof.Machine.execVscl d a s
  | .vscw d a => Sys2Proof.Machine.execVscw d a s
  | .vmv d a e => Sys2Proof.Machine.execVmv d a e s
  | .vbc f d b e => Sys2Proof.Machine.execVbc f d b e s
  | .vid f d b e => Sys2Proof.Machine.execVid f d b e s
  | .vsel d a b c e => Sys2Proof.Machine.execVsel d a b c e s
  | .vslu d a b e => Sys2Proof.Machine.execVslu d a b e s
  | .vsld d a b e => Sys2Proof.Machine.execVsld d a b e s
  | .vperm d a b e => Sys2Proof.Machine.execVperm d a b e s
  | .vrow d a k e => Sys2Proof.Machine.execVrow d a k e s
  | .vxs f d a b => Sys2Proof.Machine.execVxs f d a b s
  | .vins f d a b => Sys2Proof.Machine.execVins f d a b s
  | .vamv d a b e => Sys2Proof.Machine.execVamv d a b e s
  | .vmva d a b e => Sys2Proof.Machine.execVmva d a b e s
  | .vredAdd f d a e => Sys2Proof.Machine.execVredAdd f d a e s
  | .vredMax f d a e => Sys2Proof.Machine.execVredMax f d a e s
  | .vredMin f d a e => Sys2Proof.Machine.execVredMin f d a e s
  | .vcadd f d a b e => Sys2Proof.Machine.execVcadd f d a b e s
  | .vcmax f d a b e => Sys2Proof.Machine.execVcmax f d a b e s
  | .vsparse f d a c n => Sys2Proof.Machine.execVsparse f d a c n s
  | .vsparseP f d a c n => Sys2Proof.Machine.execVsparseP f d a c n s
  | .vexpand d a c => Sys2Proof.Machine.execVexpand d a c s
  | .mand d a b e => Sys2Proof.Machine.execMand d a b e s
  | .mor d a b e => Sys2Proof.Machine.execMor d a b e s
  | .mxor d a b e => Sys2Proof.Machine.execMxor d a b e s
  | .mnot d a e => Sys2Proof.Machine.execMnot d a e s
  | .mpop d a e => Sys2Proof.Machine.execMpop d a e s
  | .mfirst d a e => Sys2Proof.Machine.execMfirst d a e s
  | .mset d b e => Sys2Proof.Machine.execMset d b e s
  | .ldB d base ix scale pol off => Sys2Proof.Machine.execLdB d base ix scale pol off s
  | .ldH d base ix scale pol off => Sys2Proof.Machine.execLdH d base ix scale pol off s
  | .ldW d base ix scale pol off => Sys2Proof.Machine.execLdW d base ix scale pol off s
  | .ldD d base ix scale pol off => Sys2Proof.Machine.execLdD d base ix scale pol off s
  | .ldBn d base ix scale pol off => Sys2Proof.Machine.execLdBn d base ix scale pol off s
  | .ldHn d base ix scale pol off => Sys2Proof.Machine.execLdHn d base ix scale pol off s
  | .ldWn d base ix scale pol off => Sys2Proof.Machine.execLdWn d base ix scale pol off s
  | .stB d base ix scale pol off => Sys2Proof.Machine.execStB d base ix scale pol off s
  | .stH d base ix scale pol off => Sys2Proof.Machine.execStH d base ix scale pol off s
  | .stW d base ix scale pol off => Sys2Proof.Machine.execStW d base ix scale pol off s
  | .stD d base ix scale pol off => Sys2Proof.Machine.execStD d base ix scale pol off s
  | .pf base ix scale pol off => Sys2Proof.Machine.execPf base ix scale pol off s
  | .vld f d base ix scale pol off e => Sys2Proof.Machine.execVld f d base ix scale pol off e s
  | .vlds f d base ix scale pol off e => Sys2Proof.Machine.execVlds f d base ix scale pol off e s
  | .vldx f d base ix scale pol off e => Sys2Proof.Machine.execVldx f d base ix scale pol off e s
  | .vst f d base ix scale pol off e => Sys2Proof.Machine.execVst f d base ix scale pol off e s
  | .vsts f d base ix scale pol off e => Sys2Proof.Machine.execVsts f d base ix scale pol off e s
  | .vstx f d base ix scale pol off e => Sys2Proof.Machine.execVstx f d base ix scale pol off e s
  | .vsadd f d base ix scale sc off e => Sys2Proof.Machine.execVsadd f d base ix scale sc off e s
  | .vldT d base ix pol tid e => Sys2Proof.Machine.execVldT d base ix pol tid e s
  | .vstT d base ix pol tid e => Sys2Proof.Machine.execVstT d base ix pol tid e s
  | .amoAdd d base ix sz sc off => Sys2Proof.Machine.execAmoAdd d base ix sz sc off s
  | .amoAnd d base ix sz sc off => Sys2Proof.Machine.execAmoAnd d base ix sz sc off s
  | .amoOr d base ix sz sc off => Sys2Proof.Machine.execAmoOr d base ix sz sc off s
  | .amoXor d base ix sz sc off => Sys2Proof.Machine.execAmoXor d base ix sz sc off s
  | .amoMin d base ix sz sc off => Sys2Proof.Machine.execAmoMin d base ix sz sc off s
  | .amoMax d base ix sz sc off => Sys2Proof.Machine.execAmoMax d base ix sz sc off s
  | .amoMinn d base ix sz sc off => Sys2Proof.Machine.execAmoMinn d base ix sz sc off s
  | .amoMaxn d base ix sz sc off => Sys2Proof.Machine.execAmoMaxn d base ix sz sc off s
  | .amoSwap d base ix sz sc off => Sys2Proof.Machine.execAmoSwap d base ix sz sc off s
  | .amoCas d base ix sz sc off => Sys2Proof.Machine.execAmoCas d base ix sz sc off s
  | .amoFadd d base ix sc off => Sys2Proof.Machine.execAmoFadd d base ix sc off s
  | .amoLd d base sz sc off => Sys2Proof.Machine.execAmoLd d base sz sc off s
  | .amoSt base ix sz sc off => Sys2Proof.Machine.execAmoSt base ix sz sc off s
  | .wait d base ix sz sc off cond => Sys2Proof.Machine.execWait d base ix sz sc off cond s
  | .ph d => Sys2Proof.Machine.execPh d s
  | .phTimestamp d a => Sys2Proof.Machine.execPhTimestamp d a s
  | .phA d => Sys2Proof.Machine.execPhA d s
  | .fx dst frm => Sys2Proof.Machine.execFx dst frm s
  | .opa f d a b c c16 => Sys2Proof.Machine.execOpa f d a b c c16 s
  | .tfold d a b c ka kv => Sys2Proof.Machine.execTfold d a b c ka kv s
  | .tclr d a mask => Sys2Proof.Machine.execTclr d a mask s
  | .tld f d a b c row0 => Sys2Proof.Machine.execTld f d a b c row0 s
  | .tst f d a b c row0 => Sys2Proof.Machine.execTst f d a b c row0 s
  | .tmv f d a c row0 e => Sys2Proof.Machine.execTmv f d a c row0 e s
  | .tadd f d b c row0 e => Sys2Proof.Machine.execTadd f d b c row0 e s
  | .cpw flg src dst len ch => Sys2Proof.Machine.execCpw flg src dst len ch s
  | .cpgo d ch => Sys2Proof.Machine.execCpgo d ch s
  | .cwait d a ch => Sys2Proof.Machine.execCwait d a ch s
  | .cpst d a ch => Sys2Proof.Machine.execCpst d a ch s
  | .tdef d a b c tid => Sys2Proof.Machine.execTdef d a b c tid s
  | .tdrop tid => Sys2Proof.Machine.execTdrop tid s
  | .tget d tid k => Sys2Proof.Machine.execTget d tid k s
  | .rinit d a b c n => Sys2Proof.Machine.execRinit d a b c n s
  | .rget d n => Sys2Proof.Machine.execRget d n s
  | .rgetNw d n => Sys2Proof.Machine.execRgetNw d n s
  | .rrel n => Sys2Proof.Machine.execRrel n s
  | .xins f d a b c e => Sys2Proof.Machine.execXins f d a b c e s
  | .xacc f d a b c e => Sys2Proof.Machine.execXacc f d a b c e s
  | .xlook f d a c e => Sys2Proof.Machine.execXlook f d a c e s
  | .xdel d a c e => Sys2Proof.Machine.execXdel d a c e s
  | .xdrain f d a b => Sys2Proof.Machine.execXdrain f d a b s
  | .xcnt d sel => Sys2Proof.Machine.execXcnt d sel s
  | .xclr d => Sys2Proof.Machine.execXclr d s
  | .kxdef d a kx => Sys2Proof.Machine.execKxdef d a kx s
  | .kxprj d b c kx => Sys2Proof.Machine.execKxprj d b c kx s
  | .kst d a b c kx => Sys2Proof.Machine.execKst d a b c kx s
  | .ksig d a c kx => Sys2Proof.Machine.execKsig d a c kx s
  | .kga d a b c kx k => Sys2Proof.Machine.execKga d a b c kx k s
  | .kgaU d a b c kx k => Sys2Proof.Machine.execKgaU d a b c kx k s
  | .kxst d kx sel => Sys2Proof.Machine.execKxst d kx sel s
  | .kxstClr d kx sel => Sys2Proof.Machine.execKxstClr d kx sel s
  | .kxclr d kx => Sys2Proof.Machine.execKxclr d kx s
  | .gadd d a b => Sys2Proof.Machine.execGadd d a b s
  | .vgadd f d a b c e => Sys2Proof.Machine.execVgadd f d a b c e s
  | .gld d a b e => Sys2Proof.Machine.execGld d a b e s
  | .gest d a b e => Sys2Proof.Machine.execGest d a b e s
  | .gw d a => Sys2Proof.Machine.execGw d a s
  | .gspr d n => Sys2Proof.Machine.execGspr d n s
  | .gstep d a n => Sys2Proof.Machine.execGstep d a n s
  | .pairWord b0 s0 b1 s1 => Sys2Proof.Machine.execPairWord b0 s0 b1 s1 s
  | .gquiet n => Sys2Proof.Machine.execGquiet n s
  | .gctlDefine d a n => Sys2Proof.Machine.execGctlDefine d a n s
  | .gctlUndefine d a n => Sys2Proof.Machine.execGctlUndefine d a n s
  | .gctlStatus d a n => Sys2Proof.Machine.execGctlStatus d a n s
  | .gctlStatusClear d a n => Sys2Proof.Machine.execGctlStatusClear d a n s
  | .yield => Sys2Proof.Machine.execYield s
  | .exit => Sys2Proof.Machine.execExit s
  | .tretGroup => Sys2Proof.Machine.execTretGroup s
  | .tretLaunch => Sys2Proof.Machine.execTretLaunch s
  | .tretRestart => Sys2Proof.Machine.execTretRestart s
  | .tretResume => Sys2Proof.Machine.execTretResume s
  | .sdrain => Sys2Proof.Machine.execSdrain s
  | .fence => Sys2Proof.Machine.execFence s
  | .sleepDeadline h => Sys2Proof.Machine.execSleepDeadline h s
  | .storeFaultReport h => Sys2Proof.Machine.execStoreFaultReport h s
  | .waitSatisfied h => Sys2Proof.Machine.execWaitSatisfied h s
  | .orderedCommitTurn h => Sys2Proof.Machine.execOrderedCommitTurn h s
  | .firmwareCommit h => Sys2Proof.Machine.execFirmwareCommit h s
  | .copyTransferComplete h ch id => Sys2Proof.Machine.execCopyTransferComplete h ch id s
  | .copyErrorCompletion h ch id kind => Sys2Proof.Machine.execCopyErrorCompletion h ch id kind s
  | .ringSlotFill core ring => Sys2Proof.Machine.execRingSlotFill core ring s
  | .powerPeriodBoundary ms => Sys2Proof.Machine.execPowerPeriodBoundary ms s
  | .laneHoldLimitExpiry h => Sys2Proof.Machine.execLaneHoldLimitExpiry h s
  | .currentAlarm die => Sys2Proof.Machine.execCurrentAlarm die s
  | .thermalStepTick die reading => Sys2Proof.Machine.execThermalStepTick die reading s
  | .envelopeSet watts div => Sys2Proof.Machine.execEnvelopeSet watts div s
  | .packetLaunch p q => Sys2Proof.Machine.execPacketLaunch p q s
  | .groupPlacement lid core tfbs => Sys2Proof.Machine.execGroupPlacement lid core tfbs s
  | .dresserEvaluation lid die => Sys2Proof.Machine.execDresserEvaluation lid die s
  | .launchRetirement lid => Sys2Proof.Machine.execLaunchRetirement lid s
  | .digestRegister lid ranges addr => Sys2Proof.Machine.execDigestRegister lid ranges addr s
  | .eviction lid => Sys2Proof.Machine.execEviction lid s
  | .groupReplacement lid grp core => Sys2Proof.Machine.execGroupReplacement lid grp core s
  | .preemption h => Sys2Proof.Machine.execPreemption h s
  | .contextResume h core => Sys2Proof.Machine.execContextResume h core s
  | .tileLazySave lid at_ => Sys2Proof.Machine.execTileLazySave lid at_ s
  | .tileReload h t => Sys2Proof.Machine.execTileReload h t s
  | .pageFaultService p va act => Sys2Proof.Machine.execPageFaultService p va act s
  | .shootdown p page => Sys2Proof.Machine.execShootdown p page s
  | .pageMigration p va ppn => Sys2Proof.Machine.execPageMigration p va ppn s
  | .migrationComplete p va => Sys2Proof.Machine.execMigrationComplete p va s
  | .linkCrcReplay link fails who va => Sys2Proof.Machine.execLinkCrcReplay link fails who va s
  | .scrubRead stack lines => Sys2Proof.Machine.execScrubRead stack lines s
  | .doorbellWrite p q tail => Sys2Proof.Machine.execDoorbellWrite p q tail s
  | .doorbellEntryProcess p => Sys2Proof.Machine.execDoorbellEntryProcess p s
  | .qcfgWrite p q val => Sys2Proof.Machine.execQcfgWrite p q val s
  | .hostRegisterWrite p q reg val => Sys2Proof.Machine.execHostRegisterWrite p q reg val s
  | .packetNop p q => Sys2Proof.Machine.execPacketNop p q s
  | .packetWaitValue p q => Sys2Proof.Machine.execPacketWaitValue p q s
  | .waitValueComplete p q => Sys2Proof.Machine.execWaitValueComplete p q s
  | .packetWriteValue p q => Sys2Proof.Machine.execPacketWriteValue p q s
  | .packetCond p q => Sys2Proof.Machine.execPacketCond p q s
  | .packetLoop p q => Sys2Proof.Machine.execPacketLoop p q s
  | .packetIndirect p q => Sys2Proof.Machine.execPacketIndirect p q s
  | .indirectFetchAhead p q => Sys2Proof.Machine.execIndirectFetchAhead p q s
  | .packetFetchFence p q => Sys2Proof.Machine.execPacketFetchFence p q s
  | .packetCopy p q => Sys2Proof.Machine.execPacketCopy p q s
  | .packetTimestamp p q => Sys2Proof.Machine.execPacketTimestamp p q s
  | .hostRead p at_ n => Sys2Proof.Machine.execHostRead p at_ n s
  | .hostWrite p va bytes => Sys2Proof.Machine.execHostWrite p va bytes s
  | .gossipExchange reg page slot => Sys2Proof.Machine.execGossipExchange reg page slot s
  | .gossipReceipt port msg => Sys2Proof.Machine.execGossipReceipt port msg s
  | .gossipAck reg port seq => Sys2Proof.Machine.execGossipAck reg port seq s
  | .gossipRefusalNotice reg port seq => Sys2Proof.Machine.execGossipRefusalNotice reg port seq s
  | .gossipRetransmit reg port msg => Sys2Proof.Machine.execGossipRetransmit reg port msg s
  | .gossipAddBackRetry reg port seq => Sys2Proof.Machine.execGossipAddBackRetry reg port seq s
  | .portLost port got told cut => Sys2Proof.Machine.execPortLost port got told cut s
  | .peerRequest p way req => Sys2Proof.Machine.execPeerRequest p way req s
  | .breakpointStop h => Sys2Proof.Machine.execBreakpointStop h s
  | .singleStep h issue => Sys2Proof.Machine.execSingleStep h issue s
  | .debuggerResume h edits => Sys2Proof.Machine.execDebuggerResume h edits s
  | .mgmtCoreRestart c => Sys2Proof.Machine.execMgmtCoreRestart c s
  | .mailboxMessage src dst msg => Sys2Proof.Machine.execMailboxMessage src dst msg s
  | .recordStart lid setup => Sys2Proof.Machine.execRecordStart lid setup s
  | .logDrain lid stream upto => Sys2Proof.Machine.execLogDrain lid stream upto s
  | .cerrClear h ch => Sys2Proof.Machine.execCerrClear h ch s
  | .sealedMessage p pages msg => Sys2Proof.Machine.execSealedMessage p pages msg s
  | .attestationReport r nonce => Sys2Proof.Machine.execAttestationReport r nonce s
  | .sealedRegionRelease r => Sys2Proof.Machine.execSealedRegionRelease r s
  | .packageReset => Sys2Proof.Machine.execPackageReset s
  | .lifeCycleChange st => Sys2Proof.Machine.execLifeCycleChange st s
  | .elementGroupAdvance cycle => Sys2Proof.Machine.execElementGroupAdvance cycle s
  | .storePerformed h => Sys2Proof.Machine.execStorePerformed h s
  | .hostLinkLost => Sys2Proof.Machine.execHostLinkLost s
  | .cxlLinkDown port lines => Sys2Proof.Machine.execCxlLinkDown port lines s
  | .storedDataError at_ => Sys2Proof.Machine.execStoredDataError at_ s
  | .breakpointSet p pc add => Sys2Proof.Machine.execBreakpointSet p pc add s
  | .debuggerInterrupt h => Sys2Proof.Machine.execDebuggerInterrupt h s
  | .traceEnable die base size en => Sys2Proof.Machine.execTraceEnable die base size en s
  | .budgetSet cls unit val => Sys2Proof.Machine.execBudgetSet cls unit val s
  | .powerFirmwareLimitsSet what unit val => Sys2Proof.Machine.execPowerFirmwareLimitsSet what unit val s
  | .partitionSetup setup => Sys2Proof.Machine.execPartitionSetup setup s

end Sys2Proof.Machine
end

