-- ==== Sys2Proof/Machine/Step.lean ====
section
/-!
DEFINITION. One step of the package: the next event that the surroundings offer, or one instruction of the hart that
issues, or, where none does, the passing of time.
-/

namespace Sys2Proof.Machine

/-- What the fetch of an instruction leads to. -/
noncomputable def runNext (s : State) : Host.Outcome State Fault Refusal :=
  match nextInstr s with
  | .ok i s' => afterInstr (exec i s')
  | .error .left s' => afterInstr (.next s')
  | .error (.fault f) _ => .fault f
  | .error (.refuse r) _ => .refused r

/-- One step. -/
noncomputable def step (s : State) : Host.Outcome State Fault Refusal :=
  let s := s.passTime
  match s.inbox with
  | i :: t => exec i { s with inbox := t }
  | [] => if s.issues then runNext s.schedule.issued else .next s.schedule

/-- The state with a word placed where the next step fetches it. -/
def State.withFetchWord (s : State) (_nbits w : Nat) : State := s.placeWord w

end Sys2Proof.Machine
end

