-- ==== Sys2Proof/Safety.lean ====
section
/-!
DEFINITION. What claims about the machine are stated in: a safe step, a hart that may issue with nothing pending, what an
instruction leaves unchanged, and the sweep of a vector instruction over its positions.
-/

namespace Sys2Proof.Machine

/-- A state whose next step neither faults nor is refused. -/
def State.Safe (s : State) : Prop := ∃ t, step s = .next t

/-- The hart on the front end runs, waits for nothing, and nothing of it is queued or still to be performed. -/
structure State.Ready (s : State) : Prop where
  running : s.cur.status = .running
  noWait : s.cur.wait = none
  noCap : s.cur.capWait = none
  queue : s.cur.vq = []
  stores : s.cur.sq = []

/-- Queued instructions are served to their end at issue, the hart owes nothing, and no stored data fails parity. -/
structure State.Plain (s : State) : Prop extends State.Ready s where
  due : s.cur.due = .nothing
  serve : s.serve = none
  spots : s.spots = []

/-- The fields of a hart that every retiring instruction may change, and the g registers, at fixed values. -/
def Hart.bare (h : Hart) : Hart :=
  { h with ctx := { h.ctx with pc := 0, iter := 0, resid := none, g := [] }, retired := 0, wait := none, pass := false,
           logWait := false }

/-- The same with the flags at a fixed value. -/
def Hart.bareFl (h : Hart) : Hart := let b := h.bare; { b with ctx := { b.ctx with fflags := 0 } }

/-- Everything but the hart on the front end is unchanged. -/
def SamePackage (s t : State) : Prop := { t with cur := s.cur } = s

/-- Everything but the hart on the front end, the free values used up and the translations kept is unchanged. -/
def NearPackage (s t : State) : Prop := { t with cur := s.cur, free := s.free, tlb := s.tlb } = s

/-- The hart stands `off` words on from where it stood: in original code at PC + 8 × off, in residual code at the word that
many words on (R61, R65, R370). -/
structure Moves (s t : State) (off : BitVec 32) : Prop where
  original : s.cur.ctx.resid = none →
    t.cur.ctx.pc = s.cur.ctx.pc + 8 * off.signExtend 64 ∧ t.cur.ctx.iter = s.cur.ctx.iter ∧ t.cur.ctx.resid = none
  residual : ∀ k w, s.cur.ctx.resid = some k → s.cur.code[((k : Int) + off.toInt).toNat]? = some w →
    t.cur.ctx.pc = w.opc ∧ t.cur.ctx.iter = w.iter ∧ t.cur.ctx.resid = some ((k : Int) + off.toInt).toNat

/-- An instruction retired: counted, where no further word of the same instance follows, its wait ended, and the hart at the
next word (R61, R76). -/
structure Retired (s t : State) : Prop where
  count : t.cur.retired = if s.cur.hasMore then s.cur.retired else s.cur.retired + 1
  wait : t.cur.wait = none
  moves : Moves s t 1

/-- Nothing changed but the register d, and what retiring changes: no flag, no other register of any kind, no byte of
memory. -/
structure RegFrame (s t : State) (d : GReg) : Prop where
  regs : ∀ r, r ≠ d → t.cur.rd r = s.cur.rd r
  hart : t.cur.bare = s.cur.bare
  package : SamePackage s t
  memory : ∀ a, t.byte a = s.byte a

/-- Nothing changed but the register d, the flags, and what retiring changes. -/
structure FlagFrame (s t : State) (d : GReg) : Prop where
  regs : ∀ r, r ≠ d → t.cur.rd r = s.cur.rd r
  hart : t.cur.bareFl = s.cur.bareFl
  package : SamePackage s t
  memory : ∀ a, t.byte a = s.byte a

/-- An instruction completes with a value in gd (none in g0, which reads zero) and changes nothing else. -/
def Does (i : Instr) (s : State) (d : GReg) (x : Word) : Prop :=
  ∃ t, exec i s = .next t ∧ t.cur.rd d = (if d = 0 then 0 else x) ∧ Retired s t ∧ RegFrame s t d

/-- An instruction completes with a value in gd and flags raised, and changes nothing else. -/
def DoesFl (i : Instr) (s : State) (d : GReg) (x : Word) (fl : BitVec 5) : Prop :=
  ∃ t, exec i s = .next t ∧ t.cur.rd d = (if d = 0 then 0 else x) ∧ t.cur.ctx.fflags = s.cur.ctx.fflags ||| fl ∧
    Retired s t ∧ FlagFrame s t d

/-- A branch completes, taken or not, and changes nothing else (R155). -/
def Branches (i : Instr) (s : State) (off : BitVec 32) (taken : Bool) : Prop :=
  ∃ t, exec i s = .next t ∧ Moves s t (if taken then off else 1) ∧ (∀ r, t.cur.rd r = s.cur.rd r) ∧
    t.cur.bare = s.cur.bare ∧ SamePackage s t ∧ t.cur.retired = s.cur.retired + 1 ∧ t.cur.wait = none ∧
    ∀ a, t.byte a = s.byte a

/-- The launch neither records nor replays (R458). -/
def State.Unlogged (s : State) : Prop := s.recMode s.cur.lid = 0

/-- The full instruction as which a slot of a pair word acts (R75). -/
def fullOf : PSlot → Option Instr
  | .alu .add d r => some (.add d d r)
  | .alu .sub d r => some (.sub d d r)
  | .alu .and d r => some (.and d d r)
  | .alu .or d r => some (.or d d r)
  | .alu .xor d r => some (.xor d d r)
  | .alu .sll d r => some (.sll d d r)
  | .alu .srl d r => some (.srl d d r)
  | .alu .sra d r => some (.sra d d r)
  | .alu .mov d r => some (.or d r 0)
  | .addi d r imm => some (.addi d r (imm.signExtend 32))
  | .ldi d imm => some (.ldi d (imm.signExtend 32))
  | .slli d r sh => some (.slli d r sh)
  | .srli d r sh => some (.srli d r sh)
  | .ld d r imm => some (.ldD d r 0 0 .normal (imm.signExtend 18 <<< 3))
  | .st d r imm => some (.stD d r 0 0 .normal (imm.signExtend 18 <<< 3))
  | .vec .addF v w => some (.vaddFloat .f32 v v w none none)
  | .vec .subF v w => some (.vsubFloat .f32 v v w none none)
  | .vec .mulF v w => some (.vmulFloat .f32 v v w none none)
  | .vec .mv v w => some (.vmv v w none)
  | .vec .addI v w => some (.vaddInt .i32 v v w none none)
  | .nop => none

/-- A control register takes the value that cwr, cset and cclr give it, and cset and cclr return the old one (R147). -/
def CregWrites (s : State) (d a : GReg) (cr : BitVec 12) (old : Word) (put : Word → Hart → Hart) : Prop :=
  exec (.cwr a cr) s = .next { s with cur := (put (s.cur.rd a) s.cur).retire } ∧
  exec (.cset d a cr) s = .next { s with cur := ((put (old ||| s.cur.rd a) s.cur).wr d old).retire } ∧
  exec (.cclr d a cr) s = .next { s with cur := ((put (old &&& ~~~(s.cur.rd a)) s.cur).wr d old).retire }

/-- An illegal instruction traps at its own PC with its word in tval, before it changes anything (R86, R88). -/
def TrapsIllegal (i : Instr) (s : State) : Prop := exec i s = .next (s.takeTrap 16 (s.cur.wordOf i) s.cur.ctx.pc 0)


/-- Tracing is off on the die of the hart on the front end. -/
def State.Untraced (s : State) : Prop := (s.die (s.cur.core / 32)).trEn = false

/-- The hart commits without waiting (R226, R252, R261): nothing recorded or moved holds it back, its version holds stores
only, each byte once, and it is not in the middle of a phase begin. -/
structure State.Committing (s : State) : Prop extends State.Plain s where
  unlogged : s.Unlogged
  still : s.migr = []
  defer : s.cur.defer = []
  intents : s.cur.intents = []
  defs : s.cur.defs = []
  half : s.cur.half = none
  once : AMap.sorted s.cur.ver = true

/-- The deferred effects of a hart with more of the instruction at which it stands (R274). -/
def Hart.deferAll (h : Hart) (l : List Deferred) : List (Nat × Deferred) :=
  l.foldl (fun q d => placeDeferred (h.retired + 1) d q) h.defer

/-- No die holds more version and retained lines than its share (R257). -/
def State.Roomy (s : State) : Prop := ∀ d, d < 4 → s.dieLines d ≤ dieShare

/-- The version of the hart is memory's: every byte of it, and no other byte has changed (R252). -/
def VersionWritten (s t : State) : Prop :=
  s.Untraced → ∀ pa, t.byte pa = (AMap.find? s.cur.ver pa).getD (s.byte pa)

/-- A hart that has committed: the package's next commit number, a new snapshot, the next phase, an empty version (R251,
R253, R261). -/
structure Committed (s t : State) : Prop where
  commits : t.commits = s.commits + 1
  snapshot : t.cur.cmn = s.commits + 1
  phase : t.cur.phn = s.cur.phn + 1
  version : t.cur.ver = [] ∧ t.cur.defer = [] ∧ t.cur.intents = [] ∧ t.cur.defs = []
  memory : VersionWritten s t
  others : t.rest.map Hart.ctx = s.rest.map Hart.ctx

/-- A load completes with a value in gd: it changes no other register, no flag and no byte of memory; a TLB may keep the
translation, a free value may be used up, and an ordered task's read set grows (R233, R273). -/
def LoadDoes (i : Instr) (s : State) (d : GReg) (x : Word) : Prop :=
  ∃ t, exec i s = .next t ∧ t.cur.rd d = (if d = 0 then 0 else x) ∧ (∀ r, r ≠ d → t.cur.rd r = s.cur.rd r) ∧
    Retired s t ∧ { t.cur.bare with reads := s.cur.reads } = s.cur.bare ∧
    (s.cur.ordered = false → t.cur.reads = s.cur.reads) ∧ NearPackage s t ∧ ∀ a, t.byte a = s.byte a

/-- A scalar store retires: it stands behind the hart's earlier stores with its address and bytes, and nothing else has
changed (R233). -/
def StoreRetires (i : Instr) (s : State) (ea : Word) (bs : List Byte) : Prop :=
  exec i s = .next { s with cur := ({ s.cur with
    sq := s.cur.sq ++ [{ ea := ea, bytes := bs, opc := s.cur.ctx.pc, iter := s.cur.ctx.iter, at_ := s.cur.retired + 1 }] } :
      Hart).retire }

/-- What a write at the home may change beside memory: waits that it satisfies, kept writes, uncorrectable lines written over,
a translation kept, specialisation entries hidden, and frames and save areas that are written over (R253, R256, R269, R377,
R398). -/
def HomeFrame (s t : State) : Prop :=
  { t with cur := s.cur, rest := s.rest, mem := s.mem, seq := s.seq, hist := s.hist, bad := s.bad, tlb := s.tlb,
           dies := s.dies, parts := s.parts, frames := s.frames, opaq := s.opaq } = s ∧
    t.rest.map Hart.ctx = s.rest.map Hart.ctx

/-- Nothing changed but the hart on the front end, and what a trace event writes (R466). -/
def SameButTrace (s t : State) : Prop := HomeFrame s { t with out := s.out } ∧ t.tlb = s.tlb

/-- The bytes of the error-log ring that the next record of a partition takes (R449). -/
def State.recordBytes (s : State) (p a : Nat) : Bool :=
  match AMap.find? s.parts p with
  | some x => decide (x.elogCap ≠ 0) && decide (x.elogAt + 128 * x.elogNext ≤ a)
      && decide (a < x.elogAt + 128 * x.elogNext + 128)
  | none => false

/-- The bytes of the area of a hart's context frame, or handler frame (R388, R392). -/
def State.inFrame (s : State) (h : Hart) (hdl : Bool) (a : Nat) : Bool :=
  match s.framePa h hdl with
  | some lo => decide (lo ≤ a) && decide (a < lo + frameSize)
  | none => false

/-- No deferred addition of the hart on the front end at another package is unanswered (R267). -/
def State.noneAsked (s : State) : Prop := ∀ a ∈ s.asked, a.hid = s.cur.hid → a.waits = true

/-- An atomic completes: the n bytes at pa take a new value where it writes, the old value goes to gd unless that is g0; no
other byte, no other register, no flag and no byte of the version changes (R266, R268). -/
def AmoDoes (i : Instr) (s : State) (d : GReg) (n pa : Nat) (new : Option Word) (ret : Word) : Prop :=
  ∃ t, exec i s = .next t ∧ t.cur.rd d = (if d = 0 then 0 else ret) ∧ (∀ r, r ≠ d → t.cur.rd r = s.cur.rd r) ∧
    Retired s t ∧ { t.cur.bare with reads := s.cur.reads } = s.cur.bare ∧ HomeFrame s t ∧
    ∀ a, t.byte a =
      match new with
      | some x => if pa ≤ a ∧ a < pa + n then x.extractLsb' (8 * (a - pa)) 8 else s.byte a
      | none => s.byte a

/-! Vector instructions. -/

/-- The shape is one that nr and vl can hold (R185, R10). -/
structure State.Shaped (s : State) : Prop where
  rows : s.cur.ctx.nr.toNat ≤ 8
  elems : s.cur.ctx.vl ≤ 1024

/-- Row r and position j lie under the hart's shape (R192). -/
def State.inShape (s : State) (r j : Nat) : Bool := decide (r < s.cur.ctx.nr.toNat) && decide (j < s.cur.ctx.vl)

/-- A position is active: no predicate, or its predicate bit is 1 (R70). -/
def Hart.active (h : Hart) (e : Option MReg) (r j : Nat) : Bool :=
  match e with
  | none => true
  | some pm => h.bitM pm.toNat r j == 1

/-- Flags raised by any of the first n positions (R40). -/
def flagsOver (f : Nat → BitVec 5) : Nat → BitVec 5
  | 0 => 0
  | n + 1 => flagsOver f n ||| f n

/-- The fields of a hart that a vector instruction may change, at fixed values: those of retiring, the strip, mask, scale
and anchored registers, the g registers, the flags, and the progress indices (R197). -/
def Hart.bareVec (h : Hart) : Hart :=
  let b := h.bareFl
  { b with ctx := { b.ctx with v := [], m := [], sc := [], a := [] }, prog := [] }

/-- Nothing changed but vector registers, g registers, flags, progress, and what retiring changes. -/
structure VecFrame (s t : State) : Prop where
  hart : t.cur.bareVec = s.cur.bareVec
  package : NearPackage s t
  memory : ∀ a, t.byte a = s.byte a
  retired : Retired s t

/-- The strip registers changed only as given: register d at the positions under the shape that satisfy a test takes a
value; every other slot is as before. -/
def StripWrites (s t : State) (d : VReg) (test : Nat → Nat → Bool) (val : Nat → Nat → Slot) : Prop :=
  ∀ reg r j, r < 8 → j < 1024 →
    t.cur.slotV reg r j =
      if reg = d.toNat ∧ s.inShape r j = true ∧ test r j = true then val r j else s.cur.slotV reg r j

/-- The mask registers changed only as given. -/
def MaskWrites (s t : State) (d : MReg) (test : Nat → Nat → Bool) (val : Nat → Nat → BitVec 1) : Prop :=
  ∀ reg r j, r < 8 → j < 1024 →
    t.cur.bitM reg r j =
      if reg = d.toNat ∧ s.inShape r j = true ∧ test r j = true then val r j else s.cur.bitM reg r j

/-- No mask register changed. -/
def MasksKept (s t : State) : Prop := ∀ reg r j, r < 8 → j < 1024 → t.cur.bitM reg r j = s.cur.bitM reg r j

/-- No strip register changed. -/
def StripsKept (s t : State) : Prop := ∀ reg r j, r < 8 → j < 1024 → t.cur.slotV reg r j = s.cur.slotV reg r j

/-- The exception mask, where the instruction has one, holds under the shape whether a position raised NV, DZ or OF, 0 at an
inactive one; no other mask bit changed (R42, R199). -/
def ExcWrites (s t : State) (x e : Option MReg) (fl : Nat → Nat → BitVec 5) : Prop :=
  match x with
  | none => MasksKept s t
  | some xm => MaskWrites s t xm (fun _ _ => true) fun r j => if s.cur.active e r j then excBit (fl r j) else 0

/-- The flags raised are those of the active positions, no others (R40, R199). -/
def FlagWrites (s t : State) (e : Option MReg) (fl : Nat → Nat → BitVec 5) : Prop :=
  t.cur.ctx.fflags = s.cur.ctx.fflags ||| flagsOver
    (fun p => if s.cur.active e (p / s.cur.ctx.vl) (p % s.cur.ctx.vl) then fl (p / s.cur.ctx.vl) (p % s.cur.ctx.vl) else 0)
    (s.cur.ctx.nr.toNat * s.cur.ctx.vl)

/-- The scale, anchored and g registers are as before. -/
structure OthersKept (s t : State) : Prop where
  scales : t.cur.ctx.sc = s.cur.ctx.sc
  anchored : t.cur.ctx.a = s.cur.ctx.a
  regs : ∀ r, t.cur.rd r = s.cur.rd r

/-- The scale and anchored registers are as before. -/
def OthersButG (s t : State) : Prop := t.cur.ctx.sc = s.cur.ctx.sc ∧ t.cur.ctx.a = s.cur.ctx.a

/-- A vector instruction completes that gives register d, at each active position, a value and flags of that position, and
changes nothing else but its exception mask. -/
def StripDoes (i : Instr) (s : State) (d : VReg) (x e : Option MReg) (val : Nat → Nat → Slot) (fl : Nat → Nat → BitVec 5) :
    Prop :=
  ∃ t, exec i s = .next t ∧ VecFrame s t ∧ OthersKept s t ∧ StripWrites s t d (s.cur.active e) val ∧
    ExcWrites s t x e fl ∧ FlagWrites s t e fl

/-- A compare completes that gives mask d, at each active position, a bit and flags of that position (the exception mask is
another register), and changes nothing else but its exception mask. -/
def MaskDoes (i : Instr) (s : State) (d : MReg) (x e : Option MReg) (val : Nat → Nat → BitVec 1)
    (fl : Nat → Nat → BitVec 5) : Prop :=
  ∃ t, exec i s = .next t ∧ VecFrame s t ∧ OthersKept s t ∧ StripsKept s t ∧ FlagWrites s t e fl ∧
    ∀ reg r j, r < 8 → j < 1024 →
      t.cur.bitM reg r j =
        if x.map BitVec.toNat = some reg ∧ s.inShape r j = true then
          (if s.cur.active e r j then excBit (fl r j) else 0)
        else if reg = d.toNat ∧ s.inShape r j = true ∧ s.cur.active e r j = true then val r j
        else s.cur.bitM reg r j

/-- A vector instruction completes that gives register d a value at the positions that satisfy a test, raises no flag, and
changes nothing else. -/
def StripMoves (i : Instr) (s : State) (d : VReg) (test : Nat → Nat → Bool) (val : Nat → Nat → Slot) : Prop :=
  ∃ t, exec i s = .next t ∧ VecFrame s t ∧ OthersKept s t ∧ StripWrites s t d test val ∧ MasksKept s t ∧
    t.cur.ctx.fflags = s.cur.ctx.fflags

/-- The same for a mask register. -/
def MaskMoves (i : Instr) (s : State) (d : MReg) (test : Nat → Nat → Bool) (val : Nat → Nat → BitVec 1) : Prop :=
  ∃ t, exec i s = .next t ∧ VecFrame s t ∧ OthersKept s t ∧ StripsKept s t ∧ MaskWrites s t d test val ∧
    t.cur.ctx.fflags = s.cur.ctx.fflags

/-- A vector instruction completes that gives gd a value and raises flags, and changes nothing else (R145). -/
def StripGives (i : Instr) (s : State) (d : GReg) (x : Word) (fl : BitVec 5) : Prop :=
  ∃ t, exec i s = .next t ∧ VecFrame s t ∧ StripsKept s t ∧ MasksKept s t ∧ t.cur.ctx.sc = s.cur.ctx.sc ∧
    t.cur.ctx.a = s.cur.ctx.a ∧ t.cur.rd d = (if d = 0 then 0 else x) ∧ (∀ r, r ≠ d → t.cur.rd r = s.cur.rd r) ∧
    t.cur.ctx.fflags = s.cur.ctx.fflags ||| fl

/-- The scale registers changed only as given: those of the blocks that hold a position under the shape. -/
def ScaleWrites (s t : State) (d : VReg) (L : Nat) (val : Nat → Nat → BitVec 8) : Prop :=
  ∀ reg r b, r < 8 → b < 1024 →
    t.cur.scaleV reg r b =
      if reg = d.toNat ∧ r < s.cur.ctx.nr.toNat ∧ b * L < s.cur.ctx.vl then val r b else s.cur.scaleV reg r b

/-- The running value over the first n addends that are there, the first of them as it stands, with the flags of the rest
(R56). -/
def foldActive {α : Type} (g : α → α → α × BitVec 5) (u : Nat → Option α) : Nat → Option α × BitVec 5
  | 0 => (none, 0)
  | n + 1 =>
    let p := foldActive g u n
    match u n, p.1 with
    | none, _ => p
    | some y, none => (some y, p.2)
    | some y, some x => (some (g x y).1, p.2 ||| (g x y).2)

/-- An anchored slot after the first n positions of a row: each that hits it is combined into it, in rising order (R57,
R209). -/
def anchAfter (g : Slot → Slot → Slot) (hit : Nat → Bool) (u : Nat → Slot) (x : Slot) : Nat → Slot
  | 0 => x
  | n + 1 => if hit n then g (anchAfter g hit u x n) (u n) else anchAfter g hit u x n

/-- An instruction completes that combines each active element at position j into slot (start + j) mod 64 of anchored
register d, with the flags of each step, and changes nothing else (R209, R211). -/
def AnchDoes (i : Instr) (s : State) (d : AReg) (start : Nat) (a : VReg) (e : Option MReg) (g : Slot → Slot → Slot)
    (fl : Slot → Slot → BitVec 5) : Prop :=
  let vl := s.cur.ctx.vl
  let hit : Nat → Nat → Nat → Bool := fun r sl j => s.cur.active e r j && (start + j) % 64 == sl
  let after : Nat → Nat → Nat → Slot := fun r sl n =>
    anchAfter g (hit r sl) (fun j => s.cur.slotV a.toNat r j) (s.cur.slotA d.toNat r sl) n
  ∃ t, exec i s = .next t ∧ VecFrame s t ∧ StripsKept s t ∧ MasksKept s t ∧ t.cur.ctx.sc = s.cur.ctx.sc ∧
    (∀ r, t.cur.rd r = s.cur.rd r) ∧
    (∀ reg r sl, r < 8 → sl < 64 →
      t.cur.slotA reg r sl = if reg = d.toNat ∧ r < s.cur.ctx.nr.toNat then after r sl vl else s.cur.slotA reg r sl) ∧
    FlagWrites s t e fun r j => fl (after r ((start + j) % 64) j) (s.cur.slotV a.toNat r j)

/-! Vector accesses to memory. -/

/-- No write outside a commit is kept, so that no load races with one (R254). -/
def State.raceFree (s : State) : Prop := ∀ r ∈ s.hist, r.commit ≠ none

/-- The bytes that a load of the hart on the front end, scalar or vector, gives at an effective address, none where it faults
or reaches a device (R222, R228, R253, R313). -/
def State.sees (s : State) (k : Access) (ea : Word) (n : Nat) : Option (List Byte) :=
  match stageOff ea with
  | some o => if ownsStage s s.cur o n then some ((s.core s.cur.core).stageBytes o n) else none
  | none =>
    match resolveRange s s.cur k ea n with
    | .error _ => none
    | .ok ps =>
      if (badLine s s.cur ps).isNone && ps.all (fun p => p.cls != 1) then
        some (ps.map fun p => s.cur.byte s s.lookNow p.pa)
      else none

/-- The element of a format whose first bit stands in the byte at an address (R236). -/
def State.seesElem (s : State) (f : Fmt) (x : Word × Nat) : Option Slot :=
  (s.sees .vload x.1 ((fmtWidth f + 7) / 8)).map fun bs => codeSlot f (leNat bs / 2 ^ x.2 % 2 ^ fmtWidth f)

/-- Nothing changed but vector registers, progress, the restart point, the translations kept, an ordered task's read set, and
what retiring changes. -/
structure LoadFrame (s t : State) : Prop where
  hart : (let b := t.cur.bareVec; { b with ctx := { b.ctx with vbeg := none }, reads := s.cur.reads }) =
    (let b := s.cur.bareVec; { b with ctx := { b.ctx with vbeg := none } })
  reads : s.cur.ordered = false → t.cur.reads = s.cur.reads
  package : NearPackage s t
  memory : ∀ a, t.byte a = s.byte a
  retired : Retired s t
  restart : t.cur.ctx.vbeg = none

/-- A vector load completes: where every active element can be read, register d takes it, and nothing else changes
(R237). -/
def StripLoads (i : Instr) (s : State) (d : VReg) (e : Option MReg) (f : Fmt) (addr : Nat → Nat → Word × Nat) : Prop :=
  (∀ r j, s.inShape r j = true → s.cur.active e r j = true → (s.seesElem f (addr r j)).isSome = true) →
    ∃ t, exec i s = .next t ∧ LoadFrame s t ∧ OthersKept s t ∧ MasksKept s t ∧
      t.cur.ctx.fflags = s.cur.ctx.fflags ∧
      StripWrites s t d (s.cur.active e) fun r j => (s.seesElem f (addr r j)).getD 0

/-- One element that a vector store writes: its address, its first bit there, its width and its code. -/
structure ElemStore where
  ea : Word
  bit : Nat
  width : Nat
  code : Nat
  deriving DecidableEq, Repr

/-- The bytes an element touches. -/
def ElemStore.size (x : ElemStore) : Nat := (x.width + 7) / 8

/-- The physical addresses of a vector store of the hart on the front end outside the stage window and devices. -/
def State.storesTo (s : State) (ea : Word) (n : Nat) : Option (List Nat) :=
  if (stageOff ea).isSome then none
  else
    match resolveRange s s.cur .vstore ea n with
    | .error _ => none
    | .ok ps => if ps.all fun p => p.cls != 1 then some (ps.map Phys.pa) else none

/-- A version with an element stored: its whole bytes, or for a part of a byte the byte as the hart sees it with those bits
replaced (R236, R249). -/
def State.putElem (s : State) (ver : AMap Byte) (x : ElemStore) : AMap Byte :=
  match s.storesTo x.ea x.size with
  | none => ver
  | some pas =>
    let old : Byte := (pas.head?.map fun pa => (AMap.find? ver pa).getD (snapBase s s.cur.snapSeq pa s.hist)).getD 0
    let bytes : List Byte :=
      if x.width < 8 then
        [BitVec.ofNat 8 (old.toNat % 2 ^ x.bit + x.code % 2 ^ x.width * 2 ^ x.bit
          + old.toNat / 2 ^ (x.bit + x.width) * 2 ^ (x.bit + x.width))]
      else (List.range x.size).map fun k => BitVec.ofNat 8 (x.code / 256 ^ k)
    (pas.zip bytes).foldl (fun v c => AMap.put v c.1 c.2) ver

/-- The version and every home die have room for all the lines that the elements touch (R257). -/
def State.roomFor (s : State) (xs : List ElemStore) : Prop :=
  let lines := ((xs.flatMap fun x => (s.storesTo x.ea x.size).getD []).map (· / 64)).eraseDups
  s.cur.verLines.length + s.cur.quarterIntents + lines.length ≤ s.cur.vcap ∧
    ∀ d, s.dieLines d + lines.length ≤ dieShare

/-- Nothing changed but the version, progress, the restart point, the translations kept, and what retiring changes. -/
structure StoreFrame (s t : State) : Prop where
  hart : (let b := t.cur.bare; { b with ctx := { b.ctx with vbeg := none }, ver := s.cur.ver, spx := s.cur.spx }) =
    (let b := s.cur.bare; { b with ctx := { b.ctx with vbeg := none } })
  regs : ∀ r, t.cur.rd r = s.cur.rd r
  package : NearPackage s t
  memory : ∀ a, t.byte a = s.byte a
  retired : Retired s t
  restart : t.cur.ctx.vbeg = none

/-- A vector store completes: where every element can be written and there is room, they are written into the hart's version
in sweep order, and nothing else changes (R228, R237, R249). -/
def StripStores (i : Instr) (s : State) (xs : List ElemStore) : Prop :=
  (∀ x ∈ xs, (s.storesTo x.ea x.size).isSome = true) → s.roomFor xs →
    ∃ t, exec i s = .next t ∧ StoreFrame s t ∧ t.cur.ver = xs.foldl s.putElem s.cur.ver

/-- The positions of the shape in sweep order (R195). -/
def State.positions (s : State) : List (Nat × Nat) :=
  (List.range s.cur.ctx.nr.toNat).flatMap fun r => (List.range s.cur.ctx.vl).map fun j => (r, j)

/-- The elements that a vector store of register d writes: the active positions, in sweep order. -/
def State.stored (s : State) (d : VReg) (e : Option MReg) (f : Fmt) (addr : Nat → Nat → Word × Nat) : List ElemStore :=
  (s.positions.filter fun p => s.cur.active e p.1 p.2).map fun p =>
    { ea := (addr p.1 p.2).1, bit := (addr p.1 p.2).2, width := fmtWidth f,
      code := (s.cur.slotV d.toNat p.1 p.2).toNat }

/-! Tiles. -/

/-- P of a cell of a tile (R275). -/
def Hart.cellP (h : Hart) (t : TReg) (i c : Nat) : Int := (Sparse.get (h.tile t).p (cellKey i c)).toInt
/-- A of a cell of a tile (R275). -/
def Hart.cellA (h : Hart) (t : TReg) (i c : Nat) : Slot := Sparse.get (h.tile t).a (cellKey i c)

/-- The tile is the hart's, stands in the tile store, and the columns from g lie in the window (R276, R278, R283). -/
structure State.Windowed (s : State) (d : TReg) (g : Nat) : Prop extends State.Plain s where
  shaped : s.Shaped
  owns : d.toNat < s.cur.ntiles ∧ d.toNat < s.cur.tiles.length
  inPlace : (s.cur.tile d).place = .here
  wide : s.cur.tw ≤ 1024
  columns : g + s.cur.ctx.vl ≤ s.cur.tw

/-- Nothing changed but tile d, progress, flags, g registers, the translations kept, an ordered task's read set, and what
retiring changes. -/
structure TileFrame (s t : State) (d : TReg) : Prop where
  hart : { t.cur.bareVec with tiles := s.cur.tiles, reads := s.cur.reads } = s.cur.bareVec
  reads : s.cur.ordered = false → t.cur.reads = s.cur.reads
  tiles : ∀ u, u ≠ d → t.cur.tile u = s.cur.tile u
  package : NearPackage s t
  memory : ∀ a, t.byte a = s.byte a
  retired : Retired s t
  strips : StripsKept s t
  masks : MasksKept s t
  scales : t.cur.ctx.sc = s.cur.ctx.sc
  anchored : t.cur.ctx.a = s.cur.ctx.a

/-- The cells of a tile changed only as given. -/
def TileWrites (s t : State) (d : TReg) (test : Nat → Nat → Bool) (p : Nat → Nat → Int) (a : Nat → Nat → Slot) : Prop :=
  ∀ i c, i < 64 → c < 1024 →
    t.cur.cellP d i c = (if test i c then p i c else s.cur.cellP d i c) ∧
    t.cur.cellA d i c = (if test i c then a i c else s.cur.cellA d i c)

/-- A partial after the products of the first n rows, each sum clamped to magnitude 2^47 − 1, and whether one was clamped
(R54, R287). -/
def partAfter (x : Nat → Int) (p : Int) : Nat → Int × Bool
  | 0 => (p, false)
  | n + 1 =>
    let q := partAfter x p n
    let z := q.1 + x n
    let m : Int := 2 ^ 47 - 1
    (max (-m) (min m z), q.2 || decide (z < -m ∨ m < z))

/-! The index scratchpad. -/

/-- The key at a position: a register pair in i64 layout (R323). -/
def State.keyOf (s : State) (a : VReg) (r j : Nat) : Word := s.cur.slotV (a + 1).toNat r j ++ s.cur.slotV a.toNat r j

/-- The value element at a position as stored (R323). -/
def State.valueOf (s : State) (f : Fmt) (b : VReg) (r j : Nat) : Word :=
  match f with
  | .i64 => s.cur.slotV (b + 1).toNat r j ++ s.cur.slotV b.toNat r j
  | .i32 => (s.cur.slotV b.toNat r j).signExtend 64
  | _ => (s.cur.slotV b.toNat r j).setWidth 64

/-- The slice after the first n positions of an insertion: a present key's value is combined and keeps its rank, a new one
goes behind the others (R322, R329). -/
def State.sliceAfter (s : State) (e : Option MReg) (a b : VReg) (f : Fmt) (comb : Word → Word → Word) :
    Nat → List XEntry
  | 0 => s.cur.xents
  | n + 1 =>
    let l := s.sliceAfter e a b f comb n
    let r := n / s.cur.ctx.vl
    let j := n % s.cur.ctx.vl
    if s.cur.active e r j then
      if l.any fun y => y.key == s.keyOf a r j then
        l.map fun y => if y.key = s.keyOf a r j then { y with val := comb y.val (s.valueOf f b r j) } else y
      else l ++ [{ key := s.keyOf a r j, val := s.valueOf f b r j }]
    else l

/-- Nothing changed but the slice, vector and g registers, flags, progress, the restart point, and what retiring changes. -/
structure SliceFrame (s t : State) : Prop where
  hart : (let b := t.cur.bareVec; { b with ctx := { b.ctx with vbeg := none }, xents := s.cur.xents }) =
    (let b := s.cur.bareVec; { b with ctx := { b.ctx with vbeg := none } })
  package : NearPackage s t
  memory : ∀ a, t.byte a = s.byte a
  retired : Retired s t
  scales : t.cur.ctx.sc = s.cur.ctx.sc
  anchored : t.cur.ctx.a = s.cur.ctx.a

/-! The key index. -/

/-- Every projection unit that the core holds of an index is what committed memory holds (R351). -/
def State.unitsCurrent (s : State) (kx : Nat) (d : List Word) : Prop :=
  ∀ u ∈ (s.core s.cur.core).proj, ∀ h l, u.isFor s.cur.part kx h l d = true →
    u.words = s.wordsVa s.cur.part (kxPbase d + (h * kxL d + l) * kxB d * kxRb d) (kxB d * kxRb d / 8)

/-- The sign bit of row m of the projection of a head's table at a dimension, in committed memory (R338). -/
def State.projSign (s : State) (d : List Word) (h l m c : Nat) : Bool :=
  ((s.wordsVa s.cur.part (kxPbase d + (h * kxL d + l) * kxB d * kxRb d) (kxB d * kxRb d / 8)).getD
    (m * (kxRb d / 8) + c / 64) 0).getLsbD (c % 64)

/-- The sum in slot sl of row r after n dimensions from the dimension base (R342). -/
def State.projSum (s : State) (d : List Word) (f : Fmt) (a : AReg) (v : VReg) (h0 c0 r sl : Nat) : Nat → Slot
  | 0 => s.cur.slotA a.toNat r sl
  | n + 1 =>
    let k := keyElem f (s.cur.slotV v.toNat r n)
    let x : Slot := if s.projSign d (h0 + r) (sl / kxB d) (sl % kxB d) (c0 + n) then k ^^^ 0x80000000 else k
    if c0 + n = 0 then x
    else BitVec.ofNat 32
      (FF.f32.add .rne (FF.f32.decode (s.projSum d f a v h0 c0 r sl n).toNat) (FF.f32.decode x.toNat)).code

/-- The tokens of a chain of segments as the hart sees it, at most n segments and `left` slots (R341, R348). -/
def State.chainOf (s : State) (d : List Word) : Nat → Nat → Nat → Option (List Nat)
  | 0, _, _ => some []
  | n + 1, seg, left =>
    if seg = 0 ∨ kxNseg d < seg ∨ left = 0 then some []
    else
      (s.sees .vload (BitVec.ofNat 64 (kxSegAt d seg)) 64).bind fun bs =>
        let x := leNat bs
        let fill := min (min (x / 2 ^ 480) 14) left
        (s.chainOf d n (x / 2 ^ 448 % 2 ^ 32) (left - fill)).map (slotsOf x fill ++ ·)

/-- The tokens of the buckets of a head's signatures in table order, those of memory and the hart's own, and whether one is
saturated (R348, R349). -/
def State.bucketsOf (s : State) (kx h : Nat) (d : List Word) : Nat → List Nat → Option (List Nat × Bool)
  | _, [] => some ([], false)
  | l, u :: t =>
    let own := afterClear kx s.cur.intents
    let here : Option (List Nat × Bool) :=
      if own.2 then some ([], false)
      else
        (s.sees .vload (BitVec.ofNat 64 (kxEntryAt d h l u)) 16).bind fun bs =>
          let w := leNat bs
          (s.chainOf d (kxChl d) (w % 2 ^ 32) (min (w / 2 ^ 64 % 2 ^ 32) (14 * kxChl d))).map fun x =>
            (x, w / 2 ^ 96 % 2 == 1)
    here.bind fun x => (s.bucketsOf kx h d (l + 1) t).map fun y =>
      (x.1 ++ ownTokens h l u (kxB d) own.1 ++ y.1, x.2 || y.2)

/-! Gossip. -/

/-- Nothing but the words of a page of a gossip region, its counts and its overflow flag may have changed outside the hart
(R421, R422). -/
def GossipFrame (s t : State) : Prop :=
  { t with cur := s.cur, rest := s.rest, mem := s.mem, seq := s.seq, hist := s.hist, bad := s.bad, dies := s.dies,
           parts := s.parts, regions := s.regions, frames := s.frames, opaq := s.opaq, free := s.free } = s ∧
    t.rest.map Hart.ctx = s.rest.map Hart.ctx

/-- A word of a page after the first n positions of a vgadd (R421, R427). -/
def State.gossipAfter (s : State) (f : Fmt) (frac : Nat) (e : Option MReg) (b c : VReg) (k : Nat) (x : Int) : Nat → Int × Nat
  | 0 => (x, 0)
  | n + 1 =>
    let y := s.gossipAfter f frac e b c k x n
    let r := n / s.cur.ctx.vl
    let j := n % s.cur.ctx.vl
    if s.cur.active e r j = true ∧ (s.cur.slotV b.toNat r j).toNat = k then
      match (contribution f frac (s.cur.slotV c.toNat r j) (s.cur.slotV (c + 1).toNat r j)).1 with
      | none => y
      | some v => if fits64 (y.1 + v) then (y.1 + v, y.2) else (y.1, y.2 + 1)
    else y

/-! Events. -/

/-- The original word at the PC of the hart on the front end, fetched through its snapshot, and the state with the translation
kept and free values used up (R60). -/
def State.fetchedOriginal (s : State) : Option (Word × State) :=
  match resolveRange s s.cur .fetch s.cur.ctx.pc 8 with
  | .error _ => none
  | .ok ps =>
    if (ps.find? fun p => s.badPa p.pa).isSome then none
    else
      let t := s.fillTlb s.cur .fetch s.cur.ctx.pc
      some (leWord (fetchBytes s 0 ps), if takesFree s s.cur ps then { t with free := t.free + ps.length } else t)

/-- The word at which the hart on the front end stands, and the state once it is fetched: in residual code the word there, but
where that leaves for the original code or ends the original word (R60, R370, R372). -/
def State.fetched (s : State) : Option (Word × State) :=
  match s.cur.ctx.resid with
  | none => s.fetchedOriginal
  | some k =>
    match s.cur.code[k]? with
    | some w =>
      if w.kind = .leave then ({ s with cur := s.cur.leaveTo w.opc } : State).fetchedOriginal else some (w.word, s)
    | none => ({ s with cur := s.cur.leaveTo s.cur.ctx.pc } : State).fetchedOriginal

/-- The state in which the hart that issues next stands on the front end, once time has passed (R127, R162). -/
def State.turn (s : State) : State := s.passTime.schedule.issued

/-- At the next step a hart issues and fetches: no event is there, and the hart owes nothing, waits for nothing and stands at
no breakpoint. -/
structure State.Turns (s : State) : Prop where
  quiet : s.inbox = []
  issues : s.passTime.issues = true
  due : s.turn.cur.due = .nothing
  owed : s.turn.cur.owed = none
  noCap : s.turn.cur.capWait = none
  point : s.turn.atBreakpoint = false

/-- The hart on the front end stands at an instruction; t is the state once it is fetched. -/
def State.standsAt (s : State) (i : Instr) (t : State) : Prop :=
  ∃ w mark, s.fetched = some (w, t) ∧ decode true (decide (s.part = .tl460)) w = .instr mark i

/-- The hart of key h, brought to the front, is there and runs. -/
def State.runsFront (s : State) (h : Nat) : Prop := (s.focus h).cur.hid = h ∧ (s.focus h).cur.status = .running

/-- The hart of key h is the one that the sequencer of a core serves next, of those whose oldest queued instruction may be
served: one that has waited 256 cycles goes first, the earliest entered of them; else the one with the fewest elements left, of
these the earliest entered (R130). -/
def State.servedNext (s : State) (core h : Nat) (idle : List Nat) : Prop :=
  let u := s.focus h
  let old : VOp → Prop := fun op => op.served + 171 ≤ s.now
  let left : VOp → Nat := fun op => op.nr * op.vl - op.pos
  (s.harts.map Hart.hid).Nodup ∧ u.cur.core = core ∧ h ∉ idle ∧ ∀ op, u.cur.vq.head? = some op →
    ∀ g ∈ s.harts, g.hid ≠ h → g.core = core → g.status = .running → g.hid ∉ idle → ∀ o, g.vq.head? = some o →
      (old op ∧ (old o → op.entered < o.entered)) ∨
        (¬old op ∧ ¬old o ∧ (left op < left o ∨ (left op = left o ∧ op.entered < o.entered)))

/-- An event of a hart takes place: the package with that hart on the front end goes to t, and the hart that stood there
comes back. -/
def Happens (i : Instr) (s t : State) : Prop := exec i s = .next (t.frontAs s)

/-- The byte at an address once a list of bytes is written at a list of addresses. -/
def State.written (s : State) (pas : List Nat) (bs : List Byte) (b : Nat) : Byte :=
  (AMap.find? (pas.zip bs) b).getD (s.byte b)

/-- Nothing but the named queue of a partition, and what its hart is told, has changed. -/
def QueueFrame (s t : State) : Prop :=
  { t with parts := s.parts, cur := s.cur, rest := s.rest } = s ∧ t.harts.map Hart.ctx = s.harts.map Hart.ctx

/-- The packet at the head of an open queue may start: it is of a kind and correct, and every earlier one has completed where it
must wait for them (R440, R441). -/
structure State.Starts (s : State) (p q : Nat) (y : Queue) (x : Packet) (kind : Nat) : Prop where
  opened : s.openQueue p q = some y
  head : y.buf.head? = some x
  plain : x.form = .plain
  kind : kindOf x.words = kind
  good : x.bad = false
  turn : x.barred = true → y.idle = true
  watch : y.watch = none

/-- What stands behind the head is a packet to start, and none is skipped. -/
def Queue.onward (y : Queue) : Prop := y.skip = 0 ∧ ∀ z, y.buf.tail.head? = some z → z.form = .plain

/-- The head of the queue has started, complete or not (R441). -/
def Queue.begun (y : Queue) (x : Packet) (done : Bool) (todo : Nat) : Queue :=
  { y with buf := y.buf.tail, started := y.started ++ [{ pkt := x, done := done, todo := todo }] }

end Sys2Proof.Machine
end

