-- ==== Sys2Proof/Certificates/Slice0/Obligations.lean ====
section
/-!
DEFINITION. What is to be proved of the machine: statements from the numbered rules of the spec.
-/

open Sys2Proof Sys2Proof.Machine

/-- Words that the spec writes out, one or two of each family, decode to the instructions written beside them (R64 to R74,
R85); a write of a register 0x600 to 0x6FF is no instruction (R18). -/
def Obligations.SpecWordsDecode : Prop :=
  decode true true 0x04001461C0000000 = .instr false (.add 5 6 7) ∧
  decode true true 0x4440180000000010 = .instr true (.addi 6 0 16) ∧
  decode true true 0x06000420FFFFFFFC = .instr false (.beq 1 2 (-4)) ∧
  decode true true 0x1003204000000010 = .instr false (.ldD 8 4 0 0 .normal 16) ∧
  decode true true 0x1040084000038040 = .instr false (.vld .f32 2 4 0 0 .normal 64 none) ∧
  decode true true 0x0C00080040DBE000 = .instr false (.vaddFloat .f32 2 0 1 (some 5) (some 3)) ∧
  decode true true 0x48002406FF000000 = .instr true (.crd 9 0x6FF) ∧
  decode true true 0x801460000F083000 = .instr false (.pairWord false (.alu .add 5 6) false (.vec .addF 2 3)) ∧
  decode true true 0x12001C2232000000 = .instr false (.amoAdd 7 2 8 .d .core 0) ∧
  decode true true 0x1242000000000010 = .instr false (.fx .h .c) ∧
  decode true true 0x160014 = .illegal ∧
  decode true true 0x08010015FF000000 = .instr false (.cwr 1 0x5FF) ∧
  decode true true 0x0801001600000000 = .illegal

/-- A step runs the instruction decoded at the program counter of the hart that issues: the original word fetched through its
snapshot, or the word of its residual code (R60, R61, R85, R370, R372). A single-stepped hart goes on until it stands at another
original instruction or iteration, with nothing queued in step-drain mode, and stops there; inside a wait it does not stop
(R380, R404). An event that the surroundings offer comes first, and where no hart issues time passes (log 4). -/
def Obligations.StepRunsDecoded : Prop :=
  (∀ (s t : State) (w : Word) (mark : Bool) (i : Instr),
    s.Turns → s.turn.fetched = some (w, t) → decode true (decide (s.part = .tl460)) w = .instr mark i →
    s.turn.cur.awaitsResult w i = false →
    step s = afterInstr (exec i { t with cur := { t.cur with mark := mark } })) ∧
  (∀ t : State, t.cur.stepping = none ∨ t.cur.status ≠ .running ∨ t.cur.wait ≠ none ∨ t.cur.capWait ≠ none →
    afterInstr (.next t) = .next t) ∧
  (∀ (t : State) (issue : Bool), t.cur.stepping = some issue → t.cur.status = .running → t.cur.wait = none →
    t.cur.capWait = none → (issue = true ∨ (t.cur.vq = [] ∧ t.cur.sq = [])) →
    afterInstr (.next t) = .next
      (if t.cur.ctx.pc = t.cur.stepPc ∧ t.cur.ctx.iter = t.cur.stepIter then t
       else { t with cur := { t.cur with status := .stopped .plain, evts := [], stepping := none },
                     out := t.out ++ [.debug t.cur.hnum 0 t.cur.evts] })) ∧
  (∀ s : State, s.inbox = [] → s.passTime.issues = false → step s = .next s.passTime.schedule) ∧
  (∀ (s : State) (i : Instr) (l : List Instr), s.inbox = i :: l → step s = exec i { s.passTime with inbox := l })

/-- A word that is illegal takes the illegal-instruction trap, one of an absent unit the unit-absent trap, at its own PC with
the whole word in tval, before it changes anything (R86, R87). -/
def Obligations.IllegalWordTraps : Prop :=
  ∀ (s t : State) (w : Word), s.Turns → s.turn.fetched = some (w, t) →
    (decode true (decide (s.part = .tl460)) w = .illegal →
      step s = afterInstr (.next (t.takeTrap 16 w t.cur.ctx.pc 0))) ∧
    (decode true (decide (s.part = .tl460)) w = .unitAbsent →
      step s = afterInstr (.next (t.takeTrap 23 w t.cur.ctx.pc 0)))

/-- Decoding the word of a well-formed instruction gives it back, with its mark, at every value of every operand; a pair keeps
its marks in its slots (R62 to R85). -/
def Obligations.DecodeOfEncode : Prop :=
  ∀ (i : Instr) (mark : Bool) (w : Word), encode mark i = some w → i.wf = true →
    (w.extractLsb' 63 1 = 1 → decode true true w = .instr false i) ∧
    (w.extractLsb' 63 1 = 0 → (mark = true → i.markable = true) → decode true true w = .instr mark i)

/-- What reset leaves (R435, R471): no launch, partition, region or sealed region, no hart, an empty mailbox, tracing off and
empty specialisation caches, time zero. That memory which nothing has written reads zero is the model's choice (log 6). -/
def Obligations.ResetState : Prop :=
  State.reset.launches = [] ∧ State.reset.parts = [] ∧ State.reset.regions = [] ∧ State.reset.sealedRegs = [] ∧
  State.reset.cur.status = .absent ∧ State.reset.rest = [] ∧ State.reset.now = 0 ∧ State.reset.mail = [] ∧
  (∀ d, (State.reset.die d).trEn = false ∧ (State.reset.die d).spec = [] ∧ (State.reset.die d).estep = 0) ∧
  (∀ pa, State.reset.byte pa = 0)

/-- After reset memory stands in its canonical form. -/
def Obligations.MemoryFormAtReset : Prop := Memory.wf State.reset.mem = true

/-- Every step keeps the canonical form of memory: addresses strictly rise and no listed byte is zero. -/
def Obligations.MemoryFormKept : Prop :=
  ∀ s t : State, Memory.wf s.mem = true → step s = .next t → Memory.wf t.mem = true

/-- The integer instructions but for division (R150): each writes its result to gd and changes nothing else. Division never
traps: a zero divisor gives all ones and the remainder x; the signed quotient is truncated toward zero and −2^63 by −1 gives
−2^63 and 0 (R150, R151). adds and subs clamp to the signed range of 64 bits and raise OF and NX exactly when they clamp
(R150, R46). The immediate instructions (R152): each writes its result to gd and changes nothing else. -/
def Obligations.ScalarInteger : Prop :=
  (∀ (s : State) (d a b c : GReg) (n1 : BitVec 6), s.cur.status = .running →
     let x := s.cur.rd a
     let y := s.cur.rd b
     let sh := (y.extractLsb' 0 6).toNat
     Does (.add d a b) s d (x + y) ∧
     Does (.sub d a b) s d (x - y) ∧
     Does (.mul d a b) s d (x * y) ∧
     Does (.mulh d a b) s d ((x.signExtend 128 * y.signExtend 128).extractLsb' 64 64) ∧
     Does (.mulhn d a b) s d ((x.setWidth 128 * y.setWidth 128).extractLsb' 64 64) ∧
     Does (.and d a b) s d (x &&& y) ∧
     Does (.or d a b) s d (x ||| y) ∧
     Does (.xor d a b) s d (x ^^^ y) ∧
     Does (.sll d a b) s d (x <<< sh) ∧
     Does (.srl d a b) s d (x >>> sh) ∧
     Does (.sra d a b) s d (x.sshiftRight sh) ∧
     Does (.slt d a b) s d (if x.toInt < y.toInt then 1 else 0) ∧
     Does (.sltn d a b) s d (if x.toNat < y.toNat then 1 else 0) ∧
     Does (.min d a b) s d (if x.toInt ≤ y.toInt then x else y) ∧
     Does (.max d a b) s d (if y.toInt ≤ x.toInt then x else y) ∧
     Does (.minn d a b) s d (if x.toNat ≤ y.toNat then x else y) ∧
     Does (.maxn d a b) s d (if y.toNat ≤ x.toNat then x else y) ∧
     Does (.clz d a) s d x.clz ∧
     Does (.ctz d a) s d x.ctz ∧
     Does (.popc d a) s d x.cpop ∧
     Does (.sext d a n1) s d ((x.extractLsb' 0 (n1.toNat + 1)).signExtend 64) ∧
     Does (.zext d a n1) s d ((x.extractLsb' 0 (n1.toNat + 1)).setWidth 64) ∧
     Does (.cmov d a b c) s d (if s.cur.rd c ≠ 0 then x else y)) ∧
  (∀ (s : State) (d a b : GReg), s.cur.status = .running →
     let x := s.cur.rd a
     let y := s.cur.rd b
     Does (.div d a b) s d (if y = 0 then BitVec.allOnes 64 else x.sdiv y) ∧
     Does (.rem d a b) s d (if y = 0 then x else x.srem y) ∧
     Does (.divn d a b) s d (if y = 0 then BitVec.allOnes 64 else x / y) ∧
     Does (.remn d a b) s d (if y = 0 then x else x % y)) ∧
  (∀ (s : State) (d a b : GReg), s.cur.status = .running →
     let clamp : Int → Word := fun z =>
       if z < -(2 ^ 63) then 0x8000000000000000 else if 2 ^ 63 ≤ z then 0x7FFFFFFFFFFFFFFF else BitVec.ofInt 64 z
     let fl : Int → BitVec 5 := fun z => if z < -(2 ^ 63) ∨ 2 ^ 63 ≤ z then flagOF ||| flagNX else 0
     let z := (s.cur.rd a).toInt + (s.cur.rd b).toInt
     let u := (s.cur.rd a).toInt - (s.cur.rd b).toInt
     DoesFl (.adds d a b) s d (clamp z) (fl z) ∧ DoesFl (.subs d a b) s d (clamp u) (fl u)) ∧
  (∀ (s : State) (d a : GReg) (imm : BitVec 32) (sh : BitVec 6), s.cur.status = .running →
     let x := s.cur.rd a
     let k : Word := imm.signExtend 64
     Does (.addi d a imm) s d (x + k) ∧
     Does (.andi d a imm) s d (x &&& k) ∧
     Does (.ori d a imm) s d (x ||| k) ∧
     Does (.xori d a imm) s d (x ^^^ k) ∧
     Does (.slli d a sh) s d (x <<< sh.toNat) ∧
     Does (.srli d a sh) s d (x >>> sh.toNat) ∧
     Does (.srai d a sh) s d (x.sshiftRight sh.toNat) ∧
     Does (.slti d a imm) s d (if x.toInt < k.toInt then 1 else 0) ∧
     Does (.ldi d imm) s d k ∧
     Does (.ldih d imm) s d (imm ++ (s.cur.rd d).extractLsb' 0 32) ∧
     Does (.pcadd d imm) s d (s.cur.ctx.pc + k))

/-- Scalar float (R153, R38): operands are the low bits of their registers, a float result is rounded once under frm.rm and
zero-extended, a compare gives 0 or 1, and the flags raised go to fflags. -/
def Obligations.ScalarFloat : Prop :=
  ∀ (s : State) (d a b c : GReg) (f : SFmt), s.cur.status = .running →
    let ff := sfmtFF f
    let rm := RM.ofBits s.cur.ctx.rm
    let v : GReg → FVal := fun r => ff.decode ((s.cur.rd r).toNat % 2 ^ ff.width)
    let fdoes : Instr → FRes → Prop := fun i r => DoesFl i s d (BitVec.ofNat 64 r.code) r.fl
    fdoes (.fadd d a b f) (ff.add rm (v a) (v b)) ∧
    fdoes (.fsub d a b f) (ff.sub rm (v a) (v b)) ∧
    fdoes (.fmul d a b f) (ff.mul rm (v a) (v b)) ∧
    fdoes (.fdiv d a b f) (ff.div rm (v a) (v b)) ∧
    fdoes (.ffma d a b c f) (ff.fma rm (v a) (v b) (v c)) ∧
    fdoes (.fmin d a b f) (ff.minNum ((s.cur.rd a).toNat % 2 ^ ff.width) ((s.cur.rd b).toNat % 2 ^ ff.width)) ∧
    fdoes (.fmax d a b f) (ff.maxNum ((s.cur.rd a).toNat % 2 ^ ff.width) ((s.cur.rd b).toNat % 2 ^ ff.width)) ∧
    fdoes (.fsqrt d a f) (ff.sqrt rm (v a)) ∧
    DoesFl (.fcmpeq d a b f) s d (if !(v a).isNaN && !(v b).isNaN && (v a).cmp (v b) == .eq then 1 else 0)
      ((v a).sigFlag ||| (v b).sigFlag) ∧
    DoesFl (.fcmplt d a b f) s d (if !(v a).isNaN && !(v b).isNaN && (v a).cmp (v b) == .lt then 1 else 0)
      (if (v a).isNaN || (v b).isNaN then flagNV else 0) ∧
    DoesFl (.fcmple d a b f) s d (if !(v a).isNaN && !(v b).isNaN && (v a).cmp (v b) != .gt then 1 else 0)
      (if (v a).isNaN || (v b).isNaN then flagNV else 0) ∧
    Does (.fclass d a f) s d (BitVec.ofNat 64 (ff.classify ((s.cur.rd a).toNat % 2 ^ ff.width)))

/-- fcvt (R154, R47): with dir false the second kind is converted into the fmt format, with dir true the other way. An integer
source is the whole register for i64 and n64 and its low 32 bits for i32 and n32; an integer result saturates to the range of
its kind, an i32 result sign-extended and an n32 result zero-extended. -/
def Obligations.ScalarConvert : Prop :=
  ∀ (s : State) (d a : GReg) (f g : SFmt), s.cur.status = .running →
    let rm := RM.ofBits s.cur.ctx.rm
    let x := s.cur.rd a
    let low := x.extractLsb' 0 32
    let kind : SFmt → CvtKind := fun g => match g with | .f32 => .f32 | .f64 => .f64 | .bf16 => .bf16 | .f16 => .f16
    let v : SFmt → FVal := fun g => (sfmtFF g).decode (x.toNat % 2 ^ (sfmtFF g).width)
    let float : Bool → CvtKind → SFmt → FVal → Prop := fun dir k g y =>
      DoesFl (.fcvt d a f k dir) s d (BitVec.ofNat 64 ((sfmtFF g).ofVal rm y).code) ((sfmtFF g).ofVal rm y).fl
    let int : CvtKind → Int → Int → Prop := fun k lo hi =>
      DoesFl (.fcvt d a f k true) s d (BitVec.ofInt 64 (toIntRange lo hi rm (v f)).1) (toIntRange lo hi rm (v f)).2
    float false (kind g) f (v g) ∧ float true (kind g) g (v f) ∧
    float false .i64 f (intVal x.toInt) ∧ float false .n64 f (intVal x.toNat) ∧
    float false .i32 f (intVal low.toInt) ∧ float false .n32 f (intVal low.toNat) ∧
    int .i64 (-(2 ^ 63)) (2 ^ 63 - 1) ∧ int .n64 0 (2 ^ 64 - 1) ∧
    int .i32 (-(2 ^ 31)) (2 ^ 31 - 1) ∧ int .n32 0 (2 ^ 32 - 1)

/-- A value that a format holds is its own rounding under every mode, exact and without a flag (R38, R40, R47). -/
def Obligations.RoundingKeepsExact : Prop :=
  ∀ (f : FF) (rm : RM) (code m : Nat) (neg : Bool) (e : Int), code < 2 ^ f.width → f.decode code = .fin neg m e →
    f.round rm neg m e = { code := code, fl := 0 }

/-- A branch is taken exactly when its condition holds, to PC + 8 × offset, else to PC + 8; it writes no register and raises
no flag (R155, R158). In residual code the offset counts words there (R370). jal links PC + 8 and moves by its offset; jalr
reads its target before the link is written and continues in original code, and a target that is not a multiple of 8 takes the
illegal-instruction trap with the target in tval (R156); dbnz writes ga − 1 and branches where that is not zero, always with
g0 (R157). -/
def Obligations.BranchesAndJumps : Prop :=
  (∀ (s : State) (a b : GReg) (off : BitVec 32), s.cur.status = .running →
     let x := s.cur.rd a
     let y := s.cur.rd b
     Branches (.beq a b off) s off (decide (x = y)) ∧
     Branches (.bne a b off) s off (decide (x ≠ y)) ∧
     Branches (.blt a b off) s off (decide (x.toInt < y.toInt)) ∧
     Branches (.bge a b off) s off (decide (y.toInt ≤ x.toInt)) ∧
     Branches (.bltn a b off) s off (decide (x.toNat < y.toNat)) ∧
     Branches (.bgen a b off) s off (decide (y.toNat ≤ x.toNat)) ∧
     Branches (.bz a off) s off (decide (x = 0)) ∧
     Branches (.bnz a off) s off (decide (x ≠ 0))) ∧
  (∀ (s : State) (d a : GReg) (off imm : BitVec 32), s.cur.status = .running →
     let target := s.cur.rd a + imm.signExtend 64
     (∃ t, exec (.jal d off) s = .next t ∧ t.cur.rd d = (if d = 0 then 0 else s.cur.ctx.pc + 8) ∧ RegFrame s t d ∧
       Moves s t off) ∧
     (target.extractLsb' 0 3 = 0 →
       ∃ t, exec (.jalr d a imm) s = .next t ∧ t.cur.rd d = (if d = 0 then 0 else s.cur.ctx.pc + 8) ∧ RegFrame s t d ∧
         t.cur.ctx.pc = target ∧ t.cur.ctx.iter = 0 ∧ t.cur.ctx.resid = none) ∧
     (target.extractLsb' 0 3 ≠ 0 → exec (.jalr d a imm) s = .next (s.takeTrap 16 target s.cur.ctx.pc 0)) ∧
     (∃ t, exec (.dbnz a off) s = .next t ∧ t.cur.rd a = (if a = 0 then 0 else s.cur.rd a - 1) ∧ RegFrame s t a ∧
       Moves s t (if s.cur.rd a - 1 = 0 then 1 else off)))

/-- crd gives the value of the register's map; a number without a map, or a privileged one outside privileged mode, takes the
illegal-instruction trap (R147, R159). The maps of the control registers: the shape constants of both parts and of VS128
(R134), the hart registers (R133), the grant registers (R185), rounding and flags (R38, R40), troot in privileged mode only
(R400), and numbers without a map (R68). -/
def Obligations.ControlReads : Prop :=
  (∀ (s : State) (d : GReg) (cr : BitVec 12), s.Plain → s.Unlogged →
     (∀ x, s.creg cr = some x → Does (.crd d cr) s d x) ∧ (s.creg cr = none → TrapsIllegal (.crd d cr) s)) ∧
  (∀ s : State,
     (s.part = .tl460 → s.cur.ordered = false → s.creg 0x600 = some 0x0460 ∧ s.creg 0x602 = some 128 ∧ s.creg 0x609 = some 16) ∧
     (s.part = .tl430 → s.cur.ordered = false → s.creg 0x600 = some 0x0430 ∧ s.creg 0x602 = some 64 ∧ s.creg 0x609 = some 8) ∧
     (s.cur.ordered = true → s.creg 0x600 = some 0x0128 ∧ s.creg 0x602 = some 128 ∧ s.creg 0x609 = some 512) ∧
     s.creg 0x601 = some 1024 ∧ s.creg 0x603 = some 8 ∧ s.creg 0x604 = some 16 ∧ s.creg 0x605 = some 0x400000 ∧
     s.creg 0x606 = some 32768 ∧ s.creg 0x607 = some 0x10B000 ∧ s.creg 0x608 = some 0x180000 ∧
     s.creg 0x001 = some s.cur.wid ∧ s.creg 0x002 = some (BitVec.ofNat 64 (s.cur.lid % 2 ^ 48)) ∧
     s.creg 0x003 = some (BitVec.ofNat 64 (s.cur.lprio * 256 + s.cur.ctx.prio)) ∧
     s.creg 0x100 = some (BitVec.ofNat 64 s.cur.ctx.vl) ∧ s.creg 0x101 = some (s.cur.ctx.nr.setWidth 64) ∧
     s.creg 0x102 = some (0#52 ++ s.cur.ctx.nr ++ 0#2 ++ s.cur.ctx.blk ++ s.cur.ctx.fmt.code) ∧
     s.creg 0x103 = some (s.cur.ctx.rm.setWidth 64) ∧ s.creg 0x104 = some (s.cur.ctx.fflags.setWidth 64) ∧
     s.creg 0x201 = some s.cur.trap.topc ∧ s.creg 0x204 = some s.cur.trap.tval ∧ s.creg 0x207 = some s.cur.ctx.thb ∧
     s.creg 0x400 = some (s.cur.phn.setWidth 64) ∧ s.creg 0x401 = some s.cur.pts ∧
     s.creg 0x005 = none ∧ s.creg 0x107 = none ∧ s.creg 0x60A = none ∧ s.creg 0x6FE = none ∧ s.creg 0x900 = none ∧
     (s.cur.priv = false → s.creg 0xF00 = none))

/-- cwr sets a register to the source bits, cset to old OR source and cclr to old AND NOT source, all or nothing (R147): the
flags, the fabric package number, the handler base, the row count and the rounding mode, and the shadow registers of a copy
channel. A value that frm or nr may not hold, and a register without a writable field, take the illegal-instruction trap and
change nothing (R38, R185, R159). -/
def Obligations.ControlWrite : Prop :=
  ∀ (s : State) (d a : GReg), s.Plain →
    CregWrites s d a 0x104 (s.cur.ctx.fflags.setWidth 64)
      (fun y h => h.onCtx fun c => { c with fflags := y.extractLsb' 0 5 }) ∧
    CregWrites s d a 0x405 (s.cur.ctx.fpk.setWidth 64)
      (fun y h => h.onCtx fun c => { c with fpk := y.extractLsb' 0 14 }) ∧
    CregWrites s d a 0x208 (s.cur.ctx.thmask.setWidth 64)
      (fun y h => h.onCtx fun c => { c with thmask := y.extractLsb' 0 3 }) ∧
    (s.cur.ctx.thb &&& 0x00FFFFFFFFFFFFF8 = s.cur.ctx.thb →
      CregWrites s d a 0x207 s.cur.ctx.thb
        (fun y h => h.onCtx fun c => { c with thb := y &&& 0x00FFFFFFFFFFFFF8 })) ∧
    (∀ n : BitVec 2, n.toNat < s.cur.chans.length →
      CregWrites s d a (BitVec.ofNat 12 (0x300 + 16 * n.toNat)) (s.cur.chan n.toNat).src
        (fun y h => h.onChan n.toNat fun c => { c with src := y }) ∧
      CregWrites s d a (BitVec.ofNat 12 (0x301 + 16 * n.toNat)) (s.cur.chan n.toNat).dst
        (fun y h => h.onChan n.toNat fun c => { c with dst := y }) ∧
      CregWrites s d a (BitVec.ofNat 12 (0x302 + 16 * n.toNat)) (s.cur.chan n.toNat).len
        (fun y h => h.onChan n.toNat fun c => { c with len := y })) ∧
    (((s.cur.rd a).extractLsb' 0 3).toNat < 4 →
      exec (.cwr a 0x103) s = .next { s with cur :=
        (s.cur.onCtx fun c => { c with rm := (s.cur.rd a).extractLsb' 0 3 }).retire }) ∧
    (4 ≤ ((s.cur.rd a).extractLsb' 0 3).toNat → TrapsIllegal (.cwr a 0x103) s) ∧
    (1 ≤ ((s.cur.rd a).extractLsb' 0 4).toNat ∧ ((s.cur.rd a).extractLsb' 0 4).toNat ≤ 8 →
      exec (.cwr a 0x101) s = .next { s with cur :=
        (s.cur.onCtx fun c => { c with nr := (s.cur.rd a).extractLsb' 0 4 }).retire }) ∧
    (((s.cur.rd a).extractLsb' 0 4).toNat = 0 ∨ 8 < ((s.cur.rd a).extractLsb' 0 4).toNat → TrapsIllegal (.cwr a 0x101) s) ∧
    (∀ cr : BitVec 12, cr.toNat < 0x100 ∨ (0x600 ≤ cr.toNat ∧ cr.toNat < 0x700) ∨ cr = 0x100 →
      TrapsIllegal (.cwr a cr) s ∧ TrapsIllegal (.cset d a cr) s ∧ TrapsIllegal (.cclr d a cr) s)

/-- A grant is the smallest of the offer, the request, 1,024 and the lane groups available, in whole blocks where vtype has a
block length, but never less than one element, one block or the tail that was asked for (R179). What a change of the grant from
o to n elements does to the strip state (R181): positions below both keep their slots, mask bits and whole blocks' scales, every
other position is void; nothing where the grant stays; anchored registers stay. -/
def Obligations.GrantRequests : Prop :=
  ((∀ off avail req : Nat, ∀ L : Nat, (L = 0 ∨ L = 16 ∨ L = 32) →
     let m := min (min off req) (min 1024 (64 * avail))
     let g := grantOf off avail L req
     (L = 0 → 1 ≤ req → g = max m 1) ∧ (L = 0 → req = 0 → g = 0) ∧
     (L ≠ 0 → L ≤ req → L ∣ g ∧ L ≤ g ∧ (L ≤ m → g ≤ m ∧ m < g + L) ∧ (m < L → g = L)) ∧
     (L ≠ 0 → req < L → g = req) ∧
     g ≤ req ∧ g ≤ 1024 ∧ (max L 1 ≤ off → g ≤ off) ∧ (1 ≤ avail → (g + 63) / 64 ≤ avail)) ∧
   grantOf 8 16 0 20 = 8 ∧ grantOf 1024 16 0 5000 = 1024 ∧ grantOf 300 16 0 0 = 0 ∧ grantOf 37 16 16 40 = 32 ∧
   grantOf 10 16 16 40 = 16 ∧ grantOf 5 16 16 12 = 12 ∧ grantOf 70 16 32 100 = 64 ∧ grantOf 64 16 0 500 = 64) ∧
  (∀ (s : State) (d a : GReg), s.Plain → s.Unlogged →
     let off : Word := BitVec.ofNat 64 (if s.cur.strict then 64 else s.cur.offer)
     let L := blockLen s.cur.ctx.blk
     let o := s.cur.ctx.vl
     let n := grantOf off.toNat (s.avail s.cur) L (s.cur.rd a).toNat
     ∃ t, exec (.vgr d a) s = .next t ∧
       t.cur.rd d = (if d = 0 then 0 else BitVec.ofNat 64 n) ∧ (∀ r, r ≠ d → t.cur.rd r = s.cur.rd r) ∧
       t.cur.ctx.vl = n ∧ t.cur.req = (s.cur.rd a).toNat ∧ t.cur.hstep = 0 ∧ t.cur.overSince = none ∧ Retired s t ∧
       (∀ reg r j, r < 8 → j < 1024 →
         t.cur.slotV reg r j = (if o = n ∨ j < min o n then s.cur.slotV reg r j else 0) ∧
         t.cur.bitM reg r j = (if o = n ∨ j < min o n then s.cur.bitM reg r j else 0) ∧
         t.cur.scaleV reg r j = (if o = n ∨ (j + 1) * L ≤ min o n then s.cur.scaleV reg r j else 0)) ∧
       t.cur.ctx.a = s.cur.ctx.a ∧ t.cur.ctx.fflags = s.cur.ctx.fflags ∧ t.cur.tiles = s.cur.tiles ∧
       (∀ k, k < 32 → t.cur.progOf k = { act := false, cnt := BitVec.ofNat 14 (s.cur.ctx.nr.toNat * n) }) ∧
       (∀ c, c ≠ s.cur.core → t.core c = s.core c) ∧ SameButTrace s { t with cores := s.cores } ∧
       (s.Untraced → SamePackage s { t with cores := s.cores }))

/-- vgq gives the grant that vgr would and changes only the request (R188); vrel gives the old grant, frees every lane group
and voids all strip state (R189). vrows writes the old row count to gd and sets nr (R190); vtype writes the old vtype and sets
format, block length and rows, and a change of the block length voids every scale companion (R191, R182). -/
def Obligations.GrantReleaseAndShape : Prop :=
  (∀ (s : State) (d a : GReg), s.Plain →
     (s.Unlogged →
       let off : Word := BitVec.ofNat 64 (if s.cur.strict then 64 else s.cur.offer)
       exec (.vgq d a) s = .next { s with cur := ({ s.cur with req := (s.cur.rd a).toNat }.wr d (BitVec.ofNat 64
         (grantOf off.toNat (s.avail s.cur) (blockLen s.cur.ctx.blk) (s.cur.rd a).toNat))).retire }) ∧
     (∃ t, exec (.vrel d) s = .next t ∧ t.cur.rd d = (if d = 0 then 0 else BitVec.ofNat 64 s.cur.ctx.vl) ∧
       (∀ r, r ≠ d → t.cur.rd r = s.cur.rd r) ∧ t.cur.ctx.vl = 0 ∧ Retired s t ∧ heldBy (t.core s.cur.core).lat s.cur.slot = 0 ∧
       (∀ reg r j, r < 8 → j < 1024 → t.cur.slotV reg r j = 0 ∧ t.cur.bitM reg r j = 0 ∧ t.cur.scaleV reg r j = 0) ∧
       t.cur.ctx.a = s.cur.ctx.a ∧ t.cur.ctx.fflags = s.cur.ctx.fflags ∧ (∀ c, c ≠ s.cur.core → t.core c = s.core c) ∧
       SameButTrace s { t with cores := s.cores } ∧ (s.Untraced → SamePackage s { t with cores := s.cores }))) ∧
  (∀ (s : State) (d : GReg) (f : Fmt) (blk : BitVec 2) (n : BitVec 4), s.Plain →
     exec (.vrows d n) s = .next { s with cur :=
       ((s.cur.onCtx fun c => { c with nr := n }).wr d (s.cur.ctx.nr.setWidth 64)).retire } ∧
     exec (.vtype d f blk n) s = .next { s with cur :=
       ((s.cur.onCtx fun c => { c with nr := n, blk := blk, fmt := f, sc := if blk = c.blk then c.sc else [] }).wr d
         (0#52 ++ s.cur.ctx.nr ++ 0#2 ++ s.cur.ctx.blk ++ s.cur.ctx.fmt.code)).retire })

/-- arg, wfld, dyn and rdtime (R135, R136, R164, R162): the argument word or 0, a field of the work id or the whole, a copy,
and the package time. prio clamps to [max(lp − 4, 0), lp] and gives the old priority (R137); yield takes the last place of the
core's round robin, and the hart does not issue until each other ready hart of its priority there has issued, or 64 cycles,
43 ns, have passed (R138); tmark is no wait and changes no register, has no effect in a sealed launch, and is dropped and
counted while tracing is off (R163; that a mark counts as dropped then is the model's reading, log 33). -/
def Obligations.SystemReadsAndHints : Prop :=
  (∀ (s : State) (d a : GReg) (i : BitVec 6) (k : BitVec 3), s.cur.status = .running →
     Does (.arg d i) s d (if i.toNat < s.cur.nargs then s.cur.args.getD i.toNat 0 else 0) ∧
     Does (.wfld d 6) s d s.cur.wid ∧
     (k.toNat < 6 → Does (.wfld d k) s d ((s.cur.wid >>> (s.cur.widths.take k.toNat).sum) &&&
       BitVec.ofNat 64 (2 ^ s.cur.widths.getD k.toNat 0 - 1))) ∧
     Does (.dyn d a) s d (s.cur.rd a) ∧
     (s.Unlogged → Does (.rdtime d) s d (BitVec.ofNat 64 s.now))) ∧
  (∀ (s : State) (d a : GReg) (n : BitVec 24), s.cur.status = .running →
     (let x := (s.cur.rd a).toInt
      let lp : Int := s.cur.lprio
      let p := if x < max (lp - 4) 0 then max (lp - 4) 0 else if lp < x then lp else x
      exec (.prio d a) s = .next { s with cur :=
       ((s.cur.onCtx fun c => { c with prio := p.toNat }).wr d (BitVec.ofNat 64 s.cur.ctx.prio)).retire }) ∧
     (let others := (s.rest.filter fun h => h.status == .running && h.wait.isNone && h.capWait.isNone &&
        h.core == s.cur.core && h.ctx.prio == s.cur.ctx.prio).map Hart.hid
      exec .yield s = .next { s.onCore s.cur.core (fun c =>
        { c with order := c.order.filter (· != s.cur.slot) ++ [s.cur.slot] }) with
          cur := ({ s.cur with owes := others, owesTill := s.now + 43 } : Hart).retire }) ∧
     (∃ t, exec (.tmark a n) s = .next t ∧ t.cur = s.cur.retire ∧ SameButTrace s t ∧ (s.cur.sealed.isSome → SamePackage s t) ∧
       ((s.die (s.cur.core / 32)).trEn = false → s.cur.sealed = none →
         t = { s.onDie (s.cur.core / 32) (fun x => { x with trDrop := min (x.trDrop + 1) 0xFFFFFFFF }) with
           cur := s.cur.retire }))) ∧
  (∀ (s : State) (h : Hart), s.yields h = true ↔
     s.now < h.owesTill ∧ ∃ k ∈ h.owes, ∃ x ∈ s.harts, x.hid = k ∧ x.ready = true ∧ x.core = h.core ∧ x.ctx.prio = h.ctx.prio)

/-- sfq gives the count of store-fault records, word k of the oldest, or 0; sfq.pop frees that record too, and a held record
takes its place (R403, R245). sinv (R382): mode 0 invalidates the partition's entries that read a word of the page of ga, mode
1 all of its entries, on every die, and gives how many; mode 2 gives the report of the launch's entry on the hart's die. -/
def Obligations.FaultQueueAndInvalidation : Prop :=
  (∀ (s : State) (d : GReg) (k : BitVec 3), s.cur.status = .running → k.toNat ≤ 3 →
     let word : StoreFault → Word := fun r =>
       if k = 0 then r.addr else if k = 1 then r.opc else if k = 2 then r.iter else r.w3
     Does (.sfq d 4) s d (BitVec.ofNat 64 s.cur.sfq.length) ∧
     (s.cur.sfq = [] → Does (.sfq d k) s d 0 ∧ Does (.sfqPop d k) s d 0) ∧
     (∀ r l, s.cur.sfq = r :: l →
       Does (.sfq d k) s d (word r) ∧
       (s.cur.sfHeld = [] → exec (.sfqPop d k) s = .next { s with cur := ({ s.cur with sfq := l }.wr d (word r)).retire }) ∧
       (∀ h q, s.cur.sfHeld = h :: q → exec (.sfqPop d k) s = .next { s with cur :=
         ({ s.cur with sfq := l ++ [h], sfHeld := q }.wr d (word r)).retire }))) ∧
  (∀ (s : State) (d a : GReg), s.cur.status = .running →
     let mine : SpecEntry → Bool := fun e => e.part == s.cur.part && !e.hidden
     let page : SpecEntry → Bool := fun e => mine e && e.read.any fun x => x.1 == (s.cur.rd a).toNat / 4096
     let count : (SpecEntry → Bool) → Word := fun p =>
       BitVec.ofNat 64 ((s.dies.map fun (x : Nat × Die) => (x.2.spec.filter p).length).sum)
     let hide : (SpecEntry → Bool) → AMap Die := fun p =>
       s.dies.map fun (x : Nat × Die) =>
         (x.1, { x.2 with spec := x.2.spec.map fun e => if p e then { e with hidden := true } else e })
     exec (.sinvPage d a) s = .next { s with dies := hide page, cur := (s.cur.wr d (count page)).retire } ∧
     exec (.sinvAll d) s = .next { s with dies := hide mine, cur := (s.cur.wr d (count mine)).retire } ∧
     Does (.sinvReport d) s d (s.reportOf s.cur.lid (s.cur.core / 32)))

/-- A terminating trap with a handler to enter (R389, R388): the task report names the boundary, the cause and its
instruction; the version and what goes with it are discarded, the snapshot is taken again, and the hart continues at thb in
original code with hdl = 1; registers, tiles and phase number stay, and no byte of memory changes but those of the error log's
next record. Without a handler to enter (none set, one running, or a frame error) a terminating trap ends the launch (R389,
R390, R393): every hart of it is stopped and its completion status is 2. -/
def Obligations.TerminatingTraps : Prop :=
  (∀ (s : State) (code tlag : Nat) (tval tfpc : Word),
     s.cur.sq = [] → s.cur.behind = [] → s.cur.ctx.thb ≠ 0 → s.cur.trap.hdl = false → code ≠ 30 → code < 256 →
     let t := s.takeTrap code tval tfpc tlag
     t.cur.trap = { hdl := true, term := true, code := BitVec.ofNat 8 code, topc := s.cur.ctx.pc, tspc := s.cur.tspcNow,
                    titer := s.cur.ctx.iter, tval := tval, tphn := s.cur.phn, tfpc := tfpc, tlag := BitVec.ofNat 32 tlag,
                    tpts := s.cur.pts } ∧
     t.cur.ctx = { s.cur.ctx with pc := s.cur.ctx.thb, iter := 0, resid := none } ∧
     t.cur.ver = [] ∧ t.cur.defer = [] ∧ t.cur.intents = [] ∧ t.cur.defs = [] ∧ t.cur.vq = [] ∧ t.cur.wait = none ∧
     t.cur.cmn = s.commits ∧ t.cur.phn = s.cur.phn ∧ t.cur.frame = s.cur.frame ∧ t.cur.tiles = s.cur.tiles ∧
     t.cur.sfq = s.cur.sfq ∧ t.cur.status = s.cur.status ∧ t.rest.map Hart.ctx = s.rest.map Hart.ctx ∧
     t.commits = s.commits ∧
     (s.Untraced → ∀ pa, s.recordBytes s.cur.part pa = false → t.byte pa = s.byte pa)) ∧
  (∀ (s : State) (code tlag : Nat) (tval tfpc : Word),
     s.cur.status ≠ .absent → (s.cur.ctx.thb = 0 ∨ s.cur.trap.hdl = true ∨ code = 30) →
     let t := s.takeTrap code tval tfpc tlag
     (∀ h ∈ t.harts, h.lid = s.cur.lid → h.status = .exited ∨ h.status = .absent) ∧
     (∀ l, AMap.find? t.launches s.cur.lid = some l → l.status = 2) ∧
     (s.Untraced → ∀ pa, s.recordBytes s.cur.part pa = false → t.byte pa = s.byte pa))

/-- The cause of trap is 22 with tval n (R394), that of brk without a debugger 24 (R161), that of a service number that no
handler and no service accepts 28 (R395), each at the instruction's own PC with no skid, whatever is queued (R160). brk stops
the hart for an attached debugger at its own PC, with its number reported and nothing else changed, in step-drain mode once
nothing is queued (R161, R404). -/
def Obligations.SoftwareTraps : Prop :=
  (∀ (s : State) (n : BitVec 24), s.cur.status = .running →
     exec (.trap n) s = .next (s.takeTrap 22 (n.setWidth 64) s.cur.ctx.pc 0) ∧
     (s.debugged = false → exec (.brk n) s = .next (s.takeTrap 24 (n.setWidth 64) s.cur.ctx.pc 0)) ∧
     (n.toNat < 0x800000 → s.cur.handlerOpen = false →
       exec (.sys n) s = .next (s.takeTrap 28 (n.setWidth 64) s.cur.ctx.pc 0)) ∧
     (0x800003 < n.toNat → exec (.sys n) s = .next (s.takeTrap 28 (n.setWidth 64) s.cur.ctx.pc 0))) ∧
  (∀ (s : State) (n : BitVec 24), s.cur.status = .running → s.debugged = true → (s.stepIssue = true ∨ s.cur.vq = []) →
     exec (.brk n) s = .next { s with
       cur := { s.cur with status := .stopped .brk, evts := [], stepping := none },
       out := s.out ++ [.debug (8 * s.cur.core + s.cur.slot) n.toNat s.cur.evts] })

/-- sys below 0x80_0000 enters the launch's handler, without waiting for vector and matrix instructions (R160, R392): the frame
holds every register as it stood, with the PC of the next instruction; the queued instructions and the retired stores stay with
the hart and keep running; the report has term 0 and cause 8 with the number in tval; phase and version go on, and no other
hart and no memory but the frame's area changes.
Where the handler frame cannot be written the frame error, cause 30 with the frame's address, is taken (R398). The firmware
services (R395): 0x80_0000 gives the release in g1 and changes nothing else; 0x80_0001 and 0x80_0002 end the group and the
launch with the hart's version discarded, so memory keeps every byte, and completion status 2. -/
def Obligations.ServiceCalls : Prop :=
  (∀ (s : State) (n : BitVec 24), s.cur.status = .running → n.toNat < 0x800000 → s.cur.ctx.thb ≠ 0 →
     s.cur.trap.hdl = false →
     (s.framePa s.cur true = none →
       exec (.sys n) s = .next (s.takeTrap 30 (s.cur.tfb + 0x10B000) s.cur.ctx.pc 0)) ∧
     ((s.framePa s.cur true).isSome = true → ∃ t f, exec (.sys n) s = .next t ∧ t.cur.hframe = some f ∧
       f.ctx = s.cur.retire.ctx ∧ f.vq = [] ∧ f.sq = [] ∧ f.prog = s.cur.prog ∧ f.spx = s.cur.spx ∧
       f.trap = s.cur.trap ∧ f.shadow = s.cur.chans.map (fun c => (c.src, c.dst, c.len, c.flg)) ∧
       t.cur.vq = s.cur.vq.map (fun (o : VOp) => { o with call := true }) ∧ t.cur.sq = s.cur.sq ∧
       t.cur.ctx = { s.cur.ctx with pc := s.cur.ctx.thb, iter := 0, resid := none } ∧
       t.cur.trap = { hdl := true, term := false, code := 8, topc := s.cur.ctx.pc, tspc := s.cur.tspcNow,
                      titer := s.cur.ctx.iter, tval := n.setWidth 64, tphn := s.cur.phn, tfpc := s.cur.ctx.pc, tlag := 0,
                      tpts := s.cur.pts } ∧
       t.cur.ver = s.cur.ver ∧ t.cur.phn = s.cur.phn ∧ t.cur.cmn = s.cur.cmn ∧ t.cur.frame = s.cur.frame ∧
       AMap.find? t.frames (2 * s.cur.hid + 1) = s.framePa s.cur true ∧ HomeFrame s { t with free := s.free } ∧
       ∀ a, s.inFrame s.cur true a = false → t.byte a = s.byte a)) ∧
  (∀ s : State, s.cur.status = .running →
     Does (.sys 0x800000) s 1 (Config.firmwareRelease.setWidth 64) ∧
     (∃ t, exec (.sys 0x800001) s = .next t ∧
       (∀ h ∈ t.harts, h.lid = s.cur.lid → h.grp = s.cur.grp → h.status = .exited ∨ h.status = .absent) ∧
       (∀ l, AMap.find? t.launches s.cur.lid = some l → l.status = 2) ∧ (∀ pa, t.byte pa = s.byte pa)) ∧
     (∃ t, exec (.sys 0x800002) s = .next t ∧
       (∀ h ∈ t.harts, h.lid = s.cur.lid → h.status = .exited ∨ h.status = .absent) ∧
       (∀ l, AMap.find? t.launches s.cur.lid = some l → l.status = 2) ∧ (∀ pa, t.byte pa = s.byte pa)))

/-- tret is illegal outside the handler, mode 2 after a resumable cause and mode 3 after a terminating one (R393). tret mode 3
reloads the handler frame (R392, R393): every register is as at the fault, but for g1 after a service call, which stays as the
handler left it; queue, stores, progress, trap and shadow registers are back, and phase and version go on; it waits where the
grant of the frame cannot be had (R184). A handler frame that fails its check takes the frame error, cause 30 (R398). tret modes
0, 1 and 2 of a handler that wrote nothing (R393, R258): the group or the launch ends with status 2; or the failed phase starts
again from its frame, at its PC, with its registers back and every strip position void. -/
def Obligations.TrapReturns : Prop :=
  (∀ s : State, s.cur.status = .running →
     (s.cur.trap.hdl = false → TrapsIllegal .tretGroup s ∧ TrapsIllegal .tretLaunch s ∧ TrapsIllegal .tretRestart s ∧
       TrapsIllegal .tretResume s) ∧
     (s.cur.trap.hdl = true → s.cur.trap.term = false → TrapsIllegal .tretRestart s) ∧
     (s.cur.trap.hdl = true → s.cur.trap.term = true → TrapsIllegal .tretResume s)) ∧
  (∀ (s : State) (f : HFrame), s.Plain → s.cur.trap.hdl = true → s.cur.trap.term = false → s.cur.hframe = some f →
     (s.frameFits s.cur true = false →
       exec .tretResume s = .next (s.takeTrap 30 (s.cur.tfb + 0x10B000) s.cur.ctx.pc 0)) ∧
     (s.frameFits s.cur true = true → f.ctx.vl ≠ s.cur.ctx.vl → s.avail s.cur < (f.ctx.vl + 63) / 64 →
       exec .tretResume s = .next s) ∧
     (s.frameFits s.cur true = true → (f.ctx.vl = s.cur.ctx.vl ∨ (f.ctx.vl + 63) / 64 ≤ s.avail s.cur) →
       ∃ t, exec .tretResume s = .next t ∧ t.cur.trap = f.trap ∧ t.cur.hframe = none ∧ t.cur.vq = f.vq ∧ t.cur.sq = f.sq ∧
         t.cur.prog = f.prog ∧ t.cur.spx = f.spx ∧ t.cur.sfq = s.cur.sfq ∧
         (∀ (n : Nat) (c : Channel) (x : Word × Word × Word × Word), s.cur.chans[n]? = some c → f.shadow[n]? = some x →
           t.cur.chans[n]? = some { c with src := x.1, dst := x.2.1, len := x.2.2.1, flg := x.2.2.2 }) ∧
         t.cur.rd 1 = (if s.cur.trap.code = 8 then s.cur.rd 1 else Sparse.get f.ctx.g 1) ∧
         (∀ r, r ≠ 0 → r ≠ 1 → t.cur.rd r = Sparse.get f.ctx.g r.toNat) ∧ { t.cur.ctx with g := f.ctx.g } = f.ctx ∧
         t.cur.ver = s.cur.ver ∧ t.cur.phn = s.cur.phn ∧ t.cur.frame = s.cur.frame ∧
         SamePackage s { t with frames := s.frames, cores := s.cores } ∧ (f.ctx.vl = s.cur.ctx.vl → t.cores = s.cores))) ∧
  (∀ s : State, s.Committing → s.cur.ver = [] → s.hist = [] → s.cur.ordered = false → s.cur.trap.hdl = true →
     (∃ t, exec .tretGroup s = .next t ∧ t.commits = s.commits + 1 ∧
       (∀ h ∈ t.harts, h.lid = s.cur.lid → h.grp = s.cur.grp → h.status = .exited ∨ h.status = .absent) ∧
       (∀ l, AMap.find? t.launches s.cur.lid = some l → l.status = 2)) ∧
     (∃ t, exec .tretLaunch s = .next t ∧ t.commits = s.commits + 1 ∧
       (∀ h ∈ t.harts, h.lid = s.cur.lid → h.status = .exited ∨ h.status = .absent) ∧
       (∀ l, AMap.find? t.launches s.cur.lid = some l → l.status = 2)) ∧
     (s.cur.trap.term = true →
       ∃ t, exec .tretRestart s = .next t ∧ t.cur.trap.hdl = false ∧ t.cur.ctx.pc = s.cur.frame.pc ∧
         t.cur.ctx.iter = s.cur.frame.iter ∧ t.cur.ctx.resid = s.cur.frame.resid ∧ t.cur.ctx.g = s.cur.frame.g ∧
         t.cur.ctx.a = s.cur.frame.a ∧ t.cur.ctx.rm = s.cur.frame.rm ∧ t.cur.ctx.fflags = s.cur.frame.fflags ∧
         t.cur.ctx.nr = s.cur.frame.nr ∧ t.cur.ctx.fmt = s.cur.frame.fmt ∧ t.cur.ctx.blk = s.cur.frame.blk ∧
         t.cur.ctx.prio = s.cur.frame.prio ∧ t.cur.ctx.fpk = s.cur.frame.fpk ∧ t.cur.pts = s.cur.frame.pts ∧
         t.cur.ctx.v = [] ∧ t.cur.ctx.m = [] ∧ t.cur.ctx.sc = [] ∧ t.cur.ctx.vl = s.cur.ctx.vl ∧
         t.cur.tiles = s.cur.tiles ∧ t.cur.ver = [] ∧ t.cur.cmn = t.commits))

/-- ph and service 0x80_0003 (R261, R395): the version is performed as the package's next commit, a new phase begins with a
new snapshot, the frame records the next instruction and gd as it was, and gd receives the commit number. In an ordered
launch, where the task must be the oldest, the task's timestamp moves on, to pts + 1 or to ga, and strips and tiles are void.
The ordered-mode trap, cause 25 with the word (R261, R141, R390): a timestamp in a free launch, or one that does not rise, at
exit too; a phase end in the handler after a terminating trap; and bar, bar.ph, lnch and qput in an ordered launch. -/
def Obligations.PhaseCommits : Prop :=
  (∀ (s : State) (d a : GReg), s.Committing →
     (s.cur.ordered = false → ((s.commitTask 0).beginAfter).Roomy →
       (∃ t, exec (.ph d) s = .next t ∧ Committed s t ∧ Retired s t ∧
         t.cur.rd d = (if d = 0 then 0 else BitVec.ofNat 64 (s.commits + 1)) ∧ (∀ r, r ≠ d → t.cur.rd r = s.cur.rd r) ∧
         t.cur.bare.ctx = s.cur.bare.ctx ∧
         (s.cur.trap.hdl = false → t.cur.frame.g = s.cur.ctx.g ∧ t.cur.frame.pc = s.cur.retire.ctx.pc)) ∧
       (∃ t, exec (.sys 0x800003) s = .next t ∧ Committed s t ∧ t.cur.rd 1 = BitVec.ofNat 64 (s.commits + 1) ∧
         ∀ r, r ≠ 1 → t.cur.rd r = s.cur.rd r)) ∧
     (s.cur.ordered = true → s.oldest = true → s.cur.trap.hdl = false →
       (s.cur.pts ≠ BitVec.allOnes 64 → s.rest = [] →
         ∃ t, exec (.ph d) s = .next t ∧ t.commits = s.commits + 1 ∧ t.cur.pts = s.cur.pts + 1 ∧ t.cur.ver = [] ∧
           t.cur.rd d = (if d = 0 then 0 else BitVec.ofNat 64 (s.commits + 1)) ∧ t.cur.ctx.v = [] ∧ t.cur.ctx.m = [] ∧
           t.cur.tiles.all (·.void) = true ∧ VersionWritten s t) ∧
       (s.cur.pts.toNat < (s.cur.rd a).toNat → s.rest = [] →
         ∃ t, exec (.phTimestamp d a) s = .next t ∧ t.commits = s.commits + 1 ∧ t.cur.pts = s.cur.rd a ∧
           t.cur.rd d = (if d = 0 then 0 else BitVec.ofNat 64 (s.commits + 1)) ∧ t.cur.ctx.v = [] ∧
           t.cur.tiles.all (·.void) = true ∧ VersionWritten s t))) ∧
  (∀ (s : State) (d a : GReg) (n : BitVec 2) (q : BitVec 6), s.Plain → s.cur.half = none →
     let traps : Instr → Prop := fun i => exec i s = .next (s.takeTrap 25 (s.cur.wordOf i) s.cur.ctx.pc 0)
     (s.cur.ordered = false → traps (.phTimestamp d a)) ∧
     (s.cur.ordered = true → (s.cur.rd a).toNat ≤ s.cur.pts.toNat → traps (.phTimestamp d a)) ∧
     (s.cur.ordered = true → s.cur.pts = BitVec.allOnes 64 → traps (.ph d)) ∧
     (s.cur.ordered = true → s.cur.trap.hdl = true → s.cur.trap.term = true → traps (.ph d) ∧ traps (.phTimestamp d a)) ∧
     (s.cur.ordered = true → s.oldest = true → s.cur.copiesDone = true → s.cur.defer = [] →
       (s.cur.pts = BitVec.allOnes 64 ∨ (s.cur.trap.hdl = true ∧ s.cur.trap.term = true)) → traps .exit) ∧
     (s.cur.ordered = true → traps (.bar n) ∧ traps (.barPh d n) ∧ traps (.lnch d a q) ∧ traps (.qput d a q)))

/-- ph.a takes a snapshot and writes its number to gd, and the version, the phase and the frame stay (R262); fx waits for the
path it comes from and takes a snapshot toward path H (R263); fence and sdrain have nothing to wait for here (R264, R243).
None writes memory. -/
def Obligations.SnapshotsAndFences : Prop :=
  ∀ (s : State) (d : GReg) (dst frm : Path), s.Plain → s.Unlogged →
    exec (.phA d) s = .next { s.snapshot with cur :=
      ({ s.cur with cmn := s.commits, snapSeq := s.seq }.wr d (BitVec.ofNat 64 s.commits)).retire } ∧
    (fxLegal frm dst = true → (frm = .c → s.cur.copiesDone = true) →
      exec (.fx dst frm) s = .next (if dst = .h then { s.snapshot with cur :=
        ({ s.cur with cmn := s.commits, snapSeq := s.seq }).retire } else { s with cur := s.cur.retire })) ∧
    (frm = .c → s.cur.copiesDone = false → exec (.fx dst frm) s = .next s) ∧
    exec .fence s = .next { s with cur := s.cur.retire } ∧ exec .sdrain s = .next { s with cur := s.cur.retire } ∧
    s.snapshot.mem = s.mem ∧ s.snapshot.rest = s.rest ∧ s.snapshot.commits = s.commits

/-- exit of a hart of a free launch (R139, R189, R122): its version is performed as the next commit, its lane groups are freed
and it stands retired or its whole group is gone. -/
def Obligations.HartExits : Prop :=
  ∀ s : State, s.Committing → s.cur.ordered = false → s.cur.copiesDone = true → s.rest = [] →
    ∃ t, exec .exit s = .next t ∧ t.commits = s.commits + 1 ∧ VersionWritten s t ∧
      heldBy (t.core s.cur.core).lat s.cur.slot = 0 ∧ (∀ h ∈ t.harts, h.hid = s.cur.hid → h.status = .exited)

/-- A scalar load gives the bytes at its address from the hart's version, else its snapshot, little-endian, sign- or
zero-extended (R67, R228, R232, R253); in the stage window the bytes of the group's rings (R313). A scalar load is precise
(R233, R222, R238): a byte that the page refuses takes the permission trap at the load's own PC with the byte's address, an
uncorrectable line cause 21 with the line's, and a page that is not present swaps the hart out at the load. -/
def Obligations.ScalarLoads : Prop :=
  (∀ (s : State) (d base ix : GReg) (scale : BitVec 2) (pol : Policy) (off : BitVec 18), s.Plain → s.cur.behind = [] →
     let ea := s.cur.rd base + (s.cur.rd ix <<< scale.toNat) + off.signExtend 64
     let loads : Instr → Nat → (Word → Word) → Prop := fun i n ext =>
       (∀ ps, stageOff ea = none → resolveRange s s.cur .load ea n = .ok ps → badLine s s.cur ps = none →
         (∀ p ∈ ps, p.cls ≠ 1) → LoadDoes i s d (ext (leWord (ps.map fun p => s.cur.byte s s.lookNow p.pa)))) ∧
       (∀ o, stageOff ea = some o → ownsStage s s.cur o n = true →
         LoadDoes i s d (ext (leWord ((s.core s.cur.core).stageBytes o n))))
     loads (.ldB d base ix scale pol off) 1 (fun x => (x.extractLsb' 0 8).signExtend 64) ∧
     loads (.ldH d base ix scale pol off) 2 (fun x => (x.extractLsb' 0 16).signExtend 64) ∧
     loads (.ldW d base ix scale pol off) 4 (fun x => (x.extractLsb' 0 32).signExtend 64) ∧
     loads (.ldD d base ix scale pol off) 8 (fun x => x) ∧
     loads (.ldBn d base ix scale pol off) 1 (fun x => (x.extractLsb' 0 8).setWidth 64) ∧
     loads (.ldHn d base ix scale pol off) 2 (fun x => (x.extractLsb' 0 16).setWidth 64) ∧
     loads (.ldWn d base ix scale pol off) 4 (fun x => (x.extractLsb' 0 32).setWidth 64) ∧
     Does (.pf base ix scale pol off) s 0 0) ∧
  (∀ (s : State) (d base ix : GReg) (scale : BitVec 2) (pol : Policy) (off : BitVec 18), s.Plain →
     let ea := s.cur.rd base + (s.cur.rd ix <<< scale.toNat) + off.signExtend 64
     stageOff ea = none →
     (∀ a, resolveRange s s.cur .load ea 8 = .error (a, .perm) →
       exec (.ldD d base ix scale pol off) s = .next (s.takeTrap 17 a s.cur.ctx.pc 0)) ∧
     (∀ ps l, resolveRange s s.cur .load ea 8 = .ok ps → badLine s s.cur ps = some l →
       exec (.ldD d base ix scale pol off) s = .next (s.takeTrap 21 (BitVec.ofNat 64 l) s.cur.ctx.pc 0)) ∧
     (∀ a, resolveRange s s.cur .load ea 8 = .error (a, .notPresent) → s.frameOk s.cur = true →
       ∃ t, exec (.ldD d base ix scale pol off) s = .next t ∧ t.cur.status = .swapped
         { ea := a, lo := a, size := 1, err := false, store := false, slices := false, opc := s.cur.ctx.pc,
           iter := s.cur.ctx.iter, elem := 0, at_ := s.cur.retired } ∧
         t.cur.ctx = s.cur.ctx ∧ t.cur.retired = s.cur.retired ∧ heldBy (t.core s.cur.core).lat s.cur.slot = 0 ∧
         (s.Untraced → ∀ pa, s.inFrame s.cur false pa = false → t.byte pa = s.byte pa)))

/-- A scalar store retires when it is issued, with the low bytes of its register, lowest first, to be performed later (R232,
R233); one to a ring of the hart's group in the stage window is performed before it retires (R313). A load returns what the
latest earlier store of the hart wrote (R228): st.d followed by ld.d of the same address gives the register stored, while
committed memory keeps every byte. -/
def Obligations.ScalarStores : Prop :=
  (∀ (s : State) (r base ix : GReg) (scale : BitVec 2) (pol : Policy) (off : BitVec 18),
     s.cur.status = .running → s.cur.sfq.length < 16 → s.cur.sfHeld = [] →
     let ea := s.cur.rd base + (s.cur.rd ix <<< scale.toNat) + off.signExtend 64
     let bytes : Nat → List Byte := fun n => (List.range n).map fun k => (s.cur.rd r).extractLsb' (8 * k) 8
     let stores : Instr → Nat → Prop := fun i n =>
       (stageOff ea = none → StoreRetires i s ea (bytes n)) ∧
       (∀ o, s.Plain → stageOff ea = some o → ownsStage s s.cur o n = true →
         exec i s = .next { s.onCore s.cur.core (fun c => c.putStage o (bytes n)) with cur := s.cur.retire })
     stores (.stB r base ix scale pol off) 1 ∧ stores (.stH r base ix scale pol off) 2 ∧
     stores (.stW r base ix scale pol off) 4 ∧ stores (.stD r base ix scale pol off) 8) ∧
  (∀ (s u : State) (r d base ix : GReg) (scale : BitVec 2) (pol : Policy) (off : BitVec 18) (ps : List Phys),
     s.Plain → s.cur.behind = [] → s.cur.hasMore = false → s.cur.sfq.length < 16 → s.cur.sfHeld = [] →
     s.cur.ordered = false →
     let ea := s.cur.rd base + (s.cur.rd ix <<< scale.toNat) + off.signExtend 64
     stageOff ea = none → resolveRange s s.cur .store ea 8 = .ok ps → resolveRange s s.cur .load ea 8 = .ok ps →
     (∀ p ∈ ps, p.cls = 0) → (ps.map Phys.pa).Nodup → overflows s s.cur ps = false →
     exec (.stD r base ix scale pol off) s = .next u →
     ∃ t, exec (.ldD d base ix scale pol off) u = .next t ∧ t.cur.rd d = (if d = 0 then 0 else s.cur.rd r) ∧
       t.cur.sq = [] ∧ ∀ pa, t.byte pa = s.byte pa)

/-- A slot of a pair word beside nop acts as its full instruction (R75). Both slots of a pair read their sources as they stood
before the pair, and it retires as one instruction (R76): where each slot's full instruction completes alone, the pair of them
completes, and each register, slot of a strip and flag, and the store queue, has what the one of them that writes it gives it;
nothing else changes. The same said of two scalar slots, with the values; and where a load in the pair faults nothing is written
and the pair's own PC is reported (R78). -/
def Obligations.PairWords : Prop :=
  (∀ (s : State) (b0 b1 : Bool) (x : PSlot) (i : Instr), s.Plain → fullOf x = some i →
     exec (.pairWord b0 x b1 .nop) s = exec i s ∧ exec (.pairWord b0 .nop b1 x) s = exec i s) ∧
  (∀ (s u w : State) (b0 b1 : Bool) (x y : PSlot) (i j : Instr), s.Plain → s.Shaped → s.cur.behind = [] →
     pairLegal b0 x b1 y = true → fullOf x = some i → fullOf y = some j →
     exec i s = .next u → exec j s = .next w → Retired s u → Retired s w →
     ∃ t, exec (.pairWord b0 x b1 y) s = .next t ∧ Retired s t ∧
       (∀ r, t.cur.rd r = if u.cur.rd r = s.cur.rd r then w.cur.rd r else u.cur.rd r) ∧
       (∀ reg r p, r < 8 → p < 1024 → t.cur.slotV reg r p =
         if u.cur.slotV reg r p = s.cur.slotV reg r p then w.cur.slotV reg r p else u.cur.slotV reg r p) ∧
       t.cur.ctx.fflags = u.cur.ctx.fflags ||| w.cur.ctx.fflags ∧ t.cur.sq = u.cur.sq ++ w.cur.sq ∧
       t.cores = (if u.cores = s.cores then w.cores else u.cores) ∧ NearPackage s { t with cores := s.cores } ∧
       MasksKept s t ∧ OthersButG s t ∧ t.cur.ver = s.cur.ver ∧ ∀ a, t.byte a = s.byte a) ∧
  (∀ (s : State) (b0 b1 : Bool) (x y : PSlot) (r0 r1 : GReg × Word), s.Plain →
     pairLegal b0 x b1 y = true → s.cur.slotResult x = some r0 → s.cur.slotResult y = some r1 →
     exec (.pairWord b0 x b1 y) s = .next { s with cur := ((s.cur.wr r0.1 r0.2).wr r1.1 r1.2).retire } ∧
     ∃ t, exec (.pairWord b0 x b1 y) s = .next t ∧ Retired s t ∧ t.cur.rd r0.1 = (if r0.1 = 0 then 0 else r0.2) ∧
       t.cur.rd r1.1 = (if r1.1 = 0 then 0 else r1.2) ∧ (∀ r, r ≠ r0.1 → r ≠ r1.1 → t.cur.rd r = s.cur.rd r) ∧
       t.cur.bare = s.cur.bare ∧ SamePackage s t ∧ ∀ a, t.byte a = s.byte a) ∧
  (∀ (s : State) (b0 b1 : Bool) (d r : GReg) (imm : BitVec 12) (y : PSlot), s.Plain →
     pairLegal b0 (.ld d r imm) b1 y = true →
     let ea := s.cur.rd r + (imm.signExtend 64 <<< 3)
     stageOff ea = none →
     (∀ a, resolveRange s s.cur .load ea 8 = .error (a, .perm) →
       exec (.pairWord b0 (.ld d r imm) b1 y) s = .next (s.takeTrap 17 a s.cur.ctx.pc 0) ∧
       exec (.pairWord b1 y b0 (.ld d r imm)) s = .next (s.takeTrap 17 a s.cur.ctx.pc 0)) ∧
     (∀ ps l, resolveRange s s.cur .load ea 8 = .ok ps → badLine s s.cur ps = some l →
       exec (.pairWord b0 (.ld d r imm) b1 y) s = .next (s.takeTrap 21 (BitVec.ofNat 64 l) s.cur.ctx.pc 0) ∧
       exec (.pairWord b1 y b0 (.ld d r imm)) s = .next (s.takeTrap 21 (BitVec.ofNat 64 l) s.cur.ctx.pc 0)))

/-- Atomics in the package's memory (R266, R267): one step at the home on the committed value, in the bytes of the size, whose
old value goes to gd sign-extended, for minn, maxn and fadd zero-extended. On a page of the device class amo.ld and amo.st make
one access, whose answer is open, and the others take the permission trap; every form takes it at a misaligned address, at a
gossip page, and wherever the page refuses an atomic, and performs nothing (R222, R265). A non-fetching amo.fadd of an ordered
task is deferred to its commit in program order, and performs nothing now (R274). -/
def Obligations.Atomics : Prop :=
  (∀ (s : State) (d base ix : GReg) (sz : ASize) (sc : Scope) (off : BitVec 18) (p : Phys), s.Plain → s.Unlogged →
     s.cur.toPeer sc = false → s.noneAsked →
     let ea := s.cur.rd base + off.signExtend 64
     let n := match sz with | .w => 4 | .d => 8
     let old := leWord (s.bytes p.pa n)
     let x := s.cur.rd ix
     let e := s.cur.rd d
     let int : Word → Int := fun y => (y.extractLsb' 0 (8 * n)).toInt
     let nat : Word → Nat := fun y => (y.extractLsb' 0 (8 * n)).toNat
     let sext : Word → Word := fun y => (y.extractLsb' 0 (8 * n)).signExtend 64
     let zext : Word → Word := fun y => (y.extractLsb' 0 (8 * n)).setWidth 64
     (p.cls ≠ 1 →
       (resolveAmo s .atomic true false ea n = .ok p →
         AmoDoes (.amoAdd d base ix sz sc off) s d n p.pa (some (old + x)) (sext old) ∧
         AmoDoes (.amoAnd d base ix sz sc off) s d n p.pa (some (old &&& x)) (sext old) ∧
         AmoDoes (.amoOr d base ix sz sc off) s d n p.pa (some (old ||| x)) (sext old) ∧
         AmoDoes (.amoXor d base ix sz sc off) s d n p.pa (some (old ^^^ x)) (sext old) ∧
         AmoDoes (.amoMin d base ix sz sc off) s d n p.pa (some (if int x < int old then x else old)) (sext old) ∧
         AmoDoes (.amoMax d base ix sz sc off) s d n p.pa (some (if int old < int x then x else old)) (sext old) ∧
         AmoDoes (.amoMinn d base ix sz sc off) s d n p.pa (some (if nat x < nat old then x else old)) (zext old) ∧
         AmoDoes (.amoMaxn d base ix sz sc off) s d n p.pa (some (if nat old < nat x then x else old)) (zext old) ∧
         AmoDoes (.amoSwap d base ix sz sc off) s d n p.pa (some x) (sext old) ∧
         AmoDoes (.amoCas d base ix sz sc off) s d n p.pa (if nat old = nat e then some x else none) (sext old)) ∧
       (resolveAmo s .atomic true false ea 4 = .ok p → (d ≠ 0 ∨ s.cur.ordered = false) →
         let old := leWord (s.bytes p.pa 4)
         AmoDoes (.amoFadd d base ix sc off) s d 4 p.pa
           (some (BitVec.ofNat 64 (FF.f32.add .rne (FF.f32.decode old.toNat) (FF.f32.decode (x.extractLsb' 0 32).toNat)).code))
           old) ∧
       (resolveAmo s .atomic true true ea n = .ok p → AmoDoes (.amoLd d base sz sc off) s d n p.pa none (sext old)) ∧
       (resolveAmo s .atomic false true ea n = .ok p → AmoDoes (.amoSt base ix sz sc off) s 0 n p.pa (some x) 0)) ∧
     (p.cls = 1 → ea.toNat % n = 0 → resolveFor s s.cur .atomic ea = .ok p →
       (∃ t, exec (.amoLd d base sz sc off) s = .next t ∧ Retired s t ∧ (∀ r, r ≠ d → t.cur.rd r = s.cur.rd r) ∧
         t.cur.bare = s.cur.bare ∧ NearPackage s t ∧ ∀ a, t.byte a = s.byte a) ∧
       exec (.amoSt base ix sz sc off) s = .next { s with
         cur := s.cur.retire, out := s.out ++ [.device p.pa ((List.range n).map fun k => x.extractLsb' (8 * k) 8)] }) ∧
     (let traps : Instr → Prop := fun i => exec i s = .next (s.takeTrap 17 ea s.cur.ctx.pc 0)
      let both : Prop := traps (.amoLd d base sz sc off) ∧ traps (.amoSt base ix sz sc off)
      let all : Prop := traps (.amoAdd d base ix sz sc off) ∧ traps (.amoAnd d base ix sz sc off) ∧
        traps (.amoOr d base ix sz sc off) ∧ traps (.amoXor d base ix sz sc off) ∧ traps (.amoMin d base ix sz sc off) ∧
        traps (.amoMax d base ix sz sc off) ∧ traps (.amoMinn d base ix sz sc off) ∧ traps (.amoMaxn d base ix sz sc off) ∧
        traps (.amoSwap d base ix sz sc off) ∧ traps (.amoCas d base ix sz sc off)
      (ea.toNat % n ≠ 0 → all ∧ both) ∧ (ea.toNat % 4 ≠ 0 → traps (.amoFadd d base ix sc off)) ∧
      (resolveFor s s.cur .atomic ea = .error .perm → all ∧ both ∧ traps (.amoFadd d base ix sc off)) ∧
      (∀ y, leafBy s (s.cur.tlb .atomic ea) s.cur.part ea.toNat = .ok y → pteCls y.1 = 2 →
        all ∧ both ∧ traps (.amoFadd d base ix sc off)) ∧
      (∀ q, resolveFor s s.cur .atomic ea = .ok q → q.cls = 1 → all ∧ traps (.amoFadd d base ix sc off)))) ∧
  (∀ (s : State) (base ix : GReg) (sc : Scope) (off : BitVec 18) (p : Phys), s.Plain → s.cur.toPeer sc = false → s.noneAsked →
     s.cur.ordered = true → p.cls ≠ 1 → resolveAmo s .atomic true false (s.cur.rd base + off.signExtend 64) 4 = .ok p →
     exec (.amoFadd 0 base ix sc off) s = .next { s with cur := ({ s.cur with
       defer := placeDeferred (s.cur.retired + 1)
         (.fadd (s.cur.rd base + off.signExtend 64).toNat p.pa ((s.cur.rd ix).extractLsb' 0 32)) s.cur.defer } : Hart).retire }) ∧
  (∀ (k : Nat) (x : Deferred) (l : List (Nat × Deferred)), (l.map Prod.fst).Pairwise (· ≤ ·) →
     ((placeDeferred k x l).map Prod.fst).Pairwise (· ≤ ·) ∧ (placeDeferred k x l).Perm ((k, x) :: l))

/-- wait completes with the word's old value, sign-extended, where the condition holds of the committed value; else the hart
waits at the instruction, and completes with a value that satisfied the condition since it began, which an ordered task read
when so many commits had been performed (R269, R273). It writes nothing to memory. -/
def Obligations.WaitOnMemory : Prop :=
  ∀ (s : State) (d base ix : GReg) (sz : ASize) (sc : Scope) (off : BitVec 14) (cond : WCond) (p : Phys),
    s.cur.status = .running → s.cur.vq = [] → s.Unlogged → s.cur.toPeer sc = false → s.noneAsked →
    let ea := s.cur.rd base + off.signExtend 64
    let n := match sz with | .w => 4 | .d => 8
    let old := leWord (s.bytes p.pa n)
    let x := s.cur.rd ix
    let sext : Word → Word := fun y => (y.extractLsb' 0 (8 * n)).signExtend 64
    let int : Word → Int := fun y => (y.extractLsb' 0 (8 * n)).toInt
    let nat : Word → Nat := fun y => (y.extractLsb' 0 (8 * n)).toNat
    let holds : Bool := match cond with
      | .eq => decide (nat old = nat x)
      | .ne => decide (nat old ≠ nat x)
      | .lt => decide (int old < int x)
      | .ge => decide (int x ≤ int old)
      | .ltn => decide (nat old < nat x)
      | .gen => decide (nat x ≤ nat old)
      | .any => decide ((old &&& x).extractLsb' 0 (8 * n) ≠ 0)
      | .none => decide ((old &&& x).extractLsb' 0 (8 * n) = 0)
    (s.cur.wait = none → resolveAmo s .wait true false ea n = .ok p →
      (holds = true → LoadDoes (.wait d base ix sz sc off cond) s d (sext old)) ∧
      (holds = false → ∃ t, exec (.wait d base ix sz sc off cond) s = .next t ∧
        t.cur.wait = some (.word { pa := p.pa, size := n, cond := cond, x := x } none) ∧ t.cur.ctx = s.cur.ctx ∧
        t.cur.retired = s.cur.retired ∧ ∀ a, t.byte a = s.byte a)) ∧
    (∀ w got k, s.cur.wait = some (.word w (some (got, k))) →
      LoadDoes (.wait d base ix sz sc off cond) s d (sext got) ∧
      (s.cur.ordered = true → ∃ t, exec (.wait d base ix sz sc off cond) s = .next t ∧
        (∀ l, AMap.find? t.cur.reads l = if l = w.pa / 64 then some (match AMap.find? s.cur.reads l with
          | some j => min j k
          | none => k) else AMap.find? s.cur.reads l)))

/-- The float arithmetic of major 0x30 (R204, R199, R40, R42): each active position takes the result, rounded once under
frm.rm, and its flags; an inactive one keeps its slot and clears its exception bit. -/
def Obligations.VectorFloat : Prop :=
  ∀ (s : State) (f : Fmt) (ff : FF) (d a b c : VReg) (x e : Option MReg), s.Plain → s.Shaped → fmtFloat f = some ff →
    let rm := RM.ofBits s.cur.ctx.rm
    let code : VReg → Nat → Nat → Nat := fun g r j => (s.cur.slotV g.toNat r j).toNat
    let v : VReg → Nat → Nat → FVal := fun g r j => ff.decode (code g r j)
    let does : Instr → (Nat → Nat → FRes) → Prop := fun i res =>
      StripDoes i s d x e (fun r j => codeSlot f (res r j).code) (fun r j => (res r j).fl)
    let sign : (Nat → Nat) → Nat → Nat → FRes := fun g r j =>
      match v a r j with
      | .nan sg => { code := ff.nan, fl := if sg then flagNV else 0 }
      | _ => { code := g (code a r j % 2 ^ ff.width), fl := 0 }
    let half := 2 ^ (ff.width - 1)
    does (.vaddFloat f d a b x e) (fun r j => ff.add rm (v a r j) (v b r j)) ∧
    does (.vsubFloat f d a b x e) (fun r j => ff.sub rm (v a r j) (v b r j)) ∧
    does (.vmulFloat f d a b x e) (fun r j => ff.mul rm (v a r j) (v b r j)) ∧
    does (.vdiv f d a b x e) (fun r j => ff.div rm (v a r j) (v b r j)) ∧
    does (.vfma f d a b c x e) (fun r j => ff.fma rm (v a r j) (v b r j) (v c r j)) ∧
    does (.vfms f d a b c x e) (fun r j => ff.fma rm (v a r j) (v b r j) (v c r j).negate) ∧
    does (.vsqrt f d a x e) (fun r j => ff.sqrt rm (v a r j)) ∧
    does (.vrcp f d a x e) (fun r j => ff.div rm (.fin false 1 0) (v a r j)) ∧
    does (.vrsqrt f d a x e) (fun r j => ff.rsqrt rm (v a r j)) ∧
    does (.vexp2 f d a x e) (fun r j => ff.exp2 rm (v a r j)) ∧
    does (.vlog2 f d a x e) (fun r j => ff.log2 rm (v a r j)) ∧
    does (.vminFloat f d a b x e) (fun r j => ff.minNum (code a r j) (code b r j)) ∧
    does (.vmaxFloat f d a b x e) (fun r j => ff.maxNum (code a r j) (code b r j)) ∧
    does (.vabsFloat f d a x e) (sign fun y => y % half) ∧
    does (.vneg f d a x e) (sign fun y => if y < half then y + half else y - half)

/-- The integer arithmetic of major 0x31 (R205): results are reduced to w bits, vadds and vsubs clamp to the format's range
with OF and NX, shift amounts are y mod w. -/
def Obligations.VectorInteger : Prop :=
  ∀ (s : State) (f : Fmt) (d a b : VReg) (x e : Option MReg), s.Plain → s.Shaped → f.isVInt = true →
    let w := fmtWidth f
    let u : VReg → Nat → Nat → Nat := fun g r j => (s.cur.slotV g.toNat r j).toNat % 2 ^ w
    let v : VReg → Nat → Nat → Int := fun g r j =>
      if fmtSigned f = true ∧ 2 ^ w ≤ 2 * u g r j then (u g r j : Int) - (2 ^ w : Nat) else u g r j
    let sh : Nat → Nat → Nat := fun r j => u b r j % w
    let lo : Int := if fmtSigned f then -(2 ^ (w - 1) : Nat) else 0
    let hi : Int := if fmtSigned f then (2 ^ (w - 1) : Nat) - 1 else (2 ^ w : Nat) - 1
    let does : Instr → (Nat → Nat → Int) → Prop := fun i res =>
      StripDoes i s d x e (fun r j => intSlot f (res r j)) (fun _ _ => 0)
    let clamps : Instr → (Nat → Nat → Int) → Prop := fun i res =>
      StripDoes i s d x e (fun r j => intSlot f (max lo (min hi (res r j))))
        (fun r j => if res r j < lo ∨ hi < res r j then flagOF ||| flagNX else 0)
    does (.vaddInt f d a b x e) (fun r j => v a r j + v b r j) ∧
    does (.vsubInt f d a b x e) (fun r j => v a r j - v b r j) ∧
    does (.vmulInt f d a b x e) (fun r j => v a r j * v b r j) ∧
    does (.vmulh f d a b x e) (fun r j => v a r j * v b r j / (2 ^ w : Nat)) ∧
    clamps (.vadds f d a b x e) (fun r j => v a r j + v b r j) ∧
    clamps (.vsubs f d a b x e) (fun r j => v a r j - v b r j) ∧
    does (.vand f d a b x e) (fun r j => (u a r j &&& u b r j : Nat)) ∧
    does (.vor f d a b x e) (fun r j => (u a r j ||| u b r j : Nat)) ∧
    does (.vxor f d a b x e) (fun r j => (u a r j ^^^ u b r j : Nat)) ∧
    does (.vsll f d a b x e) (fun r j => v a r j * (2 ^ sh r j : Nat)) ∧
    does (.vsrl f d a b x e) (fun r j => (u a r j / 2 ^ sh r j : Nat)) ∧
    does (.vsra f d a b x e) (fun r j =>
      (if 2 ^ w ≤ 2 * u a r j then (u a r j : Int) - (2 ^ w : Nat) else u a r j) / (2 ^ sh r j : Nat)) ∧
    does (.vminInt f d a b x e) (fun r j => if v a r j ≤ v b r j then v a r j else v b r j) ∧
    does (.vmaxInt f d a b x e) (fun r j => if v a r j ≤ v b r j then v b r j else v a r j) ∧
    does (.vabsInt f d a x e) (fun r j => (v a r j).natAbs)

/-- The compares of both majors (R204, R205, R43): one mask bit for each active position; a float compare of a NaN is false,
unordered true, and raises NV for any NaN where it orders, else for a signalling one. -/
def Obligations.VectorCompares : Prop :=
  ∀ (s : State) (f : Fmt) (d : MReg) (a b : VReg) (x e : Option MReg), s.Plain → s.Shaped →
    let code : VReg → Nat → Nat → Nat := fun g r j => (s.cur.slotV g.toNat r j).toNat
    (∀ ff, fmtFloat f = some ff →
      let va : Nat → Nat → FVal := fun r j => ff.decode (code a r j)
      let vb : Nat → Nat → FVal := fun r j => ff.decode (code b r j)
      let ordered : Nat → Nat → Bool := fun r j => !(va r j).isNaN && !(vb r j).isNaN
      let sig : Nat → Nat → BitVec 5 := fun r j => (va r j).sigFlag ||| (vb r j).sigFlag
      let any : Nat → Nat → BitVec 5 := fun r j => if ordered r j then 0 else flagNV
      MaskDoes (.vcmpeqFloat f d a b x e) s d x e
        (fun r j => BitVec.ofBool (ordered r j && (va r j).cmp (vb r j) == .eq)) sig ∧
      MaskDoes (.vcmpltFloat f d a b x e) s d x e
        (fun r j => BitVec.ofBool (ordered r j && (va r j).cmp (vb r j) == .lt)) any ∧
      MaskDoes (.vcmple f d a b x e) s d x e
        (fun r j => BitVec.ofBool (ordered r j && (va r j).cmp (vb r j) != .gt)) any ∧
      MaskDoes (.vcmpun f d a b x e) s d x e (fun r j => BitVec.ofBool (!ordered r j)) sig) ∧
    (f.isVInt = true →
      let w := fmtWidth f
      let u : VReg → Nat → Nat → Nat := fun g r j => code g r j % 2 ^ w
      let v : VReg → Nat → Nat → Int := fun g r j =>
        if fmtSigned f = true ∧ 2 ^ w ≤ 2 * u g r j then (u g r j : Int) - (2 ^ w : Nat) else u g r j
      MaskDoes (.vcmpeqInt f d a b x e) s d x e (fun r j => BitVec.ofBool (decide (v a r j = v b r j))) (fun _ _ => 0) ∧
      MaskDoes (.vcmpltInt f d a b x e) s d x e (fun r j => BitVec.ofBool (decide (v a r j < v b r j))) (fun _ _ => 0) ∧
      MaskDoes (.vcmpltn f d a b x e) s d x e (fun r j => BitVec.ofBool (decide (u a r j < u b r j))) (fun _ _ => 0))

/-- vcvt converts each active element; with a block length, vq gives each block its scale from all its elements and stores the
active ones under it, vdq applies a scale, vscl and vscw move scales; without one these four take the illegal-instruction trap
(R206, R207, R47, R51, R52, R50). -/
def Obligations.VectorConverts : Prop :=
  ∀ (s : State) (f src : Fmt) (d a : VReg) (x e : Option MReg), s.Plain → s.Shaped →
    let rm := RM.ofBits s.cur.ctx.rm
    let L := blockLen s.cur.ctx.blk
    let vl := s.cur.ctx.vl
    let k := s.cur.ctx.fmt
    let slot : Nat → Nat → Slot := fun r j => s.cur.slotV a.toNat r j
    let scale : Nat → Nat → Nat := fun r b =>
      blockScale k ((List.range (min L (vl - b * L))).map fun n => slot r (b * L + n))
    let quant : Nat → Nat → ERes := fun r j => vqElem k rm (scale r (j / L)) (slot r j)
    StripDoes (.vcvt f d a src x e) s d x e (fun r j => (convert f src rm (slot r j).toNat).slot)
      (fun r j => (convert f src rm (slot r j).toNat).fl) ∧
    (s.cur.ctx.blk = 1 ∨ s.cur.ctx.blk = 2 →
      (∃ t, exec (.vq d a x e) s = .next t ∧ VecFrame s t ∧ StripWrites s t d (s.cur.active e) (fun r j => (quant r j).slot) ∧
        ExcWrites s t x e (fun r j => (quant r j).fl) ∧ FlagWrites s t e (fun r j => (quant r j).fl) ∧
        ScaleWrites s t d L (fun r b => BitVec.ofNat 8 (scale r b)) ∧ t.cur.ctx.a = s.cur.ctx.a ∧
        ∀ r, t.cur.rd r = s.cur.rd r) ∧
      (∀ ff, fmtFloat f = some ff →
        StripDoes (.vdq f d a x e) s d x e
          (fun r j => (vdqElem k ff rm (s.cur.scaleV a.toNat r (j / L)).toNat (slot r j)).slot)
          (fun r j => (vdqElem k ff rm (s.cur.scaleV a.toNat r (j / L)).toNat (slot r j)).fl)) ∧
      StripMoves (.vscl d a) s d (fun _ _ => true)
        (fun r j => if j * L < vl then (s.cur.scaleV a.toNat r j).setWidth 32 else 0) ∧
      (∃ t, exec (.vscw d a) s = .next t ∧ VecFrame s t ∧ StripsKept s t ∧ MasksKept s t ∧
        ScaleWrites s t d L (fun r b => (slot r b).setWidth 8) ∧ t.cur.ctx.a = s.cur.ctx.a ∧
        t.cur.ctx.fflags = s.cur.ctx.fflags ∧ ∀ r, t.cur.rd r = s.cur.rd r)) ∧
    (s.cur.ctx.blk = 0 →
      TrapsIllegal (.vq d a x e) s ∧ TrapsIllegal (.vdq f d a x e) s ∧ TrapsIllegal (.vscl d a) s ∧
      TrapsIllegal (.vscw d a) s)

/-- The moves, broadcasts and permutes (R208, R209): what each active position takes, of registers as they stood before; none
raises a flag. -/
def Obligations.VectorMoves : Prop :=
  ∀ (s : State) (f : Fmt) (d a b : VReg) (an : AReg) (c : MReg) (ga gb gd : GReg) (k : BitVec 3) (e : Option MReg),
    s.Plain → s.Shaped →
    let vl := s.cur.ctx.vl
    let n := (s.cur.rd gb).toNat
    let w := fmtWidth f
    let v : Nat → Nat → Slot := fun r j => s.cur.slotV a.toNat r j
    let moves : Instr → (Nat → Nat → Slot) → Prop := fun i val => StripMoves i s d (s.cur.active e) val
    moves (.vmv d a e) v ∧
    moves (.vbc f d gb e) (fun _ _ => codeSlot f n) ∧
    moves (.vid f d gb e) (fun _ j => intSlot f ((n + j : Nat) : Int)) ∧
    moves (.vsel d a b c e) (fun r j => if s.cur.bitM c.toNat r j = 1 then v r j else s.cur.slotV b.toNat r j) ∧
    (d ≠ a → moves (.vslu d a gb e) (fun r j => if n ≤ j then v r (j - n) else 0)) ∧
    (d ≠ a → moves (.vsld d a gb e) (fun r j => if j + n < vl then v r (j + n) else 0)) ∧
    (d ≠ a → d ≠ b → moves (.vperm d a b e) (fun r j =>
      let i := (s.cur.slotV b.toNat r j).toNat
      if i < vl then v r i else 0)) ∧
    (d ≠ a → moves (.vrow d a k e) (fun _ j => v k.toNat j)) ∧
    moves (.vmva d an gb e) (fun r j => s.cur.slotA an.toNat r ((n + j) % 64)) ∧
    StripMoves (.vins f d ga gb) s d (fun r j => r * vl + j == n) (fun _ _ => codeSlot f (s.cur.rd ga).toNat) ∧
    AnchDoes (.vamv an a gb e) s an n a e (fun _ u => u) (fun _ _ => 0) ∧
    StripGives (.vxs f gd a gb) s gd
      (if n < s.cur.ctx.nr.toNat * vl then
        let u := (v (n / vl) (n % vl)).toNat % 2 ^ w
        if fmtSigned f = true ∧ 2 ^ w ≤ 2 * u then BitVec.ofInt 64 ((u : Int) - (2 ^ w : Nat)) else BitVec.ofNat 64 u
       else 0) 0

/-- Reductions and anchored accumulation (R210, R211, R56, R57, R39): addends are taken in rising sweep order, the first as it
stands, each later one combined with one rounding to nearest even; with no active position a float reduction gives the
canonical NaN and an integer one 0; an anchored slot takes the elements that hit it in rising order. That a reduction of one
addend gives it unchanged is the model's reading (log 24). -/
def Obligations.VectorReductions : Prop :=
  ∀ (s : State) (f : Fmt) (gd gb : GReg) (a : RSrc) (va : VReg) (d : AReg) (e : Option MReg), s.Plain → s.Shaped →
    let vl := s.cur.ctx.vl
    let nr := s.cur.ctx.nr.toNat
    let w := fmtWidth f
    let len := match a with | .strip _ => nr * vl | .anch _ => nr * 64
    let addend : Nat → Option Nat := fun p =>
      match a with
      | .strip v =>
        if s.cur.active e (p / vl) (p % vl) then some ((s.cur.slotV v.toNat (p / vl) (p % vl)).toNat % 2 ^ w) else none
      | .anch an =>
        if e = none ∨ (p % 64 < vl ∧ s.cur.active e (p / 64) (p % 64) = true) then
          some ((s.cur.slotA an.toNat (p / 64) (p % 64)).toNat % 2 ^ w)
        else none
    (∀ ff, fmtFloat f = some ff →
      let gives : Instr → (Nat → Nat → FRes) → Prop := fun i g =>
        let r := foldActive (fun (x y : Word) => (BitVec.ofNat 64 (g x.toNat y.toNat).code, (g x.toNat y.toNat).fl))
          (fun p => (addend p).map (BitVec.ofNat 64)) len
        StripGives i s gd (r.1.getD (BitVec.ofNat 64 ff.nan)) r.2
      gives (.vredAdd f gd a e) (fun x y => ff.add .rne (ff.decode x) (ff.decode y)) ∧
      gives (.vredMax f gd a e) ff.maxNum ∧ gives (.vredMin f gd a e) ff.minNum) ∧
    (f.isVInt = true →
      let val : Nat → Int := fun u => if fmtSigned f = true ∧ 2 ^ w ≤ 2 * u then (u : Int) - (2 ^ w : Nat) else u
      let gives : Instr → (Int → Int → Int) → Prop := fun i g =>
        StripGives i s gd
          (BitVec.ofInt 64 ((foldActive (fun x y => (g x y, 0)) (fun p => (addend p).map val) len).1.getD 0)) 0
      gives (.vredAdd f gd a e) (· + ·) ∧ gives (.vredMax f gd a e) max ∧ gives (.vredMin f gd a e) min) ∧
    (let n := (s.cur.rd gb).toNat
     let add : Slot → Slot → FRes := fun x u => FF.f32.add .rne (FF.f32.decode x.toNat) (FF.f32.decode u.toNat)
     let mx : Slot → Slot → FRes := fun x u => FF.f32.maxNum x.toNat u.toNat
     AnchDoes (.vcadd .f32 d va gb e) s d n va e (fun x u => BitVec.ofNat 32 (add x u).code) (fun x u => (add x u).fl) ∧
     AnchDoes (.vcadd .i32 d va gb e) s d n va e (fun x u => x + u) (fun _ _ => 0) ∧
     AnchDoes (.vcmax .f32 d va gb e) s d n va e (fun x u => BitVec.ofNat 32 (mx x u).code) (fun x u => (mx x u).fl) ∧
     AnchDoes (.vcmax .i32 d va gb e) s d n va e (fun x u => if x.toInt < u.toInt then u else x) (fun _ _ => 0))

/-- vsparse keeps of each group of 32 the n elements that rank highest, in place or packed low, and the mask of those kept;
vexpand puts packed elements back where the mask is 1 (R53, R212, R213). The mask instructions (R214): each active position
takes its bit; mpop counts and mfirst finds the lowest active 1 bit, all ones where there is none. -/
def Obligations.SparsityAndMasks : Prop :=
  (∀ (s : State) (f : Fmt) (d a : VReg) (c : MReg) (n : BitVec 5), s.Plain → s.Shaped → d ≠ a →
     let vl := s.cur.ctx.vl
     let slot : Nat → Nat → Slot := fun r j => s.cur.slotV a.toNat r j
     let group : Nat → List Nat := fun j => (List.range (min 32 (vl - j / 32 * 32))).map (j / 32 * 32 + ·)
     let kept : Nat → Nat → Bool := fun r j =>
       decide ((group j).countP (fun i =>
         i != j && ranksAbove (magOf f (slot r i)) (magOf f (slot r j)) (decide (i < j))) < n.toNat)
     let sparse : Instr → (Nat → Nat → Slot) → Prop := fun i val =>
       ∃ t, exec i s = .next t ∧ VecFrame s t ∧ OthersKept s t ∧ StripWrites s t d (fun _ _ => true) val ∧
         MaskWrites s t c (fun _ _ => true) (fun r j => BitVec.ofBool (kept r j)) ∧ t.cur.ctx.fflags = s.cur.ctx.fflags
     sparse (.vsparse f d a c n) (fun r j => if kept r j then slot r j else 0) ∧
     sparse (.vsparseP f d a c n) (fun r j =>
       match ((group j).filter (kept r))[j % 32]? with
       | some i => slot r i
       | none => 0) ∧
     StripMoves (.vexpand d a c) s d (fun _ _ => true) (fun r j =>
       if s.cur.bitM c.toNat r j = 1 then
         slot r (j / 32 * 32 + (List.range (j % 32)).countP fun i => s.cur.bitM c.toNat r (j / 32 * 32 + i) == 1)
       else 0)) ∧
  (∀ (s : State) (d a b : MReg) (gd gb : GReg) (e : Option MReg), s.Plain → s.Shaped →
     let vl := s.cur.ctx.vl
     let u : Nat → Nat → BitVec 1 := fun r j => s.cur.bitM a.toNat r j
     let v : Nat → Nat → BitVec 1 := fun r j => s.cur.bitM b.toNat r j
     let one : Nat → Bool := fun p => s.cur.active e (p / vl) (p % vl) && u (p / vl) (p % vl) == 1
     let all := List.range (s.cur.ctx.nr.toNat * vl)
     let moves : Instr → (Nat → Nat → BitVec 1) → Prop := fun i val => MaskMoves i s d (s.cur.active e) val
     moves (.mand d a b e) (fun r j => u r j &&& v r j) ∧
     moves (.mor d a b e) (fun r j => u r j ||| v r j) ∧
     moves (.mxor d a b e) (fun r j => u r j ^^^ v r j) ∧
     moves (.mnot d a e) (fun r j => ~~~(u r j)) ∧
     moves (.mset d gb e) (fun r j => BitVec.ofBool (decide (r * vl + j < (s.cur.rd gb).toNat))) ∧
     StripGives (.mpop gd a e) s gd (BitVec.ofNat 64 (all.countP one)) 0 ∧
     StripGives (.mfirst gd a e) s gd (match all.find? one with | some p => BitVec.ofNat 64 p | none => BitVec.allOnes 64) 0)

/-- The vector loads (R236, R237, R242): each active element takes the memory element at its address, as the hart sees it; a
tensor element outside reads 0 and a tensor's scales go into the companion. -/
def Obligations.VectorLoads : Prop :=
  ∀ (s : State) (f : Fmt) (d ix : VReg) (base g : GReg) (scale : BitVec 2) (pol : Policy) (off : BitVec 14)
    (tid : BitVec 8) (e : Option MReg), s.Plain → s.Shaped → s.raceFree → s.cur.behind = [] →
    let A := s.cur.rd base + off.signExtend 64
    let step := s.cur.rd g <<< scale.toNat
    let w := fmtWidth f
    StripLoads (.vld f d base g scale pol off e) s d e f (fun r j =>
      (A + BitVec.ofNat 64 r * step + BitVec.ofNat 64 (j * w / 8), j * w % 8)) ∧
    StripLoads (.vlds f d base g scale pol off e) s d e f (fun r j =>
      (A + BitVec.ofNat 64 j * step + BitVec.ofNat 64 (r * w / 8), 0)) ∧
    (d ≠ ix → StripLoads (.vldx f d base ix scale pol off e) s d e f (fun r j =>
      (A + ((s.cur.slotV ix.toNat r j).signExtend 64 <<< scale.toNat), 0))) ∧
    (s.tensorOf s.cur tid.toNat = none → TrapsIllegal (.vldT d base g pol tid e) s) ∧
    (∀ x, s.tensorOf s.cur tid.toNat = some x →
      let L := blockLen x.blk
      let c0 : Nat → Nat := fun j => (s.cur.rd base).toNat + j
      let o : Nat → Nat := fun r => (s.cur.rd g).toNat + r
      let scaleIn : Nat → Nat → Bool := fun r b => decide (c0 (b * L) < x.extent 0) && decide (o r < x.outer)
      (x.blk ≠ 0 → x.blk ≠ s.cur.ctx.blk → TrapsIllegal (.vldT d base g pol tid e) s) ∧
      (x.blk = 0 ∨ x.blk = s.cur.ctx.blk →
        (∀ r j, s.inShape r j = true → s.cur.active e r j = true → x.inside (c0 j) (o r) = true →
          (s.seesElem x.fmt (x.elemAt (c0 j) (o r))).isSome = true) →
        (x.blk ≠ 0 → ∀ r b, r < s.cur.ctx.nr.toNat → b * L < s.cur.ctx.vl → scaleIn r b = true →
          (s.sees .vload (x.scaleAt L (o r) (c0 (b * L) / L)) 1).isSome = true) →
        ∃ t, exec (.vldT d base g pol tid e) s = .next t ∧ LoadFrame s t ∧ MasksKept s t ∧
          t.cur.ctx.a = s.cur.ctx.a ∧ t.cur.ctx.fflags = s.cur.ctx.fflags ∧ (∀ r, t.cur.rd r = s.cur.rd r) ∧
          StripWrites s t d (s.cur.active e) (fun r j =>
            if x.inside (c0 j) (o r) then (s.seesElem x.fmt (x.elemAt (c0 j) (o r))).getD 0 else 0) ∧
          (x.blk = 0 → t.cur.ctx.sc = s.cur.ctx.sc) ∧
          (x.blk = 1 ∨ x.blk = 2 → ScaleWrites s t d L fun r b =>
            if scaleIn r b then ((s.sees .vload (x.scaleAt L (o r) (c0 (b * L) / L)) 1).getD []).headD 0 else 0)))

/-- The vector stores (R236, R237, R242, R245, R228): each active element is written to its address in the hart's version, in
sweep order; a tensor element outside writes nothing and a tensor's scales are written with their row; a store does not issue
while the store-fault record queue has no room; a tensor id that is not defined, or a block length other than vtype's, takes
the illegal-instruction trap. vsadd is one atomic at the home for each address, on the sum of the elements
that meet there in rising order (R241); in an ordered launch its f32 form is deferred to the commit (R274). -/
def Obligations.VectorStores : Prop :=
  ∀ (s : State) (f : Fmt) (d ix : VReg) (base g : GReg) (scale : BitVec 2) (pol : Policy) (sc : Scope) (off : BitVec 14)
    (tid : BitVec 8) (e : Option MReg), s.Plain → s.Shaped → s.raceFree → s.cur.behind = [] →
    let A := s.cur.rd base + off.signExtend 64
    let step := s.cur.rd g <<< scale.toNat
    let w := fmtWidth f
    let at_ : Nat → Nat → Word := fun r j => A + ((s.cur.slotV ix.toNat r j).signExtend 64 <<< scale.toNat)
    (16 ≤ s.cur.sfq.length → exec (.vst f d base g scale pol off e) s = .next s) ∧
    (s.cur.sfq.length < 16 → s.cur.sfHeld = [] →
      StripStores (.vst f d base g scale pol off e) s (s.stored d e f fun r j =>
        (A + BitVec.ofNat 64 r * step + BitVec.ofNat 64 (j * w / 8), j * w % 8)) ∧
      (f.isWhole = true →
        StripStores (.vsts f d base g scale pol off e) s (s.stored d e f fun r j =>
          (A + BitVec.ofNat 64 j * step + BitVec.ofNat 64 (r * w / 8), 0)) ∧
        StripStores (.vstx f d base ix scale pol off e) s (s.stored d e f fun r j => (at_ r j, 0))) ∧
      (s.tensorOf s.cur tid.toNat = none → TrapsIllegal (.vstT d base g pol tid e) s) ∧
      (∀ x, s.tensorOf s.cur tid.toNat = some x → x.blk ≠ 0 → x.blk ≠ s.cur.ctx.blk →
        TrapsIllegal (.vstT d base g pol tid e) s) ∧
      (∀ x, s.tensorOf s.cur tid.toNat = some x → (x.blk = 0 ∨ x.blk = s.cur.ctx.blk) →
        let L := blockLen x.blk
        let c0 : Nat → Nat := fun j => (s.cur.rd base).toNat + j
        let o : Nat → Nat := fun r => (s.cur.rd g).toNat + r
        let scales : Nat → List ElemStore := fun r =>
          if x.blk = 0 then []
          else ((List.range ((s.cur.ctx.vl + L - 1) / L)).filter fun b =>
              decide (c0 (b * L) < x.extent 0) && decide (o r < x.outer)).map fun b =>
            { ea := x.scaleAt L (o r) (c0 (b * L) / L), bit := 0, width := 8, code := (s.cur.scaleV d.toNat r b).toNat }
        let row : Nat → List ElemStore := fun r =>
          ((List.range s.cur.ctx.vl).filter fun j => s.cur.active e r j && x.inside (c0 j) (o r)).map fun j =>
            { ea := (x.elemAt (c0 j) (o r)).1, bit := (x.elemAt (c0 j) (o r)).2, width := fmtWidth x.fmt,
              code := (s.cur.slotV d.toNat r j).toNat }
        (s.cur.ctx.vl ≠ 0 → StripStores (.vstT d base g pol tid e) s
          ((List.range s.cur.ctx.nr.toNat).flatMap fun r => scales r ++ row r))) ∧
      (f = .i32 ∨ f = .n32 ∨ f = .f32 → s.cur.toPeer sc = false →
        (∀ r j, s.inShape r j = true → s.cur.active e r j = true →
          ∃ pa, resolveWord s .vadd (at_ r j) 4 = .ok pa) →
        let vl := s.cur.ctx.vl
        let sum : Nat → Option Slot := fun pa =>
          (foldActive (fun x y => (sadd f x y, 0)) (fun p =>
            match resolveWord s .vadd (at_ (p / vl) (p % vl)) 4 with
            | .ok q => if q = pa ∧ s.cur.active e (p / vl) (p % vl) = true then
                some (s.cur.slotV d.toNat (p / vl) (p % vl)) else none
            | .error _ => none) (s.cur.ctx.nr.toNat * vl)).1
        ∃ t, exec (.vsadd f d base ix scale sc off e) s = .next t ∧ Retired s t ∧ HomeFrame s { t with free := s.free } ∧
          (∀ r, t.cur.rd r = s.cur.rd r) ∧ StripsKept s t ∧ MasksKept s t ∧ t.cur.ver = s.cur.ver ∧
          t.cur.ctx.fflags = s.cur.ctx.fflags ∧ t.cur.ctx.vbeg = none ∧
          (f ≠ .f32 ∨ s.cur.ordered = false → t.cur.defer = s.cur.defer ∧
            (∀ pa x, sum pa = some x →
              leNat (t.bytes pa 4) = (sadd f (BitVec.ofNat 32 (leNat (s.bytes pa 4))) x).toNat) ∧
            (∀ a, (∀ pa x, sum pa = some x → ¬(pa ≤ a ∧ a < pa + 4)) → t.byte a = s.byte a)) ∧
          (f = .f32 → s.cur.ordered = true → (∀ a, t.byte a = s.byte a) ∧
            (∀ y ∈ s.cur.defer, y ∈ t.cur.defer) ∧
            (∀ y ∈ t.cur.defer, y ∈ s.cur.defer ∨
              ∃ pa x, sum pa = some x ∧ y = (s.cur.retired + 1, .fadd 0 pa x)) ∧
            ∀ pa x, sum pa = some x → (s.cur.retired + 1, .fadd 0 pa x) ∈ t.cur.defer)))

/-- The matrix instructions inside the window (R287, R288, R289, R292, R54, R55): opa adds the products of each row into P
with one clamp for each, tfold folds P into A and clears it, tclr gives the status as found and clears what its mask names,
tadd adds strip rows into A under frm.rm. A tile beyond the hart's allotment takes the illegal-instruction trap at issue
(R276, R88); a position out of the window takes the tile-window trap with its column in tval, at the instruction's own PC,
before it changes a cell (R283). -/
def Obligations.TileArithmetic : Prop :=
  (∀ (s : State) (f : Fmt) (d : TReg) (a : AReg) (v : VReg) (c gd : GReg) (c16 : Bool) (ka kv mask : BitVec 3) (row0 : BitVec 6)
     (e : Option MReg), s.Windowed d (s.cur.rd c).toNat →
     let g := (s.cur.rd c).toNat
     let vl := s.cur.ctx.vl
     let nr := s.cur.ctx.nr.toNat
     let old := s.cur.tile d
     let cols : Nat → Nat → Bool := fun _ k => decide (g ≤ k) && decide (k < g + vl)
     let keepP : Nat → Nat → Int := fun i k => s.cur.cellP d i k
     let keepA : Nat → Nat → Slot := fun i k => s.cur.cellA d i k
     (let x : Nat → Nat → Nat → Int := fun i k r =>
        (intElem (if c16 then .i16 else .i8) (s.cur.slotA a.toNat r i).toNat).1 *
          (intElem f (s.cur.slotV v.toNat r (k - g)).toNat).1
      ∃ t, exec (.opa f d a v c c16) s = .next t ∧ TileFrame s t d ∧ (∀ r, t.cur.rd r = s.cur.rd r) ∧
        TileWrites s t d cols (fun i k => (partAfter (x i k) (s.cur.cellP d i k) nr).1) keepA ∧
        (t.cur.tile d).ovf = (old.ovf || (List.range 64).any fun i => (List.range vl).any fun j =>
          (partAfter (x i (g + j)) (s.cur.cellP d i (g + j)) nr).2) ∧
        (t.cur.tile d).void = (old.void && decide (nr * vl = 0)) ∧
        FlagWrites s t none fun r j => (intElem f (s.cur.slotV v.toNat r j).toNat).2) ∧
     (let fold : Nat → Nat → Slot × BitVec 5 := fun i k =>
        foldCell (s.cur.cellA d i k) (s.cur.cellP d i k) ((s.cur.slotA a.toNat ka.toNat i).toNat % 256)
          ((s.cur.slotV v.toNat kv.toNat (k - g)).toNat % 256)
      ∃ t, exec (.tfold d a v c ka kv) s = .next t ∧ TileFrame s t d ∧ (∀ r, t.cur.rd r = s.cur.rd r) ∧
        TileWrites s t d cols (fun _ _ => 0) (fun i k => (fold i k).1) ∧ (t.cur.tile d).ovf = old.ovf ∧
        (t.cur.tile d).void = (old.void && decide (vl = 0)) ∧
        t.cur.ctx.fflags = s.cur.ctx.fflags ||| flagsOver (fun p => (fold (p % 64) (g + p / 64)).2) (vl * 64)) ∧
     (∃ t, exec (.tclr gd d mask) s = .next t ∧ TileFrame s t d ∧
        t.cur.rd gd = (if gd = 0 then 0 else
          BitVec.ofNat 64 ((s.cur.tw / 64 - 1) * 256 + (if old.void then 2 else 0) + (if old.ovf then 1 else 0))) ∧
        (∀ r, r ≠ gd → t.cur.rd r = s.cur.rd r) ∧
        TileWrites s t d (fun _ _ => true) (fun i k => if mask.getLsbD 0 then 0 else keepP i k)
          (fun i k => if mask.getLsbD 1 then 0 else keepA i k) ∧
        (t.cur.tile d).ovf = (old.ovf && !mask.getLsbD 2) ∧ (t.cur.tile d).void = (old.void || mask == 7) ∧
        t.cur.ctx.fflags = s.cur.ctx.fflags) ∧
     (row0.toNat + nr ≤ 64 → f = .bf16 ∨ f = .f32 →
       let sum : Nat → Nat → FRes := fun r j =>
         FF.f32.add (RM.ofBits s.cur.ctx.rm) (FF.f32.decode (s.cur.cellA d (row0.toNat + r) (g + j)).toNat)
           (FF.f32.decode (let x := (s.cur.slotV v.toNat r j).toNat; if f = .bf16 then x % 2 ^ 16 * 2 ^ 16 else x))
       ∃ t, exec (.tadd f d v c row0 e) s = .next t ∧ TileFrame s t d ∧ (∀ r, t.cur.rd r = s.cur.rd r) ∧
         TileWrites s t d
           (fun i k => cols i k && decide (row0.toNat ≤ i) && decide (i < row0.toNat + nr) &&
             s.cur.active e (i - row0.toNat) (k - g))
           keepP (fun i k => BitVec.ofNat 32 (sum (i - row0.toNat) (k - g)).code) ∧
         (t.cur.tile d).ovf = old.ovf ∧ FlagWrites s t e fun r j => (sum r j).fl)) ∧
  (∀ (s : State) (f : Fmt) (d : TReg) (a : AReg) (v : VReg) (b c : GReg) (c16 : Bool) (ka kv : BitVec 3) (row0 : BitVec 6)
     (e : Option MReg), s.Plain →
     (s.cur.ntiles ≤ d.toNat →
       TrapsIllegal (.opa f d a v c c16) s ∧ TrapsIllegal (.tfold d a v c ka kv) s ∧ TrapsIllegal (.tclr b d ka) s ∧
       TrapsIllegal (.tld f d b b c row0) s ∧ TrapsIllegal (.tst f d b b c row0) s ∧ TrapsIllegal (.tmv f v d c row0 e) s ∧
       TrapsIllegal (.tadd f d v c row0 e) s) ∧
     (d.toNat < s.cur.ntiles → (s.cur.tile d).place = .here → s.cur.ctx.vl ≠ 0 → s.cur.ctx.nr ≠ 0 →
       s.cur.tw ≤ (s.cur.rd c).toNat → s.cur.ctx.thb ≠ 0 → s.cur.trap.hdl = false →
       ∃ t, exec (.opa f d a v c c16) s = .next t ∧ t.cur.trap.code = 18 ∧ t.cur.trap.term = true ∧
         t.cur.trap.tval = s.cur.rd c ∧ t.cur.trap.tfpc = s.cur.ctx.pc ∧ t.cur.trap.hdl = true ∧
         t.cur.ctx.pc = s.cur.ctx.thb ∧ t.cur.tiles = s.cur.tiles))

/-- Tile moves (R285, R290, R291, R274): tld brings committed memory into A, bf16 widened exactly; tst writes A at the home in
a free launch, rounded for bf16, and holds it with the version in an ordered one; tmv brings A, or P clamped to i32, into a
strip register. The statement on tst asks that no address it resolves depends on bytes it writes. -/
def Obligations.TileMoves : Prop :=
  ∀ (s : State) (f : Fmt) (d : TReg) (v : VReg) (a b c : GReg) (row0 : BitVec 6) (e : Option MReg),
    s.Windowed d (s.cur.rd c).toNat → row0.toNat + s.cur.ctx.nr.toNat ≤ 64 →
    let g := (s.cur.rd c).toNat
    let vl := s.cur.ctx.vl
    let nr := s.cur.ctx.nr.toNat
    let n := fmtWidth f / 8
    let rm := RM.ofBits s.cur.ctx.rm
    let ea : Nat → Nat → Word := fun r j =>
      s.cur.rd a + BitVec.ofNat 64 r * s.cur.rd b + BitVec.ofNat 64 (j * n)
    let cell : Nat → Nat → Slot := fun r j => s.cur.cellA d (row0.toNat + r) (g + j)
    let narrow : Nat → Nat → ERes := fun r j =>
      if f = .bf16 then convert .bf16 .f32 rm (cell r j).toNat else { slot := cell r j, fl := 0 }
    (f = .bf16 ∨ f = .f32 → ∀ pa : Nat → Nat → Nat,
      (∀ r j, s.inShape r j = true → resolveTile s .vload (ea r j) n = .ok (pa r j) ∧
        (s.badPa (pa r j) = false ∨ ∀ k, k < n → heldAt (pa r j + k) s.cur.defer = true)) →
      ∃ t, exec (.tld f d a b c row0) s = .next t ∧ TileFrame s t d ∧ (∀ r, t.cur.rd r = s.cur.rd r) ∧
        TileWrites s t d
          (fun i k => decide (g ≤ k) && decide (k < g + vl) && decide (row0.toNat ≤ i) && decide (i < row0.toNat + nr))
          (fun i k => s.cur.cellP d i k)
          (fun i k =>
            let x := leNat (tileBytes s (pa (i - row0.toNat) (k - g)) n)
            BitVec.ofNat 32 (if f = .bf16 then x * 2 ^ 16 else x)) ∧
        t.cur.ctx.fflags = s.cur.ctx.fflags) ∧
    (f = .bf16 ∨ f = .f32 → ∀ pa : Nat → Nat → Nat,
      (∀ r j, s.inShape r j = true → ∀ m o,
        (∀ x, (∀ r' j', s.inShape r' j' = true → ¬(pa r' j' ≤ x ∧ x < pa r' j' + n)) →
          ({ s with mem := m, opaq := o } : State).byte x = s.byte x) →
        resolveTile { s with mem := m, opaq := o } .vstore (ea r j) n = .ok (pa r j)) →
      let bytes : Nat → Nat → List Byte := fun r j =>
        (List.range n).map fun k => BitVec.ofNat 8 ((narrow r j).slot.toNat / 256 ^ k)
      ∃ t, exec (.tst f d a b c row0) s = .next t ∧ Retired s t ∧ HomeFrame s { t with free := s.free } ∧ (∀ r, t.cur.rd r = s.cur.rd r) ∧
        t.cur.tiles = s.cur.tiles ∧ StripsKept s t ∧ t.cur.ver = s.cur.ver ∧
        FlagWrites s t none (fun r j => (narrow r j).fl) ∧
        (s.cur.ordered = false → t.cur.defer = s.cur.defer ∧ ∀ x, t.byte x =
          match ((s.positions.flatMap fun p => cellsAt (pa p.1 p.2) (bytes p.1 p.2)).reverse.find? (·.1 = x)) with
          | some y => y.2
          | none => s.byte x) ∧
        (s.cur.ordered = true → (∀ x, t.byte x = s.byte x) ∧
          t.cur.defer = s.cur.deferAll (s.positions.map fun p => .bytes true (pa p.1 p.2) (bytes p.1 p.2)))) ∧
    (f = .bf16 ∨ f = .f32 → StripDoes (.tmv f v d c row0 e) s v none e (fun r j => (narrow r j).slot) (fun r j => (narrow r j).fl)) ∧
    (let p : Nat → Nat → Int := fun r j => s.cur.cellP d (row0.toNat + r) (g + j)
     StripDoes (.tmv .i32 v d c row0 e) s v none e
       (fun r j => BitVec.ofInt 32 (max (-(2 ^ 31)) (min (2 ^ 31 - 1) (p r j))))
       (fun r j => if p r j < -(2 ^ 31) ∨ 2 ^ 31 - 1 < p r j then flagOF ||| flagNX else 0))

/-- The copy instructions (R295, R297, R298, R304 to R307): cpw writes the shadow registers and the writable fields of cflg;
cpgo starts a transfer under the next id and gives it, or ends it at once with kind 1 where its settings break a rule; cwait
gives 2 for an id not issued, waits for one not done, and then tells of an error at or before it; cpst tells how a transfer
stands. Tensor ids (R308, R309, R310, R312): tdef checks the layout in its registers and holds a good one with the version,
tdrop holds a removal, tget gives a field of the layout the hart sees, or 0. Which addresses a tensor copy into a ring counts
is the model's reading (log 53). -/
def Obligations.CopyChannelsAndTensors : Prop :=
  (∀ (s : State) (d a b c : GReg) (n : BitVec 2), s.Plain → s.Unlogged → n.toNat < s.cur.chans.length →
     (∀ h ∈ s.rest, h.hid ≠ s.cur.hid) →
     let ch := s.cur.chan n.toNat
     let g := (s.cur.rd a).toNat % 2 ^ 48
     let tensor := if (ch.flg.extractLsb' 5 2) = 0 then none else s.tensorOf s.cur (ch.flg.extractLsb' 48 8).toNat
     let bad := setupBad s s.cur ch.src ch.dst ch.len ch.flg tensor
     exec (.cpw d a b c n) s = .next { s with cur := (s.cur.onChan n.toNat fun x => { x with
       src := s.cur.rd a, dst := s.cur.rd b, len := s.cur.rd c, flg := s.cur.rd d &&& 0x00FF0003FFFF007C }).retire } ∧
     (16 ≤ ch.flight.length → exec (.cpgo d n) s = .next s) ∧
     (ch.flight.length < 16 → s.engineLoad s.cur.core < 64 → bad = false → ch.flg.getLsbD 4 = false →
       denseLen ch.flg ch.len tensor ≠ 0 →
       ∃ t x, exec (.cpgo d n) s = .next t ∧ t.cur.rd d = (if d = 0 then 0 else BitVec.ofNat 64 ch.next) ∧
         (∀ r, r ≠ d → t.cur.rd r = s.cur.rd r) ∧ Retired s t ∧ SamePackage s t ∧ (t.cur.chan n.toNat).flight = ch.flight ++ [x] ∧
         x.id = ch.next ∧ x.src = ch.src ∧ x.dst = ch.dst ∧ x.len = ch.len ∧ x.flg = ch.flg ∧ x.tensor = tensor ∧
         x.ring = none ∧ (t.cur.chan n.toNat).next = (ch.next + 1) % 2 ^ 48 ∧
         t.cur.defer = (if s.cur.ordered then s.cur.deferAll [.copy n.toNat ch.next] else s.cur.defer) ∧
         x.todo = denseLen ch.flg ch.len tensor ∧
         ∀ k, k ≠ n.toNat → t.cur.chan k = s.cur.chan k) ∧
     (ch.flight.length < 16 → s.engineLoad s.cur.core < 64 → bad = true →
       ∃ t, exec (.cpgo d n) s = .next t ∧ t.cur.rd d = (if d = 0 then 0 else BitVec.ofNat 64 ch.next) ∧ Retired s t ∧
         SamePackage s t ∧ (t.cur.chan n.toNat).flight = ch.flight.filter (fun x => x.id != ch.next) ∧
         (t.cur.chan n.toNat).errVal = true ∧ (t.cur.chan n.toNat).ended.head? = some (ch.next, 1) ∧
         (ch.errVal = false → (t.cur.chan n.toNat).errKind = 1 ∧ (t.cur.chan n.toNat).errId = ch.next)) ∧
     (idBefore ch.next g = false → Does (.cwait d a n) s d 2) ∧
     (idBefore ch.next g = true → idBefore ch.done g = true →
       Does (.cwait d a n) s d (if ch.loVal = true ∧ (ch.loId = g ∨ idBefore g ch.loId = true) then 1 else 0)) ∧
     (idBefore ch.next g = true → idBefore ch.done g = false →
       exec (.cwait d a n) s = .next { s with cur := { s.cur with wait := some .cwait, since := s.now } }) ∧
     Does (.cpst d a n) s d
       (if 64 ≤ idGap ch.next g then 3
        else
          match ch.ended.find? fun x => x.1 == g with
          | some (_, kind) => if kind = 0 then 1 else BitVec.ofNat 64 (2 + 16 * kind)
          | none => if ch.flight.any fun x => x.id == g then 0 else 1)) ∧
  (∀ (s : State) (d b c : GReg) (v : VReg) (tid : BitVec 8) (k : BitVec 5), s.Plain →
     let gb := s.cur.rd b
     let gc := s.cur.rd c
     let slot : Nat → Nat → Slot := fun r j => s.cur.slotV v.toNat r j
     let dims := s.cur.ctx.vl
     let n := min dims 6
     let x : Tensor :=
       { base := gb &&& 0x00FFFFFFFFFFFFFF, fmt := Fmt.ofCode (gb.extractLsb' 56 4), blk := gb.extractLsb' 60 2,
         sbase := gc &&& 0x00FFFFFFFFFFFFFF, dims := dims, ext := (List.range n).map fun k => (slot 0 k).toNat,
         st := (List.range n).map fun k => (slot 2 k ++ slot 1 k).toInt }
     let w := fmtWidth x.fmt
     let st : Nat :=
       if dims = 0 ∨ 6 < dims then 1
       else if ∃ k, k < dims ∧ slot 0 k = 0 then 2
       else if x.fmt = .i64 ∨ x.fmt = .e8m0 ∨ x.blk = 3 ∨ (x.blk ≠ 0 ∧ x.fmt.isBlock = false) ∨ gb.extractLsb' 62 2 ≠ 0 ∨
         gc.extractLsb' 56 8 ≠ 0 then 3
       else if (if 8 ≤ w then x.base.toNat % (w / 8) = 0 ∧ ∀ y ∈ x.st, y % ((w / 8 : Nat) : Int) = 0
                else x.st.getD 0 0 = 0) then 0 else 4
     exec (.tdef d v b c tid) s = .next { s with cur := (({ s.cur with
       defs := if st = 0 then s.cur.defs ++ [{ tid := tid.toNat, layout := some x }] else s.cur.defs } : Hart).wr d
         (BitVec.ofNat 64 st)).retire } ∧
     exec (.tdrop tid) s = .next { s with cur := ({ s.cur with
       defs := s.cur.defs ++ [{ tid := tid.toNat, layout := none }] } : Hart).retire } ∧
     (s.tensorOf s.cur tid.toNat = none → Does (.tget d tid k) s d 0) ∧
     (∀ y, s.tensorOf s.cur tid.toNat = some y →
       Does (.tget d tid 0) s d (y.base + BitVec.ofNat 64 (y.fmt.code.toNat * 2 ^ 56 + y.blk.toNat * 2 ^ 60)) ∧
       Does (.tget d tid 1) s d y.sbase ∧ Does (.tget d tid 2) s d (BitVec.ofNat 64 y.dims) ∧
       ∀ q : BitVec 5, q.toNat < 6 →
         Does (.tget d tid (8 + q)) s d (BitVec.ofNat 64 (if q.toNat < y.dims then y.ext.getD q.toNat 1 else 1)) ∧
         Does (.tget d tid (16 + q)) s d (BitVec.ofInt 64 (if q.toNat < y.dims then y.st.getD q.toNat 0 else 0))))

/-- Rings (R316, R317, R318): rinit gives its status and, where that is 0, makes the ring with zeroed bytes or removes it;
rget and rget.nw take the oldest filled slot and give its address, 0 where the group does not own the ring; with none filled
rget waits and rget.nw gives 0; rrel frees the oldest slot taken. The order in which rinit checks is the model's reading (log
58). -/
def Obligations.RingInstructions : Prop :=
  ∀ (s : State) (d a b c : GReg) (n : BitVec 4), s.Plain →
    let off := (s.cur.rd a).toNat
    let size := (s.cur.rd b).toNat
    let count := (s.cur.rd c).toNat
    let st := rinitStatus s s.cur n.toNat off size count
    let fresh : Ring :=
      { lid := s.cur.lid, grp := s.cur.grp, off := off, size := size, count := count, claimed := 0, filled := 0, taken := 0,
        claimPos := 0, readPos := 0, wrote := [], waiters := [] }
    let taken : Ring → State → State := fun r s => s.onCore s.cur.core fun x =>
      { x with
        rings := AMap.put x.rings n.toNat
          { r with filled := r.filled - 1, taken := r.taken + 1, readPos := (r.readPos + 1) % r.count } }
    (st ≠ 0 → Does (.rinit d a b c n) s d (BitVec.ofNat 64 st)) ∧
    (st = 0 → count = 0 → exec (.rinit d a b c n) s = .next { s.onCore s.cur.core (fun x =>
      { x with rings := AMap.erase x.rings n.toNat }) with cur := (s.cur.wr d 0).retire }) ∧
    (st = 0 → count ≠ 0 → ∃ t, exec (.rinit d a b c n) s = .next t ∧ t.cur = (s.cur.wr d 0).retire ∧
      AMap.find? (t.core s.cur.core).rings n.toNat = some fresh ∧
      (∀ k, k ≠ n.toNat → AMap.find? (t.core s.cur.core).rings k = AMap.find? (s.core s.cur.core).rings k) ∧
      (∀ k, Sparse.get (t.core s.cur.core).stage k =
        if off ≤ k ∧ k < off + size * count then 0 else Sparse.get (s.core s.cur.core).stage k)) ∧
    (s.ownRing s.cur n.toNat = none →
      Does (.rget d n) s d 0 ∧ Does (.rgetNw d n) s d 0 ∧ exec (.rrel n) s = .next { s with cur := s.cur.retire }) ∧
    (∀ r, s.ownRing s.cur n.toNat = some r →
      (r.filled = 0 → Does (.rgetNw d n) s d 0 ∧
        exec (.rget d n) s = .next { s with cur := { s.cur with wait := some .rget, since := s.now } }) ∧
      (r.filled ≠ 0 →
        let got : Word := 0x00FFFFFFFFE80000 + BitVec.ofNat 64 (r.off + r.readPos * r.size)
        exec (.rget d n) s = .next { taken r s with cur := (s.cur.wr d got).retire } ∧
        exec (.rgetNw d n) s = .next { taken r s with cur := (s.cur.wr d got).retire }) ∧
      (r.taken = 0 → exec (.rrel n) s = .next { s with cur := s.cur.retire }) ∧
      (r.taken ≠ 0 → r.waiters = [] → exec (.rrel n) s = .next { s.onCore s.cur.core (fun x =>
        { x with rings := AMap.put x.rings n.toNat { r with taken := r.taken - 1 } }) with cur := s.cur.retire }))

/-- The index scratchpad (R322, R323, R329 to R333): xins and xacc insert new keys behind the others and combine present ones,
and give how many were new; xlook gives the value of a present key, else 0; xdel removes keys; xdrain takes entries in rank
order; xcnt and xclr count and clear. The full slice (R326, R390): xins of a new key that finds no room takes the index-full
fault at its position; with the handler open for it, the handler runs with cause 5, and the position and the count so far are
kept for the restart. -/
def Obligations.ScratchpadEntries : Prop :=
  (∀ (s : State) (f : Fmt) (gd : GReg) (d a b : VReg) (c : MReg) (e : Option MReg) (sel : Bool), s.Plain → s.Shaped →
     s.cur.xPlace = .here → (s.cur.xents.map XEntry.key).Nodup → f.isEntry = true → evenReg a = true → pairOk f b = true →
     pairOk f d = true →
     let vl := s.cur.ctx.vl
     let len := s.cur.ctx.nr.toNat * vl
     let has : List XEntry → Word → Bool := fun l k => l.any fun y => y.key == k
     let key : Nat → Word := fun p => s.keyOf a (p / vl) (p % vl)
     let on : Nat → Bool := fun p => s.cur.active e (p / vl) (p % vl)
     let keeps : State → Prop := fun t => StripsKept s t ∧ ∀ r, r ≠ gd → t.cur.rd r = s.cur.rd r
     let sum : Word → Word → Word × BitVec 5 := fun old x =>
       match f with
       | .i64 => (old + x, 0)
       | .f32 =>
         let y := FF.f32.add (RM.ofBits s.cur.ctx.rm) (FF.f32.decode (old.toNat % 2 ^ 32)) (FF.f32.decode (x.toNat % 2 ^ 32))
         (BitVec.ofNat 64 y.code, y.fl)
       | _ => (((old.extractLsb' 0 32) + (x.extractLsb' 0 32)).signExtend 64, 0)
     let inserts : Instr → (Word → Word → Word × BitVec 5) → Prop := fun i comb =>
       let slice := s.sliceAfter e a b f fun x y => (comb x y).1
       (slice len).length ≤ s.cur.xcap → s.cur.ctx.vbeg = none →
       ∃ t, exec i s = .next t ∧ SliceFrame s t ∧ keeps t ∧ t.cur.xents = slice len ∧
         MaskWrites s t c (fun _ _ => true) (fun r j =>
           BitVec.ofBool (s.cur.active e r j && !has (slice (r * vl + j)) (s.keyOf a r j))) ∧
         t.cur.rd gd = (if gd = 0 then 0 else BitVec.ofNat 64 ((slice len).length - s.cur.xents.length)) ∧
         FlagWrites s t e fun r j =>
           match (slice (r * vl + j)).find? fun y => y.key == s.keyOf a r j with
           | some y => (comb y.val (s.valueOf f b r j)).2
           | none => 0
     inserts (.xins f gd a b c e) (fun _ x => (x, 0)) ∧ inserts (.xacc f gd a b c e) sum ∧
     (let val : Nat → Nat → Word := fun r j =>
        match s.cur.xents.find? fun y => y.key == s.keyOf a r j with
        | some y => y.val
        | none => 0
      ∃ t, exec (.xlook f d a c e) s = .next t ∧ SliceFrame s t ∧ t.cur.xents = s.cur.xents ∧
        (∀ r, t.cur.rd r = s.cur.rd r) ∧ t.cur.ctx.fflags = s.cur.ctx.fflags ∧
        MaskWrites s t c (fun _ _ => true) (fun r j =>
          BitVec.ofBool (s.cur.active e r j && has s.cur.xents (s.keyOf a r j))) ∧
        ∀ reg r j, r < 8 → j < 1024 → t.cur.slotV reg r j =
          if s.inShape r j = true ∧ s.cur.active e r j = true ∧ reg = d.toNat then (val r j).extractLsb' 0 32
          else if s.inShape r j = true ∧ s.cur.active e r j = true ∧ f = .i64 ∧ reg = (d + 1).toNat then
            (val r j).extractLsb' 32 32
          else s.cur.slotV reg r j) ∧
     (let gone : Nat → Word → Bool := fun n k => (List.range n).any fun p => on p && key p == k
      ∃ t, exec (.xdel gd a c e) s = .next t ∧ SliceFrame s t ∧ keeps t ∧ t.cur.ctx.fflags = s.cur.ctx.fflags ∧
        t.cur.xents = s.cur.xents.filter (fun y => !gone len y.key) ∧
        MaskWrites s t c (fun _ _ => true) (fun r j => BitVec.ofBool (s.cur.active e r j &&
          has s.cur.xents (s.keyOf a r j) && !gone (r * vl + j) (s.keyOf a r j))) ∧
        t.cur.rd gd = (if gd = 0 then 0 else BitVec.ofNat 64
          ((List.range len).countP fun p => on p && has s.cur.xents (key p) && !gone p (key p)))) ∧
     (b ≠ a → b ≠ a + 1 →
       ∃ t, exec (.xdrain f gd a b) s = .next t ∧ SliceFrame s t ∧ MasksKept s t ∧ t.cur.ctx.fflags = s.cur.ctx.fflags ∧
         (∀ r, r ≠ gd → t.cur.rd r = s.cur.rd r) ∧ t.cur.xents = s.cur.xents.drop len ∧
         t.cur.rd gd = (if gd = 0 then 0 else BitVec.ofNat 64 (min len s.cur.xents.length)) ∧
         ∀ reg r j, r < 8 → j < 1024 →
           let y := s.cur.xents.getD (r * vl + j) { key := 0, val := 0 }
           t.cur.slotV reg r j =
             if s.inShape r j = false then s.cur.slotV reg r j
             else if reg = a.toNat then y.key.extractLsb' 0 32
             else if reg = (a + 1).toNat then y.key.extractLsb' 32 32
             else if reg = b.toNat then y.val.extractLsb' 0 32
             else if f = .i64 ∧ reg = (b + 1).toNat then y.val.extractLsb' 32 32
             else s.cur.slotV reg r j) ∧
     Does (.xcnt gd sel) s gd (BitVec.ofNat 64 (if sel then s.cur.xcap else s.cur.xents.length)) ∧
     exec (.xclr gd) s = .next { s with cur :=
       (({ s.cur with xents := [] } : Hart).wr gd (BitVec.ofNat 64 s.cur.xents.length)).retire }) ∧
  (∀ (s : State) (f : Fmt) (gd : GReg) (a b : VReg) (c : MReg), s.Plain → s.cur.xPlace = .here → s.cur.ctx.vbeg = none →
     s.cur.ctx.vl ≠ 0 → s.cur.ctx.nr ≠ 0 → s.cur.xcap ≤ s.cur.xents.length → (∀ y ∈ s.cur.xents, y.key ≠ s.keyOf a 0 0) →
     s.cur.ctx.thb ≠ 0 → s.cur.trap.hdl = false → (s.framePa s.cur true).isSome = true →
     ∃ t, exec (.xins f gd a b c none) s = .next t ∧ t.cur.trap.code = 5 ∧ t.cur.trap.hdl = true ∧ t.cur.trap.tval = 0 ∧
       t.cur.trap.tfpc = s.cur.ctx.pc ∧ t.cur.ctx.pc = s.cur.ctx.thb ∧ t.cur.xents = s.cur.xents ∧
       t.cur.trap.term = !(s.cur.ctx.thmask.getLsbD 0) ∧
       (s.cur.ctx.thmask.getLsbD 0 = true → ∃ q, t.cur.hframe = some q ∧ q.ctx.vbeg = some 0 ∧ q.ctx.held = 0))

/-- The scalar key-index instructions (R353 to R355, R358, R359): kxdef reads a descriptor and gives its status, holding a
good definition with the version; kxprj gives how many units of the heads are resident, 1 where the index is undefined; kxst
reads a field, or 0, and with clr then clears the two flags; kxclr holds a clear. What a definition held with the version
shows of its counts is the model's reading (log 41). -/
def Obligations.KeyIndexControl : Prop :=
  ∀ (s : State) (d a b c : GReg) (kx : BitVec 8) (sel : BitVec 3), s.Plain → s.raceFree → s.cur.behind = [] →
    (∀ bs, s.sees .load (s.cur.rd a) 64 = some bs →
      let desc := (List.range 8).map fun k => leWord ((bs.drop (8 * k)).take 8)
      let st := kxStatus s kx.toNat desc
      (st ≠ 0 → LoadDoes (.kxdef d a kx) s d (BitVec.ofNat 64 st)) ∧
      (st = 0 → ∀ l, s.tensorOf s.cur (kxTid desc) = some l → ∃ t, exec (.kxdef d a kx) s = .next t ∧ Retired s t ∧
        t.cur.rd d = 0 ∧ (∀ r, r ≠ d → t.cur.rd r = s.cur.rd r) ∧
        t.cur.intents = s.cur.intents ++ [.def_ kx.toNat desc l (projPages desc ++ homePages desc)] ∧
        (∀ x, t.byte x = s.byte x) ∧
        ∀ k, ∀ u ∈ (t.core k).proj, ¬(u.part = s.cur.part ∧ u.kx = kx.toNat))) ∧
    (s.kxSeen s.cur kx.toNat = none →
      Does (.kxprj d b c kx) s d 1 ∧ Does (.kxst d kx sel) s d 0 ∧ Does (.kxstClr d kx sel) s d 0 ∧
      Does (.kxclr d kx) s d 1) ∧
    (∀ x, s.kxSeen s.cur kx.toNat = some x →
      let k := s.kx s.cur.part kx.toNat
      let field : Word :=
        match sel.toNat with
        | 0 => x.desc.getD 0 0
        | 1 => BitVec.ofNat 64 x.alloc
        | 2 => BitVec.ofNat 64 k.resv
        | 3 => BitVec.ofNat 64 ((if k.nan then 1 else 0) + 2 * (if k.sat then 1 else 0) + 4)
        | 4 => BitVec.ofNat 64 (kxDbase x.desc)
        | 5 => BitVec.ofNat 64 (kxSbase x.desc)
        | 6 => BitVec.ofNat 64 (kxPbase x.desc)
        | _ => x.desc.getD 4 0
      Does (.kxst d kx sel) s d field ∧
      exec (.kxstClr d kx sel) s = .next { s.onKx s.cur.part kx.toNat (fun k => { k with nan := false, sat := false }) with
        cur := (s.cur.wr d field).retire } ∧
      (s.cur.intentOver (.clr kx.toNat) = false → exec (.kxclr d kx) s = .next { s with cur :=
        (({ s.cur with intents := s.cur.intents ++ [.clr kx.toNat] } : Hart).wr d 0).retire }) ∧
      ∃ t, exec (.kxprj d b c kx) s = .next t ∧ Retired s t ∧ (∀ r, r ≠ d → t.cur.rd r = s.cur.rd r) ∧
        t.cur.bare = s.cur.bare ∧ SamePackage s { t with cores := s.cores } ∧
        t.cur.rd d = (if d = 0 then 0 else BitVec.ofNat 64 (((t.core s.cur.core).proj.filter fun u =>
          (List.range (kxH x.desc)).any fun h => decide ((s.cur.rd b).toNat ≤ h) &&
            decide (h < (s.cur.rd b).toNat + (s.cur.rd c).toNat) &&
            (List.range (kxL x.desc)).any fun l => u.isFor s.cur.part kx.toNat h l x.desc).length)))

/-- The vector key-index instructions (R342, R343, R348 to R350, R356, R357): ksig adds the signed elements of its dimensions
into the sums; kst also stores the keys with the version and, at a key's last dimension, holds an insertion and reserves its
segments; kga gives the window of the candidate list from the cursor in gb, without repeats for kga.u, and the next cursor, or
all ones where dense attention is required. Which of the hart's own insertions kga sees, and the order in which kst stores and
sums, are the model's readings (log 41, 42). -/
def Obligations.KeyIndexVectors : Prop :=
  ∀ (s : State) (d v : VReg) (a : AReg) (b c : GReg) (kx : BitVec 8) (k : BitVec 3) (x : KxSeen), s.Plain → s.Shaped →
    s.raceFree → s.cur.behind = [] → s.kxSeen s.cur kx.toNat = some x → kxB x.desc ≤ 16 →
    let vl := s.cur.ctx.vl
    let nr := s.cur.ctx.nr.toNat
    let h0 := ((s.cur.rd c).extractLsb' 0 8).toNat
    let c0 := ((s.cur.rd c).extractLsb' 8 8).toNat
    let L := kxL x.desc
    let sums : State → Prop := fun t => ∀ reg r sl, r < 8 → sl < 64 → t.cur.slotA reg r sl =
      if reg = a.toNat ∧ r < nr ∧ sl < L * kxB x.desc then s.projSum x.desc x.layout.fmt a v h0 c0 r sl vl
      else s.cur.slotA reg r sl
    (s.unitsCurrent kx.toNat x.desc → h0 + nr ≤ kxH x.desc → c0 + vl ≤ kxD x.desc → 1 ≤ nr →
      (∃ t, exec (.ksig a v c kx) s = .next t ∧ t.cur.bareVec = s.cur.bareVec ∧ NearPackage s { t with cores := s.cores } ∧
        Retired s t ∧ StripsKept s t ∧ MasksKept s t ∧ (∀ r, t.cur.rd r = s.cur.rd r) ∧ t.cur.ctx.sc = s.cur.ctx.sc ∧
        t.cur.ctx.fflags = s.cur.ctx.fflags ∧ (∀ y, t.byte y = s.byte y) ∧ sums t) ∧
      (let token := (s.cur.rd b).toNat
       let at_ : Nat → Nat → Word × Nat := fun r j => x.layout.elemAt (c0 + j) (token * kxH x.desc + (h0 + r))
       let xs : List ElemStore := s.positions.map fun p =>
         { ea := (at_ p.1 p.2).1, bit := (at_ p.1 p.2).2, width := fmtWidth x.layout.fmt,
           code := (s.cur.slotV v.toNat p.1 p.2).toNat }
       let lines := ((xs.flatMap fun y => (s.storesTo y.ea y.size).getD []).map (· / 64)).eraseDups
       token < kxTokens x.desc x.layout → s.cur.sfq.length < 16 → s.cur.sfHeld = [] → 8 ≤ fmtWidth x.layout.fmt → vl ≠ 0 →
       (∀ y ∈ xs, (s.storesTo y.ea y.size).isSome = true) →
       s.cur.verLines.length + s.cur.quarterIntents + nr + lines.length ≤ s.cur.vcap →
       (∀ die, s.dieLines die + lines.length ≤ dieShare) →
       (c0 + vl = kxD x.desc → x.alloc + (s.kx s.cur.part kx.toNat).resv + nr * L ≤ kxNseg x.desc) →
       ∃ t, exec (.kst a v b c kx) s = .next t ∧ Retired s t ∧ StripsKept s t ∧ MasksKept s t ∧
         (∀ r, t.cur.rd r = s.cur.rd r) ∧ t.cur.ctx.fflags = s.cur.ctx.fflags ∧ (∀ y, t.byte y = s.byte y) ∧ sums t ∧
         t.cur.ver = xs.foldl s.putElem s.cur.ver ∧ t.cur.ctx.vbeg = none ∧
         t.cur.intents = s.cur.intents ++ (if c0 + vl = kxD x.desc then (List.range nr).map fun r =>
           .ins kx.toNat (h0 + r) token ((List.range L).map fun l => (sigOf a.toNat r l (kxB x.desc) t.cur).1) else []))) ∧
    (h0 + k.toNat < kxH x.desc → s.cur.ctx.vbeg = none →
      let sigs := (List.range L).map fun l => (sigOf a k.toNat l (kxB x.desc) s.cur).1
      ∀ raw sat, s.bucketsOf kx.toNat (h0 + k.toNat) x.desc 0 sigs = some (raw, sat) →
        let dense := sat || decide (kxClim x.desc < raw.length)
        let cur := (s.cur.rd b).toNat % 2 ^ 63
        let gives : Instr → List Nat → Prop := fun i list =>
          let n := if cur < list.length then min (list.length - cur) (nr * vl) else 0
          ∃ t, exec i s = .next t ∧ Retired s t ∧ MasksKept s t ∧ t.cur.ctx.a = s.cur.ctx.a ∧
            (∀ r, r ≠ b → t.cur.rd r = s.cur.rd r) ∧ (∀ y, t.byte y = s.byte y) ∧ t.cur.ctx.fflags = s.cur.ctx.fflags ∧
            t.cur.xents = s.cur.xents ∧ t.cur.ver = s.cur.ver ∧
            t.cur.rd b = (if b = 0 then 0 else if dense then BitVec.ofInt 64 (-1) else
              BitVec.ofNat 64 (cur + n + (if cur + n < list.length then 2 ^ 63 else 0))) ∧
            StripWrites s t d (fun _ _ => !dense) (fun r j => BitVec.ofNat 32 ((list.drop cur).getD (r * vl + j) 0))
        (dense = false ∨ kxFb x.desc = false →
          gives (.kga d a b c kx k) raw ∧
          (s.cur.xPlace = .here → raw.length ≤ s.cur.xcap - s.cur.xents.length → gives (.kgaU d a b c kx k) raw.eraseDups)))

/-- Gossip contributions (R421, R423, R426, R427): gadd adds a word to a page at its home, or refuses it where the sum leaves
i64, sets ovf and gives 1; vgadd adds the elements one after the other and gives how many were refused; in an ordered launch
both are held with the version and give 0. Gossip reads (R422, R428, R429): gw gives the weight of a page, gld raw words into
a pair and gest estimates, each as the page stands at the home; gspr gives the largest spread of a region and clears it.
Reading changes no byte of memory. -/
def Obligations.GossipAccesses : Prop :=
  (∀ (s : State) (f : Fmt) (d a b : GReg) (ix c : VReg) (e : Option MReg) (n : Nat) (r : Region) (page : Nat), s.Plain →
     s.Shaped → s.part = .tl460 → s.regionAt s.cur.part (s.cur.rd a) = some (n, r, page) → AMap.find? s.regions n = some r →
     (r.mode = true ∨ (s.cur.ordered = false ∧ s.replaying r.part = false)) →
     let pa : Nat → Nat := fun k => r.pages.getD page 0 + 8 * k
     let word : State → Nat → Int := fun t k => (t.dword (pa k)).toInt
     let off := (s.cur.rd a).toNat % 4096
     ((s.cur.rd a).toNat % 8 = 0 → s.badPa (pa (off / 8)) = false →
       (s.cur.ordered = true → exec (.gadd d a b) s = .next { s with cur := (({ s.cur with
         defer := s.cur.deferAll [.gadd n page (off / 8) (s.cur.rd b)] } : Hart).wr d 0).retire }) ∧
       (s.cur.ordered = false →
         let z := word s (off / 8) + (s.cur.rd b).toInt
         let fits := decide (-(2 ^ 63) ≤ z) && decide (z < 2 ^ 63)
         ∃ t, exec (.gadd d a b) s = .next t ∧ Retired s t ∧ GossipFrame s t ∧ t.cur.bare = s.cur.bare ∧
           (∀ q, q ≠ d → t.cur.rd q = s.cur.rd q) ∧ t.cur.rd d = (if d = 0 then 0 else if fits then 0 else 1) ∧
           word t (off / 8) = (if fits then z else word s (off / 8)) ∧
           (∀ x, ¬(fits = true ∧ pa (off / 8) ≤ x ∧ x < pa (off / 8) + 8) → t.byte x = s.byte x) ∧
           ∀ q, AMap.find? t.regions n = some q → q.ovf = (r.ovf || !fits))) ∧
     (f.isEntry = true →
       (∀ i j, s.inShape i j = true → s.cur.active e i j = true →
         (s.cur.slotV ix.toNat i j).toNat < 512 ∧ s.badPa (pa (s.cur.slotV ix.toNat i j).toNat) = false) →
       let len := s.cur.ctx.nr.toNat * s.cur.ctx.vl
       let after : Nat → Int × Nat := fun k => s.gossipAfter f r.frac e ix c k (word s k) len
       let part : Nat → Nat → Option Int × BitVec 5 := fun i j =>
         contribution f r.frac (s.cur.slotV c.toNat i j) (s.cur.slotV (c + 1).toNat i j)
       ∃ t, exec (.vgadd f d a ix c e) s = .next t ∧ Retired s t ∧ StripsKept s t ∧ MasksKept s t ∧
         (∀ q, q ≠ d → t.cur.rd q = s.cur.rd q) ∧ FlagWrites s t e (fun i j => (part i j).2) ∧
         (s.cur.ordered = false → GossipFrame s t ∧ t.cur.bareVec = s.cur.bareVec ∧
           t.cur.rd d = (if d = 0 then 0 else BitVec.ofNat 64 ((List.range 512).map fun k => (after k).2).sum) ∧
           (∀ k, k < 512 → word t k = (after k).1) ∧
           ∀ x, ¬(pa 0 ≤ x ∧ x < pa 512) → t.byte x = s.byte x) ∧
         (s.cur.ordered = true → NearPackage s t ∧ t.cur.rd d = 0 ∧
           t.cur.defer = s.cur.deferAll ((s.positions.filter fun p => s.cur.active e p.1 p.2).filterMap fun p =>
             (part p.1 p.2).1.map fun y => .gadd n page (s.cur.slotV ix.toNat p.1 p.2).toNat (BitVec.ofInt 64 y))))) ∧
  (∀ (s : State) (d a : GReg) (v ix : VReg) (e : Option MReg) (n : Nat) (r : Region) (page : Nat), s.Plain →
     s.Shaped → s.part = .tl460 → s.regionAt s.cur.part (s.cur.rd a) = some (n, r, page) → AMap.find? s.regions n = some r →
     (r.mode = true ∨ (s.cur.ordered = false ∧ s.replaying r.part = false)) →
     let pa : Nat → Nat := fun k => r.pages.getD page 0 + 8 * k
     let frame : State → Prop := fun t =>
       Retired s t ∧ NearPackage s { t with regions := s.regions } ∧ (∀ x, t.byte x = s.byte x) ∧ MasksKept s t ∧
       { t.cur.bareVec with reads := s.cur.reads } = s.cur.bareVec
     ((s.cur.rd a).toNat % 8 = 0 → s.badPa (pa 0) = false →
       ∃ t, exec (.gw d a) s = .next t ∧ frame t ∧ StripsKept s t ∧ t.cur.ctx.fflags = s.cur.ctx.fflags ∧
         t.cur.rd d = (if d = 0 then 0 else s.dword (pa 0)) ∧ ∀ q, q ≠ d → t.cur.rd q = s.cur.rd q) ∧
     ((∀ i j, s.inShape i j = true → s.cur.active e i j = true →
         (s.cur.slotV ix.toNat i j).toNat < 512 ∧ s.badPa (pa (s.cur.slotV ix.toNat i j).toNat) = false) →
       let at_ : Nat → Nat → Nat := fun i j => (s.cur.slotV ix.toNat i j).toNat
       (evenReg v = true →
         ∃ t, exec (.gld v a ix e) s = .next t ∧ frame t ∧ (∀ q, t.cur.rd q = s.cur.rd q) ∧
           t.cur.ctx.fflags = s.cur.ctx.fflags ∧
           ∀ reg i j, i < 8 → j < 1024 → t.cur.slotV reg i j =
             if s.inShape i j = true ∧ s.cur.active e i j = true ∧ reg = v.toNat then
               (s.dword (pa (at_ i j))).extractLsb' 0 32
             else if s.inShape i j = true ∧ s.cur.active e i j = true ∧ reg = (v + 1).toNat then
               (s.dword (pa (at_ i j))).extractLsb' 32 32
             else s.cur.slotV reg i j) ∧
       (let y : Nat → Nat → FRes := fun i j =>
          estimate r.frac (s.dword (pa 0)).toInt (at_ i j) (s.dword (pa (at_ i j))).toInt
        s.badPa (pa 0) = false → ∃ t, exec (.gest v a ix e) s = .next t ∧ frame t ∧ (∀ q, t.cur.rd q = s.cur.rd q) ∧
          StripWrites s t v (s.cur.active e) (fun i j => BitVec.ofNat 32 (y i j).code) ∧
          FlagWrites s t e fun i j => (y i j).fl)) ∧
     (∀ k : BitVec 4, n = k.toNat → r.part = s.cur.part → (s.cur.ordered = true → s.oldest = true) →
       exec (.gspr d k) s = .next { s with
         regions := AMap.put s.regions n { r with spread := [] },
         cur := (s.cur.wr d (BitVec.ofNat 64 (r.spread.foldl (fun x y => max x y.2.toNat) 0))).retire }))

/-- Gossip control (R430, R431, R432, R410): a region that is not the partition's reads as undefined; gquiet waits until
nothing of the region is outstanding; gstep gives 3 where there is no round to make, 1 where the round is another, and ends a
round whose messages are all resolved; gctl needs privileged mode and defines, undefines, reads and clears. That another
partition's region reads as undefined, and what a hart sees whose round another ended, are the model's readings (log 56, 57). -/
def Obligations.GossipControl : Prop :=
  ∀ (s : State) (d a : GReg) (n : BitVec 4), s.Plain → s.part = .tl460 →
    (s.cur.priv = false →
      TrapsIllegal (.gctlDefine d a n) s ∧ TrapsIllegal (.gctlUndefine d a n) s ∧ TrapsIllegal (.gctlStatus d a n) s ∧
      TrapsIllegal (.gctlStatusClear d a n) s) ∧
    (s.ownRegion n.toNat = none → (s.cur.ordered = true → s.oldest = true) →
      Does (.gspr d n) s d 0 ∧ exec (.gquiet n) s = .next { s with cur := s.cur.retire } ∧ Does (.gstep d a n) s d 3 ∧
      (s.cur.priv = true → Does (.gctlUndefine d a n) s d 1 ∧ Does (.gctlStatus d a n) s d 0 ∧
        Does (.gctlStatusClear d a n) s d 0)) ∧
    (s.cur.priv = true → s.cur.ordered = false →
      ((AMap.find? s.regions n.toNat).isSome = true → Does (.gctlDefine d a n) s d 1) ∧
      (AMap.find? s.regions n.toNat = none → s.raceFree → s.cur.behind = [] → ∀ bs, s.sees .load (s.cur.rd a) 64 = some bs →
        let desc := (List.range 8).map fun k => leWord ((bs.drop (8 * k)).take 8)
        (regionFits desc = false → LoadDoes (.gctlDefine d a n) s d 2) ∧
        (regionFits desc = true → regionPages s s.cur.part (fieldOf desc 0 0 56) (fieldOf desc 1 0 32) = none →
          LoadDoes (.gctlDefine d a n) s d 3) ∧
        (∀ pages, regionFits desc = true → regionPages s s.cur.part (fieldOf desc 0 0 56) (fieldOf desc 1 0 32) = some pages →
          (((descSlots desc).all fun x => s.liveLink x.1 && s.liveLink x.2) = false →
            LoadDoes (.gctlDefine d a n) s d 4) ∧
          (((descSlots desc).all fun x => s.liveLink x.1 && s.liveLink x.2) = true → s.replaying s.cur.part = false →
            ∃ t, exec (.gctlDefine d a n) s = .next t ∧ Retired s t ∧ t.cur.rd d = 0 ∧
              (∀ q, q ≠ d → t.cur.rd q = s.cur.rd q) ∧ (∀ x, t.byte x = s.byte x) ∧
              AMap.find? t.regions n.toNat = some (regionOf s.cur.part desc pages))))) ∧
    (∀ r, s.ownRegion n.toNat = some r → s.cur.ordered = false →
      let open_ := (s.sent.filter fun m => m.region == n.toNat).length + r.held.length
      let status : Word := BitVec.ofNat 64 (r.rnd.toNat % 2 ^ 32 * 2 ^ 32 + min open_ 0xFFFF * 2 ^ 16 +
        (if r.lost then 8 else 0) + (if r.ovf then 4 else 0) + (if r.mode then 2 else 0) + 1)
      (open_ = 0 → exec (.gquiet n) s = .next { s with cur := s.cur.retire }) ∧
      (open_ ≠ 0 → exec (.gquiet n) s = .next { s with cur := { s.cur with
        wait := some (.gquiet n.toNat false), since := s.now } }) ∧
      (r.mode = false → Does (.gstep d a n) s d 3) ∧
      (r.mode = true → s.cur.rd a ≠ r.rnd → Does (.gstep d a n) s d 1) ∧
      (r.mode = true → s.cur.rd a = r.rnd → r.npg ≤ r.halved → s.roundDone n.toNat r = true →
        exec (.gstep d a n) s = .next { s with
          regions := AMap.put s.regions n.toNat { r with rnd := r.rnd + 1, halved := 0, got := [], roundLoss := false },
          cur := (s.cur.wr d (if r.roundLoss = true ∨ ∃ p, p < r.npg ∧ p ∉ r.got then 2 else 0)).retire }) ∧
      (s.cur.priv = true →
        Does (.gctlStatus d a n) s d status ∧
        exec (.gctlStatusClear d a n) s = .next { s with
          regions := AMap.put s.regions n.toNat { r with ovf := false, lost := false }, cur := (s.cur.wr d status).retire } ∧
        (open_ = 0 → ∃ t, exec (.gctlUndefine d a n) s = .next t ∧ t.cur = (s.cur.wr d 0).retire ∧
          AMap.find? t.regions n.toNat = none ∧ SamePackage s { t with regions := s.regions })))

/-- The waits that other harts or time end (R124, R140, R142): a hart passes bar and bar.ph at once where every other hart of
its group that has not exited has arrived, which releases them too, else it waits; bar.ph first commits as ph does; sleep
waits for its deadline, and 0 does not wait. lnch and qput (R143, R447, R435, R133): the packet waits where the buffer is full, else the words at the aligned address go
behind the packets of the queue, a launch packet with the package's next launch id, which lnch gives; a queue that takes no
packets gives 0 and 1. ctxsv and ctxld (R400, R401, R397, R184): outside privileged mode they take the illegal-instruction
trap; they give 1 where no such hart is there, 2 where it stands otherwise, 4 where its frame cannot be reached; else the
other hart is saved, or continues with its registers as they were. -/
def Obligations.WaitsPacketsContexts : Prop :=
  (∀ (s : State) (d a : GReg) (n : BitVec 2), s.Plain → s.cur.ordered = false →
     let mine : Hart → Bool := fun h => h.lid == s.cur.lid && h.grp == s.cur.grp && h.status != .exited
     let last := (s.rest.filter mine).all (Hart.atBar n.toNat)
     let ns := ((s.cur.rd a).extractLsb' 0 32).toNat
     (last = true → ∃ t, exec (.bar n) s = .next t ∧ Retired s t ∧ t.cur.bare.ctx = s.cur.bare.ctx ∧
       (∀ q, t.cur.rd q = s.cur.rd q) ∧ SamePackage s { t with rest := s.rest } ∧
       t.rest = s.rest.map fun h => if mine h then h.passBar n.toNat else h) ∧
     (last = false → exec (.bar n) s = .next { s with cur := { s.cur with
       wait := some (.bar n.toNat false none), since := s.now } }) ∧
     (s.Committing → ((s.commitTask 0).beginAfter).Roomy → last = true →
       ∃ t, exec (.barPh d n) s = .next t ∧ Committed s t ∧ Retired s t ∧
         t.cur.rd d = (if d = 0 then 0 else BitVec.ofNat 64 (s.commits + 1)) ∧ ∀ q, q ≠ d → t.cur.rd q = s.cur.rd q) ∧
     (ns = 0 → exec (.sleep a) s = .next { s with cur := s.cur.retire }) ∧
     (ns ≠ 0 → exec (.sleep a) s = .next { s with cur := { s.cur with wait := some (.sleep (s.now + ns)), since := s.now } }) ∧
     (∀ (u : State) (w : Nat), u.cur.status = .running → u.cur.wait = some (.sleep w) → w ≤ u.now →
       exec (.sleep a) u = .next { u with cur := u.cur.retire })) ∧
  (∀ (s : State) (d a : GReg) (q : BitVec 6), s.Plain → s.raceFree → s.cur.behind = [] → s.cur.ordered = false →
     (∀ bs, s.sees .load (s.cur.rd a &&& ~~~0x3F) 64 = some bs →
       (s.openQueue s.cur.part q.toNat = none → LoadDoes (.lnch d a q) s d 0) ∧
       (∀ x, s.openQueue s.cur.part q.toNat = some x → 256 ≤ x.used → ∃ t, exec (.lnch d a q) s = .next t ∧
         t.cur.wait = some .lnch ∧ t.cur.ctx = s.cur.ctx ∧ t.parts = s.parts) ∧
       (∀ x, s.openQueue s.cur.part q.toNat = some x → x.buf = [] → x.skip = 0 →
         ∃ t y, exec (.lnch d a q) s = .next t ∧ Retired s t ∧ t.cur.rd d = (if d = 0 then 0 else BitVec.ofNat 64 s.nextLid) ∧
           (∀ r, r ≠ d → t.cur.rd r = s.cur.rd r) ∧ t.nextLid = s.nextLid + 1 ∧ (∀ b, t.byte b = s.byte b) ∧
           t.openQueue s.cur.part q.toNat = some y ∧
           y.buf = [{ words := [1, 0, 0, 0, 0, 0, 0, 0] ++ wordsOf 8 bs, level := 0, lid := s.nextLid, by_ := some s.cur.hid,
                      rep := false, form := .plain }])) ∧
     (∀ bs, s.sees .load (s.cur.rd a &&& ~~~0x7F) 128 = some bs →
       (s.openQueue s.cur.part q.toNat = none → LoadDoes (.qput d a q) s d 1) ∧
       (∀ x, s.openQueue s.cur.part q.toNat = some x → 256 ≤ x.used → ∃ t, exec (.qput d a q) s = .next t ∧
         t.cur.wait = some (.qput q.toNat (wordsOf 16 bs)) ∧ t.cur.ctx = s.cur.ctx ∧ t.parts = s.parts) ∧
       (∀ x, s.openQueue s.cur.part q.toNat = some x → x.buf = [] → x.skip = 0 → kindOf (wordsOf 16 bs) ≠ 1 →
         ∃ t y, exec (.qput d a q) s = .next t ∧ Retired s t ∧ t.cur.rd d = 0 ∧ (∀ r, r ≠ d → t.cur.rd r = s.cur.rd r) ∧
           t.openQueue s.cur.part q.toNat = some y ∧
           y.buf = [{ words := wordsOf 16 bs, level := 0, lid := 0, by_ := some s.cur.hid, rep := false, form := .plain }]))) ∧
  (∀ (s : State) (d a : GReg), s.Plain → (s.harts.map Hart.hid).Nodup →
     (s.cur.priv = false → TrapsIllegal (.ctxsv d a) s ∧ TrapsIllegal (.ctxld d a) s) ∧
     (s.cur.priv = true →
       (s.targetOf (s.cur.rd a) = none → Does (.ctxsv d a) s d 1 ∧ Does (.ctxld d a) s d 1) ∧
       (∀ h, s.targetOf (s.cur.rd a) = some h →
         (h.isSaved = true → Does (.ctxsv d a) s d 2) ∧ (h.isSaved = false → Does (.ctxld d a) s d 2) ∧
         (h.isSaved = false → s.frameOk h = false → Does (.ctxsv d a) s d 4) ∧
         (h.isSaved = true → s.frameOk h = false → Does (.ctxld d a) s d 4) ∧
         (h.isSaved = true → s.frameOk h = true → s.frameFits h false = false → Does (.ctxld d a) s d 3) ∧
         (h.status = .running → h.sq = [] → h.midPair = false → h.hstep = 0 → s.frameOk h = true →
           ∃ t u, exec (.ctxsv d a) s = .next t ∧ Retired s t ∧ t.cur.rd d = 0 ∧ (∀ r, r ≠ d → t.cur.rd r = s.cur.rd r) ∧
             t.hart? h.hid = some u ∧ u.status = .saved ∧ u.ctx = h.ctx ∧ u.ver = h.ver ∧
             (∀ b, s.inFrame h false b = false → t.byte b = s.byte b) ∧
             heldBy (t.core h.core).lat h.slot = 0) ∧
         (h.status = .saved → h.room = true → h.owed = none → h.redo = none → s.frameOk h = true → s.frameFits h false = true →
           (∀ g, (s.aimAt h.core fun x => x.hid == h.hid).hart? h.hid = some g →
             (s.aimAt h.core fun x => x.hid == h.hid).canResume g = true) →
           ∃ t u, exec (.ctxld d a) s = .next t ∧ Retired s t ∧ t.cur.rd d = 0 ∧ (∀ r, r ≠ d → t.cur.rd r = s.cur.rd r) ∧
             t.hart? h.hid = some u ∧ u.status = .running ∧ u.ctx = h.ctx ∧ u.ver = h.ver ∧ ∀ b, t.byte b = s.byte b))))

/-- Events of a hart (R142, R269, R272, R228, R244, R257, R130, R397, R399, R278), wherever it stands: a wait that has ended
is executed once more and completes; the oldest ordered task commits at its ph, commit service or exit; a retired store is
written into the version, or its permission fault is recorded and trapped at the boundary where the hart stands, or firmware
commits to make room for it; the sequencer serves one position of the hart that R130 chooses among those eligible in the cycle,
which are the event's (log 35), and what an instruction before a service call writes is in the handler frame too (log 48); a hart, or on another core its group, is saved and resumes as it was, and its tiles and slice
go to a save area and come back or are lost there (log 46). The waits for a turn that an event ends are the model's list (log
78). -/
def Obligations.HartEvents : Prop :=
  ∀ (s : State) (h : Nat),
    let u := s.focus h
    (s.runsFront h →
      (∀ a n t, u.standsAt (.sleep a) t → u.cur.stepping = none → u.cur.wait = some (.sleep n) → n ≤ u.now →
        Happens (.sleepDeadline h) s { t with cur := t.cur.retire }) ∧
      (∀ (d base ix : GReg) sz sc off cond w (got : Word × Nat) t, u.cur.stepping = none → u.standsAt (.wait d base ix sz sc off cond) t → u.Unlogged → u.cur.vq = [] →
        u.cur.wait = some (.word w (some got)) →
        ∃ r, exec (.wait d base ix sz sc off cond) t = .next r ∧ Happens (.waitSatisfied h) s r ∧
          let sext : Word → Word := fun y => match sz with | .w => (y.extractLsb' 0 32).signExtend 64 | .d => y
          r.cur.rd d = (if d = 0 then 0 else sext got.1)) ∧
      (∀ (d a : GReg) t, u.cur.wait = some .turn → ({ u with cur := { u.cur with wait := none } } : State).Committing →
        u.cur.ordered = true → u.oldest = true → u.cur.trap.hdl = false → u.cur.stepping = none → u.rest = [] →
        let commits : Word → State → Prop := fun pts r =>
          Happens (.orderedCommitTurn h) s r ∧ r.commits = u.commits + 1 ∧ VersionWritten u r ∧ r.cur.pts = pts ∧
            r.cur.rd d = if d = 0 then 0 else BitVec.ofNat 64 (u.commits + 1)
        (u.standsAt (.ph d) t → u.cur.pts ≠ BitVec.allOnes 64 → ∃ r, commits (u.cur.pts + 1) r) ∧
        (u.standsAt (.phTimestamp d a) t → u.cur.pts.toNat < (u.cur.rd a).toNat → ∃ r, commits (u.cur.rd a) r) ∧
        (u.standsAt (.sys 0x800003) t → d = 1 → u.cur.pts ≠ BitVec.allOnes 64 → ∃ r, commits (u.cur.pts + 1) r) ∧
        (u.standsAt .exit t → u.cur.copiesDone = true →
          ∃ r, Happens (.orderedCommitTurn h) s r ∧ r.commits = u.commits + 1 ∧ VersionWritten u r ∧
            ∀ x ∈ r.harts, x.hid = h → x.status = .exited)) ∧
      (∀ x l ps, u.cur.sq = x :: l → u.cur.vq = [] → u.cur.behind = [] → u.cur.due = .nothing → stageOff x.ea = none →
        resolveRange u u.cur .store x.ea x.bytes.length = .ok ps → (∀ p ∈ ps, p.cls = 0) → (ps.map Phys.pa).Nodup →
        (overflows u u.cur ps = false →
          ∃ t, Happens (.storePerformed h) s t ∧ t.cur.sq = l ∧ t.cur.ctx = u.cur.ctx ∧ t.cur.status = .running ∧
            t.rest = u.rest ∧ (∀ b, t.byte b = u.byte b) ∧
            ∀ b, (AMap.find? t.cur.ver b) =
              (AMap.find? ((ps.map Phys.pa).zip x.bytes) b <|> AMap.find? u.cur.ver b)) ∧
        (({ u with cur := { u.cur with sq := [] } } : State).Committing → overflows u u.cur ps = true →
          u.cur.ordered = false → (u.cur.handlerOpen && u.cur.ctx.thmask.getLsbD 2) = false → l = [] →
          u.cur.sfq.length < 16 → u.cur.sfHeld = [] →
          let r := ({ u with cur := u.cur.recordFault x.storeId x.ea 5 } : State).firmwareCommit
          r.Roomy → overflows r r.cur ps = false →
          ∃ t, Happens (.firmwareCommit h) s t ∧ t.commits = u.commits + 1 ∧ t.cur.ovf = true ∧ t.cur.sq = [] ∧
            t.cur.frame.firmware = true ∧ t.cur.frame.pc = u.cur.ctx.pc ∧ t.cur.ctx = u.cur.ctx ∧
            t.cur.sfq = u.cur.sfq ++
              [{ addr := x.ea, opc := x.opc, iter := x.iter, w3 := storeFaultWord3 5 0 (u.cur.retired - x.at_) }] ∧ VersionWritten u t)) ∧
      (∀ x l a, u.cur.sq = x :: l → u.cur.vq = [] → u.cur.due = .nothing → stageOff x.ea = none →
        resolveRange u u.cur .store x.ea x.bytes.length = .error (a, .perm) →
        Happens (.storeFaultReport h) s
          (({ u with free := u.free + 1, cur := { u.cur.recordFault x.storeId a 1 with sq := l } } : State).takeTrap 17 a x.opc
            (u.cur.retired - x.at_))) ∧
      (∀ core idle op, s.servedNext core h idle → u.cur.vq = [op] → op.pos < op.len → op.len = op.nr * op.vl → op.nr ≤ 8 →
        op.vl ≤ 1024 → u.spots = [] → u.cur.due = .nothing →
        let r := op.pos / op.vl
        let j := op.pos % op.vl
        let rm := RM.ofBits u.cur.ctx.rm
        let code : VReg → Nat := fun g => (u.cur.slotV g.toNat r j).toNat
        let sgn : Nat → Nat → Int := fun w x => if 2 ^ w ≤ 2 * x then (x : Int) - (2 ^ w : Nat) else x
        let served : (State → Prop) → Prop := fun q => ∃ t, Happens (.elementGroupAdvance ⟨core, idle⟩) s t ∧ SamePackage u t ∧
          t.cur.vq = (if op.pos + 1 < op.len then [{ op with pos := op.pos + 1, served := u.now }] else []) ∧
          { t.cur.bareVec with hframe := none } = { u.cur.bareVec with vq := t.cur.vq, hframe := none } ∧
          (op.call = false → t.cur.hframe = u.cur.hframe) ∧
          (op.call = true → ∀ f, u.cur.hframe = some f → ∃ f', t.cur.hframe = some f' ∧ f'.ctx.v = t.cur.ctx.v ∧
            f'.ctx.m = t.cur.ctx.m) ∧
          (∀ g, t.cur.rd g = u.cur.rd g) ∧ q t
        let one : VReg → Option MReg → Option MReg → Slot → BitVec 5 → Prop := fun d x e y fl => served fun t =>
          let on := u.cur.active e r j
          (∀ reg i k, i < 8 → k < 1024 → t.cur.slotV reg i k =
            if reg = d.toNat ∧ i = r ∧ k = j ∧ on = true then y else u.cur.slotV reg i k) ∧
          (∀ reg i k, i < 8 → k < 1024 → t.cur.bitM reg i k =
            if x.map BitVec.toNat = some reg ∧ i = r ∧ k = j then (if on then excBit fl else 0) else u.cur.bitM reg i k) ∧
          t.cur.ctx.fflags = u.cur.ctx.fflags ||| if on then fl else 0
        let bit : MReg → Option MReg → BitVec 1 → Prop := fun d e y => served fun t =>
          (∀ reg i k, i < 8 → k < 1024 → t.cur.slotV reg i k = u.cur.slotV reg i k) ∧
          (∀ reg i k, i < 8 → k < 1024 → t.cur.bitM reg i k =
            if reg = d.toNat ∧ i = r ∧ k = j ∧ u.cur.active e r j = true then y else u.cur.bitM reg i k) ∧
          t.cur.ctx.fflags = u.cur.ctx.fflags
        ∀ (f src : Fmt) (d a b c : VReg) (m n k : MReg) (x e : Option MReg),
          (∀ ff, fmtFloat f = some ff →
            let v : VReg → FVal := fun g => ff.decode (code g)
            let float : Instr → FRes → Prop := fun i y => op.i = i → one d x e (codeSlot f y.code) y.fl
            float (.vaddFloat f d a b x e) (ff.add rm (v a) (v b)) ∧ float (.vsubFloat f d a b x e) (ff.sub rm (v a) (v b)) ∧
            float (.vmulFloat f d a b x e) (ff.mul rm (v a) (v b)) ∧ float (.vdiv f d a b x e) (ff.div rm (v a) (v b)) ∧
            float (.vfma f d a b c x e) (ff.fma rm (v a) (v b) (v c)) ∧ float (.vsqrt f d a x e) (ff.sqrt rm (v a))) ∧
          (f.isVInt = true →
            let w := fmtWidth f
            let y : VReg → Nat := fun g => code g % 2 ^ w
            let v : VReg → Int := fun g => if fmtSigned f then sgn w (y g) else y g
            let int : Instr → Int → Prop := fun i z => op.i = i → one d x e (intSlot f z) 0
            int (.vaddInt f d a b x e) (v a + v b) ∧ int (.vsubInt f d a b x e) (v a - v b) ∧
            int (.vmulInt f d a b x e) (v a * v b) ∧ int (.vand f d a b x e) (y a &&& y b : Nat) ∧
            int (.vor f d a b x e) (y a ||| y b : Nat) ∧ int (.vxor f d a b x e) (y a ^^^ y b : Nat) ∧
            (op.i = .vcmpltInt f m a b none e → bit m e (BitVec.ofBool (decide (v a < v b))))) ∧
          (op.i = .vcvt f d a src x e →
            one d x e (convert f src rm (code a)).slot (convert f src rm (code a)).fl) ∧
          (op.i = .vmv d a e → one d none e (u.cur.slotV a.toNat r j) 0) ∧
          (op.i = .vsel d a b m e →
            one d none e (if u.cur.bitM m.toNat r j = 1 then u.cur.slotV a.toNat r j else u.cur.slotV b.toNat r j) 0) ∧
          (op.i = .mand m n k e → bit m e (u.cur.bitM n.toNat r j &&& u.cur.bitM k.toNat r j))) ∧
      (u.cur.sq = [] → u.cur.midPair = false → u.cur.hstep = 0 → u.frameOk u.cur = true →
        ∃ t, Happens (.preemption h) s t ∧ t.cur.status = .saved ∧ t.cur.ctx = u.cur.ctx ∧ t.cur.ver = u.cur.ver ∧
          t.cur.vq = u.cur.vq ∧ t.cur.frame = u.cur.frame ∧ t.rest.map Hart.ctx = u.rest.map Hart.ctx ∧
          (∀ b, u.inFrame u.cur false b = false → t.byte b = u.byte b) ∧ heldBy (t.core u.cur.core).lat u.cur.slot = 0)) ∧
    (u.cur.hid = h → u.cur.status = .saved → u.evicted u.cur = false → ∀ core,
      let group := s.groupHarts u.cur.lid u.cur.grp
      (s.harts.map Hart.hid).Nodup →
      (∀ x ∈ group, x.core = u.cur.core ∧ x.idx < (s.slotsFree core).length ∧ x.owed = none ∧ x.redo = none ∧
        u.frameFits x false = true) →
      (u.cur.owed = none → u.cur.redo = none → u.frameFits u.cur false = true → u.cur.core = core → u.cur.room = true →
        let r := u.aimAt core fun x => x.hid == h
        ∃ t, Happens (.contextResume h core) s t ∧ t.cur.ctx = u.cur.ctx ∧ t.cur.vq = u.cur.vq ∧ t.cur.ver = u.cur.ver ∧
          (∀ b, t.byte b = u.byte b) ∧ t.cur.status = if r.canResume r.cur then .running else .saved) ∧
      (∀ l, AMap.find? u.launches u.cur.lid = some l → u.cur.core ≠ core → u.mayTake l u.cur.grp core = true →
        ∃ t, Happens (.contextResume h core) s t ∧ (∀ b, t.byte b = u.byte b) ∧
          (∀ x ∈ group, ∃ y ∈ t.harts, y.hid = x.hid ∧ y.ctx.g = x.ctx.g ∧ y.ctx.pc = x.ctx.pc ∧ y.ver = x.ver) ∧
          ((∀ y ∈ t.groupHarts u.cur.lid u.cur.grp, y.core = core ∧ y.room = true ∧ y.status = .running) ∨
            (∀ y ∈ t.groupHarts u.cur.lid u.cur.grp, y.core ≠ core ∧ y.target = some core ∧ y.status = .saved)))) ∧
    (∀ (lid grp area : Nat), s.groupHarts lid grp ≠ [] → s.groupSaved lid grp = true →
      (∃ x ∈ s.groupHarts lid grp, x.room = true) →
      let n := ((s.groupHarts lid grp).map Hart.areaBytes).sum
      areaOk s.part area (max 1 n) = true →
      ∃ t, exec (.tileLazySave lid ⟨grp, area⟩) s = .next t ∧
        (∀ x ∈ t.harts, x.lid = lid → x.grp = grp → x.status ≠ .exited → x.room = false ∧ x.emptyHere = true) ∧
        t.harts.map Hart.ctx = s.harts.map Hart.ctx ∧ t.harts.map Hart.xents = s.harts.map Hart.xents ∧
        (t.harts.map fun x => x.tiles.map fun y => (y.p, y.a)) = (s.harts.map fun x => x.tiles.map fun y => (y.p, y.a)) ∧
        ∀ b, b < area ∨ area + n ≤ b → t.byte b = s.byte b) ∧
    (u.cur.hid = h → u.cur.status ≠ .absent → u.cur.room = true →
      let reads : Nat → Nat → Nat → Bool := fun pa n l => decide (pa < l * 64 + 64) && decide (l * 64 < pa + n)
      (∀ k x pa, u.cur.tiles[k]? = some x → x.place = .away pa →
        ((∀ l ∈ u.bad, reads pa (640 * u.cur.tw) l = false) → Happens (.tileReload h k) s { u with cur := { u.cur with
          tiles := u.cur.tiles.set k { x with place := .here } } }) ∧
        (∀ l, u.bad.find? (reads pa (640 * u.cur.tw)) = some l → Happens (.tileReload h k) s { u with cur := { u.cur with
          tiles := u.cur.tiles.set k { x with place := .failed (l * 64) } } })) ∧
      (∀ pa, u.cur.xPlace = .away pa → (∀ l ∈ u.bad, reads pa (16 * u.cur.xcap) l = false) →
        Happens (.tileReload h u.cur.tiles.length) s { u with cur := { u.cur with xPlace := .here } }))

/-- Events of a debugger (R379, R380, R381, R404, R161): a breakpoint set or removed; a hart that stops, at a breakpoint or
where the debugger interrupts it, keeps every register and reports what its packets and copies told it; it steps or resumes,
with registers written while it stood, and a brk is passed; no interrupt falls between the words of one instance (R76). A hart of a sealed launch does not stop. Where a hart goes on from
a brk is the model's reading (log 74). -/
def Obligations.DebugEvents : Prop :=
  ∀ (s : State) (p h : Nat) (pc : BitVec 64) (add issue : Bool) (edits : List RegEdit),
    let u := s.focus h
    let stopped : StopAt → State := fun a => { u with
      cur := { u.cur with status := .stopped a, evts := [], stepping := none },
      out := u.out ++ [.debug u.cur.hnum 0 u.cur.evts] }
    let moded := (u.onPart u.cur.part fun x => { x with stepIssue := issue }).parts
    (∀ x, AMap.find? s.parts p = some x →
      ∃ t y, exec (.breakpointSet p pc add) s = .next t ∧ AMap.find? t.parts p = some y ∧
        y = { x with breaks := y.breaks, debug := true } ∧ { t with parts := s.parts } = s ∧
        ∀ k, k ∈ y.breaks ↔ if add = true then k = pc ∨ k ∈ x.breaks else k ≠ pc ∧ k ∈ x.breaks) ∧
    (u.cur.hid = h → u.cur.sealed = none →
      (u.cur.status = .running →
        (u.atBreakpoint = true → Happens (.breakpointStop h) s (stopped .point)) ∧
        ∀ x, AMap.find? s.parts u.cur.part = some x → u.cur.midPair = false → Happens (.debuggerInterrupt h) s
          { stopped .plain with parts := AMap.put s.parts u.cur.part { x with debug := true } }) ∧
      (∀ a, u.cur.status = .stopped a →
        (a ≠ .brk → Happens (.singleStep h issue) s { u with parts := moded, cur := { u.cur with
          status := .running, stepping := some issue, stepPc := u.cur.ctx.pc, stepIter := u.cur.ctx.iter, pass := true } }) ∧
        (a = .brk → Happens (.singleStep h issue) s { stopped .plain with
          parts := moded, cur := { u.cur.retire with status := .stopped .plain, evts := [], stepping := none } }) ∧
        (edits.all editOk = true →
          ∃ t, Happens (.debuggerResume h edits) s t ∧ t.cur.status = .running ∧ SamePackage u { t with spots := u.spots } ∧
            (edits = [] → t.cur =
              if a = .brk then { u.cur.retire with status := .running } else { u.cur with pass := true, status := .running }) ∧
            (∀ i v, edits = [.g i v] → ∀ d, t.cur.rd d = if d = 0 then 0 else if d = i then v else u.cur.rd d) ∧
            (∀ v, edits = [.nr v] → t.cur.ctx.nr = v) ∧ (∀ v, edits = [.frm v] → t.cur.ctx.rm = v) ∧
            ((edits.foldl Hart.edit u.cur).ctx ≠ u.cur.ctx → t.cur.ctx.resid = none)))) ∧
    (u.cur.hid = h → u.cur.sealed ≠ none →
      exec (.breakpointStop h) s = .refused (.notEnabled "BREAKPOINT_STOP") ∧
      exec (.debuggerInterrupt h) s = .refused (.notEnabled "DEBUGGER_INTERRUPT")) ∧
    (u.cur.status = .running → u.cur.midPair = true →
      exec (.debuggerInterrupt h) s = .refused (.notEnabled "DEBUGGER_INTERRUPT"))

/-- Power and budget events (R165 to R167, R174, R177, R178, R21, R22): at a boundary each die gives its harts the offers of
R167 for what the event measured (a measured cost counts at least the model's Config.costMin, log 18), budgets are set anew
and the emergency step falls; a hart that over-holds past the limit takes hold step 7; an alarm raises the step; the thermal
step moves with the reading; envelope, budgets and limits take the values set. How periods are counted, and the weight of a
saved hart in the offers, are the model's readings (log 59). -/
def Obligations.PowerEvents : Prop :=
  ∀ (s : State) (ms : List DieMeasure) (h die reading watts unit val : Nat) (div : List Nat),
    let n := match s.part with | .tl460 => 4 | .tl430 => 2
    let kept : State → Prop := fun t => t.harts.map Hart.ctx = s.harts.map Hart.ctx
    (∃ t, exec (.powerPeriodBoundary ms) s = .next t ∧ t.pnum = s.pnum + 1 ∧ t.now = max s.now (1000 * (s.pnum + 1)) ∧ kept t ∧
      (∀ d, (t.die d).alarm = false ∧ (t.die d).tstep = (s.die d).tstep ∧
        (t.die d).estep = if (s.die d).alarm then (s.die d).estep else (s.die d).estep - 1) ∧
      ((s.harts.map Hart.hid).Nodup → ∀ x ∈ s.harts, (∀ c ∈ x.chans, c.flight = []) → ∃ y, t.hart? x.hid = some y ∧
        y.chans = x.chans.map fun c => { c with left := (x.cbud * 1024 : Nat) + min c.left 0 }) ∧
      ((s.harts.map Hart.hid).Nodup → ∀ d, d < n → ∀ l ∈ s.offerLines ms d, ∃ x, t.hart? l.hid = some x ∧
        x.offer = offerOf (s.offerLines ms d) (s.dieBudget d - nonlane ms d) l)) ∧
    (∀ x since, s.hart? h = some x → x.overSince = some since → s.overHolding x = true →
      since + 1000 * s.holdLimit x ≤ s.now → x.hstep ≠ 7 →
      ∃ t, exec (.laneHoldLimitExpiry h) s = .next t ∧ kept t ∧ ∀ y ∈ t.harts, y.hid = h → y.hstep = 7) ∧
    (die < n →
      (∃ t, exec (.currentAlarm die) s = .next t ∧ kept t ∧ (t.die die).alarm = true ∧
        (t.die die).estep = max (s.die die).estep s.alarmStep ∧ ∀ d, d ≠ die → (t.die d).estep = (s.die d).estep) ∧
      (∃ t, exec (.thermalStepTick die reading) s = .next t ∧ kept t ∧
        (∀ d, d ≠ die → (t.die d).tstep = (s.die d).tstep) ∧
        (t.die die).tstep =
          if s.tlim + 10 ≤ reading then 7
          else if s.tlim ≤ reading then min 7 ((s.die die).tstep + 1)
          else if reading + 3 ≤ s.tlim then (s.die die).tstep - 1
          else (s.die die).tstep)) ∧
    (900 ≤ watts → watts ≤ 1600 → watts % 25 = 0 → (div = [] ∨ (div.length = n ∧ div.sum ≤ 1000 * watts)) →
      ∃ t, exec (.envelopeSet watts div) s = .next t ∧ t.envelope = watts ∧
        { t with dies := s.dies, envelope := s.envelope } = s ∧
        ∀ d, d < n → t.dieBudget d = if div = [] then 1000 * watts / n else div.getD d 0) ∧
    (unit < n → 1 ≤ val → val ≤ 64 → ∃ t, exec (.budgetSet 0 unit val) s = .next t ∧ { t with dies := s.dies } = s ∧
      t.die unit = { s.die unit with trBudget := val } ∧ ∀ d, d ≠ unit → t.die d = s.die d) ∧
    (unit < 2 * n → 8 ≤ val → val ≤ 1024 → exec (.budgetSet 1 unit val) s = .next { s with
      scrubs := AMap.put s.scrubs unit (val, ((AMap.find? s.scrubs unit).getD (64, 64)).2) }) ∧
    (unit < n → val ≤ 64 → ∃ t, exec (.budgetSet 2 unit val) s = .next t ∧ { t with dies := s.dies } = s ∧
      t.die unit = { s.die unit with migBudget := val } ∧ ∀ d, d ≠ unit → t.die d = s.die d) ∧
    (∀ x, AMap.find? s.parts unit = some x → 1 ≤ val → val ≤ 255 →
      exec (.powerFirmwareLimitsSet 0 unit val) s = .next { s with parts := AMap.put s.parts unit { x with holdLim := val } }) ∧
    (1 ≤ val → val ≤ 7 → exec (.powerFirmwareLimitsSet 1 unit val) s = .next { s with alarmStep := val }) ∧
    (85 ≤ val → val ≤ 105 → exec (.powerFirmwareLimitsSet 2 unit val) s = .next { s with tlim := val })

/-- Events of system software, the management cores and the memory system (R438, R448, R458, R460, R466, R435, R295, R225,
R21, R27, R28, R453): each sets just what it names. A restart changes nothing; mailboxes hold sixteen messages, and an empty
one is the acknowledgement (log 40). The details of these events that the spec leaves to the firmware are the model's (log
75). -/
def Obligations.AdminEvents : Prop :=
  ∀ (s : State) (c src dst lid stream upto die base size h ch p va level link fails stack port pa file reg row j : Nat)
    (msg : List Nat) (setup : RecSetup) (x : PartSetup) (lines : List Nat),
    let n := match s.part with | .tl460 => 4 | .tl430 => 2
    (c < 8 → exec (.mgmtCoreRestart c) s = .next s) ∧
    (src < 8 → dst < 8 → src ≠ dst →
      let box := (AMap.find? s.mail (8 * src + dst)).getD []
      (msg.length = 64 → (∀ b ∈ msg, b < 256) → box.length < 16 →
        exec (.mailboxMessage src dst msg) s = .next { s with mail := AMap.put s.mail (8 * src + dst) (box ++ [msg]) }) ∧
      (∀ m l, box = m :: l →
        exec (.mailboxMessage src dst []) s = .next { s with mail := AMap.put s.mail (8 * src + dst) l })) ∧
    (s.lidOpen lid = true → AMap.find? s.launches lid = none → lid ≠ 0 → setup.base % 8 = 0 → 16 ≤ setup.bytes →
      setup.bytes % 16 = 0 → exec (.recordStart lid setup) s = .next { s with recs := AMap.put s.recs lid setup }) ∧
    (∀ l, AMap.find? s.launches lid = some l → l.recMode = 1 → upto % 16 = 0 → l.taken stream ≤ upto / 8 →
      upto / 8 ≤ (l.streamOf stream).length →
      exec (.logDrain lid stream upto) s = .next { s with
        launches := AMap.put s.launches lid { l with consumed := AMap.put l.consumed stream (upto / 8) } }) ∧
    (die < n →
      exec (.traceEnable die base size true) s = .next { s with
        dies := AMap.put s.dies die { s.die die with trEn := true, trBase := base, trSize := size, trPos := 0 } } ∧
      exec (.traceEnable die base size false) s = .next { s with dies := AMap.put s.dies die { s.die die with trEn := false } }) ∧
    (x.part < 4 → AMap.find? s.parts x.part = none → x.root % 4096 = 0 → x.windows.length ≤ 16 →
      (∀ w ∈ x.windows, (∃ k, w.2 = 2 ^ k) ∧ w.1 % w.2 = 0 ∧ w.1 + w.2 ≤ 2 ^ 56) → (∀ k ∈ x.peers, k < 2 ^ 16) →
      (∀ y ∈ s.parts, ∀ k ∈ y.2.peers, k ∉ x.peers) → 1 ≤ x.elog → x.elogAt % 128 = 0 →
      populated s.part x.elogAt = true → populated s.part (x.elogAt + 128 * x.elog - 1) = true →
      ∃ t y, exec (.partitionSetup x) s = .next t ∧ { t with parts := s.parts } = s ∧ AMap.find? t.parts x.part = some y ∧
        (∀ k, k ≠ x.part → AMap.find? t.parts k = AMap.find? s.parts k) ∧ y.root = x.root ∧ y.windows = x.windows ∧
        y.peers = x.peers ∧ y.kx = [] ∧ y.elog = [] ∧ y.fifo = [] ∧ y.breaks = [] ∧ y.elogAt = x.elogAt ∧ y.elogCap = x.elog ∧
        ∀ k, k < 64 → ∃ z, AMap.find? y.queues k = some z ∧ z.en = false ∧ z.stop = false ∧ z.buf = []) ∧
    (∀ y, s.hart? h = some y → ch < 4 → ch < y.chans.length →
      ∃ t z, exec (.cerrClear h ch) s = .next t ∧ t.hart? h = some z ∧ z.ctx = y.ctx ∧ z.chan ch =
        { y.chan ch with errVal := false, errKind := 0, errCnt := 0, errId := 0, loVal := false, loId := 0 }) ∧
    ((AMap.find? s.parts p).isSome = true → va < 2 ^ 56 → level ≤ 4 →
      let n := if level = 0 then (if s.is64K p (va / 4096) then 16 else 1) else 2 ^ (9 * level)
      let lo := p * 2 ^ 44 + va / 4096 / n * n
      ∃ t, exec (.shootdown p ⟨va, level⟩) s = .next t ∧ { t with tlb := s.tlb, dies := s.dies } = s ∧
        ∀ k, AMap.find? t.tlb k = if lo ≤ k % 2 ^ 46 ∧ k % 2 ^ 46 < lo + n then none else AMap.find? s.tlb k) ∧
    (1 ≤ fails → fails ≤ 4 → exec (.linkCrcReplay link fails .none va) s = .next { s with
      linkErrs := AMap.put s.linkErrs link ((AMap.find? s.linkErrs link).getD 0 + fails) }) ∧
    (s.runsFront h → (s.focus h).cur.wait = none → (s.focus h).cur.vq = [] → (s.focus h).cur.midPair = false → ∀ y,
      resolveEa s none (s.focus h).cur.part (s.focus h).cur.sealed .load (BitVec.ofNat 64 va) = .ok y →
      let u := s.focus h
      Happens (.linkCrcReplay link 4 (.hart h) va) s (({ u with
        linkErrs := AMap.put s.linkErrs link ((AMap.find? s.linkErrs link).getD 0 + 4) } : State).takeTrap 21
          (BitVec.ofNat 64 (y.pa / 64 * 64)) u.cur.ctx.pc 0)) ∧
    (let b := (AMap.find? s.scrubs stack).getD (64, 64)
     stack < 2 * n → lines.length ≤ b.2 → (∀ l ∈ lines, l / 2 ^ 36 = stack) → exec (.scrubRead stack lines) s = .next { s with
      scrubs := AMap.put s.scrubs stack (b.1, b.2 - lines.length) }) ∧
    (populated s.part pa = true → isHostMem pa = false →
      ∃ t, exec (.storedDataError (.line pa)) s = .next t ∧ { t with bad := s.bad } = s ∧
        ∀ q, t.badPa q = (s.badPa q || decide (q / 64 = pa / 64))) ∧
    (populated s.part pa = true → isHostMem pa = false → isMainMem pa = true → ∀ cache : Bool,
      let k := if cache then 16 + homeDie pa else pa / 2 ^ 36
      exec (.storedDataError (.corrected cache pa)) s = .next { s with
        eccErrs := AMap.put s.eccErrs k ((AMap.find? s.eccErrs k).getD 0 + 1) }) ∧
    ((s.hart? h).isSome = true → slotExists file reg row j = true →
      exec (.storedDataError (.slot h file reg row j)) s = .next { s with spots := .slot h file reg row j :: s.spots }) ∧
    (s.hostUp = true → exec .hostLinkLost s = .next { s with hostUp := false }) ∧
    (port < n → (∀ l ∈ lines, isSecondTier (l * 64) = true) →
      ∃ t, exec (.cxlLinkDown port lines) s = .next t ∧ { t with bad := s.bad } = s ∧
        ∀ q, t.badPa q = (s.badPa q || decide (q / 64 ∈ lines)))

/-- Reset and the events of security (R471, R468, R469, R470): reset leaves every byte of main and second-tier memory but
those of sealed pages, which are wiped; a change of life cycle wipes both memories; a sealed message is opened into its pages
or refused whole; a report is signed over the machine, the region's text and the nonce; a released region is wiped. Keys,
opening and signing are open (log 16). What reset keeps and what a change of life cycle wipes are the model's readings (log
76, 77). -/
def Obligations.SecurityEvents : Prop :=
  ∀ (s : State) (p r st : Nat) (pages : List Nat) (ident ad msg nonce : List (BitVec 8)),
    (∃ t, exec .packageReset s = .next t ∧ t.launches = [] ∧ t.parts = [] ∧ t.regions = [] ∧ t.sealedRegs = [] ∧
      t.harts = [] ∧ t.now = 0 ∧ t.commits = State.reset.commits ∧ t.lifeCycle = s.lifeCycle ∧
      (∀ k, (AMap.find? t.ports k).isSome = decide (k < match s.part with | .tl460 => 16 | .tl430 => 8)) ∧
      ∀ a, t.byte a = if s.sealedRegs.any (fun x => x.2.pages.contains (a / 4096)) then 0 else s.byte a) ∧
    (st ≠ s.lifeCycle → ∃ t, exec (.lifeCycleChange st) s = .next t ∧ t.lifeCycle = st ∧
      t.harts.map Hart.ctx = s.harts.map Hart.ctx ∧ ∀ a, t.byte a = if isHostMem a then s.byte a else 0) ∧
    ((AMap.find? s.parts p).isSome = true → ident.length = 48 → s.keyGen ≠ 0 → pages.Nodup →
      (∀ k ∈ pages, isMainMem (k * 4096) = true ∧ populated s.part (k * 4096) = true ∧
        ∀ x ∈ s.sealedRegs, k ∉ x.2.pages) →
      let i : Instr := .sealedMessage p pages ⟨ident, ad, msg⟩
      (Config.openSealed s.keyGen ad msg = none → exec i s = .next s) ∧
      (∀ text, Config.openSealed s.keyGen ad msg = some text →
        (ad.take 48 ≠ ident → exec i s = .next s) ∧
        (ad.take 48 = ident → text.length ≤ pages.length * 4096 → pages.length * 4096 < text.length + 4096 →
          ∃ t k x, exec i s = .next t ∧ AMap.find? s.sealedRegs k = none ∧ AMap.find? t.sealedRegs k = some x ∧
            x.part = p ∧ x.pages = pages ∧ x.ident = ident ∧
            (∀ j, j ≠ k → AMap.find? t.sealedRegs j = AMap.find? s.sealedRegs j) ∧
            (∀ i a, i < pages.length → a < 4096 → t.byte (pages.getD i 0 * 4096 + a) = text.getD (i * 4096 + a) 0) ∧
            ∀ b, b / 4096 ∉ pages → t.byte b = s.byte b))) ∧
    (∀ x, AMap.find? s.sealedRegs r = some x →
      (nonce.length = 48 → s.keyGen ≠ 0 →
        let head := wordBytes 8 ((shapeReg s.part false 0xFF).getD 0) ++ wordBytes 8 releaseWord ++ x.ident ++
          sha384 (x.pages.flatMap fun k => s.bytes (k * 4096) 4096) ++ nonce
        exec (.attestationReport r nonce) s = .next { s with free := s.free + 1, out := s.out ++
          [.report (head ++ (toBytes 96 (Config.signature s.keyGen s.free (sha384 head)).toNat).reverse)] }) ∧
      ((∀ y ∈ s.launches, y.2.sealed ≠ some r) →
        ∃ t, exec (.sealedRegionRelease r) s = .next t ∧ AMap.find? t.sealedRegs r = none ∧
          (∀ k, k ≠ r → AMap.find? t.sealedRegs k = AMap.find? s.sealedRegs k) ∧
          ∀ a, t.byte a = if a / 4096 ∈ x.pages then 0 else s.byte a))

/-- Events of pages and copies (R222, R226, R296, R299, R300, R315, R450, R472): the firmware's entry is written where the
walk of an address stops, or the fault is converted for the harts that wait; a page moves to its new frame with its contents
and its entry follows; a copy of a free launch is performed at its completion (log 36), or fails with each 32-byte sector of its destination old or
the copy's; a ring slot that is written is filled; the host reads and writes committed memory inside a window, or gets an error.
Which entry a service may write, and how a migrated page moves, are the model's readings (log 70, 71). -/
def Obligations.PageAndCopyEvents : Prop :=
  ∀ (s : State) (p va h ch id kind core ring n : Nat) (bytes : List (BitVec 8)),
    let covers : Int → Nat → Prop := fun left todo => todo = 0 ∨ (0 < left ∧ (todo : Int) ≤ (left + 1023) / 1024 * 1024)
    (∀ at_ level bad, s.faultAt p va = some (at_, level, bad) →
      (∀ e : Word, pteBad s.part level e = false → pteV e = true → pteP e = true → s.sealedFits p e = true → pteSize e ≠ 1 →
        ∃ t, exec (.pageFaultService p va (.present e)) s = .next t ∧
          (∀ b, t.byte b = s.written ((List.range 8).map (at_ + ·)) (wordBytes 8 e) b) ∧
          (∀ v k, va / 4096 / 2 ^ (9 * level) = v / 2 ^ (9 * level) → k % 2 ^ 46 = p * 2 ^ 44 + v → AMap.find? t.tlb k = none) ∧
          t.harts.map Hart.ctx = s.harts.map Hart.ctx) ∧
      (∃ t, exec (.pageFaultService p va .convert) s = .next t ∧ t.denied = none ∧
        ((∀ x, AMap.find? s.parts p = some x → x.queues = [] ∧ x.fifo = []) → s.launches = [] →
          (∀ x ∈ s.harts, x.flights = []) → (s.harts.map Hart.hid).Nodup →
          ∀ x ∈ s.harts, ∀ w, x.status = .swapped w → x.part = p → w.ea.toNat / 4096 = va / 4096 →
            ∃ y, t.hart? x.hid = some y ∧ y.status = .saved ∧ y.ctx = x.ctx ∧
              y.owed = if x.owed.isSome then x.owed else some (17, w.ea, w.opc, w.at_)))) ∧
    (∀ x at_ e, AMap.find? s.parts p = some x → leafEntry s va 4 x.root = some (at_, e) →
      let k := 2 ^ sizeShift (pteSize e)
      let vpn := va / 4096 / k * k
      let old := ptePpn e
      (isMainMem (old * 4096) = true → isSecondTier (n * 4096) = true → pteCls e ≠ 3 → pteCls e ≠ 1 →
        (∀ v ∈ s.pinnedVpns p, v < vpn ∨ vpn + k ≤ v) →
        (∀ y ∈ s.regions, ∀ a ∈ y.2.pages, a < old * 4096 ∨ (old + k) * 4096 ≤ a) → s.migr = [] →
        populated s.part (n * 4096) = true → n % k = 0 → (s.die (homeDie (old * 4096))).migBudget ≠ 0 →
        exec (.pageMigration p va n) s = .next { s with migr :=
          [{ part := p, vpn := vpn, old := old, new := n, pages := k, die := homeDie (old * 4096), todo := k }] }) ∧
      (∀ m, s.migr = [m] → m.part = p → m.vpn = vpn → m.pages = k → m.old = old → m.new < 2 ^ 40 → Memory.wf s.mem = true →
        m.todo ≤ (s.die m.die).migLeft → s.pinned p vpn old k = false →
        ∃ t, exec (.migrationComplete p va) s = .next t ∧ t.migr = [] ∧
          (∀ a, a < k * 4096 → (m.new * 4096 + a < at_ ∨ at_ + 128 ≤ m.new * 4096 + a) →
            t.byte (m.new * 4096 + a) = s.byte (old * 4096 + a)) ∧
          ptePpn (t.dword at_) = m.new ∧
          (∀ v i, vpn ≤ v → v < vpn + k → i % 2 ^ 46 = p * 2 ^ 44 + v → AMap.find? t.tlb i = none))) ∧
    (∀ x y, s.hart? h = some x → x.transfer ch id = some y → (s.harts.map Hart.hid).Nodup → ch < 4 → x.status ≠ .exited →
      y.ring = none → flgPeer y.flg = false →
      (∀ l, covers (x.chan ch).left y.todo → copyReady s (y.job s x) 0 (y.job s x).moves = .ok l →
        (∀ r ∈ l, r.mask = 0xFF ∧ ∃ pa, r.goal = .mem pa ∧ isHostMem pa = false) → ((memWrites l).map Prod.fst).Nodup →
        ∃ t z, exec (.copyTransferComplete h ch id) s = .next t ∧ t.hart? h = some z ∧ z.ctx = x.ctx ∧ z.ver = x.ver ∧
          (z.chan ch).flight = (x.chan ch).flight.filter (·.id != id) ∧ (z.chan ch).left = (x.chan ch).left - (y.todo : Nat) ∧
          ((z.chan ch).errVal, (z.chan ch).errCnt) = ((x.chan ch).errVal, (x.chan ch).errCnt) ∧
          (x.ordered = false → z.defer = x.defer ∧
            ∀ b, t.byte b = s.written ((memWrites l).map Prod.fst) (l.map Ready.val) b) ∧
          (x.ordered = true → (∀ b, t.byte b = s.byte b) ∧ (x.hasPlace ch id = true → l ≠ [] →
            z.defer = fillPlace ch id [.cells (memWrites l)] x.defer))) ∧
      (kind ≠ 0 → s.mayFail x y kind = true →
        ∃ t z, exec (.copyErrorCompletion h ch id kind) s = .next t ∧ t.hart? h = some z ∧ z.ctx = x.ctx ∧ z.ver = x.ver ∧
          (z.chan ch).flight = (x.chan ch).flight.filter (·.id != id) ∧ (z.chan ch).errVal = true ∧
          (z.chan ch).errKind = (if (x.chan ch).errVal then (x.chan ch).errKind else kind) ∧
          (z.chan ch).errCnt = min ((x.chan ch).errCnt + 1) 255 ∧
          (∀ b, (∀ r ∈ movable s (y.job s x) 0 (y.job s x).moves, r.goal ≠ .mem b) → t.byte b = s.byte b) ∧
          ((∀ r ∈ movable s (y.job s x) 0 (y.job s x).moves, r.mask = 0xFF) →
            ((memWrites (movable s (y.job s x) 0 (y.job s x).moves)).map Prod.fst).Nodup →
            ∃ taken : Nat → Bool, ∀ r ∈ movable s (y.job s x) 0 (y.job s x).moves, ∀ b, r.goal = .mem b →
              t.byte b = if x.ordered = false ∧ taken (b / 32) = true then r.val else s.byte b))) ∧
    (∀ y x l, s.copyPacket h id = some (y, x) → y.watch = none → (x.pkt.copyJob (h / 64)).peer = false → covers y.left x.todo →
      packetReady s (x.pkt.copyJob (h / 64)) 0 (x.pkt.copyJob (h / 64)).moves = .ok l →
      (∀ r ∈ l, r.mask = 0xFF ∧ ∃ pa, r.goal = .mem pa ∧ isHostMem pa = false) → ((memWrites l).map Prod.fst).Nodup →
      ∃ t, exec (.copyTransferComplete h 4 id) s = .next t ∧ t.harts.map Hart.ctx = s.harts.map Hart.ctx ∧
        t.queue? (h / 64) (h % 64) = some { y with
          left := y.left - (x.todo : Nat), started := y.started.set id { x with done := true, todo := 0 } } ∧
        ∀ b, t.byte b = s.written ((memWrites l).map Prod.fst) (l.map Ready.val) b) ∧
    (∀ r, AMap.find? (s.core core).rings ring = some r → r.claimed ≠ 0 → r.oldestClaimed ∈ r.wrote →
      ∃ t, exec (.ringSlotFill core ring) s = .next t ∧ t.harts = s.harts ∧ (∀ b, t.byte b = s.byte b) ∧
        AMap.find? (t.core core).rings ring = some { r with
          claimed := r.claimed - 1, filled := r.filled + 1, wrote := r.wrote.filter (· != r.oldestClaimed) }) ∧
    (∀ x, AMap.find? s.parts p = some x → s.hostUp = true →
      (x.inWindow va n = true →
        (∀ ps, reach s p none .load (BitVec.ofNat 64 va) n = .ok ps → (∀ q ∈ ps, q.cls ≠ 1) →
          exec (.hostRead p (.memory va) n) s = .next { s with
            out := s.out ++ [.hostAnswer (some (ps.map fun q => s.byte q.pa))] }) ∧
        (∀ e, reach s p none .load (BitVec.ofNat 64 va) n = .error e →
          exec (.hostRead p (.memory va) n) s = .next { s with out := s.out ++ [.hostAnswer none] })) ∧
      (x.inWindow va bytes.length = true →
        (∀ ps, reach s p none .store (BitVec.ofNat 64 va) bytes.length = .ok ps → (∀ q ∈ ps, q.cls ≠ 1) →
          (ps.map Phys.pa).Nodup →
          ∃ t, exec (.hostWrite p va bytes) s = .next t ∧ t.out = s.out ++ [.hostAnswer (some [])] ∧
            t.harts.map Hart.ctx = s.harts.map Hart.ctx ∧ ∀ b, t.byte b = s.written (ps.map Phys.pa) bytes b) ∧
        (∀ e, reach s p none .store (BitVec.ofNat 64 va) bytes.length = .error e →
          exec (.hostWrite p va bytes) s = .next { s with out := s.out ++ [.hostAnswer none] })))

/-- Doorbells and queue registers (R435 to R439, R3): a tail write enters the FIFO of an open queue, or is told to retry; the
oldest entry copies the ring packets it covers and moves qhead, stops the queue where it covers more than the ring holds, and
is dropped where the queue takes none; qcfg enables from the tail with the error cleared, and disabling drops what has not
started; qhead and qstat ignore writes; the host reads each register, qtail as zero. The stop is recorded in the error log's ring
(R449; the record's layout is the model's, log 83). The register numbers and the handling of a written size of 7 are the model's readings
(log 61). -/
def Obligations.QueueRegisters : Prop :=
  ∀ (s : State) (p q reg : Nat) (tail : BitVec 32) (val : BitVec 64) (x : Partition) (y : Queue),
    AMap.find? s.parts p = some x → AMap.find? x.queues q = some y →
    let becomes : Instr → Queue → Prop := fun i z => ∃ t, exec i s = .next t ∧ { t with parts := s.parts } = s ∧
      t.queue? p q = some z ∧ ∀ j, j ≠ q → t.queue? p j = s.queue? p j
    let rings : Instr → BitVec 32 → Prop := fun i v =>
      (x.fifo.length < 64 → ∃ t x', exec i s = .next t ∧ { t with parts := s.parts } = s ∧
        t.queue? p q = some { y with tail := v } ∧ AMap.find? t.parts p = some x' ∧
        x'.fifo = x.fifo ++ if y.en && !y.stop then [{ q := q, tail := v, seq := x.nextSeq }] else []) ∧
      (64 ≤ x.fifo.length → exec i s = .next { s with out := s.out ++ [.retry p q] })
    let sz := val.toNat % 8
    let set : Queue := { y with priv := val.getLsbD 14, prio := val.toNat / 2 ^ 8 % 32, sz := sz }
    let cfg : Instr → Prop := fun i =>
      (val.getLsbD 15 = true → sz ≠ 7 → y.en = false → becomes i { set with en := true, err := 0, head := y.tail }) ∧
      (val.getLsbD 15 = true → sz ≠ 7 → y.en = true → becomes i set) ∧
      (val.getLsbD 15 = false ∨ sz = 7 → y.watch = none →
        becomes i { set with en := false, stop := false, head := y.tail, skip := 0, buf := [] })
    (s.hostUp = true → rings (.doorbellWrite p q tail) tail ∧ rings (.hostRegisterWrite p q 2 val) (val.setWidth 32)) ∧
    cfg (.qcfgWrite p q val) ∧ cfg (.hostRegisterWrite p q 1 val) ∧
    becomes (.hostRegisterWrite p q 0 val) { y with base := val &&& 0x00FFFFFFFFFFFF80 } ∧
    ((reg = 3 ∨ reg = 4) → exec (.hostRegisterWrite p q reg val) s = .next s) ∧
    (s.hostUp = true → reg < 5 →
      let w : Word :=
        match reg with
        | 0 => y.base
        | 1 => BitVec.ofNat 64 ((if y.en then 2 ^ 15 else 0) + (if y.priv then 2 ^ 14 else 0) + y.prio % 32 * 2 ^ 8 + y.sz % 8)
        | 2 => 0
        | 3 => y.head.setWidth 64
        | _ => BitVec.ofNat 64 (y.err % 256 * 2 ^ 8 + if y.stop then 1 else 0)
      exec (.hostRead p (.register q reg) 8) s = .next { s with out := s.out ++ [.hostAnswer (some (wordBytes 8 w))] }) ∧
    (∀ e l, x.fifo = e :: l → e.q = q → x.lastDone < e.seq →
      let i : Instr := .doorbellEntryProcess p
      let popped : State → Prop := fun t => ∃ x', AMap.find? t.parts p = some x' ∧ x'.fifo = l ∧ x'.lastDone = e.seq
      let n := (e.tail - y.head).toNat
      ((y.en && !y.stop) = false → ∃ t, exec i s = .next t ∧ popped t ∧ t.queue? p q = some y) ∧
      ((y.en && !y.stop) = true → y.slots < n →
        ∃ t r, exec i s = .next t ∧ popped t ∧ t.queue? p q = some { y with stop := true, err := 1 } ∧
          (∀ b, s.recordBytes p b = false → t.byte b = s.byte b) ∧ r.kind = 2 ∧
          r.words = [BitVec.ofNat 64 q, BitVec.ofNat 64 1] ∧
          (∀ z, AMap.find? t.parts p = some z → z.elog.getLast? = some r) ∧
          (x.elogCap ≠ 0 → ∀ k, k < 128 → t.byte (x.elogAt + 128 * x.elogNext + k) = r.bytes.getD k 0)) ∧
      (∀ pkts, (y.en && !y.stop) = true → n ≤ y.slots → y.buf = [] → y.skip = 0 → n ≤ 256 →
        ringPackets s p y 0 n = .ok pkts → (∀ w ∈ pkts, kindOf w ≠ 1) →
        ∃ t, exec i s = .next t ∧ popped t ∧ (∀ b, t.byte b = s.byte b) ∧ t.queue? p q = some { y with
          head := e.tail,
          buf := pkts.map fun w => { words := w, level := 0, lid := 0, by_ := none, rep := false, form := .plain } }))

/-- Packets (R440 to R446, R114, R115, R162): a packet error stops the queue with err 2 and an access refused with err 3; else
the head starts in order and has its effect at the home: NOP and FETCH-FENCE none; WAIT-VALUE stays until its condition holds;
WRITE-VALUE and TIMESTAMP write; COND skips where the word is 0; LOOP repeats the packets before it; INDIRECT stands for its
buffer, whose packets are read one by one; COPY begins a transfer, one of no bytes done at once; LAUNCH parses its header. What a LOOP repeats of the
history, and how a packet of an unknown kind is met, are the model's readings (log 62). -/
def Obligations.PacketEvents : Prop :=
  ∀ (s : State) (p q : Nat) (y : Queue) (x : Packet),
    let starts : Nat → Prop := s.Starts p q y x
    let opens : State → Queue → Prop := fun t z => t.openQueue p q = some z
    let quiet : State → Prop := fun t => QueueFrame s t ∧ ∀ b, t.byte b = s.byte b
    let stops : State → Prop := fun t => t.harts.map Hart.ctx = s.harts.map Hart.ctx ∧
      ∀ b, s.recordBytes p b = false → t.byte b = s.byte b
    let writes : State → List Phys → List Byte → Prop := fun t ps bs =>
      t.harts.map Hart.ctx = s.harts.map Hart.ctx ∧ ((ps.map Phys.pa).Nodup → ∀ b, t.byte b = s.written (ps.map Phys.pa) bs b)
    let reads : Nat → List Phys → Prop := fun n ps => reach s p none .load (x.w 1) n = .ok ps ∧ ∀ a ∈ ps, a.cls ≠ 1
    let stores : Nat → List Phys → Prop := fun n ps => reach s p none .store (x.w 1) n = .ok ps ∧ ∀ a ∈ ps, a.cls ≠ 1
    (starts 0 → y.onward → ∃ t, exec (.packetNop p q) s = .next t ∧ quiet t ∧ opens t (y.begun x true 0)) ∧
    (starts 7 → y.onward → ∃ t, exec (.packetFetchFence p q) s = .next t ∧ quiet t ∧ opens t (y.begun x true 0)) ∧
    (starts 8 → y.onward → ∃ t, exec (.packetCopy p q) s = .next t ∧ quiet t ∧
      opens t (if x.w 3 = 0 then y.begun x true 0 else y.begun x false (x.w 3).toNat)) ∧
    (starts 2 → ∀ ps, reads x.bytes ps →
      let w : Watch := { pa := (ps.map Phys.pa).headD 0, size := x.bytes, cond := condOf ((x.w 3).toNat / 256), x := x.w 2 }
      ∃ t, exec (.packetWaitValue p q) s = .next t ∧ quiet t ∧ opens t { y with
        watch := some (w, condHolds w.cond w.size (leWord (ps.map fun a => s.byte a.pa)) w.x) }) ∧
    (∀ w, s.queue? p q = some y → y.buf.head? = some x → y.watch = some (w, true) → y.onward → kindOf x.words = 2 →
      ∃ t, exec (.waitValueComplete p q) s = .next t ∧ quiet t ∧
        t.queue? p q = some ({ y with watch := none }.begun x true 0)) ∧
    (starts 3 → y.onward → ∀ ps, stores x.bytes ps → ∃ t, exec (.packetWriteValue p q) s = .next t ∧
      writes t ps (wordBytes x.bytes (x.w 2)) ∧ opens t (y.begun x true 0)) ∧
    (starts 9 → y.onward → ∀ ps, stores 8 ps → ∃ t, exec (.packetTimestamp p q) s = .next t ∧
      writes t ps (wordBytes 8 (BitVec.ofNat 64 s.now)) ∧ opens t (y.begun x true 0)) ∧
    (starts 3 → reach s p none .store (x.w 1) x.bytes = .error .refused → ∃ t, exec (.packetWriteValue p q) s = .next t ∧
      stops t ∧ t.queue? p q = some { y with stop := true, err := 3 }) ∧
    (s.openQueue p q = some y → y.buf.head? = some x → x.form = .plain → y.watch = none → 10 ≤ kindOf x.words →
      ∃ t, exec (.packetNop p q) s = .next t ∧ stops t ∧ t.queue? p q = some { y with stop := true, err := 2 }) ∧
    (starts 4 → ∀ ps, reads 8 ps →
      let v := leWord (ps.map fun a => s.byte a.pa)
      (y.buf = [x] → ∃ t, exec (.packetCond p q) s = .next t ∧ quiet t ∧
        opens t { y.begun x true 0 with skip := if v = 0 then (x.w 2).toNat else 0, skipLevel := x.level }) ∧
      (∀ z, v = 0 → x.w 2 = 1 → y.buf = [x, z] → z.form = .plain → z.level = x.level →
        ∃ t, exec (.packetCond p q) s = .next t ∧ quiet t ∧ opens t { y.begun x true 0 with
          buf := [], skip := 0, skipLevel := x.level,
          started := y.started ++ [{ pkt := x, done := true, todo := 0 }, { pkt := z, done := true, todo := 0 }] })) ∧
    (starts 5 → ∀ l b k, y.started = l ++ b → b.length = (x.w 1).toNat → (x.w 2).toNat = k + 1 → y.buf = [x] → y.skip = 0 →
      (∀ z ∈ b, z.pkt.level = x.level ∧ z.pkt.rep = false ∧ kindOf z.pkt.words ≠ 5 ∧ kindOf z.pkt.words ≠ 1) →
      let again : Packet := { x with lid := 0, rep := true, form := .again (b.map fun z => z.pkt.words) k }
      ∃ t, exec (.packetLoop p q) s = .next t ∧ quiet t ∧ opens t { y.begun x true 0 with
        buf := (b.map fun z => ({ words := z.pkt.words, level := x.level, lid := 0, by_ := x.by_, rep := true,
                                  form := .plain } : Packet)) ++ [again] }) ∧
    (starts 6 → y.buf = [x] → y.skip = 0 → ∃ t, exec (.packetIndirect p q) s = .next t ∧ quiet t ∧
      opens t { y.begun x true 0 with buf := [{ words := [], level := x.level + 1, lid := 0, by_ := x.by_, rep := false,
                                                form := .rest (x.w 1) (x.w 2).toNat }] }) ∧
    (∀ addr k ps l, s.openQueue p q = some y → y.buf = x :: l → x.form = .rest addr (k + 1) → y.skip = 0 →
      reach s p none .load addr 128 = .ok ps → (∀ a ∈ ps, a.cls ≠ 1) →
      let ws := wordsOf 16 (ps.map fun a => s.byte a.pa)
      kindOf ws ≠ 1 →
      ∃ t, exec (.indirectFetchAhead p q) s = .next t ∧ quiet t ∧ opens t { y with
        buf := { words := ws, level := x.level, lid := 0, by_ := x.by_, rep := false, form := .plain } ::
          { x with form := .rest (addr + 128) k } :: l }) ∧
    (starts 1 → y.onward → (s.die 0).trEn = false →
      let hdr := x.words.drop 8
      let n := fieldOf hdr 0 56 8
      (headerBad hdr = true → ∃ t l, exec (.packetLaunch p q) s = .next t ∧ opens t (y.begun x false 0) ∧
        AMap.find? t.launches x.lid = some l ∧ l.status = 1 ∧ l.ngroups = 0 ∧ l.part = p ∧
        ∀ b, s.recordBytes p b = false → t.byte b = s.byte b) ∧
      (∀ ps, headerBad hdr = false → reach s p none .load (hdr.getD 1 0 &&& 0x00FFFFFFFFFFFFFF) (8 * n) = .ok ps →
        (∀ a ∈ ps, a.cls ≠ 1) → ∃ t l, exec (.packetLaunch p q) s = .next t ∧ opens t (y.begun x false 0) ∧
        AMap.find? t.launches x.lid = some l ∧ l.hdr = hdr ∧ l.args = wordsOf n (ps.map fun a => s.byte a.pa) ∧
        l.part = p ∧ l.placed = 0 ∧ l.ngroups = groupCount hdr ∧ l.status = 0 ∧ l.lprio = min y.prio (hdrPcap hdr) ∧
        l.priv = y.priv ∧ l.sealed = s.sealFor p hdr ∧ ∀ b, t.byte b = s.byte b))

/-- Events of launches (R118 to R122, R125, R126, R133, R173, R184, R365, R375, R464, R465): the next group is placed on a
core with room, its harts at the launch's code with their work ids, or is chosen for the core and waits for lane groups; the
Dresser's result starts what waits for it; a group whose harts have all waited is saved whole and leaves, and comes back with
its harts running together or waiting saved; a launch retires with its digest and its completion word. Which core and
frame areas the dispatch unit takes is the event's choice. (Log 60; the fit of a group that comes back is the model's reading,
log 69, and where the word of a misaligned done goes, log 90.) -/
def Obligations.LaunchEvents : Prop :=
  ∀ (s : State) (lid core die grp addr : Nat) (tfbs : List Nat) (ranges : List (Nat × Nat)) (l : Launch),
    AMap.find? s.launches lid = some l → l.lid = lid → l.recMode = 0 →
    let n := hdrHpg l.hdr + 1
    let kept : State → Prop := fun t => ∀ b, t.byte b = s.byte b
    (s.nextWaits l core = true → s.outranked l core = false → tfbs.length = n →
      (n ≤ s.unreserved core → l.nospec = true → l.eval = none → l.entry = none → (∀ x ∈ s.harts, x.hid < s.nextHid) →
        ∃ t l', exec (.groupPlacement lid core tfbs) s = .next t ∧ kept t ∧ t.nextHid = s.nextHid + n ∧
          AMap.find? t.launches lid = some l' ∧ l'.placed = l.placed + 1 ∧ l'.chosen = none ∧
          (∀ x ∈ s.harts, (t.hart? x.hid).map Hart.ctx = (s.hart? x.hid).map Hart.ctx) ∧
          ∀ k, k < n → ∃ x, t.hart? (s.nextHid + k) = some x ∧ x.status = .running ∧ x.lid = lid ∧ x.grp = l.placed ∧
            x.idx = k ∧ x.core = core ∧ x.slot = (s.slotsFree core).getD k 0 ∧ x.wid = workId l.hdr l.placed k ∧
            x.ctx.pc = l.code ∧ x.ctx.g = [] ∧ x.ctx.prio = l.lprio ∧ x.args = l.args ∧ x.priv = l.priv ∧
            x.tfb = BitVec.ofNat 64 (tfbs.getD k 0 % 2 ^ 56 / 4096 * 4096) ∧ x.cmn = s.commits ∧ x.phn = 0) ∧
      (s.unreserved core < n → l.chosen ≠ some core →
        ∃ t, exec (.groupPlacement lid core tfbs) s = .next t ∧ kept t ∧ t.harts = s.harts ∧
          AMap.find? t.launches lid = some { l with chosen := some core })) ∧
    (l.eval = some die → ∃ t l', exec (.dresserEvaluation lid die) s = .next t ∧ kept t ∧
      AMap.find? t.launches lid = some l' ∧ l'.looked = true ∧ l'.eval = none ∧
      (l'.entry = some (s.evaluateFor l) ∨ l'.entry = none) ∧
      ∀ x ∈ t.harts, x.lid = lid → x.core < 128 → x.status ≠ .pending) ∧
    (lid ≠ 0 → ranges.length ≤ 16 → (∀ r ∈ ranges, 1 ≤ r.2 ∧ r.2 ≤ 2 ^ 40) →
      exec (.digestRegister lid ranges addr) s = .next { s with digs := AMap.put s.digs lid (ranges, addr) }) ∧
    (∀ g, s.firstWaiting lid (s.residentGroups l) = some g → l.placed < l.ngroups → s.nextPlaceable l = false →
      (s.harts.map Hart.hid).Nodup →
      (∀ k ∈ s.residentGroups l, ∀ x ∈ s.groupHarts lid k, 50000 ≤ x.waited s.now) →
      (∀ x ∈ s.groupHarts lid g, x.isSaved = true ∨
        (x.status = .running ∧ x.sq = [] ∧ x.midPair = false ∧ x.hstep = 0 ∧ s.frameOk x = true)) →
      ∃ t l', exec (.eviction lid) s = .next t ∧ t.harts.length = s.harts.length ∧
        (∀ b, (∀ x ∈ s.groupHarts lid g, s.inFrame x false b = false) → t.byte b = s.byte b) ∧
        (∀ x ∈ t.harts, x.lid = lid → x.grp = g → x.isSaved = true ∨ x.status = .exited) ∧
        AMap.find? t.launches lid = some l' ∧ l'.evicted = l.evicted ++ [g] ∧ l'.room = true) ∧
    (grp ∈ l.evicted → s.groupSaved lid grp = true → (s.harts.map Hart.hid).Nodup →
      s.groupHarts lid grp ≠ [] → (∀ x ∈ s.groupHarts lid grp, x.owed = none ∧ x.redo = none ∧ s.frameFits x false = true) →
      s.mayTake l grp core = true → s.outranked l core = false →
      ∃ t l', exec (.groupReplacement lid grp core) s = .next t ∧ kept t ∧ AMap.find? t.launches lid = some l' ∧
        ((l'.evicted = l.evicted.filter (· != grp) ∧ l'.room = false ∧
            ∀ x ∈ t.groupHarts lid grp, x.room = true ∧ x.status = .running) ∨
          (l'.evicted = l.evicted ∧ ∀ x ∈ t.groupHarts lid grp, x.status = .saved ∧ x.target = some core))) ∧
    (l.ngroups ≤ l.placed → (∀ x ∈ s.harts, x.lid ≠ lid) → (s.die 0).trEn = false →
      let gone : State → Prop := fun t => exec (.launchRetirement lid) s = .next t ∧ AMap.find? t.launches lid = none ∧
        AMap.find? t.digs lid = none ∧ t.harts.map Hart.ctx = s.harts.map Hart.ctx
      (AMap.find? s.digs lid = none → hdrDone l.hdr = 0 → ∃ t, gone t ∧ kept t) ∧
      (∀ ps, AMap.find? s.digs lid = none → hdrDone l.hdr ≠ 0 →
        reach s l.part l.sealed .atomic (BitVec.ofNat 64 (hdrDone l.hdr / 8 * 8)) 8 = .ok ps → (∀ a ∈ ps, a.cls ≠ 1) →
        (ps.map Phys.pa).Nodup → ∃ t, gone t ∧ ∀ b, t.byte b = s.written (ps.map Phys.pa)
          (wordBytes 8 (BitVec.ofNat 64 (2 ^ 63 + l.status % 256 * 2 ^ 48 + lid % 2 ^ 48))) b) ∧
      (∀ rs at_ ps bs, AMap.find? s.digs lid = some (rs, at_) → hdrDone l.hdr = 0 →
        reach s l.part l.sealed .store (BitVec.ofNat 64 at_) 32 = .ok ps → (∀ a ∈ ps, a.cls ≠ 1) → (ps.map Phys.pa).Nodup →
        digestBytes s l rs = .ok bs → ∃ t, gone t ∧ ∀ b, t.byte b = s.written (ps.map Phys.pa) (sha256 bs) b))

/-- Events of gossip (R414 to R417, R419): an exchange halves each word of a page, keeps the larger half and sends the other
with the next number; a receipt is added whole and acknowledged, refused where a word would overflow, acknowledged again where
it is a duplicate, refused where the region is not there; an acknowledged message is discarded, a refused one is added back,
retransmitted ones keep their number; a lost port is marked in the regions that name it. Time and order of retransmission and
add-back are the model's readings (log 73). -/
def Obligations.GossipEvents : Prop :=
  ∀ (s : State) (reg page slot port seq next : Nat) (m : GMsg) (r : Region),
    AMap.find? s.regions reg = some r → (∀ y ∈ s.launches, y.2.recMode = 0) → s.fenced = false → s.bad = [] →
    (∀ k, k < 512 → isHostMem (r.wordPa page 0 + 8 * k) = false) →
    let word : State → Nat → Int := fun t k => (t.dword (r.wordPa page 0 + 8 * k)).toInt
    let outside : State → Prop := fun t =>
      ∀ a, (a < r.wordPa page 0 ∨ r.wordPa page 0 + 4096 ≤ a) → t.byte a = s.byte a
    let kept : State → Prop := fun t => t.harts.map Hart.ctx = s.harts.map Hart.ctx
    let added : State → List Word → Prop := fun t ws =>
      outside t ∧ ∀ k, k < 512 → word t k = word s k + (ws.getD k 0).toInt
    let fits : List Word → Prop := fun ws => ∀ k, k < 512 →
      -(2 ^ 63) ≤ word s k + (ws.getD k 0).toInt ∧ word s k + (ws.getD k 0).toInt < 2 ^ 63
    let still : State → Prop := fun t => ∀ a, s.recordBytes r.part a = false → t.byte a = s.byte a
    let others : State → Sent → Prop := fun t x => t.sent = s.sent.filter fun y => !y.is x.port x.seq x.region
    (∀ x, r.mode = false → r.closing = false → r.left ≠ 0 → page < r.npg → r.place (r.die page) = (page, slot) →
      port = (r.slots.getD slot (0, 0)).1 → AMap.find? s.ports port = some x → x.lost = false →
      let q := (AMap.find? x.sentSeq reg).getD 0 + 1
      ∃ t r' ws, exec (.gossipExchange reg page slot) s = .next t ∧ kept t ∧ outside t ∧
        (∀ k, k < 512 → word t k = word s k - word s k / 2 ∧ (ws.getD k 0).toInt = word s k / 2) ∧ ws.length = 512 ∧
        t.sent = s.sent ++ [{ port := port, seq := q, region := reg, page := page, round := none, words := ws,
                              back := false, sentAt := s.now, gap := 10000 }] ∧
        t.out = s.out ++ [.gossip port { region := reg, page := page, seq := q, round := none, words := ws }] ∧
        AMap.find? t.regions reg = some r' ∧ r'.left = r.left - 1 ∧ r'.place (r.die page) = r.nextPlace page slot) ∧
    (∀ x, AMap.find? s.ports port = some x → x.cabled = true → x.up = true → s.part = .tl460 → port < 16 →
      m.words.length = 512 →
      (AMap.find? s.regions m.region = none →
        exec (.gossipReceipt port m) s = .next { s with out := s.out ++ [.gossipRefuse m.region port m.seq] }) ∧
      (m.region = reg → m.page = page → page < r.npg → r.names port = true → r.mode = false →
        (x.duplicate m = true →
          exec (.gossipReceipt port m) s = .next { s with out := s.out ++ [.gossipAck reg port m.seq] }) ∧
        (x.duplicate m = false → fits m.words →
          ∃ t x', exec (.gossipReceipt port m) s = .next t ∧ kept t ∧ added t m.words ∧
            t.out = s.out ++ [.gossipAck reg port m.seq] ∧ AMap.find? t.ports port = some x' ∧
            AMap.find? x'.accepted reg = some m.seq) ∧
        (x.duplicate m = false → ¬fits m.words →
          ∃ t r', exec (.gossipReceipt port m) s = .next t ∧ kept t ∧ still t ∧
            AMap.find? t.regions reg = some r' ∧ r'.ovf = true ∧
            t.out = s.out ++ [.irq 4, .gossipRefuse reg port m.seq]))) ∧
    (∀ x, s.flying reg port seq = some x →
      (∃ t, exec (.gossipAck reg port seq) s = .next t ∧ kept t ∧ others t x ∧
        { t with sent := s.sent, cur := s.cur, rest := s.rest } = s ∧
        ∀ y ∈ t.harts, y.wait = some (.gquiet reg false) → t.quiet reg = false) ∧
      (x.page = page → x.words.length = 512 → fits x.words →
        ∃ t, exec (.gossipRefusalNotice reg port seq) s = .next t ∧ kept t ∧ added t x.words ∧ others t x) ∧
      (x.page = page → x.words.length = 512 → ¬fits x.words →
        ∃ t, exec (.gossipRefusalNotice reg port seq) s = .next t ∧ kept t ∧ still t ∧
          t.sent = s.sent.map fun y => if y.is port seq reg then { y with back := true, sentAt := s.now } else y) ∧
      (x.sentAt + x.gap ≤ s.now → s.portLost port = false → (x.gap < next ∧ next ≤ 1000000) ∨ (x.gap = 1000000 ∧ next = 1000000) →
        exec (.gossipRetransmit reg port ⟨seq, next⟩) s = .next { s with
          sent := s.sent.map fun y => if y.is port seq reg then { y with sentAt := s.now, gap := next } else y,
          out := s.out ++
            [.gossip port { region := reg, page := x.page, seq := seq, round := x.round, words := x.words }] })) ∧
    (∀ x, (s.sent.find? fun y => y.is port seq reg && y.back) = some x → x.sentAt / 1000 < s.now / 1000 → x.page = page →
      x.words.length = 512 → fits x.words →
      ∃ t, exec (.gossipAddBackRetry reg port seq) s = .next t ∧ kept t ∧ added t x.words ∧ others t x) ∧
    (∀ x got told fenced gone, AMap.find? s.ports port = some x → x.lost = false → port < portCount s.part →
      (∀ k ∈ gone, k < 2 ^ 14) →
      ∃ t x' r', exec (.portLost port got told ⟨fenced, gone⟩) s = .next t ∧ kept t ∧ AMap.find? t.ports port = some x' ∧
        x'.lost = true ∧ AMap.find? t.regions reg = some r' ∧ r'.lost = (r.lost || r.names port) ∧
        t.fenced = fenced ∧ t.gone = gone ++ s.gone ∧
        ∀ y, s.sent = [y] → y.port = port → y.region = reg → y.back = false → fenced = false →
          (∀ a, got = some [(reg, a)] → y.seq ≤ a → t.sent = [] ∧ ∀ b, t.byte b = s.byte b))

/-- Requests of other packages (R451, R452, R265): a source partition that is not bound is refused and a duplicate atomic or
wait dropped; else a copy's bytes are written or given, an atomic is performed once and gives the old value, and a wait
answers once its condition holds, all in committed memory. -/
def Obligations.PeerRequests : Prop :=
  ∀ (s : State) (p port num seq op cond size va n part : Nat) (bytes : List (BitVec 8)) (a e : BitVec 64) (x : Port),
    AMap.find? s.ports port = some x → x.cabled = true → x.up = true → x.lost = false → s.fenced = false →
    port < portCount s.part → num < 16 →
    let key := 16 * (p / 4) + num
    let seen := (AMap.find? s.seen key).getD []
    let write : PeerReq := .copyWrite seq va bytes
    let amo : PeerReq := .amo seq op size va a e
    let wait : PeerReq := .wait seq cond size va a
    let kept : State → Prop := fun t => t.harts.map Hart.ctx = s.harts.map Hart.ctx
    let bs : List Phys → List Byte := fun ps => ps.map fun q => s.byte q.pa
    let once : State → Prop := fun t =>
      AMap.find? t.seen key = some (seq :: seen) ∧ ∀ k, k ≠ key → AMap.find? t.seen k = AMap.find? s.seen k
    (seq ∈ seen → exec (.peerRequest p ⟨port, num⟩ amo) s = .next s ∧ exec (.peerRequest p ⟨port, num⟩ wait) s = .next s) ∧
    (s.boundPart p = none →
      exec (.peerRequest p ⟨port, num⟩ write) s = .next { s with out := s.out ++ [.peerAnswer port seq none] } ∧
      exec (.peerRequest p ⟨port, num⟩ (.copyRead seq va n)) s = .next { s with out := s.out ++ [.peerBytes port seq none] }) ∧
    (s.boundPart p = some part →
      (∀ ps, peerReach s part .store va bytes.length = .ok ps → (ps.map Phys.pa).Nodup →
        ∃ t, exec (.peerRequest p ⟨port, num⟩ write) s = .next t ∧ kept t ∧ t.out = s.out ++ [.peerAnswer port seq (some 0)] ∧
          ∀ b, t.byte b = s.written (ps.map Phys.pa) bytes b) ∧
      (peerReach s part .store va bytes.length = .error .refused →
        exec (.peerRequest p ⟨port, num⟩ write) s = .next { s with out := s.out ++ [.peerAnswer port seq none] }) ∧
      (∀ ps, peerReach s part .load va n = .ok ps →
        exec (.peerRequest p ⟨port, num⟩ (.copyRead seq va n)) s = .next { s with
          out := s.out ++ [.peerBytes port seq (some (bs ps))] }) ∧
      (size = 4 ∨ size = 8 → va % size = 0 → seq ∉ seen → s.bad = [] → s.hostUp = true → ∀ ps,
        (op ≤ 12 → peerReach s part .atomic va size = .ok ps → (ps.map Phys.pa).Nodup →
          ∃ t, exec (.peerRequest p ⟨port, num⟩ amo) s = .next t ∧ kept t ∧ once t ∧
            t.out = s.out ++ [.peerAnswer port seq (some (leWord (bs ps)))] ∧
            ∀ b, t.byte b = match amoNewOf op size (leWord (bs ps)) a e with
              | some y => s.written (ps.map Phys.pa) (wordBytes size y) b
              | none => s.byte b) ∧
        (cond < 8 → peerReach s part .wait va size = .ok ps →
          (condHolds (condOf cond) size (leWord (bs ps)) a = true →
            ∃ t, exec (.peerRequest p ⟨port, num⟩ wait) s = .next t ∧ kept t ∧ once t ∧ (∀ b, t.byte b = s.byte b) ∧
              t.out = s.out ++ [.peerAnswer port seq (some (leWord (bs ps)))]) ∧
          (condHolds (condOf cond) size (leWord (bs ps)) a = false →
            exec (.peerRequest p ⟨port, num⟩ wait) s = .refused (.notEnabled "PEER_REQUEST")))))
end

