-- ==== Sys2Proof/Laws/Dispatch.lean ====
section
/-!
SUPPORT. Running an instruction or an event is its meaning: one law for each arm.
-/

namespace Sys2Proof.Machine

theorem exec_add (d a b : GReg) (s : State) : exec (.add d a b) s = execAdd d a b s := rfl
theorem exec_sub (d a b : GReg) (s : State) : exec (.sub d a b) s = execSub d a b s := rfl
theorem exec_mul (d a b : GReg) (s : State) : exec (.mul d a b) s = execMul d a b s := rfl
theorem exec_mulh (d a b : GReg) (s : State) : exec (.mulh d a b) s = execMulh d a b s := rfl
theorem exec_mulhn (d a b : GReg) (s : State) : exec (.mulhn d a b) s = execMulhn d a b s := rfl
theorem exec_div (d a b : GReg) (s : State) : exec (.div d a b) s = execDiv d a b s := rfl
theorem exec_divn (d a b : GReg) (s : State) : exec (.divn d a b) s = execDivn d a b s := rfl
theorem exec_rem (d a b : GReg) (s : State) : exec (.rem d a b) s = execRem d a b s := rfl
theorem exec_remn (d a b : GReg) (s : State) : exec (.remn d a b) s = execRemn d a b s := rfl
theorem exec_and (d a b : GReg) (s : State) : exec (.and d a b) s = execAnd d a b s := rfl
theorem exec_or (d a b : GReg) (s : State) : exec (.or d a b) s = execOr d a b s := rfl
theorem exec_xor (d a b : GReg) (s : State) : exec (.xor d a b) s = execXor d a b s := rfl
theorem exec_sll (d a b : GReg) (s : State) : exec (.sll d a b) s = execSll d a b s := rfl
theorem exec_srl (d a b : GReg) (s : State) : exec (.srl d a b) s = execSrl d a b s := rfl
theorem exec_sra (d a b : GReg) (s : State) : exec (.sra d a b) s = execSra d a b s := rfl
theorem exec_slt (d a b : GReg) (s : State) : exec (.slt d a b) s = execSlt d a b s := rfl
theorem exec_sltn (d a b : GReg) (s : State) : exec (.sltn d a b) s = execSltn d a b s := rfl
theorem exec_min (d a b : GReg) (s : State) : exec (.min d a b) s = execMin d a b s := rfl
theorem exec_max (d a b : GReg) (s : State) : exec (.max d a b) s = execMax d a b s := rfl
theorem exec_minn (d a b : GReg) (s : State) : exec (.minn d a b) s = execMinn d a b s := rfl
theorem exec_maxn (d a b : GReg) (s : State) : exec (.maxn d a b) s = execMaxn d a b s := rfl
theorem exec_clz (d a : GReg) (s : State) : exec (.clz d a) s = execClz d a s := rfl
theorem exec_ctz (d a : GReg) (s : State) : exec (.ctz d a) s = execCtz d a s := rfl
theorem exec_popc (d a : GReg) (s : State) : exec (.popc d a) s = execPopc d a s := rfl
theorem exec_sext (d a : GReg) (n1 : BitVec 6) (s : State) : exec (.sext d a n1) s = execSext d a n1 s := rfl
theorem exec_zext (d a : GReg) (n1 : BitVec 6) (s : State) : exec (.zext d a n1) s = execZext d a n1 s := rfl
theorem exec_cmov (d a b c : GReg) (s : State) : exec (.cmov d a b c) s = execCmov d a b c s := rfl
theorem exec_adds (d a b : GReg) (s : State) : exec (.adds d a b) s = execAdds d a b s := rfl
theorem exec_subs (d a b : GReg) (s : State) : exec (.subs d a b) s = execSubs d a b s := rfl
theorem exec_addi (d a : GReg) (imm : BitVec 32) (s : State) : exec (.addi d a imm) s = execAddi d a imm s := rfl
theorem exec_andi (d a : GReg) (imm : BitVec 32) (s : State) : exec (.andi d a imm) s = execAndi d a imm s := rfl
theorem exec_ori (d a : GReg) (imm : BitVec 32) (s : State) : exec (.ori d a imm) s = execOri d a imm s := rfl
theorem exec_xori (d a : GReg) (imm : BitVec 32) (s : State) : exec (.xori d a imm) s = execXori d a imm s := rfl
theorem exec_slli (d a : GReg) (sh : BitVec 6) (s : State) : exec (.slli d a sh) s = execSlli d a sh s := rfl
theorem exec_srli (d a : GReg) (sh : BitVec 6) (s : State) : exec (.srli d a sh) s = execSrli d a sh s := rfl
theorem exec_srai (d a : GReg) (sh : BitVec 6) (s : State) : exec (.srai d a sh) s = execSrai d a sh s := rfl
theorem exec_slti (d a : GReg) (imm : BitVec 32) (s : State) : exec (.slti d a imm) s = execSlti d a imm s := rfl
theorem exec_ldi (d : GReg) (imm : BitVec 32) (s : State) : exec (.ldi d imm) s = execLdi d imm s := rfl
theorem exec_ldih (d : GReg) (imm : BitVec 32) (s : State) : exec (.ldih d imm) s = execLdih d imm s := rfl
theorem exec_pcadd (d : GReg) (imm : BitVec 32) (s : State) : exec (.pcadd d imm) s = execPcadd d imm s := rfl
theorem exec_fadd (d a b : GReg) (f : SFmt) (s : State) : exec (.fadd d a b f) s = execFadd d a b f s := rfl
theorem exec_fsub (d a b : GReg) (f : SFmt) (s : State) : exec (.fsub d a b f) s = execFsub d a b f s := rfl
theorem exec_fmul (d a b : GReg) (f : SFmt) (s : State) : exec (.fmul d a b f) s = execFmul d a b f s := rfl
theorem exec_fdiv (d a b : GReg) (f : SFmt) (s : State) : exec (.fdiv d a b f) s = execFdiv d a b f s := rfl
theorem exec_ffma (d a b c : GReg) (f : SFmt) (s : State) : exec (.ffma d a b c f) s = execFfma d a b c f s := rfl
theorem exec_fmin (d a b : GReg) (f : SFmt) (s : State) : exec (.fmin d a b f) s = execFmin d a b f s := rfl
theorem exec_fmax (d a b : GReg) (f : SFmt) (s : State) : exec (.fmax d a b f) s = execFmax d a b f s := rfl
theorem exec_fsqrt (d a : GReg) (f : SFmt) (s : State) : exec (.fsqrt d a f) s = execFsqrt d a f s := rfl
theorem exec_fcmpeq (d a b : GReg) (f : SFmt) (s : State) : exec (.fcmpeq d a b f) s = execFcmpeq d a b f s := rfl
theorem exec_fcmplt (d a b : GReg) (f : SFmt) (s : State) : exec (.fcmplt d a b f) s = execFcmplt d a b f s := rfl
theorem exec_fcmple (d a b : GReg) (f : SFmt) (s : State) : exec (.fcmple d a b f) s = execFcmple d a b f s := rfl
theorem exec_fcvt (d a : GReg) (f : SFmt) (k : CvtKind) (dir : Bool) (s : State) : exec (.fcvt d a f k dir) s = execFcvt d a f k dir s := rfl
theorem exec_fclass (d a : GReg) (f : SFmt) (s : State) : exec (.fclass d a f) s = execFclass d a f s := rfl
theorem exec_beq (a b : GReg) (off : BitVec 32) (s : State) : exec (.beq a b off) s = execBeq a b off s := rfl
theorem exec_bne (a b : GReg) (off : BitVec 32) (s : State) : exec (.bne a b off) s = execBne a b off s := rfl
theorem exec_blt (a b : GReg) (off : BitVec 32) (s : State) : exec (.blt a b off) s = execBlt a b off s := rfl
theorem exec_bge (a b : GReg) (off : BitVec 32) (s : State) : exec (.bge a b off) s = execBge a b off s := rfl
theorem exec_bltn (a b : GReg) (off : BitVec 32) (s : State) : exec (.bltn a b off) s = execBltn a b off s := rfl
theorem exec_bgen (a b : GReg) (off : BitVec 32) (s : State) : exec (.bgen a b off) s = execBgen a b off s := rfl
theorem exec_bz (a : GReg) (off : BitVec 32) (s : State) : exec (.bz a off) s = execBz a off s := rfl
theorem exec_bnz (a : GReg) (off : BitVec 32) (s : State) : exec (.bnz a off) s = execBnz a off s := rfl
theorem exec_jal (d : GReg) (off : BitVec 32) (s : State) : exec (.jal d off) s = execJal d off s := rfl
theorem exec_jalr (d a : GReg) (imm : BitVec 32) (s : State) : exec (.jalr d a imm) s = execJalr d a imm s := rfl
theorem exec_dbnz (a : GReg) (off : BitVec 32) (s : State) : exec (.dbnz a off) s = execDbnz a off s := rfl
theorem exec_crd (d : GReg) (cr : BitVec 12) (s : State) : exec (.crd d cr) s = execCrd d cr s := rfl
theorem exec_cwr (a : GReg) (cr : BitVec 12) (s : State) : exec (.cwr a cr) s = execCwr a cr s := rfl
theorem exec_cset (d a : GReg) (cr : BitVec 12) (s : State) : exec (.cset d a cr) s = execCset d a cr s := rfl
theorem exec_cclr (d a : GReg) (cr : BitVec 12) (s : State) : exec (.cclr d a cr) s = execCclr d a cr s := rfl
theorem exec_sys (n : BitVec 24) (s : State) : exec (.sys n) s = execSys n s := rfl
theorem exec_brk (n : BitVec 24) (s : State) : exec (.brk n) s = execBrk n s := rfl
theorem exec_rdtime (d : GReg) (s : State) : exec (.rdtime d) s = execRdtime d s := rfl
theorem exec_tmark (a : GReg) (n : BitVec 24) (s : State) : exec (.tmark a n) s = execTmark a n s := rfl
theorem exec_dyn (d a : GReg) (s : State) : exec (.dyn d a) s = execDyn d a s := rfl
theorem exec_arg (d : GReg) (idx : BitVec 6) (s : State) : exec (.arg d idx) s = execArg d idx s := rfl
theorem exec_wfld (d : GReg) (k : BitVec 3) (s : State) : exec (.wfld d k) s = execWfld d k s := rfl
theorem exec_prio (d a : GReg) (s : State) : exec (.prio d a) s = execPrio d a s := rfl
theorem exec_bar (n : BitVec 2) (s : State) : exec (.bar n) s = execBar n s := rfl
theorem exec_barPh (d : GReg) (n : BitVec 2) (s : State) : exec (.barPh d n) s = execBarPh d n s := rfl
theorem exec_sleep (a : GReg) (s : State) : exec (.sleep a) s = execSleep a s := rfl
theorem exec_lnch (d a : GReg) (q : BitVec 6) (s : State) : exec (.lnch d a q) s = execLnch d a q s := rfl
theorem exec_trap (n : BitVec 24) (s : State) : exec (.trap n) s = execTrap n s := rfl
theorem exec_ctxsv (d a : GReg) (s : State) : exec (.ctxsv d a) s = execCtxsv d a s := rfl
theorem exec_ctxld (d a : GReg) (s : State) : exec (.ctxld d a) s = execCtxld d a s := rfl
theorem exec_sfq (d : GReg) (k : BitVec 3) (s : State) : exec (.sfq d k) s = execSfq d k s := rfl
theorem exec_sfqPop (d : GReg) (k : BitVec 3) (s : State) : exec (.sfqPop d k) s = execSfqPop d k s := rfl
theorem exec_qput (d a : GReg) (q : BitVec 6) (s : State) : exec (.qput d a q) s = execQput d a q s := rfl
theorem exec_sinvPage (d a : GReg) (s : State) : exec (.sinvPage d a) s = execSinvPage d a s := rfl
theorem exec_sinvAll (d : GReg) (s : State) : exec (.sinvAll d) s = execSinvAll d s := rfl
theorem exec_sinvReport (d : GReg) (s : State) : exec (.sinvReport d) s = execSinvReport d s := rfl
theorem exec_vgr (d a : GReg) (s : State) : exec (.vgr d a) s = execVgr d a s := rfl
theorem exec_vgq (d a : GReg) (s : State) : exec (.vgq d a) s = execVgq d a s := rfl
theorem exec_vrel (d : GReg) (s : State) : exec (.vrel d) s = execVrel d s := rfl
theorem exec_vrows (d : GReg) (n : BitVec 4) (s : State) : exec (.vrows d n) s = execVrows d n s := rfl
theorem exec_vtype (d : GReg) (f : Fmt) (blk : BitVec 2) (n : BitVec 4) (s : State) : exec (.vtype d f blk n) s = execVtype d f blk n s := rfl
theorem exec_vaddFloat (f : Fmt) (d a b : VReg) (x e : Option MReg) (s : State) : exec (.vaddFloat f d a b x e) s = execVaddFloat f d a b x e s := rfl
theorem exec_vsubFloat (f : Fmt) (d a b : VReg) (x e : Option MReg) (s : State) : exec (.vsubFloat f d a b x e) s = execVsubFloat f d a b x e s := rfl
theorem exec_vmulFloat (f : Fmt) (d a b : VReg) (x e : Option MReg) (s : State) : exec (.vmulFloat f d a b x e) s = execVmulFloat f d a b x e s := rfl
theorem exec_vfma (f : Fmt) (d a b c : VReg) (x e : Option MReg) (s : State) : exec (.vfma f d a b c x e) s = execVfma f d a b c x e s := rfl
theorem exec_vfms (f : Fmt) (d a b c : VReg) (x e : Option MReg) (s : State) : exec (.vfms f d a b c x e) s = execVfms f d a b c x e s := rfl
theorem exec_vdiv (f : Fmt) (d a b : VReg) (x e : Option MReg) (s : State) : exec (.vdiv f d a b x e) s = execVdiv f d a b x e s := rfl
theorem exec_vsqrt (f : Fmt) (d a : VReg) (x e : Option MReg) (s : State) : exec (.vsqrt f d a x e) s = execVsqrt f d a x e s := rfl
theorem exec_vminFloat (f : Fmt) (d a b : VReg) (x e : Option MReg) (s : State) : exec (.vminFloat f d a b x e) s = execVminFloat f d a b x e s := rfl
theorem exec_vmaxFloat (f : Fmt) (d a b : VReg) (x e : Option MReg) (s : State) : exec (.vmaxFloat f d a b x e) s = execVmaxFloat f d a b x e s := rfl
theorem exec_vabsFloat (f : Fmt) (d a : VReg) (x e : Option MReg) (s : State) : exec (.vabsFloat f d a x e) s = execVabsFloat f d a x e s := rfl
theorem exec_vneg (f : Fmt) (d a : VReg) (x e : Option MReg) (s : State) : exec (.vneg f d a x e) s = execVneg f d a x e s := rfl
theorem exec_vrcp (f : Fmt) (d a : VReg) (x e : Option MReg) (s : State) : exec (.vrcp f d a x e) s = execVrcp f d a x e s := rfl
theorem exec_vrsqrt (f : Fmt) (d a : VReg) (x e : Option MReg) (s : State) : exec (.vrsqrt f d a x e) s = execVrsqrt f d a x e s := rfl
theorem exec_vexp2 (f : Fmt) (d a : VReg) (x e : Option MReg) (s : State) : exec (.vexp2 f d a x e) s = execVexp2 f d a x e s := rfl
theorem exec_vlog2 (f : Fmt) (d a : VReg) (x e : Option MReg) (s : State) : exec (.vlog2 f d a x e) s = execVlog2 f d a x e s := rfl
theorem exec_vcmpeqFloat (f : Fmt) (d : MReg) (a b : VReg) (x e : Option MReg) (s : State) : exec (.vcmpeqFloat f d a b x e) s = execVcmpeqFloat f d a b x e s := rfl
theorem exec_vcmpltFloat (f : Fmt) (d : MReg) (a b : VReg) (x e : Option MReg) (s : State) : exec (.vcmpltFloat f d a b x e) s = execVcmpltFloat f d a b x e s := rfl
theorem exec_vcmple (f : Fmt) (d : MReg) (a b : VReg) (x e : Option MReg) (s : State) : exec (.vcmple f d a b x e) s = execVcmple f d a b x e s := rfl
theorem exec_vcmpun (f : Fmt) (d : MReg) (a b : VReg) (x e : Option MReg) (s : State) : exec (.vcmpun f d a b x e) s = execVcmpun f d a b x e s := rfl
theorem exec_vaddInt (f : Fmt) (d a b : VReg) (x e : Option MReg) (s : State) : exec (.vaddInt f d a b x e) s = execVaddInt f d a b x e s := rfl
theorem exec_vsubInt (f : Fmt) (d a b : VReg) (x e : Option MReg) (s : State) : exec (.vsubInt f d a b x e) s = execVsubInt f d a b x e s := rfl
theorem exec_vmulInt (f : Fmt) (d a b : VReg) (x e : Option MReg) (s : State) : exec (.vmulInt f d a b x e) s = execVmulInt f d a b x e s := rfl
theorem exec_vmulh (f : Fmt) (d a b : VReg) (x e : Option MReg) (s : State) : exec (.vmulh f d a b x e) s = execVmulh f d a b x e s := rfl
theorem exec_vadds (f : Fmt) (d a b : VReg) (x e : Option MReg) (s : State) : exec (.vadds f d a b x e) s = execVadds f d a b x e s := rfl
theorem exec_vsubs (f : Fmt) (d a b : VReg) (x e : Option MReg) (s : State) : exec (.vsubs f d a b x e) s = execVsubs f d a b x e s := rfl
theorem exec_vand (f : Fmt) (d a b : VReg) (x e : Option MReg) (s : State) : exec (.vand f d a b x e) s = execVand f d a b x e s := rfl
theorem exec_vor (f : Fmt) (d a b : VReg) (x e : Option MReg) (s : State) : exec (.vor f d a b x e) s = execVor f d a b x e s := rfl
theorem exec_vxor (f : Fmt) (d a b : VReg) (x e : Option MReg) (s : State) : exec (.vxor f d a b x e) s = execVxor f d a b x e s := rfl
theorem exec_vsll (f : Fmt) (d a b : VReg) (x e : Option MReg) (s : State) : exec (.vsll f d a b x e) s = execVsll f d a b x e s := rfl
theorem exec_vsrl (f : Fmt) (d a b : VReg) (x e : Option MReg) (s : State) : exec (.vsrl f d a b x e) s = execVsrl f d a b x e s := rfl
theorem exec_vsra (f : Fmt) (d a b : VReg) (x e : Option MReg) (s : State) : exec (.vsra f d a b x e) s = execVsra f d a b x e s := rfl
theorem exec_vminInt (f : Fmt) (d a b : VReg) (x e : Option MReg) (s : State) : exec (.vminInt f d a b x e) s = execVminInt f d a b x e s := rfl
theorem exec_vmaxInt (f : Fmt) (d a b : VReg) (x e : Option MReg) (s : State) : exec (.vmaxInt f d a b x e) s = execVmaxInt f d a b x e s := rfl
theorem exec_vcmpeqInt (f : Fmt) (d : MReg) (a b : VReg) (x e : Option MReg) (s : State) : exec (.vcmpeqInt f d a b x e) s = execVcmpeqInt f d a b x e s := rfl
theorem exec_vcmpltInt (f : Fmt) (d : MReg) (a b : VReg) (x e : Option MReg) (s : State) : exec (.vcmpltInt f d a b x e) s = execVcmpltInt f d a b x e s := rfl
theorem exec_vcmpltn (f : Fmt) (d : MReg) (a b : VReg) (x e : Option MReg) (s : State) : exec (.vcmpltn f d a b x e) s = execVcmpltn f d a b x e s := rfl
theorem exec_vabsInt (f : Fmt) (d a : VReg) (x e : Option MReg) (s : State) : exec (.vabsInt f d a x e) s = execVabsInt f d a x e s := rfl
theorem exec_vcvt (f : Fmt) (d a : VReg) (src : Fmt) (x e : Option MReg) (s : State) : exec (.vcvt f d a src x e) s = execVcvt f d a src x e s := rfl
theorem exec_vq (d a : VReg) (x e : Option MReg) (s : State) : exec (.vq d a x e) s = execVq d a x e s := rfl
theorem exec_vdq (f : Fmt) (d a : VReg) (x e : Option MReg) (s : State) : exec (.vdq f d a x e) s = execVdq f d a x e s := rfl
theorem exec_vscl (d a : VReg) (s : State) : exec (.vscl d a) s = execVscl d a s := rfl
theorem exec_vscw (d a : VReg) (s : State) : exec (.vscw d a) s = execVscw d a s := rfl
theorem exec_vmv (d a : VReg) (e : Option MReg) (s : State) : exec (.vmv d a e) s = execVmv d a e s := rfl
theorem exec_vbc (f : Fmt) (d : VReg) (b : GReg) (e : Option MReg) (s : State) : exec (.vbc f d b e) s = execVbc f d b e s := rfl
theorem exec_vid (f : Fmt) (d : VReg) (b : GReg) (e : Option MReg) (s : State) : exec (.vid f d b e) s = execVid f d b e s := rfl
theorem exec_vsel (d a b : VReg) (c : MReg) (e : Option MReg) (s : State) : exec (.vsel d a b c e) s = execVsel d a b c e s := rfl
theorem exec_vslu (d a : VReg) (b : GReg) (e : Option MReg) (s : State) : exec (.vslu d a b e) s = execVslu d a b e s := rfl
theorem exec_vsld (d a : VReg) (b : GReg) (e : Option MReg) (s : State) : exec (.vsld d a b e) s = execVsld d a b e s := rfl
theorem exec_vperm (d a b : VReg) (e : Option MReg) (s : State) : exec (.vperm d a b e) s = execVperm d a b e s := rfl
theorem exec_vrow (d a : VReg) (k : BitVec 3) (e : Option MReg) (s : State) : exec (.vrow d a k e) s = execVrow d a k e s := rfl
theorem exec_vxs (f : Fmt) (d : GReg) (a : VReg) (b : GReg) (s : State) : exec (.vxs f d a b) s = execVxs f d a b s := rfl
theorem exec_vins (f : Fmt) (d : VReg) (a b : GReg) (s : State) : exec (.vins f d a b) s = execVins f d a b s := rfl
theorem exec_vamv (d : AReg) (a : VReg) (b : GReg) (e : Option MReg) (s : State) : exec (.vamv d a b e) s = execVamv d a b e s := rfl
theorem exec_vmva (d : VReg) (a : AReg) (b : GReg) (e : Option MReg) (s : State) : exec (.vmva d a b e) s = execVmva d a b e s := rfl
theorem exec_vredAdd (f : Fmt) (d : GReg) (a : RSrc) (e : Option MReg) (s : State) : exec (.vredAdd f d a e) s = execVredAdd f d a e s := rfl
theorem exec_vredMax (f : Fmt) (d : GReg) (a : RSrc) (e : Option MReg) (s : State) : exec (.vredMax f d a e) s = execVredMax f d a e s := rfl
theorem exec_vredMin (f : Fmt) (d : GReg) (a : RSrc) (e : Option MReg) (s : State) : exec (.vredMin f d a e) s = execVredMin f d a e s := rfl
theorem exec_vcadd (f : Fmt) (d : AReg) (a : VReg) (b : GReg) (e : Option MReg) (s : State) : exec (.vcadd f d a b e) s = execVcadd f d a b e s := rfl
theorem exec_vcmax (f : Fmt) (d : AReg) (a : VReg) (b : GReg) (e : Option MReg) (s : State) : exec (.vcmax f d a b e) s = execVcmax f d a b e s := rfl
theorem exec_vsparse (f : Fmt) (d a : VReg) (c : MReg) (n : BitVec 5) (s : State) : exec (.vsparse f d a c n) s = execVsparse f d a c n s := rfl
theorem exec_vsparseP (f : Fmt) (d a : VReg) (c : MReg) (n : BitVec 5) (s : State) : exec (.vsparseP f d a c n) s = execVsparseP f d a c n s := rfl
theorem exec_vexpand (d a : VReg) (c : MReg) (s : State) : exec (.vexpand d a c) s = execVexpand d a c s := rfl
theorem exec_mand (d a b : MReg) (e : Option MReg) (s : State) : exec (.mand d a b e) s = execMand d a b e s := rfl
theorem exec_mor (d a b : MReg) (e : Option MReg) (s : State) : exec (.mor d a b e) s = execMor d a b e s := rfl
theorem exec_mxor (d a b : MReg) (e : Option MReg) (s : State) : exec (.mxor d a b e) s = execMxor d a b e s := rfl
theorem exec_mnot (d a : MReg) (e : Option MReg) (s : State) : exec (.mnot d a e) s = execMnot d a e s := rfl
theorem exec_mpop (d : GReg) (a : MReg) (e : Option MReg) (s : State) : exec (.mpop d a e) s = execMpop d a e s := rfl
theorem exec_mfirst (d : GReg) (a : MReg) (e : Option MReg) (s : State) : exec (.mfirst d a e) s = execMfirst d a e s := rfl
theorem exec_mset (d : MReg) (b : GReg) (e : Option MReg) (s : State) : exec (.mset d b e) s = execMset d b e s := rfl
theorem exec_ldB (d base ix : GReg) (scale : BitVec 2) (pol : Policy) (off : BitVec 18) (s : State) : exec (.ldB d base ix scale pol off) s = execLdB d base ix scale pol off s := rfl
theorem exec_ldH (d base ix : GReg) (scale : BitVec 2) (pol : Policy) (off : BitVec 18) (s : State) : exec (.ldH d base ix scale pol off) s = execLdH d base ix scale pol off s := rfl
theorem exec_ldW (d base ix : GReg) (scale : BitVec 2) (pol : Policy) (off : BitVec 18) (s : State) : exec (.ldW d base ix scale pol off) s = execLdW d base ix scale pol off s := rfl
theorem exec_ldD (d base ix : GReg) (scale : BitVec 2) (pol : Policy) (off : BitVec 18) (s : State) : exec (.ldD d base ix scale pol off) s = execLdD d base ix scale pol off s := rfl
theorem exec_ldBn (d base ix : GReg) (scale : BitVec 2) (pol : Policy) (off : BitVec 18) (s : State) : exec (.ldBn d base ix scale pol off) s = execLdBn d base ix scale pol off s := rfl
theorem exec_ldHn (d base ix : GReg) (scale : BitVec 2) (pol : Policy) (off : BitVec 18) (s : State) : exec (.ldHn d base ix scale pol off) s = execLdHn d base ix scale pol off s := rfl
theorem exec_ldWn (d base ix : GReg) (scale : BitVec 2) (pol : Policy) (off : BitVec 18) (s : State) : exec (.ldWn d base ix scale pol off) s = execLdWn d base ix scale pol off s := rfl
theorem exec_stB (d base ix : GReg) (scale : BitVec 2) (pol : Policy) (off : BitVec 18) (s : State) : exec (.stB d base ix scale pol off) s = execStB d base ix scale pol off s := rfl
theorem exec_stH (d base ix : GReg) (scale : BitVec 2) (pol : Policy) (off : BitVec 18) (s : State) : exec (.stH d base ix scale pol off) s = execStH d base ix scale pol off s := rfl
theorem exec_stW (d base ix : GReg) (scale : BitVec 2) (pol : Policy) (off : BitVec 18) (s : State) : exec (.stW d base ix scale pol off) s = execStW d base ix scale pol off s := rfl
theorem exec_stD (d base ix : GReg) (scale : BitVec 2) (pol : Policy) (off : BitVec 18) (s : State) : exec (.stD d base ix scale pol off) s = execStD d base ix scale pol off s := rfl
theorem exec_pf (base ix : GReg) (scale : BitVec 2) (pol : Policy) (off : BitVec 18) (s : State) : exec (.pf base ix scale pol off) s = execPf base ix scale pol off s := rfl
theorem exec_vld (f : Fmt) (d : VReg) (base ix : GReg) (scale : BitVec 2) (pol : Policy) (off : BitVec 14) (e : Option MReg) (s : State) : exec (.vld f d base ix scale pol off e) s = execVld f d base ix scale pol off e s := rfl
theorem exec_vlds (f : Fmt) (d : VReg) (base ix : GReg) (scale : BitVec 2) (pol : Policy) (off : BitVec 14) (e : Option MReg) (s : State) : exec (.vlds f d base ix scale pol off e) s = execVlds f d base ix scale pol off e s := rfl
theorem exec_vldx (f : Fmt) (d : VReg) (base : GReg) (ix : VReg) (scale : BitVec 2) (pol : Policy) (off : BitVec 14) (e : Option MReg) (s : State) : exec (.vldx f d base ix scale pol off e) s = execVldx f d base ix scale pol off e s := rfl
theorem exec_vst (f : Fmt) (d : VReg) (base ix : GReg) (scale : BitVec 2) (pol : Policy) (off : BitVec 14) (e : Option MReg) (s : State) : exec (.vst f d base ix scale pol off e) s = execVst f d base ix scale pol off e s := rfl
theorem exec_vsts (f : Fmt) (d : VReg) (base ix : GReg) (scale : BitVec 2) (pol : Policy) (off : BitVec 14) (e : Option MReg) (s : State) : exec (.vsts f d base ix scale pol off e) s = execVsts f d base ix scale pol off e s := rfl
theorem exec_vstx (f : Fmt) (d : VReg) (base : GReg) (ix : VReg) (scale : BitVec 2) (pol : Policy) (off : BitVec 14) (e : Option MReg) (s : State) : exec (.vstx f d base ix scale pol off e) s = execVstx f d base ix scale pol off e s := rfl
theorem exec_vsadd (f : Fmt) (d : VReg) (base : GReg) (ix : VReg) (scale : BitVec 2) (sc : Scope) (off : BitVec 14) (e : Option MReg) (s : State) : exec (.vsadd f d base ix scale sc off e) s = execVsadd f d base ix scale sc off e s := rfl
theorem exec_vldT (d : VReg) (base ix : GReg) (pol : Policy) (tid : BitVec 8) (e : Option MReg) (s : State) : exec (.vldT d base ix pol tid e) s = execVldT d base ix pol tid e s := rfl
theorem exec_vstT (d : VReg) (base ix : GReg) (pol : Policy) (tid : BitVec 8) (e : Option MReg) (s : State) : exec (.vstT d base ix pol tid e) s = execVstT d base ix pol tid e s := rfl
theorem exec_amoAdd (d base ix : GReg) (sz : ASize) (sc : Scope) (off : BitVec 18) (s : State) : exec (.amoAdd d base ix sz sc off) s = execAmoAdd d base ix sz sc off s := rfl
theorem exec_amoAnd (d base ix : GReg) (sz : ASize) (sc : Scope) (off : BitVec 18) (s : State) : exec (.amoAnd d base ix sz sc off) s = execAmoAnd d base ix sz sc off s := rfl
theorem exec_amoOr (d base ix : GReg) (sz : ASize) (sc : Scope) (off : BitVec 18) (s : State) : exec (.amoOr d base ix sz sc off) s = execAmoOr d base ix sz sc off s := rfl
theorem exec_amoXor (d base ix : GReg) (sz : ASize) (sc : Scope) (off : BitVec 18) (s : State) : exec (.amoXor d base ix sz sc off) s = execAmoXor d base ix sz sc off s := rfl
theorem exec_amoMin (d base ix : GReg) (sz : ASize) (sc : Scope) (off : BitVec 18) (s : State) : exec (.amoMin d base ix sz sc off) s = execAmoMin d base ix sz sc off s := rfl
theorem exec_amoMax (d base ix : GReg) (sz : ASize) (sc : Scope) (off : BitVec 18) (s : State) : exec (.amoMax d base ix sz sc off) s = execAmoMax d base ix sz sc off s := rfl
theorem exec_amoMinn (d base ix : GReg) (sz : ASize) (sc : Scope) (off : BitVec 18) (s : State) : exec (.amoMinn d base ix sz sc off) s = execAmoMinn d base ix sz sc off s := rfl
theorem exec_amoMaxn (d base ix : GReg) (sz : ASize) (sc : Scope) (off : BitVec 18) (s : State) : exec (.amoMaxn d base ix sz sc off) s = execAmoMaxn d base ix sz sc off s := rfl
theorem exec_amoSwap (d base ix : GReg) (sz : ASize) (sc : Scope) (off : BitVec 18) (s : State) : exec (.amoSwap d base ix sz sc off) s = execAmoSwap d base ix sz sc off s := rfl
theorem exec_amoCas (d base ix : GReg) (sz : ASize) (sc : Scope) (off : BitVec 18) (s : State) : exec (.amoCas d base ix sz sc off) s = execAmoCas d base ix sz sc off s := rfl
theorem exec_amoFadd (d base ix : GReg) (sc : Scope) (off : BitVec 18) (s : State) : exec (.amoFadd d base ix sc off) s = execAmoFadd d base ix sc off s := rfl
theorem exec_amoLd (d base : GReg) (sz : ASize) (sc : Scope) (off : BitVec 18) (s : State) : exec (.amoLd d base sz sc off) s = execAmoLd d base sz sc off s := rfl
theorem exec_amoSt (base ix : GReg) (sz : ASize) (sc : Scope) (off : BitVec 18) (s : State) : exec (.amoSt base ix sz sc off) s = execAmoSt base ix sz sc off s := rfl
theorem exec_wait (d base ix : GReg) (sz : ASize) (sc : Scope) (off : BitVec 14) (cond : WCond) (s : State) : exec (.wait d base ix sz sc off cond) s = execWait d base ix sz sc off cond s := rfl
theorem exec_ph (d : GReg) (s : State) : exec (.ph d) s = execPh d s := rfl
theorem exec_phTimestamp (d a : GReg) (s : State) : exec (.phTimestamp d a) s = execPhTimestamp d a s := rfl
theorem exec_phA (d : GReg) (s : State) : exec (.phA d) s = execPhA d s := rfl
theorem exec_fx (dst frm : Path) (s : State) : exec (.fx dst frm) s = execFx dst frm s := rfl
theorem exec_opa (f : Fmt) (d : TReg) (a : AReg) (b : VReg) (c : GReg) (c16 : Bool) (s : State) : exec (.opa f d a b c c16) s = execOpa f d a b c c16 s := rfl
theorem exec_tfold (d : TReg) (a : AReg) (b : VReg) (c : GReg) (ka kv : BitVec 3) (s : State) : exec (.tfold d a b c ka kv) s = execTfold d a b c ka kv s := rfl
theorem exec_tclr (d : GReg) (a : TReg) (mask : BitVec 3) (s : State) : exec (.tclr d a mask) s = execTclr d a mask s := rfl
theorem exec_tld (f : Fmt) (d : TReg) (a b c : GReg) (row0 : BitVec 6) (s : State) : exec (.tld f d a b c row0) s = execTld f d a b c row0 s := rfl
theorem exec_tst (f : Fmt) (d : TReg) (a b c : GReg) (row0 : BitVec 6) (s : State) : exec (.tst f d a b c row0) s = execTst f d a b c row0 s := rfl
theorem exec_tmv (f : Fmt) (d : VReg) (a : TReg) (c : GReg) (row0 : BitVec 6) (e : Option MReg) (s : State) : exec (.tmv f d a c row0 e) s = execTmv f d a c row0 e s := rfl
theorem exec_tadd (f : Fmt) (d : TReg) (b : VReg) (c : GReg) (row0 : BitVec 6) (e : Option MReg) (s : State) : exec (.tadd f d b c row0 e) s = execTadd f d b c row0 e s := rfl
theorem exec_cpw (flg src dst len : GReg) (ch : BitVec 2) (s : State) : exec (.cpw flg src dst len ch) s = execCpw flg src dst len ch s := rfl
theorem exec_cpgo (d : GReg) (ch : BitVec 2) (s : State) : exec (.cpgo d ch) s = execCpgo d ch s := rfl
theorem exec_cwait (d a : GReg) (ch : BitVec 2) (s : State) : exec (.cwait d a ch) s = execCwait d a ch s := rfl
theorem exec_cpst (d a : GReg) (ch : BitVec 2) (s : State) : exec (.cpst d a ch) s = execCpst d a ch s := rfl
theorem exec_tdef (d : GReg) (a : VReg) (b c : GReg) (tid : BitVec 8) (s : State) : exec (.tdef d a b c tid) s = execTdef d a b c tid s := rfl
theorem exec_tdrop (tid : BitVec 8) (s : State) : exec (.tdrop tid) s = execTdrop tid s := rfl
theorem exec_tget (d : GReg) (tid : BitVec 8) (k : BitVec 5) (s : State) : exec (.tget d tid k) s = execTget d tid k s := rfl
theorem exec_rinit (d a b c : GReg) (n : BitVec 4) (s : State) : exec (.rinit d a b c n) s = execRinit d a b c n s := rfl
theorem exec_rget (d : GReg) (n : BitVec 4) (s : State) : exec (.rget d n) s = execRget d n s := rfl
theorem exec_rgetNw (d : GReg) (n : BitVec 4) (s : State) : exec (.rgetNw d n) s = execRgetNw d n s := rfl
theorem exec_rrel (n : BitVec 4) (s : State) : exec (.rrel n) s = execRrel n s := rfl
theorem exec_xins (f : Fmt) (d : GReg) (a b : VReg) (c : MReg) (e : Option MReg) (s : State) : exec (.xins f d a b c e) s = execXins f d a b c e s := rfl
theorem exec_xacc (f : Fmt) (d : GReg) (a b : VReg) (c : MReg) (e : Option MReg) (s : State) : exec (.xacc f d a b c e) s = execXacc f d a b c e s := rfl
theorem exec_xlook (f : Fmt) (d a : VReg) (c : MReg) (e : Option MReg) (s : State) : exec (.xlook f d a c e) s = execXlook f d a c e s := rfl
theorem exec_xdel (d : GReg) (a : VReg) (c : MReg) (e : Option MReg) (s : State) : exec (.xdel d a c e) s = execXdel d a c e s := rfl
theorem exec_xdrain (f : Fmt) (d : GReg) (a b : VReg) (s : State) : exec (.xdrain f d a b) s = execXdrain f d a b s := rfl
theorem exec_xcnt (d : GReg) (sel : Bool) (s : State) : exec (.xcnt d sel) s = execXcnt d sel s := rfl
theorem exec_xclr (d : GReg) (s : State) : exec (.xclr d) s = execXclr d s := rfl
theorem exec_kxdef (d a : GReg) (kx : BitVec 8) (s : State) : exec (.kxdef d a kx) s = execKxdef d a kx s := rfl
theorem exec_kxprj (d b c : GReg) (kx : BitVec 8) (s : State) : exec (.kxprj d b c kx) s = execKxprj d b c kx s := rfl
theorem exec_kst (d : AReg) (a : VReg) (b c : GReg) (kx : BitVec 8) (s : State) : exec (.kst d a b c kx) s = execKst d a b c kx s := rfl
theorem exec_ksig (d : AReg) (a : VReg) (c : GReg) (kx : BitVec 8) (s : State) : exec (.ksig d a c kx) s = execKsig d a c kx s := rfl
theorem exec_kga (d : VReg) (a : AReg) (b c : GReg) (kx : BitVec 8) (k : BitVec 3) (s : State) : exec (.kga d a b c kx k) s = execKga d a b c kx k s := rfl
theorem exec_kgaU (d : VReg) (a : AReg) (b c : GReg) (kx : BitVec 8) (k : BitVec 3) (s : State) : exec (.kgaU d a b c kx k) s = execKgaU d a b c kx k s := rfl
theorem exec_kxst (d : GReg) (kx : BitVec 8) (sel : BitVec 3) (s : State) : exec (.kxst d kx sel) s = execKxst d kx sel s := rfl
theorem exec_kxstClr (d : GReg) (kx : BitVec 8) (sel : BitVec 3) (s : State) : exec (.kxstClr d kx sel) s = execKxstClr d kx sel s := rfl
theorem exec_kxclr (d : GReg) (kx : BitVec 8) (s : State) : exec (.kxclr d kx) s = execKxclr d kx s := rfl
theorem exec_gadd (d a b : GReg) (s : State) : exec (.gadd d a b) s = execGadd d a b s := rfl
theorem exec_vgadd (f : Fmt) (d a : GReg) (b c : VReg) (e : Option MReg) (s : State) : exec (.vgadd f d a b c e) s = execVgadd f d a b c e s := rfl
theorem exec_gld (d : VReg) (a : GReg) (b : VReg) (e : Option MReg) (s : State) : exec (.gld d a b e) s = execGld d a b e s := rfl
theorem exec_gest (d : VReg) (a : GReg) (b : VReg) (e : Option MReg) (s : State) : exec (.gest d a b e) s = execGest d a b e s := rfl
theorem exec_gw (d a : GReg) (s : State) : exec (.gw d a) s = execGw d a s := rfl
theorem exec_gspr (d : GReg) (n : BitVec 4) (s : State) : exec (.gspr d n) s = execGspr d n s := rfl
theorem exec_gstep (d a : GReg) (n : BitVec 4) (s : State) : exec (.gstep d a n) s = execGstep d a n s := rfl
theorem exec_pairWord (b0 : Bool) (s0 : PSlot) (b1 : Bool) (s1 : PSlot) (s : State) : exec (.pairWord b0 s0 b1 s1) s = execPairWord b0 s0 b1 s1 s := rfl
theorem exec_gquiet (n : BitVec 4) (s : State) : exec (.gquiet n) s = execGquiet n s := rfl
theorem exec_gctlDefine (d a : GReg) (n : BitVec 4) (s : State) : exec (.gctlDefine d a n) s = execGctlDefine d a n s := rfl
theorem exec_gctlUndefine (d a : GReg) (n : BitVec 4) (s : State) : exec (.gctlUndefine d a n) s = execGctlUndefine d a n s := rfl
theorem exec_gctlStatus (d a : GReg) (n : BitVec 4) (s : State) : exec (.gctlStatus d a n) s = execGctlStatus d a n s := rfl
theorem exec_gctlStatusClear (d a : GReg) (n : BitVec 4) (s : State) : exec (.gctlStatusClear d a n) s = execGctlStatusClear d a n s := rfl
theorem exec_yield (s : State) : exec (.yield) s = execYield s := rfl
theorem exec_exit (s : State) : exec (.exit) s = execExit s := rfl
theorem exec_tretGroup (s : State) : exec (.tretGroup) s = execTretGroup s := rfl
theorem exec_tretLaunch (s : State) : exec (.tretLaunch) s = execTretLaunch s := rfl
theorem exec_tretRestart (s : State) : exec (.tretRestart) s = execTretRestart s := rfl
theorem exec_tretResume (s : State) : exec (.tretResume) s = execTretResume s := rfl
theorem exec_sdrain (s : State) : exec (.sdrain) s = execSdrain s := rfl
theorem exec_fence (s : State) : exec (.fence) s = execFence s := rfl
theorem exec_sleepDeadline (h : Nat) (s : State) : exec (.sleepDeadline h) s = execSleepDeadline h s := rfl
theorem exec_storeFaultReport (h : Nat) (s : State) : exec (.storeFaultReport h) s = execStoreFaultReport h s := rfl
theorem exec_waitSatisfied (h : Nat) (s : State) : exec (.waitSatisfied h) s = execWaitSatisfied h s := rfl
theorem exec_orderedCommitTurn (h : Nat) (s : State) : exec (.orderedCommitTurn h) s = execOrderedCommitTurn h s := rfl
theorem exec_firmwareCommit (h : Nat) (s : State) : exec (.firmwareCommit h) s = execFirmwareCommit h s := rfl
theorem exec_copyTransferComplete (h ch id : Nat) (s : State) : exec (.copyTransferComplete h ch id) s = execCopyTransferComplete h ch id s := rfl
theorem exec_copyErrorCompletion (h ch id kind : Nat) (s : State) : exec (.copyErrorCompletion h ch id kind) s = execCopyErrorCompletion h ch id kind s := rfl
theorem exec_ringSlotFill (core ring : Nat) (s : State) : exec (.ringSlotFill core ring) s = execRingSlotFill core ring s := rfl
theorem exec_powerPeriodBoundary (ms : List DieMeasure) (s : State) : exec (.powerPeriodBoundary ms) s = execPowerPeriodBoundary ms s := rfl
theorem exec_laneHoldLimitExpiry (h : Nat) (s : State) : exec (.laneHoldLimitExpiry h) s = execLaneHoldLimitExpiry h s := rfl
theorem exec_currentAlarm (die : Nat) (s : State) : exec (.currentAlarm die) s = execCurrentAlarm die s := rfl
theorem exec_thermalStepTick (die reading : Nat) (s : State) : exec (.thermalStepTick die reading) s = execThermalStepTick die reading s := rfl
theorem exec_envelopeSet (watts : Nat) (div : List Nat) (s : State) : exec (.envelopeSet watts div) s = execEnvelopeSet watts div s := rfl
theorem exec_packetLaunch (p q : Nat) (s : State) : exec (.packetLaunch p q) s = execPacketLaunch p q s := rfl
theorem exec_groupPlacement (lid core : Nat) (tfbs : List Nat) (s : State) : exec (.groupPlacement lid core tfbs) s = execGroupPlacement lid core tfbs s := rfl
theorem exec_dresserEvaluation (lid die : Nat) (s : State) : exec (.dresserEvaluation lid die) s = execDresserEvaluation lid die s := rfl
theorem exec_launchRetirement (lid : Nat) (s : State) : exec (.launchRetirement lid) s = execLaunchRetirement lid s := rfl
theorem exec_digestRegister (lid : Nat) (ranges : List (Nat × Nat)) (addr : Nat) (s : State) : exec (.digestRegister lid ranges addr) s = execDigestRegister lid ranges addr s := rfl
theorem exec_eviction (lid : Nat) (s : State) : exec (.eviction lid) s = execEviction lid s := rfl
theorem exec_groupReplacement (lid grp core : Nat) (s : State) : exec (.groupReplacement lid grp core) s = execGroupReplacement lid grp core s := rfl
theorem exec_preemption (h : Nat) (s : State) : exec (.preemption h) s = execPreemption h s := rfl
theorem exec_contextResume (h core : Nat) (s : State) : exec (.contextResume h core) s = execContextResume h core s := rfl
theorem exec_tileLazySave (lid : Nat) (at_ : SaveArea) (s : State) : exec (.tileLazySave lid at_) s = execTileLazySave lid at_ s := rfl
theorem exec_tileReload (h t : Nat) (s : State) : exec (.tileReload h t) s = execTileReload h t s := rfl
theorem exec_pageFaultService (p va : Nat) (act : FaultAct) (s : State) : exec (.pageFaultService p va act) s = execPageFaultService p va act s := rfl
theorem exec_shootdown (p : Nat) (page : Shot) (s : State) : exec (.shootdown p page) s = execShootdown p page s := rfl
theorem exec_pageMigration (p va ppn : Nat) (s : State) : exec (.pageMigration p va ppn) s = execPageMigration p va ppn s := rfl
theorem exec_migrationComplete (p va : Nat) (s : State) : exec (.migrationComplete p va) s = execMigrationComplete p va s := rfl
theorem exec_linkCrcReplay (link fails : Nat) (who : LinkUse) (va : Nat) (s : State) : exec (.linkCrcReplay link fails who va) s = execLinkCrcReplay link fails who va s := rfl
theorem exec_scrubRead (stack : Nat) (lines : List Nat) (s : State) : exec (.scrubRead stack lines) s = execScrubRead stack lines s := rfl
theorem exec_doorbellWrite (p q : Nat) (tail : BitVec 32) (s : State) : exec (.doorbellWrite p q tail) s = execDoorbellWrite p q tail s := rfl
theorem exec_doorbellEntryProcess (p : Nat) (s : State) : exec (.doorbellEntryProcess p) s = execDoorbellEntryProcess p s := rfl
theorem exec_qcfgWrite (p q : Nat) (val : BitVec 64) (s : State) : exec (.qcfgWrite p q val) s = execQcfgWrite p q val s := rfl
theorem exec_hostRegisterWrite (p q reg : Nat) (val : BitVec 64) (s : State) : exec (.hostRegisterWrite p q reg val) s = execHostRegisterWrite p q reg val s := rfl
theorem exec_packetNop (p q : Nat) (s : State) : exec (.packetNop p q) s = execPacketNop p q s := rfl
theorem exec_packetWaitValue (p q : Nat) (s : State) : exec (.packetWaitValue p q) s = execPacketWaitValue p q s := rfl
theorem exec_waitValueComplete (p q : Nat) (s : State) : exec (.waitValueComplete p q) s = execWaitValueComplete p q s := rfl
theorem exec_packetWriteValue (p q : Nat) (s : State) : exec (.packetWriteValue p q) s = execPacketWriteValue p q s := rfl
theorem exec_packetCond (p q : Nat) (s : State) : exec (.packetCond p q) s = execPacketCond p q s := rfl
theorem exec_packetLoop (p q : Nat) (s : State) : exec (.packetLoop p q) s = execPacketLoop p q s := rfl
theorem exec_packetIndirect (p q : Nat) (s : State) : exec (.packetIndirect p q) s = execPacketIndirect p q s := rfl
theorem exec_indirectFetchAhead (p q : Nat) (s : State) : exec (.indirectFetchAhead p q) s = execIndirectFetchAhead p q s := rfl
theorem exec_packetFetchFence (p q : Nat) (s : State) : exec (.packetFetchFence p q) s = execPacketFetchFence p q s := rfl
theorem exec_packetCopy (p q : Nat) (s : State) : exec (.packetCopy p q) s = execPacketCopy p q s := rfl
theorem exec_packetTimestamp (p q : Nat) (s : State) : exec (.packetTimestamp p q) s = execPacketTimestamp p q s := rfl
theorem exec_hostRead (p : Nat) (at_ : HostPlace) (n : Nat) (s : State) : exec (.hostRead p at_ n) s = execHostRead p at_ n s := rfl
theorem exec_hostWrite (p va : Nat) (bytes : List (BitVec 8)) (s : State) : exec (.hostWrite p va bytes) s = execHostWrite p va bytes s := rfl
theorem exec_gossipExchange (reg page slot : Nat) (s : State) : exec (.gossipExchange reg page slot) s = execGossipExchange reg page slot s := rfl
theorem exec_gossipReceipt (port : Nat) (msg : GMsg) (s : State) : exec (.gossipReceipt port msg) s = execGossipReceipt port msg s := rfl
theorem exec_gossipAck (reg port seq : Nat) (s : State) : exec (.gossipAck reg port seq) s = execGossipAck reg port seq s := rfl
theorem exec_gossipRefusalNotice (reg port seq : Nat) (s : State) : exec (.gossipRefusalNotice reg port seq) s = execGossipRefusalNotice reg port seq s := rfl
theorem exec_gossipRetransmit (reg port : Nat) (msg : Resend) (s : State) : exec (.gossipRetransmit reg port msg) s = execGossipRetransmit reg port msg s := rfl
theorem exec_gossipAddBackRetry (reg port seq : Nat) (s : State) : exec (.gossipAddBackRetry reg port seq) s = execGossipAddBackRetry reg port seq s := rfl
theorem exec_portLost (port : Nat) (got : Option (List (Nat × Nat))) (told : List (Nat × Nat)) (cut : Fencing) (s : State) : exec (.portLost port got told cut) s = execPortLost port got told cut s := rfl
theorem exec_peerRequest (p : Nat) (way : PeerWay) (req : PeerReq) (s : State) : exec (.peerRequest p way req) s = execPeerRequest p way req s := rfl
theorem exec_breakpointStop (h : Nat) (s : State) : exec (.breakpointStop h) s = execBreakpointStop h s := rfl
theorem exec_singleStep (h : Nat) (issue : Bool) (s : State) : exec (.singleStep h issue) s = execSingleStep h issue s := rfl
theorem exec_debuggerResume (h : Nat) (edits : List RegEdit) (s : State) : exec (.debuggerResume h edits) s = execDebuggerResume h edits s := rfl
theorem exec_mgmtCoreRestart (c : Nat) (s : State) : exec (.mgmtCoreRestart c) s = execMgmtCoreRestart c s := rfl
theorem exec_mailboxMessage (src dst : Nat) (msg : List Nat) (s : State) : exec (.mailboxMessage src dst msg) s = execMailboxMessage src dst msg s := rfl
theorem exec_recordStart (lid : Nat) (setup : RecSetup) (s : State) : exec (.recordStart lid setup) s = execRecordStart lid setup s := rfl
theorem exec_logDrain (lid stream upto : Nat) (s : State) : exec (.logDrain lid stream upto) s = execLogDrain lid stream upto s := rfl
theorem exec_cerrClear (h ch : Nat) (s : State) : exec (.cerrClear h ch) s = execCerrClear h ch s := rfl
theorem exec_sealedMessage (p : Nat) (pages : List Nat) (msg : Sealing) (s : State) : exec (.sealedMessage p pages msg) s = execSealedMessage p pages msg s := rfl
theorem exec_attestationReport (r : Nat) (nonce : List (BitVec 8)) (s : State) : exec (.attestationReport r nonce) s = execAttestationReport r nonce s := rfl
theorem exec_sealedRegionRelease (r : Nat) (s : State) : exec (.sealedRegionRelease r) s = execSealedRegionRelease r s := rfl
theorem exec_packageReset (s : State) : exec (.packageReset) s = execPackageReset s := rfl
theorem exec_lifeCycleChange (st : Nat) (s : State) : exec (.lifeCycleChange st) s = execLifeCycleChange st s := rfl
theorem exec_elementGroupAdvance (cycle : ServeCycle) (s : State) : exec (.elementGroupAdvance cycle) s = execElementGroupAdvance cycle s := rfl
theorem exec_storePerformed (h : Nat) (s : State) : exec (.storePerformed h) s = execStorePerformed h s := rfl
theorem exec_hostLinkLost (s : State) : exec (.hostLinkLost) s = execHostLinkLost s := rfl
theorem exec_cxlLinkDown (port : Nat) (lines : List Nat) (s : State) : exec (.cxlLinkDown port lines) s = execCxlLinkDown port lines s := rfl
theorem exec_storedDataError (at_ : DataErr) (s : State) : exec (.storedDataError at_) s = execStoredDataError at_ s := rfl
theorem exec_breakpointSet (p : Nat) (pc : BitVec 64) (add : Bool) (s : State) : exec (.breakpointSet p pc add) s = execBreakpointSet p pc add s := rfl
theorem exec_debuggerInterrupt (h : Nat) (s : State) : exec (.debuggerInterrupt h) s = execDebuggerInterrupt h s := rfl
theorem exec_traceEnable (die base size : Nat) (en : Bool) (s : State) : exec (.traceEnable die base size en) s = execTraceEnable die base size en s := rfl
theorem exec_budgetSet (cls unit val : Nat) (s : State) : exec (.budgetSet cls unit val) s = execBudgetSet cls unit val s := rfl
theorem exec_powerFirmwareLimitsSet (what unit val : Nat) (s : State) : exec (.powerFirmwareLimitsSet what unit val) s = execPowerFirmwareLimitsSet what unit val s := rfl
theorem exec_partitionSetup (setup : PartSetup) (s : State) : exec (.partitionSetup setup) s = execPartitionSetup setup s := rfl

end Sys2Proof.Machine
end

