-- ==== Sys2Proof/Laws/Encode.lean ====
section
/-!
SUPPORT. The words of the encoder read back field by field: each format's fields (R62 to R68), each operand kind, each
slot of a pair word (R74, R75), and each major opcode's table (R83).
-/

namespace Sys2Proof.Laws

set_option linter.unusedSimpArgs false

/-- The fields of a packed word are those packed. -/
theorem fields_packA (bm : Bool) (maj : BitVec 8) (f : RawA) : unpackA (packA bm maj f) = f := by
  simp (disch := decide) only [unpackA, packA, header, BitVec.extractLsb'_append_eq_of_add_le, BitVec.extractLsb'_append_eq_of_le]
  simp

/-- The major opcode of a packed word. -/
theorem major_packA (bm : Bool) (maj : BitVec 8) (f : RawA) : (packA bm maj f).extractLsb' 54 8 = maj := by
  simp (disch := decide) only [packA, header, BitVec.extractLsb'_append_eq_of_add_le, BitVec.extractLsb'_append_eq_of_le]
  simp

/-- A full word has P = 0. -/
theorem top_packA (bm : Bool) (maj : BitVec 8) (f : RawA) : (packA bm maj f).extractLsb' 63 1 = 0 := by
  simp (disch := decide) only [packA, header, BitVec.extractLsb'_append_eq_of_add_le, BitVec.extractLsb'_append_eq_of_le]
  simp

/-- The mark of a packed word. -/
theorem mark_packA (bm : Bool) (maj : BitVec 8) (f : RawA) : (packA bm maj f).extractLsb' 62 1 = BitVec.ofBool bm := by
  simp (disch := decide) only [packA, header, BitVec.extractLsb'_append_eq_of_add_le, BitVec.extractLsb'_append_eq_of_le]
  simp

/-- The fields of a packed word are those packed. -/
theorem fields_packI (bm : Bool) (maj : BitVec 8) (f : RawI) : unpackI (packI bm maj f) = f := by
  simp (disch := decide) only [unpackI, packI, header, BitVec.extractLsb'_append_eq_of_add_le, BitVec.extractLsb'_append_eq_of_le]
  simp

/-- The major opcode of a packed word. -/
theorem major_packI (bm : Bool) (maj : BitVec 8) (f : RawI) : (packI bm maj f).extractLsb' 54 8 = maj := by
  simp (disch := decide) only [packI, header, BitVec.extractLsb'_append_eq_of_add_le, BitVec.extractLsb'_append_eq_of_le]
  simp

/-- A full word has P = 0. -/
theorem top_packI (bm : Bool) (maj : BitVec 8) (f : RawI) : (packI bm maj f).extractLsb' 63 1 = 0 := by
  simp (disch := decide) only [packI, header, BitVec.extractLsb'_append_eq_of_add_le, BitVec.extractLsb'_append_eq_of_le]
  simp

/-- The mark of a packed word. -/
theorem mark_packI (bm : Bool) (maj : BitVec 8) (f : RawI) : (packI bm maj f).extractLsb' 62 1 = BitVec.ofBool bm := by
  simp (disch := decide) only [packI, header, BitVec.extractLsb'_append_eq_of_add_le, BitVec.extractLsb'_append_eq_of_le]
  simp

/-- The fields of a packed word are those packed. -/
theorem fields_packB (bm : Bool) (maj : BitVec 8) (f : RawB) : unpackB (packB bm maj f) = f := by
  simp (disch := decide) only [unpackB, packB, header, BitVec.extractLsb'_append_eq_of_add_le, BitVec.extractLsb'_append_eq_of_le]
  simp

/-- The major opcode of a packed word. -/
theorem major_packB (bm : Bool) (maj : BitVec 8) (f : RawB) : (packB bm maj f).extractLsb' 54 8 = maj := by
  simp (disch := decide) only [packB, header, BitVec.extractLsb'_append_eq_of_add_le, BitVec.extractLsb'_append_eq_of_le]
  simp

/-- A full word has P = 0. -/
theorem top_packB (bm : Bool) (maj : BitVec 8) (f : RawB) : (packB bm maj f).extractLsb' 63 1 = 0 := by
  simp (disch := decide) only [packB, header, BitVec.extractLsb'_append_eq_of_add_le, BitVec.extractLsb'_append_eq_of_le]
  simp

/-- The mark of a packed word. -/
theorem mark_packB (bm : Bool) (maj : BitVec 8) (f : RawB) : (packB bm maj f).extractLsb' 62 1 = BitVec.ofBool bm := by
  simp (disch := decide) only [packB, header, BitVec.extractLsb'_append_eq_of_add_le, BitVec.extractLsb'_append_eq_of_le]
  simp

/-- The fields of a packed word are those packed. -/
theorem fields_packM (bm : Bool) (maj : BitVec 8) (f : RawM) : unpackM (packM bm maj f) = f := by
  simp (disch := decide) only [unpackM, packM, header, BitVec.extractLsb'_append_eq_of_add_le, BitVec.extractLsb'_append_eq_of_le]
  simp

/-- The major opcode of a packed word. -/
theorem major_packM (bm : Bool) (maj : BitVec 8) (f : RawM) : (packM bm maj f).extractLsb' 54 8 = maj := by
  simp (disch := decide) only [packM, header, BitVec.extractLsb'_append_eq_of_add_le, BitVec.extractLsb'_append_eq_of_le]
  simp

/-- A full word has P = 0. -/
theorem top_packM (bm : Bool) (maj : BitVec 8) (f : RawM) : (packM bm maj f).extractLsb' 63 1 = 0 := by
  simp (disch := decide) only [packM, header, BitVec.extractLsb'_append_eq_of_add_le, BitVec.extractLsb'_append_eq_of_le]
  simp

/-- The mark of a packed word. -/
theorem mark_packM (bm : Bool) (maj : BitVec 8) (f : RawM) : (packM bm maj f).extractLsb' 62 1 = BitVec.ofBool bm := by
  simp (disch := decide) only [packM, header, BitVec.extractLsb'_append_eq_of_add_le, BitVec.extractLsb'_append_eq_of_le]
  simp

/-- The fields of a packed word are those packed. -/
theorem fields_packS (bm : Bool) (maj : BitVec 8) (f : RawS) : unpackS (packS bm maj f) = f := by
  simp (disch := decide) only [unpackS, packS, header, BitVec.extractLsb'_append_eq_of_add_le, BitVec.extractLsb'_append_eq_of_le]
  simp

/-- The major opcode of a packed word. -/
theorem major_packS (bm : Bool) (maj : BitVec 8) (f : RawS) : (packS bm maj f).extractLsb' 54 8 = maj := by
  simp (disch := decide) only [packS, header, BitVec.extractLsb'_append_eq_of_add_le, BitVec.extractLsb'_append_eq_of_le]
  simp

/-- A full word has P = 0. -/
theorem top_packS (bm : Bool) (maj : BitVec 8) (f : RawS) : (packS bm maj f).extractLsb' 63 1 = 0 := by
  simp (disch := decide) only [packS, header, BitVec.extractLsb'_append_eq_of_add_le, BitVec.extractLsb'_append_eq_of_le]
  simp

/-- The mark of a packed word. -/
theorem mark_packS (bm : Bool) (maj : BitVec 8) (f : RawS) : (packS bm maj f).extractLsb' 62 1 = BitVec.ofBool bm := by
  simp (disch := decide) only [packS, header, BitVec.extractLsb'_append_eq_of_add_le, BitVec.extractLsb'_append_eq_of_le]
  simp

/-- A five-bit register field reads back. -/
theorem vr_vf (v : BitVec 5) : vr (vf v) = some v := by
  simp (disch := decide) only [vr, vf, BitVec.extractLsb'_append_eq_of_add_le, BitVec.extractLsb'_append_eq_of_le]
  simp

/-- A three-bit register field reads back. -/
theorem mr_mf (m : BitVec 3) : mr (mf m) = some m := by
  simp (disch := decide) only [mr, mf, BitVec.extractLsb'_append_eq_of_add_le, BitVec.extractLsb'_append_eq_of_le]
  simp

/-- A mask operand reads back. -/
theorem opt_flag_num (m : Option MReg) : opt (flag m) (num m) = some m := by cases m <;> rfl

/-- A format code reads back. -/
theorem fmt_ofCode_code (f : Fmt) : Fmt.ofCode f.code = f := by cases f <;> rfl
/-- A scalar float format code reads back. -/
theorem sfmt_ofCode_code (f : SFmt) : SFmt.ofCode f.code = some f := by cases f <;> rfl
/-- A conversion kind's code reads back. -/
theorem cvtKind_ofCode_code (k : CvtKind) : CvtKind.ofCode k.code = some k := by cases k <;> rfl
/-- A cache policy's code reads back. -/
theorem policy_ofCode_code (p : Policy) : Policy.ofCode p.code = some p := by cases p <;> rfl
/-- A scope's code reads back. -/
theorem scope_ofCode_code (s : Scope) : Scope.ofCode s.code = some s := by cases s <;> rfl
/-- An atomic's size reads back. -/
theorem asize_ofCode_code (z : ASize) : ASize.ofCode z.code = some z := by cases z <;> rfl
/-- A wait condition's code reads back. -/
theorem wcond_ofCode_code (c : WCond) : WCond.ofCode c.code = some c := by cases c <;> rfl
/-- A path's code reads back. -/
theorem path_ofCode_code (p : Path) : Path.ofCode p.code = some p := by cases p <;> rfl
/-- A reduction's source reads back. -/
theorem rsrc_ofField_field (a : RSrc) : RSrc.ofField a.field a.flag = some a := by
  cases a <;> simp [RSrc.ofField, RSrc.field, RSrc.flag, vr_vf, mr_mf]
/-- A bit reads back as a truth value. -/
theorem ofBool_beq_one (b : Bool) : (BitVec.ofBool b == 1#1) = b := by cases b <;> rfl

/-- The fields of a packed slot are those packed (R74). -/
theorem fields_packSlot (bm : Bool) (f : RawP) : unpackSlot (packSlot bm f) = f := by
  simp (disch := decide) only [unpackSlot, packSlot, BitVec.extractLsb'_append_eq_of_add_le, BitVec.extractLsb'_append_eq_of_le]
  simp

/-- The mark of a packed slot (R74). -/
theorem mark_packSlot (bm : Bool) (f : RawP) : (packSlot bm f).extractLsb' 30 1 = BitVec.ofBool bm := by
  simp (disch := decide) only [packSlot, BitVec.extractLsb'_append_eq_of_add_le, BitVec.extractLsb'_append_eq_of_le]
  simp

/-- A pair word's second slot (R74). -/
theorem slot1_packPair (b0 b1 : Bool) (s0 s1 : PSlot) :
    (packPair b0 s0 b1 s1).extractLsb' 0 31 = packSlot b1 s1.raw := by
  simp (disch := decide) only [packPair, BitVec.extractLsb'_append_eq_of_add_le, BitVec.extractLsb'_append_eq_of_le]
  simp

/-- A pair word's first slot (R74). -/
theorem slot0_packPair (b0 b1 : Bool) (s0 s1 : PSlot) :
    (packPair b0 s0 b1 s1).extractLsb' 32 31 = packSlot b0 s0.raw := by
  simp (disch := decide) only [packPair, BitVec.extractLsb'_append_eq_of_add_le, BitVec.extractLsb'_append_eq_of_le]
  simp

/-- The bits of a pair word that hold the marks are those of its slots (R74). -/
theorem marks_packPair (b0 b1 : Bool) (s0 s1 : PSlot) :
    (packPair b0 s0 b1 s1).extractLsb' 62 1 = (packSlot b0 s0.raw).extractLsb' 30 1 ∧
      (packPair b0 s0 b1 s1).extractLsb' 30 1 = (packSlot b1 s1.raw).extractLsb' 30 1 ∧
      (packPair b0 s0 b1 s1).extractLsb' 31 1 = 0 ∧ (packPair b0 s0 b1 s1).extractLsb' 63 1 = 1 := by
  refine ⟨?_, ?_, ?_, ?_⟩ <;>
    simp (disch := decide) only [packPair, BitVec.extractLsb'_append_eq_of_add_le, BitVec.extractLsb'_append_eq_of_le] <;>
    simp

/-- A slot's fields read back (R75). -/
theorem slotOf_raw (s : PSlot) : slotOf s.raw = some s := by
  cases s with
  | alu op d s => cases op <;> rfl
  | addi d s imm => rfl
  | ldi d imm => rfl
  | slli d s sh =>
    refine Eq.trans (if_pos ?_) ?_ <;>
      simp (disch := decide) only [PSlot.raw, BitVec.extractLsb'_append_eq_of_add_le, BitVec.extractLsb'_append_eq_of_le] <;> simp
  | srli d s sh =>
    refine Eq.trans (if_pos ?_) ?_ <;>
      simp (disch := decide) only [PSlot.raw, BitVec.extractLsb'_append_eq_of_add_le, BitVec.extractLsb'_append_eq_of_le] <;> simp
  | ld d s imm => rfl
  | st d s imm => rfl
  | vec op d s =>
    cases op <;> simp [PSlot.raw, PVec.code, slotOf, slotVec, vr_vf]
  | nop => rfl

/-- Major 0x10 is read by its own table (R83). -/
theorem candidate_10 (bm : Bool) (f : RawA) : candidate (packA bm 0x10 f) = cand10 f := by
  unfold candidate candOf
  rw [major_packA, fields_packA]
  rfl

/-- Major 0x11 is read by its own table (R83). -/
theorem candidate_11 (bm : Bool) (f : RawI) : candidate (packI bm 0x11 f) = cand11 f := by
  unfold candidate candOf
  rw [major_packI, fields_packI]
  rfl

/-- Major 0x12 is read by its own table (R83). -/
theorem candidate_12 (bm : Bool) (f : RawA) : candidate (packA bm 0x12 f) = cand12 f := by
  unfold candidate candOf
  rw [major_packA, fields_packA]
  rfl

/-- Major 0x18 is read by its own table (R83). -/
theorem candidate_18 (bm : Bool) (f : RawB) : candidate (packB bm 0x18 f) = cand18 f := by
  unfold candidate candOf
  rw [major_packB, fields_packB]
  rfl

/-- Major 0x19 is read by its own table (R83). -/
theorem candidate_19 (bm : Bool) (f : RawI) : candidate (packI bm 0x19 f) = cand19 f := by
  unfold candidate candOf
  rw [major_packI, fields_packI]
  rfl

/-- Major 0x1a is read by its own table (R83). -/
theorem candidate_1a (bm : Bool) (f : RawI) : candidate (packI bm 0x1a f) = cand1A f := by
  unfold candidate candOf
  rw [major_packI, fields_packI]
  rfl

/-- Major 0x1b is read by its own table (R83). -/
theorem candidate_1b (bm : Bool) (f : RawB) : candidate (packB bm 0x1b f) = cand1B f := by
  unfold candidate candOf
  rw [major_packB, fields_packB]
  rfl

/-- Major 0x20 is read by its own table (R83). -/
theorem candidate_20 (bm : Bool) (f : RawS) : candidate (packS bm 0x20 f) = cand20 f := by
  unfold candidate candOf
  rw [major_packS, fields_packS]
  rfl

/-- Major 0x28 is read by its own table (R83). -/
theorem candidate_28 (bm : Bool) (f : RawI) : candidate (packI bm 0x28 f) = cand28 f := by
  unfold candidate candOf
  rw [major_packI, fields_packI]
  rfl

/-- Major 0x30 is read by its own table (R83). -/
theorem candidate_30 (bm : Bool) (f : RawA) : candidate (packA bm 0x30 f) = cand30 f := by
  unfold candidate candOf
  rw [major_packA, fields_packA]
  rfl

/-- Major 0x31 is read by its own table (R83). -/
theorem candidate_31 (bm : Bool) (f : RawA) : candidate (packA bm 0x31 f) = cand31 f := by
  unfold candidate candOf
  rw [major_packA, fields_packA]
  rfl

/-- Major 0x32 is read by its own table (R83). -/
theorem candidate_32 (bm : Bool) (f : RawA) : candidate (packA bm 0x32 f) = cand32 f := by
  unfold candidate candOf
  rw [major_packA, fields_packA]
  rfl

/-- Major 0x33 is read by its own table (R83). -/
theorem candidate_33 (bm : Bool) (f : RawA) : candidate (packA bm 0x33 f) = cand33 f := by
  unfold candidate candOf
  rw [major_packA, fields_packA]
  rfl

/-- Major 0x34 is read by its own table (R83). -/
theorem candidate_34 (bm : Bool) (f : RawA) : candidate (packA bm 0x34 f) = cand34 f := by
  unfold candidate candOf
  rw [major_packA, fields_packA]
  rfl

/-- Major 0x35 is read by its own table (R83). -/
theorem candidate_35 (bm : Bool) (f : RawA) : candidate (packA bm 0x35 f) = cand35 f := by
  unfold candidate candOf
  rw [major_packA, fields_packA]
  rfl

/-- Major 0x40 is read by its own table (R83). -/
theorem candidate_40 (bm : Bool) (f : RawM) : candidate (packM bm 0x40 f) = cand40 f := by
  unfold candidate candOf
  rw [major_packM, fields_packM]
  rfl

/-- Major 0x41 is read by its own table (R83). -/
theorem candidate_41 (bm : Bool) (f : RawM) : candidate (packM bm 0x41 f) = cand41 f := by
  unfold candidate candOf
  rw [major_packM, fields_packM]
  rfl

/-- Major 0x48 is read by its own table (R83). -/
theorem candidate_48 (bm : Bool) (f : RawM) : candidate (packM bm 0x48 f) = cand48 f := by
  unfold candidate candOf
  rw [major_packM, fields_packM]
  rfl

/-- Major 0x49 is read by its own table (R83). -/
theorem candidate_49 (bm : Bool) (f : RawS) : candidate (packS bm 0x49 f) = cand49 f := by
  unfold candidate candOf
  rw [major_packS, fields_packS]
  rfl

/-- Major 0x50 is read by its own table (R83). -/
theorem candidate_50 (bm : Bool) (f : RawA) : candidate (packA bm 0x50 f) = cand50 f := by
  unfold candidate candOf
  rw [major_packA, fields_packA]
  rfl

/-- Major 0x58 is read by its own table (R83). -/
theorem candidate_58 (bm : Bool) (f : RawA) : candidate (packA bm 0x58 f) = cand58 f := by
  unfold candidate candOf
  rw [major_packA, fields_packA]
  rfl

/-- Major 0x60 is read by its own table (R83). -/
theorem candidate_60 (bm : Bool) (f : RawA) : candidate (packA bm 0x60 f) = cand60 f := by
  unfold candidate candOf
  rw [major_packA, fields_packA]
  rfl

/-- Major 0x68 is read by its own table (R83). -/
theorem candidate_68 (bm : Bool) (f : RawA) : candidate (packA bm 0x68 f) = cand68 f := by
  unfold candidate candOf
  rw [major_packA, fields_packA]
  rfl

/-- Major 0x70 is read by its own table (R83). -/
theorem candidate_70 (bm : Bool) (f : RawA) : candidate (packA bm 0x70 f) = cand70 f := by
  unfold candidate
  rw [major_packA, fields_packA]
  rfl

/-- Major 0x78 is read by its own table (R83). -/
theorem candidate_78 (bm : Bool) (f : RawS) : candidate (packS bm 0x78 f) = cand78 f := by
  unfold candidate candOf
  rw [major_packS, fields_packS]
  rfl

end Sys2Proof.Laws
end

