-- ==== Sys2Proof/Laws/Meaning.lean ====
section
/-!
SUPPORT. The monad of meanings, one law per operation: what each gives and the state it leaves.
-/

namespace Sys2Proof.Machine

theorem pure_apply {α : Type} (a : α) (s : State) : (pure a : M α) s = .ok a s := rfl
theorem get_apply (s : State) : (get : M State) s = .ok s s := rfl
theorem set_apply (t s : State) : (set t : M PUnit) s = .ok ⟨⟩ t := rfl
theorem modify_apply (f : State → State) (s : State) : (modify f : M PUnit) s = .ok ⟨⟩ (f s) := rfl
theorem hart_apply (s : State) : hart s = .ok s.cur s := rfl
theorem modHart_apply (f : Hart → Hart) (s : State) : modHart f s = .ok ⟨⟩ { s with cur := f s.cur } := rfl
theorem result_apply (d : GReg) (x : Word) (s : State) :
    result d x s = .ok ⟨⟩ { s with cur := (s.cur.wr d x).retire } := rfl
theorem leave_apply {α : Type} (s : State) : (leave : M α) s = .error .left s := rfl

/-- A computation that succeeds is followed by the next in the state it leaves. -/
theorem bind_ok {α β : Type} {m : M α} {f : α → M β} {s t : State} {a : α} (h : m s = .ok a t) :
    (m >>= f) s = f a t := by
  show EStateM.bind m f s = _
  simp only [EStateM.bind, h]

/-- A computation that stops stops the whole. -/
theorem bind_error {α β : Type} {m : M α} {f : α → M β} {s t : State} {e : Stop} (h : m s = .error e t) :
    (m >>= f) s = .error e t := by
  show EStateM.bind m f s = _
  simp only [EStateM.bind, h]

/-- What a composed computation that succeeds did. -/
theorem bind_ok_iff {α β : Type} {m : M α} {f : α → M β} {s u : State} {b : β} :
    (m >>= f) s = .ok b u ↔ ∃ a t, m s = .ok a t ∧ f a t = .ok b u := by
  constructor
  · intro h
    cases hm : m s with
    | ok a t => exact ⟨a, t, rfl, by rwa [bind_ok hm] at h⟩
    | error e t => rw [bind_error hm] at h; cases h
  · rintro ⟨a, t, hm, hf⟩
    rwa [bind_ok hm]

theorem pure_bind_apply {α β : Type} (a : α) (f : α → M β) (s : State) : ((pure a : M α) >>= f) s = f a s := rfl
theorem get_bind_apply {β : Type} (f : State → M β) (s : State) : (get >>= f) s = f s s := rfl
theorem hart_bind_apply {β : Type} (f : Hart → M β) (s : State) : (hart >>= f) s = f s.cur s := rfl
theorem set_bind_apply {β : Type} (t : State) (f : PUnit → M β) (s : State) : ((set t : M PUnit) >>= f) s = f ⟨⟩ t := rfl
theorem modify_bind_apply {β : Type} (g : State → State) (f : PUnit → M β) (s : State) :
    ((modify g : M PUnit) >>= f) s = f ⟨⟩ (g s) := rfl
theorem modHart_bind_apply {β : Type} (g : Hart → Hart) (f : PUnit → M β) (s : State) :
    (modHart g >>= f) s = f ⟨⟩ { s with cur := g s.cur } := rfl
theorem leave_bind_apply {α β : Type} (f : α → M β) (s : State) : ((leave : M α) >>= f) s = .error .left s := rfl

/-- A composition of computations associates to the right. -/
theorem bind_bind {α β γ : Type} (m : M α) (f : α → M β) (g : β → M γ) :
    (m >>= f) >>= g = m >>= fun a => f a >>= g := by
  funext s
  show EStateM.bind (EStateM.bind m f) g s = EStateM.bind m (fun a => EStateM.bind (f a) g) s
  simp only [EStateM.bind]
  cases m s <;> rfl

theorem ite_apply {α : Type} (p : Prop) [Decidable p] (m n : M α) (s : State) :
    (if p then m else n) s = if p then m s else n s := by split <;> rfl

/-- A meaning that completes gives the state it leaves. -/
theorem run_ok {m : M Unit} {s t : State} (h : m s = .ok () t) : run m s = .next t := by simp only [run, h]

/-- A meaning that leaves the instruction stream gives the state it leaves. -/
theorem run_left {m : M Unit} {s t : State} (h : m s = .error .left t) : run m s = .next t := by simp only [run, h]

/-- A meaning of a hart that runs. -/
theorem runHart_running {m : M Unit} {s : State} (h : s.cur.status = .running) : runHart m s = run m s := by
  simp only [runHart, h, if_true]

/-- A meaning of a hart that runs and completes. -/
theorem runHart_ok {m : M Unit} {s t : State} (h : s.cur.status = .running) (hm : m s = .ok () t) :
    runHart m s = .next t := by rw [runHart_running h, run_ok hm]

/-- A scalar instruction of a hart that runs: its change of the hart, and it retires. -/
theorem scalar_running {f : Hart → Hart} {s : State} (h : s.cur.status = .running) :
    scalar f s = .next { s with cur := (f s.cur).retire } := by simp only [scalar, h, if_true]

end Sys2Proof.Machine
end

