-- ==== Sys2Proof/Laws/Sparse.lean ====
section
/-!
SUPPORT. Tables held as plain data: what a key reads after an update, and that every update keeps the canonical form.
-/

namespace Sys2Proof.Machine

variable {α : Type}

/-- Every key of a table is above a bound. -/
def AMap.above (b : Nat) (m : AMap α) : Prop := ∀ x ∈ m, b < x.1

theorem find_erase_same (m : AMap α) (i : Nat) : AMap.find? (AMap.erase m i) i = none := by
  induction m with
  | nil => rfl
  | cons x t ih =>
    obtain ⟨k, v⟩ := x
    by_cases h : k = i <;> simp [AMap.erase, AMap.find?, h, ih]

theorem find_erase_other (m : AMap α) {i j : Nat} (h : j ≠ i) : AMap.find? (AMap.erase m i) j = AMap.find? m j := by
  induction m with
  | nil => rfl
  | cons x t ih =>
    obtain ⟨k, v⟩ := x
    by_cases hk : k = i
    · subst hk
      simp [AMap.erase, AMap.find?, ih, Ne.symm h]
    · by_cases hj : k = j
      · subst hj; simp [AMap.erase, AMap.find?, hk]
      · simp [AMap.erase, AMap.find?, hk, hj, ih]

theorem find_insert (m : AMap α) (i : Nat) (x : α) (hm : AMap.find? m i = none) (j : Nat) :
    AMap.find? (AMap.insert m i x) j = if i = j then some x else AMap.find? m j := by
  induction m with
  | nil => simp [AMap.insert, AMap.find?]
  | cons y t ih =>
    obtain ⟨k, v⟩ := y
    have hk : k ≠ i := by
      intro h
      simp [AMap.find?, h] at hm
    have ht : AMap.find? t i = none := by simpa [AMap.find?, hk] using hm
    by_cases hlt : i < k
    · simp [AMap.insert, hlt, AMap.find?]
    · by_cases hj : k = j
      · subst hj
        simp [AMap.insert, hlt, AMap.find?, Ne.symm hk]
      · simp [AMap.insert, hlt, AMap.find?, hj, ih ht]

/-- A table after a key's value is set. -/
theorem find_put (m : AMap α) (i : Nat) (x : α) (j : Nat) :
    AMap.find? (AMap.put m i x) j = if i = j then some x else AMap.find? m j := by
  rw [AMap.put, find_insert _ _ _ (find_erase_same m i)]
  by_cases h : i = j
  · simp [h]
  · simp [h, find_erase_other m (Ne.symm h)]

@[simp] theorem find_put_same (m : AMap α) (i : Nat) (x : α) : AMap.find? (AMap.put m i x) i = some x := by
  simp [find_put]

theorem find_put_other (m : AMap α) {i j : Nat} (x : α) (h : i ≠ j) :
    AMap.find? (AMap.put m i x) j = AMap.find? m j := by simp [find_put, h]

theorem find_keep (p : Nat → Bool) (m : AMap α) (j : Nat) :
    AMap.find? (AMap.keep p m) j = if p j then AMap.find? m j else none := by
  induction m with
  | nil => simp [AMap.keep, AMap.find?]
  | cons x t ih =>
    obtain ⟨k, v⟩ := x
    by_cases hp : p k
    · by_cases hk : k = j
      · subst hk; simp [AMap.keep, AMap.find?, hp]
      · simp [AMap.keep, AMap.find?, hp, hk, ih]
    · by_cases hk : k = j
      · subst hk; simp [AMap.keep, ih, hp]
      · simp [AMap.keep, AMap.find?, hp, hk, ih]

/-- A sparse file after an index is set: the value there, every other index as before. -/
theorem get_set {w : Nat} (m : Sparse w) (i : Nat) (x : BitVec w) (j : Nat) :
    Sparse.get (Sparse.set m i x) j = if i = j then x else Sparse.get m j := by
  unfold Sparse.get Sparse.set
  split
  · next hx =>
    by_cases h : i = j
    · subst h; simp [hx, find_erase_same]
    · rw [if_neg h, find_erase_other m (Ne.symm h)]
  · by_cases h : i = j
    · subst h; simp
    · rw [if_neg h, find_put_other m x h]

@[simp] theorem get_set_same {w : Nat} (m : Sparse w) (i : Nat) (x : BitVec w) : Sparse.get (Sparse.set m i x) i = x := by
  simp [get_set]

theorem get_set_other {w : Nat} (m : Sparse w) {i j : Nat} (x : BitVec w) (h : i ≠ j) :
    Sparse.get (Sparse.set m i x) j = Sparse.get m j := by simp [get_set, h]

theorem get_keep {w : Nat} (p : Nat → Bool) (m : Sparse w) (j : Nat) :
    Sparse.get (AMap.keep p m) j = if p j then Sparse.get m j else 0 := by
  unfold Sparse.get
  rw [find_keep]
  split <;> rfl

/-! The canonical form. -/

theorem sorted_cons (k : Nat) (v : α) (t : AMap α) :
    AMap.sorted ((k, v) :: t) = true ↔ AMap.above k t ∧ AMap.sorted t = true := by
  induction t generalizing k v with
  | nil => simp [AMap.sorted, AMap.above]
  | cons x t ih =>
    obtain ⟨k', v'⟩ := x
    rw [AMap.sorted, Bool.and_eq_true, decide_eq_true_eq]
    constructor
    · rintro ⟨hlt, hs⟩
      refine ⟨?_, hs⟩
      intro y hy
      rcases List.mem_cons.mp hy with rfl | hy
      · exact hlt
      · exact Nat.lt_trans hlt (((ih k' v').mp hs).1 y hy)
    · rintro ⟨ha, hs⟩
      exact ⟨ha (k', v') (List.mem_cons_self ..), hs⟩

theorem above_erase {b : Nat} {m : AMap α} (h : AMap.above b m) (i : Nat) : AMap.above b (AMap.erase m i) := by
  induction m with
  | nil => exact h
  | cons x t ih =>
    obtain ⟨k, v⟩ := x
    have ht : AMap.above b t := fun y hy => h y (List.mem_cons_of_mem _ hy)
    by_cases hk : k = i
    · simpa [AMap.erase, hk] using ih ht
    · intro y hy
      simp only [AMap.erase, hk, if_false] at hy
      rcases List.mem_cons.mp hy with rfl | hy
      · exact h _ (List.mem_cons_self ..)
      · exact ih ht y hy

theorem sorted_erase {m : AMap α} (h : AMap.sorted m = true) (i : Nat) : AMap.sorted (AMap.erase m i) = true := by
  induction m with
  | nil => rfl
  | cons x t ih =>
    obtain ⟨k, v⟩ := x
    obtain ⟨ha, hs⟩ := (sorted_cons k v t).mp h
    by_cases hk : k = i
    · simpa [AMap.erase, hk] using ih hs
    · simp only [AMap.erase, hk, if_false]
      exact (sorted_cons _ _ _).mpr ⟨above_erase ha i, ih hs⟩

theorem above_insert {b : Nat} {m : AMap α} (h : AMap.above b m) {i : Nat} (hi : b < i) (x : α) :
    AMap.above b (AMap.insert m i x) := by
  induction m with
  | nil =>
    intro y hy
    simp only [AMap.insert, List.mem_singleton] at hy
    subst hy; exact hi
  | cons z t ih =>
    obtain ⟨k, v⟩ := z
    have ht : AMap.above b t := fun y hy => h y (List.mem_cons_of_mem _ hy)
    intro y hy
    by_cases hlt : i < k
    · simp only [AMap.insert, hlt, if_true] at hy
      rcases List.mem_cons.mp hy with rfl | hy
      · exact hi
      · exact h y hy
    · simp only [AMap.insert, hlt, if_false] at hy
      rcases List.mem_cons.mp hy with rfl | hy
      · exact h _ (List.mem_cons_self ..)
      · exact ih ht y hy

theorem sorted_insert {m : AMap α} (h : AMap.sorted m = true) (i : Nat) (hm : AMap.find? m i = none) (x : α) :
    AMap.sorted (AMap.insert m i x) = true := by
  induction m with
  | nil => rfl
  | cons z t ih =>
    obtain ⟨k, v⟩ := z
    obtain ⟨ha, hs⟩ := (sorted_cons k v t).mp h
    have hk : k ≠ i := by
      intro e
      simp [AMap.find?, e] at hm
    have ht : AMap.find? t i = none := by simpa [AMap.find?, hk] using hm
    by_cases hlt : i < k
    · simp only [AMap.insert, hlt, if_true]
      refine (sorted_cons _ _ _).mpr ⟨?_, h⟩
      intro y hy
      rcases List.mem_cons.mp hy with rfl | hy
      · exact hlt
      · exact Nat.lt_trans hlt (ha y hy)
    · simp only [AMap.insert, hlt, if_false]
      exact (sorted_cons _ _ _).mpr ⟨above_insert ha (Nat.lt_of_le_of_ne (Nat.le_of_not_lt hlt) hk) x, ih hs ht⟩

theorem sorted_put {m : AMap α} (h : AMap.sorted m = true) (i : Nat) (x : α) : AMap.sorted (AMap.put m i x) = true :=
  sorted_insert (sorted_erase h i) i (find_erase_same m i) x

theorem above_keep {b : Nat} {m : AMap α} (h : AMap.above b m) (p : Nat → Bool) : AMap.above b (AMap.keep p m) := by
  induction m with
  | nil => exact h
  | cons z t ih =>
    obtain ⟨k, v⟩ := z
    have ht : AMap.above b t := fun y hy => h y (List.mem_cons_of_mem _ hy)
    by_cases hp : p k
    · intro y hy
      simp only [AMap.keep, hp, if_true] at hy
      rcases List.mem_cons.mp hy with rfl | hy
      · exact h _ (List.mem_cons_self ..)
      · exact ih ht y hy
    · simpa [AMap.keep, hp] using ih ht

theorem sorted_keep {m : AMap α} (h : AMap.sorted m = true) (p : Nat → Bool) : AMap.sorted (AMap.keep p m) = true := by
  induction m with
  | nil => rfl
  | cons z t ih =>
    obtain ⟨k, v⟩ := z
    obtain ⟨ha, hs⟩ := (sorted_cons k v t).mp h
    by_cases hp : p k
    · simp only [AMap.keep, hp, if_true]
      exact (sorted_cons _ _ _).mpr ⟨above_keep ha p, ih hs⟩
    · simpa [AMap.keep, hp] using ih hs

section
variable {w : Nat}

theorem noZero_erase {m : Sparse w} (h : Sparse.noZero m = true) (i : Nat) : Sparse.noZero (AMap.erase m i) = true := by
  induction m with
  | nil => rfl
  | cons z t ih =>
    obtain ⟨k, v⟩ := z
    simp only [Sparse.noZero, Bool.and_eq_true] at h
    by_cases hk : k = i
    · simpa [AMap.erase, hk] using ih h.2
    · simp only [AMap.erase, hk, if_false, Sparse.noZero, Bool.and_eq_true]
      exact ⟨h.1, ih h.2⟩

theorem noZero_insert {m : Sparse w} (h : Sparse.noZero m = true) (i : Nat) {x : BitVec w} (hx : x ≠ 0) :
    Sparse.noZero (AMap.insert m i x) = true := by
  induction m with
  | nil => simpa [AMap.insert, Sparse.noZero] using hx
  | cons z t ih =>
    obtain ⟨k, v⟩ := z
    have h' := h
    simp only [Sparse.noZero, Bool.and_eq_true] at h'
    by_cases hlt : i < k
    · simp only [AMap.insert, hlt, if_true]
      rw [Sparse.noZero, h, Bool.and_true]
      simpa using hx
    · simp only [AMap.insert, hlt, if_false, Sparse.noZero, Bool.and_eq_true]
      exact ⟨h'.1, ih h'.2⟩

theorem noZero_keep {m : Sparse w} (h : Sparse.noZero m = true) (p : Nat → Bool) :
    Sparse.noZero (AMap.keep p m) = true := by
  induction m with
  | nil => rfl
  | cons z t ih =>
    obtain ⟨k, v⟩ := z
    simp only [Sparse.noZero, Bool.and_eq_true] at h
    by_cases hp : p k
    · simp only [AMap.keep, hp, if_true, Sparse.noZero, Bool.and_eq_true]
      exact ⟨h.1, ih h.2⟩
    · simpa [AMap.keep, hp] using ih h.2

/-- Setting an index keeps the canonical form. -/
theorem wf_set {m : Sparse w} (h : Sparse.wf m = true) (i : Nat) (x : BitVec w) : Sparse.wf (Sparse.set m i x) = true := by
  simp only [Sparse.wf, Bool.and_eq_true] at h ⊢
  unfold Sparse.set
  split
  · exact ⟨sorted_erase h.1 i, noZero_erase h.2 i⟩
  · next hx => exact ⟨sorted_put h.1 i x, noZero_insert (noZero_erase h.2 i) i hx⟩

/-- Keeping some entries keeps the canonical form. -/
theorem wf_keep {m : Sparse w} (h : Sparse.wf m = true) (p : Nat → Bool) : Sparse.wf (AMap.keep p m) = true := by
  simp only [Sparse.wf, Bool.and_eq_true] at h ⊢
  exact ⟨sorted_keep h.1 p, noZero_keep h.2 p⟩

end

end Sys2Proof.Machine
end

