-- ==== Sys2Proof/Laws/Memory.lean ====
section
/-!
SUPPORT. Memory: its canonical form, which every operation that writes memory keeps; the byte that stands after a write;
and the page walk, one level at a time.
-/

namespace Sys2Proof.Machine

/-! The canonical form. -/

theorem wf_writeCells (cs : List (Nat × Byte)) :
    ∀ m : List Host.Cell, Memory.wf m = true → Memory.wf (writeCells m cs) = true := by
  induction cs with
  | nil => exact fun _ h => h
  | cons c t ih => exact fun m h => ih _ (wf_set h c.1 c.2)

theorem mem_writeHome (s : State) (k : Option Nat) (cs : List (Nat × Byte)) :
    (s.writeHome k cs).mem = writeCells s.mem cs := by
  cases cs <;> rfl

theorem wf_writeHome (s : State) (k : Option Nat) (cs : List (Nat × Byte)) (h : Memory.wf s.mem = true) :
    Memory.wf (s.writeHome k cs).mem = true := by
  rw [mem_writeHome]; exact wf_writeCells cs _ h

theorem wf_traceEv (s : State) (d : Nat) (ws : List Word) (h : Memory.wf s.mem = true) :
    Memory.wf (s.traceEv d ws).mem = true := by
  unfold State.traceEv
  dsimp only
  split
  · exact h
  · split
    · exact h
    · exact wf_writeHome _ _ _ h

theorem wf_traceOf (s : State) (x : Hart) (k : Nat) (pc a b : Word) (h : Memory.wf s.mem = true) :
    Memory.wf (s.traceOf x k pc a b).mem = true := by
  unfold State.traceOf
  split
  · exact h
  · exact wf_traceEv _ _ _ h

theorem wf_logWords (s : State) (lid k : Nat) (ws : List Word) (h : Memory.wf s.mem = true) :
    Memory.wf (s.logWords lid k ws).mem = true := by
  unfold State.logWords
  split
  · exact h
  · dsimp only
    split <;> exact wf_writeHome _ _ _ h

theorem wf_logError (s : State) (p kind : Nat) (ws : List Word) (h : Memory.wf s.mem = true) :
    Memory.wf (s.logError p kind ws).mem = true := by
  unfold State.logError
  split
  · exact h
  · dsimp only
    split
    · exact h
    · split
      · exact wf_writeHome _ _ _ h
      · exact h

theorem wf_putArea (s : State) (lo hi : Nat) (h : Memory.wf s.mem = true) : Memory.wf (s.putArea lo hi).mem = true :=
  wf_keep h _

theorem wf_movePage (s : State) (m : PageMove) (h : Memory.wf s.mem = true) : Memory.wf (s.movePage m).mem = true :=
  wf_writeCells _ _ (wf_keep h _)

theorem wf_wipePages (s : State) (pages : List Nat) (h : Memory.wf s.mem = true) :
    Memory.wf (s.wipePages pages).mem = true := wf_keep h _

theorem wf_placeWord (s : State) (w : Nat) (h : Memory.wf s.mem = true) : Memory.wf (s.placeWord w).mem = true := by
  have fold : ∀ (l : List (Nat × Word)) (m : List Host.Cell), Memory.wf m = true →
      Memory.wf (l.foldl (fun m (a, e) => writeCells m (cellsAt a (wordBytes 8 e))) m) = true := by
    intro l
    induction l with
    | nil => exact fun _ h => h
    | cons _ t ih => exact fun m hm => ih _ (wf_writeCells _ m hm)
  exact wf_writeCells _ _ (fold _ _ h)

/-! What stands after a write. -/

/-- The last value that a list of cells gives an address. -/
def lastCell (cs : List (Nat × Byte)) (a : Nat) : Option Byte := (cs.reverse.find? fun c => c.1 == a).map Prod.snd

theorem lastCell_cons (c : Nat × Byte) (t : List (Nat × Byte)) (a : Nat) :
    lastCell (c :: t) a = ((lastCell t a) <|> if c.1 = a then some c.2 else none) := by
  unfold lastCell
  rw [List.reverse_cons, List.find?_append]
  cases h : t.reverse.find? fun c => c.1 == a with
  | some x => rfl
  | none =>
    by_cases e : c.1 = a
    · simp [e]
    · simp [e]

/-- A byte of memory after cells are written: the last of them at its address, else the byte as it was. -/
theorem get_writeCells (cs : List (Nat × Byte)) :
    ∀ (m : List Host.Cell) (a : Nat), Sparse.get (writeCells m cs) a = (lastCell cs a).getD (Sparse.get m a) := by
  induction cs with
  | nil => exact fun _ _ => rfl
  | cons c t ih =>
    intro m a
    show Sparse.get (writeCells (Sparse.set m c.1 c.2) t) a = _
    rw [ih, lastCell_cons, get_set]
    cases lastCell t a with
    | some x => rfl
    | none =>
      by_cases e : c.1 = a
      · simp [e]
      · simp [e]

/-- The byte that areas give an address, if one of them holds it. -/
def areaAt (l : List Opaque) (a : Nat) : Option Byte :=
  (l.find? (·.holds a)).map fun o => Config.areaByte o.stamp ((a : Int) + o.shift).toNat

theorem byte_areaAt (s : State) (a : Nat) : s.byte a = (areaAt s.opaq a).getD (Sparse.get s.mem a) := by
  unfold State.byte areaAt
  cases s.opaq.find? (·.holds a) <;> rfl

/-- An area of which one address is written holds the others as before, and that one no more. -/
theorem areaAt_cut (o : Opaque) (b a : Nat) :
    areaAt (o.cut b (b + 1)) a = if a = b then none else areaAt [o] a := by
  unfold areaAt Opaque.cut
  by_cases h1 : o.hi ≤ b ∨ b + 1 ≤ o.lo
  · rw [if_pos h1]
    by_cases e : a = b
    · have : o.holds a = false := by simp [Opaque.holds]; omega
      simp [e, e ▸ this]
    · simp [e]
  · rw [if_neg h1]
    by_cases e : a = b
    · subst e
      have v : ¬a + 1 ≤ a := by omega
      by_cases h2 : o.lo < a <;> by_cases h3 : a + 1 < o.hi <;> simp [h2, h3, Opaque.holds, v]
    · by_cases h4 : o.holds a = true
      · by_cases h2 : o.lo < b <;> by_cases h3 : b + 1 < o.hi <;>
          simp only [h2, h3, if_true, if_false, List.nil_append, List.append_nil, List.cons_append, List.find?_cons, h4, e]
        all_goals simp only [Opaque.holds, Bool.and_eq_true, decide_eq_true_eq] at h4
        all_goals simp only [Opaque.holds]
        · by_cases l : a < b
          · simp [l, h4]
          · have : b + 1 ≤ a := by omega
            simp [l, this, h4]
        · have : a < b := by omega
          simp [this, h4]
        · have : b + 1 ≤ a := by omega
          simp [this, h4]
        · omega
      · have h4 : o.holds a = false := by simpa using h4
        by_cases h2 : o.lo < b <;> by_cases h3 : b + 1 < o.hi <;>
          simp only [h2, h3, if_true, if_false, List.nil_append, List.append_nil, List.cons_append, List.find?_cons, h4, e]
        all_goals simp only [Opaque.holds, Bool.and_eq_false_iff, decide_eq_false_iff_not] at h4
        all_goals simp only [Opaque.holds]
        · have u : (decide (o.lo ≤ a) && decide (a < b)) = false := by simp; omega
          have v : (decide (b + 1 ≤ a) && decide (a < o.hi)) = false := by simp; omega
          simp only [u, v]
        · have u : (decide (o.lo ≤ a) && decide (a < b)) = false := by simp; omega
          simp only [u]
        · have v : (decide (b + 1 ≤ a) && decide (a < o.hi)) = false := by simp; omega
          simp only [v]

theorem areaAt_append (l k : List Opaque) (a : Nat) : areaAt (l ++ k) a = (areaAt l a <|> areaAt k a) := by
  unfold areaAt
  rw [List.find?_append]
  cases l.find? (·.holds a) <;> rfl

theorem areaAt_flatMap (l : List Opaque) (b a : Nat) :
    areaAt (l.flatMap (Opaque.cut b (b + 1))) a = if a = b then none else areaAt l a := by
  induction l with
  | nil => simp [areaAt]
  | cons o t ih =>
    rw [List.flatMap_cons, areaAt_append, ih, areaAt_cut, show o :: t = [o] ++ t from rfl, areaAt_append]
    by_cases e : a = b <;> simp [e]

/-- Areas over which cells are written hold the addresses that no cell names, as before. -/
theorem areaAt_carve (cs : List (Nat × Byte)) :
    ∀ (l : List Opaque) (a : Nat), areaAt (carve l cs) a = if (lastCell cs a).isSome then none else areaAt l a := by
  induction cs with
  | nil => intro l a; rfl
  | cons c t ih =>
    intro l a
    show areaAt (carve (l.flatMap (Opaque.cut c.1 (c.1 + 1))) t) a = _
    rw [ih, areaAt_flatMap, lastCell_cons]
    cases lastCell t a with
    | some x => rfl
    | none =>
      by_cases e : c.1 = a
      · simp [e]
      · simp [e, Ne.symm e]

theorem areaAt_writeHome (s : State) (k : Option Nat) (cs : List (Nat × Byte)) (a : Nat) :
    areaAt (s.writeHome k cs).opaq a = if (lastCell cs a).isSome then none else areaAt s.opaq a := by
  cases cs with
  | nil => rfl
  | cons c t =>
    show areaAt (if s.opaq.isEmpty then [] else carve s.opaq (c :: t)) a = _
    split
    · rename_i h
      have : s.opaq = [] := by simpa using h
      rw [this]; split <;> rfl
    · exact areaAt_carve _ _ _

/-- A byte after a write: the last cell at its address, else as before, also in an area (log 46). -/
theorem byte_writeHome (s : State) (k : Option Nat) (cs : List (Nat × Byte)) (a : Nat) :
    (s.writeHome k cs).byte a = (lastCell cs a).getD (s.byte a) := by
  rw [byte_areaAt, byte_areaAt s, mem_writeHome, get_writeCells, areaAt_writeHome]
  cases lastCell cs a <;> rfl

/-- A byte that no cell names is as it was. -/
theorem byte_writeHome_other (s : State) (k : Option Nat) (cs : List (Nat × Byte)) (a : Nat) (h : ∀ c ∈ cs, c.1 ≠ a) :
    (s.writeHome k cs).byte a = s.byte a := by
  have : lastCell cs a = none := by
    unfold lastCell
    rw [List.find?_eq_none.mpr]
    · rfl
    · intro c hc; simpa using h c (List.mem_reverse.mp hc)
  rw [byte_writeHome, this]; rfl

/-- The cells of bytes from an address give each its byte. -/
theorem lastCell_cellsAt (bs : List Byte) :
    ∀ pa a, lastCell (cellsAt pa bs) a = if pa ≤ a then bs[a - pa]? else none := by
  induction bs with
  | nil => intro pa a; simp [cellsAt, lastCell]
  | cons b t ih =>
    intro pa a
    rw [cellsAt, lastCell_cons, ih]
    by_cases h : pa = a
    · subst h
      have l : ¬pa + 1 ≤ pa := by omega
      simp [l]
    · by_cases g : pa + 1 ≤ a
      · have e : a - pa = a - (pa + 1) + 1 := by omega
        have l : pa ≤ a := by omega
        simp [g, l, h, e]
      · have l : ¬pa ≤ a := by omega
        simp [g, l, h]

/-! The page walk. -/

theorem walk_zero (s : State) (va table : Nat) :
    walk s va 0 table =
      if s.badPa (table + 8 * vaIndex va 0) then .error (.uncorrectable ((table + 8 * vaIndex va 0) / 64 * 64))
      else
        let e := s.dword (table + 8 * vaIndex va 0)
        if pteBad s.part 0 e then .error .ptError
        else if !pteV e || !pteP e then .error .notPresent
        else if pteLeaf e then .ok (e, 0) else .error .ptError := rfl

theorem walk_succ (s : State) (va l table : Nat) :
    walk s va (l + 1) table =
      if s.badPa (table + 8 * vaIndex va (l + 1)) then .error (.uncorrectable ((table + 8 * vaIndex va (l + 1)) / 64 * 64))
      else
        let e := s.dword (table + 8 * vaIndex va (l + 1))
        if pteBad s.part (l + 1) e then .error .ptError
        else if !pteV e || !pteP e then .error .notPresent
        else if pteLeaf e then .ok (e, l + 1) else walk s va l (ptePpn e * 4096) := rfl

end Sys2Proof.Machine
end

