-- ==== Sys2Proof/Laws/PerInstr.lean ====
section
/-!
SUPPORT. The word of an instruction reads back as that instruction, one lemma per constructor (R62 to R85).
-/

namespace Sys2Proof.Laws.ReadsBack

set_option linter.unusedSimpArgs false

/-- The word that the encoder gives an instruction is read back by the decoder's tables: a pair word with all of its
slots and marks, a full word with its mark. -/
def Statement (i : Instr) : Prop :=
  ∀ bm w, encode bm i = some w →
    (w.extractLsb' 63 1 = 1 ∧ pairCandidate w = some i) ∨
    (w.extractLsb' 63 1 = 0 ∧ w.extractLsb' 62 1 = BitVec.ofBool bm ∧ candidate w = some i)

/-- Its word reads back (R83). -/
theorem add (d a b : GReg) : Statement (.add d a b) := by
  intro bm w h
  obtain rfl := Option.some.inj h
  refine Or.inr ⟨top_packA _ _ _, mark_packA _ _ _, (candidate_10 _ _).trans ?_⟩
  delta cand10
  refine Eq.trans (if_pos ?_) ?_
  all_goals simp

/-- Its word reads back (R83). -/
theorem sub (d a b : GReg) : Statement (.sub d a b) := by
  intro bm w h
  obtain rfl := Option.some.inj h
  refine Or.inr ⟨top_packA _ _ _, mark_packA _ _ _, (candidate_10 _ _).trans ?_⟩
  delta cand10
  refine Eq.trans (if_pos ?_) ?_
  all_goals simp

/-- Its word reads back (R83). -/
theorem mul (d a b : GReg) : Statement (.mul d a b) := by
  intro bm w h
  obtain rfl := Option.some.inj h
  refine Or.inr ⟨top_packA _ _ _, mark_packA _ _ _, (candidate_10 _ _).trans ?_⟩
  delta cand10
  refine Eq.trans (if_pos ?_) ?_
  all_goals simp

/-- Its word reads back (R83). -/
theorem mulh (d a b : GReg) : Statement (.mulh d a b) := by
  intro bm w h
  obtain rfl := Option.some.inj h
  refine Or.inr ⟨top_packA _ _ _, mark_packA _ _ _, (candidate_10 _ _).trans ?_⟩
  delta cand10
  refine Eq.trans (if_pos ?_) ?_
  all_goals simp

/-- Its word reads back (R83). -/
theorem mulhn (d a b : GReg) : Statement (.mulhn d a b) := by
  intro bm w h
  obtain rfl := Option.some.inj h
  refine Or.inr ⟨top_packA _ _ _, mark_packA _ _ _, (candidate_10 _ _).trans ?_⟩
  delta cand10
  refine Eq.trans (if_pos ?_) ?_
  all_goals simp

/-- Its word reads back (R83). -/
theorem div (d a b : GReg) : Statement (.div d a b) := by
  intro bm w h
  obtain rfl := Option.some.inj h
  refine Or.inr ⟨top_packA _ _ _, mark_packA _ _ _, (candidate_10 _ _).trans ?_⟩
  delta cand10
  refine Eq.trans (if_pos ?_) ?_
  all_goals simp

/-- Its word reads back (R83). -/
theorem divn (d a b : GReg) : Statement (.divn d a b) := by
  intro bm w h
  obtain rfl := Option.some.inj h
  refine Or.inr ⟨top_packA _ _ _, mark_packA _ _ _, (candidate_10 _ _).trans ?_⟩
  delta cand10
  refine Eq.trans (if_pos ?_) ?_
  all_goals simp

/-- Its word reads back (R83). -/
theorem rem (d a b : GReg) : Statement (.rem d a b) := by
  intro bm w h
  obtain rfl := Option.some.inj h
  refine Or.inr ⟨top_packA _ _ _, mark_packA _ _ _, (candidate_10 _ _).trans ?_⟩
  delta cand10
  refine Eq.trans (if_pos ?_) ?_
  all_goals simp

/-- Its word reads back (R83). -/
theorem remn (d a b : GReg) : Statement (.remn d a b) := by
  intro bm w h
  obtain rfl := Option.some.inj h
  refine Or.inr ⟨top_packA _ _ _, mark_packA _ _ _, (candidate_10 _ _).trans ?_⟩
  delta cand10
  refine Eq.trans (if_pos ?_) ?_
  all_goals simp

/-- Its word reads back (R83). -/
theorem and (d a b : GReg) : Statement (.and d a b) := by
  intro bm w h
  obtain rfl := Option.some.inj h
  refine Or.inr ⟨top_packA _ _ _, mark_packA _ _ _, (candidate_10 _ _).trans ?_⟩
  delta cand10
  refine Eq.trans (if_pos ?_) ?_
  all_goals simp

/-- Its word reads back (R83). -/
theorem or (d a b : GReg) : Statement (.or d a b) := by
  intro bm w h
  obtain rfl := Option.some.inj h
  refine Or.inr ⟨top_packA _ _ _, mark_packA _ _ _, (candidate_10 _ _).trans ?_⟩
  delta cand10
  refine Eq.trans (if_pos ?_) ?_
  all_goals simp

/-- Its word reads back (R83). -/
theorem xor (d a b : GReg) : Statement (.xor d a b) := by
  intro bm w h
  obtain rfl := Option.some.inj h
  refine Or.inr ⟨top_packA _ _ _, mark_packA _ _ _, (candidate_10 _ _).trans ?_⟩
  delta cand10
  refine Eq.trans (if_pos ?_) ?_
  all_goals simp

/-- Its word reads back (R83). -/
theorem sll (d a b : GReg) : Statement (.sll d a b) := by
  intro bm w h
  obtain rfl := Option.some.inj h
  refine Or.inr ⟨top_packA _ _ _, mark_packA _ _ _, (candidate_10 _ _).trans ?_⟩
  delta cand10
  refine Eq.trans (if_pos ?_) ?_
  all_goals simp

/-- Its word reads back (R83). -/
theorem srl (d a b : GReg) : Statement (.srl d a b) := by
  intro bm w h
  obtain rfl := Option.some.inj h
  refine Or.inr ⟨top_packA _ _ _, mark_packA _ _ _, (candidate_10 _ _).trans ?_⟩
  delta cand10
  refine Eq.trans (if_pos ?_) ?_
  all_goals simp

/-- Its word reads back (R83). -/
theorem sra (d a b : GReg) : Statement (.sra d a b) := by
  intro bm w h
  obtain rfl := Option.some.inj h
  refine Or.inr ⟨top_packA _ _ _, mark_packA _ _ _, (candidate_10 _ _).trans ?_⟩
  delta cand10
  refine Eq.trans (if_pos ?_) ?_
  all_goals simp

/-- Its word reads back (R83). -/
theorem slt (d a b : GReg) : Statement (.slt d a b) := by
  intro bm w h
  obtain rfl := Option.some.inj h
  refine Or.inr ⟨top_packA _ _ _, mark_packA _ _ _, (candidate_10 _ _).trans ?_⟩
  delta cand10
  refine Eq.trans (if_pos ?_) ?_
  all_goals simp

/-- Its word reads back (R83). -/
theorem sltn (d a b : GReg) : Statement (.sltn d a b) := by
  intro bm w h
  obtain rfl := Option.some.inj h
  refine Or.inr ⟨top_packA _ _ _, mark_packA _ _ _, (candidate_10 _ _).trans ?_⟩
  delta cand10
  refine Eq.trans (if_pos ?_) ?_
  all_goals simp

/-- Its word reads back (R83). -/
theorem min (d a b : GReg) : Statement (.min d a b) := by
  intro bm w h
  obtain rfl := Option.some.inj h
  refine Or.inr ⟨top_packA _ _ _, mark_packA _ _ _, (candidate_10 _ _).trans ?_⟩
  delta cand10
  refine Eq.trans (if_pos ?_) ?_
  all_goals simp

/-- Its word reads back (R83). -/
theorem max (d a b : GReg) : Statement (.max d a b) := by
  intro bm w h
  obtain rfl := Option.some.inj h
  refine Or.inr ⟨top_packA _ _ _, mark_packA _ _ _, (candidate_10 _ _).trans ?_⟩
  delta cand10
  refine Eq.trans (if_pos ?_) ?_
  all_goals simp

/-- Its word reads back (R83). -/
theorem minn (d a b : GReg) : Statement (.minn d a b) := by
  intro bm w h
  obtain rfl := Option.some.inj h
  refine Or.inr ⟨top_packA _ _ _, mark_packA _ _ _, (candidate_10 _ _).trans ?_⟩
  delta cand10
  refine Eq.trans (if_pos ?_) ?_
  all_goals simp

/-- Its word reads back (R83). -/
theorem maxn (d a b : GReg) : Statement (.maxn d a b) := by
  intro bm w h
  obtain rfl := Option.some.inj h
  refine Or.inr ⟨top_packA _ _ _, mark_packA _ _ _, (candidate_10 _ _).trans ?_⟩
  delta cand10
  refine Eq.trans (if_pos ?_) ?_
  all_goals simp

/-- Its word reads back (R83). -/
theorem clz (d a : GReg) : Statement (.clz d a) := by
  intro bm w h
  obtain rfl := Option.some.inj h
  refine Or.inr ⟨top_packA _ _ _, mark_packA _ _ _, (candidate_10 _ _).trans ?_⟩
  delta cand10
  refine Eq.trans (if_pos ?_) ?_
  all_goals simp

/-- Its word reads back (R83). -/
theorem ctz (d a : GReg) : Statement (.ctz d a) := by
  intro bm w h
  obtain rfl := Option.some.inj h
  refine Or.inr ⟨top_packA _ _ _, mark_packA _ _ _, (candidate_10 _ _).trans ?_⟩
  delta cand10
  refine Eq.trans (if_pos ?_) ?_
  all_goals simp

/-- Its word reads back (R83). -/
theorem popc (d a : GReg) : Statement (.popc d a) := by
  intro bm w h
  obtain rfl := Option.some.inj h
  refine Or.inr ⟨top_packA _ _ _, mark_packA _ _ _, (candidate_10 _ _).trans ?_⟩
  delta cand10
  refine Eq.trans (if_pos ?_) ?_
  all_goals simp

/-- Its word reads back (R83). -/
theorem sext (d a : GReg) (n1 : BitVec 6) : Statement (.sext d a n1) := by
  intro bm w h
  obtain rfl := Option.some.inj h
  refine Or.inr ⟨top_packA _ _ _, mark_packA _ _ _, (candidate_10 _ _).trans ?_⟩
  delta cand10
  refine Eq.trans (if_pos ?_) ?_
  all_goals try simp (disch := decide) only [BitVec.extractLsb'_append_eq_of_add_le, BitVec.extractLsb'_append_eq_of_le]
  all_goals try simp only [BitVec.extractLsb'_eq_self, Nat.sub_self]
  all_goals simp

/-- Its word reads back (R83). -/
theorem zext (d a : GReg) (n1 : BitVec 6) : Statement (.zext d a n1) := by
  intro bm w h
  obtain rfl := Option.some.inj h
  refine Or.inr ⟨top_packA _ _ _, mark_packA _ _ _, (candidate_10 _ _).trans ?_⟩
  delta cand10
  refine Eq.trans (if_pos ?_) ?_
  all_goals try simp (disch := decide) only [BitVec.extractLsb'_append_eq_of_add_le, BitVec.extractLsb'_append_eq_of_le]
  all_goals try simp only [BitVec.extractLsb'_eq_self, Nat.sub_self]
  all_goals simp

/-- Its word reads back (R83). -/
theorem cmov (d a b c : GReg) : Statement (.cmov d a b c) := by
  intro bm w h
  obtain rfl := Option.some.inj h
  refine Or.inr ⟨top_packA _ _ _, mark_packA _ _ _, (candidate_10 _ _).trans ?_⟩
  delta cand10
  refine Eq.trans (if_pos ?_) ?_
  all_goals simp

/-- Its word reads back (R83). -/
theorem adds (d a b : GReg) : Statement (.adds d a b) := by
  intro bm w h
  obtain rfl := Option.some.inj h
  refine Or.inr ⟨top_packA _ _ _, mark_packA _ _ _, (candidate_10 _ _).trans ?_⟩
  delta cand10
  refine Eq.trans (if_pos ?_) ?_
  all_goals simp

/-- Its word reads back (R83). -/
theorem subs (d a b : GReg) : Statement (.subs d a b) := by
  intro bm w h
  obtain rfl := Option.some.inj h
  refine Or.inr ⟨top_packA _ _ _, mark_packA _ _ _, (candidate_10 _ _).trans ?_⟩
  delta cand10
  refine Eq.trans (if_pos ?_) ?_
  all_goals simp

/-- Its word reads back (R83). -/
theorem addi (d a : GReg) (imm : BitVec 32) : Statement (.addi d a imm) := by
  intro bm w h
  obtain rfl := Option.some.inj h
  refine Or.inr ⟨top_packI _ _ _, mark_packI _ _ _, (candidate_11 _ _).trans ?_⟩
  delta cand11
  refine Eq.trans (if_pos ?_) ?_
  all_goals simp

/-- Its word reads back (R83). -/
theorem andi (d a : GReg) (imm : BitVec 32) : Statement (.andi d a imm) := by
  intro bm w h
  obtain rfl := Option.some.inj h
  refine Or.inr ⟨top_packI _ _ _, mark_packI _ _ _, (candidate_11 _ _).trans ?_⟩
  delta cand11
  refine Eq.trans (if_pos ?_) ?_
  all_goals simp

/-- Its word reads back (R83). -/
theorem ori (d a : GReg) (imm : BitVec 32) : Statement (.ori d a imm) := by
  intro bm w h
  obtain rfl := Option.some.inj h
  refine Or.inr ⟨top_packI _ _ _, mark_packI _ _ _, (candidate_11 _ _).trans ?_⟩
  delta cand11
  refine Eq.trans (if_pos ?_) ?_
  all_goals simp

/-- Its word reads back (R83). -/
theorem xori (d a : GReg) (imm : BitVec 32) : Statement (.xori d a imm) := by
  intro bm w h
  obtain rfl := Option.some.inj h
  refine Or.inr ⟨top_packI _ _ _, mark_packI _ _ _, (candidate_11 _ _).trans ?_⟩
  delta cand11
  refine Eq.trans (if_pos ?_) ?_
  all_goals simp

/-- Its word reads back (R83). -/
theorem slli (d a : GReg) (sh : BitVec 6) : Statement (.slli d a sh) := by
  intro bm w h
  obtain rfl := Option.some.inj h
  refine Or.inr ⟨top_packI _ _ _, mark_packI _ _ _, (candidate_11 _ _).trans ?_⟩
  delta cand11
  refine Eq.trans (if_pos ?_) ?_
  all_goals try simp (disch := decide) only [BitVec.extractLsb'_append_eq_of_add_le, BitVec.extractLsb'_append_eq_of_le]
  all_goals try simp only [BitVec.extractLsb'_eq_self, Nat.sub_self]
  all_goals simp

/-- Its word reads back (R83). -/
theorem srli (d a : GReg) (sh : BitVec 6) : Statement (.srli d a sh) := by
  intro bm w h
  obtain rfl := Option.some.inj h
  refine Or.inr ⟨top_packI _ _ _, mark_packI _ _ _, (candidate_11 _ _).trans ?_⟩
  delta cand11
  refine Eq.trans (if_pos ?_) ?_
  all_goals try simp (disch := decide) only [BitVec.extractLsb'_append_eq_of_add_le, BitVec.extractLsb'_append_eq_of_le]
  all_goals try simp only [BitVec.extractLsb'_eq_self, Nat.sub_self]
  all_goals simp

/-- Its word reads back (R83). -/
theorem srai (d a : GReg) (sh : BitVec 6) : Statement (.srai d a sh) := by
  intro bm w h
  obtain rfl := Option.some.inj h
  refine Or.inr ⟨top_packI _ _ _, mark_packI _ _ _, (candidate_11 _ _).trans ?_⟩
  delta cand11
  refine Eq.trans (if_pos ?_) ?_
  all_goals try simp (disch := decide) only [BitVec.extractLsb'_append_eq_of_add_le, BitVec.extractLsb'_append_eq_of_le]
  all_goals try simp only [BitVec.extractLsb'_eq_self, Nat.sub_self]
  all_goals simp

/-- Its word reads back (R83). -/
theorem slti (d a : GReg) (imm : BitVec 32) : Statement (.slti d a imm) := by
  intro bm w h
  obtain rfl := Option.some.inj h
  refine Or.inr ⟨top_packI _ _ _, mark_packI _ _ _, (candidate_11 _ _).trans ?_⟩
  delta cand11
  refine Eq.trans (if_pos ?_) ?_
  all_goals simp

/-- Its word reads back (R83). -/
theorem ldi (d : GReg) (imm : BitVec 32) : Statement (.ldi d imm) := by
  intro bm w h
  obtain rfl := Option.some.inj h
  refine Or.inr ⟨top_packI _ _ _, mark_packI _ _ _, (candidate_11 _ _).trans ?_⟩
  delta cand11
  refine Eq.trans (if_pos ?_) ?_
  all_goals simp

/-- Its word reads back (R83). -/
theorem ldih (d : GReg) (imm : BitVec 32) : Statement (.ldih d imm) := by
  intro bm w h
  obtain rfl := Option.some.inj h
  refine Or.inr ⟨top_packI _ _ _, mark_packI _ _ _, (candidate_11 _ _).trans ?_⟩
  delta cand11
  refine Eq.trans (if_pos ?_) ?_
  all_goals simp

/-- Its word reads back (R83). -/
theorem pcadd (d : GReg) (imm : BitVec 32) : Statement (.pcadd d imm) := by
  intro bm w h
  obtain rfl := Option.some.inj h
  refine Or.inr ⟨top_packI _ _ _, mark_packI _ _ _, (candidate_11 _ _).trans ?_⟩
  delta cand11
  refine Eq.trans (if_pos ?_) ?_
  all_goals simp

/-- Its word reads back (R83). -/
theorem fadd (d a b : GReg) (f : SFmt) : Statement (.fadd d a b f) := by
  intro bm w h
  obtain rfl := Option.some.inj h
  refine Or.inr ⟨top_packA _ _ _, mark_packA _ _ _, (candidate_12 _ _).trans ?_⟩
  delta cand12
  refine Eq.trans (if_pos ?_) ?_
  all_goals try simp only [sfmt_ofCode_code, Option.bind_some]
  all_goals try simp (disch := decide) only [BitVec.extractLsb'_append_eq_of_add_le, BitVec.extractLsb'_append_eq_of_le]
  all_goals try simp only [BitVec.extractLsb'_eq_self, Nat.sub_self]
  all_goals simp [sfmt_ofCode_code, Option.bind_some]

/-- Its word reads back (R83). -/
theorem fsub (d a b : GReg) (f : SFmt) : Statement (.fsub d a b f) := by
  intro bm w h
  obtain rfl := Option.some.inj h
  refine Or.inr ⟨top_packA _ _ _, mark_packA _ _ _, (candidate_12 _ _).trans ?_⟩
  delta cand12
  refine Eq.trans (if_pos ?_) ?_
  all_goals try simp only [sfmt_ofCode_code, Option.bind_some]
  all_goals try simp (disch := decide) only [BitVec.extractLsb'_append_eq_of_add_le, BitVec.extractLsb'_append_eq_of_le]
  all_goals try simp only [BitVec.extractLsb'_eq_self, Nat.sub_self]
  all_goals simp [sfmt_ofCode_code, Option.bind_some]

/-- Its word reads back (R83). -/
theorem fmul (d a b : GReg) (f : SFmt) : Statement (.fmul d a b f) := by
  intro bm w h
  obtain rfl := Option.some.inj h
  refine Or.inr ⟨top_packA _ _ _, mark_packA _ _ _, (candidate_12 _ _).trans ?_⟩
  delta cand12
  refine Eq.trans (if_pos ?_) ?_
  all_goals try simp only [sfmt_ofCode_code, Option.bind_some]
  all_goals try simp (disch := decide) only [BitVec.extractLsb'_append_eq_of_add_le, BitVec.extractLsb'_append_eq_of_le]
  all_goals try simp only [BitVec.extractLsb'_eq_self, Nat.sub_self]
  all_goals simp [sfmt_ofCode_code, Option.bind_some]

/-- Its word reads back (R83). -/
theorem fdiv (d a b : GReg) (f : SFmt) : Statement (.fdiv d a b f) := by
  intro bm w h
  obtain rfl := Option.some.inj h
  refine Or.inr ⟨top_packA _ _ _, mark_packA _ _ _, (candidate_12 _ _).trans ?_⟩
  delta cand12
  refine Eq.trans (if_pos ?_) ?_
  all_goals try simp only [sfmt_ofCode_code, Option.bind_some]
  all_goals try simp (disch := decide) only [BitVec.extractLsb'_append_eq_of_add_le, BitVec.extractLsb'_append_eq_of_le]
  all_goals try simp only [BitVec.extractLsb'_eq_self, Nat.sub_self]
  all_goals simp [sfmt_ofCode_code, Option.bind_some]

/-- Its word reads back (R83). -/
theorem ffma (d a b c : GReg) (f : SFmt) : Statement (.ffma d a b c f) := by
  intro bm w h
  obtain rfl := Option.some.inj h
  refine Or.inr ⟨top_packA _ _ _, mark_packA _ _ _, (candidate_12 _ _).trans ?_⟩
  delta cand12
  refine Eq.trans (if_pos ?_) ?_
  all_goals try simp only [sfmt_ofCode_code, Option.bind_some]
  all_goals try simp (disch := decide) only [BitVec.extractLsb'_append_eq_of_add_le, BitVec.extractLsb'_append_eq_of_le]
  all_goals try simp only [BitVec.extractLsb'_eq_self, Nat.sub_self]
  all_goals simp [sfmt_ofCode_code, Option.bind_some]

/-- Its word reads back (R83). -/
theorem fmin (d a b : GReg) (f : SFmt) : Statement (.fmin d a b f) := by
  intro bm w h
  obtain rfl := Option.some.inj h
  refine Or.inr ⟨top_packA _ _ _, mark_packA _ _ _, (candidate_12 _ _).trans ?_⟩
  delta cand12
  refine Eq.trans (if_pos ?_) ?_
  all_goals try simp only [sfmt_ofCode_code, Option.bind_some]
  all_goals try simp (disch := decide) only [BitVec.extractLsb'_append_eq_of_add_le, BitVec.extractLsb'_append_eq_of_le]
  all_goals try simp only [BitVec.extractLsb'_eq_self, Nat.sub_self]
  all_goals simp [sfmt_ofCode_code, Option.bind_some]

/-- Its word reads back (R83). -/
theorem fmax (d a b : GReg) (f : SFmt) : Statement (.fmax d a b f) := by
  intro bm w h
  obtain rfl := Option.some.inj h
  refine Or.inr ⟨top_packA _ _ _, mark_packA _ _ _, (candidate_12 _ _).trans ?_⟩
  delta cand12
  refine Eq.trans (if_pos ?_) ?_
  all_goals try simp only [sfmt_ofCode_code, Option.bind_some]
  all_goals try simp (disch := decide) only [BitVec.extractLsb'_append_eq_of_add_le, BitVec.extractLsb'_append_eq_of_le]
  all_goals try simp only [BitVec.extractLsb'_eq_self, Nat.sub_self]
  all_goals simp [sfmt_ofCode_code, Option.bind_some]

/-- Its word reads back (R83). -/
theorem fsqrt (d a : GReg) (f : SFmt) : Statement (.fsqrt d a f) := by
  intro bm w h
  obtain rfl := Option.some.inj h
  refine Or.inr ⟨top_packA _ _ _, mark_packA _ _ _, (candidate_12 _ _).trans ?_⟩
  delta cand12
  refine Eq.trans (if_pos ?_) ?_
  all_goals try simp only [sfmt_ofCode_code, Option.bind_some]
  all_goals try simp (disch := decide) only [BitVec.extractLsb'_append_eq_of_add_le, BitVec.extractLsb'_append_eq_of_le]
  all_goals try simp only [BitVec.extractLsb'_eq_self, Nat.sub_self]
  all_goals simp [sfmt_ofCode_code, Option.bind_some]

/-- Its word reads back (R83). -/
theorem fcmpeq (d a b : GReg) (f : SFmt) : Statement (.fcmpeq d a b f) := by
  intro bm w h
  obtain rfl := Option.some.inj h
  refine Or.inr ⟨top_packA _ _ _, mark_packA _ _ _, (candidate_12 _ _).trans ?_⟩
  delta cand12
  refine Eq.trans (if_pos ?_) ?_
  all_goals try simp only [sfmt_ofCode_code, Option.bind_some]
  all_goals try simp (disch := decide) only [BitVec.extractLsb'_append_eq_of_add_le, BitVec.extractLsb'_append_eq_of_le]
  all_goals try simp only [BitVec.extractLsb'_eq_self, Nat.sub_self]
  all_goals simp [sfmt_ofCode_code, Option.bind_some]

/-- Its word reads back (R83). -/
theorem fcmplt (d a b : GReg) (f : SFmt) : Statement (.fcmplt d a b f) := by
  intro bm w h
  obtain rfl := Option.some.inj h
  refine Or.inr ⟨top_packA _ _ _, mark_packA _ _ _, (candidate_12 _ _).trans ?_⟩
  delta cand12
  refine Eq.trans (if_pos ?_) ?_
  all_goals try simp only [sfmt_ofCode_code, Option.bind_some]
  all_goals try simp (disch := decide) only [BitVec.extractLsb'_append_eq_of_add_le, BitVec.extractLsb'_append_eq_of_le]
  all_goals try simp only [BitVec.extractLsb'_eq_self, Nat.sub_self]
  all_goals simp [sfmt_ofCode_code, Option.bind_some]

/-- Its word reads back (R83). -/
theorem fcmple (d a b : GReg) (f : SFmt) : Statement (.fcmple d a b f) := by
  intro bm w h
  obtain rfl := Option.some.inj h
  refine Or.inr ⟨top_packA _ _ _, mark_packA _ _ _, (candidate_12 _ _).trans ?_⟩
  delta cand12
  refine Eq.trans (if_pos ?_) ?_
  all_goals try simp only [sfmt_ofCode_code, Option.bind_some]
  all_goals try simp (disch := decide) only [BitVec.extractLsb'_append_eq_of_add_le, BitVec.extractLsb'_append_eq_of_le]
  all_goals try simp only [BitVec.extractLsb'_eq_self, Nat.sub_self]
  all_goals simp [sfmt_ofCode_code, Option.bind_some]

/-- Its word reads back (R83). -/
theorem fcvt (d a : GReg) (f : SFmt) (k : CvtKind) (dir : Bool) : Statement (.fcvt d a f k dir) := by
  intro bm w h
  obtain rfl := Option.some.inj h
  refine Or.inr ⟨top_packA _ _ _, mark_packA _ _ _, (candidate_12 _ _).trans ?_⟩
  delta cand12
  refine Eq.trans (if_pos ?_) ?_
  all_goals try simp only [sfmt_ofCode_code, cvtKind_ofCode_code, ofBool_beq_one, Option.bind_some]
  all_goals try simp (disch := decide) only [BitVec.extractLsb'_append_eq_of_add_le, BitVec.extractLsb'_append_eq_of_le]
  all_goals try simp only [BitVec.extractLsb'_eq_self, Nat.sub_self]
  all_goals simp [sfmt_ofCode_code, cvtKind_ofCode_code, ofBool_beq_one, Option.bind_some]

/-- Its word reads back (R83). -/
theorem fclass (d a : GReg) (f : SFmt) : Statement (.fclass d a f) := by
  intro bm w h
  obtain rfl := Option.some.inj h
  refine Or.inr ⟨top_packA _ _ _, mark_packA _ _ _, (candidate_12 _ _).trans ?_⟩
  delta cand12
  refine Eq.trans (if_pos ?_) ?_
  all_goals try simp only [sfmt_ofCode_code, Option.bind_some]
  all_goals try simp (disch := decide) only [BitVec.extractLsb'_append_eq_of_add_le, BitVec.extractLsb'_append_eq_of_le]
  all_goals try simp only [BitVec.extractLsb'_eq_self, Nat.sub_self]
  all_goals simp [sfmt_ofCode_code, Option.bind_some]

/-- Its word reads back (R83). -/
theorem beq (a b : GReg) (off : BitVec 32) : Statement (.beq a b off) := by
  intro bm w h
  obtain rfl := Option.some.inj h
  refine Or.inr ⟨top_packB _ _ _, mark_packB _ _ _, (candidate_18 _ _).trans ?_⟩
  delta cand18
  refine Eq.trans (if_pos ?_) ?_
  all_goals simp

/-- Its word reads back (R83). -/
theorem bne (a b : GReg) (off : BitVec 32) : Statement (.bne a b off) := by
  intro bm w h
  obtain rfl := Option.some.inj h
  refine Or.inr ⟨top_packB _ _ _, mark_packB _ _ _, (candidate_18 _ _).trans ?_⟩
  delta cand18
  refine Eq.trans (if_pos ?_) ?_
  all_goals simp

/-- Its word reads back (R83). -/
theorem blt (a b : GReg) (off : BitVec 32) : Statement (.blt a b off) := by
  intro bm w h
  obtain rfl := Option.some.inj h
  refine Or.inr ⟨top_packB _ _ _, mark_packB _ _ _, (candidate_18 _ _).trans ?_⟩
  delta cand18
  refine Eq.trans (if_pos ?_) ?_
  all_goals simp

/-- Its word reads back (R83). -/
theorem bge (a b : GReg) (off : BitVec 32) : Statement (.bge a b off) := by
  intro bm w h
  obtain rfl := Option.some.inj h
  refine Or.inr ⟨top_packB _ _ _, mark_packB _ _ _, (candidate_18 _ _).trans ?_⟩
  delta cand18
  refine Eq.trans (if_pos ?_) ?_
  all_goals simp

/-- Its word reads back (R83). -/
theorem bltn (a b : GReg) (off : BitVec 32) : Statement (.bltn a b off) := by
  intro bm w h
  obtain rfl := Option.some.inj h
  refine Or.inr ⟨top_packB _ _ _, mark_packB _ _ _, (candidate_18 _ _).trans ?_⟩
  delta cand18
  refine Eq.trans (if_pos ?_) ?_
  all_goals simp

/-- Its word reads back (R83). -/
theorem bgen (a b : GReg) (off : BitVec 32) : Statement (.bgen a b off) := by
  intro bm w h
  obtain rfl := Option.some.inj h
  refine Or.inr ⟨top_packB _ _ _, mark_packB _ _ _, (candidate_18 _ _).trans ?_⟩
  delta cand18
  refine Eq.trans (if_pos ?_) ?_
  all_goals simp

/-- Its word reads back (R83). -/
theorem bz (a : GReg) (off : BitVec 32) : Statement (.bz a off) := by
  intro bm w h
  obtain rfl := Option.some.inj h
  refine Or.inr ⟨top_packB _ _ _, mark_packB _ _ _, (candidate_18 _ _).trans ?_⟩
  delta cand18
  refine Eq.trans (if_pos ?_) ?_
  all_goals simp

/-- Its word reads back (R83). -/
theorem bnz (a : GReg) (off : BitVec 32) : Statement (.bnz a off) := by
  intro bm w h
  obtain rfl := Option.some.inj h
  refine Or.inr ⟨top_packB _ _ _, mark_packB _ _ _, (candidate_18 _ _).trans ?_⟩
  delta cand18
  refine Eq.trans (if_pos ?_) ?_
  all_goals simp

/-- Its word reads back (R83). -/
theorem jal (d : GReg) (off : BitVec 32) : Statement (.jal d off) := by
  intro bm w h
  obtain rfl := Option.some.inj h
  refine Or.inr ⟨top_packI _ _ _, mark_packI _ _ _, (candidate_19 _ _).trans ?_⟩
  delta cand19
  refine Eq.trans (if_pos ?_) ?_
  all_goals simp

/-- Its word reads back (R83). -/
theorem jalr (d a : GReg) (imm : BitVec 32) : Statement (.jalr d a imm) := by
  intro bm w h
  obtain rfl := Option.some.inj h
  refine Or.inr ⟨top_packI _ _ _, mark_packI _ _ _, (candidate_1a _ _).trans ?_⟩
  delta cand1A
  refine Eq.trans (if_pos ?_) ?_
  all_goals simp

/-- Its word reads back (R83). -/
theorem dbnz (a : GReg) (off : BitVec 32) : Statement (.dbnz a off) := by
  intro bm w h
  obtain rfl := Option.some.inj h
  refine Or.inr ⟨top_packB _ _ _, mark_packB _ _ _, (candidate_1b _ _).trans ?_⟩
  delta cand1B
  refine Eq.trans (if_pos ?_) ?_
  all_goals simp

/-- Its word reads back (R83). -/
theorem crd (d : GReg) (cr : BitVec 12) : Statement (.crd d cr) := by
  intro bm w h
  obtain rfl := Option.some.inj h
  refine Or.inr ⟨top_packS _ _ _, mark_packS _ _ _, (candidate_20 _ _).trans ?_⟩
  delta cand20
  refine Eq.trans (if_pos ?_) ?_
  all_goals simp

/-- Its word reads back (R83). -/
theorem cwr (a : GReg) (cr : BitVec 12) : Statement (.cwr a cr) := by
  intro bm w h
  obtain rfl := Option.some.inj h
  refine Or.inr ⟨top_packS _ _ _, mark_packS _ _ _, (candidate_20 _ _).trans ?_⟩
  delta cand20
  refine Eq.trans (if_pos ?_) ?_
  all_goals simp

/-- Its word reads back (R83). -/
theorem cset (d a : GReg) (cr : BitVec 12) : Statement (.cset d a cr) := by
  intro bm w h
  obtain rfl := Option.some.inj h
  refine Or.inr ⟨top_packS _ _ _, mark_packS _ _ _, (candidate_20 _ _).trans ?_⟩
  delta cand20
  refine Eq.trans (if_pos ?_) ?_
  all_goals simp

/-- Its word reads back (R83). -/
theorem cclr (d a : GReg) (cr : BitVec 12) : Statement (.cclr d a cr) := by
  intro bm w h
  obtain rfl := Option.some.inj h
  refine Or.inr ⟨top_packS _ _ _, mark_packS _ _ _, (candidate_20 _ _).trans ?_⟩
  delta cand20
  refine Eq.trans (if_pos ?_) ?_
  all_goals simp

/-- Its word reads back (R83). -/
theorem sys (n : BitVec 24) : Statement (.sys n) := by
  intro bm w h
  obtain rfl := Option.some.inj h
  refine Or.inr ⟨top_packS _ _ _, mark_packS _ _ _, (candidate_20 _ _).trans ?_⟩
  delta cand20
  refine Eq.trans (if_pos ?_) ?_
  all_goals simp

/-- Its word reads back (R83). -/
theorem brk (n : BitVec 24) : Statement (.brk n) := by
  intro bm w h
  obtain rfl := Option.some.inj h
  refine Or.inr ⟨top_packS _ _ _, mark_packS _ _ _, (candidate_20 _ _).trans ?_⟩
  delta cand20
  refine Eq.trans (if_pos ?_) ?_
  all_goals simp

/-- Its word reads back (R83). -/
theorem rdtime (d : GReg) : Statement (.rdtime d) := by
  intro bm w h
  obtain rfl := Option.some.inj h
  refine Or.inr ⟨top_packS _ _ _, mark_packS _ _ _, (candidate_20 _ _).trans ?_⟩
  delta cand20
  refine Eq.trans (if_pos ?_) ?_
  all_goals simp

/-- Its word reads back (R83). -/
theorem tmark (a : GReg) (n : BitVec 24) : Statement (.tmark a n) := by
  intro bm w h
  obtain rfl := Option.some.inj h
  refine Or.inr ⟨top_packS _ _ _, mark_packS _ _ _, (candidate_20 _ _).trans ?_⟩
  delta cand20
  refine Eq.trans (if_pos ?_) ?_
  all_goals simp

/-- Its word reads back (R83). -/
theorem dyn (d a : GReg) : Statement (.dyn d a) := by
  intro bm w h
  obtain rfl := Option.some.inj h
  refine Or.inr ⟨top_packS _ _ _, mark_packS _ _ _, (candidate_20 _ _).trans ?_⟩
  delta cand20
  refine Eq.trans (if_pos ?_) ?_
  all_goals simp

/-- Its word reads back (R83). -/
theorem arg (d : GReg) (i : BitVec 6) : Statement (.arg d i) := by
  intro bm w h
  obtain rfl := Option.some.inj h
  refine Or.inr ⟨top_packS _ _ _, mark_packS _ _ _, (candidate_20 _ _).trans ?_⟩
  delta cand20
  refine Eq.trans (if_pos ?_) ?_
  all_goals try simp (disch := decide) only [BitVec.extractLsb'_append_eq_of_add_le, BitVec.extractLsb'_append_eq_of_le]
  all_goals try simp only [BitVec.extractLsb'_eq_self, Nat.sub_self]
  all_goals simp

/-- Its word reads back (R83). -/
theorem wfld (d : GReg) (k : BitVec 3) : Statement (.wfld d k) := by
  intro bm w h
  obtain rfl := Option.some.inj h
  refine Or.inr ⟨top_packS _ _ _, mark_packS _ _ _, (candidate_20 _ _).trans ?_⟩
  delta cand20
  refine Eq.trans (if_pos ?_) ?_
  all_goals try simp (disch := decide) only [BitVec.extractLsb'_append_eq_of_add_le, BitVec.extractLsb'_append_eq_of_le]
  all_goals try simp only [BitVec.extractLsb'_eq_self, Nat.sub_self]
  all_goals simp

/-- Its word reads back (R83). -/
theorem prio (d a : GReg) : Statement (.prio d a) := by
  intro bm w h
  obtain rfl := Option.some.inj h
  refine Or.inr ⟨top_packS _ _ _, mark_packS _ _ _, (candidate_20 _ _).trans ?_⟩
  delta cand20
  refine Eq.trans (if_pos ?_) ?_
  all_goals simp

/-- Its word reads back (R83). -/
theorem bar (n : BitVec 2) : Statement (.bar n) := by
  intro bm w h
  obtain rfl := Option.some.inj h
  refine Or.inr ⟨top_packS _ _ _, mark_packS _ _ _, (candidate_78 _ _).trans ?_⟩
  simp only [cand78]
  all_goals try simp (disch := decide) only [BitVec.extractLsb'_append_eq_of_add_le, BitVec.extractLsb'_append_eq_of_le]
  all_goals try simp only [BitVec.extractLsb'_eq_self, Nat.sub_self]
  all_goals simp

/-- Its word reads back (R83). -/
theorem barPh (d : GReg) (n : BitVec 2) : Statement (.barPh d n) := by
  intro bm w h
  obtain rfl := Option.some.inj h
  refine Or.inr ⟨top_packS _ _ _, mark_packS _ _ _, (candidate_78 _ _).trans ?_⟩
  simp only [cand78]
  all_goals try simp (disch := decide) only [BitVec.extractLsb'_append_eq_of_add_le, BitVec.extractLsb'_append_eq_of_le]
  all_goals try simp only [BitVec.extractLsb'_eq_self, Nat.sub_self]
  all_goals simp

/-- Its word reads back (R83). -/
theorem sleep (a : GReg) : Statement (.sleep a) := by
  intro bm w h
  obtain rfl := Option.some.inj h
  refine Or.inr ⟨top_packS _ _ _, mark_packS _ _ _, (candidate_78 _ _).trans ?_⟩
  delta cand78
  refine Eq.trans (if_pos ?_) ?_
  all_goals simp

/-- Its word reads back (R83). -/
theorem lnch (d a : GReg) (q : BitVec 6) : Statement (.lnch d a q) := by
  intro bm w h
  obtain rfl := Option.some.inj h
  refine Or.inr ⟨top_packS _ _ _, mark_packS _ _ _, (candidate_20 _ _).trans ?_⟩
  delta cand20
  refine Eq.trans (if_pos ?_) ?_
  all_goals try simp (disch := decide) only [BitVec.extractLsb'_append_eq_of_add_le, BitVec.extractLsb'_append_eq_of_le]
  all_goals try simp only [BitVec.extractLsb'_eq_self, Nat.sub_self]
  all_goals simp

/-- Its word reads back (R83). -/
theorem trap (n : BitVec 24) : Statement (.trap n) := by
  intro bm w h
  obtain rfl := Option.some.inj h
  refine Or.inr ⟨top_packS _ _ _, mark_packS _ _ _, (candidate_20 _ _).trans ?_⟩
  delta cand20
  refine Eq.trans (if_pos ?_) ?_
  all_goals simp

/-- Its word reads back (R83). -/
theorem ctxsv (d a : GReg) : Statement (.ctxsv d a) := by
  intro bm w h
  obtain rfl := Option.some.inj h
  refine Or.inr ⟨top_packS _ _ _, mark_packS _ _ _, (candidate_20 _ _).trans ?_⟩
  delta cand20
  refine Eq.trans (if_pos ?_) ?_
  all_goals simp

/-- Its word reads back (R83). -/
theorem ctxld (d a : GReg) : Statement (.ctxld d a) := by
  intro bm w h
  obtain rfl := Option.some.inj h
  refine Or.inr ⟨top_packS _ _ _, mark_packS _ _ _, (candidate_20 _ _).trans ?_⟩
  delta cand20
  refine Eq.trans (if_pos ?_) ?_
  all_goals simp

/-- Its word reads back (R83). -/
theorem sfq (d : GReg) (k : BitVec 3) : Statement (.sfq d k) := by
  intro bm w h
  obtain rfl := Option.some.inj h
  refine Or.inr ⟨top_packS _ _ _, mark_packS _ _ _, (candidate_20 _ _).trans ?_⟩
  simp only [cand20]
  all_goals try simp (disch := decide) only [BitVec.extractLsb'_append_eq_of_add_le, BitVec.extractLsb'_append_eq_of_le]
  all_goals try simp only [BitVec.extractLsb'_eq_self, Nat.sub_self]
  all_goals simp

/-- Its word reads back (R83). -/
theorem sfqPop (d : GReg) (k : BitVec 3) : Statement (.sfqPop d k) := by
  intro bm w h
  obtain rfl := Option.some.inj h
  refine Or.inr ⟨top_packS _ _ _, mark_packS _ _ _, (candidate_20 _ _).trans ?_⟩
  simp only [cand20]
  all_goals try simp (disch := decide) only [BitVec.extractLsb'_append_eq_of_add_le, BitVec.extractLsb'_append_eq_of_le]
  all_goals try simp only [BitVec.extractLsb'_eq_self, Nat.sub_self]
  all_goals simp

/-- Its word reads back (R83). -/
theorem qput (d a : GReg) (q : BitVec 6) : Statement (.qput d a q) := by
  intro bm w h
  obtain rfl := Option.some.inj h
  refine Or.inr ⟨top_packS _ _ _, mark_packS _ _ _, (candidate_20 _ _).trans ?_⟩
  delta cand20
  refine Eq.trans (if_pos ?_) ?_
  all_goals try simp (disch := decide) only [BitVec.extractLsb'_append_eq_of_add_le, BitVec.extractLsb'_append_eq_of_le]
  all_goals try simp only [BitVec.extractLsb'_eq_self, Nat.sub_self]
  all_goals simp

/-- Its word reads back (R83). -/
theorem sinvPage (d a : GReg) : Statement (.sinvPage d a) := by
  intro bm w h
  obtain rfl := Option.some.inj h
  refine Or.inr ⟨top_packS _ _ _, mark_packS _ _ _, (candidate_20 _ _).trans ?_⟩
  simp only [cand20]
  all_goals simp

/-- Its word reads back (R83). -/
theorem sinvAll (d : GReg) : Statement (.sinvAll d) := by
  intro bm w h
  obtain rfl := Option.some.inj h
  refine Or.inr ⟨top_packS _ _ _, mark_packS _ _ _, (candidate_20 _ _).trans ?_⟩
  simp only [cand20]
  all_goals try simp (disch := decide) only [BitVec.extractLsb'_append_eq_of_add_le, BitVec.extractLsb'_append_eq_of_le]
  all_goals try simp only [BitVec.extractLsb'_eq_self, Nat.sub_self]
  all_goals simp

/-- Its word reads back (R83). -/
theorem sinvReport (d : GReg) : Statement (.sinvReport d) := by
  intro bm w h
  obtain rfl := Option.some.inj h
  refine Or.inr ⟨top_packS _ _ _, mark_packS _ _ _, (candidate_20 _ _).trans ?_⟩
  simp only [cand20]
  all_goals try simp (disch := decide) only [BitVec.extractLsb'_append_eq_of_add_le, BitVec.extractLsb'_append_eq_of_le]
  all_goals try simp only [BitVec.extractLsb'_eq_self, Nat.sub_self]
  all_goals simp

/-- Its word reads back (R83). -/
theorem vgr (d a : GReg) : Statement (.vgr d a) := by
  intro bm w h
  obtain rfl := Option.some.inj h
  refine Or.inr ⟨top_packI _ _ _, mark_packI _ _ _, (candidate_28 _ _).trans ?_⟩
  delta cand28
  refine Eq.trans (if_pos ?_) ?_
  all_goals simp

/-- Its word reads back (R83). -/
theorem vgq (d a : GReg) : Statement (.vgq d a) := by
  intro bm w h
  obtain rfl := Option.some.inj h
  refine Or.inr ⟨top_packI _ _ _, mark_packI _ _ _, (candidate_28 _ _).trans ?_⟩
  delta cand28
  refine Eq.trans (if_pos ?_) ?_
  all_goals simp

/-- Its word reads back (R83). -/
theorem vrel (d : GReg) : Statement (.vrel d) := by
  intro bm w h
  obtain rfl := Option.some.inj h
  refine Or.inr ⟨top_packI _ _ _, mark_packI _ _ _, (candidate_28 _ _).trans ?_⟩
  delta cand28
  refine Eq.trans (if_pos ?_) ?_
  all_goals simp

/-- Its word reads back (R83). -/
theorem vrows (d : GReg) (n : BitVec 4) : Statement (.vrows d n) := by
  intro bm w h
  obtain rfl := Option.some.inj h
  refine Or.inr ⟨top_packI _ _ _, mark_packI _ _ _, (candidate_28 _ _).trans ?_⟩
  delta cand28
  refine Eq.trans (if_pos ?_) ?_
  all_goals try simp (disch := decide) only [BitVec.extractLsb'_append_eq_of_add_le, BitVec.extractLsb'_append_eq_of_le]
  all_goals try simp only [BitVec.extractLsb'_eq_self, Nat.sub_self]
  all_goals simp

/-- Its word reads back (R83). -/
theorem vtype (d : GReg) (f : Fmt) (blk : BitVec 2) (n : BitVec 4) : Statement (.vtype d f blk n) := by
  intro bm w h
  obtain rfl := Option.some.inj h
  refine Or.inr ⟨top_packI _ _ _, mark_packI _ _ _, (candidate_28 _ _).trans ?_⟩
  delta cand28
  refine Eq.trans (if_pos ?_) ?_
  all_goals try simp only [fmt_ofCode_code]
  all_goals try simp (disch := decide) only [BitVec.extractLsb'_append_eq_of_add_le, BitVec.extractLsb'_append_eq_of_le]
  all_goals try simp only [BitVec.extractLsb'_eq_self, Nat.sub_self]
  all_goals simp [fmt_ofCode_code]

/-- Its word reads back (R83). -/
theorem vaddFloat (f : Fmt) (d a b : VReg) (x e : Option MReg) : Statement (.vaddFloat f d a b x e) := by
  intro bm w h
  obtain rfl := Option.some.inj h
  refine Or.inr ⟨top_packA _ _ _, mark_packA _ _ _, (candidate_30 _ _).trans ?_⟩
  delta cand30
  refine Eq.trans (if_pos ?_) ?_
  all_goals try simp only [RawA.imm12, RawA.fmt, vr_vf, opt_flag_num, fmt_ofCode_code, Option.bind_some]
  all_goals try simp (disch := decide) only [BitVec.extractLsb'_append_eq_of_add_le, BitVec.extractLsb'_append_eq_of_le]
  all_goals try simp only [BitVec.extractLsb'_eq_self, Nat.sub_self]
  all_goals simp [RawA.imm12, RawA.fmt, vr_vf, opt_flag_num, fmt_ofCode_code, Option.bind_some]

/-- Its word reads back (R83). -/
theorem vsubFloat (f : Fmt) (d a b : VReg) (x e : Option MReg) : Statement (.vsubFloat f d a b x e) := by
  intro bm w h
  obtain rfl := Option.some.inj h
  refine Or.inr ⟨top_packA _ _ _, mark_packA _ _ _, (candidate_30 _ _).trans ?_⟩
  delta cand30
  refine Eq.trans (if_pos ?_) ?_
  all_goals try simp only [RawA.imm12, RawA.fmt, vr_vf, opt_flag_num, fmt_ofCode_code, Option.bind_some]
  all_goals try simp (disch := decide) only [BitVec.extractLsb'_append_eq_of_add_le, BitVec.extractLsb'_append_eq_of_le]
  all_goals try simp only [BitVec.extractLsb'_eq_self, Nat.sub_self]
  all_goals simp [RawA.imm12, RawA.fmt, vr_vf, opt_flag_num, fmt_ofCode_code, Option.bind_some]

/-- Its word reads back (R83). -/
theorem vmulFloat (f : Fmt) (d a b : VReg) (x e : Option MReg) : Statement (.vmulFloat f d a b x e) := by
  intro bm w h
  obtain rfl := Option.some.inj h
  refine Or.inr ⟨top_packA _ _ _, mark_packA _ _ _, (candidate_30 _ _).trans ?_⟩
  delta cand30
  refine Eq.trans (if_pos ?_) ?_
  all_goals try simp only [RawA.imm12, RawA.fmt, vr_vf, opt_flag_num, fmt_ofCode_code, Option.bind_some]
  all_goals try simp (disch := decide) only [BitVec.extractLsb'_append_eq_of_add_le, BitVec.extractLsb'_append_eq_of_le]
  all_goals try simp only [BitVec.extractLsb'_eq_self, Nat.sub_self]
  all_goals simp [RawA.imm12, RawA.fmt, vr_vf, opt_flag_num, fmt_ofCode_code, Option.bind_some]

/-- Its word reads back (R83). -/
theorem vfma (f : Fmt) (d a b c : VReg) (x e : Option MReg) : Statement (.vfma f d a b c x e) := by
  intro bm w h
  obtain rfl := Option.some.inj h
  refine Or.inr ⟨top_packA _ _ _, mark_packA _ _ _, (candidate_30 _ _).trans ?_⟩
  delta cand30
  refine Eq.trans (if_pos ?_) ?_
  all_goals try simp only [RawA.imm12, RawA.fmt, vr_vf, opt_flag_num, fmt_ofCode_code, Option.bind_some]
  all_goals try simp (disch := decide) only [BitVec.extractLsb'_append_eq_of_add_le, BitVec.extractLsb'_append_eq_of_le]
  all_goals try simp only [BitVec.extractLsb'_eq_self, Nat.sub_self]
  all_goals simp [RawA.imm12, RawA.fmt, vr_vf, opt_flag_num, fmt_ofCode_code, Option.bind_some]

/-- Its word reads back (R83). -/
theorem vfms (f : Fmt) (d a b c : VReg) (x e : Option MReg) : Statement (.vfms f d a b c x e) := by
  intro bm w h
  obtain rfl := Option.some.inj h
  refine Or.inr ⟨top_packA _ _ _, mark_packA _ _ _, (candidate_30 _ _).trans ?_⟩
  delta cand30
  refine Eq.trans (if_pos ?_) ?_
  all_goals try simp only [RawA.imm12, RawA.fmt, vr_vf, opt_flag_num, fmt_ofCode_code, Option.bind_some]
  all_goals try simp (disch := decide) only [BitVec.extractLsb'_append_eq_of_add_le, BitVec.extractLsb'_append_eq_of_le]
  all_goals try simp only [BitVec.extractLsb'_eq_self, Nat.sub_self]
  all_goals simp [RawA.imm12, RawA.fmt, vr_vf, opt_flag_num, fmt_ofCode_code, Option.bind_some]

/-- Its word reads back (R83). -/
theorem vdiv (f : Fmt) (d a b : VReg) (x e : Option MReg) : Statement (.vdiv f d a b x e) := by
  intro bm w h
  obtain rfl := Option.some.inj h
  refine Or.inr ⟨top_packA _ _ _, mark_packA _ _ _, (candidate_30 _ _).trans ?_⟩
  delta cand30
  refine Eq.trans (if_pos ?_) ?_
  all_goals try simp only [RawA.imm12, RawA.fmt, vr_vf, opt_flag_num, fmt_ofCode_code, Option.bind_some]
  all_goals try simp (disch := decide) only [BitVec.extractLsb'_append_eq_of_add_le, BitVec.extractLsb'_append_eq_of_le]
  all_goals try simp only [BitVec.extractLsb'_eq_self, Nat.sub_self]
  all_goals simp [RawA.imm12, RawA.fmt, vr_vf, opt_flag_num, fmt_ofCode_code, Option.bind_some]

/-- Its word reads back (R83). -/
theorem vsqrt (f : Fmt) (d a : VReg) (x e : Option MReg) : Statement (.vsqrt f d a x e) := by
  intro bm w h
  obtain rfl := Option.some.inj h
  refine Or.inr ⟨top_packA _ _ _, mark_packA _ _ _, (candidate_30 _ _).trans ?_⟩
  delta cand30
  refine Eq.trans (if_pos ?_) ?_
  all_goals try simp only [RawA.imm12, RawA.fmt, vr_vf, opt_flag_num, fmt_ofCode_code, Option.bind_some]
  all_goals try simp (disch := decide) only [BitVec.extractLsb'_append_eq_of_add_le, BitVec.extractLsb'_append_eq_of_le]
  all_goals try simp only [BitVec.extractLsb'_eq_self, Nat.sub_self]
  all_goals simp [RawA.imm12, RawA.fmt, vr_vf, opt_flag_num, fmt_ofCode_code, Option.bind_some]

/-- Its word reads back (R83). -/
theorem vminFloat (f : Fmt) (d a b : VReg) (x e : Option MReg) : Statement (.vminFloat f d a b x e) := by
  intro bm w h
  obtain rfl := Option.some.inj h
  refine Or.inr ⟨top_packA _ _ _, mark_packA _ _ _, (candidate_30 _ _).trans ?_⟩
  delta cand30
  refine Eq.trans (if_pos ?_) ?_
  all_goals try simp only [RawA.imm12, RawA.fmt, vr_vf, opt_flag_num, fmt_ofCode_code, Option.bind_some]
  all_goals try simp (disch := decide) only [BitVec.extractLsb'_append_eq_of_add_le, BitVec.extractLsb'_append_eq_of_le]
  all_goals try simp only [BitVec.extractLsb'_eq_self, Nat.sub_self]
  all_goals simp [RawA.imm12, RawA.fmt, vr_vf, opt_flag_num, fmt_ofCode_code, Option.bind_some]

/-- Its word reads back (R83). -/
theorem vmaxFloat (f : Fmt) (d a b : VReg) (x e : Option MReg) : Statement (.vmaxFloat f d a b x e) := by
  intro bm w h
  obtain rfl := Option.some.inj h
  refine Or.inr ⟨top_packA _ _ _, mark_packA _ _ _, (candidate_30 _ _).trans ?_⟩
  delta cand30
  refine Eq.trans (if_pos ?_) ?_
  all_goals try simp only [RawA.imm12, RawA.fmt, vr_vf, opt_flag_num, fmt_ofCode_code, Option.bind_some]
  all_goals try simp (disch := decide) only [BitVec.extractLsb'_append_eq_of_add_le, BitVec.extractLsb'_append_eq_of_le]
  all_goals try simp only [BitVec.extractLsb'_eq_self, Nat.sub_self]
  all_goals simp [RawA.imm12, RawA.fmt, vr_vf, opt_flag_num, fmt_ofCode_code, Option.bind_some]

/-- Its word reads back (R83). -/
theorem vabsFloat (f : Fmt) (d a : VReg) (x e : Option MReg) : Statement (.vabsFloat f d a x e) := by
  intro bm w h
  obtain rfl := Option.some.inj h
  refine Or.inr ⟨top_packA _ _ _, mark_packA _ _ _, (candidate_30 _ _).trans ?_⟩
  delta cand30
  refine Eq.trans (if_pos ?_) ?_
  all_goals try simp only [RawA.imm12, RawA.fmt, vr_vf, opt_flag_num, fmt_ofCode_code, Option.bind_some]
  all_goals try simp (disch := decide) only [BitVec.extractLsb'_append_eq_of_add_le, BitVec.extractLsb'_append_eq_of_le]
  all_goals try simp only [BitVec.extractLsb'_eq_self, Nat.sub_self]
  all_goals simp [RawA.imm12, RawA.fmt, vr_vf, opt_flag_num, fmt_ofCode_code, Option.bind_some]

/-- Its word reads back (R83). -/
theorem vneg (f : Fmt) (d a : VReg) (x e : Option MReg) : Statement (.vneg f d a x e) := by
  intro bm w h
  obtain rfl := Option.some.inj h
  refine Or.inr ⟨top_packA _ _ _, mark_packA _ _ _, (candidate_30 _ _).trans ?_⟩
  delta cand30
  refine Eq.trans (if_pos ?_) ?_
  all_goals try simp only [RawA.imm12, RawA.fmt, vr_vf, opt_flag_num, fmt_ofCode_code, Option.bind_some]
  all_goals try simp (disch := decide) only [BitVec.extractLsb'_append_eq_of_add_le, BitVec.extractLsb'_append_eq_of_le]
  all_goals try simp only [BitVec.extractLsb'_eq_self, Nat.sub_self]
  all_goals simp [RawA.imm12, RawA.fmt, vr_vf, opt_flag_num, fmt_ofCode_code, Option.bind_some]

/-- Its word reads back (R83). -/
theorem vrcp (f : Fmt) (d a : VReg) (x e : Option MReg) : Statement (.vrcp f d a x e) := by
  intro bm w h
  obtain rfl := Option.some.inj h
  refine Or.inr ⟨top_packA _ _ _, mark_packA _ _ _, (candidate_30 _ _).trans ?_⟩
  delta cand30
  refine Eq.trans (if_pos ?_) ?_
  all_goals try simp only [RawA.imm12, RawA.fmt, vr_vf, opt_flag_num, fmt_ofCode_code, Option.bind_some]
  all_goals try simp (disch := decide) only [BitVec.extractLsb'_append_eq_of_add_le, BitVec.extractLsb'_append_eq_of_le]
  all_goals try simp only [BitVec.extractLsb'_eq_self, Nat.sub_self]
  all_goals simp [RawA.imm12, RawA.fmt, vr_vf, opt_flag_num, fmt_ofCode_code, Option.bind_some]

/-- Its word reads back (R83). -/
theorem vrsqrt (f : Fmt) (d a : VReg) (x e : Option MReg) : Statement (.vrsqrt f d a x e) := by
  intro bm w h
  obtain rfl := Option.some.inj h
  refine Or.inr ⟨top_packA _ _ _, mark_packA _ _ _, (candidate_30 _ _).trans ?_⟩
  delta cand30
  refine Eq.trans (if_pos ?_) ?_
  all_goals try simp only [RawA.imm12, RawA.fmt, vr_vf, opt_flag_num, fmt_ofCode_code, Option.bind_some]
  all_goals try simp (disch := decide) only [BitVec.extractLsb'_append_eq_of_add_le, BitVec.extractLsb'_append_eq_of_le]
  all_goals try simp only [BitVec.extractLsb'_eq_self, Nat.sub_self]
  all_goals simp [RawA.imm12, RawA.fmt, vr_vf, opt_flag_num, fmt_ofCode_code, Option.bind_some]

/-- Its word reads back (R83). -/
theorem vexp2 (f : Fmt) (d a : VReg) (x e : Option MReg) : Statement (.vexp2 f d a x e) := by
  intro bm w h
  obtain rfl := Option.some.inj h
  refine Or.inr ⟨top_packA _ _ _, mark_packA _ _ _, (candidate_30 _ _).trans ?_⟩
  delta cand30
  refine Eq.trans (if_pos ?_) ?_
  all_goals try simp only [RawA.imm12, RawA.fmt, vr_vf, opt_flag_num, fmt_ofCode_code, Option.bind_some]
  all_goals try simp (disch := decide) only [BitVec.extractLsb'_append_eq_of_add_le, BitVec.extractLsb'_append_eq_of_le]
  all_goals try simp only [BitVec.extractLsb'_eq_self, Nat.sub_self]
  all_goals simp [RawA.imm12, RawA.fmt, vr_vf, opt_flag_num, fmt_ofCode_code, Option.bind_some]

/-- Its word reads back (R83). -/
theorem vlog2 (f : Fmt) (d a : VReg) (x e : Option MReg) : Statement (.vlog2 f d a x e) := by
  intro bm w h
  obtain rfl := Option.some.inj h
  refine Or.inr ⟨top_packA _ _ _, mark_packA _ _ _, (candidate_30 _ _).trans ?_⟩
  delta cand30
  refine Eq.trans (if_pos ?_) ?_
  all_goals try simp only [RawA.imm12, RawA.fmt, vr_vf, opt_flag_num, fmt_ofCode_code, Option.bind_some]
  all_goals try simp (disch := decide) only [BitVec.extractLsb'_append_eq_of_add_le, BitVec.extractLsb'_append_eq_of_le]
  all_goals try simp only [BitVec.extractLsb'_eq_self, Nat.sub_self]
  all_goals simp [RawA.imm12, RawA.fmt, vr_vf, opt_flag_num, fmt_ofCode_code, Option.bind_some]

/-- Its word reads back (R83). -/
theorem vcmpeqFloat (f : Fmt) (d : MReg) (a b : VReg) (x e : Option MReg) : Statement (.vcmpeqFloat f d a b x e) := by
  intro bm w h
  obtain rfl := Option.some.inj h
  refine Or.inr ⟨top_packA _ _ _, mark_packA _ _ _, (candidate_30 _ _).trans ?_⟩
  delta cand30
  refine Eq.trans (if_pos ?_) ?_
  all_goals try simp only [RawA.imm12, RawA.fmt, vr_vf, mr_mf, opt_flag_num, fmt_ofCode_code, Option.bind_some]
  all_goals try simp (disch := decide) only [BitVec.extractLsb'_append_eq_of_add_le, BitVec.extractLsb'_append_eq_of_le]
  all_goals try simp only [BitVec.extractLsb'_eq_self, Nat.sub_self]
  all_goals simp [RawA.imm12, RawA.fmt, vr_vf, mr_mf, opt_flag_num, fmt_ofCode_code, Option.bind_some]

/-- Its word reads back (R83). -/
theorem vcmpltFloat (f : Fmt) (d : MReg) (a b : VReg) (x e : Option MReg) : Statement (.vcmpltFloat f d a b x e) := by
  intro bm w h
  obtain rfl := Option.some.inj h
  refine Or.inr ⟨top_packA _ _ _, mark_packA _ _ _, (candidate_30 _ _).trans ?_⟩
  delta cand30
  refine Eq.trans (if_pos ?_) ?_
  all_goals try simp only [RawA.imm12, RawA.fmt, vr_vf, mr_mf, opt_flag_num, fmt_ofCode_code, Option.bind_some]
  all_goals try simp (disch := decide) only [BitVec.extractLsb'_append_eq_of_add_le, BitVec.extractLsb'_append_eq_of_le]
  all_goals try simp only [BitVec.extractLsb'_eq_self, Nat.sub_self]
  all_goals simp [RawA.imm12, RawA.fmt, vr_vf, mr_mf, opt_flag_num, fmt_ofCode_code, Option.bind_some]

/-- Its word reads back (R83). -/
theorem vcmple (f : Fmt) (d : MReg) (a b : VReg) (x e : Option MReg) : Statement (.vcmple f d a b x e) := by
  intro bm w h
  obtain rfl := Option.some.inj h
  refine Or.inr ⟨top_packA _ _ _, mark_packA _ _ _, (candidate_30 _ _).trans ?_⟩
  delta cand30
  refine Eq.trans (if_pos ?_) ?_
  all_goals try simp only [RawA.imm12, RawA.fmt, vr_vf, mr_mf, opt_flag_num, fmt_ofCode_code, Option.bind_some]
  all_goals try simp (disch := decide) only [BitVec.extractLsb'_append_eq_of_add_le, BitVec.extractLsb'_append_eq_of_le]
  all_goals try simp only [BitVec.extractLsb'_eq_self, Nat.sub_self]
  all_goals simp [RawA.imm12, RawA.fmt, vr_vf, mr_mf, opt_flag_num, fmt_ofCode_code, Option.bind_some]

/-- Its word reads back (R83). -/
theorem vcmpun (f : Fmt) (d : MReg) (a b : VReg) (x e : Option MReg) : Statement (.vcmpun f d a b x e) := by
  intro bm w h
  obtain rfl := Option.some.inj h
  refine Or.inr ⟨top_packA _ _ _, mark_packA _ _ _, (candidate_30 _ _).trans ?_⟩
  delta cand30
  refine Eq.trans (if_pos ?_) ?_
  all_goals try simp only [RawA.imm12, RawA.fmt, vr_vf, mr_mf, opt_flag_num, fmt_ofCode_code, Option.bind_some]
  all_goals try simp (disch := decide) only [BitVec.extractLsb'_append_eq_of_add_le, BitVec.extractLsb'_append_eq_of_le]
  all_goals try simp only [BitVec.extractLsb'_eq_self, Nat.sub_self]
  all_goals simp [RawA.imm12, RawA.fmt, vr_vf, mr_mf, opt_flag_num, fmt_ofCode_code, Option.bind_some]

/-- Its word reads back (R83). -/
theorem vaddInt (f : Fmt) (d a b : VReg) (x e : Option MReg) : Statement (.vaddInt f d a b x e) := by
  intro bm w h
  obtain rfl := Option.some.inj h
  refine Or.inr ⟨top_packA _ _ _, mark_packA _ _ _, (candidate_31 _ _).trans ?_⟩
  delta cand31
  refine Eq.trans (if_pos ?_) ?_
  all_goals try simp only [RawA.imm12, RawA.fmt, vr_vf, opt_flag_num, fmt_ofCode_code, Option.bind_some]
  all_goals try simp (disch := decide) only [BitVec.extractLsb'_append_eq_of_add_le, BitVec.extractLsb'_append_eq_of_le]
  all_goals try simp only [BitVec.extractLsb'_eq_self, Nat.sub_self]
  all_goals simp [RawA.imm12, RawA.fmt, vr_vf, opt_flag_num, fmt_ofCode_code, Option.bind_some]

/-- Its word reads back (R83). -/
theorem vsubInt (f : Fmt) (d a b : VReg) (x e : Option MReg) : Statement (.vsubInt f d a b x e) := by
  intro bm w h
  obtain rfl := Option.some.inj h
  refine Or.inr ⟨top_packA _ _ _, mark_packA _ _ _, (candidate_31 _ _).trans ?_⟩
  delta cand31
  refine Eq.trans (if_pos ?_) ?_
  all_goals try simp only [RawA.imm12, RawA.fmt, vr_vf, opt_flag_num, fmt_ofCode_code, Option.bind_some]
  all_goals try simp (disch := decide) only [BitVec.extractLsb'_append_eq_of_add_le, BitVec.extractLsb'_append_eq_of_le]
  all_goals try simp only [BitVec.extractLsb'_eq_self, Nat.sub_self]
  all_goals simp [RawA.imm12, RawA.fmt, vr_vf, opt_flag_num, fmt_ofCode_code, Option.bind_some]

/-- Its word reads back (R83). -/
theorem vmulInt (f : Fmt) (d a b : VReg) (x e : Option MReg) : Statement (.vmulInt f d a b x e) := by
  intro bm w h
  obtain rfl := Option.some.inj h
  refine Or.inr ⟨top_packA _ _ _, mark_packA _ _ _, (candidate_31 _ _).trans ?_⟩
  delta cand31
  refine Eq.trans (if_pos ?_) ?_
  all_goals try simp only [RawA.imm12, RawA.fmt, vr_vf, opt_flag_num, fmt_ofCode_code, Option.bind_some]
  all_goals try simp (disch := decide) only [BitVec.extractLsb'_append_eq_of_add_le, BitVec.extractLsb'_append_eq_of_le]
  all_goals try simp only [BitVec.extractLsb'_eq_self, Nat.sub_self]
  all_goals simp [RawA.imm12, RawA.fmt, vr_vf, opt_flag_num, fmt_ofCode_code, Option.bind_some]

/-- Its word reads back (R83). -/
theorem vmulh (f : Fmt) (d a b : VReg) (x e : Option MReg) : Statement (.vmulh f d a b x e) := by
  intro bm w h
  obtain rfl := Option.some.inj h
  refine Or.inr ⟨top_packA _ _ _, mark_packA _ _ _, (candidate_31 _ _).trans ?_⟩
  delta cand31
  refine Eq.trans (if_pos ?_) ?_
  all_goals try simp only [RawA.imm12, RawA.fmt, vr_vf, opt_flag_num, fmt_ofCode_code, Option.bind_some]
  all_goals try simp (disch := decide) only [BitVec.extractLsb'_append_eq_of_add_le, BitVec.extractLsb'_append_eq_of_le]
  all_goals try simp only [BitVec.extractLsb'_eq_self, Nat.sub_self]
  all_goals simp [RawA.imm12, RawA.fmt, vr_vf, opt_flag_num, fmt_ofCode_code, Option.bind_some]

/-- Its word reads back (R83). -/
theorem vadds (f : Fmt) (d a b : VReg) (x e : Option MReg) : Statement (.vadds f d a b x e) := by
  intro bm w h
  obtain rfl := Option.some.inj h
  refine Or.inr ⟨top_packA _ _ _, mark_packA _ _ _, (candidate_31 _ _).trans ?_⟩
  delta cand31
  refine Eq.trans (if_pos ?_) ?_
  all_goals try simp only [RawA.imm12, RawA.fmt, vr_vf, opt_flag_num, fmt_ofCode_code, Option.bind_some]
  all_goals try simp (disch := decide) only [BitVec.extractLsb'_append_eq_of_add_le, BitVec.extractLsb'_append_eq_of_le]
  all_goals try simp only [BitVec.extractLsb'_eq_self, Nat.sub_self]
  all_goals simp [RawA.imm12, RawA.fmt, vr_vf, opt_flag_num, fmt_ofCode_code, Option.bind_some]

/-- Its word reads back (R83). -/
theorem vsubs (f : Fmt) (d a b : VReg) (x e : Option MReg) : Statement (.vsubs f d a b x e) := by
  intro bm w h
  obtain rfl := Option.some.inj h
  refine Or.inr ⟨top_packA _ _ _, mark_packA _ _ _, (candidate_31 _ _).trans ?_⟩
  delta cand31
  refine Eq.trans (if_pos ?_) ?_
  all_goals try simp only [RawA.imm12, RawA.fmt, vr_vf, opt_flag_num, fmt_ofCode_code, Option.bind_some]
  all_goals try simp (disch := decide) only [BitVec.extractLsb'_append_eq_of_add_le, BitVec.extractLsb'_append_eq_of_le]
  all_goals try simp only [BitVec.extractLsb'_eq_self, Nat.sub_self]
  all_goals simp [RawA.imm12, RawA.fmt, vr_vf, opt_flag_num, fmt_ofCode_code, Option.bind_some]

/-- Its word reads back (R83). -/
theorem vand (f : Fmt) (d a b : VReg) (x e : Option MReg) : Statement (.vand f d a b x e) := by
  intro bm w h
  obtain rfl := Option.some.inj h
  refine Or.inr ⟨top_packA _ _ _, mark_packA _ _ _, (candidate_31 _ _).trans ?_⟩
  delta cand31
  refine Eq.trans (if_pos ?_) ?_
  all_goals try simp only [RawA.imm12, RawA.fmt, vr_vf, opt_flag_num, fmt_ofCode_code, Option.bind_some]
  all_goals try simp (disch := decide) only [BitVec.extractLsb'_append_eq_of_add_le, BitVec.extractLsb'_append_eq_of_le]
  all_goals try simp only [BitVec.extractLsb'_eq_self, Nat.sub_self]
  all_goals simp [RawA.imm12, RawA.fmt, vr_vf, opt_flag_num, fmt_ofCode_code, Option.bind_some]

/-- Its word reads back (R83). -/
theorem vor (f : Fmt) (d a b : VReg) (x e : Option MReg) : Statement (.vor f d a b x e) := by
  intro bm w h
  obtain rfl := Option.some.inj h
  refine Or.inr ⟨top_packA _ _ _, mark_packA _ _ _, (candidate_31 _ _).trans ?_⟩
  delta cand31
  refine Eq.trans (if_pos ?_) ?_
  all_goals try simp only [RawA.imm12, RawA.fmt, vr_vf, opt_flag_num, fmt_ofCode_code, Option.bind_some]
  all_goals try simp (disch := decide) only [BitVec.extractLsb'_append_eq_of_add_le, BitVec.extractLsb'_append_eq_of_le]
  all_goals try simp only [BitVec.extractLsb'_eq_self, Nat.sub_self]
  all_goals simp [RawA.imm12, RawA.fmt, vr_vf, opt_flag_num, fmt_ofCode_code, Option.bind_some]

/-- Its word reads back (R83). -/
theorem vxor (f : Fmt) (d a b : VReg) (x e : Option MReg) : Statement (.vxor f d a b x e) := by
  intro bm w h
  obtain rfl := Option.some.inj h
  refine Or.inr ⟨top_packA _ _ _, mark_packA _ _ _, (candidate_31 _ _).trans ?_⟩
  delta cand31
  refine Eq.trans (if_pos ?_) ?_
  all_goals try simp only [RawA.imm12, RawA.fmt, vr_vf, opt_flag_num, fmt_ofCode_code, Option.bind_some]
  all_goals try simp (disch := decide) only [BitVec.extractLsb'_append_eq_of_add_le, BitVec.extractLsb'_append_eq_of_le]
  all_goals try simp only [BitVec.extractLsb'_eq_self, Nat.sub_self]
  all_goals simp [RawA.imm12, RawA.fmt, vr_vf, opt_flag_num, fmt_ofCode_code, Option.bind_some]

/-- Its word reads back (R83). -/
theorem vsll (f : Fmt) (d a b : VReg) (x e : Option MReg) : Statement (.vsll f d a b x e) := by
  intro bm w h
  obtain rfl := Option.some.inj h
  refine Or.inr ⟨top_packA _ _ _, mark_packA _ _ _, (candidate_31 _ _).trans ?_⟩
  delta cand31
  refine Eq.trans (if_pos ?_) ?_
  all_goals try simp only [RawA.imm12, RawA.fmt, vr_vf, opt_flag_num, fmt_ofCode_code, Option.bind_some]
  all_goals try simp (disch := decide) only [BitVec.extractLsb'_append_eq_of_add_le, BitVec.extractLsb'_append_eq_of_le]
  all_goals try simp only [BitVec.extractLsb'_eq_self, Nat.sub_self]
  all_goals simp [RawA.imm12, RawA.fmt, vr_vf, opt_flag_num, fmt_ofCode_code, Option.bind_some]

/-- Its word reads back (R83). -/
theorem vsrl (f : Fmt) (d a b : VReg) (x e : Option MReg) : Statement (.vsrl f d a b x e) := by
  intro bm w h
  obtain rfl := Option.some.inj h
  refine Or.inr ⟨top_packA _ _ _, mark_packA _ _ _, (candidate_31 _ _).trans ?_⟩
  delta cand31
  refine Eq.trans (if_pos ?_) ?_
  all_goals try simp only [RawA.imm12, RawA.fmt, vr_vf, opt_flag_num, fmt_ofCode_code, Option.bind_some]
  all_goals try simp (disch := decide) only [BitVec.extractLsb'_append_eq_of_add_le, BitVec.extractLsb'_append_eq_of_le]
  all_goals try simp only [BitVec.extractLsb'_eq_self, Nat.sub_self]
  all_goals simp [RawA.imm12, RawA.fmt, vr_vf, opt_flag_num, fmt_ofCode_code, Option.bind_some]

/-- Its word reads back (R83). -/
theorem vsra (f : Fmt) (d a b : VReg) (x e : Option MReg) : Statement (.vsra f d a b x e) := by
  intro bm w h
  obtain rfl := Option.some.inj h
  refine Or.inr ⟨top_packA _ _ _, mark_packA _ _ _, (candidate_31 _ _).trans ?_⟩
  delta cand31
  refine Eq.trans (if_pos ?_) ?_
  all_goals try simp only [RawA.imm12, RawA.fmt, vr_vf, opt_flag_num, fmt_ofCode_code, Option.bind_some]
  all_goals try simp (disch := decide) only [BitVec.extractLsb'_append_eq_of_add_le, BitVec.extractLsb'_append_eq_of_le]
  all_goals try simp only [BitVec.extractLsb'_eq_self, Nat.sub_self]
  all_goals simp [RawA.imm12, RawA.fmt, vr_vf, opt_flag_num, fmt_ofCode_code, Option.bind_some]

/-- Its word reads back (R83). -/
theorem vminInt (f : Fmt) (d a b : VReg) (x e : Option MReg) : Statement (.vminInt f d a b x e) := by
  intro bm w h
  obtain rfl := Option.some.inj h
  refine Or.inr ⟨top_packA _ _ _, mark_packA _ _ _, (candidate_31 _ _).trans ?_⟩
  delta cand31
  refine Eq.trans (if_pos ?_) ?_
  all_goals try simp only [RawA.imm12, RawA.fmt, vr_vf, opt_flag_num, fmt_ofCode_code, Option.bind_some]
  all_goals try simp (disch := decide) only [BitVec.extractLsb'_append_eq_of_add_le, BitVec.extractLsb'_append_eq_of_le]
  all_goals try simp only [BitVec.extractLsb'_eq_self, Nat.sub_self]
  all_goals simp [RawA.imm12, RawA.fmt, vr_vf, opt_flag_num, fmt_ofCode_code, Option.bind_some]

/-- Its word reads back (R83). -/
theorem vmaxInt (f : Fmt) (d a b : VReg) (x e : Option MReg) : Statement (.vmaxInt f d a b x e) := by
  intro bm w h
  obtain rfl := Option.some.inj h
  refine Or.inr ⟨top_packA _ _ _, mark_packA _ _ _, (candidate_31 _ _).trans ?_⟩
  delta cand31
  refine Eq.trans (if_pos ?_) ?_
  all_goals try simp only [RawA.imm12, RawA.fmt, vr_vf, opt_flag_num, fmt_ofCode_code, Option.bind_some]
  all_goals try simp (disch := decide) only [BitVec.extractLsb'_append_eq_of_add_le, BitVec.extractLsb'_append_eq_of_le]
  all_goals try simp only [BitVec.extractLsb'_eq_self, Nat.sub_self]
  all_goals simp [RawA.imm12, RawA.fmt, vr_vf, opt_flag_num, fmt_ofCode_code, Option.bind_some]

/-- Its word reads back (R83). -/
theorem vcmpeqInt (f : Fmt) (d : MReg) (a b : VReg) (x e : Option MReg) : Statement (.vcmpeqInt f d a b x e) := by
  intro bm w h
  obtain rfl := Option.some.inj h
  refine Or.inr ⟨top_packA _ _ _, mark_packA _ _ _, (candidate_31 _ _).trans ?_⟩
  delta cand31
  refine Eq.trans (if_pos ?_) ?_
  all_goals try simp only [RawA.imm12, RawA.fmt, vr_vf, mr_mf, opt_flag_num, fmt_ofCode_code, Option.bind_some]
  all_goals try simp (disch := decide) only [BitVec.extractLsb'_append_eq_of_add_le, BitVec.extractLsb'_append_eq_of_le]
  all_goals try simp only [BitVec.extractLsb'_eq_self, Nat.sub_self]
  all_goals simp [RawA.imm12, RawA.fmt, vr_vf, mr_mf, opt_flag_num, fmt_ofCode_code, Option.bind_some]

/-- Its word reads back (R83). -/
theorem vcmpltInt (f : Fmt) (d : MReg) (a b : VReg) (x e : Option MReg) : Statement (.vcmpltInt f d a b x e) := by
  intro bm w h
  obtain rfl := Option.some.inj h
  refine Or.inr ⟨top_packA _ _ _, mark_packA _ _ _, (candidate_31 _ _).trans ?_⟩
  delta cand31
  refine Eq.trans (if_pos ?_) ?_
  all_goals try simp only [RawA.imm12, RawA.fmt, vr_vf, mr_mf, opt_flag_num, fmt_ofCode_code, Option.bind_some]
  all_goals try simp (disch := decide) only [BitVec.extractLsb'_append_eq_of_add_le, BitVec.extractLsb'_append_eq_of_le]
  all_goals try simp only [BitVec.extractLsb'_eq_self, Nat.sub_self]
  all_goals simp [RawA.imm12, RawA.fmt, vr_vf, mr_mf, opt_flag_num, fmt_ofCode_code, Option.bind_some]

/-- Its word reads back (R83). -/
theorem vcmpltn (f : Fmt) (d : MReg) (a b : VReg) (x e : Option MReg) : Statement (.vcmpltn f d a b x e) := by
  intro bm w h
  obtain rfl := Option.some.inj h
  refine Or.inr ⟨top_packA _ _ _, mark_packA _ _ _, (candidate_31 _ _).trans ?_⟩
  delta cand31
  refine Eq.trans (if_pos ?_) ?_
  all_goals try simp only [RawA.imm12, RawA.fmt, vr_vf, mr_mf, opt_flag_num, fmt_ofCode_code, Option.bind_some]
  all_goals try simp (disch := decide) only [BitVec.extractLsb'_append_eq_of_add_le, BitVec.extractLsb'_append_eq_of_le]
  all_goals try simp only [BitVec.extractLsb'_eq_self, Nat.sub_self]
  all_goals simp [RawA.imm12, RawA.fmt, vr_vf, mr_mf, opt_flag_num, fmt_ofCode_code, Option.bind_some]

/-- Its word reads back (R83). -/
theorem vabsInt (f : Fmt) (d a : VReg) (x e : Option MReg) : Statement (.vabsInt f d a x e) := by
  intro bm w h
  obtain rfl := Option.some.inj h
  refine Or.inr ⟨top_packA _ _ _, mark_packA _ _ _, (candidate_31 _ _).trans ?_⟩
  delta cand31
  refine Eq.trans (if_pos ?_) ?_
  all_goals try simp only [RawA.imm12, RawA.fmt, vr_vf, opt_flag_num, fmt_ofCode_code, Option.bind_some]
  all_goals try simp (disch := decide) only [BitVec.extractLsb'_append_eq_of_add_le, BitVec.extractLsb'_append_eq_of_le]
  all_goals try simp only [BitVec.extractLsb'_eq_self, Nat.sub_self]
  all_goals simp [RawA.imm12, RawA.fmt, vr_vf, opt_flag_num, fmt_ofCode_code, Option.bind_some]

/-- Its word reads back (R83). -/
theorem vcvt (f : Fmt) (d a : VReg) (src : Fmt) (x e : Option MReg) : Statement (.vcvt f d a src x e) := by
  intro bm w h
  obtain rfl := Option.some.inj h
  refine Or.inr ⟨top_packA _ _ _, mark_packA _ _ _, (candidate_32 _ _).trans ?_⟩
  delta cand32
  refine Eq.trans (if_pos ?_) ?_
  all_goals try simp only [RawA.imm12, RawA.fmt, vr_vf, opt_flag_num, fmt_ofCode_code, Option.bind_some]
  all_goals try simp (disch := decide) only [BitVec.extractLsb'_append_eq_of_add_le, BitVec.extractLsb'_append_eq_of_le]
  all_goals try simp only [BitVec.extractLsb'_eq_self, Nat.sub_self]
  all_goals try simp (disch := decide) only [BitVec.extractLsb'_append_eq_of_add_le, BitVec.extractLsb'_append_eq_of_le]
  all_goals simp [RawA.imm12, RawA.fmt, vr_vf, opt_flag_num, fmt_ofCode_code, Option.bind_some]

/-- Its word reads back (R83). -/
theorem vq (d a : VReg) (x e : Option MReg) : Statement (.vq d a x e) := by
  intro bm w h
  obtain rfl := Option.some.inj h
  refine Or.inr ⟨top_packA _ _ _, mark_packA _ _ _, (candidate_32 _ _).trans ?_⟩
  delta cand32
  refine Eq.trans (if_pos ?_) ?_
  all_goals try simp only [RawA.imm12, RawA.fmt, vr_vf, opt_flag_num, Option.bind_some]
  all_goals try simp (disch := decide) only [BitVec.extractLsb'_append_eq_of_add_le, BitVec.extractLsb'_append_eq_of_le]
  all_goals try simp only [BitVec.extractLsb'_eq_self, Nat.sub_self]
  all_goals simp [RawA.imm12, RawA.fmt, vr_vf, opt_flag_num, Option.bind_some]

/-- Its word reads back (R83). -/
theorem vdq (f : Fmt) (d a : VReg) (x e : Option MReg) : Statement (.vdq f d a x e) := by
  intro bm w h
  obtain rfl := Option.some.inj h
  refine Or.inr ⟨top_packA _ _ _, mark_packA _ _ _, (candidate_32 _ _).trans ?_⟩
  delta cand32
  refine Eq.trans (if_pos ?_) ?_
  all_goals try simp only [RawA.imm12, RawA.fmt, vr_vf, opt_flag_num, fmt_ofCode_code, Option.bind_some]
  all_goals try simp (disch := decide) only [BitVec.extractLsb'_append_eq_of_add_le, BitVec.extractLsb'_append_eq_of_le]
  all_goals try simp only [BitVec.extractLsb'_eq_self, Nat.sub_self]
  all_goals simp [RawA.imm12, RawA.fmt, vr_vf, opt_flag_num, fmt_ofCode_code, Option.bind_some]

/-- Its word reads back (R83). -/
theorem vscl (d a : VReg) : Statement (.vscl d a) := by
  intro bm w h
  obtain rfl := Option.some.inj h
  refine Or.inr ⟨top_packA _ _ _, mark_packA _ _ _, (candidate_32 _ _).trans ?_⟩
  delta cand32
  refine Eq.trans (if_pos ?_) ?_
  all_goals try simp only [RawA.imm12, RawA.fmt, vr_vf, Option.bind_some]
  all_goals try simp (disch := decide) only [BitVec.extractLsb'_append_eq_of_add_le, BitVec.extractLsb'_append_eq_of_le]
  all_goals try simp only [BitVec.extractLsb'_eq_self, Nat.sub_self]
  all_goals simp [RawA.imm12, RawA.fmt, vr_vf, Option.bind_some]

/-- Its word reads back (R83). -/
theorem vscw (d a : VReg) : Statement (.vscw d a) := by
  intro bm w h
  obtain rfl := Option.some.inj h
  refine Or.inr ⟨top_packA _ _ _, mark_packA _ _ _, (candidate_32 _ _).trans ?_⟩
  delta cand32
  refine Eq.trans (if_pos ?_) ?_
  all_goals try simp only [RawA.imm12, RawA.fmt, vr_vf, Option.bind_some]
  all_goals try simp (disch := decide) only [BitVec.extractLsb'_append_eq_of_add_le, BitVec.extractLsb'_append_eq_of_le]
  all_goals try simp only [BitVec.extractLsb'_eq_self, Nat.sub_self]
  all_goals simp [RawA.imm12, RawA.fmt, vr_vf, Option.bind_some]

/-- Its word reads back (R83). -/
theorem vmv (d a : VReg) (e : Option MReg) : Statement (.vmv d a e) := by
  intro bm w h
  obtain rfl := Option.some.inj h
  refine Or.inr ⟨top_packA _ _ _, mark_packA _ _ _, (candidate_33 _ _).trans ?_⟩
  delta cand33
  refine Eq.trans (if_pos ?_) ?_
  all_goals try simp only [RawA.imm12, RawA.fmt, vr_vf, opt_flag_num, Option.bind_some]
  all_goals simp [RawA.imm12, RawA.fmt, vr_vf, opt_flag_num, Option.bind_some]

/-- Its word reads back (R83). -/
theorem vbc (f : Fmt) (d : VReg) (b : GReg) (e : Option MReg) : Statement (.vbc f d b e) := by
  intro bm w h
  obtain rfl := Option.some.inj h
  refine Or.inr ⟨top_packA _ _ _, mark_packA _ _ _, (candidate_33 _ _).trans ?_⟩
  delta cand33
  refine Eq.trans (if_pos ?_) ?_
  all_goals try simp only [RawA.imm12, RawA.fmt, vr_vf, opt_flag_num, fmt_ofCode_code, Option.bind_some]
  all_goals try simp (disch := decide) only [BitVec.extractLsb'_append_eq_of_add_le, BitVec.extractLsb'_append_eq_of_le]
  all_goals try simp only [BitVec.extractLsb'_eq_self, Nat.sub_self]
  all_goals simp [RawA.imm12, RawA.fmt, vr_vf, opt_flag_num, fmt_ofCode_code, Option.bind_some]

/-- Its word reads back (R83). -/
theorem vid (f : Fmt) (d : VReg) (b : GReg) (e : Option MReg) : Statement (.vid f d b e) := by
  intro bm w h
  obtain rfl := Option.some.inj h
  refine Or.inr ⟨top_packA _ _ _, mark_packA _ _ _, (candidate_33 _ _).trans ?_⟩
  delta cand33
  refine Eq.trans (if_pos ?_) ?_
  all_goals try simp only [RawA.imm12, RawA.fmt, vr_vf, opt_flag_num, fmt_ofCode_code, Option.bind_some]
  all_goals try simp (disch := decide) only [BitVec.extractLsb'_append_eq_of_add_le, BitVec.extractLsb'_append_eq_of_le]
  all_goals try simp only [BitVec.extractLsb'_eq_self, Nat.sub_self]
  all_goals simp [RawA.imm12, RawA.fmt, vr_vf, opt_flag_num, fmt_ofCode_code, Option.bind_some]

/-- Its word reads back (R83). -/
theorem vsel (d a b : VReg) (c : MReg) (e : Option MReg) : Statement (.vsel d a b c e) := by
  intro bm w h
  obtain rfl := Option.some.inj h
  refine Or.inr ⟨top_packA _ _ _, mark_packA _ _ _, (candidate_33 _ _).trans ?_⟩
  delta cand33
  refine Eq.trans (if_pos ?_) ?_
  all_goals try simp only [RawA.imm12, RawA.fmt, vr_vf, mr_mf, opt_flag_num, Option.bind_some]
  all_goals simp [RawA.imm12, RawA.fmt, vr_vf, mr_mf, opt_flag_num, Option.bind_some]

/-- Its word reads back (R83). -/
theorem vslu (d a : VReg) (b : GReg) (e : Option MReg) : Statement (.vslu d a b e) := by
  intro bm w h
  obtain rfl := Option.some.inj h
  refine Or.inr ⟨top_packA _ _ _, mark_packA _ _ _, (candidate_33 _ _).trans ?_⟩
  delta cand33
  refine Eq.trans (if_pos ?_) ?_
  all_goals try simp only [RawA.imm12, RawA.fmt, vr_vf, opt_flag_num, Option.bind_some]
  all_goals simp [RawA.imm12, RawA.fmt, vr_vf, opt_flag_num, Option.bind_some]

/-- Its word reads back (R83). -/
theorem vsld (d a : VReg) (b : GReg) (e : Option MReg) : Statement (.vsld d a b e) := by
  intro bm w h
  obtain rfl := Option.some.inj h
  refine Or.inr ⟨top_packA _ _ _, mark_packA _ _ _, (candidate_33 _ _).trans ?_⟩
  delta cand33
  refine Eq.trans (if_pos ?_) ?_
  all_goals try simp only [RawA.imm12, RawA.fmt, vr_vf, opt_flag_num, Option.bind_some]
  all_goals simp [RawA.imm12, RawA.fmt, vr_vf, opt_flag_num, Option.bind_some]

/-- Its word reads back (R83). -/
theorem vperm (d a b : VReg) (e : Option MReg) : Statement (.vperm d a b e) := by
  intro bm w h
  obtain rfl := Option.some.inj h
  refine Or.inr ⟨top_packA _ _ _, mark_packA _ _ _, (candidate_33 _ _).trans ?_⟩
  delta cand33
  refine Eq.trans (if_pos ?_) ?_
  all_goals try simp only [RawA.imm12, RawA.fmt, vr_vf, opt_flag_num, Option.bind_some]
  all_goals simp [RawA.imm12, RawA.fmt, vr_vf, opt_flag_num, Option.bind_some]

/-- Its word reads back (R83). -/
theorem vrow (d a : VReg) (k : BitVec 3) (e : Option MReg) : Statement (.vrow d a k e) := by
  intro bm w h
  obtain rfl := Option.some.inj h
  refine Or.inr ⟨top_packA _ _ _, mark_packA _ _ _, (candidate_33 _ _).trans ?_⟩
  delta cand33
  refine Eq.trans (if_pos ?_) ?_
  all_goals try simp only [RawA.imm12, RawA.fmt, vr_vf, opt_flag_num, Option.bind_some]
  all_goals try simp (disch := decide) only [BitVec.extractLsb'_append_eq_of_add_le, BitVec.extractLsb'_append_eq_of_le]
  all_goals try simp only [BitVec.extractLsb'_eq_self, Nat.sub_self]
  all_goals try simp (disch := decide) only [BitVec.extractLsb'_append_eq_of_add_le, BitVec.extractLsb'_append_eq_of_le]
  all_goals simp [RawA.imm12, RawA.fmt, vr_vf, opt_flag_num, Option.bind_some]

/-- Its word reads back (R83). -/
theorem vxs (f : Fmt) (d : GReg) (a : VReg) (b : GReg) : Statement (.vxs f d a b) := by
  intro bm w h
  obtain rfl := Option.some.inj h
  refine Or.inr ⟨top_packA _ _ _, mark_packA _ _ _, (candidate_33 _ _).trans ?_⟩
  delta cand33
  refine Eq.trans (if_pos ?_) ?_
  all_goals try simp only [RawA.imm12, RawA.fmt, vr_vf, fmt_ofCode_code, Option.bind_some]
  all_goals try simp (disch := decide) only [BitVec.extractLsb'_append_eq_of_add_le, BitVec.extractLsb'_append_eq_of_le]
  all_goals try simp only [BitVec.extractLsb'_eq_self, Nat.sub_self]
  all_goals simp [RawA.imm12, RawA.fmt, vr_vf, fmt_ofCode_code, Option.bind_some]

/-- Its word reads back (R83). -/
theorem vins (f : Fmt) (d : VReg) (a b : GReg) : Statement (.vins f d a b) := by
  intro bm w h
  obtain rfl := Option.some.inj h
  refine Or.inr ⟨top_packA _ _ _, mark_packA _ _ _, (candidate_33 _ _).trans ?_⟩
  delta cand33
  refine Eq.trans (if_pos ?_) ?_
  all_goals try simp only [RawA.imm12, RawA.fmt, vr_vf, fmt_ofCode_code, Option.bind_some]
  all_goals try simp (disch := decide) only [BitVec.extractLsb'_append_eq_of_add_le, BitVec.extractLsb'_append_eq_of_le]
  all_goals try simp only [BitVec.extractLsb'_eq_self, Nat.sub_self]
  all_goals simp [RawA.imm12, RawA.fmt, vr_vf, fmt_ofCode_code, Option.bind_some]

/-- Its word reads back (R83). -/
theorem vamv (d : AReg) (a : VReg) (b : GReg) (e : Option MReg) : Statement (.vamv d a b e) := by
  intro bm w h
  obtain rfl := Option.some.inj h
  refine Or.inr ⟨top_packA _ _ _, mark_packA _ _ _, (candidate_33 _ _).trans ?_⟩
  delta cand33
  refine Eq.trans (if_pos ?_) ?_
  all_goals try simp only [RawA.imm12, RawA.fmt, vr_vf, mr_mf, opt_flag_num, Option.bind_some]
  all_goals simp [RawA.imm12, RawA.fmt, vr_vf, mr_mf, opt_flag_num, Option.bind_some]

/-- Its word reads back (R83). -/
theorem vmva (d : VReg) (a : AReg) (b : GReg) (e : Option MReg) : Statement (.vmva d a b e) := by
  intro bm w h
  obtain rfl := Option.some.inj h
  refine Or.inr ⟨top_packA _ _ _, mark_packA _ _ _, (candidate_33 _ _).trans ?_⟩
  delta cand33
  refine Eq.trans (if_pos ?_) ?_
  all_goals try simp only [RawA.imm12, RawA.fmt, vr_vf, mr_mf, opt_flag_num, Option.bind_some]
  all_goals simp [RawA.imm12, RawA.fmt, vr_vf, mr_mf, opt_flag_num, Option.bind_some]

/-- Its word reads back (R83). -/
theorem vredAdd (f : Fmt) (d : GReg) (a : RSrc) (e : Option MReg) : Statement (.vredAdd f d a e) := by
  intro bm w h
  obtain rfl := Option.some.inj h
  refine Or.inr ⟨top_packA _ _ _, mark_packA _ _ _, (candidate_34 _ _).trans ?_⟩
  delta cand34
  refine Eq.trans (if_pos ?_) ?_
  all_goals try simp only [opt_flag_num, fmt_ofCode_code, rsrc_ofField_field, Option.bind_some]
  all_goals try simp (disch := decide) only [BitVec.extractLsb'_append_eq_of_add_le, BitVec.extractLsb'_append_eq_of_le]
  all_goals try simp only [BitVec.extractLsb'_eq_self, Nat.sub_self]
  all_goals simp [opt_flag_num, fmt_ofCode_code, rsrc_ofField_field, Option.bind_some]

/-- Its word reads back (R83). -/
theorem vredMax (f : Fmt) (d : GReg) (a : RSrc) (e : Option MReg) : Statement (.vredMax f d a e) := by
  intro bm w h
  obtain rfl := Option.some.inj h
  refine Or.inr ⟨top_packA _ _ _, mark_packA _ _ _, (candidate_34 _ _).trans ?_⟩
  delta cand34
  refine Eq.trans (if_pos ?_) ?_
  all_goals try simp only [opt_flag_num, fmt_ofCode_code, rsrc_ofField_field, Option.bind_some]
  all_goals try simp (disch := decide) only [BitVec.extractLsb'_append_eq_of_add_le, BitVec.extractLsb'_append_eq_of_le]
  all_goals try simp only [BitVec.extractLsb'_eq_self, Nat.sub_self]
  all_goals simp [opt_flag_num, fmt_ofCode_code, rsrc_ofField_field, Option.bind_some]

/-- Its word reads back (R83). -/
theorem vredMin (f : Fmt) (d : GReg) (a : RSrc) (e : Option MReg) : Statement (.vredMin f d a e) := by
  intro bm w h
  obtain rfl := Option.some.inj h
  refine Or.inr ⟨top_packA _ _ _, mark_packA _ _ _, (candidate_34 _ _).trans ?_⟩
  delta cand34
  refine Eq.trans (if_pos ?_) ?_
  all_goals try simp only [opt_flag_num, fmt_ofCode_code, rsrc_ofField_field, Option.bind_some]
  all_goals try simp (disch := decide) only [BitVec.extractLsb'_append_eq_of_add_le, BitVec.extractLsb'_append_eq_of_le]
  all_goals try simp only [BitVec.extractLsb'_eq_self, Nat.sub_self]
  all_goals simp [opt_flag_num, fmt_ofCode_code, rsrc_ofField_field, Option.bind_some]

/-- Its word reads back (R83). -/
theorem vcadd (f : Fmt) (d : AReg) (a : VReg) (b : GReg) (e : Option MReg) : Statement (.vcadd f d a b e) := by
  intro bm w h
  obtain rfl := Option.some.inj h
  refine Or.inr ⟨top_packA _ _ _, mark_packA _ _ _, (candidate_34 _ _).trans ?_⟩
  delta cand34
  refine Eq.trans (if_pos ?_) ?_
  all_goals try simp only [RawA.imm12, RawA.fmt, vr_vf, mr_mf, opt_flag_num, fmt_ofCode_code, Option.bind_some]
  all_goals try simp (disch := decide) only [BitVec.extractLsb'_append_eq_of_add_le, BitVec.extractLsb'_append_eq_of_le]
  all_goals try simp only [BitVec.extractLsb'_eq_self, Nat.sub_self]
  all_goals simp [RawA.imm12, RawA.fmt, vr_vf, mr_mf, opt_flag_num, fmt_ofCode_code, Option.bind_some]

/-- Its word reads back (R83). -/
theorem vcmax (f : Fmt) (d : AReg) (a : VReg) (b : GReg) (e : Option MReg) : Statement (.vcmax f d a b e) := by
  intro bm w h
  obtain rfl := Option.some.inj h
  refine Or.inr ⟨top_packA _ _ _, mark_packA _ _ _, (candidate_34 _ _).trans ?_⟩
  delta cand34
  refine Eq.trans (if_pos ?_) ?_
  all_goals try simp only [RawA.imm12, RawA.fmt, vr_vf, mr_mf, opt_flag_num, fmt_ofCode_code, Option.bind_some]
  all_goals try simp (disch := decide) only [BitVec.extractLsb'_append_eq_of_add_le, BitVec.extractLsb'_append_eq_of_le]
  all_goals try simp only [BitVec.extractLsb'_eq_self, Nat.sub_self]
  all_goals simp [RawA.imm12, RawA.fmt, vr_vf, mr_mf, opt_flag_num, fmt_ofCode_code, Option.bind_some]

/-- Its word reads back (R83). -/
theorem vsparse (f : Fmt) (d a : VReg) (c : MReg) (n : BitVec 5) : Statement (.vsparse f d a c n) := by
  intro bm w h
  obtain rfl := Option.some.inj h
  refine Or.inr ⟨top_packA _ _ _, mark_packA _ _ _, (candidate_34 _ _).trans ?_⟩
  simp only [cand34, RawA.imm12, RawA.fmt, vr_vf, mr_mf, fmt_ofCode_code, Option.bind_some]
  all_goals try simp (disch := decide) only [BitVec.extractLsb'_append_eq_of_add_le, BitVec.extractLsb'_append_eq_of_le]
  all_goals try simp only [BitVec.extractLsb'_eq_self, Nat.sub_self]
  all_goals try simp (disch := decide) only [BitVec.extractLsb'_append_eq_of_add_le, BitVec.extractLsb'_append_eq_of_le]
  all_goals simp [RawA.imm12, RawA.fmt, vr_vf, mr_mf, fmt_ofCode_code, Option.bind_some]

/-- Its word reads back (R83). -/
theorem vsparseP (f : Fmt) (d a : VReg) (c : MReg) (n : BitVec 5) : Statement (.vsparseP f d a c n) := by
  intro bm w h
  obtain rfl := Option.some.inj h
  refine Or.inr ⟨top_packA _ _ _, mark_packA _ _ _, (candidate_34 _ _).trans ?_⟩
  simp only [cand34, RawA.imm12, RawA.fmt, vr_vf, mr_mf, fmt_ofCode_code, Option.bind_some]
  all_goals try simp (disch := decide) only [BitVec.extractLsb'_append_eq_of_add_le, BitVec.extractLsb'_append_eq_of_le]
  all_goals try simp only [BitVec.extractLsb'_eq_self, Nat.sub_self]
  all_goals try simp (disch := decide) only [BitVec.extractLsb'_append_eq_of_add_le, BitVec.extractLsb'_append_eq_of_le]
  all_goals simp [RawA.imm12, RawA.fmt, vr_vf, mr_mf, fmt_ofCode_code, Option.bind_some]

/-- Its word reads back (R83). -/
theorem vexpand (d a : VReg) (c : MReg) : Statement (.vexpand d a c) := by
  intro bm w h
  obtain rfl := Option.some.inj h
  refine Or.inr ⟨top_packA _ _ _, mark_packA _ _ _, (candidate_34 _ _).trans ?_⟩
  delta cand34
  refine Eq.trans (if_pos ?_) ?_
  all_goals try simp only [RawA.imm12, RawA.fmt, vr_vf, mr_mf, Option.bind_some]
  all_goals simp [RawA.imm12, RawA.fmt, vr_vf, mr_mf, Option.bind_some]

/-- Its word reads back (R83). -/
theorem mand (d a b : MReg) (e : Option MReg) : Statement (.mand d a b e) := by
  intro bm w h
  obtain rfl := Option.some.inj h
  refine Or.inr ⟨top_packA _ _ _, mark_packA _ _ _, (candidate_35 _ _).trans ?_⟩
  delta cand35
  refine Eq.trans (if_pos ?_) ?_
  all_goals try simp only [RawA.imm12, RawA.fmt, mr_mf, opt_flag_num, Option.bind_some]
  all_goals simp [RawA.imm12, RawA.fmt, mr_mf, opt_flag_num, Option.bind_some]

/-- Its word reads back (R83). -/
theorem mor (d a b : MReg) (e : Option MReg) : Statement (.mor d a b e) := by
  intro bm w h
  obtain rfl := Option.some.inj h
  refine Or.inr ⟨top_packA _ _ _, mark_packA _ _ _, (candidate_35 _ _).trans ?_⟩
  delta cand35
  refine Eq.trans (if_pos ?_) ?_
  all_goals try simp only [RawA.imm12, RawA.fmt, mr_mf, opt_flag_num, Option.bind_some]
  all_goals simp [RawA.imm12, RawA.fmt, mr_mf, opt_flag_num, Option.bind_some]

/-- Its word reads back (R83). -/
theorem mxor (d a b : MReg) (e : Option MReg) : Statement (.mxor d a b e) := by
  intro bm w h
  obtain rfl := Option.some.inj h
  refine Or.inr ⟨top_packA _ _ _, mark_packA _ _ _, (candidate_35 _ _).trans ?_⟩
  delta cand35
  refine Eq.trans (if_pos ?_) ?_
  all_goals try simp only [RawA.imm12, RawA.fmt, mr_mf, opt_flag_num, Option.bind_some]
  all_goals simp [RawA.imm12, RawA.fmt, mr_mf, opt_flag_num, Option.bind_some]

/-- Its word reads back (R83). -/
theorem mnot (d a : MReg) (e : Option MReg) : Statement (.mnot d a e) := by
  intro bm w h
  obtain rfl := Option.some.inj h
  refine Or.inr ⟨top_packA _ _ _, mark_packA _ _ _, (candidate_35 _ _).trans ?_⟩
  delta cand35
  refine Eq.trans (if_pos ?_) ?_
  all_goals try simp only [RawA.imm12, RawA.fmt, mr_mf, opt_flag_num, Option.bind_some]
  all_goals simp [RawA.imm12, RawA.fmt, mr_mf, opt_flag_num, Option.bind_some]

/-- Its word reads back (R83). -/
theorem mpop (d : GReg) (a : MReg) (e : Option MReg) : Statement (.mpop d a e) := by
  intro bm w h
  obtain rfl := Option.some.inj h
  refine Or.inr ⟨top_packA _ _ _, mark_packA _ _ _, (candidate_35 _ _).trans ?_⟩
  delta cand35
  refine Eq.trans (if_pos ?_) ?_
  all_goals try simp only [RawA.imm12, RawA.fmt, mr_mf, opt_flag_num, Option.bind_some]
  all_goals simp [RawA.imm12, RawA.fmt, mr_mf, opt_flag_num, Option.bind_some]

/-- Its word reads back (R83). -/
theorem mfirst (d : GReg) (a : MReg) (e : Option MReg) : Statement (.mfirst d a e) := by
  intro bm w h
  obtain rfl := Option.some.inj h
  refine Or.inr ⟨top_packA _ _ _, mark_packA _ _ _, (candidate_35 _ _).trans ?_⟩
  delta cand35
  refine Eq.trans (if_pos ?_) ?_
  all_goals try simp only [RawA.imm12, RawA.fmt, mr_mf, opt_flag_num, Option.bind_some]
  all_goals simp [RawA.imm12, RawA.fmt, mr_mf, opt_flag_num, Option.bind_some]

/-- Its word reads back (R83). -/
theorem mset (d : MReg) (b : GReg) (e : Option MReg) : Statement (.mset d b e) := by
  intro bm w h
  obtain rfl := Option.some.inj h
  refine Or.inr ⟨top_packA _ _ _, mark_packA _ _ _, (candidate_35 _ _).trans ?_⟩
  delta cand35
  refine Eq.trans (if_pos ?_) ?_
  all_goals try simp only [RawA.imm12, RawA.fmt, mr_mf, opt_flag_num, Option.bind_some]
  all_goals simp [RawA.imm12, RawA.fmt, mr_mf, opt_flag_num, Option.bind_some]

/-- Its word reads back (R83). -/
theorem ldB (d base ix : GReg) (scale : BitVec 2) (pol : Policy) (off : BitVec 18) : Statement (.ldB d base ix scale pol off) := by
  intro bm w h
  obtain rfl := Option.some.inj h
  refine Or.inr ⟨top_packM _ _ _, mark_packM _ _ _, (candidate_40 _ _).trans ?_⟩
  delta cand40
  refine Eq.trans (if_pos ?_) ?_
  all_goals try simp only [policy_ofCode_code, Option.bind_some]
  all_goals simp [policy_ofCode_code, Option.bind_some]

/-- Its word reads back (R83). -/
theorem ldH (d base ix : GReg) (scale : BitVec 2) (pol : Policy) (off : BitVec 18) : Statement (.ldH d base ix scale pol off) := by
  intro bm w h
  obtain rfl := Option.some.inj h
  refine Or.inr ⟨top_packM _ _ _, mark_packM _ _ _, (candidate_40 _ _).trans ?_⟩
  delta cand40
  refine Eq.trans (if_pos ?_) ?_
  all_goals try simp only [policy_ofCode_code, Option.bind_some]
  all_goals simp [policy_ofCode_code, Option.bind_some]

/-- Its word reads back (R83). -/
theorem ldW (d base ix : GReg) (scale : BitVec 2) (pol : Policy) (off : BitVec 18) : Statement (.ldW d base ix scale pol off) := by
  intro bm w h
  obtain rfl := Option.some.inj h
  refine Or.inr ⟨top_packM _ _ _, mark_packM _ _ _, (candidate_40 _ _).trans ?_⟩
  delta cand40
  refine Eq.trans (if_pos ?_) ?_
  all_goals try simp only [policy_ofCode_code, Option.bind_some]
  all_goals simp [policy_ofCode_code, Option.bind_some]

/-- Its word reads back (R83). -/
theorem ldD (d base ix : GReg) (scale : BitVec 2) (pol : Policy) (off : BitVec 18) : Statement (.ldD d base ix scale pol off) := by
  intro bm w h
  obtain rfl := Option.some.inj h
  refine Or.inr ⟨top_packM _ _ _, mark_packM _ _ _, (candidate_40 _ _).trans ?_⟩
  delta cand40
  refine Eq.trans (if_pos ?_) ?_
  all_goals try simp only [policy_ofCode_code, Option.bind_some]
  all_goals simp [policy_ofCode_code, Option.bind_some]

/-- Its word reads back (R83). -/
theorem ldBn (d base ix : GReg) (scale : BitVec 2) (pol : Policy) (off : BitVec 18) : Statement (.ldBn d base ix scale pol off) := by
  intro bm w h
  obtain rfl := Option.some.inj h
  refine Or.inr ⟨top_packM _ _ _, mark_packM _ _ _, (candidate_40 _ _).trans ?_⟩
  delta cand40
  refine Eq.trans (if_pos ?_) ?_
  all_goals try simp only [policy_ofCode_code, Option.bind_some]
  all_goals simp [policy_ofCode_code, Option.bind_some]

/-- Its word reads back (R83). -/
theorem ldHn (d base ix : GReg) (scale : BitVec 2) (pol : Policy) (off : BitVec 18) : Statement (.ldHn d base ix scale pol off) := by
  intro bm w h
  obtain rfl := Option.some.inj h
  refine Or.inr ⟨top_packM _ _ _, mark_packM _ _ _, (candidate_40 _ _).trans ?_⟩
  delta cand40
  refine Eq.trans (if_pos ?_) ?_
  all_goals try simp only [policy_ofCode_code, Option.bind_some]
  all_goals simp [policy_ofCode_code, Option.bind_some]

/-- Its word reads back (R83). -/
theorem ldWn (d base ix : GReg) (scale : BitVec 2) (pol : Policy) (off : BitVec 18) : Statement (.ldWn d base ix scale pol off) := by
  intro bm w h
  obtain rfl := Option.some.inj h
  refine Or.inr ⟨top_packM _ _ _, mark_packM _ _ _, (candidate_40 _ _).trans ?_⟩
  delta cand40
  refine Eq.trans (if_pos ?_) ?_
  all_goals try simp only [policy_ofCode_code, Option.bind_some]
  all_goals simp [policy_ofCode_code, Option.bind_some]

/-- Its word reads back (R83). -/
theorem stB (d base ix : GReg) (scale : BitVec 2) (pol : Policy) (off : BitVec 18) : Statement (.stB d base ix scale pol off) := by
  intro bm w h
  obtain rfl := Option.some.inj h
  refine Or.inr ⟨top_packM _ _ _, mark_packM _ _ _, (candidate_40 _ _).trans ?_⟩
  delta cand40
  refine Eq.trans (if_pos ?_) ?_
  all_goals try simp only [policy_ofCode_code, Option.bind_some]
  all_goals simp [policy_ofCode_code, Option.bind_some]

/-- Its word reads back (R83). -/
theorem stH (d base ix : GReg) (scale : BitVec 2) (pol : Policy) (off : BitVec 18) : Statement (.stH d base ix scale pol off) := by
  intro bm w h
  obtain rfl := Option.some.inj h
  refine Or.inr ⟨top_packM _ _ _, mark_packM _ _ _, (candidate_40 _ _).trans ?_⟩
  delta cand40
  refine Eq.trans (if_pos ?_) ?_
  all_goals try simp only [policy_ofCode_code, Option.bind_some]
  all_goals simp [policy_ofCode_code, Option.bind_some]

/-- Its word reads back (R83). -/
theorem stW (d base ix : GReg) (scale : BitVec 2) (pol : Policy) (off : BitVec 18) : Statement (.stW d base ix scale pol off) := by
  intro bm w h
  obtain rfl := Option.some.inj h
  refine Or.inr ⟨top_packM _ _ _, mark_packM _ _ _, (candidate_40 _ _).trans ?_⟩
  delta cand40
  refine Eq.trans (if_pos ?_) ?_
  all_goals try simp only [policy_ofCode_code, Option.bind_some]
  all_goals simp [policy_ofCode_code, Option.bind_some]

/-- Its word reads back (R83). -/
theorem stD (d base ix : GReg) (scale : BitVec 2) (pol : Policy) (off : BitVec 18) : Statement (.stD d base ix scale pol off) := by
  intro bm w h
  obtain rfl := Option.some.inj h
  refine Or.inr ⟨top_packM _ _ _, mark_packM _ _ _, (candidate_40 _ _).trans ?_⟩
  delta cand40
  refine Eq.trans (if_pos ?_) ?_
  all_goals try simp only [policy_ofCode_code, Option.bind_some]
  all_goals simp [policy_ofCode_code, Option.bind_some]

/-- Its word reads back (R83). -/
theorem pf (base ix : GReg) (scale : BitVec 2) (pol : Policy) (off : BitVec 18) : Statement (.pf base ix scale pol off) := by
  intro bm w h
  obtain rfl := Option.some.inj h
  refine Or.inr ⟨top_packM _ _ _, mark_packM _ _ _, (candidate_40 _ _).trans ?_⟩
  delta cand40
  refine Eq.trans (if_pos ?_) ?_
  all_goals try simp only [policy_ofCode_code, Option.bind_some]
  all_goals simp [policy_ofCode_code, Option.bind_some]

/-- Its word reads back (R83). -/
theorem vld (f : Fmt) (d : VReg) (base ix : GReg) (scale : BitVec 2) (pol : Policy) (off : BitVec 14) (e : Option MReg) : Statement (.vld f d base ix scale pol off e) := by
  intro bm w h
  obtain rfl := Option.some.inj h
  refine Or.inr ⟨top_packM _ _ _, mark_packM _ _ _, (candidate_41 _ _).trans ?_⟩
  delta cand41
  refine Eq.trans (if_pos ?_) ?_
  all_goals try simp only [vr_vf, opt_flag_num, fmt_ofCode_code, policy_ofCode_code, Option.bind_some]
  all_goals try simp (disch := decide) only [BitVec.extractLsb'_append_eq_of_add_le, BitVec.extractLsb'_append_eq_of_le]
  all_goals try simp only [BitVec.extractLsb'_eq_self, Nat.sub_self]
  all_goals simp [vr_vf, opt_flag_num, fmt_ofCode_code, policy_ofCode_code, Option.bind_some]

/-- Its word reads back (R83). -/
theorem vlds (f : Fmt) (d : VReg) (base ix : GReg) (scale : BitVec 2) (pol : Policy) (off : BitVec 14) (e : Option MReg) : Statement (.vlds f d base ix scale pol off e) := by
  intro bm w h
  obtain rfl := Option.some.inj h
  refine Or.inr ⟨top_packM _ _ _, mark_packM _ _ _, (candidate_41 _ _).trans ?_⟩
  delta cand41
  refine Eq.trans (if_pos ?_) ?_
  all_goals try simp only [vr_vf, opt_flag_num, fmt_ofCode_code, policy_ofCode_code, Option.bind_some]
  all_goals try simp (disch := decide) only [BitVec.extractLsb'_append_eq_of_add_le, BitVec.extractLsb'_append_eq_of_le]
  all_goals try simp only [BitVec.extractLsb'_eq_self, Nat.sub_self]
  all_goals simp [vr_vf, opt_flag_num, fmt_ofCode_code, policy_ofCode_code, Option.bind_some]

/-- Its word reads back (R83). -/
theorem vldx (f : Fmt) (d : VReg) (base : GReg) (ix : VReg) (scale : BitVec 2) (pol : Policy) (off : BitVec 14) (e : Option MReg) : Statement (.vldx f d base ix scale pol off e) := by
  intro bm w h
  obtain rfl := Option.some.inj h
  refine Or.inr ⟨top_packM _ _ _, mark_packM _ _ _, (candidate_41 _ _).trans ?_⟩
  delta cand41
  refine Eq.trans (if_pos ?_) ?_
  all_goals try simp only [vr_vf, opt_flag_num, fmt_ofCode_code, policy_ofCode_code, Option.bind_some]
  all_goals try simp (disch := decide) only [BitVec.extractLsb'_append_eq_of_add_le, BitVec.extractLsb'_append_eq_of_le]
  all_goals try simp only [BitVec.extractLsb'_eq_self, Nat.sub_self]
  all_goals simp [vr_vf, opt_flag_num, fmt_ofCode_code, policy_ofCode_code, Option.bind_some]

/-- Its word reads back (R83). -/
theorem vst (f : Fmt) (d : VReg) (base ix : GReg) (scale : BitVec 2) (pol : Policy) (off : BitVec 14) (e : Option MReg) : Statement (.vst f d base ix scale pol off e) := by
  intro bm w h
  obtain rfl := Option.some.inj h
  refine Or.inr ⟨top_packM _ _ _, mark_packM _ _ _, (candidate_41 _ _).trans ?_⟩
  delta cand41
  refine Eq.trans (if_pos ?_) ?_
  all_goals try simp only [vr_vf, opt_flag_num, fmt_ofCode_code, policy_ofCode_code, Option.bind_some]
  all_goals try simp (disch := decide) only [BitVec.extractLsb'_append_eq_of_add_le, BitVec.extractLsb'_append_eq_of_le]
  all_goals try simp only [BitVec.extractLsb'_eq_self, Nat.sub_self]
  all_goals simp [vr_vf, opt_flag_num, fmt_ofCode_code, policy_ofCode_code, Option.bind_some]

/-- Its word reads back (R83). -/
theorem vsts (f : Fmt) (d : VReg) (base ix : GReg) (scale : BitVec 2) (pol : Policy) (off : BitVec 14) (e : Option MReg) : Statement (.vsts f d base ix scale pol off e) := by
  intro bm w h
  obtain rfl := Option.some.inj h
  refine Or.inr ⟨top_packM _ _ _, mark_packM _ _ _, (candidate_41 _ _).trans ?_⟩
  delta cand41
  refine Eq.trans (if_pos ?_) ?_
  all_goals try simp only [vr_vf, opt_flag_num, fmt_ofCode_code, policy_ofCode_code, Option.bind_some]
  all_goals try simp (disch := decide) only [BitVec.extractLsb'_append_eq_of_add_le, BitVec.extractLsb'_append_eq_of_le]
  all_goals try simp only [BitVec.extractLsb'_eq_self, Nat.sub_self]
  all_goals simp [vr_vf, opt_flag_num, fmt_ofCode_code, policy_ofCode_code, Option.bind_some]

/-- Its word reads back (R83). -/
theorem vstx (f : Fmt) (d : VReg) (base : GReg) (ix : VReg) (scale : BitVec 2) (pol : Policy) (off : BitVec 14) (e : Option MReg) : Statement (.vstx f d base ix scale pol off e) := by
  intro bm w h
  obtain rfl := Option.some.inj h
  refine Or.inr ⟨top_packM _ _ _, mark_packM _ _ _, (candidate_41 _ _).trans ?_⟩
  delta cand41
  refine Eq.trans (if_pos ?_) ?_
  all_goals try simp only [vr_vf, opt_flag_num, fmt_ofCode_code, policy_ofCode_code, Option.bind_some]
  all_goals try simp (disch := decide) only [BitVec.extractLsb'_append_eq_of_add_le, BitVec.extractLsb'_append_eq_of_le]
  all_goals try simp only [BitVec.extractLsb'_eq_self, Nat.sub_self]
  all_goals simp [vr_vf, opt_flag_num, fmt_ofCode_code, policy_ofCode_code, Option.bind_some]

/-- Its word reads back (R83). -/
theorem vsadd (f : Fmt) (d : VReg) (base : GReg) (ix : VReg) (scale : BitVec 2) (sc : Scope) (off : BitVec 14) (e : Option MReg) : Statement (.vsadd f d base ix scale sc off e) := by
  intro bm w h
  obtain rfl := Option.some.inj h
  refine Or.inr ⟨top_packM _ _ _, mark_packM _ _ _, (candidate_41 _ _).trans ?_⟩
  delta cand41
  refine Eq.trans (if_pos ?_) ?_
  all_goals try simp only [vr_vf, opt_flag_num, fmt_ofCode_code, scope_ofCode_code, Option.bind_some]
  all_goals try simp (disch := decide) only [BitVec.extractLsb'_append_eq_of_add_le, BitVec.extractLsb'_append_eq_of_le]
  all_goals try simp only [BitVec.extractLsb'_eq_self, Nat.sub_self]
  all_goals simp [vr_vf, opt_flag_num, fmt_ofCode_code, scope_ofCode_code, Option.bind_some]

/-- Its word reads back (R83). -/
theorem vldT (d : VReg) (base ix : GReg) (pol : Policy) (tid : BitVec 8) (e : Option MReg) : Statement (.vldT d base ix pol tid e) := by
  intro bm w h
  obtain rfl := Option.some.inj h
  refine Or.inr ⟨top_packM _ _ _, mark_packM _ _ _, (candidate_41 _ _).trans ?_⟩
  delta cand41
  refine Eq.trans (if_pos ?_) ?_
  all_goals try simp only [vr_vf, opt_flag_num, policy_ofCode_code, Option.bind_some]
  all_goals try simp (disch := decide) only [BitVec.extractLsb'_append_eq_of_add_le, BitVec.extractLsb'_append_eq_of_le]
  all_goals try simp only [BitVec.extractLsb'_eq_self, Nat.sub_self]
  all_goals simp [vr_vf, opt_flag_num, policy_ofCode_code, Option.bind_some]

/-- Its word reads back (R83). -/
theorem vstT (d : VReg) (base ix : GReg) (pol : Policy) (tid : BitVec 8) (e : Option MReg) : Statement (.vstT d base ix pol tid e) := by
  intro bm w h
  obtain rfl := Option.some.inj h
  refine Or.inr ⟨top_packM _ _ _, mark_packM _ _ _, (candidate_41 _ _).trans ?_⟩
  delta cand41
  refine Eq.trans (if_pos ?_) ?_
  all_goals try simp only [vr_vf, opt_flag_num, policy_ofCode_code, Option.bind_some]
  all_goals try simp (disch := decide) only [BitVec.extractLsb'_append_eq_of_add_le, BitVec.extractLsb'_append_eq_of_le]
  all_goals try simp only [BitVec.extractLsb'_eq_self, Nat.sub_self]
  all_goals simp [vr_vf, opt_flag_num, policy_ofCode_code, Option.bind_some]

/-- Its word reads back (R83). -/
theorem amoAdd (d base ix : GReg) (sz : ASize) (sc : Scope) (off : BitVec 18) : Statement (.amoAdd d base ix sz sc off) := by
  intro bm w h
  obtain rfl := Option.some.inj h
  refine Or.inr ⟨top_packM _ _ _, mark_packM _ _ _, (candidate_48 _ _).trans ?_⟩
  delta cand48
  refine Eq.trans (if_pos ?_) ?_
  all_goals try simp only [scope_ofCode_code, asize_ofCode_code, Option.bind_some]
  all_goals simp [scope_ofCode_code, asize_ofCode_code, Option.bind_some]

/-- Its word reads back (R83). -/
theorem amoAnd (d base ix : GReg) (sz : ASize) (sc : Scope) (off : BitVec 18) : Statement (.amoAnd d base ix sz sc off) := by
  intro bm w h
  obtain rfl := Option.some.inj h
  refine Or.inr ⟨top_packM _ _ _, mark_packM _ _ _, (candidate_48 _ _).trans ?_⟩
  delta cand48
  refine Eq.trans (if_pos ?_) ?_
  all_goals try simp only [scope_ofCode_code, asize_ofCode_code, Option.bind_some]
  all_goals simp [scope_ofCode_code, asize_ofCode_code, Option.bind_some]

/-- Its word reads back (R83). -/
theorem amoOr (d base ix : GReg) (sz : ASize) (sc : Scope) (off : BitVec 18) : Statement (.amoOr d base ix sz sc off) := by
  intro bm w h
  obtain rfl := Option.some.inj h
  refine Or.inr ⟨top_packM _ _ _, mark_packM _ _ _, (candidate_48 _ _).trans ?_⟩
  delta cand48
  refine Eq.trans (if_pos ?_) ?_
  all_goals try simp only [scope_ofCode_code, asize_ofCode_code, Option.bind_some]
  all_goals simp [scope_ofCode_code, asize_ofCode_code, Option.bind_some]

/-- Its word reads back (R83). -/
theorem amoXor (d base ix : GReg) (sz : ASize) (sc : Scope) (off : BitVec 18) : Statement (.amoXor d base ix sz sc off) := by
  intro bm w h
  obtain rfl := Option.some.inj h
  refine Or.inr ⟨top_packM _ _ _, mark_packM _ _ _, (candidate_48 _ _).trans ?_⟩
  delta cand48
  refine Eq.trans (if_pos ?_) ?_
  all_goals try simp only [scope_ofCode_code, asize_ofCode_code, Option.bind_some]
  all_goals simp [scope_ofCode_code, asize_ofCode_code, Option.bind_some]

/-- Its word reads back (R83). -/
theorem amoMin (d base ix : GReg) (sz : ASize) (sc : Scope) (off : BitVec 18) : Statement (.amoMin d base ix sz sc off) := by
  intro bm w h
  obtain rfl := Option.some.inj h
  refine Or.inr ⟨top_packM _ _ _, mark_packM _ _ _, (candidate_48 _ _).trans ?_⟩
  delta cand48
  refine Eq.trans (if_pos ?_) ?_
  all_goals try simp only [scope_ofCode_code, asize_ofCode_code, Option.bind_some]
  all_goals simp [scope_ofCode_code, asize_ofCode_code, Option.bind_some]

/-- Its word reads back (R83). -/
theorem amoMax (d base ix : GReg) (sz : ASize) (sc : Scope) (off : BitVec 18) : Statement (.amoMax d base ix sz sc off) := by
  intro bm w h
  obtain rfl := Option.some.inj h
  refine Or.inr ⟨top_packM _ _ _, mark_packM _ _ _, (candidate_48 _ _).trans ?_⟩
  delta cand48
  refine Eq.trans (if_pos ?_) ?_
  all_goals try simp only [scope_ofCode_code, asize_ofCode_code, Option.bind_some]
  all_goals simp [scope_ofCode_code, asize_ofCode_code, Option.bind_some]

/-- Its word reads back (R83). -/
theorem amoMinn (d base ix : GReg) (sz : ASize) (sc : Scope) (off : BitVec 18) : Statement (.amoMinn d base ix sz sc off) := by
  intro bm w h
  obtain rfl := Option.some.inj h
  refine Or.inr ⟨top_packM _ _ _, mark_packM _ _ _, (candidate_48 _ _).trans ?_⟩
  delta cand48
  refine Eq.trans (if_pos ?_) ?_
  all_goals try simp only [scope_ofCode_code, asize_ofCode_code, Option.bind_some]
  all_goals simp [scope_ofCode_code, asize_ofCode_code, Option.bind_some]

/-- Its word reads back (R83). -/
theorem amoMaxn (d base ix : GReg) (sz : ASize) (sc : Scope) (off : BitVec 18) : Statement (.amoMaxn d base ix sz sc off) := by
  intro bm w h
  obtain rfl := Option.some.inj h
  refine Or.inr ⟨top_packM _ _ _, mark_packM _ _ _, (candidate_48 _ _).trans ?_⟩
  delta cand48
  refine Eq.trans (if_pos ?_) ?_
  all_goals try simp only [scope_ofCode_code, asize_ofCode_code, Option.bind_some]
  all_goals simp [scope_ofCode_code, asize_ofCode_code, Option.bind_some]

/-- Its word reads back (R83). -/
theorem amoSwap (d base ix : GReg) (sz : ASize) (sc : Scope) (off : BitVec 18) : Statement (.amoSwap d base ix sz sc off) := by
  intro bm w h
  obtain rfl := Option.some.inj h
  refine Or.inr ⟨top_packM _ _ _, mark_packM _ _ _, (candidate_48 _ _).trans ?_⟩
  delta cand48
  refine Eq.trans (if_pos ?_) ?_
  all_goals try simp only [scope_ofCode_code, asize_ofCode_code, Option.bind_some]
  all_goals simp [scope_ofCode_code, asize_ofCode_code, Option.bind_some]

/-- Its word reads back (R83). -/
theorem amoCas (d base ix : GReg) (sz : ASize) (sc : Scope) (off : BitVec 18) : Statement (.amoCas d base ix sz sc off) := by
  intro bm w h
  obtain rfl := Option.some.inj h
  refine Or.inr ⟨top_packM _ _ _, mark_packM _ _ _, (candidate_48 _ _).trans ?_⟩
  delta cand48
  refine Eq.trans (if_pos ?_) ?_
  all_goals try simp only [scope_ofCode_code, asize_ofCode_code, Option.bind_some]
  all_goals simp [scope_ofCode_code, asize_ofCode_code, Option.bind_some]

/-- Its word reads back (R83). -/
theorem amoFadd (d base ix : GReg) (sc : Scope) (off : BitVec 18) : Statement (.amoFadd d base ix sc off) := by
  intro bm w h
  obtain rfl := Option.some.inj h
  refine Or.inr ⟨top_packM _ _ _, mark_packM _ _ _, (candidate_48 _ _).trans ?_⟩
  delta cand48
  refine Eq.trans (if_pos ?_) ?_
  all_goals try simp only [scope_ofCode_code, Option.bind_some]
  all_goals simp [scope_ofCode_code, Option.bind_some]

/-- Its word reads back (R83). -/
theorem amoLd (d base : GReg) (sz : ASize) (sc : Scope) (off : BitVec 18) : Statement (.amoLd d base sz sc off) := by
  intro bm w h
  obtain rfl := Option.some.inj h
  refine Or.inr ⟨top_packM _ _ _, mark_packM _ _ _, (candidate_48 _ _).trans ?_⟩
  delta cand48
  refine Eq.trans (if_pos ?_) ?_
  all_goals try simp only [scope_ofCode_code, asize_ofCode_code, Option.bind_some]
  all_goals simp [scope_ofCode_code, asize_ofCode_code, Option.bind_some]

/-- Its word reads back (R83). -/
theorem amoSt (base ix : GReg) (sz : ASize) (sc : Scope) (off : BitVec 18) : Statement (.amoSt base ix sz sc off) := by
  intro bm w h
  obtain rfl := Option.some.inj h
  refine Or.inr ⟨top_packM _ _ _, mark_packM _ _ _, (candidate_48 _ _).trans ?_⟩
  delta cand48
  refine Eq.trans (if_pos ?_) ?_
  all_goals try simp only [scope_ofCode_code, asize_ofCode_code, Option.bind_some]
  all_goals simp [scope_ofCode_code, asize_ofCode_code, Option.bind_some]

/-- Its word reads back (R83). -/
theorem wait (d base ix : GReg) (sz : ASize) (sc : Scope) (off : BitVec 14) (cond : WCond) : Statement (.wait d base ix sz sc off cond) := by
  intro bm w h
  obtain rfl := Option.some.inj h
  refine Or.inr ⟨top_packM _ _ _, mark_packM _ _ _, (candidate_48 _ _).trans ?_⟩
  delta cand48
  refine Eq.trans (if_pos ?_) ?_
  all_goals try simp only [scope_ofCode_code, asize_ofCode_code, wcond_ofCode_code, Option.bind_some]
  all_goals try simp (disch := decide) only [BitVec.extractLsb'_append_eq_of_add_le, BitVec.extractLsb'_append_eq_of_le]
  all_goals try simp only [BitVec.extractLsb'_eq_self, Nat.sub_self]
  all_goals simp [scope_ofCode_code, asize_ofCode_code, wcond_ofCode_code, Option.bind_some]

/-- Its word reads back (R83). -/
theorem ph (d : GReg) : Statement (.ph d) := by
  intro bm w h
  obtain rfl := Option.some.inj h
  refine Or.inr ⟨top_packS _ _ _, mark_packS _ _ _, (candidate_49 _ _).trans ?_⟩
  simp only [cand49]
  all_goals simp

/-- Its word reads back (R83). -/
theorem phTimestamp (d a : GReg) : Statement (.phTimestamp d a) := by
  intro bm w h
  obtain rfl := Option.some.inj h
  refine Or.inr ⟨top_packS _ _ _, mark_packS _ _ _, (candidate_49 _ _).trans ?_⟩
  simp only [cand49]
  all_goals try simp (disch := decide) only [BitVec.extractLsb'_append_eq_of_add_le, BitVec.extractLsb'_append_eq_of_le]
  all_goals try simp only [BitVec.extractLsb'_eq_self, Nat.sub_self]
  all_goals simp

/-- Its word reads back (R83). -/
theorem phA (d : GReg) : Statement (.phA d) := by
  intro bm w h
  obtain rfl := Option.some.inj h
  refine Or.inr ⟨top_packS _ _ _, mark_packS _ _ _, (candidate_49 _ _).trans ?_⟩
  delta cand49
  refine Eq.trans (if_pos ?_) ?_
  all_goals simp

/-- Its word reads back (R83). -/
theorem fx (dst frm : Path) : Statement (.fx dst frm) := by
  intro bm w h
  obtain rfl := Option.some.inj h
  refine Or.inr ⟨top_packS _ _ _, mark_packS _ _ _, (candidate_49 _ _).trans ?_⟩
  delta cand49
  refine Eq.trans (if_pos ?_) ?_
  all_goals try simp only [path_ofCode_code, Option.bind_some]
  all_goals try simp (disch := decide) only [BitVec.extractLsb'_append_eq_of_add_le, BitVec.extractLsb'_append_eq_of_le]
  all_goals try simp only [BitVec.extractLsb'_eq_self, Nat.sub_self]
  all_goals simp [path_ofCode_code, Option.bind_some]

/-- Its word reads back (R83). -/
theorem opa (f : Fmt) (d : TReg) (a : AReg) (b : VReg) (c : GReg) (c16 : Bool) : Statement (.opa f d a b c c16) := by
  intro bm w h
  obtain rfl := Option.some.inj h
  refine Or.inr ⟨top_packA _ _ _, mark_packA _ _ _, (candidate_50 _ _).trans ?_⟩
  delta cand50
  refine Eq.trans (if_pos ?_) ?_
  all_goals try simp only [RawA.imm12, RawA.fmt, vr_vf, mr_mf, fmt_ofCode_code, ofBool_beq_one, Option.bind_some]
  all_goals try simp (disch := decide) only [BitVec.extractLsb'_append_eq_of_add_le, BitVec.extractLsb'_append_eq_of_le]
  all_goals try simp only [BitVec.extractLsb'_eq_self, Nat.sub_self]
  all_goals try simp (disch := decide) only [BitVec.extractLsb'_append_eq_of_add_le, BitVec.extractLsb'_append_eq_of_le]
  all_goals simp [RawA.imm12, RawA.fmt, vr_vf, mr_mf, fmt_ofCode_code, ofBool_beq_one, Option.bind_some]

/-- Its word reads back (R83). -/
theorem tfold (d : TReg) (a : AReg) (b : VReg) (c : GReg) (ka kv : BitVec 3) : Statement (.tfold d a b c ka kv) := by
  intro bm w h
  obtain rfl := Option.some.inj h
  refine Or.inr ⟨top_packA _ _ _, mark_packA _ _ _, (candidate_50 _ _).trans ?_⟩
  delta cand50
  refine Eq.trans (if_pos ?_) ?_
  all_goals try simp only [RawA.imm12, RawA.fmt, vr_vf, mr_mf, Option.bind_some]
  all_goals try simp (disch := decide) only [BitVec.extractLsb'_append_eq_of_add_le, BitVec.extractLsb'_append_eq_of_le]
  all_goals try simp only [BitVec.extractLsb'_eq_self, Nat.sub_self]
  all_goals try simp (disch := decide) only [BitVec.extractLsb'_append_eq_of_add_le, BitVec.extractLsb'_append_eq_of_le]
  all_goals simp [RawA.imm12, RawA.fmt, vr_vf, mr_mf, Option.bind_some]

/-- Its word reads back (R83). -/
theorem tclr (d : GReg) (a : TReg) (mask : BitVec 3) : Statement (.tclr d a mask) := by
  intro bm w h
  obtain rfl := Option.some.inj h
  refine Or.inr ⟨top_packA _ _ _, mark_packA _ _ _, (candidate_50 _ _).trans ?_⟩
  delta cand50
  refine Eq.trans (if_pos ?_) ?_
  all_goals try simp only [RawA.imm12, RawA.fmt, mr_mf, Option.bind_some]
  all_goals try simp (disch := decide) only [BitVec.extractLsb'_append_eq_of_add_le, BitVec.extractLsb'_append_eq_of_le]
  all_goals try simp only [BitVec.extractLsb'_eq_self, Nat.sub_self]
  all_goals try simp (disch := decide) only [BitVec.extractLsb'_append_eq_of_add_le, BitVec.extractLsb'_append_eq_of_le]
  all_goals simp [RawA.imm12, RawA.fmt, mr_mf, Option.bind_some]

/-- Its word reads back (R83). -/
theorem tld (f : Fmt) (d : TReg) (a b c : GReg) (row0 : BitVec 6) : Statement (.tld f d a b c row0) := by
  intro bm w h
  obtain rfl := Option.some.inj h
  refine Or.inr ⟨top_packA _ _ _, mark_packA _ _ _, (candidate_50 _ _).trans ?_⟩
  delta cand50
  refine Eq.trans (if_pos ?_) ?_
  all_goals try simp only [RawA.imm12, RawA.fmt, mr_mf, fmt_ofCode_code, Option.bind_some]
  all_goals try simp (disch := decide) only [BitVec.extractLsb'_append_eq_of_add_le, BitVec.extractLsb'_append_eq_of_le]
  all_goals try simp only [BitVec.extractLsb'_eq_self, Nat.sub_self]
  all_goals try simp (disch := decide) only [BitVec.extractLsb'_append_eq_of_add_le, BitVec.extractLsb'_append_eq_of_le]
  all_goals simp [RawA.imm12, RawA.fmt, mr_mf, fmt_ofCode_code, Option.bind_some]

/-- Its word reads back (R83). -/
theorem tst (f : Fmt) (d : TReg) (a b c : GReg) (row0 : BitVec 6) : Statement (.tst f d a b c row0) := by
  intro bm w h
  obtain rfl := Option.some.inj h
  refine Or.inr ⟨top_packA _ _ _, mark_packA _ _ _, (candidate_50 _ _).trans ?_⟩
  delta cand50
  refine Eq.trans (if_pos ?_) ?_
  all_goals try simp only [RawA.imm12, RawA.fmt, mr_mf, fmt_ofCode_code, Option.bind_some]
  all_goals try simp (disch := decide) only [BitVec.extractLsb'_append_eq_of_add_le, BitVec.extractLsb'_append_eq_of_le]
  all_goals try simp only [BitVec.extractLsb'_eq_self, Nat.sub_self]
  all_goals try simp (disch := decide) only [BitVec.extractLsb'_append_eq_of_add_le, BitVec.extractLsb'_append_eq_of_le]
  all_goals simp [RawA.imm12, RawA.fmt, mr_mf, fmt_ofCode_code, Option.bind_some]

/-- Its word reads back (R83). -/
theorem tmv (f : Fmt) (d : VReg) (a : TReg) (c : GReg) (row0 : BitVec 6) (e : Option MReg) : Statement (.tmv f d a c row0 e) := by
  intro bm w h
  obtain rfl := Option.some.inj h
  refine Or.inr ⟨top_packA _ _ _, mark_packA _ _ _, (candidate_50 _ _).trans ?_⟩
  delta cand50
  refine Eq.trans (if_pos ?_) ?_
  all_goals try simp only [RawA.imm12, RawA.fmt, vr_vf, mr_mf, opt_flag_num, fmt_ofCode_code, Option.bind_some]
  all_goals try simp (disch := decide) only [BitVec.extractLsb'_append_eq_of_add_le, BitVec.extractLsb'_append_eq_of_le]
  all_goals try simp only [BitVec.extractLsb'_eq_self, Nat.sub_self]
  all_goals try simp (disch := decide) only [BitVec.extractLsb'_append_eq_of_add_le, BitVec.extractLsb'_append_eq_of_le]
  all_goals simp [RawA.imm12, RawA.fmt, vr_vf, mr_mf, opt_flag_num, fmt_ofCode_code, Option.bind_some]

/-- Its word reads back (R83). -/
theorem tadd (f : Fmt) (d : TReg) (b : VReg) (c : GReg) (row0 : BitVec 6) (e : Option MReg) : Statement (.tadd f d b c row0 e) := by
  intro bm w h
  obtain rfl := Option.some.inj h
  refine Or.inr ⟨top_packA _ _ _, mark_packA _ _ _, (candidate_50 _ _).trans ?_⟩
  delta cand50
  refine Eq.trans (if_pos ?_) ?_
  all_goals try simp only [RawA.imm12, RawA.fmt, vr_vf, mr_mf, opt_flag_num, fmt_ofCode_code, Option.bind_some]
  all_goals try simp (disch := decide) only [BitVec.extractLsb'_append_eq_of_add_le, BitVec.extractLsb'_append_eq_of_le]
  all_goals try simp only [BitVec.extractLsb'_eq_self, Nat.sub_self]
  all_goals try simp (disch := decide) only [BitVec.extractLsb'_append_eq_of_add_le, BitVec.extractLsb'_append_eq_of_le]
  all_goals simp [RawA.imm12, RawA.fmt, vr_vf, mr_mf, opt_flag_num, fmt_ofCode_code, Option.bind_some]

/-- Its word reads back (R83). -/
theorem cpw (flg src dst len : GReg) (ch : BitVec 2) : Statement (.cpw flg src dst len ch) := by
  intro bm w h
  obtain rfl := Option.some.inj h
  refine Or.inr ⟨top_packA _ _ _, mark_packA _ _ _, (candidate_58 _ _).trans ?_⟩
  delta cand58
  refine Eq.trans (if_pos ?_) ?_
  all_goals try simp (disch := decide) only [BitVec.extractLsb'_append_eq_of_add_le, BitVec.extractLsb'_append_eq_of_le]
  all_goals try simp only [BitVec.extractLsb'_eq_self, Nat.sub_self]
  all_goals simp

/-- Its word reads back (R83). -/
theorem cpgo (d : GReg) (ch : BitVec 2) : Statement (.cpgo d ch) := by
  intro bm w h
  obtain rfl := Option.some.inj h
  refine Or.inr ⟨top_packA _ _ _, mark_packA _ _ _, (candidate_58 _ _).trans ?_⟩
  delta cand58
  refine Eq.trans (if_pos ?_) ?_
  all_goals try simp (disch := decide) only [BitVec.extractLsb'_append_eq_of_add_le, BitVec.extractLsb'_append_eq_of_le]
  all_goals try simp only [BitVec.extractLsb'_eq_self, Nat.sub_self]
  all_goals simp

/-- Its word reads back (R83). -/
theorem cwait (d a : GReg) (ch : BitVec 2) : Statement (.cwait d a ch) := by
  intro bm w h
  obtain rfl := Option.some.inj h
  refine Or.inr ⟨top_packA _ _ _, mark_packA _ _ _, (candidate_58 _ _).trans ?_⟩
  delta cand58
  refine Eq.trans (if_pos ?_) ?_
  all_goals try simp (disch := decide) only [BitVec.extractLsb'_append_eq_of_add_le, BitVec.extractLsb'_append_eq_of_le]
  all_goals try simp only [BitVec.extractLsb'_eq_self, Nat.sub_self]
  all_goals simp

/-- Its word reads back (R83). -/
theorem cpst (d a : GReg) (ch : BitVec 2) : Statement (.cpst d a ch) := by
  intro bm w h
  obtain rfl := Option.some.inj h
  refine Or.inr ⟨top_packA _ _ _, mark_packA _ _ _, (candidate_58 _ _).trans ?_⟩
  delta cand58
  refine Eq.trans (if_pos ?_) ?_
  all_goals try simp (disch := decide) only [BitVec.extractLsb'_append_eq_of_add_le, BitVec.extractLsb'_append_eq_of_le]
  all_goals try simp only [BitVec.extractLsb'_eq_self, Nat.sub_self]
  all_goals simp

/-- Its word reads back (R83). -/
theorem tdef (d : GReg) (a : VReg) (b c : GReg) (tid : BitVec 8) : Statement (.tdef d a b c tid) := by
  intro bm w h
  obtain rfl := Option.some.inj h
  refine Or.inr ⟨top_packA _ _ _, mark_packA _ _ _, (candidate_58 _ _).trans ?_⟩
  delta cand58
  refine Eq.trans (if_pos ?_) ?_
  all_goals try simp only [vr_vf, Option.bind_some]
  all_goals try simp (disch := decide) only [BitVec.extractLsb'_append_eq_of_add_le, BitVec.extractLsb'_append_eq_of_le]
  all_goals try simp only [BitVec.extractLsb'_eq_self, Nat.sub_self]
  all_goals simp [vr_vf, Option.bind_some]

/-- Its word reads back (R83). -/
theorem tdrop (tid : BitVec 8) : Statement (.tdrop tid) := by
  intro bm w h
  obtain rfl := Option.some.inj h
  refine Or.inr ⟨top_packA _ _ _, mark_packA _ _ _, (candidate_58 _ _).trans ?_⟩
  delta cand58
  refine Eq.trans (if_pos ?_) ?_
  all_goals try simp (disch := decide) only [BitVec.extractLsb'_append_eq_of_add_le, BitVec.extractLsb'_append_eq_of_le]
  all_goals try simp only [BitVec.extractLsb'_eq_self, Nat.sub_self]
  all_goals simp

/-- Its word reads back (R83). -/
theorem tget (d : GReg) (tid : BitVec 8) (k : BitVec 5) : Statement (.tget d tid k) := by
  intro bm w h
  obtain rfl := Option.some.inj h
  refine Or.inr ⟨top_packA _ _ _, mark_packA _ _ _, (candidate_58 _ _).trans ?_⟩
  delta cand58
  refine Eq.trans (if_pos ?_) ?_
  all_goals try simp (disch := decide) only [BitVec.extractLsb'_append_eq_of_add_le, BitVec.extractLsb'_append_eq_of_le]
  all_goals try simp only [BitVec.extractLsb'_eq_self, Nat.sub_self]
  all_goals simp

/-- Its word reads back (R83). -/
theorem rinit (d a b c : GReg) (n : BitVec 4) : Statement (.rinit d a b c n) := by
  intro bm w h
  obtain rfl := Option.some.inj h
  refine Or.inr ⟨top_packA _ _ _, mark_packA _ _ _, (candidate_58 _ _).trans ?_⟩
  delta cand58
  refine Eq.trans (if_pos ?_) ?_
  all_goals try simp (disch := decide) only [BitVec.extractLsb'_append_eq_of_add_le, BitVec.extractLsb'_append_eq_of_le]
  all_goals try simp only [BitVec.extractLsb'_eq_self, Nat.sub_self]
  all_goals simp

/-- Its word reads back (R83). -/
theorem rget (d : GReg) (n : BitVec 4) : Statement (.rget d n) := by
  intro bm w h
  obtain rfl := Option.some.inj h
  refine Or.inr ⟨top_packA _ _ _, mark_packA _ _ _, (candidate_58 _ _).trans ?_⟩
  simp only [cand58]
  all_goals try simp (disch := decide) only [BitVec.extractLsb'_append_eq_of_add_le, BitVec.extractLsb'_append_eq_of_le]
  all_goals try simp only [BitVec.extractLsb'_eq_self, Nat.sub_self]
  all_goals simp

/-- Its word reads back (R83). -/
theorem rgetNw (d : GReg) (n : BitVec 4) : Statement (.rgetNw d n) := by
  intro bm w h
  obtain rfl := Option.some.inj h
  refine Or.inr ⟨top_packA _ _ _, mark_packA _ _ _, (candidate_58 _ _).trans ?_⟩
  simp only [cand58]
  all_goals try simp (disch := decide) only [BitVec.extractLsb'_append_eq_of_add_le, BitVec.extractLsb'_append_eq_of_le]
  all_goals try simp only [BitVec.extractLsb'_eq_self, Nat.sub_self]
  all_goals simp

/-- Its word reads back (R83). -/
theorem rrel (n : BitVec 4) : Statement (.rrel n) := by
  intro bm w h
  obtain rfl := Option.some.inj h
  refine Or.inr ⟨top_packA _ _ _, mark_packA _ _ _, (candidate_58 _ _).trans ?_⟩
  delta cand58
  refine Eq.trans (if_pos ?_) ?_
  all_goals try simp (disch := decide) only [BitVec.extractLsb'_append_eq_of_add_le, BitVec.extractLsb'_append_eq_of_le]
  all_goals try simp only [BitVec.extractLsb'_eq_self, Nat.sub_self]
  all_goals simp

/-- Its word reads back (R83). -/
theorem xins (f : Fmt) (d : GReg) (a b : VReg) (c : MReg) (e : Option MReg) : Statement (.xins f d a b c e) := by
  intro bm w h
  obtain rfl := Option.some.inj h
  refine Or.inr ⟨top_packA _ _ _, mark_packA _ _ _, (candidate_60 _ _).trans ?_⟩
  delta cand60
  refine Eq.trans (if_pos ?_) ?_
  all_goals try simp only [RawA.imm12, RawA.fmt, vr_vf, mr_mf, opt_flag_num, fmt_ofCode_code, Option.bind_some]
  all_goals try simp (disch := decide) only [BitVec.extractLsb'_append_eq_of_add_le, BitVec.extractLsb'_append_eq_of_le]
  all_goals try simp only [BitVec.extractLsb'_eq_self, Nat.sub_self]
  all_goals simp [RawA.imm12, RawA.fmt, vr_vf, mr_mf, opt_flag_num, fmt_ofCode_code, Option.bind_some]

/-- Its word reads back (R83). -/
theorem xacc (f : Fmt) (d : GReg) (a b : VReg) (c : MReg) (e : Option MReg) : Statement (.xacc f d a b c e) := by
  intro bm w h
  obtain rfl := Option.some.inj h
  refine Or.inr ⟨top_packA _ _ _, mark_packA _ _ _, (candidate_60 _ _).trans ?_⟩
  delta cand60
  refine Eq.trans (if_pos ?_) ?_
  all_goals try simp only [RawA.imm12, RawA.fmt, vr_vf, mr_mf, opt_flag_num, fmt_ofCode_code, Option.bind_some]
  all_goals try simp (disch := decide) only [BitVec.extractLsb'_append_eq_of_add_le, BitVec.extractLsb'_append_eq_of_le]
  all_goals try simp only [BitVec.extractLsb'_eq_self, Nat.sub_self]
  all_goals simp [RawA.imm12, RawA.fmt, vr_vf, mr_mf, opt_flag_num, fmt_ofCode_code, Option.bind_some]

/-- Its word reads back (R83). -/
theorem xlook (f : Fmt) (d a : VReg) (c : MReg) (e : Option MReg) : Statement (.xlook f d a c e) := by
  intro bm w h
  obtain rfl := Option.some.inj h
  refine Or.inr ⟨top_packA _ _ _, mark_packA _ _ _, (candidate_60 _ _).trans ?_⟩
  delta cand60
  refine Eq.trans (if_pos ?_) ?_
  all_goals try simp only [RawA.imm12, RawA.fmt, vr_vf, mr_mf, opt_flag_num, fmt_ofCode_code, Option.bind_some]
  all_goals try simp (disch := decide) only [BitVec.extractLsb'_append_eq_of_add_le, BitVec.extractLsb'_append_eq_of_le]
  all_goals try simp only [BitVec.extractLsb'_eq_self, Nat.sub_self]
  all_goals simp [RawA.imm12, RawA.fmt, vr_vf, mr_mf, opt_flag_num, fmt_ofCode_code, Option.bind_some]

/-- Its word reads back (R83). -/
theorem xdel (d : GReg) (a : VReg) (c : MReg) (e : Option MReg) : Statement (.xdel d a c e) := by
  intro bm w h
  obtain rfl := Option.some.inj h
  refine Or.inr ⟨top_packA _ _ _, mark_packA _ _ _, (candidate_60 _ _).trans ?_⟩
  delta cand60
  refine Eq.trans (if_pos ?_) ?_
  all_goals try simp only [RawA.imm12, RawA.fmt, vr_vf, mr_mf, opt_flag_num, Option.bind_some]
  all_goals simp [RawA.imm12, RawA.fmt, vr_vf, mr_mf, opt_flag_num, Option.bind_some]

/-- Its word reads back (R83). -/
theorem xdrain (f : Fmt) (d : GReg) (a b : VReg) : Statement (.xdrain f d a b) := by
  intro bm w h
  obtain rfl := Option.some.inj h
  refine Or.inr ⟨top_packA _ _ _, mark_packA _ _ _, (candidate_60 _ _).trans ?_⟩
  delta cand60
  refine Eq.trans (if_pos ?_) ?_
  all_goals try simp only [RawA.imm12, RawA.fmt, vr_vf, fmt_ofCode_code, Option.bind_some]
  all_goals try simp (disch := decide) only [BitVec.extractLsb'_append_eq_of_add_le, BitVec.extractLsb'_append_eq_of_le]
  all_goals try simp only [BitVec.extractLsb'_eq_self, Nat.sub_self]
  all_goals simp [RawA.imm12, RawA.fmt, vr_vf, fmt_ofCode_code, Option.bind_some]

/-- Its word reads back (R83). -/
theorem xcnt (d : GReg) (sel : Bool) : Statement (.xcnt d sel) := by
  intro bm w h
  obtain rfl := Option.some.inj h
  refine Or.inr ⟨top_packA _ _ _, mark_packA _ _ _, (candidate_60 _ _).trans ?_⟩
  delta cand60
  refine Eq.trans (if_pos ?_) ?_
  all_goals try simp only [RawA.imm12, RawA.fmt, ofBool_beq_one]
  all_goals try simp (disch := decide) only [BitVec.extractLsb'_append_eq_of_add_le, BitVec.extractLsb'_append_eq_of_le]
  all_goals try simp only [BitVec.extractLsb'_eq_self, Nat.sub_self]
  all_goals try simp (disch := decide) only [BitVec.extractLsb'_append_eq_of_add_le, BitVec.extractLsb'_append_eq_of_le]
  all_goals simp [RawA.imm12, RawA.fmt, ofBool_beq_one]

/-- Its word reads back (R83). -/
theorem xclr (d : GReg) : Statement (.xclr d) := by
  intro bm w h
  obtain rfl := Option.some.inj h
  refine Or.inr ⟨top_packA _ _ _, mark_packA _ _ _, (candidate_60 _ _).trans ?_⟩
  delta cand60
  refine Eq.trans (if_pos ?_) ?_
  all_goals try simp only [RawA.imm12, RawA.fmt]
  all_goals simp [RawA.imm12, RawA.fmt]

/-- Its word reads back (R83). -/
theorem kxdef (d a : GReg) (kx : BitVec 8) : Statement (.kxdef d a kx) := by
  intro bm w h
  obtain rfl := Option.some.inj h
  refine Or.inr ⟨top_packA _ _ _, mark_packA _ _ _, (candidate_68 _ _).trans ?_⟩
  delta cand68
  refine Eq.trans (if_pos ?_) ?_
  all_goals try simp only [RawA.imm12, RawA.fmt]
  all_goals try simp (disch := decide) only [BitVec.extractLsb'_append_eq_of_add_le, BitVec.extractLsb'_append_eq_of_le]
  all_goals try simp only [BitVec.extractLsb'_eq_self, Nat.sub_self]
  all_goals try simp (disch := decide) only [BitVec.extractLsb'_append_eq_of_add_le, BitVec.extractLsb'_append_eq_of_le]
  all_goals simp [RawA.imm12, RawA.fmt]

/-- Its word reads back (R83). -/
theorem kxprj (d b c : GReg) (kx : BitVec 8) : Statement (.kxprj d b c kx) := by
  intro bm w h
  obtain rfl := Option.some.inj h
  refine Or.inr ⟨top_packA _ _ _, mark_packA _ _ _, (candidate_68 _ _).trans ?_⟩
  delta cand68
  refine Eq.trans (if_pos ?_) ?_
  all_goals try simp only [RawA.imm12, RawA.fmt]
  all_goals try simp (disch := decide) only [BitVec.extractLsb'_append_eq_of_add_le, BitVec.extractLsb'_append_eq_of_le]
  all_goals try simp only [BitVec.extractLsb'_eq_self, Nat.sub_self]
  all_goals try simp (disch := decide) only [BitVec.extractLsb'_append_eq_of_add_le, BitVec.extractLsb'_append_eq_of_le]
  all_goals simp [RawA.imm12, RawA.fmt]

/-- Its word reads back (R83). -/
theorem kst (d : AReg) (a : VReg) (b c : GReg) (kx : BitVec 8) : Statement (.kst d a b c kx) := by
  intro bm w h
  obtain rfl := Option.some.inj h
  refine Or.inr ⟨top_packA _ _ _, mark_packA _ _ _, (candidate_68 _ _).trans ?_⟩
  delta cand68
  refine Eq.trans (if_pos ?_) ?_
  all_goals try simp only [RawA.imm12, RawA.fmt, vr_vf, mr_mf, Option.bind_some]
  all_goals try simp (disch := decide) only [BitVec.extractLsb'_append_eq_of_add_le, BitVec.extractLsb'_append_eq_of_le]
  all_goals try simp only [BitVec.extractLsb'_eq_self, Nat.sub_self]
  all_goals try simp (disch := decide) only [BitVec.extractLsb'_append_eq_of_add_le, BitVec.extractLsb'_append_eq_of_le]
  all_goals simp [RawA.imm12, RawA.fmt, vr_vf, mr_mf, Option.bind_some]

/-- Its word reads back (R83). -/
theorem ksig (d : AReg) (a : VReg) (c : GReg) (kx : BitVec 8) : Statement (.ksig d a c kx) := by
  intro bm w h
  obtain rfl := Option.some.inj h
  refine Or.inr ⟨top_packA _ _ _, mark_packA _ _ _, (candidate_68 _ _).trans ?_⟩
  delta cand68
  refine Eq.trans (if_pos ?_) ?_
  all_goals try simp only [RawA.imm12, RawA.fmt, vr_vf, mr_mf, Option.bind_some]
  all_goals try simp (disch := decide) only [BitVec.extractLsb'_append_eq_of_add_le, BitVec.extractLsb'_append_eq_of_le]
  all_goals try simp only [BitVec.extractLsb'_eq_self, Nat.sub_self]
  all_goals try simp (disch := decide) only [BitVec.extractLsb'_append_eq_of_add_le, BitVec.extractLsb'_append_eq_of_le]
  all_goals simp [RawA.imm12, RawA.fmt, vr_vf, mr_mf, Option.bind_some]

/-- Its word reads back (R83). -/
theorem kga (d : VReg) (a : AReg) (b c : GReg) (kx : BitVec 8) (k : BitVec 3) : Statement (.kga d a b c kx k) := by
  intro bm w h
  obtain rfl := Option.some.inj h
  refine Or.inr ⟨top_packA _ _ _, mark_packA _ _ _, (candidate_68 _ _).trans ?_⟩
  simp only [cand68, RawA.imm12, RawA.fmt, vr_vf, mr_mf, Option.bind_some]
  all_goals try simp (disch := decide) only [BitVec.extractLsb'_append_eq_of_add_le, BitVec.extractLsb'_append_eq_of_le]
  all_goals try simp only [BitVec.extractLsb'_eq_self, Nat.sub_self]
  all_goals try simp (disch := decide) only [BitVec.extractLsb'_append_eq_of_add_le, BitVec.extractLsb'_append_eq_of_le]
  all_goals simp [RawA.imm12, RawA.fmt, vr_vf, mr_mf, Option.bind_some]

/-- Its word reads back (R83). -/
theorem kgaU (d : VReg) (a : AReg) (b c : GReg) (kx : BitVec 8) (k : BitVec 3) : Statement (.kgaU d a b c kx k) := by
  intro bm w h
  obtain rfl := Option.some.inj h
  refine Or.inr ⟨top_packA _ _ _, mark_packA _ _ _, (candidate_68 _ _).trans ?_⟩
  simp only [cand68, RawA.imm12, RawA.fmt, vr_vf, mr_mf, Option.bind_some]
  all_goals try simp (disch := decide) only [BitVec.extractLsb'_append_eq_of_add_le, BitVec.extractLsb'_append_eq_of_le]
  all_goals try simp only [BitVec.extractLsb'_eq_self, Nat.sub_self]
  all_goals try simp (disch := decide) only [BitVec.extractLsb'_append_eq_of_add_le, BitVec.extractLsb'_append_eq_of_le]
  all_goals simp [RawA.imm12, RawA.fmt, vr_vf, mr_mf, Option.bind_some]

/-- Its word reads back (R83). -/
theorem kxst (d : GReg) (kx : BitVec 8) (sel : BitVec 3) : Statement (.kxst d kx sel) := by
  intro bm w h
  obtain rfl := Option.some.inj h
  refine Or.inr ⟨top_packA _ _ _, mark_packA _ _ _, (candidate_68 _ _).trans ?_⟩
  simp only [cand68, RawA.imm12, RawA.fmt]
  all_goals try simp (disch := decide) only [BitVec.extractLsb'_append_eq_of_add_le, BitVec.extractLsb'_append_eq_of_le]
  all_goals try simp only [BitVec.extractLsb'_eq_self, Nat.sub_self]
  all_goals try simp (disch := decide) only [BitVec.extractLsb'_append_eq_of_add_le, BitVec.extractLsb'_append_eq_of_le]
  all_goals simp [RawA.imm12, RawA.fmt]

/-- Its word reads back (R83). -/
theorem kxstClr (d : GReg) (kx : BitVec 8) (sel : BitVec 3) : Statement (.kxstClr d kx sel) := by
  intro bm w h
  obtain rfl := Option.some.inj h
  refine Or.inr ⟨top_packA _ _ _, mark_packA _ _ _, (candidate_68 _ _).trans ?_⟩
  simp only [cand68, RawA.imm12, RawA.fmt]
  all_goals try simp (disch := decide) only [BitVec.extractLsb'_append_eq_of_add_le, BitVec.extractLsb'_append_eq_of_le]
  all_goals try simp only [BitVec.extractLsb'_eq_self, Nat.sub_self]
  all_goals try simp (disch := decide) only [BitVec.extractLsb'_append_eq_of_add_le, BitVec.extractLsb'_append_eq_of_le]
  all_goals simp [RawA.imm12, RawA.fmt]

/-- Its word reads back (R83). -/
theorem kxclr (d : GReg) (kx : BitVec 8) : Statement (.kxclr d kx) := by
  intro bm w h
  obtain rfl := Option.some.inj h
  refine Or.inr ⟨top_packA _ _ _, mark_packA _ _ _, (candidate_68 _ _).trans ?_⟩
  delta cand68
  refine Eq.trans (if_pos ?_) ?_
  all_goals try simp only [RawA.imm12, RawA.fmt]
  all_goals try simp (disch := decide) only [BitVec.extractLsb'_append_eq_of_add_le, BitVec.extractLsb'_append_eq_of_le]
  all_goals try simp only [BitVec.extractLsb'_eq_self, Nat.sub_self]
  all_goals try simp (disch := decide) only [BitVec.extractLsb'_append_eq_of_add_le, BitVec.extractLsb'_append_eq_of_le]
  all_goals simp [RawA.imm12, RawA.fmt]

/-- Its word reads back (R83). -/
theorem gadd (d a b : GReg) : Statement (.gadd d a b) := by
  intro bm w h
  obtain rfl := Option.some.inj h
  refine Or.inr ⟨top_packA _ _ _, mark_packA _ _ _, (candidate_70 _ _).trans ?_⟩
  delta cand70
  refine Eq.trans (if_pos ?_) ?_
  all_goals try simp only [RawA.imm12, RawA.fmt]
  all_goals try simp (disch := decide) only [BitVec.extractLsb'_append_eq_of_add_le, BitVec.extractLsb'_append_eq_of_le]
  all_goals try simp only [BitVec.extractLsb'_eq_self, Nat.sub_self]
  all_goals simp [RawA.imm12, RawA.fmt]

/-- Its word reads back (R83). -/
theorem vgadd (f : Fmt) (d a : GReg) (b c : VReg) (e : Option MReg) : Statement (.vgadd f d a b c e) := by
  intro bm w h
  obtain rfl := Option.some.inj h
  refine Or.inr ⟨top_packA _ _ _, mark_packA _ _ _, (candidate_70 _ _).trans ?_⟩
  delta cand70
  refine Eq.trans (if_pos ?_) ?_
  all_goals try simp only [RawA.imm12, RawA.fmt, vr_vf, opt_flag_num, fmt_ofCode_code, Option.bind_some]
  all_goals try simp (disch := decide) only [BitVec.extractLsb'_append_eq_of_add_le, BitVec.extractLsb'_append_eq_of_le]
  all_goals try simp only [BitVec.extractLsb'_eq_self, Nat.sub_self]
  all_goals simp [RawA.imm12, RawA.fmt, vr_vf, opt_flag_num, fmt_ofCode_code, Option.bind_some]

/-- Its word reads back (R83). -/
theorem gld (d : VReg) (a : GReg) (b : VReg) (e : Option MReg) : Statement (.gld d a b e) := by
  intro bm w h
  obtain rfl := Option.some.inj h
  refine Or.inr ⟨top_packA _ _ _, mark_packA _ _ _, (candidate_70 _ _).trans ?_⟩
  delta cand70
  refine Eq.trans (if_pos ?_) ?_
  all_goals try simp only [RawA.imm12, RawA.fmt, vr_vf, opt_flag_num, Option.bind_some]
  all_goals try simp (disch := decide) only [BitVec.extractLsb'_append_eq_of_add_le, BitVec.extractLsb'_append_eq_of_le]
  all_goals try simp only [BitVec.extractLsb'_eq_self, Nat.sub_self]
  all_goals simp [RawA.imm12, RawA.fmt, vr_vf, opt_flag_num, Option.bind_some]

/-- Its word reads back (R83). -/
theorem gest (d : VReg) (a : GReg) (b : VReg) (e : Option MReg) : Statement (.gest d a b e) := by
  intro bm w h
  obtain rfl := Option.some.inj h
  refine Or.inr ⟨top_packA _ _ _, mark_packA _ _ _, (candidate_70 _ _).trans ?_⟩
  delta cand70
  refine Eq.trans (if_pos ?_) ?_
  all_goals try simp only [RawA.imm12, RawA.fmt, vr_vf, opt_flag_num, Option.bind_some]
  all_goals try simp (disch := decide) only [BitVec.extractLsb'_append_eq_of_add_le, BitVec.extractLsb'_append_eq_of_le]
  all_goals try simp only [BitVec.extractLsb'_eq_self, Nat.sub_self]
  all_goals simp [RawA.imm12, RawA.fmt, vr_vf, opt_flag_num, Option.bind_some]

/-- Its word reads back (R83). -/
theorem gw (d a : GReg) : Statement (.gw d a) := by
  intro bm w h
  obtain rfl := Option.some.inj h
  refine Or.inr ⟨top_packA _ _ _, mark_packA _ _ _, (candidate_70 _ _).trans ?_⟩
  delta cand70
  refine Eq.trans (if_pos ?_) ?_
  all_goals try simp only [RawA.imm12, RawA.fmt]
  all_goals simp [RawA.imm12, RawA.fmt]

/-- Its word reads back (R83). -/
theorem gspr (d : GReg) (n : BitVec 4) : Statement (.gspr d n) := by
  intro bm w h
  obtain rfl := Option.some.inj h
  refine Or.inr ⟨top_packA _ _ _, mark_packA _ _ _, (candidate_70 _ _).trans ?_⟩
  delta cand70
  refine Eq.trans (if_pos ?_) ?_
  all_goals try simp only [RawA.imm12, RawA.fmt]
  all_goals try simp (disch := decide) only [BitVec.extractLsb'_append_eq_of_add_le, BitVec.extractLsb'_append_eq_of_le]
  all_goals try simp only [BitVec.extractLsb'_eq_self, Nat.sub_self]
  all_goals try simp (disch := decide) only [BitVec.extractLsb'_append_eq_of_add_le, BitVec.extractLsb'_append_eq_of_le]
  all_goals simp [RawA.imm12, RawA.fmt]

/-- Its word reads back (R83). -/
theorem gstep (d a : GReg) (n : BitVec 4) : Statement (.gstep d a n) := by
  intro bm w h
  obtain rfl := Option.some.inj h
  refine Or.inr ⟨top_packA _ _ _, mark_packA _ _ _, (candidate_70 _ _).trans ?_⟩
  delta cand70
  refine Eq.trans (if_pos ?_) ?_
  all_goals try simp only [RawA.imm12, RawA.fmt]
  all_goals try simp (disch := decide) only [BitVec.extractLsb'_append_eq_of_add_le, BitVec.extractLsb'_append_eq_of_le]
  all_goals try simp only [BitVec.extractLsb'_eq_self, Nat.sub_self]
  all_goals try simp (disch := decide) only [BitVec.extractLsb'_append_eq_of_add_le, BitVec.extractLsb'_append_eq_of_le]
  all_goals simp [RawA.imm12, RawA.fmt]

/-- A pair word (R74). -/
theorem pairWord (b0 : Bool) (s0 : PSlot) (b1 : Bool) (s1 : PSlot) : Statement (.pairWord b0 s0 b1 s1) := by
  intro bm w h
  obtain rfl := Option.some.inj h
  have hm := marks_packPair b0 b1 s0 s1
  refine Or.inl ⟨hm.2.2.2, ?_⟩
  unfold pairCandidate
  rw [hm.1, hm.2.1, hm.2.2.1, slot0_packPair, slot1_packPair, mark_packSlot, mark_packSlot, fields_packSlot, fields_packSlot,
    slotOf_raw, slotOf_raw]
  cases b0 <;> cases b1 <;> rfl

/-- Its word reads back (R83). -/
theorem gquiet (n : BitVec 4) : Statement (.gquiet n) := by
  intro bm w h
  obtain rfl := Option.some.inj h
  refine Or.inr ⟨top_packA _ _ _, mark_packA _ _ _, (candidate_70 _ _).trans ?_⟩
  delta cand70
  refine Eq.trans (if_pos ?_) ?_
  all_goals try simp only [RawA.imm12, RawA.fmt]
  all_goals try simp (disch := decide) only [BitVec.extractLsb'_append_eq_of_add_le, BitVec.extractLsb'_append_eq_of_le]
  all_goals try simp only [BitVec.extractLsb'_eq_self, Nat.sub_self]
  all_goals try simp (disch := decide) only [BitVec.extractLsb'_append_eq_of_add_le, BitVec.extractLsb'_append_eq_of_le]
  all_goals simp [RawA.imm12, RawA.fmt]

/-- Its word reads back (R83). -/
theorem gctlDefine (d a : GReg) (n : BitVec 4) : Statement (.gctlDefine d a n) := by
  intro bm w h
  obtain rfl := Option.some.inj h
  refine Or.inr ⟨top_packA _ _ _, mark_packA _ _ _, (candidate_70 _ _).trans ?_⟩
  simp only [cand70, RawA.imm12, RawA.fmt]
  all_goals try simp (disch := decide) only [BitVec.extractLsb'_append_eq_of_add_le, BitVec.extractLsb'_append_eq_of_le]
  all_goals try simp only [BitVec.extractLsb'_eq_self, Nat.sub_self]
  all_goals try simp (disch := decide) only [BitVec.extractLsb'_append_eq_of_add_le, BitVec.extractLsb'_append_eq_of_le]
  all_goals simp [RawA.imm12, RawA.fmt]

/-- Its word reads back (R83). -/
theorem gctlUndefine (d a : GReg) (n : BitVec 4) : Statement (.gctlUndefine d a n) := by
  intro bm w h
  obtain rfl := Option.some.inj h
  refine Or.inr ⟨top_packA _ _ _, mark_packA _ _ _, (candidate_70 _ _).trans ?_⟩
  simp only [cand70, RawA.imm12, RawA.fmt]
  all_goals try simp (disch := decide) only [BitVec.extractLsb'_append_eq_of_add_le, BitVec.extractLsb'_append_eq_of_le]
  all_goals try simp only [BitVec.extractLsb'_eq_self, Nat.sub_self]
  all_goals try simp (disch := decide) only [BitVec.extractLsb'_append_eq_of_add_le, BitVec.extractLsb'_append_eq_of_le]
  all_goals simp [RawA.imm12, RawA.fmt]

/-- Its word reads back (R83). -/
theorem gctlStatus (d a : GReg) (n : BitVec 4) : Statement (.gctlStatus d a n) := by
  intro bm w h
  obtain rfl := Option.some.inj h
  refine Or.inr ⟨top_packA _ _ _, mark_packA _ _ _, (candidate_70 _ _).trans ?_⟩
  simp only [cand70, RawA.imm12, RawA.fmt]
  all_goals try simp (disch := decide) only [BitVec.extractLsb'_append_eq_of_add_le, BitVec.extractLsb'_append_eq_of_le]
  all_goals try simp only [BitVec.extractLsb'_eq_self, Nat.sub_self]
  all_goals try simp (disch := decide) only [BitVec.extractLsb'_append_eq_of_add_le, BitVec.extractLsb'_append_eq_of_le]
  all_goals simp [RawA.imm12, RawA.fmt]

/-- Its word reads back (R83). -/
theorem gctlStatusClear (d a : GReg) (n : BitVec 4) : Statement (.gctlStatusClear d a n) := by
  intro bm w h
  obtain rfl := Option.some.inj h
  refine Or.inr ⟨top_packA _ _ _, mark_packA _ _ _, (candidate_70 _ _).trans ?_⟩
  simp only [cand70, RawA.imm12, RawA.fmt]
  all_goals try simp (disch := decide) only [BitVec.extractLsb'_append_eq_of_add_le, BitVec.extractLsb'_append_eq_of_le]
  all_goals try simp only [BitVec.extractLsb'_eq_self, Nat.sub_self]
  all_goals try simp (disch := decide) only [BitVec.extractLsb'_append_eq_of_add_le, BitVec.extractLsb'_append_eq_of_le]
  all_goals simp [RawA.imm12, RawA.fmt]

/-- Its word reads back (R83). -/
theorem yield : Statement (.yield) := by
  intro bm w h
  obtain rfl := Option.some.inj h
  refine Or.inr ⟨top_packS _ _ _, mark_packS _ _ _, (candidate_20 _ _).trans ?_⟩
  delta cand20
  refine Eq.trans (if_pos ?_) ?_
  all_goals simp

/-- Its word reads back (R83). -/
theorem exit : Statement (.exit) := by
  intro bm w h
  obtain rfl := Option.some.inj h
  refine Or.inr ⟨top_packS _ _ _, mark_packS _ _ _, (candidate_20 _ _).trans ?_⟩
  delta cand20
  refine Eq.trans (if_pos ?_) ?_
  all_goals simp

/-- Its word reads back (R83). -/
theorem tretGroup : Statement (.tretGroup) := by
  intro bm w h
  obtain rfl := Option.some.inj h
  refine Or.inr ⟨top_packS _ _ _, mark_packS _ _ _, (candidate_20 _ _).trans ?_⟩
  simp only [cand20]
  all_goals simp

/-- Its word reads back (R83). -/
theorem tretLaunch : Statement (.tretLaunch) := by
  intro bm w h
  obtain rfl := Option.some.inj h
  refine Or.inr ⟨top_packS _ _ _, mark_packS _ _ _, (candidate_20 _ _).trans ?_⟩
  simp only [cand20]
  all_goals try simp (disch := decide) only [BitVec.extractLsb'_append_eq_of_add_le, BitVec.extractLsb'_append_eq_of_le]
  all_goals try simp only [BitVec.extractLsb'_eq_self, Nat.sub_self]
  all_goals simp

/-- Its word reads back (R83). -/
theorem tretRestart : Statement (.tretRestart) := by
  intro bm w h
  obtain rfl := Option.some.inj h
  refine Or.inr ⟨top_packS _ _ _, mark_packS _ _ _, (candidate_20 _ _).trans ?_⟩
  simp only [cand20]
  all_goals try simp (disch := decide) only [BitVec.extractLsb'_append_eq_of_add_le, BitVec.extractLsb'_append_eq_of_le]
  all_goals try simp only [BitVec.extractLsb'_eq_self, Nat.sub_self]
  all_goals simp

/-- Its word reads back (R83). -/
theorem tretResume : Statement (.tretResume) := by
  intro bm w h
  obtain rfl := Option.some.inj h
  refine Or.inr ⟨top_packS _ _ _, mark_packS _ _ _, (candidate_20 _ _).trans ?_⟩
  simp only [cand20]
  all_goals try simp (disch := decide) only [BitVec.extractLsb'_append_eq_of_add_le, BitVec.extractLsb'_append_eq_of_le]
  all_goals try simp only [BitVec.extractLsb'_eq_self, Nat.sub_self]
  all_goals simp

/-- Its word reads back (R83). -/
theorem sdrain : Statement (.sdrain) := by
  intro bm w h
  obtain rfl := Option.some.inj h
  refine Or.inr ⟨top_packM _ _ _, mark_packM _ _ _, (candidate_41 _ _).trans ?_⟩
  delta cand41
  refine Eq.trans (if_pos ?_) ?_
  all_goals simp

/-- Its word reads back (R83). -/
theorem fence : Statement (.fence) := by
  intro bm w h
  obtain rfl := Option.some.inj h
  refine Or.inr ⟨top_packS _ _ _, mark_packS _ _ _, (candidate_49 _ _).trans ?_⟩
  delta cand49
  refine Eq.trans (if_pos ?_) ?_
  all_goals simp

/-- An event has no word. -/
theorem sleepDeadline (h : Nat) : Statement (.sleepDeadline h) := by
  intro bm w h
  cases h

/-- An event has no word. -/
theorem storeFaultReport (h : Nat) : Statement (.storeFaultReport h) := by
  intro bm w h
  cases h

/-- An event has no word. -/
theorem waitSatisfied (h : Nat) : Statement (.waitSatisfied h) := by
  intro bm w h
  cases h

/-- An event has no word. -/
theorem orderedCommitTurn (h : Nat) : Statement (.orderedCommitTurn h) := by
  intro bm w h
  cases h

/-- An event has no word. -/
theorem firmwareCommit (h : Nat) : Statement (.firmwareCommit h) := by
  intro bm w h
  cases h

/-- An event has no word. -/
theorem copyTransferComplete (h ch id : Nat) : Statement (.copyTransferComplete h ch id) := by
  intro bm w h
  cases h

/-- An event has no word. -/
theorem copyErrorCompletion (h ch id kind : Nat) : Statement (.copyErrorCompletion h ch id kind) := by
  intro bm w h
  cases h

/-- An event has no word. -/
theorem ringSlotFill (core ring : Nat) : Statement (.ringSlotFill core ring) := by
  intro bm w h
  cases h

/-- An event has no word. -/
theorem powerPeriodBoundary (ms : List DieMeasure) : Statement (.powerPeriodBoundary ms) := by
  intro bm w h
  cases h

/-- An event has no word. -/
theorem laneHoldLimitExpiry (h : Nat) : Statement (.laneHoldLimitExpiry h) := by
  intro bm w h
  cases h

/-- An event has no word. -/
theorem currentAlarm (die : Nat) : Statement (.currentAlarm die) := by
  intro bm w h
  cases h

/-- An event has no word. -/
theorem thermalStepTick (die reading : Nat) : Statement (.thermalStepTick die reading) := by
  intro bm w h
  cases h

/-- An event has no word. -/
theorem envelopeSet (watts : Nat) (div : List Nat) : Statement (.envelopeSet watts div) := by
  intro bm w h
  cases h

/-- An event has no word. -/
theorem packetLaunch (p q : Nat) : Statement (.packetLaunch p q) := by
  intro bm w h
  cases h

/-- An event has no word. -/
theorem groupPlacement (lid core : Nat) (tfbs : List Nat) : Statement (.groupPlacement lid core tfbs) := by
  intro bm w h
  cases h

/-- An event has no word. -/
theorem dresserEvaluation (lid die : Nat) : Statement (.dresserEvaluation lid die) := by
  intro bm w h
  cases h

/-- An event has no word. -/
theorem launchRetirement (lid : Nat) : Statement (.launchRetirement lid) := by
  intro bm w h
  cases h

/-- An event has no word. -/
theorem digestRegister (lid : Nat) (ranges : List (Nat × Nat)) (addr : Nat) : Statement (.digestRegister lid ranges addr) := by
  intro bm w h
  cases h

/-- An event has no word. -/
theorem eviction (lid : Nat) : Statement (.eviction lid) := by
  intro bm w h
  cases h

/-- An event has no word. -/
theorem groupReplacement (lid grp core : Nat) : Statement (.groupReplacement lid grp core) := by
  intro bm w h
  cases h

/-- An event has no word. -/
theorem preemption (h : Nat) : Statement (.preemption h) := by
  intro bm w h
  cases h

/-- An event has no word. -/
theorem contextResume (h core : Nat) : Statement (.contextResume h core) := by
  intro bm w h
  cases h

/-- An event has no word. -/
theorem tileLazySave (lid : Nat) (at_ : SaveArea) : Statement (.tileLazySave lid at_) := by
  intro bm w h
  cases h

/-- An event has no word. -/
theorem tileReload (h t : Nat) : Statement (.tileReload h t) := by
  intro bm w h
  cases h

/-- An event has no word. -/
theorem pageFaultService (p va : Nat) (act : FaultAct) : Statement (.pageFaultService p va act) := by
  intro bm w h
  cases h

/-- An event has no word. -/
theorem shootdown (p : Nat) (page : Shot) : Statement (.shootdown p page) := by
  intro bm w h
  cases h

/-- An event has no word. -/
theorem pageMigration (p va ppn : Nat) : Statement (.pageMigration p va ppn) := by
  intro bm w h
  cases h

/-- An event has no word. -/
theorem migrationComplete (p va : Nat) : Statement (.migrationComplete p va) := by
  intro bm w h
  cases h

/-- An event has no word. -/
theorem linkCrcReplay (link fails : Nat) (who : LinkUse) (va : Nat) : Statement (.linkCrcReplay link fails who va) := by
  intro bm w h
  cases h

/-- An event has no word. -/
theorem scrubRead (stack : Nat) (lines : List Nat) : Statement (.scrubRead stack lines) := by
  intro bm w h
  cases h

/-- An event has no word. -/
theorem doorbellWrite (p q : Nat) (tail : BitVec 32) : Statement (.doorbellWrite p q tail) := by
  intro bm w h
  cases h

/-- An event has no word. -/
theorem doorbellEntryProcess (p : Nat) : Statement (.doorbellEntryProcess p) := by
  intro bm w h
  cases h

/-- An event has no word. -/
theorem qcfgWrite (p q : Nat) (val : BitVec 64) : Statement (.qcfgWrite p q val) := by
  intro bm w h
  cases h

/-- An event has no word. -/
theorem hostRegisterWrite (p q reg : Nat) (val : BitVec 64) : Statement (.hostRegisterWrite p q reg val) := by
  intro bm w h
  cases h

/-- An event has no word. -/
theorem packetNop (p q : Nat) : Statement (.packetNop p q) := by
  intro bm w h
  cases h

/-- An event has no word. -/
theorem packetWaitValue (p q : Nat) : Statement (.packetWaitValue p q) := by
  intro bm w h
  cases h

/-- An event has no word. -/
theorem waitValueComplete (p q : Nat) : Statement (.waitValueComplete p q) := by
  intro bm w h
  cases h

/-- An event has no word. -/
theorem packetWriteValue (p q : Nat) : Statement (.packetWriteValue p q) := by
  intro bm w h
  cases h

/-- An event has no word. -/
theorem packetCond (p q : Nat) : Statement (.packetCond p q) := by
  intro bm w h
  cases h

/-- An event has no word. -/
theorem packetLoop (p q : Nat) : Statement (.packetLoop p q) := by
  intro bm w h
  cases h

/-- An event has no word. -/
theorem packetIndirect (p q : Nat) : Statement (.packetIndirect p q) := by
  intro bm w h
  cases h

/-- An event has no word. -/
theorem indirectFetchAhead (p q : Nat) : Statement (.indirectFetchAhead p q) := by
  intro bm w h
  cases h

/-- An event has no word. -/
theorem packetFetchFence (p q : Nat) : Statement (.packetFetchFence p q) := by
  intro bm w h
  cases h

/-- An event has no word. -/
theorem packetCopy (p q : Nat) : Statement (.packetCopy p q) := by
  intro bm w h
  cases h

/-- An event has no word. -/
theorem packetTimestamp (p q : Nat) : Statement (.packetTimestamp p q) := by
  intro bm w h
  cases h

/-- An event has no word. -/
theorem hostRead (p : Nat) (at_ : HostPlace) (n : Nat) : Statement (.hostRead p at_ n) := by
  intro bm w h
  cases h

/-- An event has no word. -/
theorem hostWrite (p va : Nat) (bytes : List (BitVec 8)) : Statement (.hostWrite p va bytes) := by
  intro bm w h
  cases h

/-- An event has no word. -/
theorem gossipExchange (reg page slot : Nat) : Statement (.gossipExchange reg page slot) := by
  intro bm w h
  cases h

/-- An event has no word. -/
theorem gossipReceipt (port : Nat) (msg : GMsg) : Statement (.gossipReceipt port msg) := by
  intro bm w h
  cases h

/-- An event has no word. -/
theorem gossipAck (reg port seq : Nat) : Statement (.gossipAck reg port seq) := by
  intro bm w h
  cases h

/-- An event has no word. -/
theorem gossipRefusalNotice (reg port seq : Nat) : Statement (.gossipRefusalNotice reg port seq) := by
  intro bm w h
  cases h

/-- An event has no word. -/
theorem gossipRetransmit (reg port : Nat) (msg : Resend) : Statement (.gossipRetransmit reg port msg) := by
  intro bm w h
  cases h

/-- An event has no word. -/
theorem gossipAddBackRetry (reg port seq : Nat) : Statement (.gossipAddBackRetry reg port seq) := by
  intro bm w h
  cases h

/-- An event has no word. -/
theorem peerRequest (p : Nat) (way : PeerWay) (req : PeerReq) : Statement (.peerRequest p way req) := by
  intro bm w h
  cases h

/-- An event has no word. -/
theorem breakpointStop (h : Nat) : Statement (.breakpointStop h) := by
  intro bm w h
  cases h

/-- An event has no word. -/
theorem singleStep (h : Nat) (issue : Bool) : Statement (.singleStep h issue) := by
  intro bm w h
  cases h

/-- An event has no word. -/
theorem debuggerResume (h : Nat) (edits : List RegEdit) : Statement (.debuggerResume h edits) := by
  intro bm w h
  cases h

/-- An event has no word. -/
theorem mgmtCoreRestart (c : Nat) : Statement (.mgmtCoreRestart c) := by
  intro bm w h
  cases h

/-- An event has no word. -/
theorem mailboxMessage (src dst : Nat) (msg : List Nat) : Statement (.mailboxMessage src dst msg) := by
  intro bm w h
  cases h

/-- An event has no word. -/
theorem recordStart (lid : Nat) (setup : RecSetup) : Statement (.recordStart lid setup) := by
  intro bm w h
  cases h

/-- An event has no word. -/
theorem logDrain (lid stream upto : Nat) : Statement (.logDrain lid stream upto) := by
  intro bm w h
  cases h

/-- An event has no word. -/
theorem cerrClear (h ch : Nat) : Statement (.cerrClear h ch) := by
  intro bm w h
  cases h

/-- An event has no word. -/
theorem sealedMessage (p : Nat) (pages : List Nat) (msg : Sealing) : Statement (.sealedMessage p pages msg) := by
  intro bm w h
  cases h

/-- An event has no word. -/
theorem attestationReport (r : Nat) (nonce : List (BitVec 8)) : Statement (.attestationReport r nonce) := by
  intro bm w h
  cases h

/-- An event has no word. -/
theorem sealedRegionRelease (r : Nat) : Statement (.sealedRegionRelease r) := by
  intro bm w h
  cases h

/-- An event has no word. -/
theorem packageReset : Statement (.packageReset) := by
  intro bm w h
  cases h

/-- An event has no word. -/
theorem lifeCycleChange (st : Nat) : Statement (.lifeCycleChange st) := by
  intro bm w h
  cases h

/-- An event has no word. -/
theorem elementGroupAdvance (cycle : ServeCycle) : Statement (.elementGroupAdvance cycle) := by
  intro bm w h
  cases h

/-- An event has no word. -/
theorem storePerformed (h : Nat) : Statement (.storePerformed h) := by
  intro bm w h
  cases h

/-- An event has no word. -/
theorem hostLinkLost : Statement (.hostLinkLost) := by
  intro bm w h
  cases h

/-- An event has no word. -/
theorem cxlLinkDown (port : Nat) (lines : List Nat) : Statement (.cxlLinkDown port lines) := by
  intro bm w h
  cases h

/-- An event has no word. -/
theorem storedDataError (at_ : DataErr) : Statement (.storedDataError at_) := by
  intro bm w h
  cases h

/-- An event has no word. -/
theorem breakpointSet (p : Nat) (pc : BitVec 64) (add : Bool) : Statement (.breakpointSet p pc add) := by
  intro bm w h
  cases h

/-- An event has no word. -/
theorem debuggerInterrupt (h : Nat) : Statement (.debuggerInterrupt h) := by
  intro bm w h
  cases h

/-- An event has no word. -/
theorem traceEnable (die base size : Nat) (en : Bool) : Statement (.traceEnable die base size en) := by
  intro bm w h
  cases h

/-- An event has no word. -/
theorem budgetSet (cls unit val : Nat) : Statement (.budgetSet cls unit val) := by
  intro bm w h
  cases h

/-- An event has no word. -/
theorem powerFirmwareLimitsSet (what unit val : Nat) : Statement (.powerFirmwareLimitsSet what unit val) := by
  intro bm w h
  cases h

/-- An event has no word. -/
theorem partitionSetup (setup : PartSetup) : Statement (.partitionSetup setup) := by
  intro bm w h
  cases h

/-- An event has no word. -/
theorem portLost (port : Nat) (got : Option (List (Nat × Nat))) (told : List (Nat × Nat)) (cut : Fencing) : Statement (.portLost port got told cut) := by
  intro bm w h
  cases h

end Sys2Proof.Laws.ReadsBack
end

