-- ==== Sys2Proof/Laws/State.lean ====
section
/-!
SUPPORT. What the updates that every meaning uses leave of each field: writing a g register, changing the saved registers,
raising flags, advancing, retiring, and the passing of time.
-/

namespace Sys2Proof.Machine

/-! Writing a g register (R144) changes the g registers only. -/

@[simp] theorem wr_hid (h : Hart) (r : GReg) (x : Word) : (h.wr r x).hid = h.hid := by unfold Hart.wr; split <;> rfl
@[simp] theorem wr_status (h : Hart) (r : GReg) (x : Word) : (h.wr r x).status = h.status := by unfold Hart.wr; split <;> rfl
@[simp] theorem wr_lid (h : Hart) (r : GReg) (x : Word) : (h.wr r x).lid = h.lid := by unfold Hart.wr; split <;> rfl
@[simp] theorem wr_grp (h : Hart) (r : GReg) (x : Word) : (h.wr r x).grp = h.grp := by unfold Hart.wr; split <;> rfl
@[simp] theorem wr_idx (h : Hart) (r : GReg) (x : Word) : (h.wr r x).idx = h.idx := by unfold Hart.wr; split <;> rfl
@[simp] theorem wr_part (h : Hart) (r : GReg) (x : Word) : (h.wr r x).part = h.part := by unfold Hart.wr; split <;> rfl
@[simp] theorem wr_core (h : Hart) (r : GReg) (x : Word) : (h.wr r x).core = h.core := by unfold Hart.wr; split <;> rfl
@[simp] theorem wr_slot (h : Hart) (r : GReg) (x : Word) : (h.wr r x).slot = h.slot := by unfold Hart.wr; split <;> rfl
@[simp] theorem wr_weight (h : Hart) (r : GReg) (x : Word) : (h.wr r x).weight = h.weight := by unfold Hart.wr; split <;> rfl
@[simp] theorem wr_strict (h : Hart) (r : GReg) (x : Word) : (h.wr r x).strict = h.strict := by unfold Hart.wr; split <;> rfl
@[simp] theorem wr_ordered (h : Hart) (r : GReg) (x : Word) : (h.wr r x).ordered = h.ordered := by unfold Hart.wr; split <;> rfl
@[simp] theorem wr_coplace (h : Hart) (r : GReg) (x : Word) : (h.wr r x).coplace = h.coplace := by unfold Hart.wr; split <;> rfl
@[simp] theorem wr_priv (h : Hart) (r : GReg) (x : Word) : (h.wr r x).priv = h.priv := by unfold Hart.wr; split <;> rfl
@[simp] theorem wr_hpg (h : Hart) (r : GReg) (x : Word) : (h.wr r x).hpg = h.hpg := by unfold Hart.wr; split <;> rfl
@[simp] theorem wr_widths (h : Hart) (r : GReg) (x : Word) : (h.wr r x).widths = h.widths := by unfold Hart.wr; split <;> rfl
@[simp] theorem wr_args (h : Hart) (r : GReg) (x : Word) : (h.wr r x).args = h.args := by unfold Hart.wr; split <;> rfl
@[simp] theorem wr_nargs (h : Hart) (r : GReg) (x : Word) : (h.wr r x).nargs = h.nargs := by unfold Hart.wr; split <;> rfl
@[simp] theorem wr_lprio (h : Hart) (r : GReg) (x : Word) : (h.wr r x).lprio = h.lprio := by unfold Hart.wr; split <;> rfl
@[simp] theorem wr_tw (h : Hart) (r : GReg) (x : Word) : (h.wr r x).tw = h.tw := by unfold Hart.wr; split <;> rfl
@[simp] theorem wr_ntiles (h : Hart) (r : GReg) (x : Word) : (h.wr r x).ntiles = h.ntiles := by unfold Hart.wr; split <;> rfl
@[simp] theorem wr_xcap (h : Hart) (r : GReg) (x : Word) : (h.wr r x).xcap = h.xcap := by unfold Hart.wr; split <;> rfl
@[simp] theorem wr_vcap (h : Hart) (r : GReg) (x : Word) : (h.wr r x).vcap = h.vcap := by unfold Hart.wr; split <;> rfl
@[simp] theorem wr_cbud (h : Hart) (r : GReg) (x : Word) : (h.wr r x).cbud = h.cbud := by unfold Hart.wr; split <;> rfl
@[simp] theorem wr_sealed (h : Hart) (r : GReg) (x : Word) : (h.wr r x).sealed = h.sealed := by unfold Hart.wr; split <;> rfl
@[simp] theorem wr_wid (h : Hart) (r : GReg) (x : Word) : (h.wr r x).wid = h.wid := by unfold Hart.wr; split <;> rfl
@[simp] theorem wr_hframe (h : Hart) (r : GReg) (x : Word) : (h.wr r x).hframe = h.hframe := by unfold Hart.wr; split <;> rfl
@[simp] theorem wr_vq (h : Hart) (r : GReg) (x : Word) : (h.wr r x).vq = h.vq := by unfold Hart.wr; split <;> rfl
@[simp] theorem wr_prog (h : Hart) (r : GReg) (x : Word) : (h.wr r x).prog = h.prog := by unfold Hart.wr; split <;> rfl
@[simp] theorem wr_spx (h : Hart) (r : GReg) (x : Word) : (h.wr r x).spx = h.spx := by unfold Hart.wr; split <;> rfl
@[simp] theorem wr_sq (h : Hart) (r : GReg) (x : Word) : (h.wr r x).sq = h.sq := by unfold Hart.wr; split <;> rfl
@[simp] theorem wr_wait (h : Hart) (r : GReg) (x : Word) : (h.wr r x).wait = h.wait := by unfold Hart.wr; split <;> rfl
@[simp] theorem wr_since (h : Hart) (r : GReg) (x : Word) : (h.wr r x).since = h.since := by unfold Hart.wr; split <;> rfl
@[simp] theorem wr_capWait (h : Hart) (r : GReg) (x : Word) : (h.wr r x).capWait = h.capWait := by unfold Hart.wr; split <;> rfl
@[simp] theorem wr_redo (h : Hart) (r : GReg) (x : Word) : (h.wr r x).redo = h.redo := by unfold Hart.wr; split <;> rfl
@[simp] theorem wr_owed (h : Hart) (r : GReg) (x : Word) : (h.wr r x).owed = h.owed := by unfold Hart.wr; split <;> rfl
@[simp] theorem wr_trap (h : Hart) (r : GReg) (x : Word) : (h.wr r x).trap = h.trap := by unfold Hart.wr; split <;> rfl
@[simp] theorem wr_tfb (h : Hart) (r : GReg) (x : Word) : (h.wr r x).tfb = h.tfb := by unfold Hart.wr; split <;> rfl
@[simp] theorem wr_sfq (h : Hart) (r : GReg) (x : Word) : (h.wr r x).sfq = h.sfq := by unfold Hart.wr; split <;> rfl
@[simp] theorem wr_sfHeld (h : Hart) (r : GReg) (x : Word) : (h.wr r x).sfHeld = h.sfHeld := by unfold Hart.wr; split <;> rfl
@[simp] theorem wr_phn (h : Hart) (r : GReg) (x : Word) : (h.wr r x).phn = h.phn := by unfold Hart.wr; split <;> rfl
@[simp] theorem wr_pts (h : Hart) (r : GReg) (x : Word) : (h.wr r x).pts = h.pts := by unfold Hart.wr; split <;> rfl
@[simp] theorem wr_cmn (h : Hart) (r : GReg) (x : Word) : (h.wr r x).cmn = h.cmn := by unfold Hart.wr; split <;> rfl
@[simp] theorem wr_snapSeq (h : Hart) (r : GReg) (x : Word) : (h.wr r x).snapSeq = h.snapSeq := by unfold Hart.wr; split <;> rfl
@[simp] theorem wr_lost (h : Hart) (r : GReg) (x : Word) : (h.wr r x).lost = h.lost := by unfold Hart.wr; split <;> rfl
@[simp] theorem wr_abrt (h : Hart) (r : GReg) (x : Word) : (h.wr r x).abrt = h.abrt := by unfold Hart.wr; split <;> rfl
@[simp] theorem wr_ovf (h : Hart) (r : GReg) (x : Word) : (h.wr r x).ovf = h.ovf := by unfold Hart.wr; split <;> rfl
@[simp] theorem wr_ver (h : Hart) (r : GReg) (x : Word) : (h.wr r x).ver = h.ver := by unfold Hart.wr; split <;> rfl
@[simp] theorem wr_defer (h : Hart) (r : GReg) (x : Word) : (h.wr r x).defer = h.defer := by unfold Hart.wr; split <;> rfl
@[simp] theorem wr_intents (h : Hart) (r : GReg) (x : Word) : (h.wr r x).intents = h.intents := by unfold Hart.wr; split <;> rfl
@[simp] theorem wr_defs (h : Hart) (r : GReg) (x : Word) : (h.wr r x).defs = h.defs := by unfold Hart.wr; split <;> rfl
@[simp] theorem wr_reads (h : Hart) (r : GReg) (x : Word) : (h.wr r x).reads = h.reads := by unfold Hart.wr; split <;> rfl
@[simp] theorem wr_frame (h : Hart) (r : GReg) (x : Word) : (h.wr r x).frame = h.frame := by unfold Hart.wr; split <;> rfl
@[simp] theorem wr_half (h : Hart) (r : GReg) (x : Word) : (h.wr r x).half = h.half := by unfold Hart.wr; split <;> rfl
@[simp] theorem wr_due (h : Hart) (r : GReg) (x : Word) : (h.wr r x).due = h.due := by unfold Hart.wr; split <;> rfl
@[simp] theorem wr_logWait (h : Hart) (r : GReg) (x : Word) : (h.wr r x).logWait = h.logWait := by unfold Hart.wr; split <;> rfl
@[simp] theorem wr_chans (h : Hart) (r : GReg) (x : Word) : (h.wr r x).chans = h.chans := by unfold Hart.wr; split <;> rfl
@[simp] theorem wr_tiles (h : Hart) (r : GReg) (x : Word) : (h.wr r x).tiles = h.tiles := by unfold Hart.wr; split <;> rfl
@[simp] theorem wr_xents (h : Hart) (r : GReg) (x : Word) : (h.wr r x).xents = h.xents := by unfold Hart.wr; split <;> rfl
@[simp] theorem wr_xPlace (h : Hart) (r : GReg) (x : Word) : (h.wr r x).xPlace = h.xPlace := by unfold Hart.wr; split <;> rfl
@[simp] theorem wr_room (h : Hart) (r : GReg) (x : Word) : (h.wr r x).room = h.room := by unfold Hart.wr; split <;> rfl
@[simp] theorem wr_offer (h : Hart) (r : GReg) (x : Word) : (h.wr r x).offer = h.offer := by unfold Hart.wr; split <;> rfl
@[simp] theorem wr_req (h : Hart) (r : GReg) (x : Word) : (h.wr r x).req = h.req := by unfold Hart.wr; split <;> rfl
@[simp] theorem wr_hstep (h : Hart) (r : GReg) (x : Word) : (h.wr r x).hstep = h.hstep := by unfold Hart.wr; split <;> rfl
@[simp] theorem wr_overSince (h : Hart) (r : GReg) (x : Word) : (h.wr r x).overSince = h.overSince := by unfold Hart.wr; split <;> rfl
@[simp] theorem wr_target (h : Hart) (r : GReg) (x : Word) : (h.wr r x).target = h.target := by unfold Hart.wr; split <;> rfl
@[simp] theorem wr_offered (h : Hart) (r : GReg) (x : Word) : (h.wr r x).offered = h.offered := by unfold Hart.wr; split <;> rfl
@[simp] theorem wr_owes (h : Hart) (r : GReg) (x : Word) : (h.wr r x).owes = h.owes := by unfold Hart.wr; split <;> rfl
@[simp] theorem wr_owesTill (h : Hart) (r : GReg) (x : Word) : (h.wr r x).owesTill = h.owesTill := by unfold Hart.wr; split <;> rfl
@[simp] theorem wr_retired (h : Hart) (r : GReg) (x : Word) : (h.wr r x).retired = h.retired := by unfold Hart.wr; split <;> rfl
@[simp] theorem wr_mark (h : Hart) (r : GReg) (x : Word) : (h.wr r x).mark = h.mark := by unfold Hart.wr; split <;> rfl
@[simp] theorem wr_stepping (h : Hart) (r : GReg) (x : Word) : (h.wr r x).stepping = h.stepping := by unfold Hart.wr; split <;> rfl
@[simp] theorem wr_stepPc (h : Hart) (r : GReg) (x : Word) : (h.wr r x).stepPc = h.stepPc := by unfold Hart.wr; split <;> rfl
@[simp] theorem wr_stepIter (h : Hart) (r : GReg) (x : Word) : (h.wr r x).stepIter = h.stepIter := by unfold Hart.wr; split <;> rfl
@[simp] theorem wr_code (h : Hart) (r : GReg) (x : Word) : (h.wr r x).code = h.code := by unfold Hart.wr; split <;> rfl
@[simp] theorem wr_pass (h : Hart) (r : GReg) (x : Word) : (h.wr r x).pass = h.pass := by unfold Hart.wr; split <;> rfl
@[simp] theorem wr_rdexp (h : Hart) (r : GReg) (x : Word) : (h.wr r x).rdexp = h.rdexp := by unfold Hart.wr; split <;> rfl
@[simp] theorem wr_rdact (h : Hart) (r : GReg) (x : Word) : (h.wr r x).rdact = h.rdact := by unfold Hart.wr; split <;> rfl
@[simp] theorem wr_evts (h : Hart) (r : GReg) (x : Word) : (h.wr r x).evts = h.evts := by unfold Hart.wr; split <;> rfl
@[simp] theorem wr_ctx_pc (h : Hart) (r : GReg) (x : Word) : (h.wr r x).ctx.pc = h.ctx.pc := by unfold Hart.wr; split <;> rfl
@[simp] theorem wr_ctx_resid (h : Hart) (r : GReg) (x : Word) : (h.wr r x).ctx.resid = h.ctx.resid := by unfold Hart.wr; split <;> rfl
@[simp] theorem wr_ctx_iter (h : Hart) (r : GReg) (x : Word) : (h.wr r x).ctx.iter = h.ctx.iter := by unfold Hart.wr; split <;> rfl
@[simp] theorem wr_ctx_v (h : Hart) (r : GReg) (x : Word) : (h.wr r x).ctx.v = h.ctx.v := by unfold Hart.wr; split <;> rfl
@[simp] theorem wr_ctx_m (h : Hart) (r : GReg) (x : Word) : (h.wr r x).ctx.m = h.ctx.m := by unfold Hart.wr; split <;> rfl
@[simp] theorem wr_ctx_sc (h : Hart) (r : GReg) (x : Word) : (h.wr r x).ctx.sc = h.ctx.sc := by unfold Hart.wr; split <;> rfl
@[simp] theorem wr_ctx_a (h : Hart) (r : GReg) (x : Word) : (h.wr r x).ctx.a = h.ctx.a := by unfold Hart.wr; split <;> rfl
@[simp] theorem wr_ctx_vl (h : Hart) (r : GReg) (x : Word) : (h.wr r x).ctx.vl = h.ctx.vl := by unfold Hart.wr; split <;> rfl
@[simp] theorem wr_ctx_nr (h : Hart) (r : GReg) (x : Word) : (h.wr r x).ctx.nr = h.ctx.nr := by unfold Hart.wr; split <;> rfl
@[simp] theorem wr_ctx_fmt (h : Hart) (r : GReg) (x : Word) : (h.wr r x).ctx.fmt = h.ctx.fmt := by unfold Hart.wr; split <;> rfl
@[simp] theorem wr_ctx_blk (h : Hart) (r : GReg) (x : Word) : (h.wr r x).ctx.blk = h.ctx.blk := by unfold Hart.wr; split <;> rfl
@[simp] theorem wr_ctx_rm (h : Hart) (r : GReg) (x : Word) : (h.wr r x).ctx.rm = h.ctx.rm := by unfold Hart.wr; split <;> rfl
@[simp] theorem wr_ctx_fflags (h : Hart) (r : GReg) (x : Word) : (h.wr r x).ctx.fflags = h.ctx.fflags := by unfold Hart.wr; split <;> rfl
@[simp] theorem wr_ctx_vbeg (h : Hart) (r : GReg) (x : Word) : (h.wr r x).ctx.vbeg = h.ctx.vbeg := by unfold Hart.wr; split <;> rfl
@[simp] theorem wr_ctx_held (h : Hart) (r : GReg) (x : Word) : (h.wr r x).ctx.held = h.ctx.held := by unfold Hart.wr; split <;> rfl
@[simp] theorem wr_ctx_thb (h : Hart) (r : GReg) (x : Word) : (h.wr r x).ctx.thb = h.ctx.thb := by unfold Hart.wr; split <;> rfl
@[simp] theorem wr_ctx_thmask (h : Hart) (r : GReg) (x : Word) : (h.wr r x).ctx.thmask = h.ctx.thmask := by unfold Hart.wr; split <;> rfl
@[simp] theorem wr_ctx_fpk (h : Hart) (r : GReg) (x : Word) : (h.wr r x).ctx.fpk = h.ctx.fpk := by unfold Hart.wr; split <;> rfl
@[simp] theorem wr_ctx_prio (h : Hart) (r : GReg) (x : Word) : (h.wr r x).ctx.prio = h.ctx.prio := by unfold Hart.wr; split <;> rfl

/-! Changing the saved registers leaves the rest of a hart. -/

@[simp] theorem onCtx_hid (h : Hart) (k : Ctx → Ctx) : (h.onCtx k).hid = h.hid := rfl
@[simp] theorem onCtx_status (h : Hart) (k : Ctx → Ctx) : (h.onCtx k).status = h.status := rfl
@[simp] theorem onCtx_lid (h : Hart) (k : Ctx → Ctx) : (h.onCtx k).lid = h.lid := rfl
@[simp] theorem onCtx_grp (h : Hart) (k : Ctx → Ctx) : (h.onCtx k).grp = h.grp := rfl
@[simp] theorem onCtx_idx (h : Hart) (k : Ctx → Ctx) : (h.onCtx k).idx = h.idx := rfl
@[simp] theorem onCtx_part (h : Hart) (k : Ctx → Ctx) : (h.onCtx k).part = h.part := rfl
@[simp] theorem onCtx_core (h : Hart) (k : Ctx → Ctx) : (h.onCtx k).core = h.core := rfl
@[simp] theorem onCtx_slot (h : Hart) (k : Ctx → Ctx) : (h.onCtx k).slot = h.slot := rfl
@[simp] theorem onCtx_weight (h : Hart) (k : Ctx → Ctx) : (h.onCtx k).weight = h.weight := rfl
@[simp] theorem onCtx_strict (h : Hart) (k : Ctx → Ctx) : (h.onCtx k).strict = h.strict := rfl
@[simp] theorem onCtx_ordered (h : Hart) (k : Ctx → Ctx) : (h.onCtx k).ordered = h.ordered := rfl
@[simp] theorem onCtx_coplace (h : Hart) (k : Ctx → Ctx) : (h.onCtx k).coplace = h.coplace := rfl
@[simp] theorem onCtx_priv (h : Hart) (k : Ctx → Ctx) : (h.onCtx k).priv = h.priv := rfl
@[simp] theorem onCtx_hpg (h : Hart) (k : Ctx → Ctx) : (h.onCtx k).hpg = h.hpg := rfl
@[simp] theorem onCtx_widths (h : Hart) (k : Ctx → Ctx) : (h.onCtx k).widths = h.widths := rfl
@[simp] theorem onCtx_args (h : Hart) (k : Ctx → Ctx) : (h.onCtx k).args = h.args := rfl
@[simp] theorem onCtx_nargs (h : Hart) (k : Ctx → Ctx) : (h.onCtx k).nargs = h.nargs := rfl
@[simp] theorem onCtx_lprio (h : Hart) (k : Ctx → Ctx) : (h.onCtx k).lprio = h.lprio := rfl
@[simp] theorem onCtx_tw (h : Hart) (k : Ctx → Ctx) : (h.onCtx k).tw = h.tw := rfl
@[simp] theorem onCtx_ntiles (h : Hart) (k : Ctx → Ctx) : (h.onCtx k).ntiles = h.ntiles := rfl
@[simp] theorem onCtx_xcap (h : Hart) (k : Ctx → Ctx) : (h.onCtx k).xcap = h.xcap := rfl
@[simp] theorem onCtx_vcap (h : Hart) (k : Ctx → Ctx) : (h.onCtx k).vcap = h.vcap := rfl
@[simp] theorem onCtx_cbud (h : Hart) (k : Ctx → Ctx) : (h.onCtx k).cbud = h.cbud := rfl
@[simp] theorem onCtx_sealed (h : Hart) (k : Ctx → Ctx) : (h.onCtx k).sealed = h.sealed := rfl
@[simp] theorem onCtx_wid (h : Hart) (k : Ctx → Ctx) : (h.onCtx k).wid = h.wid := rfl
@[simp] theorem onCtx_hframe (h : Hart) (k : Ctx → Ctx) : (h.onCtx k).hframe = h.hframe := rfl
@[simp] theorem onCtx_vq (h : Hart) (k : Ctx → Ctx) : (h.onCtx k).vq = h.vq := rfl
@[simp] theorem onCtx_prog (h : Hart) (k : Ctx → Ctx) : (h.onCtx k).prog = h.prog := rfl
@[simp] theorem onCtx_spx (h : Hart) (k : Ctx → Ctx) : (h.onCtx k).spx = h.spx := rfl
@[simp] theorem onCtx_sq (h : Hart) (k : Ctx → Ctx) : (h.onCtx k).sq = h.sq := rfl
@[simp] theorem onCtx_wait (h : Hart) (k : Ctx → Ctx) : (h.onCtx k).wait = h.wait := rfl
@[simp] theorem onCtx_since (h : Hart) (k : Ctx → Ctx) : (h.onCtx k).since = h.since := rfl
@[simp] theorem onCtx_capWait (h : Hart) (k : Ctx → Ctx) : (h.onCtx k).capWait = h.capWait := rfl
@[simp] theorem onCtx_redo (h : Hart) (k : Ctx → Ctx) : (h.onCtx k).redo = h.redo := rfl
@[simp] theorem onCtx_owed (h : Hart) (k : Ctx → Ctx) : (h.onCtx k).owed = h.owed := rfl
@[simp] theorem onCtx_trap (h : Hart) (k : Ctx → Ctx) : (h.onCtx k).trap = h.trap := rfl
@[simp] theorem onCtx_tfb (h : Hart) (k : Ctx → Ctx) : (h.onCtx k).tfb = h.tfb := rfl
@[simp] theorem onCtx_sfq (h : Hart) (k : Ctx → Ctx) : (h.onCtx k).sfq = h.sfq := rfl
@[simp] theorem onCtx_sfHeld (h : Hart) (k : Ctx → Ctx) : (h.onCtx k).sfHeld = h.sfHeld := rfl
@[simp] theorem onCtx_phn (h : Hart) (k : Ctx → Ctx) : (h.onCtx k).phn = h.phn := rfl
@[simp] theorem onCtx_pts (h : Hart) (k : Ctx → Ctx) : (h.onCtx k).pts = h.pts := rfl
@[simp] theorem onCtx_cmn (h : Hart) (k : Ctx → Ctx) : (h.onCtx k).cmn = h.cmn := rfl
@[simp] theorem onCtx_snapSeq (h : Hart) (k : Ctx → Ctx) : (h.onCtx k).snapSeq = h.snapSeq := rfl
@[simp] theorem onCtx_lost (h : Hart) (k : Ctx → Ctx) : (h.onCtx k).lost = h.lost := rfl
@[simp] theorem onCtx_abrt (h : Hart) (k : Ctx → Ctx) : (h.onCtx k).abrt = h.abrt := rfl
@[simp] theorem onCtx_ovf (h : Hart) (k : Ctx → Ctx) : (h.onCtx k).ovf = h.ovf := rfl
@[simp] theorem onCtx_ver (h : Hart) (k : Ctx → Ctx) : (h.onCtx k).ver = h.ver := rfl
@[simp] theorem onCtx_defer (h : Hart) (k : Ctx → Ctx) : (h.onCtx k).defer = h.defer := rfl
@[simp] theorem onCtx_intents (h : Hart) (k : Ctx → Ctx) : (h.onCtx k).intents = h.intents := rfl
@[simp] theorem onCtx_defs (h : Hart) (k : Ctx → Ctx) : (h.onCtx k).defs = h.defs := rfl
@[simp] theorem onCtx_reads (h : Hart) (k : Ctx → Ctx) : (h.onCtx k).reads = h.reads := rfl
@[simp] theorem onCtx_frame (h : Hart) (k : Ctx → Ctx) : (h.onCtx k).frame = h.frame := rfl
@[simp] theorem onCtx_half (h : Hart) (k : Ctx → Ctx) : (h.onCtx k).half = h.half := rfl
@[simp] theorem onCtx_due (h : Hart) (k : Ctx → Ctx) : (h.onCtx k).due = h.due := rfl
@[simp] theorem onCtx_logWait (h : Hart) (k : Ctx → Ctx) : (h.onCtx k).logWait = h.logWait := rfl
@[simp] theorem onCtx_chans (h : Hart) (k : Ctx → Ctx) : (h.onCtx k).chans = h.chans := rfl
@[simp] theorem onCtx_tiles (h : Hart) (k : Ctx → Ctx) : (h.onCtx k).tiles = h.tiles := rfl
@[simp] theorem onCtx_xents (h : Hart) (k : Ctx → Ctx) : (h.onCtx k).xents = h.xents := rfl
@[simp] theorem onCtx_xPlace (h : Hart) (k : Ctx → Ctx) : (h.onCtx k).xPlace = h.xPlace := rfl
@[simp] theorem onCtx_room (h : Hart) (k : Ctx → Ctx) : (h.onCtx k).room = h.room := rfl
@[simp] theorem onCtx_offer (h : Hart) (k : Ctx → Ctx) : (h.onCtx k).offer = h.offer := rfl
@[simp] theorem onCtx_req (h : Hart) (k : Ctx → Ctx) : (h.onCtx k).req = h.req := rfl
@[simp] theorem onCtx_hstep (h : Hart) (k : Ctx → Ctx) : (h.onCtx k).hstep = h.hstep := rfl
@[simp] theorem onCtx_overSince (h : Hart) (k : Ctx → Ctx) : (h.onCtx k).overSince = h.overSince := rfl
@[simp] theorem onCtx_target (h : Hart) (k : Ctx → Ctx) : (h.onCtx k).target = h.target := rfl
@[simp] theorem onCtx_offered (h : Hart) (k : Ctx → Ctx) : (h.onCtx k).offered = h.offered := rfl
@[simp] theorem onCtx_owes (h : Hart) (k : Ctx → Ctx) : (h.onCtx k).owes = h.owes := rfl
@[simp] theorem onCtx_owesTill (h : Hart) (k : Ctx → Ctx) : (h.onCtx k).owesTill = h.owesTill := rfl
@[simp] theorem onCtx_retired (h : Hart) (k : Ctx → Ctx) : (h.onCtx k).retired = h.retired := rfl
@[simp] theorem onCtx_mark (h : Hart) (k : Ctx → Ctx) : (h.onCtx k).mark = h.mark := rfl
@[simp] theorem onCtx_stepping (h : Hart) (k : Ctx → Ctx) : (h.onCtx k).stepping = h.stepping := rfl
@[simp] theorem onCtx_stepPc (h : Hart) (k : Ctx → Ctx) : (h.onCtx k).stepPc = h.stepPc := rfl
@[simp] theorem onCtx_stepIter (h : Hart) (k : Ctx → Ctx) : (h.onCtx k).stepIter = h.stepIter := rfl
@[simp] theorem onCtx_code (h : Hart) (k : Ctx → Ctx) : (h.onCtx k).code = h.code := rfl
@[simp] theorem onCtx_pass (h : Hart) (k : Ctx → Ctx) : (h.onCtx k).pass = h.pass := rfl
@[simp] theorem onCtx_rdexp (h : Hart) (k : Ctx → Ctx) : (h.onCtx k).rdexp = h.rdexp := rfl
@[simp] theorem onCtx_rdact (h : Hart) (k : Ctx → Ctx) : (h.onCtx k).rdact = h.rdact := rfl
@[simp] theorem onCtx_evts (h : Hart) (k : Ctx → Ctx) : (h.onCtx k).evts = h.evts := rfl
@[simp] theorem onCtx_ctx (h : Hart) (k : Ctx → Ctx) : (h.onCtx k).ctx = k h.ctx := rfl

/-! Raising flags (R40). -/

@[simp] theorem raise_hid (h : Hart) (fl : BitVec 5) : (h.raise fl).hid = h.hid := rfl
@[simp] theorem raise_status (h : Hart) (fl : BitVec 5) : (h.raise fl).status = h.status := rfl
@[simp] theorem raise_lid (h : Hart) (fl : BitVec 5) : (h.raise fl).lid = h.lid := rfl
@[simp] theorem raise_grp (h : Hart) (fl : BitVec 5) : (h.raise fl).grp = h.grp := rfl
@[simp] theorem raise_idx (h : Hart) (fl : BitVec 5) : (h.raise fl).idx = h.idx := rfl
@[simp] theorem raise_part (h : Hart) (fl : BitVec 5) : (h.raise fl).part = h.part := rfl
@[simp] theorem raise_core (h : Hart) (fl : BitVec 5) : (h.raise fl).core = h.core := rfl
@[simp] theorem raise_slot (h : Hart) (fl : BitVec 5) : (h.raise fl).slot = h.slot := rfl
@[simp] theorem raise_weight (h : Hart) (fl : BitVec 5) : (h.raise fl).weight = h.weight := rfl
@[simp] theorem raise_strict (h : Hart) (fl : BitVec 5) : (h.raise fl).strict = h.strict := rfl
@[simp] theorem raise_ordered (h : Hart) (fl : BitVec 5) : (h.raise fl).ordered = h.ordered := rfl
@[simp] theorem raise_coplace (h : Hart) (fl : BitVec 5) : (h.raise fl).coplace = h.coplace := rfl
@[simp] theorem raise_priv (h : Hart) (fl : BitVec 5) : (h.raise fl).priv = h.priv := rfl
@[simp] theorem raise_hpg (h : Hart) (fl : BitVec 5) : (h.raise fl).hpg = h.hpg := rfl
@[simp] theorem raise_widths (h : Hart) (fl : BitVec 5) : (h.raise fl).widths = h.widths := rfl
@[simp] theorem raise_args (h : Hart) (fl : BitVec 5) : (h.raise fl).args = h.args := rfl
@[simp] theorem raise_nargs (h : Hart) (fl : BitVec 5) : (h.raise fl).nargs = h.nargs := rfl
@[simp] theorem raise_lprio (h : Hart) (fl : BitVec 5) : (h.raise fl).lprio = h.lprio := rfl
@[simp] theorem raise_tw (h : Hart) (fl : BitVec 5) : (h.raise fl).tw = h.tw := rfl
@[simp] theorem raise_ntiles (h : Hart) (fl : BitVec 5) : (h.raise fl).ntiles = h.ntiles := rfl
@[simp] theorem raise_xcap (h : Hart) (fl : BitVec 5) : (h.raise fl).xcap = h.xcap := rfl
@[simp] theorem raise_vcap (h : Hart) (fl : BitVec 5) : (h.raise fl).vcap = h.vcap := rfl
@[simp] theorem raise_cbud (h : Hart) (fl : BitVec 5) : (h.raise fl).cbud = h.cbud := rfl
@[simp] theorem raise_sealed (h : Hart) (fl : BitVec 5) : (h.raise fl).sealed = h.sealed := rfl
@[simp] theorem raise_wid (h : Hart) (fl : BitVec 5) : (h.raise fl).wid = h.wid := rfl
@[simp] theorem raise_hframe (h : Hart) (fl : BitVec 5) : (h.raise fl).hframe = h.hframe := rfl
@[simp] theorem raise_vq (h : Hart) (fl : BitVec 5) : (h.raise fl).vq = h.vq := rfl
@[simp] theorem raise_prog (h : Hart) (fl : BitVec 5) : (h.raise fl).prog = h.prog := rfl
@[simp] theorem raise_spx (h : Hart) (fl : BitVec 5) : (h.raise fl).spx = h.spx := rfl
@[simp] theorem raise_sq (h : Hart) (fl : BitVec 5) : (h.raise fl).sq = h.sq := rfl
@[simp] theorem raise_wait (h : Hart) (fl : BitVec 5) : (h.raise fl).wait = h.wait := rfl
@[simp] theorem raise_since (h : Hart) (fl : BitVec 5) : (h.raise fl).since = h.since := rfl
@[simp] theorem raise_capWait (h : Hart) (fl : BitVec 5) : (h.raise fl).capWait = h.capWait := rfl
@[simp] theorem raise_redo (h : Hart) (fl : BitVec 5) : (h.raise fl).redo = h.redo := rfl
@[simp] theorem raise_owed (h : Hart) (fl : BitVec 5) : (h.raise fl).owed = h.owed := rfl
@[simp] theorem raise_trap (h : Hart) (fl : BitVec 5) : (h.raise fl).trap = h.trap := rfl
@[simp] theorem raise_tfb (h : Hart) (fl : BitVec 5) : (h.raise fl).tfb = h.tfb := rfl
@[simp] theorem raise_sfq (h : Hart) (fl : BitVec 5) : (h.raise fl).sfq = h.sfq := rfl
@[simp] theorem raise_sfHeld (h : Hart) (fl : BitVec 5) : (h.raise fl).sfHeld = h.sfHeld := rfl
@[simp] theorem raise_phn (h : Hart) (fl : BitVec 5) : (h.raise fl).phn = h.phn := rfl
@[simp] theorem raise_pts (h : Hart) (fl : BitVec 5) : (h.raise fl).pts = h.pts := rfl
@[simp] theorem raise_cmn (h : Hart) (fl : BitVec 5) : (h.raise fl).cmn = h.cmn := rfl
@[simp] theorem raise_snapSeq (h : Hart) (fl : BitVec 5) : (h.raise fl).snapSeq = h.snapSeq := rfl
@[simp] theorem raise_lost (h : Hart) (fl : BitVec 5) : (h.raise fl).lost = h.lost := rfl
@[simp] theorem raise_abrt (h : Hart) (fl : BitVec 5) : (h.raise fl).abrt = h.abrt := rfl
@[simp] theorem raise_ovf (h : Hart) (fl : BitVec 5) : (h.raise fl).ovf = h.ovf := rfl
@[simp] theorem raise_ver (h : Hart) (fl : BitVec 5) : (h.raise fl).ver = h.ver := rfl
@[simp] theorem raise_defer (h : Hart) (fl : BitVec 5) : (h.raise fl).defer = h.defer := rfl
@[simp] theorem raise_intents (h : Hart) (fl : BitVec 5) : (h.raise fl).intents = h.intents := rfl
@[simp] theorem raise_defs (h : Hart) (fl : BitVec 5) : (h.raise fl).defs = h.defs := rfl
@[simp] theorem raise_reads (h : Hart) (fl : BitVec 5) : (h.raise fl).reads = h.reads := rfl
@[simp] theorem raise_frame (h : Hart) (fl : BitVec 5) : (h.raise fl).frame = h.frame := rfl
@[simp] theorem raise_half (h : Hart) (fl : BitVec 5) : (h.raise fl).half = h.half := rfl
@[simp] theorem raise_due (h : Hart) (fl : BitVec 5) : (h.raise fl).due = h.due := rfl
@[simp] theorem raise_logWait (h : Hart) (fl : BitVec 5) : (h.raise fl).logWait = h.logWait := rfl
@[simp] theorem raise_chans (h : Hart) (fl : BitVec 5) : (h.raise fl).chans = h.chans := rfl
@[simp] theorem raise_tiles (h : Hart) (fl : BitVec 5) : (h.raise fl).tiles = h.tiles := rfl
@[simp] theorem raise_xents (h : Hart) (fl : BitVec 5) : (h.raise fl).xents = h.xents := rfl
@[simp] theorem raise_xPlace (h : Hart) (fl : BitVec 5) : (h.raise fl).xPlace = h.xPlace := rfl
@[simp] theorem raise_room (h : Hart) (fl : BitVec 5) : (h.raise fl).room = h.room := rfl
@[simp] theorem raise_offer (h : Hart) (fl : BitVec 5) : (h.raise fl).offer = h.offer := rfl
@[simp] theorem raise_req (h : Hart) (fl : BitVec 5) : (h.raise fl).req = h.req := rfl
@[simp] theorem raise_hstep (h : Hart) (fl : BitVec 5) : (h.raise fl).hstep = h.hstep := rfl
@[simp] theorem raise_overSince (h : Hart) (fl : BitVec 5) : (h.raise fl).overSince = h.overSince := rfl
@[simp] theorem raise_target (h : Hart) (fl : BitVec 5) : (h.raise fl).target = h.target := rfl
@[simp] theorem raise_offered (h : Hart) (fl : BitVec 5) : (h.raise fl).offered = h.offered := rfl
@[simp] theorem raise_owes (h : Hart) (fl : BitVec 5) : (h.raise fl).owes = h.owes := rfl
@[simp] theorem raise_owesTill (h : Hart) (fl : BitVec 5) : (h.raise fl).owesTill = h.owesTill := rfl
@[simp] theorem raise_retired (h : Hart) (fl : BitVec 5) : (h.raise fl).retired = h.retired := rfl
@[simp] theorem raise_mark (h : Hart) (fl : BitVec 5) : (h.raise fl).mark = h.mark := rfl
@[simp] theorem raise_stepping (h : Hart) (fl : BitVec 5) : (h.raise fl).stepping = h.stepping := rfl
@[simp] theorem raise_stepPc (h : Hart) (fl : BitVec 5) : (h.raise fl).stepPc = h.stepPc := rfl
@[simp] theorem raise_stepIter (h : Hart) (fl : BitVec 5) : (h.raise fl).stepIter = h.stepIter := rfl
@[simp] theorem raise_code (h : Hart) (fl : BitVec 5) : (h.raise fl).code = h.code := rfl
@[simp] theorem raise_pass (h : Hart) (fl : BitVec 5) : (h.raise fl).pass = h.pass := rfl
@[simp] theorem raise_rdexp (h : Hart) (fl : BitVec 5) : (h.raise fl).rdexp = h.rdexp := rfl
@[simp] theorem raise_rdact (h : Hart) (fl : BitVec 5) : (h.raise fl).rdact = h.rdact := rfl
@[simp] theorem raise_evts (h : Hart) (fl : BitVec 5) : (h.raise fl).evts = h.evts := rfl
@[simp] theorem raise_ctx_pc (h : Hart) (fl : BitVec 5) : (h.raise fl).ctx.pc = h.ctx.pc := rfl
@[simp] theorem raise_ctx_resid (h : Hart) (fl : BitVec 5) : (h.raise fl).ctx.resid = h.ctx.resid := rfl
@[simp] theorem raise_ctx_iter (h : Hart) (fl : BitVec 5) : (h.raise fl).ctx.iter = h.ctx.iter := rfl
@[simp] theorem raise_ctx_g (h : Hart) (fl : BitVec 5) : (h.raise fl).ctx.g = h.ctx.g := rfl
@[simp] theorem raise_ctx_v (h : Hart) (fl : BitVec 5) : (h.raise fl).ctx.v = h.ctx.v := rfl
@[simp] theorem raise_ctx_m (h : Hart) (fl : BitVec 5) : (h.raise fl).ctx.m = h.ctx.m := rfl
@[simp] theorem raise_ctx_sc (h : Hart) (fl : BitVec 5) : (h.raise fl).ctx.sc = h.ctx.sc := rfl
@[simp] theorem raise_ctx_a (h : Hart) (fl : BitVec 5) : (h.raise fl).ctx.a = h.ctx.a := rfl
@[simp] theorem raise_ctx_vl (h : Hart) (fl : BitVec 5) : (h.raise fl).ctx.vl = h.ctx.vl := rfl
@[simp] theorem raise_ctx_nr (h : Hart) (fl : BitVec 5) : (h.raise fl).ctx.nr = h.ctx.nr := rfl
@[simp] theorem raise_ctx_fmt (h : Hart) (fl : BitVec 5) : (h.raise fl).ctx.fmt = h.ctx.fmt := rfl
@[simp] theorem raise_ctx_blk (h : Hart) (fl : BitVec 5) : (h.raise fl).ctx.blk = h.ctx.blk := rfl
@[simp] theorem raise_ctx_rm (h : Hart) (fl : BitVec 5) : (h.raise fl).ctx.rm = h.ctx.rm := rfl
@[simp] theorem raise_ctx_vbeg (h : Hart) (fl : BitVec 5) : (h.raise fl).ctx.vbeg = h.ctx.vbeg := rfl
@[simp] theorem raise_ctx_held (h : Hart) (fl : BitVec 5) : (h.raise fl).ctx.held = h.ctx.held := rfl
@[simp] theorem raise_ctx_thb (h : Hart) (fl : BitVec 5) : (h.raise fl).ctx.thb = h.ctx.thb := rfl
@[simp] theorem raise_ctx_thmask (h : Hart) (fl : BitVec 5) : (h.raise fl).ctx.thmask = h.ctx.thmask := rfl
@[simp] theorem raise_ctx_fpk (h : Hart) (fl : BitVec 5) : (h.raise fl).ctx.fpk = h.ctx.fpk := rfl
@[simp] theorem raise_ctx_prio (h : Hart) (fl : BitVec 5) : (h.raise fl).ctx.prio = h.ctx.prio := rfl
@[simp] theorem raise_fflags (h : Hart) (fl : BitVec 5) : (h.raise fl).ctx.fflags = h.ctx.fflags ||| fl := rfl

/-! Standing at a word, advancing (R61), retiring. -/

@[simp] theorem atResid_hid (h : Hart) (k : Nat) : (h.atResid k).hid = h.hid := by unfold Hart.atResid; split <;> rfl
@[simp] theorem atResid_status (h : Hart) (k : Nat) : (h.atResid k).status = h.status := by unfold Hart.atResid; split <;> rfl
@[simp] theorem atResid_lid (h : Hart) (k : Nat) : (h.atResid k).lid = h.lid := by unfold Hart.atResid; split <;> rfl
@[simp] theorem atResid_grp (h : Hart) (k : Nat) : (h.atResid k).grp = h.grp := by unfold Hart.atResid; split <;> rfl
@[simp] theorem atResid_idx (h : Hart) (k : Nat) : (h.atResid k).idx = h.idx := by unfold Hart.atResid; split <;> rfl
@[simp] theorem atResid_part (h : Hart) (k : Nat) : (h.atResid k).part = h.part := by unfold Hart.atResid; split <;> rfl
@[simp] theorem atResid_core (h : Hart) (k : Nat) : (h.atResid k).core = h.core := by unfold Hart.atResid; split <;> rfl
@[simp] theorem atResid_slot (h : Hart) (k : Nat) : (h.atResid k).slot = h.slot := by unfold Hart.atResid; split <;> rfl
@[simp] theorem atResid_weight (h : Hart) (k : Nat) : (h.atResid k).weight = h.weight := by unfold Hart.atResid; split <;> rfl
@[simp] theorem atResid_strict (h : Hart) (k : Nat) : (h.atResid k).strict = h.strict := by unfold Hart.atResid; split <;> rfl
@[simp] theorem atResid_ordered (h : Hart) (k : Nat) : (h.atResid k).ordered = h.ordered := by unfold Hart.atResid; split <;> rfl
@[simp] theorem atResid_coplace (h : Hart) (k : Nat) : (h.atResid k).coplace = h.coplace := by unfold Hart.atResid; split <;> rfl
@[simp] theorem atResid_priv (h : Hart) (k : Nat) : (h.atResid k).priv = h.priv := by unfold Hart.atResid; split <;> rfl
@[simp] theorem atResid_hpg (h : Hart) (k : Nat) : (h.atResid k).hpg = h.hpg := by unfold Hart.atResid; split <;> rfl
@[simp] theorem atResid_widths (h : Hart) (k : Nat) : (h.atResid k).widths = h.widths := by unfold Hart.atResid; split <;> rfl
@[simp] theorem atResid_args (h : Hart) (k : Nat) : (h.atResid k).args = h.args := by unfold Hart.atResid; split <;> rfl
@[simp] theorem atResid_nargs (h : Hart) (k : Nat) : (h.atResid k).nargs = h.nargs := by unfold Hart.atResid; split <;> rfl
@[simp] theorem atResid_lprio (h : Hart) (k : Nat) : (h.atResid k).lprio = h.lprio := by unfold Hart.atResid; split <;> rfl
@[simp] theorem atResid_tw (h : Hart) (k : Nat) : (h.atResid k).tw = h.tw := by unfold Hart.atResid; split <;> rfl
@[simp] theorem atResid_ntiles (h : Hart) (k : Nat) : (h.atResid k).ntiles = h.ntiles := by unfold Hart.atResid; split <;> rfl
@[simp] theorem atResid_xcap (h : Hart) (k : Nat) : (h.atResid k).xcap = h.xcap := by unfold Hart.atResid; split <;> rfl
@[simp] theorem atResid_vcap (h : Hart) (k : Nat) : (h.atResid k).vcap = h.vcap := by unfold Hart.atResid; split <;> rfl
@[simp] theorem atResid_cbud (h : Hart) (k : Nat) : (h.atResid k).cbud = h.cbud := by unfold Hart.atResid; split <;> rfl
@[simp] theorem atResid_sealed (h : Hart) (k : Nat) : (h.atResid k).sealed = h.sealed := by unfold Hart.atResid; split <;> rfl
@[simp] theorem atResid_wid (h : Hart) (k : Nat) : (h.atResid k).wid = h.wid := by unfold Hart.atResid; split <;> rfl
@[simp] theorem atResid_hframe (h : Hart) (k : Nat) : (h.atResid k).hframe = h.hframe := by unfold Hart.atResid; split <;> rfl
@[simp] theorem atResid_vq (h : Hart) (k : Nat) : (h.atResid k).vq = h.vq := by unfold Hart.atResid; split <;> rfl
@[simp] theorem atResid_prog (h : Hart) (k : Nat) : (h.atResid k).prog = h.prog := by unfold Hart.atResid; split <;> rfl
@[simp] theorem atResid_spx (h : Hart) (k : Nat) : (h.atResid k).spx = h.spx := by unfold Hart.atResid; split <;> rfl
@[simp] theorem atResid_sq (h : Hart) (k : Nat) : (h.atResid k).sq = h.sq := by unfold Hart.atResid; split <;> rfl
@[simp] theorem atResid_wait (h : Hart) (k : Nat) : (h.atResid k).wait = h.wait := by unfold Hart.atResid; split <;> rfl
@[simp] theorem atResid_since (h : Hart) (k : Nat) : (h.atResid k).since = h.since := by unfold Hart.atResid; split <;> rfl
@[simp] theorem atResid_capWait (h : Hart) (k : Nat) : (h.atResid k).capWait = h.capWait := by unfold Hart.atResid; split <;> rfl
@[simp] theorem atResid_redo (h : Hart) (k : Nat) : (h.atResid k).redo = h.redo := by unfold Hart.atResid; split <;> rfl
@[simp] theorem atResid_owed (h : Hart) (k : Nat) : (h.atResid k).owed = h.owed := by unfold Hart.atResid; split <;> rfl
@[simp] theorem atResid_trap (h : Hart) (k : Nat) : (h.atResid k).trap = h.trap := by unfold Hart.atResid; split <;> rfl
@[simp] theorem atResid_tfb (h : Hart) (k : Nat) : (h.atResid k).tfb = h.tfb := by unfold Hart.atResid; split <;> rfl
@[simp] theorem atResid_sfq (h : Hart) (k : Nat) : (h.atResid k).sfq = h.sfq := by unfold Hart.atResid; split <;> rfl
@[simp] theorem atResid_sfHeld (h : Hart) (k : Nat) : (h.atResid k).sfHeld = h.sfHeld := by unfold Hart.atResid; split <;> rfl
@[simp] theorem atResid_phn (h : Hart) (k : Nat) : (h.atResid k).phn = h.phn := by unfold Hart.atResid; split <;> rfl
@[simp] theorem atResid_pts (h : Hart) (k : Nat) : (h.atResid k).pts = h.pts := by unfold Hart.atResid; split <;> rfl
@[simp] theorem atResid_cmn (h : Hart) (k : Nat) : (h.atResid k).cmn = h.cmn := by unfold Hart.atResid; split <;> rfl
@[simp] theorem atResid_snapSeq (h : Hart) (k : Nat) : (h.atResid k).snapSeq = h.snapSeq := by unfold Hart.atResid; split <;> rfl
@[simp] theorem atResid_lost (h : Hart) (k : Nat) : (h.atResid k).lost = h.lost := by unfold Hart.atResid; split <;> rfl
@[simp] theorem atResid_abrt (h : Hart) (k : Nat) : (h.atResid k).abrt = h.abrt := by unfold Hart.atResid; split <;> rfl
@[simp] theorem atResid_ovf (h : Hart) (k : Nat) : (h.atResid k).ovf = h.ovf := by unfold Hart.atResid; split <;> rfl
@[simp] theorem atResid_ver (h : Hart) (k : Nat) : (h.atResid k).ver = h.ver := by unfold Hart.atResid; split <;> rfl
@[simp] theorem atResid_defer (h : Hart) (k : Nat) : (h.atResid k).defer = h.defer := by unfold Hart.atResid; split <;> rfl
@[simp] theorem atResid_intents (h : Hart) (k : Nat) : (h.atResid k).intents = h.intents := by unfold Hart.atResid; split <;> rfl
@[simp] theorem atResid_defs (h : Hart) (k : Nat) : (h.atResid k).defs = h.defs := by unfold Hart.atResid; split <;> rfl
@[simp] theorem atResid_reads (h : Hart) (k : Nat) : (h.atResid k).reads = h.reads := by unfold Hart.atResid; split <;> rfl
@[simp] theorem atResid_frame (h : Hart) (k : Nat) : (h.atResid k).frame = h.frame := by unfold Hart.atResid; split <;> rfl
@[simp] theorem atResid_half (h : Hart) (k : Nat) : (h.atResid k).half = h.half := by unfold Hart.atResid; split <;> rfl
@[simp] theorem atResid_due (h : Hart) (k : Nat) : (h.atResid k).due = h.due := by unfold Hart.atResid; split <;> rfl
@[simp] theorem atResid_logWait (h : Hart) (k : Nat) : (h.atResid k).logWait = h.logWait := by unfold Hart.atResid; split <;> rfl
@[simp] theorem atResid_chans (h : Hart) (k : Nat) : (h.atResid k).chans = h.chans := by unfold Hart.atResid; split <;> rfl
@[simp] theorem atResid_tiles (h : Hart) (k : Nat) : (h.atResid k).tiles = h.tiles := by unfold Hart.atResid; split <;> rfl
@[simp] theorem atResid_xents (h : Hart) (k : Nat) : (h.atResid k).xents = h.xents := by unfold Hart.atResid; split <;> rfl
@[simp] theorem atResid_xPlace (h : Hart) (k : Nat) : (h.atResid k).xPlace = h.xPlace := by unfold Hart.atResid; split <;> rfl
@[simp] theorem atResid_room (h : Hart) (k : Nat) : (h.atResid k).room = h.room := by unfold Hart.atResid; split <;> rfl
@[simp] theorem atResid_offer (h : Hart) (k : Nat) : (h.atResid k).offer = h.offer := by unfold Hart.atResid; split <;> rfl
@[simp] theorem atResid_req (h : Hart) (k : Nat) : (h.atResid k).req = h.req := by unfold Hart.atResid; split <;> rfl
@[simp] theorem atResid_hstep (h : Hart) (k : Nat) : (h.atResid k).hstep = h.hstep := by unfold Hart.atResid; split <;> rfl
@[simp] theorem atResid_overSince (h : Hart) (k : Nat) : (h.atResid k).overSince = h.overSince := by unfold Hart.atResid; split <;> rfl
@[simp] theorem atResid_target (h : Hart) (k : Nat) : (h.atResid k).target = h.target := by unfold Hart.atResid; split <;> rfl
@[simp] theorem atResid_offered (h : Hart) (k : Nat) : (h.atResid k).offered = h.offered := by unfold Hart.atResid; split <;> rfl
@[simp] theorem atResid_owes (h : Hart) (k : Nat) : (h.atResid k).owes = h.owes := by unfold Hart.atResid; split <;> rfl
@[simp] theorem atResid_owesTill (h : Hart) (k : Nat) : (h.atResid k).owesTill = h.owesTill := by unfold Hart.atResid; split <;> rfl
@[simp] theorem atResid_retired (h : Hart) (k : Nat) : (h.atResid k).retired = h.retired := by unfold Hart.atResid; split <;> rfl
@[simp] theorem atResid_mark (h : Hart) (k : Nat) : (h.atResid k).mark = h.mark := by unfold Hart.atResid; split <;> rfl
@[simp] theorem atResid_stepping (h : Hart) (k : Nat) : (h.atResid k).stepping = h.stepping := by unfold Hart.atResid; split <;> rfl
@[simp] theorem atResid_stepPc (h : Hart) (k : Nat) : (h.atResid k).stepPc = h.stepPc := by unfold Hart.atResid; split <;> rfl
@[simp] theorem atResid_stepIter (h : Hart) (k : Nat) : (h.atResid k).stepIter = h.stepIter := by unfold Hart.atResid; split <;> rfl
@[simp] theorem atResid_code (h : Hart) (k : Nat) : (h.atResid k).code = h.code := by unfold Hart.atResid; split <;> rfl
@[simp] theorem atResid_pass (h : Hart) (k : Nat) : (h.atResid k).pass = h.pass := by unfold Hart.atResid; split <;> rfl
@[simp] theorem atResid_rdexp (h : Hart) (k : Nat) : (h.atResid k).rdexp = h.rdexp := by unfold Hart.atResid; split <;> rfl
@[simp] theorem atResid_rdact (h : Hart) (k : Nat) : (h.atResid k).rdact = h.rdact := by unfold Hart.atResid; split <;> rfl
@[simp] theorem atResid_evts (h : Hart) (k : Nat) : (h.atResid k).evts = h.evts := by unfold Hart.atResid; split <;> rfl
@[simp] theorem advance_hid (h : Hart) : h.advance.hid = h.hid := by unfold Hart.advance; split <;> simp
@[simp] theorem advance_status (h : Hart) : h.advance.status = h.status := by unfold Hart.advance; split <;> simp
@[simp] theorem advance_lid (h : Hart) : h.advance.lid = h.lid := by unfold Hart.advance; split <;> simp
@[simp] theorem advance_grp (h : Hart) : h.advance.grp = h.grp := by unfold Hart.advance; split <;> simp
@[simp] theorem advance_idx (h : Hart) : h.advance.idx = h.idx := by unfold Hart.advance; split <;> simp
@[simp] theorem advance_part (h : Hart) : h.advance.part = h.part := by unfold Hart.advance; split <;> simp
@[simp] theorem advance_core (h : Hart) : h.advance.core = h.core := by unfold Hart.advance; split <;> simp
@[simp] theorem advance_slot (h : Hart) : h.advance.slot = h.slot := by unfold Hart.advance; split <;> simp
@[simp] theorem advance_weight (h : Hart) : h.advance.weight = h.weight := by unfold Hart.advance; split <;> simp
@[simp] theorem advance_strict (h : Hart) : h.advance.strict = h.strict := by unfold Hart.advance; split <;> simp
@[simp] theorem advance_ordered (h : Hart) : h.advance.ordered = h.ordered := by unfold Hart.advance; split <;> simp
@[simp] theorem advance_coplace (h : Hart) : h.advance.coplace = h.coplace := by unfold Hart.advance; split <;> simp
@[simp] theorem advance_priv (h : Hart) : h.advance.priv = h.priv := by unfold Hart.advance; split <;> simp
@[simp] theorem advance_hpg (h : Hart) : h.advance.hpg = h.hpg := by unfold Hart.advance; split <;> simp
@[simp] theorem advance_widths (h : Hart) : h.advance.widths = h.widths := by unfold Hart.advance; split <;> simp
@[simp] theorem advance_args (h : Hart) : h.advance.args = h.args := by unfold Hart.advance; split <;> simp
@[simp] theorem advance_nargs (h : Hart) : h.advance.nargs = h.nargs := by unfold Hart.advance; split <;> simp
@[simp] theorem advance_lprio (h : Hart) : h.advance.lprio = h.lprio := by unfold Hart.advance; split <;> simp
@[simp] theorem advance_tw (h : Hart) : h.advance.tw = h.tw := by unfold Hart.advance; split <;> simp
@[simp] theorem advance_ntiles (h : Hart) : h.advance.ntiles = h.ntiles := by unfold Hart.advance; split <;> simp
@[simp] theorem advance_xcap (h : Hart) : h.advance.xcap = h.xcap := by unfold Hart.advance; split <;> simp
@[simp] theorem advance_vcap (h : Hart) : h.advance.vcap = h.vcap := by unfold Hart.advance; split <;> simp
@[simp] theorem advance_cbud (h : Hart) : h.advance.cbud = h.cbud := by unfold Hart.advance; split <;> simp
@[simp] theorem advance_sealed (h : Hart) : h.advance.sealed = h.sealed := by unfold Hart.advance; split <;> simp
@[simp] theorem advance_wid (h : Hart) : h.advance.wid = h.wid := by unfold Hart.advance; split <;> simp
@[simp] theorem advance_hframe (h : Hart) : h.advance.hframe = h.hframe := by unfold Hart.advance; split <;> simp
@[simp] theorem advance_vq (h : Hart) : h.advance.vq = h.vq := by unfold Hart.advance; split <;> simp
@[simp] theorem advance_prog (h : Hart) : h.advance.prog = h.prog := by unfold Hart.advance; split <;> simp
@[simp] theorem advance_spx (h : Hart) : h.advance.spx = h.spx := by unfold Hart.advance; split <;> simp
@[simp] theorem advance_sq (h : Hart) : h.advance.sq = h.sq := by unfold Hart.advance; split <;> simp
@[simp] theorem advance_wait (h : Hart) : h.advance.wait = h.wait := by unfold Hart.advance; split <;> simp
@[simp] theorem advance_since (h : Hart) : h.advance.since = h.since := by unfold Hart.advance; split <;> simp
@[simp] theorem advance_capWait (h : Hart) : h.advance.capWait = h.capWait := by unfold Hart.advance; split <;> simp
@[simp] theorem advance_redo (h : Hart) : h.advance.redo = h.redo := by unfold Hart.advance; split <;> simp
@[simp] theorem advance_owed (h : Hart) : h.advance.owed = h.owed := by unfold Hart.advance; split <;> simp
@[simp] theorem advance_trap (h : Hart) : h.advance.trap = h.trap := by unfold Hart.advance; split <;> simp
@[simp] theorem advance_tfb (h : Hart) : h.advance.tfb = h.tfb := by unfold Hart.advance; split <;> simp
@[simp] theorem advance_sfq (h : Hart) : h.advance.sfq = h.sfq := by unfold Hart.advance; split <;> simp
@[simp] theorem advance_sfHeld (h : Hart) : h.advance.sfHeld = h.sfHeld := by unfold Hart.advance; split <;> simp
@[simp] theorem advance_phn (h : Hart) : h.advance.phn = h.phn := by unfold Hart.advance; split <;> simp
@[simp] theorem advance_pts (h : Hart) : h.advance.pts = h.pts := by unfold Hart.advance; split <;> simp
@[simp] theorem advance_cmn (h : Hart) : h.advance.cmn = h.cmn := by unfold Hart.advance; split <;> simp
@[simp] theorem advance_snapSeq (h : Hart) : h.advance.snapSeq = h.snapSeq := by unfold Hart.advance; split <;> simp
@[simp] theorem advance_lost (h : Hart) : h.advance.lost = h.lost := by unfold Hart.advance; split <;> simp
@[simp] theorem advance_abrt (h : Hart) : h.advance.abrt = h.abrt := by unfold Hart.advance; split <;> simp
@[simp] theorem advance_ovf (h : Hart) : h.advance.ovf = h.ovf := by unfold Hart.advance; split <;> simp
@[simp] theorem advance_ver (h : Hart) : h.advance.ver = h.ver := by unfold Hart.advance; split <;> simp
@[simp] theorem advance_defer (h : Hart) : h.advance.defer = h.defer := by unfold Hart.advance; split <;> simp
@[simp] theorem advance_intents (h : Hart) : h.advance.intents = h.intents := by unfold Hart.advance; split <;> simp
@[simp] theorem advance_defs (h : Hart) : h.advance.defs = h.defs := by unfold Hart.advance; split <;> simp
@[simp] theorem advance_reads (h : Hart) : h.advance.reads = h.reads := by unfold Hart.advance; split <;> simp
@[simp] theorem advance_frame (h : Hart) : h.advance.frame = h.frame := by unfold Hart.advance; split <;> simp
@[simp] theorem advance_half (h : Hart) : h.advance.half = h.half := by unfold Hart.advance; split <;> simp
@[simp] theorem advance_due (h : Hart) : h.advance.due = h.due := by unfold Hart.advance; split <;> simp
@[simp] theorem advance_logWait (h : Hart) : h.advance.logWait = h.logWait := by unfold Hart.advance; split <;> simp
@[simp] theorem advance_chans (h : Hart) : h.advance.chans = h.chans := by unfold Hart.advance; split <;> simp
@[simp] theorem advance_tiles (h : Hart) : h.advance.tiles = h.tiles := by unfold Hart.advance; split <;> simp
@[simp] theorem advance_xents (h : Hart) : h.advance.xents = h.xents := by unfold Hart.advance; split <;> simp
@[simp] theorem advance_xPlace (h : Hart) : h.advance.xPlace = h.xPlace := by unfold Hart.advance; split <;> simp
@[simp] theorem advance_room (h : Hart) : h.advance.room = h.room := by unfold Hart.advance; split <;> simp
@[simp] theorem advance_offer (h : Hart) : h.advance.offer = h.offer := by unfold Hart.advance; split <;> simp
@[simp] theorem advance_req (h : Hart) : h.advance.req = h.req := by unfold Hart.advance; split <;> simp
@[simp] theorem advance_hstep (h : Hart) : h.advance.hstep = h.hstep := by unfold Hart.advance; split <;> simp
@[simp] theorem advance_overSince (h : Hart) : h.advance.overSince = h.overSince := by unfold Hart.advance; split <;> simp
@[simp] theorem advance_target (h : Hart) : h.advance.target = h.target := by unfold Hart.advance; split <;> simp
@[simp] theorem advance_offered (h : Hart) : h.advance.offered = h.offered := by unfold Hart.advance; split <;> simp
@[simp] theorem advance_owes (h : Hart) : h.advance.owes = h.owes := by unfold Hart.advance; split <;> simp
@[simp] theorem advance_owesTill (h : Hart) : h.advance.owesTill = h.owesTill := by unfold Hart.advance; split <;> simp
@[simp] theorem advance_retired (h : Hart) : h.advance.retired = h.retired := by unfold Hart.advance; split <;> simp
@[simp] theorem advance_mark (h : Hart) : h.advance.mark = h.mark := by unfold Hart.advance; split <;> simp
@[simp] theorem advance_stepping (h : Hart) : h.advance.stepping = h.stepping := by unfold Hart.advance; split <;> simp
@[simp] theorem advance_stepPc (h : Hart) : h.advance.stepPc = h.stepPc := by unfold Hart.advance; split <;> simp
@[simp] theorem advance_stepIter (h : Hart) : h.advance.stepIter = h.stepIter := by unfold Hart.advance; split <;> simp
@[simp] theorem advance_code (h : Hart) : h.advance.code = h.code := by unfold Hart.advance; split <;> simp
@[simp] theorem advance_pass (h : Hart) : h.advance.pass = h.pass := by unfold Hart.advance; split <;> simp
@[simp] theorem advance_rdexp (h : Hart) : h.advance.rdexp = h.rdexp := by unfold Hart.advance; split <;> simp
@[simp] theorem advance_rdact (h : Hart) : h.advance.rdact = h.rdact := by unfold Hart.advance; split <;> simp
@[simp] theorem advance_evts (h : Hart) : h.advance.evts = h.evts := by unfold Hart.advance; split <;> simp
@[simp] theorem atResid_ctx_g (h : Hart) (k : Nat) : (h.atResid k).ctx.g = h.ctx.g := by unfold Hart.atResid; split <;> rfl
@[simp] theorem advance_ctx_g (h : Hart) : h.advance.ctx.g = h.ctx.g := by unfold Hart.advance; split <;> simp
@[simp] theorem atResid_ctx_v (h : Hart) (k : Nat) : (h.atResid k).ctx.v = h.ctx.v := by unfold Hart.atResid; split <;> rfl
@[simp] theorem advance_ctx_v (h : Hart) : h.advance.ctx.v = h.ctx.v := by unfold Hart.advance; split <;> simp
@[simp] theorem atResid_ctx_m (h : Hart) (k : Nat) : (h.atResid k).ctx.m = h.ctx.m := by unfold Hart.atResid; split <;> rfl
@[simp] theorem advance_ctx_m (h : Hart) : h.advance.ctx.m = h.ctx.m := by unfold Hart.advance; split <;> simp
@[simp] theorem atResid_ctx_sc (h : Hart) (k : Nat) : (h.atResid k).ctx.sc = h.ctx.sc := by unfold Hart.atResid; split <;> rfl
@[simp] theorem advance_ctx_sc (h : Hart) : h.advance.ctx.sc = h.ctx.sc := by unfold Hart.advance; split <;> simp
@[simp] theorem atResid_ctx_a (h : Hart) (k : Nat) : (h.atResid k).ctx.a = h.ctx.a := by unfold Hart.atResid; split <;> rfl
@[simp] theorem advance_ctx_a (h : Hart) : h.advance.ctx.a = h.ctx.a := by unfold Hart.advance; split <;> simp
@[simp] theorem atResid_ctx_vl (h : Hart) (k : Nat) : (h.atResid k).ctx.vl = h.ctx.vl := by unfold Hart.atResid; split <;> rfl
@[simp] theorem advance_ctx_vl (h : Hart) : h.advance.ctx.vl = h.ctx.vl := by unfold Hart.advance; split <;> simp
@[simp] theorem atResid_ctx_nr (h : Hart) (k : Nat) : (h.atResid k).ctx.nr = h.ctx.nr := by unfold Hart.atResid; split <;> rfl
@[simp] theorem advance_ctx_nr (h : Hart) : h.advance.ctx.nr = h.ctx.nr := by unfold Hart.advance; split <;> simp
@[simp] theorem atResid_ctx_fmt (h : Hart) (k : Nat) : (h.atResid k).ctx.fmt = h.ctx.fmt := by unfold Hart.atResid; split <;> rfl
@[simp] theorem advance_ctx_fmt (h : Hart) : h.advance.ctx.fmt = h.ctx.fmt := by unfold Hart.advance; split <;> simp
@[simp] theorem atResid_ctx_blk (h : Hart) (k : Nat) : (h.atResid k).ctx.blk = h.ctx.blk := by unfold Hart.atResid; split <;> rfl
@[simp] theorem advance_ctx_blk (h : Hart) : h.advance.ctx.blk = h.ctx.blk := by unfold Hart.advance; split <;> simp
@[simp] theorem atResid_ctx_rm (h : Hart) (k : Nat) : (h.atResid k).ctx.rm = h.ctx.rm := by unfold Hart.atResid; split <;> rfl
@[simp] theorem advance_ctx_rm (h : Hart) : h.advance.ctx.rm = h.ctx.rm := by unfold Hart.advance; split <;> simp
@[simp] theorem atResid_ctx_fflags (h : Hart) (k : Nat) : (h.atResid k).ctx.fflags = h.ctx.fflags := by unfold Hart.atResid; split <;> rfl
@[simp] theorem advance_ctx_fflags (h : Hart) : h.advance.ctx.fflags = h.ctx.fflags := by unfold Hart.advance; split <;> simp
@[simp] theorem atResid_ctx_vbeg (h : Hart) (k : Nat) : (h.atResid k).ctx.vbeg = h.ctx.vbeg := by unfold Hart.atResid; split <;> rfl
@[simp] theorem advance_ctx_vbeg (h : Hart) : h.advance.ctx.vbeg = h.ctx.vbeg := by unfold Hart.advance; split <;> simp
@[simp] theorem atResid_ctx_held (h : Hart) (k : Nat) : (h.atResid k).ctx.held = h.ctx.held := by unfold Hart.atResid; split <;> rfl
@[simp] theorem advance_ctx_held (h : Hart) : h.advance.ctx.held = h.ctx.held := by unfold Hart.advance; split <;> simp
@[simp] theorem atResid_ctx_thb (h : Hart) (k : Nat) : (h.atResid k).ctx.thb = h.ctx.thb := by unfold Hart.atResid; split <;> rfl
@[simp] theorem advance_ctx_thb (h : Hart) : h.advance.ctx.thb = h.ctx.thb := by unfold Hart.advance; split <;> simp
@[simp] theorem atResid_ctx_thmask (h : Hart) (k : Nat) : (h.atResid k).ctx.thmask = h.ctx.thmask := by unfold Hart.atResid; split <;> rfl
@[simp] theorem advance_ctx_thmask (h : Hart) : h.advance.ctx.thmask = h.ctx.thmask := by unfold Hart.advance; split <;> simp
@[simp] theorem atResid_ctx_fpk (h : Hart) (k : Nat) : (h.atResid k).ctx.fpk = h.ctx.fpk := by unfold Hart.atResid; split <;> rfl
@[simp] theorem advance_ctx_fpk (h : Hart) : h.advance.ctx.fpk = h.ctx.fpk := by unfold Hart.advance; split <;> simp
@[simp] theorem atResid_ctx_prio (h : Hart) (k : Nat) : (h.atResid k).ctx.prio = h.ctx.prio := by unfold Hart.atResid; split <;> rfl
@[simp] theorem advance_ctx_prio (h : Hart) : h.advance.ctx.prio = h.ctx.prio := by unfold Hart.advance; split <;> simp
@[simp] theorem retire_hid (h : Hart) : h.retire.hid = h.hid := by unfold Hart.retire; split <;> simp [Hart.count]
@[simp] theorem retire_status (h : Hart) : h.retire.status = h.status := by unfold Hart.retire; split <;> simp [Hart.count]
@[simp] theorem retire_lid (h : Hart) : h.retire.lid = h.lid := by unfold Hart.retire; split <;> simp [Hart.count]
@[simp] theorem retire_grp (h : Hart) : h.retire.grp = h.grp := by unfold Hart.retire; split <;> simp [Hart.count]
@[simp] theorem retire_idx (h : Hart) : h.retire.idx = h.idx := by unfold Hart.retire; split <;> simp [Hart.count]
@[simp] theorem retire_part (h : Hart) : h.retire.part = h.part := by unfold Hart.retire; split <;> simp [Hart.count]
@[simp] theorem retire_core (h : Hart) : h.retire.core = h.core := by unfold Hart.retire; split <;> simp [Hart.count]
@[simp] theorem retire_slot (h : Hart) : h.retire.slot = h.slot := by unfold Hart.retire; split <;> simp [Hart.count]
@[simp] theorem retire_weight (h : Hart) : h.retire.weight = h.weight := by unfold Hart.retire; split <;> simp [Hart.count]
@[simp] theorem retire_strict (h : Hart) : h.retire.strict = h.strict := by unfold Hart.retire; split <;> simp [Hart.count]
@[simp] theorem retire_ordered (h : Hart) : h.retire.ordered = h.ordered := by unfold Hart.retire; split <;> simp [Hart.count]
@[simp] theorem retire_coplace (h : Hart) : h.retire.coplace = h.coplace := by unfold Hart.retire; split <;> simp [Hart.count]
@[simp] theorem retire_priv (h : Hart) : h.retire.priv = h.priv := by unfold Hart.retire; split <;> simp [Hart.count]
@[simp] theorem retire_hpg (h : Hart) : h.retire.hpg = h.hpg := by unfold Hart.retire; split <;> simp [Hart.count]
@[simp] theorem retire_widths (h : Hart) : h.retire.widths = h.widths := by unfold Hart.retire; split <;> simp [Hart.count]
@[simp] theorem retire_args (h : Hart) : h.retire.args = h.args := by unfold Hart.retire; split <;> simp [Hart.count]
@[simp] theorem retire_nargs (h : Hart) : h.retire.nargs = h.nargs := by unfold Hart.retire; split <;> simp [Hart.count]
@[simp] theorem retire_lprio (h : Hart) : h.retire.lprio = h.lprio := by unfold Hart.retire; split <;> simp [Hart.count]
@[simp] theorem retire_tw (h : Hart) : h.retire.tw = h.tw := by unfold Hart.retire; split <;> simp [Hart.count]
@[simp] theorem retire_ntiles (h : Hart) : h.retire.ntiles = h.ntiles := by unfold Hart.retire; split <;> simp [Hart.count]
@[simp] theorem retire_xcap (h : Hart) : h.retire.xcap = h.xcap := by unfold Hart.retire; split <;> simp [Hart.count]
@[simp] theorem retire_vcap (h : Hart) : h.retire.vcap = h.vcap := by unfold Hart.retire; split <;> simp [Hart.count]
@[simp] theorem retire_cbud (h : Hart) : h.retire.cbud = h.cbud := by unfold Hart.retire; split <;> simp [Hart.count]
@[simp] theorem retire_sealed (h : Hart) : h.retire.sealed = h.sealed := by unfold Hart.retire; split <;> simp [Hart.count]
@[simp] theorem retire_wid (h : Hart) : h.retire.wid = h.wid := by unfold Hart.retire; split <;> simp [Hart.count]
@[simp] theorem retire_hframe (h : Hart) : h.retire.hframe = h.hframe := by unfold Hart.retire; split <;> simp [Hart.count]
@[simp] theorem retire_vq (h : Hart) : h.retire.vq = h.vq := by unfold Hart.retire; split <;> simp [Hart.count]
@[simp] theorem retire_prog (h : Hart) : h.retire.prog = h.prog := by unfold Hart.retire; split <;> simp [Hart.count]
@[simp] theorem retire_spx (h : Hart) : h.retire.spx = h.spx := by unfold Hart.retire; split <;> simp [Hart.count]
@[simp] theorem retire_sq (h : Hart) : h.retire.sq = h.sq := by unfold Hart.retire; split <;> simp [Hart.count]
@[simp] theorem retire_since (h : Hart) : h.retire.since = h.since := by unfold Hart.retire; split <;> simp [Hart.count]
@[simp] theorem retire_capWait (h : Hart) : h.retire.capWait = h.capWait := by unfold Hart.retire; split <;> simp [Hart.count]
@[simp] theorem retire_redo (h : Hart) : h.retire.redo = h.redo := by unfold Hart.retire; split <;> simp [Hart.count]
@[simp] theorem retire_owed (h : Hart) : h.retire.owed = h.owed := by unfold Hart.retire; split <;> simp [Hart.count]
@[simp] theorem retire_trap (h : Hart) : h.retire.trap = h.trap := by unfold Hart.retire; split <;> simp [Hart.count]
@[simp] theorem retire_tfb (h : Hart) : h.retire.tfb = h.tfb := by unfold Hart.retire; split <;> simp [Hart.count]
@[simp] theorem retire_sfq (h : Hart) : h.retire.sfq = h.sfq := by unfold Hart.retire; split <;> simp [Hart.count]
@[simp] theorem retire_sfHeld (h : Hart) : h.retire.sfHeld = h.sfHeld := by unfold Hart.retire; split <;> simp [Hart.count]
@[simp] theorem retire_phn (h : Hart) : h.retire.phn = h.phn := by unfold Hart.retire; split <;> simp [Hart.count]
@[simp] theorem retire_pts (h : Hart) : h.retire.pts = h.pts := by unfold Hart.retire; split <;> simp [Hart.count]
@[simp] theorem retire_cmn (h : Hart) : h.retire.cmn = h.cmn := by unfold Hart.retire; split <;> simp [Hart.count]
@[simp] theorem retire_snapSeq (h : Hart) : h.retire.snapSeq = h.snapSeq := by unfold Hart.retire; split <;> simp [Hart.count]
@[simp] theorem retire_lost (h : Hart) : h.retire.lost = h.lost := by unfold Hart.retire; split <;> simp [Hart.count]
@[simp] theorem retire_abrt (h : Hart) : h.retire.abrt = h.abrt := by unfold Hart.retire; split <;> simp [Hart.count]
@[simp] theorem retire_ovf (h : Hart) : h.retire.ovf = h.ovf := by unfold Hart.retire; split <;> simp [Hart.count]
@[simp] theorem retire_ver (h : Hart) : h.retire.ver = h.ver := by unfold Hart.retire; split <;> simp [Hart.count]
@[simp] theorem retire_defer (h : Hart) : h.retire.defer = h.defer := by unfold Hart.retire; split <;> simp [Hart.count]
@[simp] theorem retire_intents (h : Hart) : h.retire.intents = h.intents := by unfold Hart.retire; split <;> simp [Hart.count]
@[simp] theorem retire_defs (h : Hart) : h.retire.defs = h.defs := by unfold Hart.retire; split <;> simp [Hart.count]
@[simp] theorem retire_reads (h : Hart) : h.retire.reads = h.reads := by unfold Hart.retire; split <;> simp [Hart.count]
@[simp] theorem retire_frame (h : Hart) : h.retire.frame = h.frame := by unfold Hart.retire; split <;> simp [Hart.count]
@[simp] theorem retire_half (h : Hart) : h.retire.half = h.half := by unfold Hart.retire; split <;> simp [Hart.count]
@[simp] theorem retire_due (h : Hart) : h.retire.due = h.due := by unfold Hart.retire; split <;> simp [Hart.count]
@[simp] theorem retire_chans (h : Hart) : h.retire.chans = h.chans := by unfold Hart.retire; split <;> simp [Hart.count]
@[simp] theorem retire_tiles (h : Hart) : h.retire.tiles = h.tiles := by unfold Hart.retire; split <;> simp [Hart.count]
@[simp] theorem retire_xents (h : Hart) : h.retire.xents = h.xents := by unfold Hart.retire; split <;> simp [Hart.count]
@[simp] theorem retire_xPlace (h : Hart) : h.retire.xPlace = h.xPlace := by unfold Hart.retire; split <;> simp [Hart.count]
@[simp] theorem retire_room (h : Hart) : h.retire.room = h.room := by unfold Hart.retire; split <;> simp [Hart.count]
@[simp] theorem retire_offer (h : Hart) : h.retire.offer = h.offer := by unfold Hart.retire; split <;> simp [Hart.count]
@[simp] theorem retire_req (h : Hart) : h.retire.req = h.req := by unfold Hart.retire; split <;> simp [Hart.count]
@[simp] theorem retire_hstep (h : Hart) : h.retire.hstep = h.hstep := by unfold Hart.retire; split <;> simp [Hart.count]
@[simp] theorem retire_overSince (h : Hart) : h.retire.overSince = h.overSince := by unfold Hart.retire; split <;> simp [Hart.count]
@[simp] theorem retire_target (h : Hart) : h.retire.target = h.target := by unfold Hart.retire; split <;> simp [Hart.count]
@[simp] theorem retire_offered (h : Hart) : h.retire.offered = h.offered := by unfold Hart.retire; split <;> simp [Hart.count]
@[simp] theorem retire_owes (h : Hart) : h.retire.owes = h.owes := by unfold Hart.retire; split <;> simp [Hart.count]
@[simp] theorem retire_owesTill (h : Hart) : h.retire.owesTill = h.owesTill := by unfold Hart.retire; split <;> simp [Hart.count]
@[simp] theorem retire_mark (h : Hart) : h.retire.mark = h.mark := by unfold Hart.retire; split <;> simp [Hart.count]
@[simp] theorem retire_stepping (h : Hart) : h.retire.stepping = h.stepping := by unfold Hart.retire; split <;> simp [Hart.count]
@[simp] theorem retire_stepPc (h : Hart) : h.retire.stepPc = h.stepPc := by unfold Hart.retire; split <;> simp [Hart.count]
@[simp] theorem retire_stepIter (h : Hart) : h.retire.stepIter = h.stepIter := by unfold Hart.retire; split <;> simp [Hart.count]
@[simp] theorem retire_code (h : Hart) : h.retire.code = h.code := by unfold Hart.retire; split <;> simp [Hart.count]
@[simp] theorem retire_rdexp (h : Hart) : h.retire.rdexp = h.rdexp := by unfold Hart.retire; split <;> simp [Hart.count]
@[simp] theorem retire_rdact (h : Hart) : h.retire.rdact = h.rdact := by unfold Hart.retire; split <;> simp [Hart.count]
@[simp] theorem retire_evts (h : Hart) : h.retire.evts = h.evts := by unfold Hart.retire; split <;> simp [Hart.count]
@[simp] theorem retire_ctx_g (h : Hart) : h.retire.ctx.g = h.ctx.g := by unfold Hart.retire; split <;> simp [Hart.count]
@[simp] theorem retire_ctx_v (h : Hart) : h.retire.ctx.v = h.ctx.v := by unfold Hart.retire; split <;> simp [Hart.count]
@[simp] theorem retire_ctx_m (h : Hart) : h.retire.ctx.m = h.ctx.m := by unfold Hart.retire; split <;> simp [Hart.count]
@[simp] theorem retire_ctx_sc (h : Hart) : h.retire.ctx.sc = h.ctx.sc := by unfold Hart.retire; split <;> simp [Hart.count]
@[simp] theorem retire_ctx_a (h : Hart) : h.retire.ctx.a = h.ctx.a := by unfold Hart.retire; split <;> simp [Hart.count]
@[simp] theorem retire_ctx_vl (h : Hart) : h.retire.ctx.vl = h.ctx.vl := by unfold Hart.retire; split <;> simp [Hart.count]
@[simp] theorem retire_ctx_nr (h : Hart) : h.retire.ctx.nr = h.ctx.nr := by unfold Hart.retire; split <;> simp [Hart.count]
@[simp] theorem retire_ctx_fmt (h : Hart) : h.retire.ctx.fmt = h.ctx.fmt := by unfold Hart.retire; split <;> simp [Hart.count]
@[simp] theorem retire_ctx_blk (h : Hart) : h.retire.ctx.blk = h.ctx.blk := by unfold Hart.retire; split <;> simp [Hart.count]
@[simp] theorem retire_ctx_rm (h : Hart) : h.retire.ctx.rm = h.ctx.rm := by unfold Hart.retire; split <;> simp [Hart.count]
@[simp] theorem retire_ctx_fflags (h : Hart) : h.retire.ctx.fflags = h.ctx.fflags := by unfold Hart.retire; split <;> simp [Hart.count]
@[simp] theorem retire_ctx_vbeg (h : Hart) : h.retire.ctx.vbeg = h.ctx.vbeg := by unfold Hart.retire; split <;> simp [Hart.count]
@[simp] theorem retire_ctx_held (h : Hart) : h.retire.ctx.held = h.ctx.held := by unfold Hart.retire; split <;> simp [Hart.count]
@[simp] theorem retire_ctx_thb (h : Hart) : h.retire.ctx.thb = h.ctx.thb := by unfold Hart.retire; split <;> simp [Hart.count]
@[simp] theorem retire_ctx_thmask (h : Hart) : h.retire.ctx.thmask = h.ctx.thmask := by unfold Hart.retire; split <;> simp [Hart.count]
@[simp] theorem retire_ctx_fpk (h : Hart) : h.retire.ctx.fpk = h.ctx.fpk := by unfold Hart.retire; split <;> simp [Hart.count]
@[simp] theorem retire_ctx_prio (h : Hart) : h.retire.ctx.prio = h.ctx.prio := by unfold Hart.retire; split <;> simp [Hart.count]
/-- An instance of several residual words retires once, at the last of them (R76, R369). -/
@[simp] theorem retire_retired (h : Hart) :
    h.retire.retired = if h.hasMore then h.retired else h.retired + 1 := by
  unfold Hart.retire; split <;> simp [Hart.count]
@[simp] theorem retire_wait (h : Hart) : h.retire.wait = none := by unfold Hart.retire; split <;> simp [Hart.count]
@[simp] theorem retire_pass (h : Hart) : h.retire.pass = false := by unfold Hart.retire; split <;> simp [Hart.count]
@[simp] theorem retire_logWait (h : Hart) : h.retire.logWait = false := by
  unfold Hart.retire; split <;> simp [Hart.count]
/-- In original code the PC advances by one word (R61). -/
theorem retire_pc (h : Hart) (hr : h.ctx.resid = none) : h.retire.ctx.pc = h.ctx.pc + 8 := by
  unfold Hart.retire; split <;> simp [Hart.count, Hart.advance, hr]

/-! The passing of time (R162). -/

@[simp] theorem passTime_part (s : State) : s.passTime.part = s.part := rfl
@[simp] theorem passTime_free (s : State) : s.passTime.free = s.free := rfl
@[simp] theorem passTime_inbox (s : State) : s.passTime.inbox = s.inbox := rfl
@[simp] theorem passTime_plan (s : State) : s.passTime.plan = s.plan := rfl
@[simp] theorem passTime_serve (s : State) : s.passTime.serve = s.serve := rfl
@[simp] theorem passTime_cur (s : State) : s.passTime.cur = s.cur := rfl
@[simp] theorem passTime_rest (s : State) : s.passTime.rest = s.rest := rfl
@[simp] theorem passTime_nextHid (s : State) : s.passTime.nextHid = s.nextHid := rfl
@[simp] theorem passTime_mem (s : State) : s.passTime.mem = s.mem := rfl
@[simp] theorem passTime_commits (s : State) : s.passTime.commits = s.commits := rfl
@[simp] theorem passTime_seq (s : State) : s.passTime.seq = s.seq := rfl
@[simp] theorem passTime_hist (s : State) : s.passTime.hist = s.hist := rfl
@[simp] theorem passTime_bad (s : State) : s.passTime.bad = s.bad := rfl
@[simp] theorem passTime_spots (s : State) : s.passTime.spots = s.spots := rfl
@[simp] theorem passTime_tlb (s : State) : s.passTime.tlb = s.tlb := rfl
@[simp] theorem passTime_denied (s : State) : s.passTime.denied = s.denied := rfl
@[simp] theorem passTime_migr (s : State) : s.passTime.migr = s.migr := rfl
@[simp] theorem passTime_cores (s : State) : s.passTime.cores = s.cores := rfl
@[simp] theorem passTime_dies (s : State) : s.passTime.dies = s.dies := rfl
@[simp] theorem passTime_envelope (s : State) : s.passTime.envelope = s.envelope := rfl
@[simp] theorem passTime_alarmStep (s : State) : s.passTime.alarmStep = s.alarmStep := rfl
@[simp] theorem passTime_tlim (s : State) : s.passTime.tlim = s.tlim := rfl
@[simp] theorem passTime_pnum (s : State) : s.passTime.pnum = s.pnum := rfl
@[simp] theorem passTime_parts (s : State) : s.passTime.parts = s.parts := rfl
@[simp] theorem passTime_launches (s : State) : s.passTime.launches = s.launches := rfl
@[simp] theorem passTime_nextLid (s : State) : s.passTime.nextLid = s.nextLid := rfl
@[simp] theorem passTime_regions (s : State) : s.passTime.regions = s.regions := rfl
@[simp] theorem passTime_ports (s : State) : s.passTime.ports = s.ports := rfl
@[simp] theorem passTime_sent (s : State) : s.passTime.sent = s.sent := rfl
@[simp] theorem passTime_asked (s : State) : s.passTime.asked = s.asked := rfl
@[simp] theorem passTime_gone (s : State) : s.passTime.gone = s.gone := rfl
@[simp] theorem passTime_seen (s : State) : s.passTime.seen = s.seen := rfl
@[simp] theorem passTime_fenced (s : State) : s.passTime.fenced = s.fenced := rfl
@[simp] theorem passTime_mail (s : State) : s.passTime.mail = s.mail := rfl
@[simp] theorem passTime_sealedRegs (s : State) : s.passTime.sealedRegs = s.sealedRegs := rfl
@[simp] theorem passTime_lifeCycle (s : State) : s.passTime.lifeCycle = s.lifeCycle := rfl
@[simp] theorem passTime_keyGen (s : State) : s.passTime.keyGen = s.keyGen := rfl
@[simp] theorem passTime_hostUp (s : State) : s.passTime.hostUp = s.hostUp := rfl
@[simp] theorem passTime_out (s : State) : s.passTime.out = s.out := rfl
@[simp] theorem passTime_recs (s : State) : s.passTime.recs = s.recs := rfl
@[simp] theorem passTime_digs (s : State) : s.passTime.digs = s.digs := rfl
@[simp] theorem passTime_linkErrs (s : State) : s.passTime.linkErrs = s.linkErrs := rfl
@[simp] theorem passTime_scrubs (s : State) : s.passTime.scrubs = s.scrubs := rfl
@[simp] theorem passTime_eccErrs (s : State) : s.passTime.eccErrs = s.eccErrs := rfl
@[simp] theorem passTime_opaq (s : State) : s.passTime.opaq = s.opaq := rfl
@[simp] theorem passTime_frames (s : State) : s.passTime.frames = s.frames := rfl

/-! What one function of the hart, in terms of another, leaves of the rest. -/

theorem setV_eq (h : Hart) (reg r j : Nat) (x : Slot) :
    h.setV reg r j x = h.onCtx fun c => { c with v := Sparse.set c.v (stripKey reg r j) x } := rfl
theorem setM_eq (h : Hart) (reg r j : Nat) (x : BitVec 1) :
    h.setM reg r j x = h.onCtx fun c => { c with m := Sparse.set c.m (stripKey reg r j) x } := rfl
theorem setSc_eq (h : Hart) (reg r j : Nat) (x : BitVec 8) :
    h.setSc reg r j x = h.onCtx fun c => { c with sc := Sparse.set c.sc (stripKey reg r j) x } := rfl
theorem setA_eq (h : Hart) (reg r sl : Nat) (x : Slot) :
    h.setA reg r sl x = h.onCtx fun c => { c with a := Sparse.set c.a (anchKey reg r sl) x } := rfl

end Sys2Proof.Machine
end

