-- ==== Sys2Proof/Laws/Registers.lean ====
section
/-!
SUPPORT. Reading g registers after a write (R144), and reading strip, mask, scale and anchored slots after one (R192 to
R195).
-/

namespace Sys2Proof.Machine

/-- g0 reads zero (R144). -/
@[simp] theorem rd_zero (h : Hart) : h.rd 0 = 0 := rfl

/-- The g registers read alike where the file is the same. -/
theorem rd_congr {h k : Hart} (e : h.ctx.g = k.ctx.g) (r : GReg) : h.rd r = k.rd r := by simp only [Hart.rd, e]

/-- The register written holds the value; g0 stays zero (R144). -/
theorem rd_wr_same (h : Hart) (r : GReg) (x : Word) : (h.wr r x).rd r = if r = 0 then 0 else x := by
  unfold Hart.rd Hart.wr
  split
  · rfl
  · simp

/-- Another register keeps its value. -/
theorem rd_wr_other (h : Hart) {r q : GReg} (x : Word) (hq : q ≠ r) : (h.wr r x).rd q = h.rd q := by
  unfold Hart.wr
  split
  · rfl
  · unfold Hart.rd
    split
    · rfl
    · exact get_set_other _ _ (fun e => hq (BitVec.eq_of_toNat_eq e.symm))

@[simp] theorem rd_retire (h : Hart) (r : GReg) : h.retire.rd r = h.rd r := rd_congr (retire_ctx_g h) r
@[simp] theorem rd_raise (h : Hart) (fl : BitVec 5) (r : GReg) : (h.raise fl).rd r = h.rd r := rfl

/-- Keys of strip slots are distinct within the range of positions (R192). -/
theorem stripKey_inj {a b r q i j : Nat} (hr : r < 8) (hq : q < 8) (hi : i < 1024) (hj : j < 1024) :
    stripKey a r i = stripKey b q j ↔ a = b ∧ r = q ∧ i = j := by
  unfold stripKey
  constructor
  · intro h; omega
  · rintro ⟨rfl, rfl, rfl⟩; rfl

/-- Keys of anchored slots are distinct (R194). -/
theorem anchKey_inj {a b r q i j : Nat} (hr : r < 8) (hq : q < 8) (hi : i < 64) (hj : j < 64) :
    anchKey a r i = anchKey b q j ↔ a = b ∧ r = q ∧ i = j := by
  unfold anchKey
  constructor
  · intro h; omega
  · rintro ⟨rfl, rfl, rfl⟩; rfl

/-- A strip slot after a write of one. -/
theorem slotV_setV (h : Hart) (reg r j : Nat) (x : Slot) (reg' r' j' : Nat) :
    (h.setV reg r j x).slotV reg' r' j' = if stripKey reg r j = stripKey reg' r' j' then x else h.slotV reg' r' j' :=
  get_set ..

/-- A mask bit after a write of one. -/
theorem bitM_setM (h : Hart) (reg r j : Nat) (x : BitVec 1) (reg' r' j' : Nat) :
    (h.setM reg r j x).bitM reg' r' j' = if stripKey reg r j = stripKey reg' r' j' then x else h.bitM reg' r' j' :=
  get_set ..

/-- A scale after a write of one. -/
theorem scaleV_setSc (h : Hart) (reg r j : Nat) (x : BitVec 8) (reg' r' j' : Nat) :
    (h.setSc reg r j x).scaleV reg' r' j' =
      if stripKey reg r j = stripKey reg' r' j' then x else h.scaleV reg' r' j' :=
  get_set ..

/-- An anchored slot after a write of one. -/
theorem slotA_setA (h : Hart) (reg r sl : Nat) (x : Slot) (reg' r' sl' : Nat) :
    (h.setA reg r sl x).slotA reg' r' sl' = if anchKey reg r sl = anchKey reg' r' sl' then x else h.slotA reg' r' sl' :=
  get_set ..

end Sys2Proof.Machine
end

