-- ==== Sys2Proof/Laws/Sequencer.lean ====
section
/-!
SUPPORT. What issuing a queued instruction does that reads and writes registers only: it sweeps its positions in order
(R199), writes its scalar result (R145), and leaves the queue.
-/

namespace Sys2Proof.Machine

/-- n positions of an instruction, on the saved registers. -/
def sweep (E : VOp → Ctx → VOp × Ctx) : Nat → VOp → Ctx → VOp × Ctx
  | 0, op, c => (op, c)
  | n + 1, op, c => sweep E n (E op c).1 (E op c).2

/-- An instruction whose every position changes only the saved registers and its own running values, as E says, and whose
scalar result is R. -/
structure Register (i : Instr) (E : VOp → Ctx → VOp × Ctx) (R : VOp → Hart → Hart) : Prop where
  memory : touchesMemory i = false
  gossip : isGossip i = false
  start : ∀ h, (startOf h i).1 = 0
  store : isVecStore i = false
  vbeg : usesVbeg i = false
  keep : ∀ op c, op.i = i → (E op c).1.i = i ∧ (E op c).1.len = op.len ∧ (E op c).1.pos = op.pos + 1 ∧
    (E op c).1.served = op.served ∧ (E op c).1.call = op.call
  unit : ∀ op s, op.i = i → op.pos < op.len → s.spots = [] →
    serveUnit op s = .ok (E op s.cur.ctx).1 { s with cur := { s.cur with ctx := (E op s.cur.ctx).2 } }
  scalar : ∀ op s, op.i = i → scalarResult op s = .ok ⟨⟩ { s with cur := R op s.cur }

variable {i : Instr} {E : VOp → Ctx → VOp × Ctx} {R : VOp → Hart → Hart}

/-- An empty queue is served in no step. -/
theorem serveN_empty (n : Nat) {s : State} (h : s.cur.vq = []) : serveN n s = .ok ⟨⟩ s := by
  cases n with
  | zero => rfl
  | succ n =>
    unfold serveN
    rw [hart_bind_apply]
    simp [h, pure_apply]

/-- A hart that owes nothing goes on (R257, R461). -/
theorem takeDue_nothing {s : State} (h : s.cur.due = .nothing) : takeDue s = .ok ⟨⟩ s := by
  unfold takeDue
  rw [hart_bind_apply, h]
  rfl

/-- The progress indices after an instruction's progress is recorded (R197). -/
def progAfter (act : Bool) (op : VOp) (h : Hart) : AMap Progress :=
  ((destsOf op.i).filter fun k => !(h.vq.tail.flatMap fun o => destsOf o.i).contains k).foldl
    (fun m k => AMap.put m k { act := act, cnt := BitVec.ofNat 14 (min op.pos (elemsOf op)) }) h.prog

theorem trackProgress_eq (act : Bool) (op : VOp) :
    trackProgress act op = modHart fun h => { h with prog := progAfter act op h } := rfl

/-- The head of the queue completes (R145, R197). -/
theorem finishHead_register (hi : Register i E R) {op : VOp} (ho : op.i = i) (hc : op.call = false) (s : State) :
    ∃ p, finishHead op s =
      .ok ⟨⟩ { s with cur := { R op { s.cur with prog := p } with vq := (R op { s.cur with prog := p }).vq.tail } } := by
  refine ⟨progAfter false op s.cur, ?_⟩
  unfold finishHead
  rw [trackProgress_eq, modHart_bind_apply, bind_ok (hi.scalar op _ ho), modHart_apply, ho, hi.store, hi.vbeg, hc]
  rfl

/-- A queue of one instruction is served to its end. -/
theorem serveN_register (hi : Register i E R) (hR : ∀ op h, (R op h).vq = h.vq) :
    ∀ n op s, s.cur.vq = [op] → op.i = i → op.call = false → s.spots = [] → s.cur.due = .nothing → op.served = s.now →
      op.len - op.pos = n →
      ∃ p, serveN (n + 1) s = .ok ⟨⟩ { s with cur :=
        { R (sweep E n op s.cur.ctx).1
            { s.cur with ctx := (sweep E n op s.cur.ctx).2, prog := p, vq := [(sweep E n op s.cur.ctx).1] } with vq := [] } } := by
  intro n
  induction n with
  | zero =>
    intro op s hq ho hc hs hd ht hl
    obtain ⟨p, hp⟩ := finishHead_register hi ho hc s
    refine ⟨p, ?_⟩
    have hle : op.len ≤ op.pos := by omega
    unfold serveN
    rw [hart_bind_apply]
    simp only [hq, List.isEmpty_cons, Bool.not_false, if_true]
    have hh : serveHead s = finishHead op s := by
      unfold serveHead
      rw [hart_bind_apply]
      simp only [hq]
      rw [bind_ok (takeDue_nothing hd)]
      simp only [ho, hi.memory, hi.gossip, hle, if_true, Bool.false_eq_true, if_false]
    rw [bind_ok (hh.trans hp)]
    simp only [sweep, hR, hq, List.tail_cons]
    show serveN 0 _ = _
    simp only [serveN, pure_apply, ← hq]
  | succ n ih =>
    intro op s hq ho hc hs hd ht hl
    have hlt : op.pos < op.len := by omega
    have hnle : ¬ op.len ≤ op.pos := by omega
    have hk := hi.keep op s.cur.ctx ho
    unfold serveN
    rw [hart_bind_apply]
    simp only [hq, List.isEmpty_cons, Bool.not_false, if_true]
    have hu := hi.unit op s ho hlt hs
    have hh : serveHead s = (do
        saveHead (E op s.cur.ctx).1
        if (E op s.cur.ctx).1.len ≤ (E op s.cur.ctx).1.pos then finishHead (E op s.cur.ctx).1
        else trackProgress true (E op s.cur.ctx).1) { s with cur := { s.cur with ctx := (E op s.cur.ctx).2 } } := by
      unfold serveHead
      rw [hart_bind_apply]
      simp only [hq]
      rw [bind_ok (takeDue_nothing hd)]
      simp only [ho, hi.memory, hnle, hc, Bool.false_eq_true, if_false, get_bind_apply]
      have hop : ({ op with i := i, served := s.now, call := false } : VOp) = op := by rw [← ht, ← ho, ← hc]
      rw [hop, bind_ok hu]
      simp only [hq]
    by_cases hle : (E op s.cur.ctx).1.len ≤ (E op s.cur.ctx).1.pos
    · have hn : n = 0 := by omega
      subst hn
      simp only [hle, if_true, saveHead, modHart_bind_apply] at hh
      obtain ⟨p, hp⟩ := finishHead_register hi hk.1 (hk.2.2.2.2.trans hc)
        { s with cur := { s.cur with ctx := (E op s.cur.ctx).2, vq := [(E op s.cur.ctx).1] } }
      refine ⟨p, ?_⟩
      rw [hq] at hh
      rw [bind_ok (hh.trans hp), serveN_empty]
      · simp only [sweep, hR, List.tail_cons]
      · simp only [hR, List.tail_cons]
    · simp only [hle, if_false, saveHead, trackProgress_eq, hq, modHart_bind_apply, modHart_apply] at hh
      rw [bind_ok hh]
      obtain ⟨p, hp⟩ := ih (E op s.cur.ctx).1
        { s with cur := { s.cur with
          ctx := (E op s.cur.ctx).2, vq := [(E op s.cur.ctx).1],
          prog := progAfter true (E op s.cur.ctx).1
            { s.cur with ctx := (E op s.cur.ctx).2, vq := [(E op s.cur.ctx).1] } } }
        rfl hk.1 (hk.2.2.2.2.trans hc) hs hd (hk.2.2.2.1.trans ht) (by omega)
      refine ⟨p, ?_⟩
      simpa only [sweep] using hp

/-- Retiring leaves the queue and the progress indices alone. -/
theorem retire_queue (h : Hart) (q : List VOp) (p : AMap Progress) :
    ({ h with vq := q, prog := p } : Hart).retire = { h.retire with vq := q, prog := p } := by
  have more : ({ h with vq := q, prog := p } : Hart).hasMore = h.hasMore := rfl
  unfold Hart.retire
  rw [more]
  unfold Hart.count Hart.advance
  split <;>
  · cases hr : h.ctx.resid with
    | none => simp only [hr]
    | some k =>
      simp only [Hart.atResid]
      cases h.code[k + 1]? <;> rfl

/-- The work of a queue of one instruction. -/
theorem queueWork_one (op : VOp) : queueWork [op] = op.len - op.pos + 1 := by simp [queueWork]

/-- Issuing an instruction that reads and writes registers only completes it (R145, R199): every field of the hart but the
saved registers, the progress indices and what retiring changes is as before, and so is the rest of the package. -/
theorem issue_register (hi : Register i E R) (hR : ∀ op h, (R op h).vq = h.vq) {s : State} (hs : s.Plain)
    (ra rb rc : GReg) (t : Option Tensor) :
    ∃ p, runHart (issue i ra rb rc true t) s = .next { s with free := s.free + 1, cur :=
      { R (sweep E (enterOp s i ra rb rc t).len (enterOp s i ra rb rc t) s.cur.retire.ctx).1
          { s.cur.retire with
            ctx := (sweep E (enterOp s i ra rb rc t).len (enterOp s i ra rb rc t) s.cur.retire.ctx).2
            prog := p
            vq := [(sweep E (enterOp s i ra rb rc t).len (enterOp s i ra rb rc t) s.cur.retire.ctx).1] } with vq := [] } } := by
  have hent : (s.cur.enqueue (enterOp s i ra rb rc t)).retire.vq = [enterOp s i ra rb rc t] := by
    simp [Hart.enqueue, hs.queue]
  have hctx : (s.cur.enqueue (enterOp s i ra rb rc t)).retire.ctx = s.cur.retire.ctx := by
    rw [Hart.enqueue, retire_queue]
  have hpos : (enterOp s i ra rb rc t).pos = 0 := hi.start s.cur
  obtain ⟨p, hp⟩ := serveN_register hi hR (enterOp s i ra rb rc t).len (enterOp s i ra rb rc t)
    { s with cur := (s.cur.enqueue (enterOp s i ra rb rc t)).retire, free := s.free + 1 } hent rfl rfl hs.spots
    (by simpa [Hart.enqueue] using hs.due) rfl (by rw [hpos, Nat.sub_zero])
  refine ⟨p, ?_⟩
  have hm : issue i ra rb rc true t s = serveN ((enterOp s i ra rb rc t).len + 1)
      { s with cur := (s.cur.enqueue (enterOp s i ra rb rc t)).retire, free := s.free + 1 } := by
    unfold issue
    rw [get_bind_apply]
    simp only [hi.store, Bool.false_eq_true, false_and, if_false, Bool.not_true, set_bind_apply, hs.serve]
    unfold drainQueue
    rw [hart_bind_apply, hent, queueWork_one, hpos]
    rfl
  rw [runHart_running hs.running]
  refine run_ok (hm.trans (hp.trans ?_))
  simp only [hctx]
  have hrest : ∀ (c : Ctx) (q : List VOp), ({ (s.cur.enqueue (enterOp s i ra rb rc t)).retire with ctx := c, prog := p, vq := q } : Hart)
      = { s.cur.retire with ctx := c, prog := p, vq := q } := by
    intro c q
    rw [Hart.enqueue, retire_queue]
  simp only [hrest]

end Sys2Proof.Machine
end

