-- ==== Sys2Proof/Laws/Positions.lean ====
section
/-!
SUPPORT. A sweep over positions (R199), once for all: what it leaves of every slot, mask bit and flag where each position
writes its own slot of the destination and its own bit of the exception mask.
-/

namespace Sys2Proof.Machine

/-- What holds of n positions, from what holds of each. -/
theorem sweep_induct (E : VOp → Ctx → VOp × Ctx) (P : Nat → VOp → Ctx → Prop) {n : Nat} {op : VOp} {c : Ctx} (h0 : P 0 op c)
    (hs : ∀ k op c, k < n → P k op c → P (k + 1) (E op c).1 (E op c).2) :
    P n (sweep E n op c).1 (sweep E n op c).2 := by
  suffices h : ∀ m k op c, k + m = n → P k op c → P n (sweep E m op c).1 (sweep E m op c).2 from
    h n 0 op c (by omega) h0
  intro m
  induction m with
  | zero =>
    intro k op c hk hp
    have : k = n := by omega
    subst this
    exact hp
  | succ m ih =>
    intro k op c hk hp
    exact ih (k + 1) _ _ (by omega) (hs k op c (by omega) hp)

/-- The strip slots of saved registers. -/
def Ctx.slotV (c : Ctx) (reg r j : Nat) : Slot := Sparse.get c.v (stripKey reg r j)
/-- The mask bits of saved registers. -/
def Ctx.bitM (c : Ctx) (reg r j : Nat) : BitVec 1 := Sparse.get c.m (stripKey reg r j)
/-- A position is active under saved registers. -/
def Ctx.active (c : Ctx) (e : Option MReg) (r j : Nat) : Bool :=
  match e with
  | none => true
  | some pm => c.bitM pm.toNat r j == 1

/-- Saved registers with a strip slot written and flags raised. -/
def Ctx.putStrip (c : Ctx) (d r j : Nat) (y : Slot × BitVec 5) : Ctx :=
  { c with v := Sparse.set c.v (stripKey d r j) y.1, fflags := c.fflags ||| y.2 }

/-- Saved registers with a bit of the exception mask written, where there is one. -/
def Ctx.putExc (c : Ctx) (x : Option MReg) (r j : Nat) (b : BitVec 1) : Ctx :=
  match x with
  | none => c
  | some xm => { c with m := Sparse.set c.m (stripKey xm.toNat r j) b }

/-- One position of R199 with a strip destination: `val` gives the slot and the flags from the strip slots. -/
def Ctx.position (c : Ctx) (d : Nat) (x e : Option MReg)
    (val : (Nat → Nat → Nat → Slot) → Nat → Nat → Slot × BitVec 5) (r j : Nat) : Ctx :=
  if c.active e r j then
    (c.putStrip d r j (val c.slotV r j)).putExc x r j (excBit (val c.slotV r j).2)
  else c.putExc x r j 0

/-- A position's value depends on its own slots and on registers other than the destination only. -/
def Local (d : Nat) (val : (Nat → Nat → Nat → Slot) → Nat → Nat → Slot × BitVec 5) : Prop :=
  ∀ S T r j, (∀ reg r' j', r' < 8 → j' < 1024 → (reg ≠ d ∨ (r' = r ∧ j' = j)) → S reg r' j' = T reg r' j') →
    r < 8 → j < 1024 → val S r j = val T r j

/-- The flags of the first n positions of a shape. -/
def Ctx.flagsTo (c : Ctx) (e : Option MReg) (val : (Nat → Nat → Nat → Slot) → Nat → Nat → Slot × BitVec 5) (vl n : Nat) :
    BitVec 5 :=
  flagsOver (fun p => if c.active e (p / vl) (p % vl) then (val c.slotV (p / vl) (p % vl)).2 else 0) n

/-- What holds after k positions. -/
structure Swept (c0 : Ctx) (op0 : VOp) (d : Nat) (x e : Option MReg)
    (val : (Nat → Nat → Nat → Slot) → Nat → Nat → Slot × BitVec 5) (k : Nat) (op : VOp) (c : Ctx) : Prop where
  op : op = { op0 with pos := k }
  rest : c = { c0 with v := c.v, m := c.m, fflags := c.fflags }
  flags : c.fflags = c0.fflags ||| c0.flagsTo e val op0.vl k
  strip : ∀ reg r j, r < 8 → j < 1024 →
    c.slotV reg r j =
      if reg = d ∧ (r < op0.nr ∧ j < op0.vl) ∧ r * op0.vl + j < k ∧ c0.active e r j = true then (val c0.slotV r j).1
      else c0.slotV reg r j
  mask : ∀ reg r j, r < 8 → j < 1024 →
    c.bitM reg r j =
      if x.map BitVec.toNat = some reg ∧ (r < op0.nr ∧ j < op0.vl) ∧ r * op0.vl + j < k then
        (if c0.active e r j then excBit (val c0.slotV r j).2 else 0)
      else c0.bitM reg r j

/-- Position k of a shape. -/
theorem position_of {nr vl k : Nat} (hk : k < nr * vl) : k / vl < nr ∧ k % vl < vl ∧ k / vl * vl + k % vl = k := by
  have hv : 0 < vl := Nat.pos_of_ne_zero (fun h => by simp [h] at hk)
  refine ⟨Nat.div_lt_of_lt_mul (by rwa [Nat.mul_comm]), Nat.mod_lt _ hv, ?_⟩
  rw [Nat.mul_comm]
  exact Nat.div_add_mod k vl

/-- Positions are numbered once. -/
theorem position_unique {vl r j k : Nat} (hj : j < vl) (h : r * vl + j = k) : r = k / vl ∧ j = k % vl := by
  subst h
  have hv : 0 < vl := by omega
  rw [Nat.mul_comm, Nat.mul_add_div hv, Nat.mul_add_mod, Nat.div_eq_of_lt hj, Nat.mod_eq_of_lt hj]
  exact ⟨rfl, rfl⟩

variable {c0 : Ctx} {op0 : VOp} {d : Nat} {x e : Option MReg}
  {val : (Nat → Nat → Nat → Slot) → Nat → Nat → Slot × BitVec 5} {E : VOp → Ctx → VOp × Ctx}

theorem slotV_putExc (c : Ctx) (x : Option MReg) (r j : Nat) (b : BitVec 1) : (c.putExc x r j b).slotV = c.slotV := by
  cases x <;> rfl

theorem bitM_putExc (c : Ctx) (x : Option MReg) (r j : Nat) (b : BitVec 1) (reg r' j' : Nat) (hr : r < 8) (hj : j < 1024)
    (hr' : r' < 8) (hj' : j' < 1024) :
    (c.putExc x r j b).bitM reg r' j' =
      if x.map BitVec.toNat = some reg ∧ r = r' ∧ j = j' then b else c.bitM reg r' j' := by
  cases x with
  | none => simp [Ctx.putExc]
  | some xm =>
    simp only [Ctx.putExc, Ctx.bitM, get_set, stripKey_inj hr hr' hj hj', Option.map_some, Option.some.injEq]

theorem slotV_putStrip (c : Ctx) (d r j : Nat) (y : Slot × BitVec 5) (reg r' j' : Nat) (hr : r < 8) (hj : j < 1024)
    (hr' : r' < 8) (hj' : j' < 1024) :
    (c.putStrip d r j y).slotV reg r' j' = if d = reg ∧ r = r' ∧ j = j' then y.1 else c.slotV reg r' j' := by
  simp only [Ctx.putStrip, Ctx.slotV, get_set, stripKey_inj hr hr' hj hj']

/-- Nothing is done before the first position. -/
theorem swept_zero : Swept c0 op0 d x e val 0 { op0 with pos := 0 } c0 := by
  refine ⟨rfl, rfl, ?_, ?_, ?_⟩
  · simp [Ctx.flagsTo, flagsOver]
  · intro reg r j _ _; simp
  · intro reg r j _ _; simp

/-- One more position. -/
theorem swept_succ (hl : Local d val) (hrow : op0.nr ≤ 8) (helem : op0.vl ≤ 1024) {k : Nat} (hk : k < op0.nr * op0.vl)
    {op : VOp} {c : Ctx} (h : Swept c0 op0 d x e val k op c) :
    Swept c0 op0 d x e val (k + 1) { op with pos := op.pos + 1 } (c.position d x e val (k / op0.vl) (k % op0.vl)) := by
  obtain ⟨hr, hj, hkk⟩ := position_of hk
  have hr8 : k / op0.vl < 8 := by omega
  have hj1 : k % op0.vl < 1024 := by omega
  have hact : c.active e (k / op0.vl) (k % op0.vl) = c0.active e (k / op0.vl) (k % op0.vl) := by
    cases e with
    | none => rfl
    | some pm =>
      show (c.bitM _ _ _ == 1) = (c0.bitM _ _ _ == 1)
      rw [h.mask pm.toNat _ _ hr8 hj1]
      rw [if_neg (by omega)]
  have hval : val c.slotV (k / op0.vl) (k % op0.vl) = val c0.slotV (k / op0.vl) (k % op0.vl) := by
    refine hl _ _ _ _ ?_ hr8 hj1
    intro reg r' j' hr' hj' hne
    rw [h.strip reg r' j' hr' hj', if_neg]
    rintro ⟨h1, -, h3, -⟩
    rcases hne with hne | ⟨rfl, rfl⟩
    · exact hne h1
    · omega
  have hpos : ∀ r j, r < 8 → j < 1024 → (r < op0.nr ∧ j < op0.vl) →
      (r * op0.vl + j < k + 1 ↔ r * op0.vl + j < k ∨ (k / op0.vl = r ∧ k % op0.vl = j)) := by
    intro r j _ _ hs
    constructor
    · intro hlt
      by_cases he : r * op0.vl + j = k
      · obtain ⟨h1, h2⟩ := position_unique hs.2 he
        exact Or.inr ⟨h1.symm, h2.symm⟩
      · left; omega
    · rintro (hlt | ⟨rfl, rfl⟩)
      · omega
      · omega
  refine ⟨by rw [h.op], ?_, ?_, ?_, ?_⟩
  · unfold Ctx.position
    rw [h.rest]
    cases x <;> split <;> rfl
  · have hf : c0.flagsTo e val op0.vl (k + 1) = c0.flagsTo e val op0.vl k |||
        (if c0.active e (k / op0.vl) (k % op0.vl) then (val c0.slotV (k / op0.vl) (k % op0.vl)).2 else 0) := rfl
    rw [hf, ← BitVec.or_assoc, ← h.flags]
    unfold Ctx.position
    rw [hact, hval]
    cases x <;> split <;> simp [Ctx.putExc, Ctx.putStrip]
  · intro reg r j hr' hj'
    have hold := h.strip reg r j hr' hj'
    unfold Ctx.position
    rw [hact, hval]
    by_cases ha : c0.active e (k / op0.vl) (k % op0.vl) = true
    · rw [if_pos ha, slotV_putExc, slotV_putStrip _ _ _ _ _ _ _ _ hr8 hj1 hr' hj', hold]
      by_cases hit : d = reg ∧ k / op0.vl = r ∧ k % op0.vl = j
      · obtain ⟨rfl, rfl, rfl⟩ := hit
        rw [if_pos ⟨rfl, rfl, rfl⟩, if_pos ⟨rfl, ⟨hr, hj⟩, by omega, ha⟩]
      · rw [if_neg hit]
        by_cases hs : reg = d ∧ (r < op0.nr ∧ j < op0.vl)
        · have := hpos r j hr' hj' hs.2
          have hne : ¬ (k / op0.vl = r ∧ k % op0.vl = j) := fun hh => hit ⟨hs.1.symm, hh⟩
          simp only [this, hne, or_false]
        · rw [if_neg (fun hh => hs ⟨hh.1, hh.2.1⟩), if_neg (fun hh => hs ⟨hh.1, hh.2.1⟩)]
    · rw [if_neg ha, slotV_putExc, hold]
      by_cases hs : reg = d ∧ (r < op0.nr ∧ j < op0.vl)
      · have := hpos r j hr' hj' hs.2
        by_cases hit : k / op0.vl = r ∧ k % op0.vl = j
        · obtain ⟨rfl, rfl⟩ := hit
          simp [ha]
        · simp only [this, hit, or_false]
      · rw [if_neg (fun hh => hs ⟨hh.1, hh.2.1⟩), if_neg (fun hh => hs ⟨hh.1, hh.2.1⟩)]
  · intro reg r j hr' hj'
    have hold := h.mask reg r j hr' hj'
    have hput : (c.position d x e val (k / op0.vl) (k % op0.vl)).bitM reg r j =
        if x.map BitVec.toNat = some reg ∧ k / op0.vl = r ∧ k % op0.vl = j then
          (if c0.active e (k / op0.vl) (k % op0.vl) then excBit (val c0.slotV (k / op0.vl) (k % op0.vl)).2 else 0)
        else c.bitM reg r j := by
      unfold Ctx.position
      rw [hact, hval]
      by_cases ha : c0.active e (k / op0.vl) (k % op0.vl) = true
      · rw [if_pos ha, bitM_putExc _ _ _ _ _ _ _ _ hr8 hj1 hr' hj', if_pos ha]; rfl
      · rw [if_neg ha, bitM_putExc _ _ _ _ _ _ _ _ hr8 hj1 hr' hj', if_neg ha]
    rw [hput]
    by_cases hit : x.map BitVec.toNat = some reg ∧ k / op0.vl = r ∧ k % op0.vl = j
    · rw [if_pos hit]
      obtain ⟨hx, rfl, rfl⟩ := hit
      exact (if_pos ⟨hx, ⟨hr, hj⟩, by omega⟩).symm
    · rw [if_neg hit, hold]
      by_cases hs : x.map BitVec.toNat = some reg ∧ (r < op0.nr ∧ j < op0.vl)
      · have hne : ¬ (k / op0.vl = r ∧ k % op0.vl = j) := fun hh => hit ⟨hs.1, hh⟩
        simp only [hpos r j hr' hj' hs.2, hne, or_false]
      · rw [if_neg (fun hh => hs ⟨hh.1, hh.2.1⟩), if_neg (fun hh => hs ⟨hh.1, hh.2.1⟩)]

/-- A whole sweep, where each position is one of R199. -/
theorem sweep_positions (hl : Local d val) (hrow : op0.nr ≤ 8) (helem : op0.vl ≤ 1024)
    (hE : ∀ k op c, k < op0.nr * op0.vl → Swept c0 op0 d x e val k op c →
      E op c = ({ op with pos := op.pos + 1 }, c.position d x e val (k / op0.vl) (k % op0.vl))) (hp : op0.pos = 0) :
    Swept c0 op0 d x e val (op0.nr * op0.vl) (sweep E (op0.nr * op0.vl) op0 c0).1 (sweep E (op0.nr * op0.vl) op0 c0).2 := by
  refine sweep_induct E (Swept c0 op0 d x e val) ?_ ?_
  · have : ({ op0 with pos := 0 } : VOp) = op0 := by rw [← hp]
    exact this ▸ swept_zero
  · intro k op c hk h
    rw [hE k op c hk h]
    exact swept_succ hl hrow helem hk h

end Sys2Proof.Machine
end

