-- ==== Sys2Proof/Laws/Scalar.lean ====
section
/-!
SUPPORT. What a scalar instruction does, once for all: the value it writes, the flags it raises, and where the hart stands
when it has retired (R61, R144).
-/

namespace Sys2Proof.Machine

/-- Retiring moves one word on (R61). -/
theorem moves_retire (s : State) (h : Hart) (hp : h.ctx.pc = s.cur.ctx.pc) (hi : h.ctx.iter = s.cur.ctx.iter)
    (hr : h.ctx.resid = s.cur.ctx.resid) (hc : h.code = s.cur.code) (x : State) :
    Moves s { x with cur := h.retire } 1 := by
  constructor
  · intro hn
    rw [hn] at hr
    unfold Hart.retire
    split <;> simp [Hart.count, Hart.advance, hr, hp, hi]
  · intro k w hk hw
    rw [hk] at hr
    have one : (1 : BitVec 32).toInt = 1 := by decide
    have : ((k : Int) + (1 : BitVec 32).toInt).toNat = k + 1 := by omega
    rw [this] at hw ⊢
    unfold Hart.retire
    split <;> simp [Hart.count, Hart.advance, hr, Hart.atResid, hc, hw]

/-- A branch moves by its offset (R65, R370). -/
theorem moves_branch (s : State) (h : Hart) (off : BitVec 32) (hp : h.ctx.pc = s.cur.ctx.pc)
    (hi : h.ctx.iter = s.cur.ctx.iter) (hr : h.ctx.resid = s.cur.ctx.resid) (hc : h.code = s.cur.code) (x : State) :
    Moves s { x with cur := h.branch off } off := by
  constructor
  · intro hn
    rw [hn] at hr
    simp [Hart.branch, hr, hp, hi]
  · intro k w hk hw
    rw [hk] at hr
    simp [Hart.branch, hr, Hart.atResid, hc, hw]

/-- Advancing moves one word on (R61). -/
theorem moves_advance (s : State) (h : Hart) (hp : h.ctx.pc = s.cur.ctx.pc) (hi : h.ctx.iter = s.cur.ctx.iter)
    (hr : h.ctx.resid = s.cur.ctx.resid) (hc : h.code = s.cur.code) (x : State) :
    Moves s { x with cur := h.advance } 1 := by
  constructor
  · intro hn
    rw [hn] at hr
    simp [Hart.advance, hr, hp, hi]
  · intro k w hk hw
    rw [hk] at hr
    have one : (1 : BitVec 32).toInt = 1 := by decide
    have : ((k : Int) + (1 : BitVec 32).toInt).toNat = k + 1 := by omega
    rw [this] at hw ⊢
    simp [Hart.advance, hr, Hart.atResid, hc, hw]

theorem branch_leaves (h : Hart) (off : BitVec 32) :
    (h.branch off).retired = h.retired ∧ (h.branch off).wait = h.wait ∧ (h.branch off).ctx.g = h.ctx.g ∧
      (h.branch off).bare = h.bare := by
  unfold Hart.branch
  cases h.ctx.resid with
  | none => exact ⟨rfl, rfl, rfl, rfl⟩
  | some k => simp only [Hart.atResid]; split <;> exact ⟨rfl, rfl, rfl, rfl⟩

theorem advance_leaves (h : Hart) :
    h.advance.retired = h.retired ∧ h.advance.wait = h.wait ∧ h.advance.ctx.g = h.ctx.g ∧ h.advance.bare = h.bare := by
  unfold Hart.advance
  cases h.ctx.resid with
  | none => exact ⟨rfl, rfl, rfl, rfl⟩
  | some k => simp only [Hart.atResid]; split <;> exact ⟨rfl, rfl, rfl, rfl⟩

/-- What retiring a hart that differs in a written register changes. -/
theorem retired_wr (s : State) (h : Hart) (d : GReg) (x : Word) (hc : h.code = s.cur.code)
    (hctx : h.ctx.pc = s.cur.ctx.pc ∧ h.ctx.iter = s.cur.ctx.iter ∧ h.ctx.resid = s.cur.ctx.resid)
    (hn : h.retired = s.cur.retired) (u : State) : Retired s { u with cur := (h.wr d x).retire } := by
  refine ⟨?_, ?_, ?_⟩
  · have more : (h.wr d x).hasMore = s.cur.hasMore := by simp only [Hart.hasMore, Hart.residKind, wr_ctx_resid, wr_code, hctx.2.2, hc]
    show (Hart.retire _).retired = _
    rw [retire_retired, more, wr_retired, hn]
  · exact retire_wait _
  · obtain ⟨h1, h2, h3⟩ := hctx
    apply moves_retire <;> (unfold Hart.wr; split <;> assumption)

/-- A scalar instruction that only writes a register (R144). -/
theorem does_scalar {i : Instr} {s : State} {d : GReg} {x : Word} (f : Hart → Word) (hs : s.cur.status = .running)
    (he : exec i s = scalar (fun h => h.wr d (f h)) s) (hx : f s.cur = x) : Does i s d x := by
  refine ⟨_, he.trans (scalar_running hs), ?_, retired_wr s s.cur d _ rfl ⟨rfl, rfl, rfl⟩ rfl s, ⟨?_, ?_, rfl, fun _ => rfl⟩⟩
  · simp [rd_wr_same, hx]
  · intro r hr; simp [rd_wr_other _ _ hr]
  · show Hart.bare (Hart.retire _) = _
    unfold Hart.wr
    split <;> (unfold Hart.retire Hart.count Hart.advance Hart.atResid Hart.bare; (repeat' split) <;> rfl)

/-- A scalar instruction that writes a register and raises flags (R40, R144). -/
theorem doesFl_scalar {i : Instr} {s : State} {d : GReg} {x : Word} {fl : BitVec 5} (f : Hart → Word × BitVec 5)
    (hs : s.cur.status = .running) (he : exec i s = scalar (fun h => (h.raise (f h).2).wr d (f h).1) s)
    (hx : (f s.cur).1 = x) (hfl : (f s.cur).2 = fl) : DoesFl i s d x fl := by
  refine ⟨_, he.trans (scalar_running hs), ?_, ?_, retired_wr s (s.cur.raise _) d _ rfl ⟨rfl, rfl, rfl⟩ rfl s,
    ⟨?_, ?_, rfl, fun _ => rfl⟩⟩
  · simp [rd_wr_same, hx]
  · show (Hart.retire _).ctx.fflags = _
    rw [← hfl]
    unfold Hart.wr
    split <;> (unfold Hart.retire Hart.count Hart.advance Hart.atResid Hart.raise; (repeat' split) <;> rfl)
  · intro r hr; simp [rd_wr_other _ _ hr]
  · show Hart.bareFl (Hart.retire _) = _
    unfold Hart.wr
    split <;>
      (unfold Hart.retire Hart.count Hart.advance Hart.atResid Hart.bareFl Hart.bare Hart.raise; (repeat' split) <;> rfl)

/-- A branch instruction (R155). -/
theorem branches_on {i : Instr} {s : State} {off : BitVec 32} {taken : Bool} (p : Hart → Bool)
    (hs : s.cur.status = .running) (he : exec i s = branchOn p off s) (hp : p s.cur = taken) : Branches i s off taken := by
  subst hp
  refine ⟨{ s with cur := branchIf (p s.cur) off s.cur.count }, he.trans (by simp only [branchOn, hs, if_true]), ?_, ?_, ?_, rfl, ?_, ?_, fun _ => rfl⟩
  · unfold branchIf
    cases p s.cur
    · exact moves_advance s s.cur.count rfl rfl rfl rfl s
    · exact moves_branch s s.cur.count off rfl rfl rfl rfl s
  · intro r
    apply rd_congr
    show (branchIf _ _ _).ctx.g = _
    unfold branchIf
    cases p s.cur
    · exact (advance_leaves _).2.2.1
    · exact (branch_leaves _ _).2.2.1
  · show (branchIf _ _ _).bare = _
    unfold branchIf
    cases p s.cur
    · exact (advance_leaves _).2.2.2
    · exact (branch_leaves _ _).2.2.2
  · show (branchIf _ _ _).retired = _
    unfold branchIf
    cases p s.cur
    · exact (advance_leaves _).1
    · exact (branch_leaves _ _).1
  · show (branchIf _ _ _).wait = _
    unfold branchIf
    cases p s.cur
    · exact (advance_leaves _).2.1
    · exact (branch_leaves _ _).2.1

end Sys2Proof.Machine
end

