-- ==== Sys2Proof/Tests/Slice0.lean ====
section
/-!
SUPPORT. Tests: words of the spec decode to their instructions, ill-formed terms are refused, worked examples of the spec
give their results, and for every statement with hypotheses a small state meets them.
-/

open Sys2Proof Sys2Proof.Machine

namespace Sys2Proof.Tests

set_option Elab.async false

/-! Small states. -/

/-- A partition whose translation root is at 0x1000, with queues 0 and 2. -/
def part0 : Partition :=
  { root := 0x1000, queues := [(0, Queue.init), (2, { Queue.init with en := true, prio := 9 })], fifo := [], nextSeq := 1,
    lastDone := 0, kx := [], elog := [], elogAt := 0x400000, elogCap := 64, elogNext := 0, overruns := 0, windows := [(0, 0x8000)], peers := [6], breaks := [],
    debug := false, stepIssue := false, holdLim := 16 }

/-- Tables that map the first GiB to itself. -/
def tables : List Host.Cell :=
  [(0x1000, 0x03), (0x1001, 0x20), (0x2000, 0x03), (0x2001, 0x30), (0x3000, 0x1F), (0x3007, 0x60)]

/-- A hart of launch 5 with two tiles, a slice of 64 entries, one row of two elements. -/
def hart1 : Hart :=
  { Hart.blank with
    hid := 1, status := .running, lid := 5, tw := 128, ntiles := 2, xcap := 64, tfb := 0x6000,
    ctx := { Hart.blank.ctx with pc := 0x8000, vl := 2, nr := 1 },
    tiles := List.replicate 2 { p := [], a := [], ovf := false, void := true, place := .here } }

/-- One hart runs on core 0. -/
def one : State := { State.reset with mem := tables, parts := [(0, part0)], cur := hart1, nextHid := 9, now := 5000 }

/-- The same with a value in each of g1 to g5. -/
def regs : State := { one with cur := ((((one.cur.wr 1 0x100).wr 2 7).wr 3 0xFFFFFFFFFFFFFFFE).wr 4 2).wr 5 0x2000 }

/-- The same with a change to its hart. -/
def with_ (f : Hart → Hart) : State := { regs with cur := f regs.cur }

/-- Nothing stands in the way of the hart. -/
theorem test_plain : regs.Plain := ⟨⟨rfl, rfl, rfl, rfl, rfl⟩, rfl, rfl, rfl⟩

theorem test_shaped : regs.Shaped := ⟨by decide, by decide⟩

/-- A test of what a resolution gives. -/
def isOk {ε α : Type} (x : Except ε α) (p : α → Bool) : Bool :=
  match x with
  | .ok a => p a
  | .error _ => false

/-- A test of how a resolution fails. -/
def isErr {ε α : Type} (x : Except ε α) (p : ε → Bool) : Bool :=
  match x with
  | .ok _ => false
  | .error e => p e

/-- A test of a value that is there. -/
def isSome {α : Type} (x : Option α) (p : α → Bool) : Bool :=
  match x with
  | some a => p a
  | none => false

/-! Each statement's hypotheses are met. -/

/-- At 0x8000 stands `add g5, g6, g7`. -/
def coded : State :=
  { regs with mem := tables ++ [(0x8003, 0xC0), (0x8004, 0x61), (0x8005, 0x14), (0x8007, 0x04)] }

/-- A hart at a word that is no instruction, and one at a residual word. -/
def atBad : State := { regs with cur := { regs.cur with ctx := { regs.cur.ctx with pc := 0x18 } } }
def inResid : State :=
  { regs with cur := { regs.cur with
      ctx := { regs.cur.ctx with resid := some 0 },
      code := [{ word := 0x04001461C0000000, opc := 0x1000, iter := 0, kind := .instr }] } }

/-- What is fetched, when the word is known. -/
theorem fetched_of {s : State} {w : Word} (h : s.fetched.map Prod.fst = some w) : ∃ t, s.fetched = some (w, t) := by
  cases e : s.fetched with
  | none => rw [e] at h; cases h
  | some x =>
    rw [e] at h
    obtain ⟨a, t⟩ := x
    exact ⟨t, by rw [← Option.some.inj h]⟩

/-- A hart waits at a barrier, one is stopped, and one is single-stepped, at its first instruction or past it. -/
def waiting0 : State := { regs with cur := { regs.cur with wait := some (.bar 0 false none) } }
def stopped0 : State := { regs with cur := { regs.cur with status := .stopped .plain } }
def stepped (pc : Word) : State := { regs with cur := { regs.cur with stepping := some false, stepPc := pc, stepIter := 0 } }

theorem test_coded_turns : coded.Turns := ⟨rfl, by decide +kernel, by decide +kernel, by decide +kernel, by decide +kernel, by decide +kernel⟩
theorem test_resid_turns : inResid.Turns := ⟨rfl, by decide +kernel, by decide +kernel, by decide +kernel, by decide +kernel, by decide +kernel⟩
theorem test_bad_turns : atBad.Turns := ⟨rfl, by decide +kernel, by decide +kernel, by decide +kernel, by decide +kernel, by decide +kernel⟩

theorem test_meets_StepRunsDecoded :
    (coded.Turns ∧ (∃ t, coded.turn.fetched = some (0x04001461C0000000, t)) ∧
      decode true (decide (coded.part = .tl460)) 0x04001461C0000000 = .instr false (.add 5 6 7) ∧
      coded.turn.cur.awaitsResult 0x04001461C0000000 (.add 5 6 7) = false) ∧
    (inResid.Turns ∧ ∃ t, inResid.turn.fetched = some (0x04001461C0000000, t)) ∧
    (regs.cur.stepping = none ∧ waiting0.cur.wait ≠ none) ∧
    (∀ pc, (stepped pc).cur.stepping = some false ∧ (stepped pc).cur.status = .running ∧ (stepped pc).cur.wait = none ∧
      (stepped pc).cur.capWait = none ∧ (stepped pc).cur.vq = [] ∧ (stepped pc).cur.sq = []) ∧
    ((stepped 0x8000).cur.ctx.pc = (stepped 0x8000).cur.stepPc ∧ (stepped 0x7FF8).cur.ctx.pc ≠ (stepped 0x7FF8).cur.stepPc) ∧
    (stopped0.inbox = [] ∧ stopped0.passTime.issues = false) ∧ ({ regs with inbox := [.yield] } : State).inbox = [.yield] :=
  ⟨⟨test_coded_turns, fetched_of (by decide +kernel), rfl, by decide +kernel⟩,
    ⟨test_resid_turns, fetched_of (by decide +kernel)⟩, ⟨rfl, nofun⟩,
    fun _ => ⟨rfl, rfl, rfl, rfl, rfl, rfl⟩, by decide +kernel, ⟨rfl, by decide +kernel⟩, rfl⟩

theorem test_meets_IllegalWordTraps :
    (atBad.Turns ∧ ∃ t, atBad.turn.fetched = some (0, t)) ∧ decode true (decide (atBad.part = .tl460)) 0 = .illegal ∧
    decode true (decide (({ atBad with part := .tl430 } : State).part = .tl460)) 0x1C08105000000002 = .unitAbsent :=
  ⟨⟨test_bad_turns, fetched_of (by decide +kernel)⟩, rfl, rfl⟩

theorem test_meets_DecodeOfEncode :
    encode true (.addi 6 0 16) = some 0x4440180000000010 ∧ (Instr.addi 6 0 16).wf = true ∧
    (0x4440180000000010 : Word).extractLsb' 63 1 = 0 ∧ (Instr.addi 6 0 16).markable = true ∧
    encode false (.pairWord false (.alu .add 5 6) false (.vec .addF 2 3)) = some 0x801460000F083000 ∧
    (Instr.pairWord false (.alu .add 5 6) false (.vec .addF 2 3)).wf = true ∧
    (0x801460000F083000 : Word).extractLsb' 63 1 = 1 := ⟨rfl, rfl, rfl, rfl, rfl, rfl, rfl⟩

theorem test_meets_MemoryFormKept :
    Memory.wf regs.mem = true ∧ (match step { regs with inbox := [.mgmtCoreRestart 0] } with | .next _ => true | _ => false) = true :=
  ⟨by decide +kernel, by decide +kernel⟩

theorem test_meets_ScalarInteger : regs.cur.status = .running := rfl
theorem test_meets_ScalarFloat : regs.cur.status = .running := rfl
theorem test_meets_ScalarConvert : regs.cur.status = .running := rfl

/-- 1.0 in f32. -/
theorem test_meets_RoundingKeepsExact :
    0x3F800000 < 2 ^ FF.f32.width ∧ ∃ neg m e, FF.f32.decode 0x3F800000 = .fin neg m e := ⟨by decide, _, _, _, rfl⟩

/-- A target that is a multiple of 8 and one that is not. -/
theorem test_meets_BranchesAndJumps :
    regs.cur.status = .running ∧ (regs.cur.rd 1 + (8 : BitVec 32).signExtend 64).extractLsb' 0 3 = 0 ∧
    (regs.cur.rd 1 + (9 : BitVec 32).signExtend 64).extractLsb' 0 3 ≠ 0 := by decide +kernel

theorem test_unlogged : regs.Unlogged := rfl

theorem test_meets_ControlReads :
    regs.Plain ∧ regs.Unlogged ∧ regs.creg 0x600 = some 0x0460 ∧ regs.creg 0x005 = none ∧
    (with_ fun h => { h with ordered := true }).cur.ordered = true ∧ regs.cur.priv = false ∧
    ({ regs with part := .tl430 } : State).part = .tl430 :=
  ⟨test_plain, test_unlogged, rfl, rfl, rfl, rfl, rfl⟩

theorem test_meets_ControlWrite :
    regs.Plain ∧ regs.cur.ctx.thb &&& 0x00FFFFFFFFFFFFF8 = regs.cur.ctx.thb ∧ (3 : BitVec 2).toNat < regs.cur.chans.length ∧
    ((regs.cur.rd 0).extractLsb' 0 3).toNat < 4 ∧ 4 ≤ ((regs.cur.rd 2).extractLsb' 0 3).toNat ∧
    (1 ≤ ((regs.cur.rd 2).extractLsb' 0 4).toNat ∧ ((regs.cur.rd 2).extractLsb' 0 4).toNat ≤ 8) ∧
    (((regs.cur.rd 0).extractLsb' 0 4).toNat = 0 ∧ 8 < ((regs.cur.rd 3).extractLsb' 0 4).toNat) ∧
    (0x0FF : BitVec 12).toNat < 0x100 ∧ (0x600 ≤ (0x6FF : BitVec 12).toNat ∧ (0x6FF : BitVec 12).toNat < 0x700) :=
  ⟨test_plain, by decide +kernel⟩

theorem test_meets_GrantRequests :
    regs.Plain ∧ regs.Unlogged ∧ 64 ≤ 64 * 1 ∧ (regs.die (regs.cur.core / 32)).trEn = false ∧
    (1 : Nat) < 16 := ⟨test_plain, test_unlogged, by decide, rfl, by decide⟩

theorem test_meets_GrantReleaseAndShape : regs.Plain ∧ regs.Unlogged := ⟨test_plain, test_unlogged⟩

theorem test_meets_SystemReadsAndHints :
    regs.cur.status = .running ∧ regs.Unlogged ∧ (5 : BitVec 3).toNat < 6 ∧
    (regs.die (regs.cur.core / 32)).trEn = false ∧ regs.cur.sealed = none ∧
    (with_ fun h => { h with sealed := some 0 }).cur.sealed.isSome = true := ⟨rfl, rfl, by decide, rfl, rfl, rfl⟩

/-- A store-fault record. -/
def record1 : StoreFault := { addr := 0x40, opc := 0x1000, iter := 0, w3 := 0 }

theorem test_meets_FaultQueueAndInvalidation :
    regs.cur.status = .running ∧ (3 : BitVec 3).toNat ≤ 3 ∧ regs.cur.sfq = [] ∧
    (let s := with_ fun h => { h with sfq := [record1] }
     s.cur.status = .running ∧ s.cur.sfq = record1 :: [] ∧ s.cur.sfHeld = []) ∧
    (let s := with_ fun h => { h with sfq := [record1], sfHeld := [record1] }
     s.cur.status = .running ∧ s.cur.sfq = record1 :: [] ∧ s.cur.sfHeld = record1 :: []) := by decide +kernel

/-- A hart whose handler is set, and one that runs it after a terminating or a resumable cause. -/
def handled : State := with_ fun h => { h with ctx := { h.ctx with thb := 0x2000 } }
def frame1 : HFrame := { ctx := { Ctx.init with vl := 2 }, vq := [], prog := [], spx := hart1.spx, sq := [], shadow := [], trap := hart1.trap }
def inHandler (term : Bool) : State :=
  with_ fun h => { h with
    ctx := { h.ctx with thb := 0x2000 }, trap := { h.trap with hdl := true, term := term }, hframe := some frame1 }

/-- The same whose frame area does not translate, and a handler frame as it was written. -/
def noFrame : State := with_ fun h => { h with ctx := { h.ctx with thb := 0x2000 }, tfb := 0x40000000 }
def inHandlerFrame : State := { inHandler false with frames := [(3, 0x111000)] }

theorem test_meets_TerminatingTraps :
    (handled.cur.sq = [] ∧ handled.cur.behind = [] ∧ handled.cur.ctx.thb ≠ 0 ∧ handled.cur.trap.hdl = false ∧ (22 : Nat) ≠ 30 ∧
      22 < 256 ∧ handled.Untraced ∧ handled.recordBytes 0 0x3FFFFF = false) ∧
    (regs.cur.status ≠ .absent ∧ regs.cur.ctx.thb = 0) ∧
    ((inHandler true).cur.status ≠ .absent ∧ (inHandler true).cur.trap.hdl = true) := by
  unfold State.Untraced; decide +kernel

/-- The same where the saved grant is one lane group and the hart has none: all are free, or all are held by slot 1. -/
def lessGrant : State := { inHandlerFrame with cur := inHandlerFrame.cur.onCtx fun c => { c with vl := 0 } }
def noGrant : State :=
  { lessGrant with cores := [(0, { regs.core 0 with
      lat := List.replicate 16 { held := true, owner := 1, mark := false, ear := 0 } })] }

/-- A debugger is attached. -/
def debugged : State := { regs with parts := [(0, { part0 with debug := true })] }

theorem test_meets_SoftwareTraps :
    regs.cur.status = .running ∧ regs.debugged = false ∧ (0x7FFFFF : BitVec 24).toNat < 0x800000 ∧
    regs.cur.handlerOpen = false ∧ 0x800003 < (0x800004 : BitVec 24).toNat ∧
    (debugged.cur.status = .running ∧ debugged.debugged = true ∧ debugged.cur.vq = []) := by decide +kernel

theorem test_meets_ServiceCalls :
    handled.cur.status = .running ∧ (0x7FFFFF : BitVec 24).toNat < 0x800000 ∧ handled.cur.ctx.thb ≠ 0 ∧
    handled.cur.trap.hdl = false ∧ (handled.framePa handled.cur true).isSome = true ∧
    (noFrame.cur.status = .running ∧ noFrame.framePa noFrame.cur true = none) := by decide +kernel

theorem committing_of (s : State) (p : s.Plain) (a : s.Unlogged) (b : s.migr = []) (c : s.cur.defer = [])
    (d : s.cur.intents = []) (e : s.cur.defs = []) (f : s.cur.half = none) (g : AMap.sorted s.cur.ver = true) :
    s.Committing := { p with unlogged := a, still := b, defer := c, intents := d, defs := e, half := f, once := g }

theorem test_meets_TrapReturns :
    (regs.cur.status = .running ∧ regs.cur.trap.hdl = false) ∧
    ((inHandler false).Plain ∧ (inHandler false).cur.trap.hdl = true ∧ (inHandler false).cur.trap.term = false ∧
      (inHandler false).cur.hframe = some frame1 ∧ (inHandler false).frameFits (inHandler false).cur true = false) ∧
    (inHandlerFrame.Plain ∧ inHandlerFrame.cur.trap.hdl = true ∧ inHandlerFrame.cur.trap.term = false ∧
      inHandlerFrame.cur.hframe = some frame1 ∧ inHandlerFrame.frameFits inHandlerFrame.cur true = true ∧
      frame1.ctx.vl = inHandlerFrame.cur.ctx.vl) ∧
    (lessGrant.Plain ∧ lessGrant.frameFits lessGrant.cur true = true ∧ frame1.ctx.vl ≠ lessGrant.cur.ctx.vl ∧
      (frame1.ctx.vl + 63) / 64 ≤ lessGrant.avail lessGrant.cur) ∧
    (noGrant.Plain ∧ noGrant.cur.hframe = some frame1 ∧ noGrant.frameFits noGrant.cur true = true ∧
      frame1.ctx.vl ≠ noGrant.cur.ctx.vl ∧ noGrant.avail noGrant.cur < (frame1.ctx.vl + 63) / 64) ∧
    ((inHandler true).Committing ∧ (inHandler true).cur.ver = [] ∧ (inHandler true).hist = [] ∧
      (inHandler true).cur.ordered = false ∧ (inHandler true).cur.trap.hdl = true ∧ (inHandler true).cur.trap.term = true) :=
  ⟨⟨rfl, rfl⟩, ⟨⟨⟨rfl, rfl, rfl, rfl, rfl⟩, rfl, rfl, rfl⟩, rfl, rfl, rfl, by decide +kernel⟩,
    ⟨⟨⟨rfl, rfl, rfl, rfl, rfl⟩, rfl, rfl, rfl⟩, rfl, rfl, rfl, by decide +kernel, rfl⟩,
    ⟨⟨⟨rfl, rfl, rfl, rfl, rfl⟩, rfl, rfl, rfl⟩, by decide +kernel, by decide, by decide +kernel⟩,
    ⟨⟨⟨rfl, rfl, rfl, rfl, rfl⟩, rfl, rfl, rfl⟩, rfl, by decide +kernel, by decide, by decide +kernel⟩,
    ⟨committing_of _ ⟨⟨rfl, rfl, rfl, rfl, rfl⟩, rfl, rfl, rfl⟩ rfl rfl rfl rfl rfl rfl rfl, rfl, rfl, rfl, rfl, rfl⟩⟩

/-- The hart of an ordered launch with every earlier task done, at timestamp 3. -/
def ordered : State := with_ fun h => { h with ordered := true, pts := 3 }
theorem test_ordered_plain : ordered.Plain := ⟨⟨rfl, rfl, rfl, rfl, rfl⟩, rfl, rfl, rfl⟩
theorem test_committing : regs.Committing := committing_of _ test_plain rfl rfl rfl rfl rfl rfl rfl
theorem test_ordered_committing : ordered.Committing := committing_of _ test_ordered_plain rfl rfl rfl rfl rfl rfl rfl
theorem test_roomy : ((regs.commitTask 0).beginAfter).Roomy := by unfold State.Roomy; decide +kernel

theorem test_meets_PhaseCommits :
    (regs.Committing ∧ regs.cur.ordered = false ∧ ((regs.commitTask 0).beginAfter).Roomy ∧ regs.cur.trap.hdl = false) ∧
    (ordered.Committing ∧ ordered.cur.ordered = true ∧ ordered.oldest = true ∧ ordered.cur.trap.hdl = false ∧
      ordered.cur.pts ≠ BitVec.allOnes 64 ∧ ordered.rest = [] ∧ ordered.cur.pts.toNat < (ordered.cur.rd 2).toNat) ∧
    (regs.Plain ∧ regs.cur.half = none) ∧
    (ordered.Plain ∧ ordered.cur.half = none ∧ (ordered.cur.rd 4).toNat ≤ ordered.cur.pts.toNat) ∧
    (let s := with_ fun h => { h with ordered := true, pts := BitVec.allOnes 64 }
     s.Plain ∧ s.cur.half = none ∧ s.cur.ordered = true ∧ s.cur.pts = BitVec.allOnes 64 ∧ s.oldest = true ∧
       s.cur.copiesDone = true ∧ s.cur.defer = []) ∧
    (let s := with_ fun h => { h with ordered := true, trap := { h.trap with hdl := true, term := true } }
     s.Plain ∧ s.cur.half = none ∧ s.cur.ordered = true ∧ s.cur.trap.hdl = true ∧ s.cur.trap.term = true ∧ s.oldest = true ∧
       s.cur.copiesDone = true ∧ s.cur.defer = []) :=
  ⟨⟨test_committing, rfl, test_roomy, rfl⟩,
    ⟨test_ordered_committing, rfl, by decide +kernel, rfl, by decide +kernel, rfl, by decide +kernel⟩,
    ⟨test_plain, rfl⟩, ⟨test_ordered_plain, rfl, by decide +kernel⟩,
    ⟨⟨⟨rfl, rfl, rfl, rfl, rfl⟩, rfl, rfl, rfl⟩, rfl, rfl, rfl, by decide +kernel, by decide +kernel, rfl⟩,
    ⟨⟨⟨rfl, rfl, rfl, rfl, rfl⟩, rfl, rfl, rfl⟩, rfl, rfl, rfl, rfl, by decide +kernel, by decide +kernel, rfl⟩⟩

/-- A transfer in flight, of 64 bytes. -/
def flying : Transfer :=
  { id := 1, src := 0x1000, dst := 0x100, len := 64, flg := 0, tensor := none, ring := none, slot := none, todo := 1 }
def copying : State :=
  with_ fun h => h.onChan 0 fun c => { c with next := 2, flight := [flying] }
theorem test_copying_plain : copying.Plain := ⟨⟨rfl, rfl, rfl, rfl, rfl⟩, rfl, rfl, rfl⟩

theorem test_meets_SnapshotsAndFences :
    (regs.Plain ∧ regs.Unlogged ∧ fxLegal .c .h = true ∧ fxLegal .a .h = true ∧ regs.cur.copiesDone = true) ∧
    (copying.Plain ∧ copying.Unlogged ∧ copying.cur.copiesDone = false) :=
  ⟨⟨test_plain, rfl, rfl, rfl, rfl⟩, ⟨test_copying_plain, rfl, by decide +kernel⟩⟩

theorem test_meets_HartExits :
    regs.Committing ∧ regs.cur.ordered = false ∧ regs.cur.copiesDone = true ∧ regs.rest = [] ∧
    (regs.die (regs.cur.core / 32)).trEn = false :=
  ⟨test_committing, rfl, rfl, rfl, rfl⟩

/-- Ring 0 of the hart's group: two slots of 64 bytes from offset 0, one of them filled. -/
def ring1 : Ring :=
  { lid := 5, grp := 0, off := 0, size := 64, count := 2, claimed := 0, filled := 1, taken := 0, claimPos := 1, readPos := 0,
    wrote := [], waiters := [] }
def ringed : State := { regs with cores := [(0, { regs.core 0 with rings := [(0, ring1)] })] }
theorem test_ringed_plain : ringed.Plain := ⟨⟨rfl, rfl, rfl, rfl, rfl⟩, rfl, rfl, rfl⟩

/-- The hart loads and stores at 0x100, finds a page that permits nothing to it, one that is not present and a bad line; the
last byte of its ring stands at offset 127. -/
theorem test_meets_ScalarLoads :
    (regs.Plain ∧ regs.cur.behind = [] ∧ stageOff 0x100 = none ∧
      isOk (resolveRange regs regs.cur .load 0x100 8) (fun ps => badLine regs regs.cur ps == none && ps.all (·.cls != 1)) = true) ∧
    (ringed.Plain ∧ stageOff 0xFFFFFFFFE80078 = some 120 ∧ ownsStage ringed ringed.cur 120 8 = true) ∧
    isErr (resolveRange { regs with mem := tables.map fun c => if c.1 = 0x3000 then (c.1, 0x13) else c } regs.cur .load 0x100 8)
      (· == (0x100, .perm)) = true ∧
    isOk (resolveRange { regs with bad := [4] } regs.cur .load 0x100 8) (fun ps =>
      (badLine { regs with bad := [4] } regs.cur ps).isSome) = true ∧
    (stageOff 0x40000000 = none ∧ isErr (resolveRange regs regs.cur .load 0x40000000 8) (· == (0x40000000, .notPresent)) = true ∧
      regs.frameOk regs.cur = true) :=
  ⟨⟨test_plain, rfl, by decide +kernel, by decide +kernel⟩, ⟨test_ringed_plain, by decide +kernel, by decide +kernel⟩,
    by decide +kernel, by decide +kernel, by decide +kernel, by decide +kernel, by decide +kernel⟩

theorem test_meets_ScalarStores :
    (regs.Plain ∧ regs.cur.status = .running ∧ regs.cur.sfq.length < 16 ∧ regs.cur.sfHeld = [] ∧ stageOff 0x100 = none) ∧
    (ringed.Plain ∧ ringed.cur.sfq.length < 16 ∧ stageOff 0xFFFFFFFFE80078 = some 120 ∧
      ownsStage ringed ringed.cur 120 8 = true) ∧
    (regs.cur.behind = [] ∧ regs.cur.hasMore = false ∧ regs.cur.ordered = false ∧
      isOk (resolveRange regs regs.cur .store 0x100 8) (fun ps =>
        isOk (resolveRange regs regs.cur .load 0x100 8) (· == ps) && ps.all (·.cls == 0) && decide (ps.map Phys.pa).Nodup &&
        !overflows regs regs.cur ps) = true ∧
      ∃ u, exec (.stD 2 1 0 0 .normal 0) regs = .next u) :=
  ⟨⟨test_plain, by decide +kernel⟩, ⟨test_ringed_plain, by decide +kernel⟩,
    ⟨rfl, rfl, rfl, by decide +kernel, _, rfl⟩⟩

/-- The first GiB as pages that deny all but execution, as device pages and as gossip pages. -/
def pages (leaf : Byte) : State := { regs with mem := tables.map fun c => if c.1 = 0x3000 then (c.1, leaf) else c }

/-- A statement that a computation answers a next state, by its value. -/
theorem next_of {o : Host.Outcome State Fault Refusal} (h : (match o with | .next _ => true | _ => false) = true) :
    ∃ t, o = .next t := by
  cases o with
  | next t => exact ⟨t, rfl⟩
  | fault _ => cases h
  | refused _ => cases h

theorem retired_regs {t : State} (a : t.cur.retired = 1) (b : t.cur.wait = none) (c : t.cur.ctx.pc = 0x8008)
    (d : t.cur.ctx.iter = 0) (e : t.cur.ctx.resid = none) : Retired regs t :=
  ⟨a, b, ⟨fun _ => ⟨c, d, e⟩, fun _ _ h => nomatch h⟩⟩

theorem test_meets_PairWords :
    regs.Plain ∧ regs.Shaped ∧ regs.cur.behind = [] ∧
    (pairLegal false (.alu .add 1 2) false (.addi 5 4 0x7FF) = true ∧ fullOf (.alu .add 1 2) = some (.add 1 1 2) ∧
      fullOf (.addi 5 4 0x7FF) = some (.addi 5 4 0x7FF) ∧
      (∃ u, exec (.add 1 1 2) regs = .next u ∧ Retired regs u) ∧ ∃ w, exec (.addi 5 4 0x7FF) regs = .next w ∧ Retired regs w) ∧
    (regs.cur.slotResult (.alu .add 1 2) = some (1, 0x107) ∧ regs.cur.slotResult (.addi 5 4 0x7FF) = some (5, 0x801)) ∧
    (pairLegal false (.ld 6 1 0) false (.addi 7 4 0) = true ∧ stageOff (regs.cur.rd 1) = none ∧
      isErr (resolveRange (pages 0x13) (pages 0x13).cur .load 0x100 8) (· == (0x100, .perm)) = true ∧ (pages 0x13).Plain ∧
      isOk (resolveRange { regs with bad := [4] } regs.cur .load 0x100 8) (fun ps =>
        (badLine { regs with bad := [4] } regs.cur ps).isSome) = true) :=
  ⟨test_plain, test_shaped, rfl,
    ⟨by decide +kernel, rfl, rfl, ⟨_, rfl, retired_regs rfl rfl rfl rfl rfl⟩, ⟨_, rfl, retired_regs rfl rfl rfl rfl rfl⟩⟩,
    ⟨by decide +kernel, by decide +kernel⟩,
    ⟨by decide +kernel, by decide +kernel, by decide +kernel, ⟨⟨rfl, rfl, rfl, rfl, rfl⟩, rfl, rfl, rfl⟩, by decide +kernel⟩⟩

/-- The word at 0x100 resolves for every size and kind; 0x101 is misaligned. -/
theorem test_meets_Atomics :
    (regs.Plain ∧ regs.Unlogged ∧ regs.cur.toPeer .core = false ∧ regs.noneAsked ∧ (5 : GReg) ≠ 0) ∧
    ([4, 8].all fun n => isOk (resolveAmo regs .atomic true false 0x100 n) (·.cls != 1) &&
      isOk (resolveAmo regs .atomic true true 0x100 n) (·.cls != 1) &&
      isOk (resolveAmo regs .atomic false true 0x100 n) (·.cls != 1)) = true ∧
    (regs.cur.rd 1 + (1 : BitVec 18).signExtend 64).toNat % 4 ≠ 0 ∧
    ((pages 0x13).Plain ∧ isErr (resolveFor (pages 0x13) (pages 0x13).cur .atomic 0x100) (· == .perm) = true) ∧
    ((pages 0x5F).Plain ∧ isOk (resolveFor (pages 0x5F) (pages 0x5F).cur .atomic 0x100) (·.cls == 1) = true) ∧
    ((pages 0x9F).Plain ∧ isOk (leafBy (pages 0x9F) ((pages 0x9F).cur.tlb .atomic 0x100) 0 0x100) (fun y => pteCls y.1 == 2) = true) ∧
    (ordered.Plain ∧ ordered.cur.toPeer .core = false ∧ ordered.noneAsked ∧ ordered.cur.ordered = true ∧
      isOk (resolveAmo ordered .atomic true false 0x100 4) (·.cls != 1) = true) ∧
    (([(1, Deferred.fadd 0 0 0), (3, Deferred.fadd 0 0 0)] : List (Nat × Deferred)).map Prod.fst).Pairwise (· ≤ ·) :=
  ⟨⟨test_plain, rfl, rfl, nofun, by decide⟩, by decide +kernel, by decide +kernel,
    ⟨⟨⟨rfl, rfl, rfl, rfl, rfl⟩, rfl, rfl, rfl⟩, by decide +kernel⟩, ⟨⟨⟨rfl, rfl, rfl, rfl, rfl⟩, rfl, rfl, rfl⟩, by decide +kernel⟩,
    ⟨⟨⟨rfl, rfl, rfl, rfl, rfl⟩, rfl, rfl, rfl⟩, by decide +kernel⟩,
    ⟨test_ordered_plain, rfl, nofun, rfl, by decide +kernel⟩, by decide⟩

/-- The watched word holds 0: `eq` with 0 holds, `eq` with 7 does not; a hart that waits has got a value. -/
theorem test_meets_WaitOnMemory :
    (regs.cur.status = .running ∧ regs.cur.vq = [] ∧ regs.Unlogged ∧ regs.cur.toPeer .core = false ∧ regs.noneAsked ∧
      regs.cur.wait = none) ∧
    isOk (resolveAmo regs .wait true false 0x100 8) (fun p => leWord (regs.bytes p.pa 8) == 0) = true ∧
    (∀ o, let w : Watch := { pa := 0x100, size := 8, cond := .eq, x := 0 }
     let s := with_ fun h => { h with wait := some (.word w (some (0, 3))), ordered := o }
     s.cur.status = .running ∧ s.cur.vq = [] ∧ s.Unlogged ∧ s.noneAsked ∧ s.cur.wait = some (.word w (some (0, 3))) ∧
       s.cur.ordered = o) :=
  ⟨⟨rfl, rfl, rfl, rfl, nofun, rfl⟩, by decide +kernel, fun _ => ⟨rfl, rfl, rfl, nofun, rfl, rfl⟩⟩

/-! Vector statements. -/

theorem all_of_positions (n m : Nat) (P : Nat → Nat → Bool)
    (h : ((List.range n).all fun r => (List.range m).all fun j => P r j) = true) (r j : Nat) (hr : r < n) (hj : j < m) :
    P r j = true := by
  rw [List.all_eq_true] at h
  have := h r (List.mem_range.mpr hr)
  rw [List.all_eq_true] at this
  exact this j (List.mem_range.mpr hj)

theorem in_shape (s : State) (P : Nat → Nat → Bool)
    (h : ((List.range s.cur.ctx.nr.toNat).all fun r => (List.range s.cur.ctx.vl).all fun j => P r j) = true) (r j : Nat)
    (hs : s.inShape r j = true) : P r j = true := by
  rw [State.inShape, Bool.and_eq_true, decide_eq_true_eq, decide_eq_true_eq] at hs
  exact all_of_positions _ _ P h r j hs.1 hs.2

/-- No line is held in a version or kept. -/
theorem no_lines (s : State) (a : s.harts.flatMap Hart.verLines = []) (b : s.retained = []) (d : Nat) : s.dieLines d = 0 := by
  rw [State.dieLines, a, b]; rfl

theorem test_races : regs.raceFree := fun _ h => nomatch h
theorem test_lines (d : Nat) : regs.dieLines d = 0 := no_lines _ (by decide +kernel) (by decide +kernel) d

theorem test_meets_VectorFloat : regs.Plain ∧ regs.Shaped ∧ fmtFloat .bf16 = some .bf16 := ⟨test_plain, test_shaped, rfl⟩
theorem test_meets_VectorInteger : regs.Plain ∧ regs.Shaped ∧ Fmt.n16.isVInt = true := ⟨test_plain, test_shaped, rfl⟩
theorem test_meets_VectorCompares :
    regs.Plain ∧ regs.Shaped ∧ fmtFloat .f16 = some .f16 ∧ Fmt.i8.isVInt = true := ⟨test_plain, test_shaped, rfl, rfl⟩

/-- A hart with block length 16 (blk 1), and one with 32 (blk 2), in e4m3. -/
def blocked (b : BitVec 2) : State := with_ fun h => { h with ctx := { h.ctx with blk := b, fmt := .e4m3 } }
theorem test_blocked_plain (b : BitVec 2) : (blocked b).Plain := ⟨⟨rfl, rfl, rfl, rfl, rfl⟩, rfl, rfl, rfl⟩
theorem test_blocked_shaped (b : BitVec 2) : (blocked b).Shaped :=
  ⟨by show (1 : BitVec 4).toNat ≤ 8; decide, by show 2 ≤ 1024; decide⟩

theorem test_meets_VectorConverts :
    (regs.Plain ∧ regs.Shaped ∧ regs.cur.ctx.blk = 0) ∧
    ((blocked 1).Plain ∧ (blocked 1).Shaped ∧ (blocked 1).cur.ctx.blk = 1 ∧ fmtFloat .f32 = some .f32) ∧
    ((blocked 2).Plain ∧ (blocked 2).Shaped ∧ (blocked 2).cur.ctx.blk = 2) :=
  ⟨⟨test_plain, test_shaped, rfl⟩, ⟨test_blocked_plain 1, test_blocked_shaped 1, rfl, rfl⟩,
    ⟨test_blocked_plain 2, test_blocked_shaped 2, rfl⟩⟩

theorem test_meets_VectorMoves : regs.Plain ∧ regs.Shaped ∧ (2 : VReg) ≠ 3 ∧ (2 : VReg) ≠ 4 :=
  ⟨test_plain, test_shaped, by decide, by decide⟩
theorem test_meets_VectorReductions :
    regs.Plain ∧ regs.Shaped ∧ fmtFloat .f32 = some .f32 ∧ Fmt.i32.isVInt = true := ⟨test_plain, test_shaped, rfl, rfl⟩
theorem test_meets_SparsityAndMasks : regs.Plain ∧ regs.Shaped ∧ (4 : VReg) ≠ 3 := ⟨test_plain, test_shaped, by decide⟩

/-- Tensor 1 lies at 0x100: two outer indices of three elements, in f32 or, with scales at 0x200, in e4m3. -/
def tensor1 (b : BitVec 2) : Tensor :=
  { base := 0x100, fmt := if b = 0 then .f32 else .e4m3, blk := b, sbase := 0x200, dims := 2, ext := [3, 2],
    st := if b = 0 then [4, 12] else [1, 3] }
def tensored (b : BitVec 2) : State :=
  { blocked b with cur := { (blocked b).cur with defs := [{ tid := 1, layout := some (tensor1 b) }] } }

theorem test_meets_VectorLoads :
    (regs.Plain ∧ regs.Shaped ∧ regs.raceFree ∧ regs.cur.behind = [] ∧ (2 : VReg) ≠ 3 ∧
      regs.tensorOf regs.cur 1 = none ∧ ∀ r j, regs.inShape r j = true →
        (regs.seesElem .f32 (regs.cur.rd 1 + BitVec.ofNat 64 r * regs.cur.rd 4 + BitVec.ofNat 64 (j * 32 / 8), j * 32 % 8)).isSome = true ∧
        (regs.seesElem .f32 (regs.cur.rd 1 + BitVec.ofNat 64 j * regs.cur.rd 4 + BitVec.ofNat 64 (r * 32 / 8), 0)).isSome = true ∧
        (regs.seesElem .f32 (regs.cur.rd 1 + ((regs.cur.slotV 3 r j).signExtend 64 <<< 2), 0)).isSome = true) ∧
    ((tensored 0).Plain ∧ (tensored 0).Shaped ∧ (tensored 0).tensorOf (tensored 0).cur 1 = some (tensor1 0) ∧
      (tensor1 0).blk = 0 ∧
      ∀ r j, (tensored 0).inShape r j = true → (tensor1 0).inside j r = true ∧
        ((tensored 0).seesElem .f32 ((tensor1 0).elemAt j r)).isSome = true) ∧
    ((tensored 1).Plain ∧ (tensored 1).Shaped ∧ (tensored 1).tensorOf (tensored 1).cur 1 = some (tensor1 1) ∧
      (tensor1 1).blk = (tensored 1).cur.ctx.blk ∧ (tensor1 1).blk ≠ 0 ∧ (tensor1 1).blk ≠ (blocked 2).cur.ctx.blk ∧
      ∀ r j, (tensored 1).inShape r j = true → ((tensored 1).seesElem .e4m3 ((tensor1 1).elemAt j r)).isSome = true ∧
        ((tensored 1).sees .vload ((tensor1 1).scaleAt 16 r (j / 16)) 1).isSome = true) := by
  refine ⟨⟨test_plain, test_shaped, test_races, rfl, by decide, rfl, fun r j h => ?_⟩,
    ⟨⟨⟨rfl, rfl, rfl, rfl, rfl⟩, rfl, rfl, rfl⟩, ⟨by decide, by decide⟩, rfl, rfl, fun r j h => ?_⟩,
    ⟨⟨⟨rfl, rfl, rfl, rfl, rfl⟩, rfl, rfl, rfl⟩, ⟨by decide, by decide⟩, rfl, rfl, by decide, by decide, fun r j h => ?_⟩⟩
  · have := in_shape regs (fun r j =>
      (regs.seesElem .f32 (regs.cur.rd 1 + BitVec.ofNat 64 r * regs.cur.rd 4 + BitVec.ofNat 64 (j * 32 / 8), j * 32 % 8)).isSome &&
      ((regs.seesElem .f32 (regs.cur.rd 1 + BitVec.ofNat 64 j * regs.cur.rd 4 + BitVec.ofNat 64 (r * 32 / 8), 0)).isSome &&
      (regs.seesElem .f32 (regs.cur.rd 1 + ((regs.cur.slotV 3 r j).signExtend 64 <<< 2), 0)).isSome)) (by decide +kernel) r j h
    simpa only [Bool.and_eq_true] using this
  · have := in_shape (tensored 0) (fun r j => (tensor1 0).inside j r &&
      ((tensored 0).seesElem .f32 ((tensor1 0).elemAt j r)).isSome) (by decide +kernel) r j h
    simpa only [Bool.and_eq_true] using this
  · have := in_shape (tensored 1) (fun r j => ((tensored 1).seesElem .e4m3 ((tensor1 1).elemAt j r)).isSome &&
      ((tensored 1).sees .vload ((tensor1 1).scaleAt 16 r (j / 16)) 1).isSome) (by decide +kernel) r j h
    simpa only [Bool.and_eq_true] using this

/-- No store that touches a number of lines is too many for the version or a home. -/
theorem room_of (s : State) (xs : List ElemStore) (h : ∀ d, s.dieLines d = 0)
    (a : s.cur.verLines.length + s.cur.quarterIntents + (((xs.flatMap fun x => (s.storesTo x.ea x.size).getD []).map (· / 64)).eraseDups).length ≤ s.cur.vcap)
    (b : (((xs.flatMap fun x => (s.storesTo x.ea x.size).getD []).map (· / 64)).eraseDups).length ≤ dieShare) : s.roomFor xs :=
  ⟨a, fun d => by rw [h d]; omega⟩

/-- The elements that vst.f32 v2 stores at g1, row by row. -/
def elems1 (s : State) : List ElemStore :=
  s.stored 2 none .f32 fun r j => (s.cur.rd 1 + BitVec.ofNat 64 r * s.cur.rd 4 + BitVec.ofNat 64 (j * 32 / 8), j * 32 % 8)

theorem test_meets_VectorStores :
    (regs.Plain ∧ regs.Shaped ∧ regs.raceFree ∧ regs.cur.behind = [] ∧ regs.cur.sfq.length < 16 ∧ regs.cur.sfHeld = [] ∧
      (∀ x ∈ elems1 regs, (regs.storesTo x.ea x.size).isSome = true) ∧ regs.roomFor (elems1 regs) ∧
      Fmt.f32.isWhole = true ∧ regs.cur.toPeer .core = false ∧ regs.cur.ordered = false ∧
      ∀ r j, regs.inShape r j = true →
        ∃ pa, resolveWord regs .vadd (regs.cur.rd 1 + ((regs.cur.slotV 3 r j).signExtend 64 <<< 2)) 4 = .ok pa) ∧
    16 ≤ (with_ fun h => { h with sfq := List.replicate 16 record1 }).cur.sfq.length ∧
    ((tensored 1).Plain ∧ (tensored 1).Shaped ∧ (tensored 1).tensorOf (tensored 1).cur 1 = some (tensor1 1) ∧
      (tensor1 1).blk = (tensored 1).cur.ctx.blk ∧ (tensored 1).cur.ctx.vl ≠ 0) ∧
    ordered.cur.ordered = true := by
  refine ⟨⟨test_plain, test_shaped, test_races, rfl, by decide, rfl, by decide +kernel,
    room_of _ _ test_lines (by decide +kernel) (by decide +kernel), rfl, rfl, rfl, fun r j h => ?_⟩, by decide,
    ⟨⟨⟨rfl, rfl, rfl, rfl, rfl⟩, rfl, rfl, rfl⟩, ⟨by decide, by decide⟩, rfl, rfl, by decide⟩, rfl⟩
  have := in_shape regs (fun r j => isOk (resolveWord regs .vadd (regs.cur.rd 1 + ((regs.cur.slotV 3 r j).signExtend 64 <<< 2)) 4)
    fun _ => true) (by decide +kernel) r j h
  revert this
  cases resolveWord regs .vadd (regs.cur.rd 1 + ((regs.cur.slotV 3 r j).signExtend 64 <<< 2)) 4 with
  | ok pa => exact fun _ => ⟨pa, rfl⟩
  | error _ => intro h; cases h

theorem test_windowed : regs.Windowed 1 (regs.cur.rd 2).toNat :=
  { test_plain with shaped := test_shaped, owns := ⟨by decide, by decide⟩, inPlace := rfl, wide := by decide,
                    columns := by decide }

/-- g2 holds column 7; g3 a column far outside; tile 1 is the hart's, tile 2 is not. -/
theorem test_meets_TileArithmetic :
    (regs.Windowed 1 (regs.cur.rd 2).toNat ∧ (62 : BitVec 6).toNat + regs.cur.ctx.nr.toNat ≤ 64) ∧
    (regs.Plain ∧ regs.cur.ntiles ≤ (2 : TReg).toNat) ∧
    (handled.Plain ∧ (1 : TReg).toNat < handled.cur.ntiles ∧ (handled.cur.tile 1).place = .here ∧ handled.cur.ctx.vl ≠ 0 ∧
      handled.cur.ctx.nr ≠ 0 ∧ handled.cur.tw ≤ (handled.cur.rd 3).toNat ∧ handled.cur.ctx.thb ≠ 0 ∧
      handled.cur.trap.hdl = false) :=
  ⟨⟨test_windowed, by decide⟩, ⟨test_plain, by decide⟩,
    ⟨⟨⟨rfl, rfl, rfl, rfl, rfl⟩, rfl, rfl, rfl⟩, by decide, rfl, by decide, by decide, by decide, by decide, rfl⟩⟩

/-- A walk that reads its tables at or above an address. -/
def walksAbove (n : Nat) (s : State) (va : Nat) : Nat → Nat → Bool
  | 0, table => decide (n ≤ table + 8 * vaIndex va 0)
  | l + 1, table =>
    decide (n ≤ table + 8 * vaIndex va (l + 1)) &&
      (pteLeaf (s.dword (table + 8 * vaIndex va (l + 1))) ||
        walksAbove n s va l (ptePpn (s.dword (table + 8 * vaIndex va (l + 1))) * 4096))

theorem bytes_above (n : Nat) (s t : State) (h : ∀ x, n ≤ x → t.byte x = s.byte x) :
    ∀ k a, n ≤ a → t.bytes a k = s.bytes a k
  | 0, _, _ => rfl
  | k + 1, a, ha => by rw [State.bytes, State.bytes, h a ha, bytes_above n s t h k (a + 1) (by omega)]

theorem word_above (n : Nat) (s t : State) (h : ∀ x, n ≤ x → t.byte x = s.byte x) (a : Nat) (ha : n ≤ a) :
    t.dword a = s.dword a := congrArg leWord (bytes_above n s t h 8 a ha)

theorem walk_above (n : Nat) (s t : State) (hp : t.part = s.part) (hb : ∀ a, t.badPa a = s.badPa a)
    (h : ∀ x, n ≤ x → t.byte x = s.byte x) (va : Nat) :
    ∀ level table, walksAbove n s va level table = true → walk t va level table = walk s va level table
  | 0, table, ht => by
    simp only [walksAbove, decide_eq_true_eq] at ht
    rw [walk_zero, walk_zero, word_above n s t h _ ht, hp, hb]
  | l + 1, table, ht => by
    simp only [walksAbove, Bool.and_eq_true, decide_eq_true_eq, Bool.or_eq_true] at ht
    rw [walk_succ, walk_succ, word_above n s t h _ ht.1, hp, hb]
    cases ht.2 with
    | inl hl => simp only [hl, if_true]
    | inr hr => simp only [walk_above n s t hp hb h va l _ hr]

/-- What stands below the tables does not change where a tile's element lies. -/
theorem tile_above (n : Nat) (s t : State) (hp : t.part = s.part) (hb : ∀ a, t.badPa a = s.badPa a)
    (hc : t.cur = s.cur) (hs : t.parts = s.parts) (hl : s.tlb = []) (hm : t.tlb = []) (hd : t.denied = s.denied)
    (hr : t.sealedRegs = s.sealedRegs) (h : ∀ x, n ≤ x → t.byte x = s.byte x) (ea : Word) (x : Partition)
    (hx : AMap.find? s.parts s.cur.part = some x) (hw : walksAbove n s ea.toNat 4 x.root = true) :
    resolveTile t .vstore ea 4 = resolveTile s .vstore ea 4 := by
  have leaf : ∀ u, leafBy t u s.cur.part ea.toNat = leafBy s u s.cur.part ea.toNat := by
    have same : leafOf t s.cur.part ea.toNat = leafOf s s.cur.part ea.toNat := by
      unfold leafOf
      rw [hs, hx]
      simp only [walk_above n s t hp hb h ea.toNat 4 x.root hw]
      unfold converted
      rw [hd]
    intro u
    unfold leafBy
    rw [hl, hm]
    cases u with
    | none => exact same
    | some _ => simpa only [AMap.find?] using same
  unfold resolveTile resolveFor resolveEa resolveVa
  rw [hc, leaf]
  unfold leafPermits
  rw [hr]

/-- Where the elements of a row lie: 4 bytes apart from g1. -/
def spot (r j : Nat) : Word := regs.cur.rd 1 + BitVec.ofNat 64 r * regs.cur.rd 1 + BitVec.ofNat 64 (j * 4)

theorem test_meets_TileMoves :
    regs.Windowed 1 (regs.cur.rd 2).toNat ∧ (62 : BitVec 6).toNat + regs.cur.ctx.nr.toNat ≤ 64 ∧
    ∀ r j, regs.inShape r j = true →
      (resolveTile regs .vload (spot r j) 4 = .ok (spot r j).toNat ∧ regs.badPa (spot r j).toNat = false) ∧
      ∀ m o, (∀ x, (∀ r' j', regs.inShape r' j' = true → ¬((spot r' j').toNat ≤ x ∧ x < (spot r' j').toNat + 4)) →
          ({ regs with mem := m, opaq := o } : State).byte x = regs.byte x) →
        resolveTile { regs with mem := m, opaq := o } .vstore (spot r j) 4 = .ok (spot r j).toNat := by
  refine ⟨test_windowed, by decide, fun r j h => ?_⟩
  have all := in_shape regs (fun r j =>
    (isOk (resolveTile regs .vload (spot r j) 4) (· == (spot r j).toNat) && !regs.badPa (spot r j).toNat) &&
    (isOk (resolveTile regs .vstore (spot r j) 4) (· == (spot r j).toNat) &&
      (walksAbove 0x1000 regs (spot r j).toNat 4 0x1000 && decide ((spot r j).toNat + 4 ≤ 0x1000)))) (by decide +kernel)
  have ok : ∀ x : Except XFault Nat, ∀ k, isOk x (· == k) = true → x = .ok k := by
    intro x k hx
    cases x with
    | ok a => exact congrArg _ (eq_of_beq hx)
    | error _ => cases hx
  have here := all r j h
  simp only [Bool.and_eq_true, Bool.not_eq_true'] at here
  refine ⟨⟨ok _ _ here.1.1, here.1.2⟩, fun m o hm => ?_⟩
  refine (tile_above 0x1000 regs { regs with mem := m, opaq := o } rfl (fun _ => rfl) rfl rfl rfl rfl rfl rfl
    (fun x hx => hm x fun r' j' hs => ?_) _ part0 rfl here.2.2.1).trans (ok _ _ here.2.1)
  have := all r' j' hs
  simp only [Bool.and_eq_true, decide_eq_true_eq] at this
  omega

/-- Channel 0 with a good setting, one with a bad one (a length of 2^40), and one with sixteen transfers in flight. -/
def channel (f : Channel → Channel) : State := with_ fun h => h.onChan 0 fun c => f { c with src := 0x1000, dst := 0x100, len := 64 }
theorem test_channel_plain (f : Channel → Channel) : (channel f).Plain := ⟨⟨rfl, rfl, rfl, rfl, rfl⟩, rfl, rfl, rfl⟩
def goodChannel : State := channel id
def badChannel : State := channel fun c => { c with len := 0x10000000000 }
def fullChannel : State := channel fun c => { c with flight := List.replicate 16 flying }

theorem test_meets_CopyChannelsAndTensors :
    (goodChannel.Plain ∧ goodChannel.Unlogged ∧ (0 : BitVec 2).toNat < goodChannel.cur.chans.length ∧
      (∀ h ∈ goodChannel.rest, h.hid ≠ goodChannel.cur.hid)) ∧
    ((goodChannel.cur.chan 0).flight.length < 16 ∧ goodChannel.engineLoad goodChannel.cur.core < 64 ∧
      setupBad goodChannel goodChannel.cur (goodChannel.cur.chan 0).src (goodChannel.cur.chan 0).dst
        (goodChannel.cur.chan 0).len (goodChannel.cur.chan 0).flg none = false) ∧
    ((goodChannel.cur.chan 0).flg.getLsbD 4 = false ∧
      denseLen (goodChannel.cur.chan 0).flg (goodChannel.cur.chan 0).len none ≠ 0) ∧
    (idBefore (goodChannel.cur.chan 0).next 1 = false ∧ idBefore (goodChannel.cur.chan 0).next 0 = true ∧
      idBefore (goodChannel.cur.chan 0).done 0 = true) ∧
    (badChannel.Plain ∧ (badChannel.cur.chan 0).flight.length < 16 ∧
      setupBad badChannel badChannel.cur (badChannel.cur.chan 0).src (badChannel.cur.chan 0).dst
        (badChannel.cur.chan 0).len (badChannel.cur.chan 0).flg none = true) ∧
    (fullChannel.Plain ∧ 16 ≤ (fullChannel.cur.chan 0).flight.length) ∧
    (copying.Plain ∧ idBefore (copying.cur.chan 0).next 1 = true ∧ idBefore (copying.cur.chan 0).done 1 = false) ∧
    (regs.tensorOf regs.cur 1 = none ∧ (tensored 1).Plain ∧ (tensored 1).tensorOf (tensored 1).cur 1 = some (tensor1 1) ∧
      (5 : BitVec 5).toNat < 6) :=
  ⟨⟨test_channel_plain _, rfl, by decide, (fun _ h => nomatch h)⟩, by decide +kernel, by decide +kernel, by decide +kernel,
    ⟨test_channel_plain _, by decide +kernel, by decide +kernel⟩, ⟨test_channel_plain _, by decide⟩,
    ⟨test_copying_plain, by decide +kernel, by decide +kernel⟩, ⟨rfl, ⟨⟨rfl, rfl, rfl, rfl, rfl⟩, rfl, rfl, rfl⟩, rfl, by decide⟩⟩

/-- rinit of ring 1 with 7 bytes a slot fails; with 256 bytes, two slots from 256, it succeeds; no slot count removes. -/
theorem test_meets_RingInstructions :
    (regs.Plain ∧ rinitStatus regs regs.cur 1 0x100 7 2 ≠ 0 ∧ rinitStatus regs regs.cur 1 0x100 0x100 2 = 0 ∧
      rinitStatus regs regs.cur 1 0x100 0x100 0 = 0 ∧ regs.ownRing regs.cur 0 = none) ∧
    (ringed.Plain ∧ ringed.ownRing ringed.cur 0 = some ring1 ∧ ring1.filled ≠ 0 ∧ ring1.taken = 0) ∧
    (let r : Ring := { ring1 with filled := 0, taken := 1 }
     let s : State := { ringed with cores := [(0, { ringed.core 0 with rings := [(0, r)] })] }
     s.Plain ∧ s.ownRing s.cur 0 = some r ∧ r.filled = 0 ∧ r.taken ≠ 0 ∧ r.waiters = []) :=
  ⟨⟨test_plain, by decide +kernel⟩, ⟨test_ringed_plain, by decide +kernel⟩, ⟨⟨rfl, rfl, rfl, rfl, rfl⟩, rfl, rfl, rfl⟩, by decide +kernel⟩

/-- A hart with a handler, and a slice without room. -/
def fullSlice : State := { handled with cur := { handled.cur with xcap := 0 } }

theorem test_meets_ScratchpadEntries :
    (regs.Plain ∧ regs.Shaped ∧ regs.cur.xPlace = .here ∧ regs.cur.ctx.vbeg = none ∧ (regs.cur.xents.map XEntry.key).Nodup ∧ Fmt.i64.isEntry = true ∧
      evenReg 2 = true ∧ pairOk .i64 4 = true ∧ pairOk .i64 6 = true ∧ (4 : VReg) ≠ 2 ∧ (4 : VReg) ≠ 2 + 1 ∧
      (regs.sliceAfter none 2 4 .i64 (fun _ x => x) (regs.cur.ctx.nr.toNat * regs.cur.ctx.vl)).length ≤ regs.cur.xcap) ∧
    (fullSlice.Plain ∧ fullSlice.cur.xPlace = .here ∧ fullSlice.cur.ctx.vbeg = none ∧ fullSlice.cur.ctx.vl ≠ 0 ∧ fullSlice.cur.ctx.nr ≠ 0 ∧
      fullSlice.cur.xcap ≤ fullSlice.cur.xents.length ∧ (∀ y ∈ fullSlice.cur.xents, y.key ≠ fullSlice.keyOf 2 0 0) ∧
      fullSlice.cur.ctx.thb ≠ 0 ∧ fullSlice.cur.trap.hdl = false ∧ (fullSlice.framePa fullSlice.cur true).isSome = true) :=
  ⟨⟨test_plain, test_shaped, by decide +kernel⟩, ⟨⟨⟨rfl, rfl, rfl, rfl, rfl⟩, rfl, rfl, rfl⟩, by decide +kernel⟩⟩

/-- A descriptor: two heads of four dimensions, two tables of four bits, keys in tensor 1; and a key index defined by it. -/
def desc1 : List Word := [0x0002000101040301, 0, 0x1000, 0x3000, 0x1400000010, 0, 0, 0]
def keys1 : Tensor := { base := 0x200, fmt := .f32, blk := 0, sbase := 0, dims := 3, ext := [4, 2, 8], st := [4, 0x20, 0x80] }
def described : State :=
  { regs with
    mem := tables ++ [(0x8000, 1), (0x8001, 3), (0x8002, 4), (0x8003, 1), (0x8004, 1), (0x8006, 2), (0x8011, 0x10),
      (0x8019, 0x30), (0x8020, 0x10), (0x8024, 0x14)],
    cur := { (regs.cur.wr 5 0x8000) with defs := [{ tid := 1, layout := some keys1 }] } }
def keyed : State :=
  { regs with parts := [(0, { part0 with kx :=
      [(7, { defs := [{ commit := 0, desc := desc1, layout := keys1, pages := [] }], alloc := 0, resv := 0, nan := false, sat := false })] })] }

theorem test_meets_KeyIndexControl :
    (described.Plain ∧ described.raceFree ∧ described.cur.behind = [] ∧
      isSome (described.sees .load (described.cur.rd 5) 64) (fun bs =>
        let desc := (List.range 8).map fun k => leWord ((bs.drop (8 * k)).take 8)
        desc == desc1 && kxStatus described 7 desc == 0 && described.tensorOf described.cur (kxTid desc) == some keys1) = true) ∧
    (regs.Plain ∧ isSome (regs.sees .load (regs.cur.rd 1) 64) (fun bs =>
        kxStatus regs 7 ((List.range 8).map fun k => leWord ((bs.drop (8 * k)).take 8)) != 0) = true ∧
      regs.kxSeen regs.cur 7 = none) ∧
    (keyed.Plain ∧ (keyed.kxSeen keyed.cur 7).isSome = true ∧ keyed.cur.intentOver (.clr 7) = false) :=
  ⟨⟨⟨⟨rfl, rfl, rfl, rfl, rfl⟩, rfl, rfl, rfl⟩, (fun _ h => nomatch h), rfl, by decide +kernel⟩, ⟨test_plain, by decide +kernel, rfl⟩,
    ⟨⟨⟨rfl, rfl, rfl, rfl, rfl⟩, rfl, rfl, rfl⟩, by decide +kernel⟩⟩

/-- The hart holds a token number in g4, 2, and in g5 the position word of the third and fourth dimension of head 0. -/
def keyedAt : State := { keyed with cur := keyed.cur.wr 5 0x200 }
def seen1 : KxSeen := { desc := desc1, layout := keys1, alloc := 0 }
theorem test_keyed_plain : keyedAt.Plain := ⟨⟨rfl, rfl, rfl, rfl, rfl⟩, rfl, rfl, rfl⟩

/-- The elements that kst stores of v2 at the position word in a register. -/
def keyElems (c0 : Nat) : List ElemStore :=
  keyedAt.positions.map fun p =>
    { ea := (keys1.elemAt (c0 + p.2) (2 * 2 + (0 + p.1))).1, bit := (keys1.elemAt (c0 + p.2) (2 * 2 + (0 + p.1))).2, width := 32,
      code := (keyedAt.cur.slotV 2 p.1 p.2).toNat }

/-- The hart stores the first two dimensions, and the last two, and gathers for head 1. -/
theorem test_meets_KeyIndexVectors :
    (keyedAt.Plain ∧ keyedAt.Shaped ∧ keyedAt.raceFree ∧ keyedAt.cur.behind = [] ∧
      keyedAt.kxSeen keyedAt.cur 7 = some seen1 ∧ kxB seen1.desc ≤ 16 ∧ keyedAt.unitsCurrent 7 seen1.desc) ∧
    ([(0, 0), (5, 2)].all fun (x : GReg × Nat) =>
      ((keyedAt.cur.rd x.1).extractLsb' 0 8).toNat + keyedAt.cur.ctx.nr.toNat ≤ kxH seen1.desc ∧
      ((keyedAt.cur.rd x.1).extractLsb' 8 8).toNat = x.2 ∧ x.2 + keyedAt.cur.ctx.vl ≤ kxD seen1.desc) = true ∧
    (1 ≤ keyedAt.cur.ctx.nr.toNat ∧ (keyedAt.cur.rd 4).toNat < kxTokens seen1.desc seen1.layout ∧ keyedAt.cur.sfq.length < 16 ∧
      keyedAt.cur.sfHeld = [] ∧ 8 ≤ fmtWidth seen1.layout.fmt ∧ keyedAt.cur.ctx.vl ≠ 0) ∧
    ([0, 2].all fun c0 =>
      let lines := (((keyElems c0).flatMap fun y => (keyedAt.storesTo y.ea y.size).getD []).map (· / 64)).eraseDups
      ((keyElems c0).all fun y => (keyedAt.storesTo y.ea y.size).isSome) &&
      decide (keyedAt.cur.verLines.length + keyedAt.cur.quarterIntents + keyedAt.cur.ctx.nr.toNat + lines.length ≤ keyedAt.cur.vcap) &&
      decide (lines.length ≤ dieShare)) = true ∧
    (∀ d, keyedAt.dieLines d = 0) ∧
    (2 + keyedAt.cur.ctx.vl = kxD seen1.desc ∧
      seen1.alloc + (keyedAt.kx keyedAt.cur.part 7).resv + keyedAt.cur.ctx.nr.toNat * kxL seen1.desc ≤ kxNseg seen1.desc) ∧
    (0 + (1 : BitVec 3).toNat < kxH seen1.desc ∧ keyedAt.cur.ctx.vbeg = none ∧
      isSome (keyedAt.bucketsOf 7 1 seen1.desc 0 ((List.range (kxL seen1.desc)).map fun l =>
        (sigOf 2 1 l (kxB seen1.desc) keyedAt.cur).1)) (fun x => !(x.2 || decide (kxClim seen1.desc < x.1.length)) &&
          decide (x.1.length ≤ keyedAt.cur.xcap - keyedAt.cur.xents.length)) = true ∧ keyedAt.cur.xPlace = .here) :=
  ⟨⟨test_keyed_plain, ⟨by decide, by decide⟩, (fun _ h => nomatch h), rfl, by decide +kernel, by decide +kernel,
      (fun _ h => nomatch h)⟩,
    by decide +kernel, by decide +kernel, by decide +kernel, (fun d => no_lines _ (by decide +kernel) (by decide +kernel) d),
    by decide +kernel, by decide +kernel⟩

/-- Region 4 has one page, at 0x2000, whose memory is at 0x18000. -/
def region4 (mode : Bool) : Region :=
  { part := 0, base := 0x2000, npg := 1, frac := 20, mode := mode, bud := 4, deg := 1, slots := [(1, 2)], rnd := 7, ovf := false,
    lost := false, pages := [0x18000], spread := [(0, 5)], held := [], roundLoss := false, left := 3, counts := [], contrib := [],
    cursor := [], halved := 0, got := [], closing := false }
def gossip (mode ord : Bool) : State :=
  { regs with regions := [(4, region4 mode)], cur := { regs.cur with ordered := ord, priv := true } }
theorem test_gossip_plain (m o : Bool) : (gossip m o).Plain := ⟨⟨rfl, rfl, rfl, rfl, rfl⟩, rfl, rfl, rfl⟩
theorem test_gossip_shaped (m o : Bool) : (gossip m o).Shaped :=
  ⟨by show (1 : BitVec 4).toNat ≤ 8; decide, by show 2 ≤ 1024; decide⟩

/-- A stepped region in a free and in an ordered launch, and a free-mode region; every element is word 0, at the home. -/
theorem test_meets_GossipAccesses (m o : Bool) (free : m = true ∨ o = false) :
    ((gossip m o).Plain ∧ (gossip m o).Shaped ∧ (gossip m o).part = .tl460) ∧
    (gossip m o).regionAt (gossip m o).cur.part ((gossip m o).cur.rd 5) = some (4, region4 m, 0) ∧
    AMap.find? (gossip m o).regions 4 = some (region4 m) ∧
    ((region4 m).mode = true ∨ ((gossip m o).cur.ordered = false ∧ (gossip m o).replaying (region4 m).part = false)) ∧
    (((gossip m o).cur.rd 5).toNat % 8 = 0 ∧ (gossip m o).badPa 0x18000 = false) ∧
    (Fmt.f32.isEntry = true ∧ evenReg 2 = true) ∧
    (∀ i j, (gossip m o).inShape i j = true → ((gossip m o).cur.slotV 3 i j).toNat < 512 ∧
      (gossip m o).badPa (0x18000 + 8 * ((gossip m o).cur.slotV 3 i j).toNat) = false) ∧
    (4 = (4 : BitVec 4).toNat ∧ (region4 m).part = (gossip m o).cur.part ∧ (o = true → (gossip m o).oldest = true)) := by
  refine ⟨⟨test_gossip_plain _ _, test_gossip_shaped _ _, rfl⟩, ?_, rfl, ?_, ?_, ⟨rfl, rfl⟩, fun i j _ => ?_, rfl, rfl, fun h => ?_⟩
  · cases m <;> cases o <;> decide +kernel
  · exact free.imp id fun h => ⟨h, rfl⟩
  · cases m <;> cases o <;> decide +kernel
  · exact ⟨show (0 : Nat) < 512 by decide, rfl⟩
  · subst h; cases m <;> decide +kernel

/-- Tables with a gossip page at 2^30, and a descriptor of a region of that page at 0x8000. -/
def describing (d : List Host.Cell) : State :=
  { regs with
    mem := tables ++ ([(0x3008, 0x03), (0x3009, 0x40), (0x4000, 0x03), (0x4001, 0x50), (0x5000, 0x8F), (0x5001, 0x80), (0x5002, 0x01)] ++ d),
    cur := { (regs.cur.wr 5 0x8000) with priv := true } }
def descRegion (base slot : Byte) : State :=
  describing [(0x8003, base), (0x8008, 1), (0x800C, 20), (0x800E, 4), (0x8010, 1), (0x8018, slot)]

/-- What a descriptor read at g5 meets of a definition: its fields, its pages and its links. -/
def defines (s : State) (p : Bool → Bool → Bool → Bool) : Bool :=
  isSome (s.sees .load (s.cur.rd 5) 64) fun bs =>
    let desc := (List.range 8).map fun k => leWord ((bs.drop (8 * k)).take 8)
    p (regionFits desc) (regionPages s s.cur.part (fieldOf desc 0 0 56) (fieldOf desc 1 0 32)).isSome
      ((descSlots desc).all fun x => s.liveLink x.1 && s.liveLink x.2)
def portDown : State := { descRegion 0x40 0x21 with ports := [(1, { Port.init with up := false }), (2, Port.init)] }

/-- A message of region 4 is outstanding. -/
def outstanding (mode : Bool) : State :=
  { gossip mode false with sent := [{ port := 1, seq := 1, region := 4, page := 0, round := none, words := [], back := false,
                                      sentAt := 0, gap := 10000 }] }
def endsRound : State := { gossip true false with regions := [(4, { region4 true with halved := 1, got := [0] })] }

theorem test_meets_GossipControl :
    (regs.Plain ∧ regs.part = .tl460 ∧ regs.cur.priv = false ∧ regs.ownRegion 4 = none) ∧
    ((gossip false false).Plain ∧ (gossip false false).cur.priv = true ∧ (gossip false false).cur.ordered = false ∧
      (gossip false false).ownRegion 3 = none ∧ (AMap.find? (gossip false false).regions 4).isSome = true) ∧
    ((describing []).Plain ∧ (describing []).cur.priv = true ∧ (describing []).cur.ordered = false ∧
      AMap.find? (describing []).regions 4 = none ∧ (describing []).raceFree ∧ (describing []).cur.behind = [] ∧
      (describing []).replaying 0 = false) ∧
    defines (describing []) (fun a _ _ => !a) = true ∧
    defines (descRegion 0 0x21) (fun a b _ => a && !b) = true ∧
    defines (descRegion 0x40 0x21) (fun a b c => a && b && c) = true ∧
    defines portDown (fun a b c => a && b && !c) = true ∧
    ((gossip false false).ownRegion 4 = some (region4 false) ∧ (region4 false).mode = false ∧
      ((gossip false false).sent.filter fun m => m.region == 4).length + (region4 false).held.length = 0) ∧
    ((outstanding false).Plain ∧ (outstanding false).ownRegion 4 = some (region4 false) ∧
      ((outstanding false).sent.filter fun m => m.region == 4).length + (region4 false).held.length ≠ 0) ∧
    ((gossip true false).Plain ∧ (gossip true false).ownRegion 4 = some (region4 true) ∧ (region4 true).mode = true ∧
      (gossip true false).cur.rd 1 ≠ (region4 true).rnd) ∧
    (endsRound.Plain ∧ endsRound.ownRegion 4 = some { region4 true with halved := 1, got := [0] } ∧
      endsRound.cur.rd 2 = (region4 true).rnd ∧ endsRound.roundDone 4 { region4 true with halved := 1, got := [0] } = true) :=
  ⟨⟨test_plain, rfl, rfl, rfl⟩, ⟨test_gossip_plain _ _, rfl, rfl, rfl, rfl⟩,
    ⟨⟨⟨rfl, rfl, rfl, rfl, rfl⟩, rfl, rfl, rfl⟩, rfl, rfl, rfl, (fun _ h => nomatch h), rfl, rfl⟩,
    by decide +kernel, by decide +kernel, by decide +kernel, by decide +kernel, by decide +kernel,
    ⟨⟨⟨rfl, rfl, rfl, rfl, rfl⟩, rfl, rfl, rfl⟩, by decide +kernel, by decide +kernel⟩, ⟨test_gossip_plain _ _, by decide +kernel⟩,
    ⟨⟨⟨rfl, rfl, rfl, rfl, rfl⟩, rfl, rfl, rfl⟩, by decide +kernel⟩⟩

/-! Several harts. -/

/-- A second hart of the group, on the core's second front end. -/
def hart2 : Hart := { hart1 with hid := 2, slot := 1 }
def two (f : Hart → Hart) : State := { regs with rest := [f hart2] }
theorem test_two_plain (f : Hart → Hart) : (two f).Plain := ⟨⟨rfl, rfl, rfl, rfl, rfl⟩, rfl, rfl, rfl⟩
theorem test_two_committing (f : Hart → Hart) : (two f).Committing :=
  committing_of _ (test_two_plain f) rfl rfl rfl rfl rfl rfl rfl

def atBar1 : State := two fun h => { h with wait := some (.bar 1 false none) }
def asleep : State := with_ fun h => { h with wait := some (.sleep 5000) }

/-- Queue 2 with packets in its buffer. -/
def queued (ps : List Packet) : State :=
  { regs with
    mem := tables ++ [(0x2080, 2)],
    cur := regs.cur.wr 5 0x20BF, parts := [(0, { part0 with queues := [(0, Queue.init), (2, { Queue.init with en := true, prio := 9, buf := ps })] })] }
def packet1 (k : Word) : Packet :=
  { words := k :: List.replicate 15 0, level := 0, lid := 0, by_ := none, rep := false, form := .plain }

def privileged (f : Hart → Hart) : State :=
  { two f with cur := { (regs.cur.wr 5 1) with priv := true } }

theorem test_meets_WaitsPacketsContexts :
    (atBar1.Plain ∧ atBar1.Committing ∧ atBar1.cur.ordered = false ∧ ((atBar1.commitTask 0).beginAfter).Roomy ∧
      ((atBar1.rest.filter fun h => h.lid == atBar1.cur.lid && h.grp == atBar1.cur.grp && h.status != .exited).all
        (Hart.atBar 1)) = true) ∧
    ((((two id).rest.filter fun h => h.lid == regs.cur.lid && h.grp == regs.cur.grp && h.status != .exited).all
        (Hart.atBar 1)) = false ∧ ((regs.cur.rd 0).extractLsb' 0 32).toNat = 0 ∧ ((regs.cur.rd 1).extractLsb' 0 32).toNat ≠ 0) ∧
    (asleep.cur.status = .running ∧ asleep.cur.wait = some (.sleep 5000) ∧ 5000 ≤ asleep.now) ∧
    ((queued []).Plain ∧ (queued []).raceFree ∧ (queued []).cur.behind = [] ∧ (queued []).cur.ordered = false ∧
      (queued []).openQueue 0 3 = none ∧ isSome ((queued []).openQueue 0 2) (fun x => x.buf == [] && x.skip == 0) = true ∧
      isSome ((queued []).sees .load ((queued []).cur.rd 5 &&& ~~~0x3F) 64) (fun _ => true) = true ∧
      isSome ((queued []).sees .load ((queued []).cur.rd 5 &&& ~~~0x7F) 128) (fun bs => kindOf (wordsOf 16 bs) == 2) = true) ∧
    isSome ((queued (List.replicate 256 (packet1 0))).openQueue 0 2) (fun x => decide (256 ≤ x.used)) = true ∧
    ((privileged id).Plain ∧ ((privileged id).harts.map Hart.hid).Nodup ∧ regs.cur.priv = false ∧ (privileged id).cur.priv = true ∧
      (privileged id).targetOf 9 = none ∧ isSome ((privileged id).targetOf ((privileged id).cur.rd 5)) (fun h =>
        !h.isSaved && h.status == .running && h.sq == [] && !h.midPair && h.hstep == 0 && (privileged id).frameOk h) = true) ∧
    (let s := privileged fun h => { h with tfb := 0x40000000 }
     isSome (s.targetOf (s.cur.rd 5)) (fun h => !h.isSaved && !s.frameOk h) = true) ∧
    (let s := privileged fun h => { h with status := .saved, room := true, tfb := 0x40000000 }
     isSome (s.targetOf (s.cur.rd 5)) (fun h => h.isSaved && !s.frameOk h) = true) ∧
    (let s := privileged fun h => { h with status := .saved, room := true }
     isSome (s.targetOf (s.cur.rd 5)) (fun h => h.isSaved && s.frameOk h && !s.frameFits h false) = true) ∧
    (let s : State := { privileged fun h => { h with status := .saved, room := true, offer := 64, offered := true } with frames := [(4, 0x6000)] }
     isSome (s.targetOf (s.cur.rd 5)) (fun h =>
      h.isSaved && h.status == .saved && h.room && h.owed == none && h.redo == none && s.frameOk h && s.frameFits h false &&
        isSome ((s.aimAt h.core fun x => x.hid == h.hid).hart? h.hid) (s.aimAt h.core fun x => x.hid == h.hid).canResume) = true) :=
  ⟨⟨test_two_plain _, test_two_committing _, rfl, by unfold State.Roomy; decide +kernel, by decide +kernel⟩,
    by decide +kernel, by decide +kernel,
    ⟨⟨⟨rfl, rfl, rfl, rfl, rfl⟩, rfl, rfl, rfl⟩, (fun _ h => nomatch h), by decide +kernel⟩, by decide +kernel,
    ⟨⟨⟨rfl, rfl, rfl, rfl, rfl⟩, rfl, rfl, rfl⟩, by decide +kernel⟩, by decide +kernel, by decide +kernel, by decide +kernel,
    by decide +kernel⟩

/-! Events. -/

/-- A hart that stands at a word at 0x8000. -/
def standing (i : Instr) (f : Hart → Hart) : State :=
  { regs with mem := writeCells tables (cellsAt 0x8000 (wordBytes 8 ((encode false i).getD 0))), cur := f regs.cur }

theorem stands_of (s : State) (i : Instr) (w : Word) (mark : Bool) (h : s.fetched.map Prod.fst = some w)
    (d : decode true (decide (s.part = .tl460)) w = .instr mark i) : ∃ t, s.standsAt i t := by
  cases e : s.fetched with
  | none => rw [e] at h; cases h
  | some x => rw [e] at h; cases h; exact ⟨x.2, x.1, mark, e, d⟩

def sleeper : State := standing (.sleep 6) fun h => { h with wait := some (.sleep 4000) }
def watcher : State :=
  standing (.wait 5 3 0 .d .core 0 .ne) fun h => { h with wait := some (.word { pa := 0x100, size := 8, cond := .ne, x := 0 } (some (7, 0))) }
def turner (i : Instr) : State := standing i fun h => { h with ordered := true, pts := 3, wait := some .turn }

theorem test_turner_committing (i : Instr) :
    ({ (turner i).focus 1 with cur := { ((turner i).focus 1).cur with wait := none } } : State).Committing :=
  committing_of _ ⟨⟨rfl, rfl, rfl, rfl, rfl⟩, rfl, rfl, rfl⟩ rfl rfl rfl rfl rfl rfl rfl

/-- The waits that end: a deadline passed, a word that held a value, and the four turns of an ordered task. -/
theorem test_meets_HartEvents_waits :
    (sleeper.runsFront 1 ∧ (∃ t, (sleeper.focus 1).standsAt (.sleep 6) t) ∧ (sleeper.focus 1).cur.stepping = none ∧
      (sleeper.focus 1).cur.wait = some (.sleep 4000) ∧ 4000 ≤ (sleeper.focus 1).now) ∧
    (watcher.runsFront 1 ∧ (∃ t, (watcher.focus 1).standsAt (.wait 5 3 0 .d .core 0 .ne) t) ∧ (watcher.focus 1).Unlogged ∧
      (watcher.focus 1).cur.stepping = none ∧ (watcher.focus 1).cur.vq = [] ∧
      (watcher.focus 1).cur.wait = some (.word { pa := 0x100, size := 8, cond := .ne, x := 0 } (some (7, 0)))) ∧
    (∀ i, (turner i).runsFront 1 ∧ ((turner i).focus 1).cur.wait = some .turn ∧
      ({ (turner i).focus 1 with cur := { ((turner i).focus 1).cur with wait := none } } : State).Committing ∧
      ((turner i).focus 1).cur.ordered = true ∧ ((turner i).focus 1).cur.trap.hdl = false ∧
      ((turner i).focus 1).cur.stepping = none ∧ ((turner i).focus 1).rest = [] ∧ ((turner i).focus 1).cur.copiesDone = true ∧
      ((turner i).focus 1).cur.pts ≠ BitVec.allOnes 64) ∧
    ([.ph 4, .phTimestamp 4 2, .sys 0x800003, .exit].all fun i => ((turner i).focus 1).oldest) = true ∧
    ((turner (.phTimestamp 4 2)).focus 1).cur.pts.toNat < (((turner (.phTimestamp 4 2)).focus 1).cur.rd 2).toNat ∧
    ((∃ t, ((turner (.ph 4)).focus 1).standsAt (.ph 4) t) ∧
      (∃ t, ((turner (.phTimestamp 4 2)).focus 1).standsAt (.phTimestamp 4 2) t) ∧
      (∃ t, ((turner (.sys 0x800003)).focus 1).standsAt (.sys 0x800003) t) ∧
      (∃ t, ((turner .exit).focus 1).standsAt .exit t)) :=
  ⟨⟨⟨rfl, rfl⟩, stands_of _ _ 0x1E01006000000000 false (by decide +kernel) rfl, rfl, rfl, by decide⟩,
    ⟨⟨rfl, rfl⟩, stands_of _ _ 0x120D143032004000 false (by decide +kernel) rfl, rfl, rfl, rfl, rfl⟩,
    (fun i => ⟨⟨rfl, rfl⟩, rfl, test_turner_committing i, rfl, rfl, rfl, rfl, rfl, (show (3 : Word) ≠ BitVec.allOnes 64 by decide)⟩),
    by decide +kernel, by decide +kernel,
    ⟨stands_of _ _ ((encode false (.ph 4)).getD 0) false (by decide +kernel) rfl,
      stands_of _ _ ((encode false (.phTimestamp 4 2)).getD 0) false (by decide +kernel) rfl,
      stands_of _ _ ((encode false (.sys 0x800003)).getD 0) false (by decide +kernel) rfl,
      stands_of _ _ ((encode false .exit).getD 0) false (by decide +kernel) rfl⟩⟩

/-- A retired store of eight bytes; one for which the version has no room; and one to a page that may not be written. -/
def store1 : PendingStore := { ea := 0x100, bytes := [1, 2, 3, 4, 5, 6, 7, 8], opc := 0x8000, iter := 0, at_ := 0 }
def storing (f : Hart → Hart) : State := with_ fun h => f { h with sq := [store1] }
def noRoom : State := storing fun h => { h with ver := [(0x200, 5)], vcap := 1 }
def readOnly : State := { storing id with mem := tables.map fun c => if c.1 = 0x3000 then (c.1, 0x17) else c }

def stored1 (s : State) (p : List Phys → Bool) : Bool :=
  isOk (resolveRange s s.cur .store store1.ea store1.bytes.length) fun ps =>
    ps.all (·.cls == 0) && decide (ps.map Phys.pa).Nodup && p ps

theorem test_meets_HartEvents_stores :
    ((storing id).runsFront 1 ∧ ((storing id).focus 1).cur.sq = store1 :: [] ∧ ((storing id).focus 1).cur.vq = [] ∧
      ((storing id).focus 1).cur.behind = [] ∧ ((storing id).focus 1).cur.due = .nothing ∧ stageOff store1.ea = none) ∧
    stored1 ((storing id).focus 1) (fun ps => !overflows ((storing id).focus 1) ((storing id).focus 1).cur ps) = true ∧
    (noRoom.runsFront 1 ∧ (noRoom.focus 1).cur.sq = store1 :: [] ∧ (noRoom.focus 1).cur.ordered = false ∧
      ((noRoom.focus 1).cur.handlerOpen && (noRoom.focus 1).cur.ctx.thmask.getLsbD 2) = false ∧
      (noRoom.focus 1).cur.sfq.length < 16 ∧ (noRoom.focus 1).cur.sfHeld = []) ∧
    ({ noRoom.focus 1 with cur := { (noRoom.focus 1).cur with sq := [] } } : State).Committing ∧
    stored1 (noRoom.focus 1) (fun ps =>
      let r := ({ noRoom.focus 1 with cur := (noRoom.focus 1).cur.recordFault store1.storeId store1.ea 5 } : State).firmwareCommit
      overflows (noRoom.focus 1) (noRoom.focus 1).cur ps && !overflows r r.cur ps &&
        (List.range 4).all fun d => decide (r.dieLines d ≤ dieShare)) = true ∧
    isErr (resolveRange (readOnly.focus 1) (readOnly.focus 1).cur .store store1.ea store1.bytes.length) (· == (0x100, .perm)) = true :=
  ⟨⟨⟨rfl, rfl⟩, rfl, rfl, rfl, rfl, rfl⟩, by decide +kernel, ⟨⟨rfl, rfl⟩, rfl, rfl, rfl, by decide, rfl⟩,
    committing_of _ ⟨⟨rfl, rfl, rfl, rfl, rfl⟩, rfl, rfl, rfl⟩ rfl rfl rfl rfl rfl rfl rfl, by decide +kernel, by decide +kernel⟩

/-- A launch of two groups of one hart each, with original code only. -/
def header1 : List Word := [0x2000, 0x0800000000000000, 0, 0, 1, 0, 0, 0x000A080000000080]
def launch1 : Launch :=
  { lid := 12, part := 0, hdr := header1, args := [], lprio := 9, priv := false, parsed := 0, placed := 0, ngroups := 2,
    retired := [], evicted := [], status := 0, queue := none, by_ := none, room := false, chosen := none, tensors := [],
    commits := 0, recMode := 0, streams := [], consumed := [], recBase := 0x4000, recCap := 64, sealed := none, looked := false,
    eval := none, entry := none, reports := [] }
/-- A queued instruction of two positions that stands at its first; the hart that has it queued, beside one that is served
later. -/
def queuedOp (i : Instr) : VOp :=
  { i := i, opc := 0x8000, iter := 0, at_ := 0, ga := 0, gb := 0, gc := 0, vl := 2, nr := 1, fmt := .f32,
    blk := 0, len := 2, pos := 0, acc := 0, acc2 := 0, aux := [], tensor := none, entered := 0, served := 5000,
    look := { id := 0, upto := 0 }, call := false }
def serving (i : Instr) : State :=
  { with_ (fun h => { h with vq := [queuedOp i] }) with
    rest := [{ hart2 with vq := [{ queuedOp i with entered := 1 }] }] }

theorem test_served_next (i : Instr) : (serving i).servedNext 0 1 [] := by
  refine ⟨(by decide : [1, 2].Nodup), rfl, nofun, fun op ho g hg hne _ _ _ o hg2 => ?_⟩
  obtain rfl : queuedOp i = op := Option.some.inj ho
  rw [show (serving i).harts = [(serving i).cur, { hart2 with vq := [{ queuedOp i with entered := 1 }] }] from rfl] at hg
  simp only [List.mem_cons, List.not_mem_nil, or_false] at hg
  rcases hg with rfl | rfl
  · exact absurd rfl hne
  · obtain rfl : { queuedOp i with entered := 1 } = o := Option.some.inj hg2
    refine Or.inr ⟨?_, ?_, Or.inr ⟨rfl, ?_⟩⟩
    · show ¬5000 + 171 ≤ 5000; decide
    · show ¬5000 + 171 ≤ 5000; decide
    · show 0 < 1; decide

/-- A saved hart with its frame, of a launch that may be on every core; and one that waits for another core. -/
def savedHart : State :=
  { with_ fun h => { h with status := .saved, room := true, offer := 64, offered := true } with
    frames := [(2, 0x6000)], launches := [(5, { launch1 with lid := 5 })] }
def movingHart : State :=
  { with_ fun h => { h with status := .saved, tiles := [], ntiles := 0, xcap := 0, xents := [], room := false } with
    frames := [(2, 0x6000)], launches := [(5, { launch1 with lid := 5 })] }
/-- A saved hart whose tile 0 and slice are out of the store. -/
def lazy : State :=
  with_ fun h => { h with tiles := [{ p := [], a := [], ovf := false, void := false, place := .away 0x8000 }], xPlace := .away 0x20000 }

theorem test_meets_HartEvents_places :
    (∀ i, let u := (serving i).focus 1
     (serving i).servedNext 0 1 [] ∧ u.cur.vq = [queuedOp i] ∧ (queuedOp i).i = i ∧ (queuedOp i).pos < (queuedOp i).len ∧
       (queuedOp i).len = (queuedOp i).nr * (queuedOp i).vl ∧ (queuedOp i).nr ≤ 8 ∧ (queuedOp i).vl ≤ 1024 ∧ u.spots = [] ∧
       u.cur.due = .nothing) ∧
    (regs.runsFront 1 ∧ (regs.focus 1).cur.sq = [] ∧ (regs.focus 1).cur.midPair = false ∧ (regs.focus 1).cur.hstep = 0 ∧
      (regs.focus 1).frameOk (regs.focus 1).cur = true) ∧
    ([savedHart, movingHart].all fun s => (s.focus 1).cur.hid == 1 && (s.focus 1).cur.status == .saved &&
      !(s.focus 1).evicted (s.focus 1).cur && decide (s.harts.map Hart.hid).Nodup &&
      [0, 1].all fun core => (s.groupHarts 5 0).all fun x => x.core == 0 && decide (x.idx < (s.slotsFree core).length) &&
        x.owed.isNone && x.redo.isNone && (s.focus 1).frameFits x false) = true ∧
    ((savedHart.focus 1).cur.core = 0 ∧ (savedHart.focus 1).cur.room = true) ∧
    ((movingHart.focus 1).cur.core ≠ 1 ∧
      isSome (AMap.find? (movingHart.focus 1).launches 5) (fun l => (movingHart.focus 1).mayTake l 0 1) = true) ∧
    (savedHart.groupHarts 5 0 ≠ [] ∧ savedHart.groupSaved 5 0 = true ∧ (savedHart.groupHarts 5 0).any Hart.room = true ∧
      areaOk savedHart.part 0x100000 (max 1 ((savedHart.groupHarts 5 0).map Hart.areaBytes).sum) = true) ∧
    ((lazy.focus 1).cur.hid = 1 ∧ (lazy.focus 1).cur.status ≠ .absent ∧ (lazy.focus 1).cur.room = true ∧
      isSome (lazy.focus 1).cur.tiles[0]? (fun x => x.place == .away 0x8000) = true ∧ (lazy.focus 1).bad = [] ∧
      (lazy.focus 1).cur.xPlace = .away 0x20000) ∧
    [0x200].find? (fun l => decide (0x8000 < l * 64 + 64) && decide (l * 64 < 0x8000 + 640 * (lazy.focus 1).cur.tw)) = some 0x200 :=
  ⟨fun i => ⟨test_served_next i, rfl, rfl, Nat.zero_lt_two, rfl, (by decide : 1 ≤ 8), (by decide : 2 ≤ 1024), rfl, rfl⟩,
    ⟨⟨rfl, rfl⟩, rfl, rfl, rfl, by decide +kernel⟩, by decide +kernel, by decide +kernel, by decide +kernel, by decide +kernel,
    by decide +kernel, by decide +kernel⟩

theorem test_meets_DebugEvents :
    AMap.find? regs.parts 0 = some part0 ∧
    ((regs.focus 1).cur.hid = 1 ∧ (regs.focus 1).cur.sealed = none ∧ (regs.focus 1).cur.status = .running ∧
      AMap.find? regs.parts (regs.focus 1).cur.part = some part0 ∧
      (regs.focus 1).cur.midPair = false) ∧
    (let u := ({ inResid with cur := { inResid.cur with code := [{ word := 0, opc := 0, iter := 0, kind := .more }] } } : State).focus 1
     u.cur.status = .running ∧ u.cur.midPair = true) ∧
    (({ regs with parts := [(0, { part0 with breaks := [0x8000] })] } : State).focus 1).atBreakpoint = true ∧
    ([StopAt.plain, .point, .brk].all fun a => ((with_ fun h => { h with status := .stopped a }).focus 1).cur.status == .stopped a) = true ∧
    ([RegEdit.g 5 7].all editOk = true ∧ [RegEdit.nr 8].all editOk = true ∧ [RegEdit.frm 3].all editOk = true) ∧
    ((with_ fun h => { h with sealed := some 0 }).focus 1).cur.sealed ≠ none := by
  refine ⟨rfl, ⟨rfl, rfl, rfl, rfl, rfl⟩, by decide +kernel, by decide +kernel, by decide +kernel, by decide +kernel, by decide +kernel⟩

/-- The hart holds five lane groups against an offer of 64. -/
def overHeld : State :=
  { with_ (fun h => { h with offer := 64, overSince := some 0, part := 0 }) with
    now := 1000000,
    cores := [(0, { regs.core 0 with lat := (regs.core 0).lat.map fun e => { e with held := true, owner := 0 } })] }

theorem test_meets_PowerEvents :
    ((regs.harts.map Hart.hid).Nodup ∧ (3 : Nat) < 4 ∧ regs.part = .tl460) ∧
    (isSome (overHeld.hart? 1) fun x => x.overSince == some 0 && overHeld.overHolding x &&
      decide (0 + 1000 * overHeld.holdLimit x ≤ overHeld.now) && x.hstep != 7) = true ∧
    (900 ≤ 1600 ∧ 1600 ≤ 1600 ∧ 1600 % 25 = 0 ∧ [400000, 400000, 800000, 0].length = 4 ∧
      [400000, 400000, 800000, 0].sum ≤ 1000 * 1600) ∧
    (∃ l, l ∈ regs.offerLines [] 0) ∧ (∀ x ∈ regs.harts, ∀ c ∈ x.chans, c.flight = []) ∧
    (1 ≤ 64 ∧ 8 ≤ 1024 ∧ 1 ≤ 255 ∧ 1 ≤ 7 ∧ 85 ≤ 105 ∧ 7 < 2 * 4) ∧ AMap.find? regs.parts 0 = some part0 := by
  refine ⟨by decide +kernel, by decide +kernel, by decide, ?_, by decide +kernel, by decide, rfl⟩
  exact ⟨(regs.offerLines [] 0).head (by decide +kernel), List.head_mem _⟩

/-- A message and a mailbox that holds one. -/
def mailed : State := { regs with mail := [(1, [List.replicate 64 7])] }

def launched (f : Launch → Launch) : State := { regs with launches := [(12, f launch1)] }

theorem test_meets_AdminEvents :
    (0 < 8 ∧ (List.replicate 64 7).length = 64 ∧ (∀ b ∈ List.replicate 64 7, b < 256) ∧
      (AMap.find? mailed.mail (8 * 0 + 1)).getD [] = List.replicate 64 7 :: []) ∧
    (regs.lidOpen 7 = true ∧ AMap.find? regs.launches 7 = none ∧ 7 ≠ 0 ∧ 0x4000 % 8 = 0 ∧ 16 ≤ 32 ∧ 32 % 16 = 0) ∧
    (let s := launched fun l => { l with recMode := 1, streams := [(0, [1, 2])] }
     isSome (AMap.find? s.launches 12) (fun l => l.recMode == 1 && decide (l.taken 0 ≤ 16 / 8) && decide (16 / 8 ≤ (l.streamOf 0).length)) = true) ∧
    (let x : PartSetup := { part := 3, root := 0x9000, windows := [(0x40000000, 0x1000)], peers := [0xFFFF], elogAt := 0x80, elog := 1 }
     x.part < 4 ∧ AMap.find? regs.parts x.part = none ∧ x.root % 4096 = 0 ∧ x.windows.length ≤ 16 ∧
       (∀ w ∈ x.windows, (∃ k, w.2 = 2 ^ k) ∧ w.1 % w.2 = 0 ∧ w.1 + w.2 ≤ 2 ^ 56) ∧ (∀ k ∈ x.peers, k < 2 ^ 16) ∧
       (∀ y ∈ regs.parts, ∀ k ∈ y.2.peers, k ∉ x.peers) ∧ 1 ≤ x.elog ∧ x.elogAt % 128 = 0 ∧
       populated regs.part x.elogAt = true ∧ populated regs.part (x.elogAt + 128 * x.elog - 1) = true) ∧
    (isSome (regs.hart? 1) (fun y => decide (3 < y.chans.length)) = true ∧ (AMap.find? regs.parts 0).isSome = true ∧ 0x12345 < 2 ^ 56 ∧
      4 ≤ 4) ∧
    (regs.runsFront 1 ∧ (regs.focus 1).cur.wait = none ∧ (regs.focus 1).cur.vq = [] ∧ (regs.focus 1).cur.midPair = false ∧
      isOk (resolveEa regs none (regs.focus 1).cur.part (regs.focus 1).cur.sealed .load 0x100) (fun _ => true) = true) ∧
    ((∀ l ∈ [2 ^ 36 + 5], l / 2 ^ 36 = 1) ∧ populated regs.part 0x7FFFFFFFFF = true ∧ isHostMem 0x7FFFFFFFFF = false ∧
      isMainMem 0x7FFFFFFFFF = true ∧
      slotExists 1 31 7 1023 = true ∧ slotExists 4 7 63 1023 = true ∧ regs.hostUp = true ∧ isSecondTier (0x2000000000 * 64) = true) :=
  ⟨by decide +kernel, by decide +kernel, by decide +kernel,
    ⟨by decide, by decide +kernel, by decide, by decide, fun w h => by
        rw [List.mem_singleton] at h; subst h; exact ⟨⟨12, rfl⟩, by decide, by decide⟩, by decide, by decide +kernel, by decide,
        by decide, by decide +kernel, by decide +kernel⟩,
    by decide +kernel, ⟨⟨rfl, rfl⟩, rfl, rfl, rfl, by decide +kernel⟩, by decide +kernel⟩

/-- The package has a key; region 0 is sealed to page 0x40. What the opening of a message gives is open (log 16). -/
def region0 : SealedRegion := { part := 0, pages := [0x40], key := 1, ident := List.replicate 48 0 }
def sealing : State := { launched id with keyGen := 1, sealedRegs := [(0, region0)] }
theorem test_meets_SecurityEvents :
    ((AMap.find? sealing.parts 0).isSome = true ∧ region0.ident.length = 48 ∧ sealing.keyGen ≠ 0) ∧
    (∀ k ∈ [0x50], isMainMem (k * 4096) = true ∧ populated sealing.part (k * 4096) = true ∧ ∀ x ∈ sealing.sealedRegs, k ∉ x.2.pages) ∧
    ([0x50] : List Nat).Nodup ∧
    ((region0.ident ++ [7]).take 48 = region0.ident ∧ ([1] ++ region0.ident).take 48 ≠ region0.ident ∧
      (List.replicate 4096 (0 : Byte)).length ≤ [0x50].length * 4096 ∧
      [0x50].length * 4096 < (List.replicate 4096 (0 : Byte)).length + 4096) ∧
    1 ≠ sealing.lifeCycle ∧
    (AMap.find? sealing.sealedRegs 0 = some region0 ∧ (List.replicate 48 (0 : Byte)).length = 48 ∧
      ∀ y ∈ sealing.launches, y.2.sealed ≠ some 0) := by
  refine ⟨by decide +kernel, by decide +kernel, by decide, ⟨by decide +kernel, by decide +kernel, ?_, ?_⟩, by decide, by decide +kernel⟩
  · rw [List.length_replicate]; decide
  · rw [List.length_replicate]; decide

/-- Page 2^30 is not mapped; a hart waits for it. -/
def waiting : State :=
  { with_ (fun h => { h with status := .swapped { ea := 0x40000010, lo := 0x40000010, size := 1, err := false, store := false, slices := false, opc := 0x8000, iter := 0, elem := 0, at_ := 0 } }) with
    parts := [(0, { part0 with queues := [] })] }
/-- The first GiB moves to second-tier memory. -/
def move1 : PageMove := { part := 0, vpn := 0, old := 0, new := 0x8000000 * 16, pages := 2 ^ 18, die := 0, todo := 0 }

theorem test_meets_PageAndCopyEvents_pages :
    (regs.faultAt 0 0x40000000).isSome = true ∧
    (let e : Word := 0x600000004000001F
     pteBad regs.part 2 e = false ∧ pteV e = true ∧ pteP e = true ∧ regs.sealedFits 0 e = true ∧ pteSize e ≠ 1) ∧
    ((waiting.faultAt 0 0x40000000).isSome = true ∧
      isSome (AMap.find? waiting.parts 0) (fun x => x.queues == [] && x.fifo == []) = true ∧ waiting.launches = [] ∧
      (∀ x ∈ waiting.harts, x.flights = []) ∧ (waiting.harts.map Hart.hid).Nodup ∧
      (∀ x ∈ waiting.harts, x.part = 0)) ∧
    (isSome (leafEntry regs 0x100 4 0x1000) (fun x => ptePpn x.2 == move1.old && 2 ^ sizeShift (pteSize x.2) == move1.pages &&
        pteCls x.2 != 3 && pteCls x.2 != 1) = true ∧
      isMainMem (move1.old * 4096) = true ∧ isSecondTier (move1.new * 4096) = true ∧ regs.pinnedVpns 0 = [] ∧ regs.regions = [] ∧
      regs.migr = [] ∧ populated regs.part (move1.new * 4096) = true ∧ move1.new % 2 ^ 18 = 0 ∧
      (regs.die (homeDie (move1.old * 4096))).migBudget ≠ 0) ∧
    (({ regs with migr := [move1] } : State).migr = [move1] ∧ move1.new < 2 ^ 40 ∧ Memory.wf regs.mem = true ∧
      move1.todo ≤ (regs.die move1.die).migLeft ∧ ({ regs with migr := [move1] } : State).pinned 0 0 0 (2 ^ 18) = false) := by
  decide +kernel

/-- A transfer of one byte from 0x100 to 0x200; one from where nothing may be read; a COPY packet; a ring slot filled. -/
def transfer1 (src : Word) : Transfer := { flying with src := src, dst := 0x200, len := 1 }
def moving (src : Word) : State := with_ fun h => h.onChan 0 fun c => { c with next := 2, flight := [transfer1 src] }
def copyPacket1 : Packet := { packet1 8 with words := [8, 0x100, 0x200, 1] ++ List.replicate 12 0 }
def copyQueue : State :=
  { regs with parts := [(0, { part0 with queues := [(2, { Queue.init with en := true, started := [{ pkt := copyPacket1, done := false, todo := 1 }] })] })] }
def claimedRing : Ring := { ring1 with claimed := 1, filled := 1, claimPos := 0, wrote := [1] }
def denied : State := pages 0x13
/-- What is left of a budget covers a transfer, the last unit of 1 KiB at most overdrawing it. -/
def covered (left : Int) (todo : Nat) : Bool :=
  decide (todo = 0 ∨ (0 < left ∧ (todo : Int) ≤ (left + 1023) / 1024 * 1024))

def copies (x : Except CopyStop (List Ready)) : Bool :=
  isOk x fun l => l.all (fun r => r.mask == 0xFF && match r.goal with | .mem pa => !isHostMem pa | _ => false) &&
    decide ((memWrites l).map Prod.fst).Nodup && l != []

theorem test_meets_PageAndCopyEvents_copies :
    (isSome ((moving 0x100).hart? 1) (fun x => isSome (x.transfer 0 1) fun y => x.status != .exited && y.ring == none &&
        !flgPeer y.flg && covered (x.chan 0).left y.todo &&
        copies (copyReady (moving 0x100) (y.job (moving 0x100) x) 0 (y.job (moving 0x100) x).moves)) = true ∧
      ((moving 0x100).harts.map Hart.hid).Nodup) ∧
    isSome ((moving 0xFFFFFFFFFE000000).hart? 1) (fun x => isSome (x.transfer 0 1) fun y =>
      (moving 0xFFFFFFFFFE000000).mayFail x y 2 &&
        (let l := movable (moving 0xFFFFFFFFFE000000) (y.job (moving 0xFFFFFFFFFE000000) x) 0 (y.job (moving 0xFFFFFFFFFE000000) x).moves
         l.all (fun r => r.mask == 0xFF) && decide ((memWrites l).map Prod.fst).Nodup)) = true ∧
    isSome (copyQueue.copyPacket 2 0) (fun z => z.1.watch == none && covered z.1.left z.2.todo &&
      !(z.2.pkt.copyJob 0).peer &&
      copies (packetReady copyQueue (z.2.pkt.copyJob 0) 0 (z.2.pkt.copyJob 0).moves)) = true ∧
    (claimedRing.claimed ≠ 0 ∧ claimedRing.oldestClaimed ∈ [0, 1]) ∧
    (isSome (AMap.find? regs.parts 0) (fun x => x.inWindow 0x7FF8 8) = true ∧ regs.hostUp = true ∧
      isOk (reach regs 0 none .load 0x7FF8 8) (fun ps => ps.all (·.cls != 1)) = true ∧
      isOk (reach regs 0 none .store 0x7FF8 8) (fun ps => ps.all (·.cls != 1) && decide (ps.map Phys.pa).Nodup) = true ∧
      isErr (reach denied 0 none .load 0x7FF8 8) (fun _ => true) = true ∧
      isErr (reach denied 0 none .store 0x7FF8 8) (fun _ => true) = true) :=
  ⟨by decide +kernel, by decide +kernel, by decide +kernel, by decide +kernel, by decide +kernel⟩

/-! Queues. -/

/-- A queue of four slots whose ring lies at 0x4000, with what follows; and its packets. -/
def ringQueue (ps : List Packet) (st : List Started) : Queue :=
  { Queue.init with en := true, base := 0x4000, sz := 2, buf := ps, prio := 5, started := st }
def onQueue (y : Queue) (fifo : List Doorbell) : State :=
  { regs with parts := [(0, { part0 with queues := [(2, y)], fifo := fifo })] }
def packetOf (ws : List Word) : Packet := { packet1 0 with words := ws ++ List.replicate (16 - ws.length) 0 }

theorem test_meets_QueueRegisters :
    (AMap.find? (onQueue (ringQueue [] []) []).parts 0 = some { part0 with queues := [(2, ringQueue [] [])] } ∧
      AMap.find? [(2, ringQueue [] [])] 2 = some (ringQueue [] []) ∧ (onQueue (ringQueue [] []) []).hostUp = true ∧
      (onQueue (ringQueue [] []) []).parts.all (fun x => decide (x.2.fifo.length < 64)) = true) ∧
    64 ≤ (List.replicate 64 ({ q := 2, tail := 0, seq := 0 } : Doorbell)).length ∧
    ((0x8006 : BitVec 64).getLsbD 15 = true ∧ (0x8006 : BitVec 64).toNat % 8 ≠ 7 ∧ (ringQueue [] []).en = true ∧ Queue.init.en = false ∧
      (0x0006 : BitVec 64).getLsbD 15 = false ∧ (0x8007 : BitVec 64).toNat % 8 = 7 ∧ (ringQueue [] []).watch = none) ∧
    ((ringQueue [] []).en && !(ringQueue [] []).stop) = true ∧ (Queue.init.en && !Queue.init.stop) = false ∧
    ((ringQueue [] []).slots < ((9 : BitVec 32) - (ringQueue [] []).head).toNat ∧
      ((1 : BitVec 32) - (ringQueue [] []).head).toNat ≤ (ringQueue [] []).slots ∧
      ((1 : BitVec 32) - (ringQueue [] []).head).toNat ≤ 256 ∧ 0 < 1 ∧
      isOk (ringPackets (onQueue (ringQueue [] []) []) 0 (ringQueue [] []) 0 1) (fun ps => ps.all fun w => kindOf w != 1) = true) ∧
    (let e : Doorbell := { q := 2, tail := 1, seq := 7 }
     AMap.find? (onQueue (ringQueue [] []) [e]).parts 0 = some { part0 with queues := [(2, ringQueue [] [])], fifo := [e] } ∧
       e.q = 2 ∧ part0.lastDone < e.seq ∧ part0.elogCap ≠ 0 ∧ (0 < 5 ∧ 4 < 5)) := by
  decide +kernel

/-- A packet may start: the queue is open, and it stands at the head, plain and good. -/
def starts (x : Packet) (kind : Nat) : Bool :=
  isSome ((onQueue (ringQueue [x] []) []).openQueue 0 2) fun y =>
    y == ringQueue [x] [] && y.buf.head? == some x && x.form == .plain && kindOf x.words == kind && !x.bad && y.idle && y.watch == none

theorem test_meets_PacketEvents :
    (starts (packetOf [0]) 0 && starts (packetOf [7]) 7 && starts (packetOf [8, 0x100, 0x200, 5000]) 8 &&
      starts (packetOf [8, 0x100, 0x200, 0]) 8 && (packetOf [8, 0x100, 0x200, 0]).w 3 == 0 && (packetOf [8, 0x100, 0x200, 5000]).w 3 != 0 &&
      starts (packetOf [2, 0x100, 5, 0x101]) 2 && starts (packetOf [3, 0x100, 5, 1]) 3 && starts (packetOf [9, 0x100]) 9 &&
      starts (packetOf [4, 0x100, 1]) 4 && starts (packetOf [6, 0x4000, 2]) 6) = true ∧
    (∀ x : Packet, (ringQueue [x] []).onward) ∧
    (isOk (reach regs 0 none .load 0x100 8) (fun ps => ps.all (·.cls != 1) && leWord (ps.map fun a => regs.byte a.pa) == 0) &&
      isOk (reach regs 0 none .store 0x100 8) (fun ps => ps.all (·.cls != 1) && decide (ps.map Phys.pa).Nodup)) = true ∧
    (match reach denied 0 none .store 0x100 8 with | .error .refused => true | _ => false) = true ∧
    (10 ≤ kindOf (packetOf [10]).words ∧ (packetOf [10]).form = .plain) ∧
    ((packetOf [4, 0x100, 1]).w 2 = 1 ∧ (packetOf [0]).form = .plain ∧ (packetOf [0]).level = (packetOf [4, 0x100, 1]).level) ∧
    (let z : Started := { pkt := packetOf [0], done := true, todo := 0 }
     let y := ringQueue [packetOf [5, 1, 3]] [z]
     (onQueue y []).openQueue 0 2 = some y ∧ y.started = [] ++ [z] ∧ [z].length = ((packetOf [5, 1, 3]).w 1).toNat ∧
       ((packetOf [5, 1, 3]).w 2).toNat = 2 + 1 ∧ y.skip = 0 ∧ kindOf (packetOf [5, 1, 3]).words = 5 ∧ (packetOf [5, 1, 3]).bad = false ∧
       z.pkt.level = (packetOf [5, 1, 3]).level ∧ z.pkt.rep = false ∧ kindOf z.pkt.words ≠ 5 ∧ kindOf z.pkt.words ≠ 1) ∧
    (let x : Packet := { packet1 0 with words := [], level := 1, form := .rest 0x4000 2 }
     let y := ringQueue [x] []
     (onQueue y []).openQueue 0 2 = some y ∧ y.buf = x :: [] ∧ x.form = .rest 0x4000 (1 + 1) ∧ y.skip = 0 ∧
       isOk (reach regs 0 none .load 0x4000 128) (fun ps => ps.all (·.cls != 1) &&
         kindOf (wordsOf 16 (ps.map fun a => regs.byte a.pa)) != 1) = true) :=
  ⟨by decide +kernel, fun _ => ⟨rfl, fun _ h => nomatch h⟩, by decide +kernel, by decide +kernel, by decide +kernel, by decide +kernel,
    by decide +kernel, by decide +kernel⟩

/-- A WAIT-VALUE that has met its condition; a launch packet, and one with a header that is no header. -/
theorem test_meets_PacketEvents_more :
    (let x := packetOf [2, 0x100, 5, 0x101]
     let w : Watch := { pa := 0x100, size := 8, cond := .ne, x := 5 }
     let y : Queue := { ringQueue [x] [] with watch := some (w, true) }
     (onQueue y []).queue? 0 2 = some y ∧ y.buf.head? = some x ∧ y.watch = some (w, true) ∧ y.skip = 0 ∧ kindOf x.words = 2) ∧
    starts (packetOf ([1, 0, 0, 0, 0, 0, 0, 0] ++ header1)) 1 = true ∧ (regs.die 0).trEn = false ∧ headerBad header1 = false ∧
    isOk (reach regs 0 none .load (header1.getD 1 0 &&& 0x00FFFFFFFFFFFFFF) (8 * fieldOf header1 0 56 8)) (fun ps =>
      ps.all (·.cls != 1)) = true ∧
    starts (packetOf [1]) 1 = true ∧ headerBad ((packetOf [1]).words.drop 8) = true :=
  ⟨by decide +kernel, by decide +kernel, rfl, by decide +kernel, by decide +kernel, by decide +kernel, by decide +kernel⟩

/-! Launches. -/

/-- The launch whose next group fits; one whose first group's hart waits; one whose group is evicted. -/
def hart12 : Hart := { hart1 with lid := 12, ntiles := 0, tiles := [], xcap := 0 }
def waitsLong : State :=
  { launched (fun l => { l with placed := 1 }) with
    now := 200000, cur := { hart12 with wait := some .cwait, since := 0 },
    cores := (List.range 128).map fun c => (c, { regs.core 0 with lat := (regs.core 0).lat.map fun e => { e with held := true } }) }
def evictedState : State :=
  { launched (fun l => { l with placed := 1, evicted := [0] }) with
    cur := { hart12 with status := .saved, offer := 64 }, frames := [(2, 0x6000)] }
def ended (done : Word) : Launch := { launch1 with placed := 2, hdr := [0x2000, 0x0800000000000000, 0, done, 1, 0, 0, 0x000A080000000080] }
def digested : State := { launched (fun _ => ended 0) with digs := [(12, ([(0x100, 3)], 0x200))] }
def noLanes : State :=
  { launched id with cores := [(7, { regs.core 7 with lat := (regs.core 7).lat.map fun e => { e with held := true } })] }

theorem test_meets_LaunchEvents :
    (AMap.find? (launched id).launches 12 = some launch1 ∧ launch1.lid = 12 ∧ launch1.recMode = 0 ∧
      (launched id).nextWaits launch1 7 = true ∧ (launched id).outranked launch1 7 = false ∧
      [0x6000].length = hdrHpg launch1.hdr + 1 ∧
      hdrHpg launch1.hdr + 1 ≤ (launched id).unreserved 7 ∧ launch1.nospec = true ∧ launch1.eval = none ∧ launch1.entry = none ∧
      ∀ x ∈ (launched id).harts, x.hid < (launched id).nextHid) ∧
    (noLanes.nextWaits launch1 7 = true ∧ noLanes.outranked launch1 7 = false ∧
      noLanes.unreserved 7 < hdrHpg launch1.hdr + 1 ∧ launch1.chosen ≠ some 7) ∧
    ({ launch1 with eval := some 0 } : Launch).eval = some 0 ∧
    (12 ≠ 0 ∧ [(0x100, 3), (0x200, 2 ^ 40)].length ≤ 16 ∧ (∀ r ∈ [(0x100, 3), (0x200, 2 ^ 40)], 1 ≤ r.2 ∧ r.2 ≤ 2 ^ 40)) ∧
    (let l : Launch := { launch1 with placed := 1 }
     AMap.find? waitsLong.launches 12 = some l ∧ waitsLong.firstWaiting 12 (waitsLong.residentGroups l) = some 0 ∧
       l.placed < l.ngroups ∧ waitsLong.nextPlaceable l = false ∧ (waitsLong.harts.map Hart.hid).Nodup ∧
       (∀ k ∈ waitsLong.residentGroups l, ∀ x ∈ waitsLong.groupHarts 12 k, 50000 ≤ x.waited waitsLong.now) ∧
       (∀ x ∈ waitsLong.groupHarts 12 0, x.isSaved = true ∨
         (x.status = .running ∧ x.sq = [] ∧ x.midPair = false ∧ x.hstep = 0 ∧ waitsLong.frameOk x = true))) ∧
    (let l : Launch := { launch1 with placed := 1, evicted := [0] }
     0 ∈ l.evicted ∧ evictedState.groupSaved 12 0 = true ∧ (evictedState.harts.map Hart.hid).Nodup ∧
       evictedState.groupHarts 12 0 ≠ [] ∧
       (∀ x ∈ evictedState.groupHarts 12 0, x.owed = none ∧ x.redo = none ∧ evictedState.frameFits x false = true) ∧
       evictedState.mayTake l 0 0 = true ∧ evictedState.outranked l 0 = false) :=
  ⟨by decide +kernel, by decide +kernel, rfl, by decide +kernel, by decide +kernel, by decide +kernel⟩

theorem test_meets_LaunchEvents_end :
    (let s := launched fun _ => ended 0
     AMap.find? s.launches 12 = some (ended 0) ∧ (ended 0).ngroups ≤ (ended 0).placed ∧ (∀ x ∈ s.harts, x.lid ≠ 12) ∧
       (s.die 0).trEn = false ∧ AMap.find? s.digs 12 = none ∧ hdrDone (ended 0).hdr = 0) ∧
    (let s := launched fun _ => ended 0x100
     hdrDone (ended 0x100).hdr ≠ 0 ∧ isOk (reach s 0 none .atomic (BitVec.ofNat 64 (hdrDone (ended 0x100).hdr / 8 * 8)) 8) (fun ps =>
       ps.all (·.cls != 1) && decide (ps.map Phys.pa).Nodup) = true) ∧
    (AMap.find? digested.digs 12 = some ([(0x100, 3)], 0x200) ∧
      isOk (reach digested 0 none .store (BitVec.ofNat 64 0x200) 32) (fun ps =>
        ps.all (·.cls != 1) && decide (ps.map Phys.pa).Nodup) = true ∧
      isOk (digestBytes digested (ended 0) [(0x100, 3)]) (fun _ => true) = true) :=
  ⟨by decide +kernel, by decide +kernel, by decide +kernel⟩

/-! Gossip and peers. -/

def freeRegion : Region := region4 false
def message (seq : Nat) (w : Word) : GMsg := { region := 4, page := 0, seq := seq, round := none, words := List.replicate 512 w }
def sent1 (back : Bool) (w : Word) : Sent :=
  { port := 1, seq := 1, region := 4, page := 0, round := none, words := List.replicate 512 w, back := back, sentAt := 0, gap := 10000 }
def gossiping (x : Sent) : State :=
  { gossip false false with
    now := 20000, mem := tables ++ [(0x18000, 1)], sent := [x],
    ports := [(1, Port.init), (2, { Port.init with accepted := [(4, 5)] })] }

theorem zeros_at (n k : Nat) : (List.replicate n (0 : Word)).getD k 0 = 0 := by
  induction n generalizing k with
  | zero => rfl
  | succ n ih => cases k with
    | zero => rfl
    | succ k => exact ih k

/-- A message of zeros fits; one of the largest value does not, where word 0 is 1. -/
theorem fits_zero (s : State) (a k : Nat) :
    -(2 ^ 63) ≤ (s.dword (a + 8 * k)).toInt + ((List.replicate 512 (0 : Word)).getD k 0).toInt ∧
    (s.dword (a + 8 * k)).toInt + ((List.replicate 512 (0 : Word)).getD k 0).toInt < 2 ^ 63 := by
  rw [zeros_at]
  have lo := BitVec.le_toInt (s.dword (a + 8 * k))
  have hi := BitVec.toInt_lt (x := s.dword (a + 8 * k))
  have z : (0 : Word).toInt = 0 := rfl
  omega

theorem test_meets_GossipEvents :
    (AMap.find? (gossiping (sent1 false 0)).regions 4 = some freeRegion ∧ (∀ y ∈ (gossiping (sent1 false 0)).launches, y.2.recMode = 0) ∧
      (gossiping (sent1 false 0)).fenced = false ∧ (gossiping (sent1 false 0)).bad = [] ∧
      (∀ k, k < 512 → isHostMem (freeRegion.wordPa 0 0 + 8 * k) = false)) ∧
    (freeRegion.mode = false ∧ freeRegion.closing = false ∧ freeRegion.left ≠ 0 ∧ 0 < freeRegion.npg ∧
      freeRegion.place (freeRegion.die 0) = (0, 0) ∧ 1 = (freeRegion.slots.getD 0 (0, 0)).1 ∧
      isSome (AMap.find? (gossiping (sent1 false 0)).ports 1) (fun x => !x.lost) = true) ∧
    (isSome (AMap.find? (gossiping (sent1 false 0)).ports 2) (fun x => x.cabled && x.up && x.duplicate (message 5 0) &&
        !x.duplicate (message 6 0)) = true ∧ (gossiping (sent1 false 0)).part = .tl460 ∧ (message 6 0).words.length = 512 ∧
      AMap.find? (gossiping (sent1 false 0)).regions 5 = none ∧ freeRegion.names 2 = true) ∧
    (¬((gossiping (sent1 false 0)).dword (freeRegion.wordPa 0 0 + 8 * 0)).toInt + ((message 6 0x7FFFFFFFFFFFFFFF).words.getD 0 0).toInt < 2 ^ 63) ∧
    ((gossiping (sent1 false 0)).flying 4 1 1 = some (sent1 false 0) ∧ (sent1 false 0).sentAt + (sent1 false 0).gap ≤ 20000 ∧
      (gossiping (sent1 false 0)).portLost 1 = false ∧ (sent1 false 0).gap < 20000 ∧ 20000 ≤ 1000000 ∧
      { sent1 false 0 with gap := 1000000 }.gap = 1000000) ∧
    ((gossiping (sent1 false 0x7FFFFFFFFFFFFFFF)).flying 4 1 1 = some (sent1 false 0x7FFFFFFFFFFFFFFF)) ∧
    (((gossiping (sent1 true 0)).sent.find? fun y => y.is 1 1 4 && y.back) = some (sent1 true 0) ∧ (sent1 true 0).sentAt / 1000 < 20000 / 1000 ∧
      (sent1 true 0).page = 0) ∧
    ((gossiping (sent1 false 0)).sent = [sent1 false 0] ∧ (sent1 false 0).port = 1 ∧ (sent1 false 0).region = 4 ∧
      (sent1 false 0).back = false ∧ (sent1 false 0).seq ≤ 1 ∧ 1 < portCount (gossiping (sent1 false 0)).part ∧
      ∀ k ∈ [5, 0x3FFF], k < 2 ^ 14) := by
  refine ⟨⟨rfl, (fun _ h => nomatch h), rfl, rfl, fun k hk => ?_⟩, by decide +kernel, by decide +kernel, by decide +kernel,
    by decide +kernel, by decide +kernel, by decide +kernel, by decide +kernel⟩
  show decide (0x100000000000 ≤ 0x18000 + 8 * 0 + 8 * k) = false
  exact decide_eq_false (by omega)

/-- Partition 1 of package 1 is bound, partition 2 is not. -/
def peered : State := { regs with ports := [(1, Port.init)], seen := [(16 * (5 / 4) + 2, [3])] }
theorem test_meets_PeerRequests :
    (isSome (AMap.find? peered.ports 1) (fun x => x.cabled && x.up && !x.lost) = true ∧ 1 < portCount peered.part ∧ 2 < 16 ∧
      (AMap.find? peered.seen (16 * (5 / 4) + 2)).getD [] = [3] ∧ 4 ∉ [3] ∧
      peered.fenced = false ∧ peered.boundPart 5 = none ∧ peered.boundPart 6 = some 0) ∧
    (isOk (peerReach peered 0 .store 0x100 3) (fun ps => decide (ps.map Phys.pa).Nodup) = true ∧
      isOk (peerReach peered 0 .load 0x100 3) (fun _ => true) = true ∧
      (match peerReach { peered with mem := denied.mem } 0 .store 0x100 3 with | .error .refused => true | _ => false) = true) ∧
    (0x100 % 8 = 0 ∧ peered.bad = [] ∧ peered.hostUp = true ∧ 12 ≤ 12 ∧ 7 < 8 ∧
      isOk (peerReach peered 0 .atomic 0x100 8) (fun ps => decide (ps.map Phys.pa).Nodup) = true) ∧
    isOk (peerReach peered 0 .wait 0x100 4) (fun ps => condHolds (condOf 7) 4 (leWord (ps.map fun q => peered.byte q.pa)) 5 &&
      !condHolds (condOf 0) 4 (leWord (ps.map fun q => peered.byte q.pa)) 5) = true := by decide +kernel

/-! Words written out from the spec's encodings, one or more for every family (R62 to R85). -/

theorem test_word_arg : decode true true 0x080A040000000001 = .instr false (.arg 1 1) := rfl
theorem test_word_bnz : decode true true 0x061C1000FFFFFFF8 = .instr false (.bnz 4 (-8)) := rfl
theorem test_word_trap : decode true true 0x080C000000000005 = .instr false (.trap 5) := rfl
theorem test_word_sfq_pop : decode true true 0x081018000000000B = .instr false (.sfqPop 6 3) := rfl
theorem test_word_lnch : decode true true 0x081224A000000003 = .instr false (.lnch 9 10 3) := rfl
theorem test_word_vgr : decode true true 0x0A00144000000000 = .instr false (.vgr 5 4) := rfl
theorem test_word_vtype : decode true true 0x0A0400000000011A = .instr false (.vtype 0 .e4m3 1 1) := rfl
theorem test_word_vfma : decode true true 0x0C03080044DBE000 = .instr false (.vfma .f32 2 0 1 4 (some 5) (some 3)) := rfl
theorem test_word_vq : decode true true 0x0C8104000000E000 = .instr false (.vq 1 0 none none) := rfl
theorem test_word_vcadd : decode true true 0x0D030021C000E000 = .instr false (.vcadd .f32 0 2 7 none) := rfl
theorem test_word_vsparse : decode true true 0x0D0510300100E003 = .instr false (.vsparse .f32 4 3 1 3) := rfl
theorem test_word_mpop : decode true true 0x0D44102000000000 = .instr false (.mpop 4 2 none) := rfl
theorem test_word_vst : decode true true 0x1043083000038000 = .instr false (.vst .f32 2 3 0 0 .normal 0 none) := rfl
theorem test_word_vld_t : decode true true 0x10470861C0000005 = .instr false (.vldT 2 6 7 .normal 5 none) := rfl
theorem test_word_wait : decode true true 0x120D143032004000 = .instr false (.wait 5 3 0 .d .core 0 .ne) := rfl
theorem test_word_ph_timestamp : decode true true 0x1240105000000001 = .instr false (.phTimestamp 4 5) := rfl
theorem test_word_opa : decode true true 0x1400001107007000 = .instr false (.opa .t2 0 1 4 7 false) := rfl
theorem test_word_opa_c16 : decode true true 0x1400040085000001 = .instr false (.opa .i8 1 0 2 5 true) := rfl
theorem test_word_tfold : decode true true 0x1401002147000000 = .instr false (.tfold 0 2 5 7 0 0) := rfl
theorem test_word_tclr : decode true true 0x1402000000000007 = .instr false (.tclr 0 0 7) := rfl
theorem test_word_tld : decode true true 0x140300414600E000 = .instr false (.tld .f32 0 4 5 6 0) := rfl
theorem test_word_tadd : decode true true 0x140604008600E000 = .instr false (.tadd .f32 1 2 6 0 none) := rfl
theorem test_word_cpgo : decode true true 0x16011C0000000000 = .instr false (.cpgo 7 0) := rfl
theorem test_word_cwait : decode true true 0x16023C9000000000 = .instr false (.cwait 15 9 0) := rfl
theorem test_word_cpst : decode true true 0x1603105000000002 = .instr false (.cpst 4 5 2) := rfl
theorem test_word_rinit : decode true true 0x16071400C4000000 = .instr false (.rinit 5 0 3 4 0) := rfl
theorem test_word_rget : decode true true 0x1608280000000000 = .instr false (.rget 10 0) := rfl
theorem test_word_gadd : decode true true 0x1C00184140003000 = .instr false (.gadd 6 4 5) := rfl
theorem test_word_vgadd : decode true true 0x1C011C408300E000 = .instr false (.vgadd .f32 7 4 2 3 none) := rfl
theorem test_word_sleep : decode true true 0x1E01006000000000 = .instr false (.sleep 6) := rfl
theorem test_word_bar_ph : decode true true 0x1E00100000000005 = .instr false (.barPh 4 1) := rfl
theorem test_word_kst : decode true true 0x1A020C2146000000 = .instr false (.kst 3 2 5 6 0) := rfl
theorem test_word_gctl_define : decode true true 0x1C08105000000002 = .instr false (.gctlDefine 4 5 2) := rfl
theorem test_word_gctl_status : decode true true 0x1C08100000000022 = .instr false (.gctlStatus 4 0 2) := rfl
theorem test_word_gquiet : decode true true 0x1C07000000000002 = .instr false (.gquiet 2) := rfl
theorem test_word_exit : decode true true 0x0806000000000000 = .instr false .exit := rfl

/-! Ill-formed terms are refused, one for each check of `Instr.wf` and `Instr.markable`. -/

theorem test_ill_formed :
    ([ .vtype 0 .f32 3 1, .vtype 0 .f32 1 1, .vtype 0 .i8 1 0, .vrows 0 9, .wfld 1 7, .sfq 1 5, .sfqPop 1 4,
       .vaddFloat .i8 0 1 2 none none, .vaddInt .f32 0 1 2 none none, .vcvt .i64 0 1 .f32 none none,
       .vcvt .f32 0 1 .i64 none none, .vdq .i8 0 1 none none, .vbc .i64 0 1 none, .vxs .i64 1 0 1, .vins .i64 0 1 1,
       .vid .f32 0 1 none, .vslu 2 2 1 none, .vsld 2 2 1 none, .vrow 2 2 1 none, .vperm 2 2 1 none, .vperm 2 1 2 none ] :
      List Instr).all (fun i => !i.wf) = true := rfl

theorem test_ill_formed_more :
    ([ .vredAdd .i64 1 (.strip 0) none, .vredMax .f16 1 (.anch 0) none, .vcadd .bf16 0 1 2 none, .vsparse .f32 1 2 0 0,
       .vsparse .e8m0 1 2 0 3, .vsparseP .f32 1 1 0 3, .vexpand 1 1 0, .vld .e8m0 0 1 0 0 .normal 0 none,
       .vlds .t2 0 1 2 0 .normal 0 none, .vstx .i4 0 1 2 0 .normal 0 none, .vldx .f32 2 1 2 0 .normal 0 none,
       .vsadd .f16 0 1 2 0 .core 0 none, .fx .g .h, .fx .a .a, .opa .f32 0 0 0 0 false, .tld .f16 0 0 0 0 0,
       .tmv .i8 0 0 0 0 none, .tget 0 0 3, .tget 0 0 14, .tget 0 0 22 ] : List Instr).all (fun i => !i.wf) = true := rfl

theorem test_ill_formed_units :
    ([ .xins .f16 0 0 2 0 none, .xins .i32 0 1 2 0 none, .xacc .i64 0 0 3 0 none, .xlook .f32 0 1 0 none, .xdel 0 1 0 none,
       .xdrain .i32 0 0 1, .xdrain .i32 0 0 0, .kxstClr 0 0 2, .vgadd .f16 0 0 0 0 none, .vgadd .i64 0 0 0 1 none,
       .gld 1 0 0 none ] : List Instr).all (fun i => !i.wf) = true := rfl

/-- The pairing rules (R77): two memory ops, one destination twice, the other's source, its second source, one parity of
two vector slots, bank 1 twice, a mark on a slot that takes none. -/
theorem test_ill_formed_pairs :
    ([ .pairWord false (.ld 1 2 0) false (.st 3 4 0), .pairWord false (.addi 1 2 0) false (.addi 1 3 0),
       .pairWord false (.addi 1 2 0) false (.addi 3 1 0), .pairWord false (.addi 1 2 0) false (.alu .add 1 3),
       .pairWord false (.addi 1 2 0) false (.st 3 1 0), .pairWord false (.vec .mv 2 1) false (.vec .mv 4 3),
       .pairWord false (.addi 1 33 0) false (.addi 2 34 0), .pairWord true (.ld 1 2 0) false .nop,
       .pairWord false .nop true (.vec .mv 2 1) ] : List Instr).all (fun i => !i.wf) = true := rfl

theorem test_unmarkable :
    ([ .exit, .ldD 1 2 0 0 .normal 0, .crd 1 0x123, .vaddFloat .f32 0 1 2 none none, .sys 1 ] :
      List Instr).all (fun i => !i.markable) = true := rfl

/-! Worked examples of the spec. -/

/-- A test of the next state. -/
def isNext (o : Host.Outcome State Fault Refusal) (p : State → Bool) : Bool :=
  match o with
  | .next t => p t
  | .fault _ => false
  | .refused _ => false

/-- The hart with two values in g1 and g2 and a rounding mode. -/
def pairOf (x y : Word) (rm : BitVec 3) : State :=
  { one with cur := (({ one.cur with ctx := { one.cur.ctx with rm := rm } } : Hart).wr 1 x).wr 2 y }

/-- R154's first row: the sum lies halfway; the even significand stays. -/
theorem test_fadd_nearest :
    isNext (exec (.fadd 3 1 2 .f32) (pairOf 0xFFFFFFFF3F800000 0x33800000 0)) (fun t =>
      t.cur.rd 3 == 0x3F800000 && t.cur.ctx.fflags == 1) = true := by decide +kernel
theorem test_fadd_up :
    isNext (exec (.fadd 3 1 2 .f32) (pairOf 0xFFFFFFFF3F800000 0x33800000 3)) (fun t =>
      t.cur.rd 3 == 0x3F800001 && t.cur.ctx.fflags == 1) = true := by decide +kernel
theorem test_fcvt_to_i32 :
    isNext (exec (.fcvt 4 1 .f64 .i32 true) (pairOf 0xC06F400000000000 0 0)) (fun t =>
      t.cur.rd 4 == 0xFFFFFFFFFFFFFF06 && t.cur.ctx.fflags == 0) = true := by decide +kernel
theorem test_fsqrt_of_negative :
    isNext (exec (.fsqrt 5 1 .f16) (pairOf 0xBC00 0 0)) (fun t =>
      t.cur.rd 5 == 0x7E00 && t.cur.ctx.fflags == 16) = true := by decide +kernel

/-- R151's examples. -/
theorem test_div_and_rem :
    isNext (exec (.div 3 1 2) (pairOf 0xFFFFFFFFFFFFFFF9 2 0)) (fun t => t.cur.rd 3 == 0xFFFFFFFFFFFFFFFD) = true ∧
    isNext (exec (.rem 3 1 2) (pairOf 0xFFFFFFFFFFFFFFF9 2 0)) (fun t => t.cur.rd 3 == 0xFFFFFFFFFFFFFFFF) = true := by
  decide +kernel
theorem test_mulh_and_mulhn :
    isNext (exec (.mulh 3 1 1) (pairOf 0x8000000000000000 0 0)) (fun t => t.cur.rd 3 == 0x4000000000000000) = true ∧
    isNext (exec (.mulhn 3 1 2) (pairOf 0xFFFFFFFFFFFFFFFF 2 0)) (fun t => t.cur.rd 3 == 1) = true := by decide +kernel

/-- Slots of a row. -/
def rowOf (h : Hart) (reg : Nat) (xs : List (Nat × Slot)) : Hart := xs.foldl (fun h x => h.setV reg 0 x.1 x.2) h

/-- The hart of R204's example: its slots, then its masks. -/
def fmaSlots : Hart :=
  rowOf (rowOf (rowOf (rowOf { hart1 with ctx := { hart1.ctx with vl := 4, nr := 1 } }
    0 [(0, 0x40000000), (1, 0x7F7FFFFF), (2, 0x3F800000), (3, 0x7F800000)])
    1 [(0, 0x40400000), (1, 0x40000000), (2, 0x3F800000)])
    4 [(0, 0x3F800000), (2, 0x3F800000), (3, 0x7FC00000)])
    2 [(2, 0xBF800000)]
def fmaState : State := { one with cur := (((fmaSlots.setM 3 0 0 1).setM 3 0 1 1).setM 3 0 3 1).setM 5 0 0 1 }
theorem test_vfma :
    isNext (exec (.vfma .f32 2 0 1 4 (some 5) (some 3)) fmaState) (fun t =>
      (List.range 4).map (t.cur.slotV 2 0) == [0x40E00000, 0x7F800000, 0xBF800000, 0x7FC00000] &&
      (List.range 4).map (t.cur.bitM 5 0) == [0, 1, 0, 1] && t.cur.ctx.fflags == 0x15) = true := by decide +kernel

/-- The hart of R53's example. -/
def sparseHart : Hart :=
  rowOf { hart1 with ctx := { hart1.ctx with vl := 8, nr := 1 } } 3
    [(1, 0xC0000000), (2, 0x7FC00000), (3, 0x40000000), (4, 0x80000000), (5, 0x3FC00000), (6, 0xFFC00001), (7, 0xBFC00000)]
def sparseState : State := { one with cur := sparseHart }
theorem test_vsparse :
    isNext (exec (.vsparse .f32 4 3 1 3) sparseState) (fun t =>
      (List.range 8).map (t.cur.slotV 4 0) == [0, 0xC0000000, 0x7FC00000, 0, 0, 0, 0xFFC00001, 0] &&
      (List.range 8).map (t.cur.bitM 1 0) == [0, 1, 1, 0, 0, 0, 1, 0]) = true := by decide +kernel
theorem test_vsparse_packed :
    isNext (exec (.vsparseP .f32 4 3 1 3) sparseState) (fun t =>
      (List.range 8).map (t.cur.slotV 4 0) == [0xC0000000, 0x7FC00000, 0xFFC00001, 0, 0, 0, 0, 0] &&
      (List.range 8).map (t.cur.bitM 1 0) == [0, 1, 1, 0, 0, 0, 1, 0]) = true := by decide +kernel

/-- R55's table. -/
theorem test_fold :
    foldCell 0x3F000000 96 0x7F 0x7F = (0x42C10000, 0) ∧ foldCell 0 16777217 0x7F 0x7F = (0x4B800000, 1) ∧
    foldCell 0 3 0x78 0x7F = (0x3CC00000, 0) ∧ foldCell 0x80000000 0 0x7F 0x7F = (0, 0) ∧
    foldCell 0x40000000 5 0xFF 0x7F = (0x7FC00000, 0) := by decide +kernel

end Sys2Proof.Tests
end

section
/-!
SUPPORT. The words that the scalar integer instructions compute, in terms of the operations on bit vectors (R150, R151).
-/

namespace Sys2Proof.Machine

/-- A shift count is the low six bits of its register (R150). -/
theorem shiftCount_eq (y : Word) : y.toNat % 64 = (y.extractLsb' 0 6).toNat := by
  rw [BitVec.extractLsb'_toNat, Nat.shiftRight_zero]

/-- The high half of a product is that of the product taken in 128 bits. -/
theorem mulHigh_eq (x y : Int) : mulHigh x y = (BitVec.ofInt 128 x * BitVec.ofInt 128 y).extractLsb' 64 64 := by
  rw [← BitVec.ofInt_mul]
  apply BitVec.eq_of_toNat_eq
  simp only [mulHigh, BitVec.toNat_ofInt, BitVec.extractLsb'_toNat, Nat.shiftRight_eq_div_pow]
  omega

theorem mulHigh_toInt (x y : Word) :
    mulHigh x.toInt y.toInt = (x.signExtend 128 * y.signExtend 128).extractLsb' 64 64 := mulHigh_eq ..

theorem mulHigh_toNat (x y : Word) :
    mulHigh x.toNat y.toNat = (x.setWidth 128 * y.setWidth 128).extractLsb' 64 64 := by
  rw [mulHigh_eq, BitVec.ofInt_natCast, BitVec.ofInt_natCast, BitVec.ofNat_toNat, BitVec.ofNat_toNat]

theorem divSigned_eq (x y : Word) : divSigned x y = if y = 0 then BitVec.allOnes 64 else x.sdiv y := by
  have quotient : BitVec.ofInt 64 (x.toInt.tdiv y.toInt) = x.sdiv y := by
    apply BitVec.eq_of_toInt_eq
    rw [BitVec.toInt_ofInt, BitVec.toInt_sdiv]
  rw [divSigned, quotient]

theorem remSigned_eq (x y : Word) : remSigned x y = if y = 0 then x else x.srem y := by
  rw [remSigned, ← BitVec.toInt_srem, BitVec.ofInt_toInt]

theorem divUnsigned_eq (x y : Word) : divUnsigned x y = if y = 0 then BitVec.allOnes 64 else x / y := by
  rw [divUnsigned, ← BitVec.toNat_udiv, BitVec.ofNat_toNat, BitVec.setWidth_eq]

theorem remUnsigned_eq (x y : Word) : remUnsigned x y = if y = 0 then x else x % y := by
  rw [remUnsigned, ← BitVec.toNat_umod, BitVec.ofNat_toNat, BitVec.setWidth_eq]

theorem boolWord_slt (x y : Word) : boolWord (x.slt y) = if x.toInt < y.toInt then 1 else 0 := by
  simp only [boolWord, BitVec.slt_iff_toInt_lt]

theorem boolWord_ult (x y : Word) : boolWord (x.ult y) = if x.toNat < y.toNat then 1 else 0 := by
  simp only [boolWord, BitVec.ult_iff_toNat_lt]

/-- Choosing y where it is the smaller, else x, is choosing x where it is no larger (signed). -/
theorem ite_slt_eq {α : Type} (x y : Word) (u v : α) :
    (if y.slt x then v else u) = if x.toInt ≤ y.toInt then u else v := by
  simp only [BitVec.slt_iff_toInt_lt, ← Int.not_le, ite_not]

/-- Choosing y where it is the smaller, else x, is choosing x where it is no larger (unsigned). -/
theorem ite_ult_eq {α : Type} (x y : Word) (u v : α) :
    (if y.ult x then v else u) = if x.toNat ≤ y.toNat then u else v := by
  simp only [BitVec.ult_iff_toNat_lt, ← Nat.not_le, ite_not]

/-- The highest 1 bit stands below the leading zeros. -/
theorem clzWord_eq (x : Word) : clzWord x = x.clz := by
  by_cases hx : x = 0
  · rw [clzWord, if_pos hx, BitVec.clz_eq_iff_eq_zero.mpr hx]
    rfl
  · have below : x.clz.toNat < 64 := BitVec.lt_def.mp (BitVec.clz_lt_iff_ne_zero.mpr hx)
    have low := BitVec.two_pow_sub_clz_le_toNat_of_ne_zero (by decide) hx
    have high := BitVec.toNat_lt_two_pow_sub_clz (x := x)
    have top : x.toNat.log2 = 63 - x.clz.toNat := by
      rw [Nat.log2_eq_iff (fun h => hx (BitVec.eq_of_toNat_eq h))]
      exact ⟨low, by rwa [show 63 - x.clz.toNat + 1 = 64 - x.clz.toNat by omega]⟩
    apply BitVec.eq_of_toNat_eq
    rw [clzWord, if_neg hx, BitVec.toNat_ofNat, top]
    omega

/-- A word and its negation have only the lowest 1 bit in common. -/
theorem and_neg_eq_twoPow {x : Word} (hx : x ≠ 0) : x &&& -x = BitVec.twoPow 64 x.ctz.toNat := by
  have below : x.ctz.toNat < 64 := BitVec.lt_def.mp (BitVec.ctz_lt_iff_ne_zero.mpr hx)
  have lowest : x.getLsbD x.ctz.toNat = true := BitVec.getLsbD_true_ctz_of_ne_zero hx
  apply BitVec.eq_of_getLsbD_eq
  intro i hi
  rw [BitVec.getLsbD_and, BitVec.getLsbD_neg, BitVec.getLsbD_twoPow]
  rcases Nat.lt_trichotomy i x.ctz.toNat with h | h | h
  · simp only [BitVec.getLsbD_false_of_lt_ctz h, Bool.false_and, Nat.ne_of_gt h, decide_false, Bool.and_false]
  · subst h
    have noneBelow : ¬∃ j < x.ctz.toNat, x.getLsbD j = true := by
      rintro ⟨j, hj, hb⟩
      rw [BitVec.getLsbD_false_of_lt_ctz hj] at hb
      cases hb
    simp only [lowest, below, noneBelow, decide_true, decide_false, Bool.and_false, Bool.xor_false, Bool.and_self]
  · have oneBelow : ∃ j < i, x.getLsbD j = true := ⟨_, h, lowest⟩
    simp only [hi, oneBelow, Nat.ne_of_lt h, decide_true, decide_false, Bool.and_self, Bool.and_false, Bool.xor_true,
      Bool.and_not_self]

theorem ctzWord_eq (x : Word) : ctzWord x = x.ctz := by
  by_cases hx : x = 0
  · rw [ctzWord, if_pos hx, BitVec.ctz_eq_reverse_clz, BitVec.clz_eq_iff_eq_zero.mpr (BitVec.reverse_eq_zero_iff.mpr hx)]
    rfl
  · have below : x.ctz.toNat < 64 := BitVec.lt_def.mp (BitVec.ctz_lt_iff_ne_zero.mpr hx)
    have common : x &&& (0 - x) = BitVec.twoPow 64 x.ctz.toNat := and_neg_eq_twoPow hx
    rw [ctzWord, if_neg hx, common, BitVec.toNat_twoPow_of_lt below, Nat.log2_two_pow,
      BitVec.ofNat_toNat, BitVec.setWidth_eq]

/-- Counting the 1 bits from the top. -/
theorem popNat_succ (k x : Nat) : popNat (k + 1) x = popNat k x + (x.testBit k).toNat := by
  induction k generalizing x with
  | zero => simp only [Nat.toNat_testBit, popNat, Nat.pow_zero, Nat.div_one, Nat.zero_add, Nat.add_zero]
  | succ k ih => rw [popNat, ih, popNat, Nat.testBit_succ, Nat.add_assoc]

theorem popNat_eq_cpopNatRec (x : Word) (k : Nat) : popNat k x.toNat = x.cpopNatRec k 0 := by
  induction k with
  | zero => rfl
  | succ k ih =>
    rw [popNat_succ, ih, BitVec.cpopNatRec_succ, BitVec.cpopNatRec_eq (0 + _), BitVec.testBit_toNat, Nat.zero_add]

theorem popcWord_eq (x : Word) : popcWord x = x.cpop := by rw [popcWord, popNat_eq_cpopNatRec, BitVec.cpop]

theorem zextLow_eq (n : Nat) (x : Word) : zextLow n x = (x.extractLsb' 0 n).setWidth 64 := by
  apply BitVec.eq_of_toNat_eq
  rw [zextLow, BitVec.toNat_ofNat, BitVec.toNat_setWidth, BitVec.extractLsb'_toNat, Nat.shiftRight_zero]

theorem sextLow_eq (n : Nat) (x : Word) : sextLow n x = (x.extractLsb' 0 n).signExtend 64 := by
  have low : (x.extractLsb' 0 n).toNat = x.toNat % 2 ^ n := by
    rw [BitVec.extractLsb'_toNat, Nat.shiftRight_zero]
  rw [BitVec.signExtend, BitVec.toInt_eq_toNat_cond, low, sextLow]
  split
  · rw [BitVec.ofInt_natCast]
  · norm_cast

/-- The bounds of the clamp are those of 64-bit signed words (R37, R46). -/
theorem clamp64_eq (z : Int) :
    clamp64 z =
      (if z < -(2 ^ 63) then 0x8000000000000000 else if 2 ^ 63 ≤ z then 0x7FFFFFFFFFFFFFFF else BitVec.ofInt 64 z,
      if z < -(2 ^ 63) ∨ 2 ^ 63 ≤ z then flagOF ||| flagNX else 0) := by
  have lo : minS 64 = -(2 ^ 63) := by decide
  have hi : maxS 64 = 2 ^ 63 - 1 := by decide
  rw [clamp64, clampFlags, lo, hi]
  by_cases h : z < -(2 ^ 63)
  · simp only [h, if_true, true_or]
    rfl
  · by_cases h' : (2 : Int) ^ 63 ≤ z
    · have above : (2 : Int) ^ 63 - 1 < z := by omega
      simp only [h, above, h', if_true, if_false, or_true]
      rfl
    · have within : ¬(2 : Int) ^ 63 - 1 < z := by omega
      simp only [h, within, h', if_false, or_self]

end Sys2Proof.Machine
end

section
/-!
The scalar integer and immediate instructions (R150 to R152).
-/

namespace Sys2Proof.Machine

/-- Settles O8: each form writes the word that its operation on bit vectors gives, and adds and subs raise the flags of the
clamp. -/
theorem scalarInteger : Obligations.ScalarInteger := by
  refine ⟨?_, ?_, ?_, ?_⟩
  · intro s d a b c n1 hs x y sh
    have count : (s.cur.rd b).toNat % 64 = sh := shiftCount_eq y
    exact ⟨
      does_scalar (fun h => h.rd a + h.rd b) hs (exec_add ..) rfl,
      does_scalar (fun h => h.rd a - h.rd b) hs (exec_sub ..) rfl,
      does_scalar (fun h => h.rd a * h.rd b) hs (exec_mul ..) rfl,
      does_scalar (fun h => mulHigh (h.rd a).toInt (h.rd b).toInt) hs (exec_mulh ..) (mulHigh_toInt x y),
      does_scalar (fun h => mulHigh (h.rd a).toNat (h.rd b).toNat) hs (exec_mulhn ..) (mulHigh_toNat x y),
      does_scalar (fun h => h.rd a &&& h.rd b) hs (exec_and ..) rfl,
      does_scalar (fun h => h.rd a ||| h.rd b) hs (exec_or ..) rfl,
      does_scalar (fun h => h.rd a ^^^ h.rd b) hs (exec_xor ..) rfl,
      does_scalar (fun h => h.rd a <<< ((h.rd b).toNat % 64)) hs (exec_sll ..) (congrArg (x <<< ·) count),
      does_scalar (fun h => h.rd a >>> ((h.rd b).toNat % 64)) hs (exec_srl ..) (congrArg (x >>> ·) count),
      does_scalar (fun h => (h.rd a).sshiftRight ((h.rd b).toNat % 64)) hs (exec_sra ..) (congrArg x.sshiftRight count),
      does_scalar (fun h => boolWord ((h.rd a).slt (h.rd b))) hs (exec_slt ..) (boolWord_slt ..),
      does_scalar (fun h => boolWord ((h.rd a).ult (h.rd b))) hs (exec_sltn ..) (boolWord_ult ..),
      does_scalar (fun h => if (h.rd b).slt (h.rd a) then h.rd b else h.rd a) hs (exec_min ..) (ite_slt_eq x y x y),
      does_scalar (fun h => if (h.rd a).slt (h.rd b) then h.rd b else h.rd a) hs (exec_max ..) (ite_slt_eq y x x y),
      does_scalar (fun h => if (h.rd b).ult (h.rd a) then h.rd b else h.rd a) hs (exec_minn ..) (ite_ult_eq x y x y),
      does_scalar (fun h => if (h.rd a).ult (h.rd b) then h.rd b else h.rd a) hs (exec_maxn ..) (ite_ult_eq y x x y),
      does_scalar (fun h => clzWord (h.rd a)) hs (exec_clz ..) (clzWord_eq x),
      does_scalar (fun h => ctzWord (h.rd a)) hs (exec_ctz ..) (ctzWord_eq x),
      does_scalar (fun h => popcWord (h.rd a)) hs (exec_popc ..) (popcWord_eq x),
      does_scalar (fun h => sextLow (n1.toNat + 1) (h.rd a)) hs (exec_sext ..) (sextLow_eq _ x),
      does_scalar (fun h => zextLow (n1.toNat + 1) (h.rd a)) hs (exec_zext ..) (zextLow_eq _ x),
      does_scalar (fun h => if h.rd c ≠ 0 then h.rd a else h.rd b) hs (exec_cmov ..) rfl⟩
  · intro s d a b hs x y
    exact ⟨
      does_scalar (fun h => divSigned (h.rd a) (h.rd b)) hs (exec_div ..) (divSigned_eq x y),
      does_scalar (fun h => remSigned (h.rd a) (h.rd b)) hs (exec_rem ..) (remSigned_eq x y),
      does_scalar (fun h => divUnsigned (h.rd a) (h.rd b)) hs (exec_divn ..) (divUnsigned_eq x y),
      does_scalar (fun h => remUnsigned (h.rd a) (h.rd b)) hs (exec_remn ..) (remUnsigned_eq x y)⟩
  · intro s d a b hs clamp fl z u
    exact ⟨
      doesFl_scalar (fun h => clamp64 ((h.rd a).toInt + (h.rd b).toInt)) hs (exec_adds ..)
        (congrArg Prod.fst (clamp64_eq z)) (congrArg Prod.snd (clamp64_eq z)),
      doesFl_scalar (fun h => clamp64 ((h.rd a).toInt - (h.rd b).toInt)) hs (exec_subs ..)
        (congrArg Prod.fst (clamp64_eq u)) (congrArg Prod.snd (clamp64_eq u))⟩
  · intro s d a imm sh hs x k
    exact ⟨
      does_scalar (fun h => h.rd a + sext32 imm) hs (exec_addi ..) rfl,
      does_scalar (fun h => h.rd a &&& sext32 imm) hs (exec_andi ..) rfl,
      does_scalar (fun h => h.rd a ||| sext32 imm) hs (exec_ori ..) rfl,
      does_scalar (fun h => h.rd a ^^^ sext32 imm) hs (exec_xori ..) rfl,
      does_scalar (fun h => h.rd a <<< sh.toNat) hs (exec_slli ..) rfl,
      does_scalar (fun h => h.rd a >>> sh.toNat) hs (exec_srli ..) rfl,
      does_scalar (fun h => (h.rd a).sshiftRight sh.toNat) hs (exec_srai ..) rfl,
      does_scalar (fun h => boolWord ((h.rd a).slt (sext32 imm))) hs (exec_slti ..) (boolWord_slt x k),
      does_scalar (fun _ => sext32 imm) hs (exec_ldi ..) rfl,
      does_scalar (fun h => upperHalf (h.rd d) imm) hs (exec_ldih ..) rfl,
      does_scalar (fun h => h.ctx.pc + sext32 imm) hs (exec_pcadd ..) rfl⟩

end Sys2Proof.Machine
end

section
/-!
Branches, jumps and counted branches (R155 to R158).
-/

namespace Sys2Proof.Machine

theorem not_slt_eq_decide (x y : Word) : (!x.slt y) = decide (y.toInt ≤ x.toInt) := by
  rw [BitVec.slt_eq_decide, ← decide_not, decide_eq_decide, Int.not_lt]

theorem not_ult_eq_decide (x y : Word) : (!x.ult y) = decide (y.toNat ≤ x.toNat) := by
  rw [BitVec.ult_eq_decide, ← decide_not, decide_eq_decide, Nat.not_lt]

/-- Counting an instruction that wrote a register leaves all that retiring does not change. -/
theorem count_wr_bare (h : Hart) (d : GReg) (x : Word) : (h.wr d x).count.bare = h.bare := by
  unfold Hart.wr
  split <;> rfl

theorem leaveTo_leaves (h : Hart) (target : Word) :
    (h.leaveTo target).ctx.g = h.ctx.g ∧ (h.leaveTo target).bare = h.bare := ⟨rfl, rfl⟩

/-- Counting an instruction that wrote a register leaves the hart at its word. -/
theorem count_wr_stands (h : Hart) (d : GReg) (x : Word) :
    (h.wr d x).count.ctx.pc = h.ctx.pc ∧ (h.wr d x).count.ctx.iter = h.ctx.iter ∧
      (h.wr d x).count.ctx.resid = h.ctx.resid ∧ (h.wr d x).count.code = h.code :=
  ⟨wr_ctx_pc .., wr_ctx_iter .., wr_ctx_resid .., wr_code ..⟩

/-- Only the register written differs where the register file is that of the write and the rest of the hart, but for what
retiring changes, is the same. -/
theorem regFrame_of_wr {s : State} {k : Hart} {d : GReg} {x : Word} (hg : k.ctx.g = (s.cur.wr d x).ctx.g)
    (hb : k.bare = s.cur.bare) : k.rd d = (if d = 0 then 0 else x) ∧ RegFrame s { s with cur := k } d :=
  ⟨(rd_congr hg d).trans (rd_wr_same ..), fun r hr => (rd_congr hg r).trans (rd_wr_other _ _ hr), hb, rfl, fun _ => rfl⟩

/-- An instruction that writes a register and branches by an offset, or goes on to the next word (R156, R157). -/
theorem writes_and_branches (s : State) (d : GReg) (x : Word) (taken : Bool) (off : BitVec 32) :
    let t : State := { s with cur := branchIf taken off (s.cur.wr d x).count }
    t.cur.rd d = (if d = 0 then 0 else x) ∧ RegFrame s t d ∧ Moves s t (if taken then off else 1) := by
  obtain ⟨hpc, hiter, hresid, hcode⟩ := count_wr_stands s.cur d x
  cases taken with
  | false =>
    obtain ⟨-, -, hg, hb⟩ := advance_leaves (s.cur.wr d x).count
    obtain ⟨hrd, hframe⟩ := regFrame_of_wr hg (hb.trans (count_wr_bare s.cur d x))
    exact ⟨hrd, hframe, moves_advance s _ hpc hiter hresid hcode s⟩
  | true =>
    obtain ⟨-, -, hg, hb⟩ := branch_leaves (s.cur.wr d x).count off
    obtain ⟨hrd, hframe⟩ := regFrame_of_wr hg (hb.trans (count_wr_bare s.cur d x))
    exact ⟨hrd, hframe, moves_branch s _ off hpc hiter hresid hcode s⟩

/-- `jal` links PC + 8 and moves by its offset (R156). -/
theorem jal_links {s : State} (hs : s.cur.status = .running) (d : GReg) (off : BitVec 32) :
    ∃ t, exec (.jal d off) s = .next t ∧ t.cur.rd d = (if d = 0 then 0 else s.cur.ctx.pc + 8) ∧ RegFrame s t d ∧
      Moves s t off :=
  ⟨_, (exec_jal ..).trans (if_pos hs), writes_and_branches s d _ true off⟩

/-- `jalr` to a multiple of 8 links PC + 8 and continues in original code (R156). -/
theorem jalr_links {s : State} (hs : s.cur.status = .running) (d a : GReg) (imm : BitVec 32)
    (ht : (s.cur.rd a + sext32 imm).extractLsb' 0 3 = 0) :
    ∃ t, exec (.jalr d a imm) s = .next t ∧ t.cur.rd d = (if d = 0 then 0 else s.cur.ctx.pc + 8) ∧ RegFrame s t d ∧
      t.cur.ctx.pc = s.cur.rd a + sext32 imm ∧ t.cur.ctx.iter = 0 ∧ t.cur.ctx.resid = none := by
  have ran : exec (.jalr d a imm) s =
      .next { s with cur := (s.cur.wr d (s.cur.ctx.pc + 8)).count.leaveTo (s.cur.rd a + sext32 imm) } := by
    refine (exec_jalr ..).trans (runHart_ok hs ?_)
    rw [hart_bind_apply, ite_apply, if_neg (not_not_intro ht), modHart_apply]
  obtain ⟨hg, hb⟩ := leaveTo_leaves (s.cur.wr d (s.cur.ctx.pc + 8)).count (s.cur.rd a + sext32 imm)
  obtain ⟨hrd, hframe⟩ := regFrame_of_wr hg (hb.trans (count_wr_bare ..))
  exact ⟨_, ran, hrd, hframe, rfl, rfl, rfl⟩

/-- `jalr` to any other target takes the illegal-instruction trap with the target in tval (R156). -/
theorem jalr_misaligned {s : State} (hs : s.cur.status = .running) (d a : GReg) (imm : BitVec 32)
    (ht : (s.cur.rd a + sext32 imm).extractLsb' 0 3 ≠ 0) :
    exec (.jalr d a imm) s = .next (s.takeTrap 16 (s.cur.rd a + sext32 imm) s.cur.ctx.pc 0) := by
  refine (exec_jalr ..).trans ((runHart_running hs).trans (run_left ?_))
  rw [hart_bind_apply, ite_apply, if_pos ht]
  rfl

/-- `dbnz` writes ga − 1 and branches where that is not zero; with g0 it always branches (R157). -/
theorem dbnz_counts {s : State} (hs : s.cur.status = .running) (a : GReg) (off : BitVec 32) :
    ∃ t, exec (.dbnz a off) s = .next t ∧ t.cur.rd a = (if a = 0 then 0 else s.cur.rd a - 1) ∧ RegFrame s t a ∧
      Moves s t (if s.cur.rd a - 1 = 0 then 1 else off) := by
  obtain ⟨hrd, hframe, hmoves⟩ := writes_and_branches s a (s.cur.rd a - 1) (s.cur.rd a - 1 != 0) off
  have offset : (if (s.cur.rd a - 1 != 0) = true then off else 1) = if s.cur.rd a - 1 = 0 then 1 else off := by
    simp only [bne_iff_ne, ite_not]
  exact ⟨_, (exec_dbnz ..).trans (if_pos hs), hrd, hframe, offset ▸ hmoves⟩

/-- Settles O12: a branch moves by its offset where its condition holds, and the jumps write their link beside moving. -/
theorem branchesAndJumps : Obligations.BranchesAndJumps := by
  refine ⟨?_, ?_⟩
  · intro s a b off hs x y
    exact ⟨
      branches_on (fun h => h.rd a == h.rd b) hs (exec_beq ..) rfl,
      branches_on (fun h => h.rd a != h.rd b) hs (exec_bne ..) (decide_not ..).symm,
      branches_on (fun h => (h.rd a).slt (h.rd b)) hs (exec_blt ..) BitVec.slt_eq_decide,
      branches_on (fun h => !(h.rd a).slt (h.rd b)) hs (exec_bge ..) (not_slt_eq_decide x y),
      branches_on (fun h => (h.rd a).ult (h.rd b)) hs (exec_bltn ..) BitVec.ult_eq_decide,
      branches_on (fun h => !(h.rd a).ult (h.rd b)) hs (exec_bgen ..) (not_ult_eq_decide x y),
      branches_on (fun h => h.rd a == 0) hs (exec_bz ..) rfl,
      branches_on (fun h => h.rd a != 0) hs (exec_bnz ..) (decide_not ..).symm⟩
  · intro s d a off imm hs target
    exact ⟨jal_links hs d off, jalr_links hs d a imm, jalr_misaligned hs d a imm, dbnz_counts hs a off⟩

end Sys2Proof.Machine
end

section
/-!
SUPPORT. What one position of a scratchpad instruction reads and writes, where no slot fails parity and the slice is in place
(R321, R323).
-/

namespace Sys2Proof.Machine

variable {u : State}

/-- The state with another hart on the front end. -/
def State.front (u : State) (h : Hart) : State := { u with cur := h }

@[simp] theorem front_cur (u : State) (h : Hart) : (u.front h).cur = h := rfl

theorem modHart_front (f : Hart → Hart) (u : State) : modHart f u = .ok ⟨⟩ (u.front (f u.cur)) := rfl

/-- A mending of parity that has nothing to mend. -/
theorem mendSpot_clean (hu : u.spots = []) (file reg row j : Nat) : u.mendSpot file reg row j = u := by
  simp only [State.mendSpot, hu, List.isEmpty_nil, if_true]

theorem parityCheck_clean (hu : u.spots = []) (op : VOp) (file reg row j : Nat) :
    parityCheck op file reg row j u = .ok ⟨⟩ u := by
  unfold parityCheck
  rw [get_bind_apply]
  simp only [hu, List.isEmpty_nil, if_true, pure_apply]

theorem rdV_clean (hu : u.spots = []) (op : VOp) (reg : VReg) (r j : Nat) :
    rdV op reg r j u = .ok (u.cur.slotV reg.toNat r j) u := by
  unfold rdV
  rw [bind_ok (parityCheck_clean hu ..), hart_bind_apply, pure_apply]

theorem rdM_clean (hu : u.spots = []) (op : VOp) (reg : MReg) (r j : Nat) :
    rdM op reg r j u = .ok (u.cur.bitM reg.toNat r j) u := by
  unfold rdM
  rw [bind_ok (parityCheck_clean hu ..), hart_bind_apply, pure_apply]

theorem isActive_clean (hu : u.spots = []) (op : VOp) (e : Option MReg) (r j : Nat) :
    isActive op e r j u = .ok (u.cur.active e r j) u := by
  cases e with
  | none => rfl
  | some pm => exact bind_ok (rdM_clean hu ..)

theorem keyAt_clean (hu : u.spots = []) (op : VOp) (a : VReg) (r j : Nat) : keyAt op a r j u = .ok (u.keyOf a r j) u := by
  unfold keyAt
  rw [bind_ok (rdV_clean hu ..), bind_ok (rdV_clean hu ..)]
  rfl

theorem storedAt_clean (hu : u.spots = []) (f : Fmt) (op : VOp) (b : VReg) (r j : Nat) :
    storedAt f op b r j u = .ok (u.valueOf f b r j) u := by
  unfold storedAt
  rw [bind_ok (rdV_clean hu ..)]
  cases f with
  | i64 => exact (bind_ok (rdV_clean hu ..)).trans rfl
  | _ => rfl

theorem requireSlice_here (hu : u.cur.xPlace = .here) (op : VOp) : requireSlice op u = .ok ⟨⟩ u := by
  unfold requireSlice
  rw [hart_bind_apply, hu]
  rfl

theorem wrV_clean (hu : u.spots = []) (reg : VReg) (r j : Nat) (x : Slot) :
    wrV reg r j x u = .ok ⟨⟩ (u.front (u.cur.setV reg.toNat r j x)) := by
  unfold wrV
  rw [modify_apply, mendSpot_clean hu]
  rfl

theorem wrM_clean (hu : u.spots = []) (reg : MReg) (r j : Nat) (x : BitVec 1) :
    wrM reg r j x u = .ok ⟨⟩ (u.front (u.cur.setM reg.toNat r j x)) := by
  unfold wrM
  rw [modify_apply, mendSpot_clean hu]
  rfl

/-- Strip registers with slots of one position written, each named by its register; of two writes of one register the one
that stands earlier in the list remains. -/
def putSlots (v : Sparse 32) (r j : Nat) (ws : List (Nat × Slot)) : Sparse 32 :=
  ws.foldr (fun w v => Sparse.set v (stripKey w.1 r j) w.2) v

/-- The slots of a value as its format stores it (R323). -/
def valueSlots (f : Fmt) (d : VReg) (x : Word) : List (Nat × Slot) :=
  if f = .i64 then [((pairReg d).toNat, x.extractLsb' 32 32), (d.toNat, x.extractLsb' 0 32)]
  else [(d.toNat, x.extractLsb' 0 32)]

/-- The slots of a key (R323). -/
def keySlots (a : VReg) (k : Word) : List (Nat × Slot) :=
  [((pairReg a).toNat, k.extractLsb' 32 32), (a.toNat, k.extractLsb' 0 32)]

/-- A hart with slots of one position written. -/
def Hart.putSlots (h : Hart) (r j : Nat) (ws : List (Nat × Slot)) : Hart :=
  h.onCtx fun c => { c with v := Machine.putSlots c.v r j ws }

theorem putStored_clean (hu : u.spots = []) (f : Fmt) (d : VReg) (r j : Nat) (x : Word) :
    putStored f d r j x u = .ok ⟨⟩ (u.front (u.cur.putSlots r j (valueSlots f d x))) := by
  unfold putStored valueSlots
  rw [bind_ok (wrV_clean hu ..)]
  split
  · exact wrV_clean (by exact hu) ..
  · rfl

/-- A slot once slots of one position are written. -/
theorem get_putSlots (v : Sparse 32) {r j r' j' : Nat} (ws : List (Nat × Slot)) (hr : r < 8) (hj : j < 1024) (hr' : r' < 8)
    (hj' : j' < 1024) (reg : Nat) :
    Sparse.get (putSlots v r j ws) (stripKey reg r' j') =
      if r = r' ∧ j = j' then (AMap.find? ws reg).getD (Sparse.get v (stripKey reg r' j'))
      else Sparse.get v (stripKey reg r' j') := by
  induction ws with
  | nil => simp [putSlots, AMap.find?]
  | cons w t ih =>
    obtain ⟨k, x⟩ := w
    show Sparse.get (Sparse.set (putSlots v r j t) _ x) _ = _
    rw [get_set, ih]
    simp only [stripKey_inj hr hr' hj hj', AMap.find?]
    by_cases hk : k = reg <;> by_cases hp : r = r' ∧ j = j' <;> simp [hk, hp]

end Sys2Proof.Machine
end

section
/-!
SUPPORT. What a scratchpad instruction makes of the slice and of the saved registers, position by position, as functions of
what stood before its first position (R199, R329 to R332).
-/

namespace Sys2Proof.Machine

/-- What a scratchpad instruction does: the slice after n positions, its scalar result so far, and at each position the strip
slots written, the bit of its mask register and the flags raised. -/
structure PadRun where
  slice : Nat → List XEntry
  count : Nat → Nat
  slots : Nat → List (Nat × Slot)
  mask : Option MReg
  bit : Nat → BitVec 1
  flags : Nat → BitVec 5

/-- The saved registers with what one position at (r, j) writes. -/
def Ctx.padPosition (c : Ctx) (ws : List (Nat × Slot)) (fl : BitVec 5) (x : Option MReg) (b : BitVec 1) (r j : Nat) : Ctx :=
  ({ c with v := Machine.putSlots c.v r j ws, fflags := c.fflags ||| fl } : Ctx).putExc x r j b

/-- The saved registers after n positions. -/
def PadRun.ctxAt (M : PadRun) (c : Ctx) (vl : Nat) : Nat → Ctx
  | 0 => c
  | k + 1 => (M.ctxAt c vl k).padPosition (M.slots k) (M.flags k) M.mask (M.bit k) (k / vl) (k % vl)

variable (M : PadRun) (c : Ctx) (vl : Nat)

theorem ctxAt_succ (k : Nat) : M.ctxAt c vl (k + 1) =
    (M.ctxAt c vl k).padPosition (M.slots k) (M.flags k) M.mask (M.bit k) (k / vl) (k % vl) := rfl

/-- A position writes strip registers, mask registers and flags only. -/
theorem padPosition_rest (d : Ctx) (ws : List (Nat × Slot)) (fl : BitVec 5) (x : Option MReg) (b : BitVec 1) (r j : Nat) :
    ∃ v m f, d.padPosition ws fl x b r j = { d with v := v, m := m, fflags := f } := by
  cases x <;> exact ⟨_, _, _, rfl⟩

theorem ctxAt_rest (k : Nat) : ∃ v m f, M.ctxAt c vl k = { c with v := v, m := m, fflags := f } := by
  induction k with
  | zero => exact ⟨_, _, _, rfl⟩
  | succ k ih =>
    obtain ⟨v, m, f, ih⟩ := ih
    obtain ⟨v', m', f', step⟩ := padPosition_rest (M.ctxAt c vl k) (M.slots k) (M.flags k) M.mask (M.bit k) (k / vl) (k % vl)
    exact ⟨v', m', f', by rw [ctxAt_succ, step, ih]⟩

theorem ctxAt_fflags (k : Nat) : (M.ctxAt c vl k).fflags = c.fflags ||| flagsOver M.flags k := by
  induction k with
  | zero => exact BitVec.or_zero.symm
  | succ k ih =>
    have step : (M.ctxAt c vl (k + 1)).fflags = (M.ctxAt c vl k).fflags ||| M.flags k := by
      rw [ctxAt_succ]
      cases M.mask <;> rfl
    rw [step, ih, BitVec.or_assoc]
    rfl

variable {M c vl}

/-- Of the positions below k + 1, each is below k or is k. -/
theorem below_succ_iff {r j k : Nat} (hj : j < vl) :
    r * vl + j < k + 1 ↔ r * vl + j < k ∨ (k / vl = r ∧ k % vl = j) := by
  constructor
  · intro h
    rcases Nat.lt_succ_iff_lt_or_eq.mp h with h | h
    · exact .inl h
    · obtain ⟨hr, hj⟩ := position_unique hj h
      exact .inr ⟨hr.symm, hj.symm⟩
  · rintro (h | ⟨rfl, rfl⟩)
    · omega
    · rw [Nat.div_add_mod']
      exact Nat.lt_succ_self k

theorem not_below_self (k : Nat) : ¬(k / vl * vl + k % vl < k) := by rw [Nat.div_add_mod']; exact Nat.lt_irrefl k

/-- A strip slot after n positions: as its own position wrote it, if that is among them. -/
theorem ctxAt_slotV {nr n : Nat} (hn : n ≤ nr * vl) (hnr : nr ≤ 8) (hvl : vl ≤ 1024) (reg : Nat) {r j : Nat} (hr : r < 8)
    (hj : j < 1024) : (M.ctxAt c vl n).slotV reg r j =
      if j < vl ∧ r * vl + j < n then (AMap.find? (M.slots (r * vl + j)) reg).getD (c.slotV reg r j)
      else c.slotV reg r j := by
  induction n with
  | zero => rw [if_neg (by omega)]; rfl
  | succ k ih =>
    obtain ⟨hkr, hkj, hk⟩ := position_of (nr := nr) (vl := vl) (k := k) (by omega)
    have step : (M.ctxAt c vl (k + 1)).slotV reg r j =
        if k / vl = r ∧ k % vl = j then (AMap.find? (M.slots k) reg).getD ((M.ctxAt c vl k).slotV reg r j)
        else (M.ctxAt c vl k).slotV reg r j := by
      rw [ctxAt_succ, Ctx.padPosition, slotV_putExc]
      exact get_putSlots _ _ (by omega) (by omega) hr hj reg
    rw [step, ih (by omega)]
    by_cases here : k / vl = r ∧ k % vl = j
    · obtain ⟨rfl, rfl⟩ := here
      rw [if_pos ⟨rfl, rfl⟩, if_neg fun h => not_below_self k h.2, if_pos ⟨hkj, by omega⟩, hk]
    · rw [if_neg here]
      by_cases hjv : j < vl
      · simp only [below_succ_iff hjv, here, or_false]
      · simp only [hjv, false_and]

/-- A mask bit after n positions. -/
theorem ctxAt_bitM {nr n : Nat} (hn : n ≤ nr * vl) (hnr : nr ≤ 8) (hvl : vl ≤ 1024) (reg : Nat) {r j : Nat} (hr : r < 8)
    (hj : j < 1024) : (M.ctxAt c vl n).bitM reg r j =
      if M.mask.map BitVec.toNat = some reg ∧ j < vl ∧ r * vl + j < n then M.bit (r * vl + j) else c.bitM reg r j := by
  induction n with
  | zero => rw [if_neg (by omega)]; rfl
  | succ k ih =>
    obtain ⟨hkr, hkj, hk⟩ := position_of (nr := nr) (vl := vl) (k := k) (by omega)
    have step : (M.ctxAt c vl (k + 1)).bitM reg r j =
        if M.mask.map BitVec.toNat = some reg ∧ k / vl = r ∧ k % vl = j then M.bit k else (M.ctxAt c vl k).bitM reg r j := by
      rw [ctxAt_succ, Ctx.padPosition]
      exact bitM_putExc _ _ _ _ _ _ _ _ (by omega) (by omega) hr hj
    rw [step, ih (by omega)]
    by_cases here : k / vl = r ∧ k % vl = j
    · obtain ⟨rfl, rfl⟩ := here
      simp only [hk, hkj, Nat.lt_irrefl, Nat.lt_add_one, and_true, and_false, if_false]
    · simp only [here, and_false, if_false]
      by_cases hjv : j < vl
      · simp only [below_succ_iff hjv, here, or_false]
      · simp only [hjv, false_and, and_false]

/-- Position k reads the slots of its own row and element as they stood before the first position. -/
theorem ctxAt_slotV_self {nr k : Nat} (hk : k < nr * vl) (hnr : nr ≤ 8) (hvl : vl ≤ 1024) (reg : Nat) :
    (M.ctxAt c vl k).slotV reg (k / vl) (k % vl) = c.slotV reg (k / vl) (k % vl) := by
  obtain ⟨hkr, hkj, -⟩ := position_of hk
  rw [ctxAt_slotV (Nat.le_of_lt hk) hnr hvl reg (by omega) (by omega), if_neg fun h => not_below_self k h.2]

theorem ctxAt_bitM_self {nr k : Nat} (hk : k < nr * vl) (hnr : nr ≤ 8) (hvl : vl ≤ 1024) (reg : Nat) :
    (M.ctxAt c vl k).bitM reg (k / vl) (k % vl) = c.bitM reg (k / vl) (k % vl) := by
  obtain ⟨hkr, hkj, -⟩ := position_of hk
  rw [ctxAt_bitM (Nat.le_of_lt hk) hnr hvl reg (by omega) (by omega), if_neg fun h => not_below_self k h.2.2]

end Sys2Proof.Machine
end

section
/-!
SUPPORT. Issuing a scratchpad instruction: it enters the queue, is served position by position, and completes with its scalar
result (R145, R197, R199, R326).
-/

namespace Sys2Proof.Machine

/-! What the sequencer asks of an instruction, for those of the scratchpad. -/

variable {i : Instr}

/-- An instruction that reaches no memory, sweeps the whole shape, and gives its running count in the g register that it
names, if it names one. -/
structure Counts (i : Instr) : Prop where
  memory : touchesMemory i = false
  gossip : isGossip i = false
  store : isVecStore i = false
  len : ∀ op : VOp, op.i = i → lenOf op = op.nr * op.vl
  scalar : ∀ op : VOp, op.i = i → scalarResult op = match scalarDest i with | some d => wrG d op.acc | none => pure ()

theorem xpad_counts (hi : isXpad i = true) : Counts i := by
  unfold isXpad at hi
  split at hi
  case h_6 => cases hi
  all_goals exact ⟨rfl, rfl, rfl, fun op h => by rw [lenOf, h], fun op h => by rw [scalarResult, h]; rfl⟩

/-! Completion. -/

/-- A hart whose scratchpad instruction completes: the scalar result is written, and vbeg cleared by those that it restarts
(R145, R326). -/
def Hart.endPad (h : Hart) (i : Instr) (x : Word) : Hart :=
  let h := match scalarDest i with | some d => h.wr d x | none => h
  if usesVbeg i then h.onCtx fun c => { c with vbeg := none } else h

/-- The head of the queue completes. -/
theorem finishHead_counts (hi : Counts i) {op : VOp} (ho : op.i = i) (hc : op.call = false) (u : State) :
    finishHead op u = .ok ⟨⟩ (u.front
      (({ u.cur with prog := progAfter false op u.cur, vq := u.cur.vq.tail } : Hart).endPad i op.acc)) := by
  unfold finishHead
  rw [trackProgress_eq, modHart_bind_apply, hi.scalar op ho, ho, hi.store, hc]
  unfold Hart.endPad
  cases scalarDest i with
  | none => rfl
  | some d =>
    unfold wrG
    rw [modHart_bind_apply, modHart_front]
    by_cases hd : d = 0
    · simp only [Hart.wr, if_pos hd]
      rfl
    · simp only [Hart.wr, if_neg hd]
      rfl

/-! Serving. -/

/-- The positions of the shape (R192). -/
abbrev State.sweepLen (s : State) : Nat := s.cur.ctx.nr.toNat * s.cur.ctx.vl

/-- The hart stands with a scratchpad instruction alone in its queue, k of its positions done as M says, since it issued it in
s. -/
structure PadRun.At (M : PadRun) (s : State) (i : Instr) (k : Nat) (op : VOp) (u : State) : Prop where
  instr : op.i = i
  call : op.call = false
  served : op.served = u.now
  shape : op.vl = s.cur.ctx.vl
  len : op.len = s.sweepLen
  pos : op.pos = k
  within : k ≤ s.sweepLen
  acc : op.acc = BitVec.ofNat 64 (M.count k)
  queue : u.cur.vq = [op]
  due : u.cur.due = .nothing
  spots : u.spots = []
  place : u.cur.xPlace = s.cur.xPlace
  room : u.cur.xcap = s.cur.xcap
  ctx : u.cur.ctx = M.ctxAt s.cur.retire.ctx s.cur.ctx.vl k
  entries : u.cur.xents = M.slice k

/-- The instruction with its next position done. -/
def PadRun.next (M : PadRun) (op : VOp) : VOp := { op with pos := op.pos + 1, acc := BitVec.ofNat 64 (M.count (op.pos + 1)) }

/-- A hart after k positions, as M says. -/
def PadRun.hartAt (M : PadRun) (s : State) (k : Nat) (h : Hart) : Hart :=
  { h with ctx := M.ctxAt s.cur.retire.ctx s.cur.ctx.vl k, xents := M.slice k }

/-- Every position of the instruction does what M says of it. -/
def PadRun.Serves (M : PadRun) (s : State) (i : Instr) : Prop :=
  ∀ k op u, k < s.sweepLen → M.At s i k op u →
    serveUnit op u = .ok (M.next op) (u.front (M.hartAt s (k + 1) u.cur))

variable {M : PadRun} {s u : State} {k : Nat} {op : VOp}

/-- An instruction of which every position is done completes. -/
theorem serveHead_end (hi : Counts i) (h : M.At s i k op u) (hl : op.len ≤ op.pos) :
    serveHead u = finishHead op u := by
  unfold serveHead
  rw [hart_bind_apply]
  simp only [h.queue]
  rw [bind_ok (takeDue_nothing h.due)]
  simp only [h.instr, hi.memory, hi.gossip, hl, if_true, Bool.false_eq_true, if_false]

/-- One more position is served; the last of them completes the instruction. -/
theorem serveHead_unit (hi : Counts i) (h : M.At s i k op u) (hl : op.pos < op.len) :
    serveHead u = (do
      let o ← serveUnit op
      saveHead o
      if o.len ≤ o.pos then finishHead o else trackProgress true o) u := by
  have same : ({ op with i := i, served := u.now, call := false } : VOp) = op := by rw [← h.instr, ← h.served, ← h.call]
  unfold serveHead
  rw [hart_bind_apply]
  simp only [h.queue]
  rw [bind_ok (takeDue_nothing h.due)]
  simp only [h.instr, hi.memory, Nat.not_le.mpr hl, h.call, Bool.false_eq_true, if_false, get_bind_apply]
  rw [same]

theorem endPad_vq (h : Hart) (i : Instr) (x : Word) : (h.endPad i x).vq = h.vq := by
  unfold Hart.endPad
  cases scalarDest i <;> cases usesVbeg i <;> simp [Hart.onCtx]

/-- While something is queued, serving n + 1 positions serves one and then n. -/
theorem serveN_busy (n : Nat) (hq : u.cur.vq = [op]) : serveN (n + 1) u = (serveHead >>= fun _ => serveN n) u := by
  rw [serveN, hart_bind_apply, hq]
  rfl

/-- The hart with one more position done. -/
theorem PadRun.At.next (h : M.At s i k op u) (hk : k < s.sweepLen) (p : AMap Progress) :
    M.At s i (k + 1) (M.next op) (u.front { M.hartAt s (k + 1) u.cur with vq := [M.next op], prog := p }) where
  instr := h.instr
  call := h.call
  served := h.served
  shape := h.shape
  len := h.len
  pos := congrArg (· + 1) h.pos
  within := hk
  acc := congrArg (fun n => BitVec.ofNat 64 (M.count (n + 1))) h.pos
  queue := rfl
  due := h.due
  spots := h.spots
  place := h.place
  room := h.room
  ctx := rfl
  entries := rfl

/-- The instruction completes once all its positions are done. -/
theorem finishHead_at (hi : Counts i) (h : M.At s i k op u) (hl : op.len ≤ op.pos) :
    ∃ p, finishHead op u = .ok ⟨⟩ (u.front
      (({ M.hartAt s (s.sweepLen) u.cur with prog := p, vq := [] } : Hart).endPad i
        (BitVec.ofNat 64 (M.count (s.sweepLen))))) := by
  have all : k = s.sweepLen := by
    have := h.len
    have := h.pos
    have := h.within
    omega
  refine ⟨progAfter false op u.cur, (finishHead_counts hi h.instr h.call u).trans ?_⟩
  rw [← all, h.acc, h.queue, PadRun.hartAt, ← h.ctx, ← h.entries]
  rfl

/-- A queue of one scratchpad instruction is served to its end. -/
theorem serveN_counts (hi : Counts i) (hM : M.Serves s i) : ∀ n k op u, M.At s i k op u → op.len - op.pos = n →
    ∃ p, serveN (n + 1) u = .ok ⟨⟩ (u.front
      (({ M.hartAt s (s.sweepLen) u.cur with prog := p, vq := [] } : Hart).endPad i
        (BitVec.ofNat 64 (M.count (s.sweepLen))))) := by
  intro n
  induction n with
  | zero =>
    intro k op u h hn
    obtain ⟨p, done⟩ := finishHead_at hi h (Nat.sub_eq_zero_iff_le.mp hn)
    have head := (serveHead_end hi h (Nat.sub_eq_zero_iff_le.mp hn)).trans done
    exact ⟨p, (serveN_busy 0 h.queue).trans (bind_ok head)⟩
  | succ n ih =>
    intro k op u h hn
    have hl : op.pos < op.len := by omega
    have hk : k < s.sweepLen := by rwa [← h.pos, ← h.len]
    have head := serveHead_unit hi h hl
    rw [bind_ok (hM k op u hk h)] at head
    have saved : saveHead (M.next op) (u.front (M.hartAt s (k + 1) u.cur)) =
        .ok ⟨⟩ (u.front { M.hartAt s (k + 1) u.cur with vq := [M.next op] }) := by
      unfold saveHead
      rw [modHart_front]
      simp only [front_cur, PadRun.hartAt, h.queue]
      rfl
    rw [bind_ok saved] at head
    rw [serveN_busy _ h.queue]
    by_cases last : (M.next op).len ≤ (M.next op).pos
    · obtain ⟨p, done⟩ := finishHead_at hi (h.next hk u.cur.prog) last
      rw [if_pos last] at head
      refine ⟨p, (bind_ok (head.trans done)).trans ?_⟩
      rw [serveN_empty _ (endPad_vq ..)]
      rfl
    · rw [if_neg last] at head
      have left : (M.next op).len - (M.next op).pos = n := by
        show op.len - (op.pos + 1) = n
        omega
      obtain ⟨p, done⟩ := ih (k + 1) (M.next op) _ (h.next hk _) left
      exact ⟨p, (bind_ok head).trans done⟩

end Sys2Proof.Machine
end

section
/-!
SUPPORT. What stands when a scratchpad instruction has been issued and has completed (R145, R199, R329 to R332).
-/

namespace Sys2Proof.Machine

variable {i : Instr} {M : PadRun} {s t : State}

/-! Retiring. -/

theorem retire_slotV (h : Hart) : h.retire.ctx.slotV = h.slotV := by
  funext
  unfold Ctx.slotV Hart.slotV
  rw [retire_ctx_v]

theorem retire_bitM (h : Hart) : h.retire.ctx.bitM = h.bitM := by
  funext
  unfold Ctx.bitM Hart.bitM
  rw [retire_ctx_m]

/-! Entering the queue. -/

/-- The state in which a queued instruction without scalar operands has entered the queue and retired (R145). -/
def State.entered (s : State) (i : Instr) : State :=
  { s with cur := (s.cur.enqueue (enterOp s i 0 0 0 none)).retire, free := s.free + 1 }

/-- The hart that has entered an instruction is the one that retired, but for its queue and its progress indices. -/
theorem entered_cur (hq : s.cur.vq = []) (i : Instr) :
    ∃ p, (s.entered i).cur = { s.cur.retire with vq := [enterOp s i 0 0 0 none], prog := p } := by
  refine ⟨(s.cur.enqueue (enterOp s i 0 0 0 none)).prog, ?_⟩
  unfold State.entered Hart.enqueue
  rw [hq]
  exact retire_queue ..

section
variable (hq : s.cur.vq = []) (i : Instr)
include hq

theorem entered_ctx : (s.entered i).cur.ctx = s.cur.retire.ctx := by
  obtain ⟨p, hp⟩ := entered_cur hq i
  rw [hp]

theorem entered_xents : (s.entered i).cur.xents = s.cur.xents := by
  obtain ⟨p, hp⟩ := entered_cur hq i
  rw [hp]
  exact retire_xents _

theorem entered_trap : (s.entered i).cur.trap = s.cur.trap := by
  obtain ⟨p, hp⟩ := entered_cur hq i
  rw [hp]
  exact retire_trap _

theorem entered_sq : (s.entered i).cur.sq = s.cur.sq := by
  obtain ⟨p, hp⟩ := entered_cur hq i
  rw [hp]
  exact retire_sq _

theorem entered_part : (s.entered i).cur.part = s.cur.part := by
  obtain ⟨p, hp⟩ := entered_cur hq i
  rw [hp]
  exact retire_part _

theorem entered_tfb : (s.entered i).cur.tfb = s.cur.tfb := by
  obtain ⟨p, hp⟩ := entered_cur hq i
  rw [hp]
  exact retire_tfb _

end

/-- Issuing is entering and serving to the end, where nothing else is queued. -/
theorem issuePlain_counts (hi : Counts i) (hs : s.Plain) (h0 : startOf s.cur i = (0, 0)) :
    issuePlain i 0 0 0 s = run (serveN ((enterOp s i 0 0 0 none).len + 1)) (s.entered i) := by
  have queue : (s.entered i).cur.vq = [enterOp s i 0 0 0 none] := by
    obtain ⟨p, hp⟩ := entered_cur hs.queue i
    rw [hp]
  have pos : (enterOp s i 0 0 0 none).pos = 0 := congrArg Prod.fst h0
  have issued : issue i 0 0 0 true none s = serveN ((enterOp s i 0 0 0 none).len + 1) (s.entered i) := by
    unfold issue
    rw [get_bind_apply]
    simp only [hi.store, Bool.false_eq_true, false_and, if_false, Bool.not_true, set_bind_apply]
    show (match s.serve with | none => drainQueue | some n => serveN n) (s.entered i) = _
    rw [hs.serve]
    refine (hart_bind_apply (fun h => serveN (queueWork h.vq)) _).trans ?_
    rw [queue, queueWork_one, pos, Nat.sub_zero]
  unfold issuePlain
  rw [runHart_running hs.running]
  simp only [run, issued]

/-- The instruction that has entered stands at its first position. -/
theorem at_entered (hi : Counts i) (hs : s.Plain) (h0 : startOf s.cur i = (0, 0)) (hc : M.count 0 = 0)
    (hx : M.slice 0 = s.cur.xents) : M.At s i 0 (enterOp s i 0 0 0 none) (s.entered i) := by
  obtain ⟨p, hp⟩ := entered_cur hs.queue i
  exact {
    instr := rfl
    call := rfl
    served := rfl
    shape := rfl
    len := hi.len _ rfl
    pos := congrArg Prod.fst h0
    within := Nat.zero_le _
    acc := (congrArg Prod.snd h0).trans (by rw [hc]; rfl)
    queue := by rw [hp]
    due := by rw [hp]; exact (retire_due _).trans hs.due
    spots := hs.spots
    place := by rw [hp]; exact retire_xPlace _
    room := by rw [hp]; exact retire_xcap _
    ctx := entered_ctx hs.queue i
    entries := (entered_xents hs.queue i).trans hx.symm }

/-! Completion. -/

/-- Completion changes g registers and vbeg only. -/
theorem endPad_rest (h : Hart) (i : Instr) (x : Word) :
    ∃ g b, h.endPad i x = { h with ctx := { h.ctx with g := g, vbeg := b } } := by
  unfold Hart.endPad Hart.wr
  cases scalarDest i with
  | none => cases usesVbeg i <;> exact ⟨_, _, rfl⟩
  | some d => by_cases hd : d = 0 <;> cases usesVbeg i <;> simp only [hd, if_true, if_false] <;> exact ⟨_, _, rfl⟩

theorem rd_clearVbeg (h : Hart) (i : Instr) (r : GReg) :
    (if usesVbeg i then h.onCtx fun c => { c with vbeg := none } else h).rd r = h.rd r := by
  cases usesVbeg i <;> rfl

/-- The scalar result stands in the g register that the instruction names (R145). -/
theorem rd_endPad_same {d : GReg} (hd : scalarDest i = some d) (h : Hart) (x : Word) :
    (h.endPad i x).rd d = if d = 0 then 0 else x := by
  unfold Hart.endPad
  rw [hd, rd_clearVbeg, rd_wr_same]

theorem rd_endPad_other {r : GReg} (hr : scalarDest i ≠ some r) (h : Hart) (x : Word) : (h.endPad i x).rd r = h.rd r := by
  unfold Hart.endPad
  rw [rd_clearVbeg]
  cases hd : scalarDest i with
  | none => rfl
  | some d => exact rd_wr_other _ _ fun e => hr (e ▸ hd)

/-- Retiring leaves all that every retiring instruction leaves. -/
theorem retire_bare (h : Hart) : h.retire.bare = h.bare := by
  have advanced (k : Hart) : k.advance.bare = k.bare := (advance_leaves k).2.2.2
  unfold Hart.retire
  split <;> exact (advanced _).trans rfl

/-- A hart has retired if it stands and counts as one that has. -/
theorem retired_of_same {k : Hart} (hp : k.ctx.pc = s.cur.retire.ctx.pc) (hi : k.ctx.iter = s.cur.retire.ctx.iter)
    (hr : k.ctx.resid = s.cur.retire.ctx.resid) (hn : k.retired = s.cur.retire.retired) (hw : k.wait = none) (u : State) :
    Retired s (u.front k) := by
  obtain ⟨count, -, original, residual⟩ := retired_wr s s.cur 0 0 rfl ⟨rfl, rfl, rfl⟩ rfl u
  exact ⟨hn.trans count, hw, fun h => hp ▸ hi ▸ hr ▸ original h, fun n w h hw => hp ▸ hi ▸ hr ▸ residual n w h hw⟩

/-- What M says stands after the whole sweep, and nothing else has changed. -/
structure PadRun.Done (M : PadRun) (i : Instr) (s t : State) : Prop where
  frame : SliceFrame s t
  entries : t.cur.xents = M.slice (s.sweepLen)
  slots : ∀ reg r j, r < 8 → j < 1024 → t.cur.slotV reg r j =
    if s.inShape r j then (AMap.find? (M.slots (r * s.cur.ctx.vl + j)) reg).getD (s.cur.slotV reg r j)
    else s.cur.slotV reg r j
  bits : ∀ reg r j, r < 8 → j < 1024 → t.cur.bitM reg r j =
    if M.mask.map BitVec.toNat = some reg ∧ s.inShape r j = true then M.bit (r * s.cur.ctx.vl + j) else s.cur.bitM reg r j
  flags : t.cur.ctx.fflags = s.cur.ctx.fflags ||| flagsOver M.flags (s.sweepLen)
  regs : ∀ r, scalarDest i ≠ some r → t.cur.rd r = s.cur.rd r
  result : ∀ d, scalarDest i = some d → t.cur.rd d =
    if d = 0 then 0 else BitVec.ofNat 64 (M.count (s.sweepLen))

/-- A position of the shape is one of the sweep. -/
theorem inShape_iff {r j : Nat} : s.inShape r j = true ↔
    j < s.cur.ctx.vl ∧ r * s.cur.ctx.vl + j < s.sweepLen := by
  unfold State.inShape
  rw [Bool.and_eq_true, decide_eq_true_iff, decide_eq_true_iff, and_comm]
  refine and_congr_right fun hj => ⟨fun hr => ?_, fun h => ?_⟩
  · calc r * s.cur.ctx.vl + j < r * s.cur.ctx.vl + s.cur.ctx.vl := by omega
      _ = (r + 1) * s.cur.ctx.vl := (Nat.succ_mul ..).symm
      _ ≤ s.sweepLen := Nat.mul_le_mul_right _ hr
  · exact Nat.lt_of_mul_lt_mul_right (Nat.lt_of_le_of_lt (Nat.le_add_right ..) h)

/-- A hart with what a scratchpad instruction may change at fixed values, and a slice. -/
def Hart.bareSlice (h : Hart) (l : List XEntry) : Hart :=
  let b := h.bareVec
  { b with ctx := { b.ctx with vbeg := none }, xents := l }

theorem bareSlice_endPad (h : Hart) (i : Instr) (x : Word) (l : List XEntry) :
    (h.endPad i x).bareSlice l = h.bareSlice l := by
  obtain ⟨g, b, he⟩ := endPad_rest h i x
  rw [he]
  rfl

theorem bareSlice_run (h : Hart) (v : Sparse 32) (m : Sparse 1) (f : BitVec 5) (p : AMap Progress) (k l : List XEntry) :
    ({ h with ctx := { h.ctx with v := v, m := m, fflags := f }, prog := p, xents := k } : Hart).bareSlice l =
      h.bareSlice l := rfl

/-- What a vector instruction may change is told from what retiring leaves. -/
theorem bareSlice_retire (h : Hart) (l : List XEntry) : h.retire.bareSlice l = h.bareSlice l := by
  unfold Hart.bareSlice Hart.bareVec Hart.bareFl
  rw [retire_bare]

/-- The hart that retired, after the whole sweep and with nothing queued. -/
def PadRun.swept (M : PadRun) (s : State) (p : AMap Progress) : Hart :=
  { M.hartAt s s.sweepLen s.cur.retire with prog := p, vq := [] }

theorem swept_ctx (p : AMap Progress) : (M.swept s p).ctx = M.ctxAt s.cur.retire.ctx s.cur.ctx.vl s.sweepLen := rfl

/-- The sweep changes strip registers, mask registers, flags, the slice and progress indices only. -/
theorem swept_rest (hq : s.cur.vq = []) (p : AMap Progress) : ∃ v m f, M.swept s p =
    { s.cur.retire with
      ctx := { s.cur.retire.ctx with v := v, m := m, fflags := f }, prog := p, xents := M.slice s.sweepLen } := by
  obtain ⟨v, m, f, hctx⟩ := ctxAt_rest M s.cur.retire.ctx s.cur.ctx.vl s.sweepLen
  refine ⟨v, m, f, ?_⟩
  unfold PadRun.swept PadRun.hartAt
  rw [hctx, ← hq, ← retire_vq s.cur]

/-- The hart that stands at the end is as M says. -/
theorem swept_done (hs : s.Plain) (hsh : s.Shaped) (n : Nat) (p : AMap Progress) :
    M.Done i s (({ s with free := n } : State).front ((M.swept s p).endPad i (BitVec.ofNat 64 (M.count s.sweepLen)))) := by
  obtain ⟨hnr, hvl⟩ := hsh
  obtain ⟨v, m, f, hk⟩ := swept_rest (M := M) hs.queue p
  obtain ⟨g, b, he⟩ := endPad_rest (M.swept s p) i (BitVec.ofNat 64 (M.count s.sweepLen))
  have regs (r : GReg) : (M.swept s p).rd r = s.cur.rd r := by rw [← rd_retire s.cur r, hk]; rfl
  refine ⟨⟨?hart, rfl, fun _ => rfl, ?retired, ?scales, ?anchored⟩, ?entries, ?slots, ?bits, ?flags, ?regs, ?result⟩
  case hart =>
    show Hart.bareSlice _ s.cur.xents = s.cur.bareSlice s.cur.xents
    rw [front_cur, bareSlice_endPad, hk, bareSlice_run, bareSlice_retire]
  case retired =>
    rw [he, hk]
    refine retired_of_same ?pc ?iter ?resid ?count ?wait _
    case wait => exact retire_wait s.cur
    all_goals rfl
  case scales => rw [front_cur, he, hk]; exact retire_ctx_sc _
  case anchored => rw [front_cur, he, hk]; exact retire_ctx_a _
  case entries => rw [front_cur, he]; rfl
  case slots =>
    intro reg r j hr hj
    have after : ((M.swept s p).endPad i (BitVec.ofNat 64 (M.count s.sweepLen))).slotV reg r j =
        (M.swept s p).ctx.slotV reg r j := by rw [he]; rfl
    rw [front_cur, after, swept_ctx, ctxAt_slotV (Nat.le_refl _) hnr hvl reg hr hj]
    simp only [retire_slotV, inShape_iff]
  case bits =>
    intro reg r j hr hj
    have after : ((M.swept s p).endPad i (BitVec.ofNat 64 (M.count s.sweepLen))).bitM reg r j =
        (M.swept s p).ctx.bitM reg r j := by rw [he]; rfl
    rw [front_cur, after, swept_ctx, ctxAt_bitM (Nat.le_refl _) hnr hvl reg hr hj]
    simp only [retire_bitM, inShape_iff]
  case flags =>
    have after : ((M.swept s p).endPad i (BitVec.ofNat 64 (M.count s.sweepLen))).ctx.fflags = (M.swept s p).ctx.fflags := by
      rw [he]
    rw [front_cur, after, swept_ctx, ctxAt_fflags, retire_ctx_fflags]
  case regs => exact fun r hr => (rd_endPad_other hr ..).trans (regs r)
  case result => exact fun d hd => rd_endPad_same hd ..

/-- A scratchpad instruction each of whose positions does what M says completes as M says. -/
theorem issuePlain_completes (hi : Counts i) (hs : s.Plain) (hsh : s.Shaped) (h0 : startOf s.cur i = (0, 0))
    (hc : M.count 0 = 0) (hx : M.slice 0 = s.cur.xents) (hM : M.Serves s i) : ∃ t, issuePlain i 0 0 0 s = .next t ∧ M.Done i s t := by
  have start := at_entered hi hs h0 hc hx
  have left : (enterOp s i 0 0 0 none).len - (enterOp s i 0 0 0 none).pos = (enterOp s i 0 0 0 none).len := by
    rw [start.pos, Nat.sub_zero]
  obtain ⟨p, served⟩ := serveN_counts hi hM _ 0 _ _ start left
  obtain ⟨q, hq⟩ := entered_cur hs.queue i
  rw [hq] at served
  exact ⟨_, (issuePlain_counts hi hs h0).trans (run_ok served), swept_done hs hsh (s.free + 1) p⟩

end Sys2Proof.Machine
end

section
/-!
SUPPORT. A scratchpad instruction at one of its positions: it reads its row and element as they stood when it was issued (R199).
-/

namespace Sys2Proof.Machine

variable {M : PadRun} {s u : State} {i : Instr} {k : Nat} {op : VOp}

/-- The key at position p of the sweep (R195, R323). -/
def State.keyNo (s : State) (a : VReg) (p : Nat) : Word := s.keyOf a (p / s.cur.ctx.vl) (p % s.cur.ctx.vl)

/-- The value element at position p of the sweep (R323). -/
def State.valueNo (s : State) (f : Fmt) (b : VReg) (p : Nat) : Word := s.valueOf f b (p / s.cur.ctx.vl) (p % s.cur.ctx.vl)

/-- Whether position p of the sweep is active (R70). -/
def State.activeNo (s : State) (e : Option MReg) (p : Nat) : Bool :=
  s.cur.active e (p / s.cur.ctx.vl) (p % s.cur.ctx.vl)

/-- A position that raises no flag. -/
theorem padPosition_noFlag (c : Ctx) (ws : List (Nat × Slot)) (x : Option MReg) (b : BitVec 1) (r j : Nat) :
    c.padPosition ws 0 x b r j = ({ c with v := Machine.putSlots c.v r j ws } : Ctx).putExc x r j b := by
  have none_raised : c.fflags ||| 0 = c.fflags := BitVec.or_zero
  rw [Ctx.padPosition, none_raised]

section
variable (h : M.At s i k op u) (hsh : s.Shaped) (hk : k < s.sweepLen)
include h

theorem PadRun.At.r_eq : op.r = k / s.cur.ctx.vl := by rw [VOp.r, h.pos, h.shape]
theorem PadRun.At.j_eq : op.j = k % s.cur.ctx.vl := by rw [VOp.j, h.pos, h.shape]

/-- One more position writes to its own row and element, and leaves the next slice. -/
theorem PadRun.At.hart_succ : M.hartAt s (k + 1) u.cur =
    { u.cur with
      ctx := u.cur.ctx.padPosition (M.slots k) (M.flags k) M.mask (M.bit k) op.r op.j, xents := M.slice (k + 1) } := by
  rw [PadRun.hartAt, ctxAt_succ, ← h.ctx, h.r_eq, h.j_eq]

/-- The same where the position raises no flag and its instruction has a mask register. -/
theorem PadRun.At.hart_succ_mask {c : MReg} (hf : M.flags k = 0) (hm : M.mask = some c) :
    M.hartAt s (k + 1) u.cur =
      ((({ u.cur with xents := M.slice (k + 1) } : Hart).putSlots op.r op.j (M.slots k)).setM c.toNat op.r op.j (M.bit k)) := by
  rw [h.hart_succ, hf, padPosition_noFlag, hm]
  rfl

/-- A position that adds nothing to the count. -/
theorem PadRun.At.next_same (hc : M.count (k + 1) = M.count k) : M.next op = op.step := by
  rw [PadRun.next, h.pos, hc, ← h.acc, VOp.step, h.pos]

/-- A position that is counted. -/
theorem PadRun.At.next_counted (hc : M.count (k + 1) = M.count k + 1) :
    M.next op = { op.step with acc := op.acc + 1 } := by
  rw [PadRun.next, h.pos, hc, BitVec.ofNat_add, ← h.acc, VOp.step, h.pos]
  rfl

include hsh hk

theorem PadRun.At.slotV_eq (reg : Nat) : u.cur.slotV reg op.r op.j = s.cur.slotV reg op.r op.j := by
  show u.cur.ctx.slotV reg op.r op.j = _
  rw [h.ctx, h.r_eq, h.j_eq, ctxAt_slotV_self hk hsh.rows hsh.elems, retire_slotV]

theorem PadRun.At.keyOf_eq (a : VReg) : u.keyOf a op.r op.j = s.keyNo a k := by
  unfold State.keyNo State.keyOf
  rw [h.slotV_eq hsh hk, h.slotV_eq hsh hk, h.r_eq, h.j_eq]

theorem PadRun.At.valueOf_eq (f : Fmt) (b : VReg) : u.valueOf f b op.r op.j = s.valueNo f b k := by
  unfold State.valueNo State.valueOf
  rw [h.slotV_eq hsh hk, h.slotV_eq hsh hk, h.r_eq, h.j_eq]

theorem PadRun.At.active_eq (e : Option MReg) : u.cur.active e op.r op.j = s.activeNo e k := by
  unfold State.activeNo Hart.active
  cases e with
  | none => rfl
  | some pm =>
    show (u.cur.ctx.bitM _ _ _ == 1) = _
    rw [h.ctx, h.r_eq, h.j_eq, ctxAt_bitM_self hk hsh.rows hsh.elems, retire_bitM]

end

end Sys2Proof.Machine
end

section
/-!
SUPPORT. Keys in a slice (R322, R323).
-/

namespace Sys2Proof.Machine

/-- Whether a slice has an entry of a key. -/
def hasKey (l : List XEntry) (k : Word) : Bool := l.any fun y => y.key == k

theorem hasKey_of_findKey {l : List XEntry} {k x : Word} (h : findKey k l = some x) : hasKey l k = true := by
  unfold findKey at h
  obtain ⟨y, hy, -⟩ := Option.map_eq_some_iff.mp h
  exact List.any_eq_true.mpr ⟨y, List.mem_of_find?_eq_some hy, List.find?_some (p := fun y : XEntry => y.key == k) hy⟩

theorem not_hasKey_of_findKey {l : List XEntry} {k : Word} (h : findKey k l = none) : hasKey l k = false := by
  unfold findKey at h
  rw [Option.map_eq_none_iff, List.find?_eq_none] at h
  exact Bool.eq_false_iff.mpr fun hk => by
    obtain ⟨y, hy, e⟩ := List.any_eq_true.mp hk
    exact h y hy e

/-- The slice without the entries of keys that a test takes has the keys that it leaves. -/
theorem hasKey_filter (l : List XEntry) (p : Word → Bool) (k : Word) :
    hasKey (l.filter fun y => !p y.key) k = (hasKey l k && !p k) := by
  unfold hasKey
  induction l with
  | nil => rfl
  | cons y t ih =>
    by_cases hk : y.key = k
    · subst hk
      cases hp : p y.key <;> simp [hp, ih]
    · have other : (y.key == k) = false := beq_false_of_ne hk
      cases hp : p y.key <;> simp [hp, other, ih]

/-- Where no entry has a key, there is none to take away. -/
theorem filter_absent {l : List XEntry} {k : Word} (h : hasKey l k = false) : l.filter (fun y => y.key != k) = l := by
  refine List.filter_eq_self.mpr fun y hy => ?_
  have := List.any_eq_false.mp h y hy
  simpa [bne] using this

end Sys2Proof.Machine
end

section
/-!
SUPPORT. xlook, xdel and xdrain at each of their positions (R330 to R332).
-/

namespace Sys2Proof.Machine

variable {s u : State} {k : Nat} {op : VOp}

/-! xdel (R331). -/

/-- Whether one of the first n positions is active with a key: xdel has removed it. -/
def State.takenKey (s : State) (a : VReg) (e : Option MReg) (n : Nat) (k : Word) : Bool :=
  (List.range n).any fun p => s.activeNo e p && s.keyNo a p == k

/-- Whether xdel removes an entry at a position. -/
def State.removes (s : State) (a : VReg) (e : Option MReg) (p : Nat) : Bool :=
  s.activeNo e p && hasKey s.cur.xents (s.keyNo a p) && !s.takenKey a e p (s.keyNo a p)

/-- What xdel does (R331). -/
def State.deleteRun (s : State) (a : VReg) (c : MReg) (e : Option MReg) : PadRun where
  slice n := s.cur.xents.filter fun y => !s.takenKey a e n y.key
  count n := (List.range n).countP (s.removes a e)
  slots _ := []
  mask := some c
  bit p := BitVec.ofBool (s.removes a e p)
  flags _ := 0

theorem takenKey_succ (s : State) (a : VReg) (e : Option MReg) (n : Nat) (k : Word) :
    s.takenKey a e (n + 1) k = (s.takenKey a e n k || (s.activeNo e n && s.keyNo a n == k)) := by
  unfold State.takenKey
  rw [List.range_succ, List.any_append, List.any_cons, List.any_nil, Bool.or_false]

/-- An active position of xdel takes the entries of its key from the slice. -/
theorem deleteRun_slice_active (a : VReg) (c : MReg) {e : Option MReg} {n : Nat} (act : s.activeNo e n = true) :
    (s.deleteRun a c e).slice (n + 1) = ((s.deleteRun a c e).slice n).filter fun y => y.key != s.keyNo a n := by
  show s.cur.xents.filter _ = (s.cur.xents.filter _).filter _
  rw [List.filter_filter]
  refine List.filter_congr fun y _ => ?_
  rw [takenKey_succ, act, Bool.true_and, Bool.not_or, Bool.and_comm, BEq.comm]
  rfl

/-- An inactive one takes none. -/
theorem deleteRun_slice_inactive (a : VReg) (c : MReg) {e : Option MReg} {n : Nat} (act : s.activeNo e n = false) :
    (s.deleteRun a c e).slice (n + 1) = (s.deleteRun a c e).slice n := by
  refine List.filter_congr fun y _ => ?_
  rw [takenKey_succ, act, Bool.false_and, Bool.or_false]

theorem deleteRun_count_succ (s : State) (a : VReg) (c : MReg) (e : Option MReg) (n : Nat) :
    (s.deleteRun a c e).count (n + 1) = (s.deleteRun a c e).count n + (s.removes a e n).toNat := by
  show (List.range (n + 1)).countP _ = (List.range n).countP _ + _
  rw [List.range_succ, List.countP_append, List.countP_singleton]
  cases s.removes a e n <;> rfl

theorem deleteRun_count_kept {a : VReg} (c : MReg) {e : Option MReg} {n : Nat} (h : s.removes a e n = false) :
    (s.deleteRun a c e).count (n + 1) = (s.deleteRun a c e).count n := by
  rw [deleteRun_count_succ, h]
  rfl

theorem deleteRun_count_removed {a : VReg} (c : MReg) {e : Option MReg} {n : Nat} (h : s.removes a e n = true) :
    (s.deleteRun a c e).count (n + 1) = (s.deleteRun a c e).count n + 1 := by
  rw [deleteRun_count_succ, h]
  rfl

theorem deleteRun_serves (hp : s.cur.xPlace = .here) (hsh : s.Shaped) (d : GReg) (a : VReg) (c : MReg) (e : Option MReg) :
    (s.deleteRun a c e).Serves s (.xdel d a c e) := by
  intro k op u hk h
  have hu := h.spots
  have has : hasKey u.cur.xents (s.keyNo a k) = (hasKey s.cur.xents (s.keyNo a k) && !s.takenKey a e k (s.keyNo a k)) := by
    rw [h.entries]
    exact hasKey_filter ..
  have bit : (s.deleteRun a c e).bit k = BitVec.ofBool (s.removes a e k) := rfl
  have unit : serveUnit op u = unitXdel a c e op u := by rw [serveUnit, h.instr]
  rw [unit]
  unfold unitXdel
  rw [bind_ok (requireSlice_here (h.place.trans hp) op)]
  dsimp only
  rw [bind_ok (isActive_clean hu ..), h.active_eq hsh hk]
  cases act : s.activeNo e k with
  | false =>
    have kept : s.removes a e k = false := by rw [State.removes, act, Bool.false_and, Bool.false_and]
    have slice : (s.deleteRun a c e).slice (k + 1) = u.cur.xents := by rw [deleteRun_slice_inactive a c act, h.entries]
    rw [if_neg Bool.false_ne_true, bind_ok (wrM_clean hu ..), pure_apply, h.next_same (deleteRun_count_kept c kept),
      h.hart_succ_mask rfl rfl, slice, bit, kept]
    rfl
  | true =>
    rw [if_pos rfl, bind_ok (keyAt_clean hu ..), h.keyOf_eq hsh hk, hart_bind_apply]
    cases found : findKey (s.keyNo a k) u.cur.xents with
    | none =>
      have absent := not_hasKey_of_findKey found
      have kept : s.removes a e k = false := by rw [State.removes, act, Bool.true_and, ← has, absent]
      have slice : (s.deleteRun a c e).slice (k + 1) = u.cur.xents := by
        rw [deleteRun_slice_active a c act, ← h.entries, filter_absent absent]
      dsimp only
      rw [bind_ok (wrM_clean hu ..), pure_apply, h.next_same (deleteRun_count_kept c kept),
        h.hart_succ_mask rfl rfl, slice, bit, kept]
      rfl
    | some x =>
      have removed : s.removes a e k = true := by
        rw [State.removes, act, Bool.true_and, ← has, hasKey_of_findKey found]
      have slice : (s.deleteRun a c e).slice (k + 1) = u.cur.xents.filter fun y => y.key != s.keyNo a k := by
        rw [deleteRun_slice_active a c act, ← h.entries]
      dsimp only
      unfold modSlice
      rw [modHart_bind_apply, bind_ok (wrM_clean (by exact hu) ..), pure_apply,
        h.next_counted (deleteRun_count_removed c removed), h.hart_succ_mask rfl rfl, slice, bit, removed]
      rfl

/-! xlook (R330). -/

/-- What xlook does (R330). -/
def State.lookRun (s : State) (f : Fmt) (d a : VReg) (c : MReg) (e : Option MReg) : PadRun where
  slice _ := s.cur.xents
  count _ := 0
  slots p := if s.activeNo e p then valueSlots f d ((findKey (s.keyNo a p) s.cur.xents).getD 0) else []
  mask := some c
  bit p := BitVec.ofBool (s.activeNo e p && hasKey s.cur.xents (s.keyNo a p))
  flags _ := 0

theorem lookRun_serves (hp : s.cur.xPlace = .here) (hsh : s.Shaped) (f : Fmt) (d a : VReg) (c : MReg) (e : Option MReg) :
    (s.lookRun f d a c e).Serves s (.xlook f d a c e) := by
  intro k op u hk h
  have hu := h.spots
  have entries : u.cur.xents = s.cur.xents := h.entries
  have slice : (s.lookRun f d a c e).slice (k + 1) = u.cur.xents := h.entries.symm
  have unit : serveUnit op u = unitXlook f d a c e op u := by rw [serveUnit, h.instr]
  rw [unit, h.next_same rfl]
  unfold unitXlook
  rw [bind_ok (requireSlice_here (h.place.trans hp) op)]
  dsimp only
  rw [bind_ok (isActive_clean hu ..), h.active_eq hsh hk]
  cases act : s.activeNo e k with
  | false =>
    have slots : (s.lookRun f d a c e).slots k = [] := by simp only [State.lookRun, act, Bool.false_eq_true, if_false]
    have bit : (s.lookRun f d a c e).bit k = 0 := by simp only [State.lookRun, act, Bool.false_and]; rfl
    rw [if_neg Bool.false_ne_true, bind_ok (wrM_clean hu ..), pure_apply, h.hart_succ_mask rfl rfl, slots, bit, slice]
    rfl
  | true =>
    rw [if_pos rfl]
    have slots : (s.lookRun f d a c e).slots k = valueSlots f d ((findKey (s.keyNo a k) u.cur.xents).getD 0) := by
      simp only [State.lookRun, act, if_true, entries]
    have bit : (s.lookRun f d a c e).bit k = BitVec.ofBool (hasKey u.cur.xents (s.keyNo a k)) := by
      simp only [State.lookRun, act, Bool.true_and, entries]
    rw [bind_ok (keyAt_clean hu ..), h.keyOf_eq hsh hk, hart_bind_apply, h.hart_succ_mask rfl rfl, slots, bit, slice]
    cases found : findKey (s.keyNo a k) u.cur.xents with
    | none =>
      dsimp only
      rw [not_hasKey_of_findKey found, bind_ok (putStored_clean hu ..), bind_ok (wrM_clean (by exact hu) ..),
        pure_apply]
      rfl
    | some x =>
      dsimp only
      rw [hasKey_of_findKey found, bind_ok (putStored_clean hu ..), bind_ok (wrM_clean (by exact hu) ..),
        pure_apply]
      rfl

/-! xdrain (R332). -/

/-- The entry that xdrain takes at a position: zeros where none is left. -/
def State.drained (s : State) (p : Nat) : XEntry := s.cur.xents.getD p { key := 0, val := 0 }

/-- What xdrain does (R332). -/
def State.drainRun (s : State) (f : Fmt) (a b : VReg) : PadRun where
  slice n := s.cur.xents.drop n
  count n := min n s.cur.xents.length
  slots p := valueSlots f b (s.drained p).val ++ keySlots a (s.drained p).key
  mask := none
  bit _ := 0
  flags _ := 0

theorem putSlots_append (v : Sparse 32) (r j : Nat) (ws zs : List (Nat × Slot)) :
    putSlots v r j (ws ++ zs) = putSlots (putSlots v r j zs) r j ws := List.foldr_append

/-- Writing an entry to a position: its key, then its value (R323). -/
theorem putEntry_clean (hu : u.spots = []) (f : Fmt) (a b : VReg) (r j : Nat) (k x : Word) {α : Type} (m : M α) :
    (wrV a r j (k.extractLsb' 0 32) >>= fun _ => wrV (pairReg a) r j (k.extractLsb' 32 32) >>= fun _ =>
        putStored f b r j x >>= fun _ => m) u =
      m (u.front (u.cur.putSlots r j (valueSlots f b x ++ keySlots a k))) := by
  rw [bind_ok (wrV_clean hu ..), bind_ok (wrV_clean (by exact hu) ..), bind_ok (putStored_clean (by exact hu) ..)]
  unfold Hart.putSlots
  simp only [putSlots_append]
  rfl

/-- The hart after a position of xdrain. -/
theorem drainRun_hart {i : Instr} {f : Fmt} {a b : VReg} (h : (s.drainRun f a b).At s i k op u) :
    (s.drainRun f a b).hartAt s (k + 1) u.cur = ({ u.cur with xents := s.cur.xents.drop (k + 1) } : Hart).putSlots op.r op.j
      (valueSlots f b (s.drained k).val ++ keySlots a (s.drained k).key) := by
  have flags : (s.drainRun f a b).flags k = 0 := rfl
  rw [h.hart_succ, flags, padPosition_noFlag]
  rfl

theorem drainRun_serves (hp : s.cur.xPlace = .here) (f : Fmt) (d : GReg) (a b : VReg) :
    (s.drainRun f a b).Serves s (.xdrain f d a b) := by
  intro k op u hk h
  have hu := h.spots
  have entries : u.cur.xents = s.cur.xents.drop k := h.entries
  have unit : serveUnit op u = unitXdrain f a b op u := by rw [serveUnit, h.instr]
  have taken : s.drained k = (u.cur.xents.head?).getD { key := 0, val := 0 } := by
    rw [State.drained, List.getD_eq_getElem?_getD, entries, List.head?_drop]
  have rest : s.cur.xents.drop (k + 1) = u.cur.xents.tail := by rw [entries, List.tail_drop]
  have length : u.cur.xents.length = s.cur.xents.length - k := by rw [entries, List.length_drop]
  rw [unit, drainRun_hart h]
  unfold unitXdrain
  rw [bind_ok (requireSlice_here (h.place.trans hp) op)]
  dsimp only
  rw [hart_bind_apply]
  cases left : u.cur.xents with
  | nil =>
    have all : (s.drainRun f a b).count (k + 1) = (s.drainRun f a b).count k := by
      rw [left] at length
      show min (k + 1) s.cur.xents.length = min k s.cur.xents.length
      have := length.symm
      simp only [List.length_nil] at this
      omega
    have zeros : s.drained k = { key := 0, val := 0 } := by rw [taken, left]; rfl
    have same : s.cur.xents.drop (k + 1) = u.cur.xents := by rw [rest, left]; rfl
    rw [h.next_same all, zeros, same]
    exact putEntry_clean hu f a b op.r op.j 0 0 _
  | cons x t =>
    have one : (s.drainRun f a b).count (k + 1) = (s.drainRun f a b).count k + 1 := by
      rw [left] at length
      show min (k + 1) s.cur.xents.length = min k s.cur.xents.length + 1
      simp only [List.length_cons] at length
      omega
    have first : s.drained k = x := by rw [taken, left]; rfl
    have others : s.cur.xents.drop (k + 1) = t := by rw [rest, left]; rfl
    rw [h.next_counted one, first, others]
    exact putEntry_clean hu f a b op.r op.j x.key x.val _

end Sys2Proof.Machine
end

section
/-!
SUPPORT. xins and xacc at each of their positions (R322, R329).
-/

namespace Sys2Proof.Machine

variable {s u : State} {k : Nat} {op : VOp}

/-! The slice as positions insert into it. -/

/-- Where keys stand once, an entry is known by its key. -/
theorem eq_of_key_eq {l : List XEntry} (hn : (l.map XEntry.key).Nodup) {y z : XEntry} (hy : y ∈ l) (hz : z ∈ l)
    (same : y.key = z.key) : y = z := by
  obtain ⟨i, hi, rfl⟩ := List.mem_iff_getElem.mp hy
  obtain ⟨j, hj, rfl⟩ := List.mem_iff_getElem.mp hz
  have place : i = j := (List.getElem_inj (h₀ := by rwa [List.length_map]) (h₁ := by rwa [List.length_map]) hn).mp (by
    rwa [List.getElem_map, List.getElem_map])
  cases place
  rfl

/-- Where keys stand once, replacing a key's value by one made of its first value is replacing every such value. -/
theorem replaceKey_eq_map {l : List XEntry} (hn : (l.map XEntry.key).Nodup) {k old : Word} (h : findKey k l = some old)
    (g : Word → Word) :
    replaceKey k (g old) l = l.map fun y => if y.key = k then { y with val := g y.val } else y := by
  obtain ⟨z, hz, rfl⟩ := Option.map_eq_some_iff.mp h
  have zkey : z.key = k := beq_iff_eq.mp (List.find?_some (p := fun y : XEntry => y.key == k) hz)
  have only : ∀ y ∈ l, y.key = k → y = z := fun y hy hk =>
    eq_of_key_eq hn hy (List.mem_of_find?_eq_some hz) (hk.trans zkey.symm)
  refine List.map_congr_left fun y hy => ?_
  split
  · next hk => rw [only y hy hk]
  · rfl

/-- The value that a key has is that of its first entry. -/
theorem findKey_eq {l : List XEntry} {k x : Word} (h : findKey k l = some x) :
    ∃ y, l.find? (fun y => y.key == k) = some y ∧ y.val = x := Option.map_eq_some_iff.mp h

section
variable (s : State) (e : Option MReg) (a b : VReg) (f : Fmt) (g : Word → Word → Word)

theorem sliceAfter_succ (n : Nat) : s.sliceAfter e a b f g (n + 1) =
    if s.activeNo e n then
      if hasKey (s.sliceAfter e a b f g n) (s.keyNo a n) then
        (s.sliceAfter e a b f g n).map fun y =>
          if y.key = s.keyNo a n then { y with val := g y.val (s.valueNo f b n) } else y
      else s.sliceAfter e a b f g n ++ [{ key := s.keyNo a n, val := s.valueNo f b n }]
    else s.sliceAfter e a b f g n := rfl

theorem map_val_keys (l : List XEntry) (k : Word) (x : XEntry → Word) :
    (l.map fun y => if y.key = k then { y with val := x y } else y).map XEntry.key = l.map XEntry.key := by
  rw [List.map_map]
  refine List.map_congr_left fun y _ => ?_
  simp only [Function.comp_apply]
  split <;> rfl

/-- Insertions keep every key once. -/
theorem sliceAfter_nodup (hn : (s.cur.xents.map XEntry.key).Nodup) (n : Nat) :
    ((s.sliceAfter e a b f g n).map XEntry.key).Nodup := by
  induction n with
  | zero => exact hn
  | succ n ih =>
    rw [sliceAfter_succ]
    split
    · split
      · rwa [map_val_keys]
      · next absent =>
        rw [List.map_append, List.map_cons, List.map_nil]
        refine List.nodup_append.mpr ⟨ih, List.pairwise_singleton .., fun x hx y hy => ?_⟩
        obtain ⟨z, hz, rfl⟩ := List.mem_map.mp hx
        rw [List.mem_singleton.mp hy]
        exact fun same => absent (List.any_eq_true.mpr ⟨z, hz, beq_iff_eq.mpr same⟩)
    · exact ih

/-- A position makes the slice longer by at most its own entry. -/
theorem sliceAfter_length_succ (n : Nat) : (s.sliceAfter e a b f g (n + 1)).length =
    (s.sliceAfter e a b f g n).length +
      (s.activeNo e n && !hasKey (s.sliceAfter e a b f g n) (s.keyNo a n)).toNat := by
  rw [sliceAfter_succ]
  cases s.activeNo e n with
  | false => rfl
  | true => cases hasKey (s.sliceAfter e a b f g n) (s.keyNo a n) <;> simp

theorem sliceAfter_length_mono {m n : Nat} (h : m ≤ n) :
    (s.sliceAfter e a b f g m).length ≤ (s.sliceAfter e a b f g n).length := by
  induction h with
  | refl => exact Nat.le_refl _
  | step _ ih =>
    rw [sliceAfter_length_succ]
    exact Nat.le_trans ih (Nat.le_add_right ..)

end

/-! The positions. -/

/-- What an instruction does that inserts new keys and combines the values of present ones (R329). -/
def State.insertRun (s : State) (f : Fmt) (a b : VReg) (c : MReg) (e : Option MReg) (comb : Word → Word → Word × BitVec 5) :
    PadRun where
  slice := s.sliceAfter e a b f fun x y => (comb x y).1
  count n := (s.sliceAfter e a b f (fun x y => (comb x y).1) n).length - s.cur.xents.length
  slots _ := []
  mask := some c
  bit p := BitVec.ofBool
    (s.activeNo e p && !hasKey (s.sliceAfter e a b f (fun x y => (comb x y).1) p) (s.keyNo a p))
  flags p :=
    if s.activeNo e p then
      match (s.sliceAfter e a b f (fun x y => (comb x y).1) p).find? fun y => y.key == s.keyNo a p with
      | some y => (comb y.val (s.valueNo f b p)).2
      | none => 0
    else 0

variable {f : Fmt} {a b : VReg} {c : MReg} {e : Option MReg} {comb : Word → Word → Word × BitVec 5}

theorem insertRun_count_succ (n : Nat) : (s.insertRun f a b c e comb).count (n + 1) =
    (s.insertRun f a b c e comb).count n +
      (s.activeNo e n && !hasKey ((s.insertRun f a b c e comb).slice n) (s.keyNo a n)).toNat := by
  show (s.sliceAfter _ _ _ _ _ (n + 1)).length - _ = (s.sliceAfter _ _ _ _ _ n).length - _ + _
  rw [sliceAfter_length_succ]
  have grown : s.cur.xents.length ≤ (s.sliceAfter e a b f (fun x y => (comb x y).1) n).length :=
    sliceAfter_length_mono s e a b f _ (Nat.zero_le n)
  exact Nat.sub_add_comm grown

/-- A new key finds room, where the slice after the whole sweep fits. -/
theorem insertRun_room (room : ((s.insertRun f a b c e comb).slice s.sweepLen).length ≤ s.cur.xcap) (hk : k < s.sweepLen)
    (act : s.activeNo e k = true) (absent : hasKey ((s.insertRun f a b c e comb).slice k) (s.keyNo a k) = false) :
    ((s.insertRun f a b c e comb).slice k).length < s.cur.xcap := by
  have longer := sliceAfter_length_succ s e a b f (fun x y => (comb x y).1) k
  rw [act, show hasKey (s.sliceAfter e a b f (fun x y => (comb x y).1) k) (s.keyNo a k) = false from absent] at longer
  have most := sliceAfter_length_mono s e a b f (fun x y => (comb x y).1) (Nat.succ_le_of_lt hk)
  have grown : (s.sliceAfter e a b f (fun x y => (comb x y).1) k).length <
      (s.sliceAfter e a b f (fun x y => (comb x y).1) (k + 1)).length := by
    rw [longer]
    exact Nat.lt_succ_self _
  exact Nat.lt_of_lt_of_le grown (Nat.le_trans most room)

/-- A position of an insertion: an inactive one clears its mask bit; an active one combines the value of a present key, or
appends a new key and sets its mask bit (R329). -/
theorem insertPos_insertRun {i : Instr} (hp : s.cur.xPlace = .here) (hsh : s.Shaped) (hn : (s.cur.xents.map XEntry.key).Nodup)
    (room : ((s.insertRun f a b c e comb).slice s.sweepLen).length ≤ s.cur.xcap) (hk : k < s.sweepLen)
    (h : (s.insertRun f a b c e comb).At s i k op u) :
    insertPos f a b c e comb op u =
      .ok ((s.insertRun f a b c e comb).next op) (u.front ((s.insertRun f a b c e comb).hartAt s (k + 1) u.cur)) := by
  have hu := h.spots
  have slice : (s.insertRun f a b c e comb).slice (k + 1) = _ := sliceAfter_succ s e a b f (fun x y => (comb x y).1) k
  have entries : u.cur.xents = s.sliceAfter e a b f (fun x y => (comb x y).1) k := h.entries
  have count := insertRun_count_succ (s := s) (f := f) (a := a) (b := b) (c := c) (e := e) (comb := comb) k
  rw [← h.entries] at count
  have bit : (s.insertRun f a b c e comb).bit k =
      BitVec.ofBool (s.activeNo e k && !hasKey u.cur.xents (s.keyNo a k)) := by rw [h.entries]; rfl
  have flags : (s.insertRun f a b c e comb).flags k =
      if s.activeNo e k then
        match u.cur.xents.find? fun y => y.key == s.keyNo a k with
        | some y => (comb y.val (s.valueNo f b k)).2
        | none => 0
      else 0 := by rw [h.entries]; rfl
  rw [← entries] at slice
  unfold insertPos
  rw [bind_ok (requireSlice_here (h.place.trans hp) op)]
  dsimp only
  rw [bind_ok (isActive_clean hu ..), h.active_eq hsh hk]
  cases act : s.activeNo e k with
  | false =>
    simp only [act, Bool.false_and, Bool.false_eq_true, if_false, Bool.toNat_false, Nat.add_zero] at slice count bit flags
    rw [if_neg Bool.false_ne_true, bind_ok (wrM_clean hu ..), pure_apply, h.next_same count, h.hart_succ_mask flags rfl,
      slice, bit]
    rfl
  | true =>
    simp only [act, Bool.true_and, if_true] at slice count bit flags
    rw [if_pos rfl, bind_ok (keyAt_clean hu ..), h.keyOf_eq hsh hk, bind_ok (storedAt_clean hu ..), h.valueOf_eq hsh hk,
      hart_bind_apply]
    cases found : findKey (s.keyNo a k) u.cur.xents with
    | none =>
      have absent := not_hasKey_of_findKey found
      have nowhere : (u.cur.xents.find? fun y => y.key == s.keyNo a k) = none := Option.map_eq_none_iff.mp found
      simp only [absent, nowhere, Bool.not_false, Bool.false_eq_true, if_false, Bool.toNat_true] at slice count bit flags
      have fits : ¬u.cur.xcap ≤ u.cur.xents.length := by
        rw [h.room, h.entries, Nat.not_le]
        exact insertRun_room room hk act (h.entries ▸ absent)
      dsimp only
      rw [if_neg fits]
      unfold modSlice
      rw [modHart_bind_apply, bind_ok (wrM_clean (by exact hu) ..), pure_apply, h.next_counted count,
        h.hart_succ_mask flags rfl, slice, bit]
      rfl
    | some old =>
      have present := hasKey_of_findKey found
      obtain ⟨y, first, value⟩ := findKey_eq found
      have once : (u.cur.xents.map XEntry.key).Nodup := by rw [entries]; exact sliceAfter_nodup s e a b f _ hn k
      simp only [present, first, Bool.not_true, if_true, Bool.toNat_false, Nat.add_zero] at slice count bit flags
      rw [← replaceKey_eq_map once found fun x => (comb x (s.valueNo f b k)).1] at slice
      dsimp only
      unfold modSlice raiseFl
      rw [modHart_bind_apply, modHart_bind_apply, bind_ok (wrM_clean (by exact hu) ..), pure_apply, h.next_same count,
        h.hart_succ, slice, bit, flags, value]
      rfl

end Sys2Proof.Machine
end

section
/-!
SUPPORT. Entering the handler: what a terminating trap and a resumable fault leave in the registers, the trap registers and the
slice of the hart (R389, R390, R392).
-/

namespace Sys2Proof.Machine

/-- Two harts with the same saved registers, trap registers and slice. -/
structure Hart.Alike (h k : Hart) : Prop where
  ctx : k.ctx = h.ctx
  trap : k.trap = h.trap
  xents : k.xents = h.xents

theorem Hart.Alike.refl (h : Hart) : h.Alike h := ⟨rfl, rfl, rfl⟩

theorem Hart.Alike.trans {h k l : Hart} (hk : h.Alike k) (kl : k.Alike l) : h.Alike l :=
  ⟨kl.ctx.trans hk.ctx, kl.trap.trans hk.trap, kl.xents.trans hk.xents⟩

/-! Settling stores, tracing and logging leave those alone. -/

theorem alike_putVer (cs : List (Nat × Byte)) (h : Hart) : h.Alike (h.putVer cs) := by
  induction cs generalizing h with
  | nil => exact .refl h
  | cons c t ih =>
    have put : h.Alike { h with ver := AMap.put h.ver c.1 c.2 } := ⟨rfl, rfl, rfl⟩
    exact put.trans (ih _)

theorem alike_recordStore (h : Hart) (r : StoreFault) : h.Alike (h.recordStore r) := by
  unfold Hart.recordStore
  split <;> exact ⟨rfl, rfl, rfl⟩

theorem alike_storeTo {s t : State} {ea : Word} {bs : List Byte} (h : s.storeTo ea bs = .ok t) : s.cur.Alike t.cur := by
  unfold State.storeTo at h
  dsimp only at h
  split at h
  · split at h
    · cases h
      exact .refl _
    · cases h
  · split at h
    · cases h
      exact alike_putVer _ _
    · cases h

theorem alike_settleStores (l : List PendingStore) (s : State) : s.cur.Alike (settleStores s l).cur := by
  induction l generalizing s with
  | nil => exact .refl _
  | cons p t ih =>
    rw [settleStores]
    split
    · next stored => exact (alike_storeTo stored).trans (ih _)
    · dsimp only
      refine .trans ?_ (ih _)
      exact alike_recordStore ..

theorem alike_latch (s : State) (h : Hart) : h.Alike (h.latch s) := by
  unfold Hart.latch
  split
  · dsimp only
    split <;> exact ⟨rfl, rfl, rfl⟩
  · exact .refl h

theorem alike_writeHome {h : Hart} {s : State} (hs : h.Alike s.cur) (k : Option Nat) (cs : List (Nat × Byte)) :
    h.Alike (s.writeHome k cs).cur := by
  cases cs with
  | nil => exact hs
  | cons c t =>
    refine hs.trans ?_
    show s.cur.Alike (if s.cur.status = .absent then s.cur else s.cur.latch _)
    split
    · exact .refl _
    · exact alike_latch ..

theorem alike_traceHart (s : State) (kind : Nat) (pc a b : Word) : s.cur.Alike (s.traceHart kind pc a b).cur := by
  unfold State.traceHart State.traceOf
  split
  · exact .refl _
  · unfold State.traceEv
    dsimp only
    split
    · exact .refl _
    · split
      · exact .refl _
      · exact alike_writeHome (s := s.onDie _ _) (.refl _) ..

theorem alike_logError (s : State) (p kind : Nat) (ws : List Word) : s.cur.Alike (s.logError p kind ws).cur := by
  unfold State.logError
  split
  · exact .refl _
  · dsimp only
    split
    · exact .refl _
    · split
      · refine alike_writeHome (h := s.cur) ?_ ..
        exact .refl _
      · exact .refl _

theorem alike_unreserve (s : State) (p : Nat) (l : List KxIntent) : s.cur.Alike (s.unreserve p l).cur := by
  unfold State.unreserve State.onPart
  split <;> exact .refl _

theorem alike_dropVersion (s : State) : s.cur.Alike s.dropVersion.cur :=
  (alike_unreserve s s.cur.part s.cur.intents).trans ⟨rfl, rfl, rfl⟩

/-! Entering. -/

/-- What a hart holds that has entered its handler for a cause (R388, R390). -/
structure Hart.Handles (h k : Hart) (term : Bool) (code : BitVec 8) (tval tfpc : Word) : Prop where
  hdl : k.trap.hdl = true
  term : k.trap.term = term
  code : k.trap.code = code
  tval : k.trap.tval = tval
  tfpc : k.trap.tfpc = tfpc
  pc : k.ctx.pc = h.ctx.thb
  xents : k.xents = h.xents

/-- The hart whose report of a terminating trap stands, before its handler is entered. -/
structure Hart.Reports (h k : Hart) (code : BitVec 8) (tval tfpc : Word) : Prop where
  ctx : k.ctx = h.ctx
  hdl : k.trap.hdl = h.trap.hdl
  term : k.trap.term = true
  code : k.trap.code = code
  tval : k.trap.tval = tval
  tfpc : k.trap.tfpc = tfpc
  xents : k.xents = h.xents

theorem Hart.Reports.alike {h k l : Hart} {code : BitVec 8} {tval tfpc : Word} (r : h.Reports k code tval tfpc)
    (a : k.Alike l) : h.Reports l code tval tfpc := by
  obtain ⟨ctx, trap, xents⟩ := a
  obtain ⟨rctx, rhdl, rterm, rcode, rtval, rtfpc, rxents⟩ := r
  exact ⟨ctx.trans rctx, trap ▸ rhdl, trap ▸ rterm, trap ▸ rcode, trap ▸ rtval, trap ▸ rtfpc, xents.trans rxents⟩

/-- After the report the handler is entered, where it is open (R390). -/
theorem handles_afterTrap {h : Hart} {s : State} {code : Nat} {tval tfpc : Word}
    (r : h.Reports s.cur (BitVec.ofNat 8 code) tval tfpc) (hcode : code ≠ 30) (hthb : h.ctx.thb ≠ 0)
    (hhdl : h.trap.hdl = false) : h.Handles (s.afterTrap code).cur true (BitVec.ofNat 8 code) tval tfpc := by
  have isOpen : s.cur.ctx.thb ≠ 0 ∧ s.cur.trap.hdl = false ∧ code ≠ 30 := ⟨r.ctx ▸ hthb, r.hdl.trans hhdl, hcode⟩
  unfold State.afterTrap
  dsimp only
  rw [if_pos isOpen]
  exact ⟨rfl, r.term, r.code, r.tval, r.tfpc, congrArg Ctx.thb r.ctx, r.xents⟩

/-- A terminating trap of a hart whose handler is open enters it (R389, R390). -/
theorem handles_takeTrap (s : State) {code : Nat} (hcode : code ≠ 30) (tval tfpc : Word) (tlag : Nat)
    (hthb : s.cur.ctx.thb ≠ 0) (hhdl : s.cur.trap.hdl = false) :
    s.cur.Handles (s.takeTrap code tval tfpc tlag).cur true (BitVec.ofNat 8 code) tval tfpc := by
  have settled := alike_settleStores (s.cur.behind ++ s.cur.sq) s
  unfold State.takeTrap State.trapEntry
  generalize settleStores s (s.cur.behind ++ s.cur.sq) = u at settled ⊢
  have queue : u.cur.Alike u.cur.dropQueue := ⟨rfl, rfl, rfl⟩
  have dropped : s.cur.Alike ({ u with cur := u.cur.dropQueue } : State).dropVersion.cur :=
    settled.trans (queue.trans (alike_dropVersion { u with cur := u.cur.dropQueue }))
  generalize ({ u with cur := u.cur.dropQueue } : State).dropVersion = v at dropped ⊢
  obtain ⟨ctx, trap, xents⟩ := dropped
  refine handles_afterTrap (Hart.Reports.alike ?_ (.trans (alike_traceHart ..) (alike_logError ..))) hcode hthb hhdl
  have hdl : v.cur.trap.hdl = s.cur.trap.hdl := by rw [trap]
  exact ⟨ctx, hdl, rfl, rfl, rfl, rfl, xents⟩

/-- A resumable fault of a hart whose handler frame can be written enters the handler, and keeps the saved registers in the
frame (R392). -/
theorem handles_handlerEntry (s : State) (code : Nat) (tval tfpc : Word) (tlag : Nat)
    (hf : (s.framePa s.cur true).isSome = true) :
    s.cur.Handles (s.handlerEntry code tval tfpc tlag id).cur false (BitVec.ofNat 8 code) tval tfpc ∧
      ∃ q, (s.handlerEntry code tval tfpc tlag id).cur.hframe = some q ∧ q.ctx = s.cur.ctx := by
  have reached : ¬(s.framePa s.cur true).isNone = true := by
    rw [Option.isNone_iff_eq_none]
    exact Option.isSome_iff_ne_none.mp hf
  unfold State.handlerEntry
  dsimp only
  rw [if_neg reached]
  exact ⟨⟨rfl, rfl, rfl, rfl, rfl, rfl, rfl⟩, _, rfl, rfl⟩

/-! A frame's place depends on the tables and on memory. -/

/-- A walk reads committed memory. -/
theorem walk_same {s t : State} (hbad : t.badPa = s.badPa) (hdword : t.dword = s.dword) (hpart : t.part = s.part) (va : Nat) :
    ∀ level table, walk t va level table = walk s va level table := by
  intro level
  induction level with
  | zero => intro table; rw [walk_zero, walk_zero, hbad, hdword, hpart]
  | succ l ih =>
    intro table
    rw [walk_succ, walk_succ, hbad, hdword, hpart]
    simp only [ih]

/-- The handler frame of a hart stands where it stood, whatever the hart has done to its own registers. -/
theorem framePa_same (s : State) (n : Nat) {h k : Hart} (hpart : k.part = h.part) (htfb : k.tfb = h.tfb) (hdl : Bool) :
    (({ s with free := n } : State).front k).framePa k hdl = s.framePa h hdl := by
  have leaf (part va : Nat) : leafOf (({ s with free := n } : State).front k) part va = leafOf s part va := by
    unfold leafOf
    have parts : (({ s with free := n } : State).front k).parts = s.parts := rfl
    rw [parts]
    cases AMap.find? s.parts part with
    | none => rfl
    | some p =>
      dsimp only
      rw [walk_same (s := s) (t := ({ s with free := n } : State).front k) rfl rfl rfl]
      rfl
  unfold State.framePa
  rw [leaf, hpart, htfb]
  rfl

end Sys2Proof.Machine
end

section
/-!
The entries of the index scratchpad (R322, R323, R329 to R333).
-/

namespace Sys2Proof.Machine

variable {s t : State} {i : Instr} {M : PadRun}

/-! What a completed sweep says, in the terms of the shape. -/

theorem row_of_position {vl r j : Nat} (hj : j < vl) : (r * vl + j) / vl = r ∧ (r * vl + j) % vl = j := by
  obtain ⟨hr, hj'⟩ := position_unique hj rfl
  exact ⟨hr.symm, hj'.symm⟩

theorem keyNo_position (a : VReg) {r j : Nat} (hj : j < s.cur.ctx.vl) :
    s.keyNo a (r * s.cur.ctx.vl + j) = s.keyOf a r j := by
  obtain ⟨hr, hj⟩ := row_of_position (r := r) hj
  rw [State.keyNo, hr, hj]

theorem activeNo_position (e : Option MReg) {r j : Nat} (hj : j < s.cur.ctx.vl) :
    s.activeNo e (r * s.cur.ctx.vl + j) = s.cur.active e r j := by
  obtain ⟨hr, hj⟩ := row_of_position (r := r) hj
  rw [State.activeNo, hr, hj]

/-- A sweep that writes no strip slot keeps the strip registers. -/
theorem PadRun.Done.strips (h : M.Done i s t) (hw : ∀ p, M.slots p = []) : StripsKept s t := fun reg r j hr hj => by
  rw [h.slots reg r j hr hj, hw]
  exact ite_self _

/-- A sweep writes its mask register under the shape and no other. -/
theorem PadRun.Done.masks (h : M.Done i s t) {c : MReg} (hc : M.mask = some c) {val : Nat → Nat → BitVec 1}
    (hv : ∀ r j, j < s.cur.ctx.vl → M.bit (r * s.cur.ctx.vl + j) = val r j) :
    MaskWrites s t c (fun _ _ => true) val := fun reg r j hr hj => by
  rw [h.bits reg r j hr hj, hc]
  have named : Option.map BitVec.toNat (some c) = some reg ↔ reg = c.toNat := by
    rw [Option.map_some, Option.some_inj, eq_comm]
  simp only [named, and_true]
  split
  · next hin => exact hv r j (inShape_iff.mp hin.2).1
  · rfl

/-- A sweep without a mask register keeps them. -/
theorem PadRun.Done.noMasks (h : M.Done i s t) (hc : M.mask = none) : MasksKept s t := fun reg r j hr hj => by
  rw [h.bits reg r j hr hj, hc]
  exact if_neg fun hin => nomatch hin.1

theorem flagsOver_zero (n : Nat) : flagsOver (fun _ => 0) n = 0 := by
  induction n with
  | zero => rfl
  | succ n ih => rw [flagsOver, ih]; rfl

/-- A sweep that raises no flag keeps them. -/
theorem PadRun.Done.noFlags (h : M.Done i s t) (hf : M.flags = fun _ => 0) : t.cur.ctx.fflags = s.cur.ctx.fflags := by
  rw [h.flags, hf, flagsOver_zero]
  exact BitVec.or_zero

theorem PadRun.Done.others (h : M.Done i s t) {d : GReg} (hd : scalarDest i = some d) (r : GReg) (hr : r ≠ d) :
    t.cur.rd r = s.cur.rd r := h.regs r fun e => hr (Option.some.inj (e.symm.trans hd))

/-! Insertions (R329). -/

/-- xins and xacc begin at their first position where no restart is held (log 26). -/
theorem startOf_fresh (h : s.cur.ctx.vbeg = none) (f : Fmt) (d : GReg) (a b : VReg) (c : MReg) (e : Option MReg) :
    startOf s.cur (.xins f d a b c e) = (0, 0) ∧ startOf s.cur (.xacc f d a b c e) = (0, 0) := by
  constructor <;> (unfold startOf; rw [h])

/-- An instruction that inserts new keys and combines present ones completes where all of them find room. -/
theorem inserts_of_serves {f : Fmt} {gd : GReg} {a b : VReg} {c : MReg} {e : Option MReg}
    {comb : Word → Word → Word × BitVec 5} (hi : isXpad i = true) (hd : scalarDest i = some gd) (hs : s.Plain)
    (hsh : s.Shaped) (h0 : startOf s.cur i = (0, 0)) (hM : (s.insertRun f a b c e comb).Serves s i) :
    let slice := s.sliceAfter e a b f fun x y => (comb x y).1
    ∃ t, issuePlain i 0 0 0 s = .next t ∧ SliceFrame s t ∧ (StripsKept s t ∧ ∀ r, r ≠ gd → t.cur.rd r = s.cur.rd r) ∧
      t.cur.xents = slice s.sweepLen ∧
      MaskWrites s t c (fun _ _ => true) (fun r j => BitVec.ofBool
        (s.cur.active e r j && !hasKey (slice (r * s.cur.ctx.vl + j)) (s.keyOf a r j))) ∧
      t.cur.rd gd = (if gd = 0 then 0 else BitVec.ofNat 64 ((slice s.sweepLen).length - s.cur.xents.length)) ∧
      FlagWrites s t e fun r j =>
        match (slice (r * s.cur.ctx.vl + j)).find? fun y => y.key == s.keyOf a r j with
        | some y => (comb y.val (s.valueOf f b r j)).2
        | none => 0 := by
  intro slice
  obtain ⟨t, ran, done⟩ := issuePlain_completes (xpad_counts hi) hs hsh h0 (Nat.sub_self _) rfl hM
  refine ⟨t, ran, done.frame, ⟨done.strips fun _ => rfl, done.others hd⟩, done.entries, done.masks rfl fun r j hj => ?_,
    done.result gd hd, ?_⟩
  · show BitVec.ofBool (s.activeNo e _ && !hasKey _ (s.keyNo a _)) = _
    rw [activeNo_position e hj, keyNo_position a hj]
  · refine done.flags.trans (congrArg (fun g => s.cur.ctx.fflags ||| flagsOver g s.sweepLen) ?_)
    funext p
    dsimp only
    rw [Nat.div_add_mod']
    rfl

/-- The sums of xacc, as the statement writes them (R329). -/
theorem xcomb_cases (f : Fmt) (rm : RM) : xcomb f rm = fun old x =>
    match f with
    | .i64 => (old + x, 0)
    | .f32 =>
      let y := FF.f32.add rm (FF.f32.decode (old.toNat % 2 ^ 32)) (FF.f32.decode (x.toNat % 2 ^ 32))
      (BitVec.ofNat 64 y.code, y.fl)
    | _ => (((old.extractLsb' 0 32) + (x.extractLsb' 0 32)).signExtend 64, 0) := by
  funext old x
  cases f <;> rfl

section
variable (f : Fmt) (gd : GReg) (a b : VReg) (c : MReg) (e : Option MReg) (hp : s.cur.xPlace = .here) (hsh : s.Shaped)
  (hn : (s.cur.xents.map XEntry.key).Nodup)
include hp hsh hn

theorem insertRun_serves_xins (room : (s.sliceAfter e a b f (fun _ x => x) s.sweepLen).length ≤ s.cur.xcap) :
    (s.insertRun f a b c e fun _ x => (x, 0)).Serves s (.xins f gd a b c e) := by
  intro k op u hk h
  have unit : serveUnit op u = insertPos f a b c e (fun _ x => (x, 0)) op u := by
    rw [serveUnit, h.instr]
    rfl
  exact unit.trans (insertPos_insertRun hp hsh hn room hk h)

theorem insertRun_serves_xacc
    (room : (s.sliceAfter e a b f (fun x y => (xcomb f (RM.ofBits s.cur.ctx.rm) x y).1) s.sweepLen).length ≤ s.cur.xcap) :
    (s.insertRun f a b c e (xcomb f (RM.ofBits s.cur.ctx.rm))).Serves s (.xacc f gd a b c e) := by
  intro k op u hk h
  have mode : rmodeOf u.cur = RM.ofBits s.cur.ctx.rm := by
    obtain ⟨v, m, fl, rest⟩ :=
      ctxAt_rest (s.insertRun f a b c e (xcomb f (RM.ofBits s.cur.ctx.rm))) s.cur.retire.ctx s.cur.ctx.vl k
    rw [rmodeOf, h.ctx, rest]
    exact congrArg RM.ofBits (retire_ctx_rm s.cur)
  have unit : serveUnit op u = insertPos f a b c e (xcomb f (rmodeOf u.cur)) op u := by
    rw [serveUnit, h.instr]
    rfl
  rw [unit, mode]
  exact insertPos_insertRun hp hsh hn room hk h

end

/-! Writing keys and values. -/

theorem pair_next_ne (d : VReg) : (d + 1).toNat ≠ d.toNat := by bv_omega

theorem find_append {α : Type} (l m : AMap α) (k : Nat) : AMap.find? (l ++ m) k = (AMap.find? l k <|> AMap.find? m k) := by
  induction l with
  | nil => rfl
  | cons x t ih =>
    obtain ⟨j, y⟩ := x
    show (if j = k then some y else AMap.find? (t ++ m) k) = ((if j = k then some y else AMap.find? t k) <|> _)
    split
    · rfl
    · exact ih

/-- The slots of a value hold its low half, and of an i64 value its high half in the next register. -/
theorem find_valueSlots (f : Fmt) (d : VReg) (x : Word) (reg : Nat) : AMap.find? (valueSlots f d x) reg =
    if reg = d.toNat then some (x.extractLsb' 0 32)
    else if f = .i64 ∧ reg = (d + 1).toNat then some (x.extractLsb' 32 32) else none := by
  have apart := pair_next_ne d
  unfold valueSlots pairReg
  generalize (d + 1).toNat = next at apart ⊢
  by_cases hlo : reg = d.toNat
  · subst hlo
    by_cases hf : f = .i64 <;> simp [hf, AMap.find?, apart]
  · by_cases hf : f = .i64 <;> simp [hf, AMap.find?, hlo, Ne.symm hlo, eq_comm]

theorem find_keySlots (a : VReg) (k : Word) (reg : Nat) : AMap.find? (keySlots a k) reg =
    if reg = a.toNat then some (k.extractLsb' 0 32)
    else if reg = (a + 1).toNat then some (k.extractLsb' 32 32) else none := by
  have whole := find_valueSlots .i64 a k reg
  simp only [true_and] at whole
  exact whole

/-- xlook writes the value of a present key, else zero, at the active positions (R330). -/
theorem lookRun_slots (f : Fmt) (d a : VReg) (c : MReg) (e : Option MReg) (p reg : Nat) (old : Slot) :
    let x := (findKey (s.keyNo a p) s.cur.xents).getD 0
    (AMap.find? ((s.lookRun f d a c e).slots p) reg).getD old =
      if s.activeNo e p = true ∧ reg = d.toNat then x.extractLsb' 0 32
      else if s.activeNo e p = true ∧ f = .i64 ∧ reg = (d + 1).toNat then x.extractLsb' 32 32 else old := by
  show (AMap.find? (if s.activeNo e p then _ else []) reg).getD old = _
  cases s.activeNo e p with
  | false => rfl
  | true =>
    rw [if_pos rfl, find_valueSlots]
    simp only [true_and]
    split
    · rfl
    · split <;> rfl

/-- The next register of an even one is odd (R32). -/
theorem even_pairs_apart {a b : VReg} (ha : evenReg a = true) (hb : evenReg b = true) (hba : b ≠ a) :
    (b + 1).toNat ≠ a.toNat ∧ (b + 1).toNat ≠ (a + 1).toNat := by
  have ha := beq_iff_eq.mp ha
  have hb := beq_iff_eq.mp hb
  constructor <;> bv_omega

/-- xdrain writes the entry taken, or zeros, to the key and value registers of a position (R332). -/
theorem drainRun_slots {f : Fmt} {a b : VReg} (ha : evenReg a = true) (hb : pairOk f b = true) (hba : b ≠ a)
    (hba1 : b ≠ a + 1) (p reg : Nat) (old : Slot) :
    (AMap.find? ((s.drainRun f a b).slots p) reg).getD old =
      if reg = a.toNat then (s.drained p).key.extractLsb' 0 32
      else if reg = (a + 1).toNat then (s.drained p).key.extractLsb' 32 32
      else if reg = b.toNat then (s.drained p).val.extractLsb' 0 32
      else if f = .i64 ∧ reg = (b + 1).toNat then (s.drained p).val.extractLsb' 32 32
      else old := by
  have ba : a.toNat ≠ b.toNat := fun h => hba (BitVec.eq_of_toNat_eq h.symm)
  have ba1 : (a + 1).toNat ≠ b.toNat := fun h => hba1 (BitVec.eq_of_toNat_eq h.symm)
  have pairs : f = .i64 → a.toNat ≠ (b + 1).toNat ∧ (a + 1).toNat ≠ (b + 1).toNat := fun hf => by
    subst hf
    have apart := even_pairs_apart ha hb hba
    exact ⟨apart.1.symm, apart.2.symm⟩
  show (AMap.find? (valueSlots f b _ ++ keySlots a _) reg).getD old = _
  rw [find_append, find_valueSlots, find_keySlots]
  by_cases h0 : reg = a.toNat
  · rw [if_pos h0, if_neg (h0 ▸ ba), if_neg fun h => (pairs h.1).1 (h0 ▸ h.2), if_pos h0]
    rfl
  · by_cases h1 : reg = (a + 1).toNat
    · rw [if_neg h0, if_pos h1, if_neg (h1 ▸ ba1), if_neg fun h => (pairs h.1).2 (h1 ▸ h.2), if_neg h0, if_pos h1]
      rfl
    · simp only [if_neg h0, if_neg h1]
      split
      · rfl
      · split <;> rfl

end Sys2Proof.Machine
end

section
/-!
The index scratchpad (R322, R323, R326, R329 to R333, R385, R390): the instructions that settle the obligation.
-/

namespace Sys2Proof.Machine

variable {s : State}

/-! xlook, xdel and xdrain complete (R330 to R332). -/

theorem findKey_getD (l : List XEntry) (k : Word) : (findKey k l).getD 0 =
    match l.find? fun y => y.key == k with
    | some y => y.val
    | none => 0 := by
  unfold findKey
  cases l.find? fun y => y.key == k <;> rfl

theorem xlook_completes (hs : s.Plain) (hsh : s.Shaped) (hp : s.cur.xPlace = .here) (f : Fmt) (d a : VReg) (c : MReg)
    (e : Option MReg) :
    let val : Nat → Nat → Word := fun r j =>
      match s.cur.xents.find? fun y => y.key == s.keyOf a r j with
      | some y => y.val
      | none => 0
    ∃ t, exec (.xlook f d a c e) s = .next t ∧ SliceFrame s t ∧ t.cur.xents = s.cur.xents ∧
      (∀ r, t.cur.rd r = s.cur.rd r) ∧ t.cur.ctx.fflags = s.cur.ctx.fflags ∧
      MaskWrites s t c (fun _ _ => true) (fun r j =>
        BitVec.ofBool (s.cur.active e r j && hasKey s.cur.xents (s.keyOf a r j))) ∧
      ∀ reg r j, r < 8 → j < 1024 →
        t.cur.slotV reg r j =
          if s.inShape r j = true ∧ s.cur.active e r j = true ∧ reg = d.toNat then (val r j).extractLsb' 0 32
          else if s.inShape r j = true ∧ s.cur.active e r j = true ∧ f = .i64 ∧ reg = (d + 1).toNat then
            (val r j).extractLsb' 32 32
          else s.cur.slotV reg r j := by
  intro val
  obtain ⟨t, ran, done⟩ := issuePlain_completes (xpad_counts rfl) hs hsh rfl rfl rfl (lookRun_serves hp hsh f d a c e)
  refine ⟨t, ran, done.frame, done.entries, fun r => done.regs r nofun, done.noFlags rfl, done.masks rfl fun r j hj => ?_,
    fun reg r j hr hj => ?_⟩
  · show BitVec.ofBool (s.activeNo e _ && hasKey _ (s.keyNo a _)) = _
    rw [activeNo_position e hj, keyNo_position a hj]
  · rw [done.slots reg r j hr hj]
    cases hin : s.inShape r j with
    | false => simp
    | true =>
      have hjv := (inShape_iff.mp hin).1
      rw [if_pos rfl, lookRun_slots, activeNo_position e hjv, keyNo_position a hjv, findKey_getD]
      simp only [true_and]
      rfl

theorem xdel_completes (hs : s.Plain) (hsh : s.Shaped) (hp : s.cur.xPlace = .here) (gd : GReg) (a : VReg) (c : MReg)
    (e : Option MReg) :
    ∃ t, exec (.xdel gd a c e) s = .next t ∧ SliceFrame s t ∧
      (StripsKept s t ∧ ∀ r, r ≠ gd → t.cur.rd r = s.cur.rd r) ∧ t.cur.ctx.fflags = s.cur.ctx.fflags ∧
      t.cur.xents = s.cur.xents.filter (fun y => !s.takenKey a e s.sweepLen y.key) ∧
      MaskWrites s t c (fun _ _ => true) (fun r j => BitVec.ofBool (s.cur.active e r j &&
        hasKey s.cur.xents (s.keyOf a r j) && !s.takenKey a e (r * s.cur.ctx.vl + j) (s.keyOf a r j))) ∧
      t.cur.rd gd = if gd = 0 then 0 else BitVec.ofNat 64 ((List.range s.sweepLen).countP (s.removes a e)) := by
  obtain ⟨t, ran, done⟩ := issuePlain_completes (xpad_counts rfl) hs hsh rfl rfl
    (List.filter_eq_self.mpr fun _ _ => rfl) (deleteRun_serves hp hsh gd a c e)
  refine ⟨t, ran, done.frame, ⟨done.strips fun _ => rfl, done.others rfl⟩, done.noFlags rfl, done.entries,
    done.masks rfl fun r j hj => ?_, done.result gd rfl⟩
  show BitVec.ofBool (s.activeNo e _ && hasKey _ (s.keyNo a _) && !s.takenKey a e _ (s.keyNo a _)) = _
  rw [activeNo_position e hj, keyNo_position a hj]

theorem xdrain_completes (hs : s.Plain) (hsh : s.Shaped) (hp : s.cur.xPlace = .here) {f : Fmt} (gd : GReg) {a b : VReg}
    (ha : evenReg a = true) (hb : pairOk f b = true) (hba : b ≠ a) (hba1 : b ≠ a + 1) :
    ∃ t, exec (.xdrain f gd a b) s = .next t ∧ SliceFrame s t ∧ MasksKept s t ∧ t.cur.ctx.fflags = s.cur.ctx.fflags ∧
      (∀ r, r ≠ gd → t.cur.rd r = s.cur.rd r) ∧ t.cur.xents = s.cur.xents.drop s.sweepLen ∧
      t.cur.rd gd = (if gd = 0 then 0 else BitVec.ofNat 64 (min s.sweepLen s.cur.xents.length)) ∧
      ∀ reg r j, r < 8 → j < 1024 →
        let y := s.drained (r * s.cur.ctx.vl + j)
        t.cur.slotV reg r j =
          if s.inShape r j = false then s.cur.slotV reg r j
          else if reg = a.toNat then y.key.extractLsb' 0 32
          else if reg = (a + 1).toNat then y.key.extractLsb' 32 32
          else if reg = b.toNat then y.val.extractLsb' 0 32
          else if f = .i64 ∧ reg = (b + 1).toNat then y.val.extractLsb' 32 32
          else s.cur.slotV reg r j := by
  obtain ⟨t, ran, done⟩ := issuePlain_completes (xpad_counts rfl) hs hsh rfl (Nat.zero_min _) rfl (drainRun_serves hp f gd a b)
  refine ⟨t, ran, done.frame, done.noMasks rfl, done.noFlags rfl, done.others rfl, done.entries, done.result gd rfl,
    fun reg r j hr hj => ?_⟩
  dsimp only
  rw [done.slots reg r j hr hj, drainRun_slots ha hb hba hba1]
  cases s.inShape r j <;> rfl

/-! xcnt and xclr (R333). -/

theorem awaitSlice_here (hq : s.cur.vq = []) (hp : s.cur.xPlace = .here) : awaitSlice s = .ok ⟨⟩ s := by
  unfold awaitSlice
  rw [hart_bind_apply, hq]
  show (drainXpad 0 >>= _) s = _
  rw [drainXpad, pure_bind_apply, hart_bind_apply, hp]
  rfl

theorem xcnt_does (hs : s.Plain) (hp : s.cur.xPlace = .here) (gd : GReg) (sel : Bool) :
    Does (.xcnt gd sel) s gd (BitVec.ofNat 64 (if sel then s.cur.xcap else s.cur.xents.length)) := by
  refine does_scalar (fun h => BitVec.ofNat 64 (if sel then h.xcap else h.xents.length)) hs.running ?_ rfl
  rw [exec_xcnt, scalar_running hs.running]
  exact runHart_ok hs.running ((bind_ok (awaitSlice_here hs.queue hp)).trans rfl)

theorem xclr_clears (hs : s.Plain) (hp : s.cur.xPlace = .here) (gd : GReg) : exec (.xclr gd) s = .next { s with cur :=
    (({ s.cur with xents := [] } : Hart).wr gd (BitVec.ofNat 64 s.cur.xents.length)).retire } := by
  rw [exec_xclr]
  exact runHart_ok hs.running ((bind_ok (awaitSlice_here hs.queue hp)).trans rfl)

/-! The full slice (R326, R385, R390). -/

/-- xins of a new key at its first position finds a full slice. -/
theorem serveUnit_full {f : Fmt} {gd : GReg} {a b : VReg} {c : MReg} {op : VOp} {u : State}
    (ho : op.i = .xins f gd a b c none) (hr : op.r = 0) (hj : op.j = 0) (hu : u.spots = []) (hp : u.cur.xPlace = .here)
    (absent : findKey (u.keyOf a 0 0) u.cur.xents = none) (full : u.cur.xcap ≤ u.cur.xents.length) :
    serveUnit op u = indexFull op u := by
  have unit : serveUnit op u = insertPos f a b c none (fun _ x => (x, 0)) op u := by
    rw [serveUnit, ho]
    rfl
  rw [unit]
  unfold insertPos
  rw [bind_ok (requireSlice_here hp op)]
  dsimp only
  rw [bind_ok (isActive_clean hu ..), hr, hj]
  show (keyAt op a 0 0 >>= _) u = _
  rw [bind_ok (keyAt_clean hu ..), bind_ok (storedAt_clean hu ..), hart_bind_apply, absent]
  dsimp only
  rw [if_pos full]

/-- The hart with the position at which its slice was full, and the count so far, kept for the restart (R326). -/
def Hart.heldAt (h : Hart) (op : VOp) : Hart := h.onCtx fun c => { c with vbeg := some op.pos, held := op.acc }

/-- The index-full fault of a hart without retired stores to perform: its handler, or a terminating trap (R385, R392). -/
theorem indexFull_leaves {op : VOp} {u : State} (hq : u.cur.sq = []) : (indexFull op : M VOp) u =
    .error .left
      (if (u.cur.heldAt op).handlerOpen && (u.cur.heldAt op).ctx.thmask.getLsbD 0 then
        (u.front (u.cur.heldAt op)).handlerEntry 5 (BitVec.ofNat 64 op.pos) op.opc ((u.cur.heldAt op).retired - op.at_) id
      else
        (u.front (u.cur.heldAt op)).takeTrap 5 (BitVec.ofNat 64 op.pos) op.opc ((u.cur.heldAt op).retired - op.at_)) := by
  unfold indexFull
  rw [hart_bind_apply, hq]
  show (performBefore op.at_ 0 >>= _) u = _
  rw [performBefore, pure_bind_apply, modHart_bind_apply, get_bind_apply]
  dsimp only
  rw [ite_apply]
  show (if (u.cur.heldAt op).handlerOpen && (u.cur.heldAt op).ctx.thmask.getLsbD 0 then _ else _) = _
  split <;> rfl

/-- A key reads the strip registers only. -/
theorem keyOf_same {u : State} (h : u.cur.ctx.v = s.cur.ctx.v) (a : VReg) (r j : Nat) : u.keyOf a r j = s.keyOf a r j := by
  unfold State.keyOf Hart.slotV
  rw [h]

/-- What a hart holds in its handler is told from any hart with the same handler address and slice. -/
theorem Hart.Handles.of_same {h l k : Hart} {term : Bool} {code : BitVec 8} {tval tfpc : Word}
    (r : l.Handles k term code tval tfpc) (hthb : l.ctx.thb = h.ctx.thb) (hx : l.xents = h.xents) :
    h.Handles k term code tval tfpc :=
  ⟨r.hdl, r.term, r.code, r.tval, r.tfpc, r.pc.trans hthb, r.xents.trans hx⟩

/-- The index-full fault at the first position enters the handler with cause 5: resumable where the handler takes it, and then
the frame keeps the position and the count; else as a terminating trap (R326, R385, R390, R392). -/
theorem indexFull_handles {op : VOp} {u : State} (hpos : op.pos = 0) (hacc : op.acc = 0) (hthb : u.cur.ctx.thb ≠ 0)
    (hhdl : u.cur.trap.hdl = false) (frame : ((u.front (u.cur.heldAt op)).framePa (u.cur.heldAt op) true).isSome = true)
    (hq : u.cur.sq = []) :
    ∃ t, (indexFull op : M VOp) u = .error .left t ∧
      u.cur.Handles t.cur (!(u.cur.ctx.thmask.getLsbD 0)) 5 0 op.opc ∧
      (u.cur.ctx.thmask.getLsbD 0 = true → ∃ q, t.cur.hframe = some q ∧ q.ctx.vbeg = some 0 ∧ q.ctx.held = 0) := by
  have isOpen : (u.cur.heldAt op).handlerOpen = true := by
    show (u.cur.ctx.thb != 0 && !u.cur.trap.hdl) = true
    rw [hhdl, bne_iff_ne.mpr hthb]
    rfl
  have mask : (u.cur.heldAt op).ctx.thmask = u.cur.ctx.thmask := rfl
  refine ⟨_, indexFull_leaves hq, ?_⟩
  rw [isOpen, Bool.true_and, mask, hpos]
  cases u.cur.ctx.thmask.getLsbD 0 with
  | false =>
    rw [if_neg Bool.false_ne_true]
    exact ⟨(handles_takeTrap (u.front (u.cur.heldAt op)) (code := 5) (by decide) 0 op.opc _ hthb hhdl).of_same rfl rfl, nofun⟩
  | true =>
    rw [if_pos rfl]
    obtain ⟨handles, q, hq, hctx⟩ :=
      handles_handlerEntry (u.front (u.cur.heldAt op)) 5 0 op.opc ((u.cur.heldAt op).retired - op.at_) frame
    refine ⟨handles.of_same rfl rfl, fun _ => ⟨q, hq, ?_, ?_⟩⟩
    · rw [hctx]
      exact congrArg some hpos
    · rw [hctx]
      exact hacc

theorem xins_full (hs : s.Plain) (hp : s.cur.xPlace = .here) (hb : s.cur.ctx.vbeg = none) (hvl : s.cur.ctx.vl ≠ 0)
    (hnr : s.cur.ctx.nr ≠ 0) (full : s.cur.xcap ≤ s.cur.xents.length) (f : Fmt) (gd : GReg) {a : VReg} (b : VReg) (c : MReg)
    (new : ∀ y ∈ s.cur.xents, y.key ≠ s.keyOf a 0 0) (hthb : s.cur.ctx.thb ≠ 0) (hhdl : s.cur.trap.hdl = false)
    (frame : (s.framePa s.cur true).isSome = true) :
    ∃ t, exec (.xins f gd a b c none) s = .next t ∧
      s.cur.Handles t.cur (!(s.cur.ctx.thmask.getLsbD 0)) 5 0 s.cur.ctx.pc ∧
      (s.cur.ctx.thmask.getLsbD 0 = true → ∃ q, t.cur.hframe = some q ∧ q.ctx.vbeg = some 0 ∧ q.ctx.held = 0) := by
  have hi : Counts (.xins f gd a b c none) := xpad_counts rfl
  have h0 := (startOf_fresh hb f gd a b c none).1
  have none_new : (s.insertRun f a b c none fun _ x => (x, 0)).count 0 = 0 := Nat.sub_self _
  have start := at_entered hi hs h0 none_new rfl
  have ctx := entered_ctx hs.queue (.xins f gd a b c none)
  have xents := entered_xents hs.queue (.xins f gd a b c none)
  have trap := entered_trap hs.queue (.xins f gd a b c none)
  have stores := (entered_sq hs.queue (.xins f gd a b c none)).trans hs.stores
  have acc : (enterOp s (.xins f gd a b c none) 0 0 0 none).acc = 0 := congrArg Prod.snd h0
  have key := keyOf_same (ctx ▸ retire_ctx_v s.cur) a 0 0
  have thb : (s.entered (.xins f gd a b c none)).cur.ctx.thb = s.cur.ctx.thb := ctx ▸ retire_ctx_thb s.cur
  have thmask : (s.entered (.xins f gd a b c none)).cur.ctx.thmask = s.cur.ctx.thmask := ctx ▸ retire_ctx_thmask s.cur
  have reached (op : VOp) : (((s.entered (.xins f gd a b c none)).front
      ((s.entered (.xins f gd a b c none)).cur.heldAt op)).framePa
        ((s.entered (.xins f gd a b c none)).cur.heldAt op) true).isSome = true := by
    have place := framePa_same s (s.free + 1) (k := (s.entered (.xins f gd a b c none)).cur.heldAt op)
      (entered_part hs.queue _) (entered_tfb hs.queue _) true
    exact place ▸ frame
  have issued := issuePlain_counts hi hs h0
  have first : (0 : Nat) < s.sweepLen := Nat.mul_pos
    (Nat.pos_of_ne_zero fun h => hnr (BitVec.eq_of_toNat_eq h)) (Nat.pos_of_ne_zero hvl)
  have opc : (enterOp s (.xins f gd a b c none) 0 0 0 none).opc = s.cur.ctx.pc := rfl
  generalize s.entered (.xins f gd a b c none) = u at *
  generalize enterOp s (.xins f gd a b c none) 0 0 0 none = op at *
  have absent : findKey (u.keyOf a 0 0) u.cur.xents = none := by
    rw [key, xents]
    exact Option.map_eq_none_iff.mpr (List.find?_eq_none.mpr fun y hy h => new y hy (beq_iff_eq.mp h))
  have noRoom : u.cur.xcap ≤ u.cur.xents.length := by
    rw [start.room, xents]
    exact full
  obtain ⟨t, stops, handles, kept⟩ :=
    indexFull_handles start.pos acc (thb ▸ hthb) (trap ▸ hhdl) (reached op) stores
  have unit := (serveUnit_full start.instr (start.r_eq.trans (Nat.zero_div _)) (start.j_eq.trans (Nat.zero_mod _))
    start.spots (start.place.trans hp) absent noRoom).trans stops
  have head := (serveHead_unit hi start (by rw [start.pos, start.len]; exact first)).trans (bind_error unit)
  have ran := (serveN_busy op.len start.queue).trans (bind_error head)
  rw [thmask] at handles kept
  rw [opc] at handles
  exact ⟨t, issued.trans (run_left ran), handles.of_same thb xents, kept⟩

end Sys2Proof.Machine
end

section
/-!
The index scratchpad (R322, R323, R326, R329 to R333, R385, R390).
-/

namespace Sys2Proof.Machine

/-- Settles O44: each instruction sweeps its positions as the run that describes it says, and a full slice enters the handler
at the position that finds no room. -/
theorem scratchpadEntries : Obligations.ScratchpadEntries := by
  refine ⟨?_, ?_⟩
  · intro s f gd d a b c e sel hs hsh hp hn _ ha hb _ vl len has key on keeps sum inserts
    refine ⟨?xins, ?xacc, xlook_completes hs hsh hp f d a c e, xdel_completes hs hsh hp gd a c e,
      xdrain_completes hs hsh hp gd ha hb, xcnt_does hs hp gd sel, xclr_clears hs hp gd⟩
    case xins =>
      intro room hbeg
      exact inserts_of_serves rfl rfl hs hsh (startOf_fresh hbeg f gd a b c e).1
        (insertRun_serves_xins f gd a b c e hp hsh hn room)
    case xacc =>
      have sums : sum = xcomb f (RM.ofBits s.cur.ctx.rm) := (xcomb_cases ..).symm
      clear_value sum
      subst sums
      intro room hbeg
      exact inserts_of_serves rfl rfl hs hsh (startOf_fresh hbeg f gd a b c e).2
        (insertRun_serves_xacc f gd a b c e hp hsh hn room)
  · intro s f gd a b c hs hp hb hvl hnr full new hthb hhdl frame
    obtain ⟨t, ran, ⟨hdl, term, code, tval, tfpc, pc, xents⟩, kept⟩ :=
      xins_full hs hp hb hvl hnr full f gd b c new hthb hhdl frame
    exact ⟨t, ran, code, hdl, tval, tfpc, pc, xents, term, kept⟩

end Sys2Proof.Machine
end
